-- ==== Sys2Proof/Word.lean ====
section
/-! DEFINITION. The word types of the SV-2448 (R6, R7) and the plain records that instructions carry. -/

namespace Sys2Proof

abbrev Byte := BitVec 8
abbrev Half := BitVec 16
abbrev Word := BitVec 32
abbrev Dword := BitVec 64

/-- The fields of a 96-bit lane instruction (R96) less its opcode. LBRA and PHINT use word1 whole
(R100): it is then read back from opA, opB, opC, sat and negB. -/
structure LaneWord where
  dst : BitVec 8
  nowb : Bool
  lat : BitVec 2
  pred : BitVec 3
  pneg : Bool
  ty : BitVec 5
  rnd : BitVec 3
  opA : BitVec 10
  opB : BitVec 10
  opC : BitVec 10
  sat : Bool
  negB : Bool
  w2 : BitVec 32
  deriving DecidableEq, Repr, Inhabited

/-- A 64-byte ring entry (R401): eight dwords, dword 0 at the lowest address. -/
structure Entry where
  d0 : Dword
  d1 : Dword
  d2 : Dword
  d3 : Dword
  d4 : Dword
  d5 : Dword
  d6 : Dword
  d7 : Dword
  deriving DecidableEq, Repr, Inhabited

/-- The comparison of a conditional branch (R158). -/
inductive BranchCond where
  | eq | ne | lt | ge | ltu | geu
  deriving DecidableEq, Repr, Inhabited

/-- What follows an SLIT (R90). `other` is any word that may not follow it: the pair is illegal. -/
inductive LitUser where
  | addi (d a : BitVec 6) (i : BitVec 14)
  | andi (d a : BitVec 6) (i : BitVec 14)
  | ori (d a : BitVec 6) (i : BitVec 14)
  | xori (d a : BitVec 6) (i : BitVec 14)
  | pref (h : BitVec 2) (a : BitVec 6) (i : BitVec 14)
  | branch (c : BranchCond) (a b : BitVec 6) (o : BitVec 14)
  | jtab (a : BitVec 6) (o : BitVec 14)
  | other (w : Word)
  deriving DecidableEq, Repr, Inhabited

/-- An inbound remote request as it arrives at its target (R427): the requesting package, the local
DPA, and what is asked. `op` is the ATOP code of R99 with the type code of R60. -/
inductive InboundKind where
  | read (size : Nat)
  | write (data : List Byte)
  | atomic (ty : BitVec 5) (op : BitVec 4) (operand expected : Dword)
  /-- The atomics of one lane instruction on one line, in lane order: byte offset, operand, expected value (R219, R225). -/
  | lineAtomic (ty : BitVec 5) (op : BitVec 4) (parts : List (Nat × Dword × Dword))
  /-- A write of some bits of each byte (R245). -/
  | masked (data mask : List Byte)
  /-- A write that leaves the 8-byte unit marked uncorrectable (R344, R357). -/
  | mark
  /-- The registration step of an SWAITC (R293), with the waiter's scope, ASID, LTAG, TEAMID and GID (R294). -/
  | monitor (cmp : Nat) (dword : Bool) (value : Dword) (scope asid ltag team gid : Nat)
  /-- A place step (R300) by group identity `who` of the package: XACQ 0, XWAIT 1, XGIVE 2 to identity `to_`, XSWAP 3, XABAN 4,
  XREL 5, the end of the group 6 (R301); `handle` and `second` are handles. -/
  | place (op scope who to_ : Nat) (handle second : Dword)
  /-- A translation of the package pins, or no longer pins, a page of this package's directory (R322, R333). -/
  | pin (gpn : Nat) (up : Bool)
  /-- PGMIG at this package's directory (R336). -/
  | migrate (gpn target : Nat)
  /-- The package gives up its probe of the page of the address, whose pin goes (R226). -/
  | unprobe
  /-- The switch of a page of the package's directory whose old frame, the home `old`, is here claims a stub (R338, R340): the new
  home, the EPOCH, and the packages to acknowledge. -/
  | stub (gpn old home epoch : Nat) (waiting : List Nat)
  /-- REDIRECT of an answer from the package for a page of its directory, to a die here (R340, R341). -/
  | redirect (die gpn home epoch : Nat)
  deriving DecidableEq, Repr, Inhabited

structure Inbound where
  src : BitVec 10
  addr : Nat
  kind : InboundKind
  deriving DecidableEq, Repr, Inhabited

/-- Where flits of a multicast belong (R431, R432): the multicast's number at its sender, the local address and the length of its
range, and their byte offset in it. -/
structure FlitAt where
  id : Nat
  dst : Nat
  len : Nat
  off : Nat
  deriving DecidableEq, Repr, Inhabited

/-- What a chunk of a collective carries: its sender's operation, by OPC, item word and COUNT (R436), and the data. -/
structure ChunkData where
  opc : BitVec 8
  items : Dword
  count : Word
  words : List Dword
  deriving DecidableEq, Repr, Inhabited

/-- Where a soft error strikes (R221, R295, R367): a memory unit (which poisons it), a slice's monitor
storage, or a line of the DRAM cache layer, clean or dirty. -/
inductive SoftErrorAt where
  | memory (addr : Nat)
  | monitors (die slice : Nat)
  | cacheLine (addr : Nat) (dirty : Bool)
  deriving DecidableEq, Repr, Inhabited

end Sys2Proof
end

