-- ==== Sys2Proof/Machine/Crypto.lean ====
section
/-! DEFINITION. The functions of the standards SM3 and SM2 that R5 names (R447, R449): the hash, and signatures on the
recommended 256-bit curve, with the default distinguishing identifier. -/

namespace Sys2Proof.Machine

/-- The bytes of a number, the highest first. -/
def bytesBE (n v : Nat) : List Byte := (List.range n).map (fun i => BitVec.ofNat 8 (v / 2 ^ (8 * (n - 1 - i))))
/-- The number that bytes make, the highest first. -/
def natBE (bs : List Byte) : Nat := bs.foldl (fun m b => 256 * m + b.toNat) 0

/-! ### SM3 -/

/-- A message padded to whole 64-byte blocks: a one bit, zeros, the length in bits. -/
def sm3Pad (m : List Byte) : List Byte :=
  m ++ [0x80] ++ List.replicate ((119 - m.length % 64) % 64) 0 ++ bytesBE 8 (8 * m.length)

def sm3P0 (x : Word) : Word := x ^^^ x.rotateLeft 9 ^^^ x.rotateLeft 17
def sm3P1 (x : Word) : Word := x ^^^ x.rotateLeft 15 ^^^ x.rotateLeft 23

/-- The expanded words of a block, the newest first. -/
def sm3Expand : Nat → List Word → List Word
  | 0, ws => ws
  | n + 1, ws =>
    let w (k : Nat) : Word := (ws[k - 1]?).getD 0
    sm3Expand n ((sm3P1 (w 16 ^^^ w 9 ^^^ (w 3).rotateLeft 15) ^^^ (w 13).rotateLeft 7 ^^^ w 6) :: ws)

/-- The boolean functions of rounds from 16 on, and of the earlier ones. -/
def sm3Ff (j : Nat) (x y z : Word) : Word := if j < 16 then x ^^^ y ^^^ z else (x &&& y) ||| (x &&& z) ||| (y &&& z)
def sm3Gg (j : Nat) (x y z : Word) : Word := if j < 16 then x ^^^ y ^^^ z else (x &&& y) ||| (~~~x &&& z)

/-- One round on the eight working words. -/
def sm3Round (ws : List Word) (v : List Word) (j : Nat) : List Word :=
  match v with
  | [a, b, c, d, e, f, g, h] =>
    let t : Word := if j < 16 then 0x79CC4519 else 0x7A879D8A
    let wj := (ws[j]?).getD 0
    let s1 := (a.rotateLeft 12 + e + t.rotateLeft (j % 32)).rotateLeft 7
    let t1 := sm3Ff j a b c + d + (s1 ^^^ a.rotateLeft 12) + (wj ^^^ (ws[j + 4]?).getD 0)
    let t2 := sm3Gg j e f g + h + s1 + wj
    [t1, a, b.rotateLeft 9, c, sm3P0 t2, e, f.rotateLeft 19, g]
  | v => v

/-- The compression of one block. -/
def sm3Block (v : List Word) (block : List Byte) : List Word :=
  let w0 := (List.range 16).map (fun i => BitVec.ofNat 32 (natBE ((block.drop (4 * i)).take 4)))
  let ws := (sm3Expand 52 w0.reverse).reverse
  List.zipWith (fun x y => x ^^^ y) v ((List.range 64).foldl (sm3Round ws) v)

def sm3Iv : List Word :=
  [0x7380166F, 0x4914B2B9, 0x172442D7, 0xDA8A0600, 0xA96F30BC, 0x163138AA, 0xE38DEE4D, 0xB0FB0E4E]

/-- SM3 of a byte string: 32 bytes. -/
def sm3 (m : List Byte) : List Byte :=
  let p := sm3Pad m
  ((List.range (p.length / 64)).foldl (fun v i => sm3Block v ((p.drop (64 * i)).take 64)) sm3Iv).flatMap
    (fun w => bytesBE 4 w.toNat)

/-! ### SM2 -/

def sm2P : Nat := 0xFFFFFFFEFFFFFFFFFFFFFFFFFFFFFFFFFFFFFFFF00000000FFFFFFFFFFFFFFFF
def sm2A : Nat := 0xFFFFFFFEFFFFFFFFFFFFFFFFFFFFFFFFFFFFFFFF00000000FFFFFFFFFFFFFFFC
def sm2B : Nat := 0x28E9FA9E9D9F5E344D5A9E4BCF6509A7F39789F515AB8F92DDBCBD414D940E93
def sm2N : Nat := 0xFFFFFFFEFFFFFFFFFFFFFFFFFFFFFFFF7203DF6B21C6052B53BBF40939D54123
def sm2Gx : Nat := 0x32C4AE2C1F1981195F9904466A39C9948FE30BBFF2660BE1715A4589334C74C7
def sm2Gy : Nat := 0xBC3736A2F4F6779C59BDCEE36B692153D0A9877CC62A474002DF32E52139F0A0

/-- `x` to the power `e` modulo `m`, over the low `fuel` bits of `e`. -/
def powMod (m : Nat) : Nat → Nat → Nat → Nat
  | 0, _, _ => 1 % m
  | fuel + 1, x, e =>
    let y := powMod m fuel (x * x % m) (e / 2)
    if e % 2 = 1 then x * y % m else y

/-- The inverse modulo a prime. -/
def invMod (m x : Nat) : Nat := powMod m 256 (x % m) (m - 2)

/-- A point of the curve; none is the point at infinity. -/
def sm2Add : Option (Nat × Nat) → Option (Nat × Nat) → Option (Nat × Nat)
  | none, q => q
  | p, none => p
  | some (x1, y1), some (x2, y2) =>
    if x1 = x2 ∧ (y1 + y2) % sm2P = 0 then none
    else
      let l := if x1 = x2 then (3 * x1 * x1 + sm2A) * invMod sm2P (2 * y1) % sm2P
        else (y2 + sm2P - y1) * invMod sm2P (x2 + sm2P - x1) % sm2P
      let x := (l * l + 2 * sm2P - x1 - x2) % sm2P
      some (x, (l * (x1 + sm2P - x) + sm2P - y1) % sm2P)

/-- A multiple of a point, over the low `fuel` bits of the factor. -/
def sm2Mul : Nat → Nat → Option (Nat × Nat) → Option (Nat × Nat)
  | 0, _, _ => none
  | fuel + 1, k, p =>
    let q := sm2Mul fuel (k / 2) (sm2Add p p)
    if k % 2 = 1 then sm2Add p q else q

/-- The public key of a private key, x then y. -/
def sm2Public (d : Nat) : List Byte :=
  match sm2Mul 256 d (some (sm2Gx, sm2Gy)) with
  | some (x, y) => bytesBE 32 x ++ bytesBE 32 y
  | none => List.replicate 64 0

/-- The digest that a signature of a message signs: it starts with that of the identifier 1234567812345678, the curve and
the public key. -/
def sm2Digest (key m : List Byte) : Nat :=
  let id := (List.range 16).map (fun i => BitVec.ofNat 8 (0x31 + i % 8))
  let z := sm3 ([0x00, 0x80] ++ id ++ bytesBE 32 sm2A ++ bytesBE 32 sm2B ++ bytesBE 32 sm2Gx ++ bytesBE 32 sm2Gy ++ key)
  natBE (sm3 (z ++ m))

/-- Whether a signature (r, s) of a message verifies under a public key. -/
def sm2Verify (key m sig : List Byte) : Bool :=
  let r := natBE (sig.take 32)
  let s := natBE ((sig.drop 32).take 32)
  let x := natBE (key.take 32)
  let y := natBE ((key.drop 32).take 32)
  let t := (r + s) % sm2N
  decide (1 ≤ r) && decide (r < sm2N) && decide (1 ≤ s) && decide (s < sm2N) && t != 0 &&
  (match sm2Add (sm2Mul 256 s (some (sm2Gx, sm2Gy))) (sm2Mul 256 t (some (x, y))) with
   | some (x1, _) => (sm2Digest key m + x1) % sm2N == r
   | none => false)

/-- The signature of a message under a private key with a random number; none where that number is unfit. -/
def sm2SignWith (d k : Nat) (m : List Byte) : Option (List Byte) :=
  match sm2Mul 256 k (some (sm2Gx, sm2Gy)) with
  | some (x1, _) =>
    let r := (sm2Digest (sm2Public d) m + x1) % sm2N
    let s := invMod sm2N (1 + d) * (k + r * (sm2N - d % sm2N)) % sm2N
    if r = 0 ∨ r + k = sm2N ∨ s = 0 then none else some (bytesBE 32 r ++ bytesBE 32 s)
  | none => none

/-- A signature, with the first fit number of a few from one on. -/
def sm2Sign (d : Nat) (m : List Byte) (k : Nat) : Nat → List Byte
  | 0 => List.replicate 64 0
  | fuel + 1 => match sm2SignWith d (k % (sm2N - 1) + 1) m with
    | some b => b
    | none => sm2Sign d m (k + 1) fuel

end Sys2Proof.Machine
end

