-- ==== Sys2Proof/Syntax.lean ====
section
/-! DEFINITION. The instruction set: one constructor per row of spec/opcode_table.json.
Rows 0-89 are scalar words (R88-R95), 90-166 lane instructions (R96-R100), the engine commands carry their
64-bit words (R352, R378, R431, R436), packets and translation requests their 64-byte entries (R404, R320).
The other rows are steps of the machine that no word encodes: their arguments name the item they act on and
carry the data that comes from outside the module. -/

namespace Sys2Proof

inductive Instr where
  /-- R153. Writes a + b, wrapping modulo 2^64. -/
  | sadd (d : BitVec 6) (a : BitVec 6) (b : BitVec 6)
  /-- R153. Writes a − b. -/
  | ssub (d : BitVec 6) (a : BitVec 6) (b : BitVec 6)
  /-- R153. Writes the low 64 bits of a × b. -/
  | smul (d : BitVec 6) (a : BitVec 6) (b : BitVec 6)
  /-- R153. Writes the high 64 bits of the signed 128-bit product. -/
  | smulh (d : BitVec 6) (a : BitVec 6) (b : BitVec 6)
  /-- R154. Writes the signed quotient truncated toward zero, and traps INT_DIVIDE_ZERO when b = 0. -/
  | sdiv (d : BitVec 6) (a : BitVec 6) (b : BitVec 6)
  /-- R154. Writes the signed remainder with the sign of a, and traps when b = 0. -/
  | srem (d : BitVec 6) (a : BitVec 6) (b : BitVec 6)
  /-- R153. Writes the bitwise and of a and b. -/
  | sand (d : BitVec 6) (a : BitVec 6) (b : BitVec 6)
  /-- R153. Writes the bitwise or of a and b. -/
  | sor (d : BitVec 6) (a : BitVec 6) (b : BitVec 6)
  /-- R153. Writes the bitwise xor of a and b. -/
  | sxor (d : BitVec 6) (a : BitVec 6) (b : BitVec 6)
  /-- R153. Shifts a left by b<5:0>. -/
  | sshl (d : BitVec 6) (a : BitVec 6) (b : BitVec 6)
  /-- R153. Shifts a right logically by b<5:0>. -/
  | sshr (d : BitVec 6) (a : BitVec 6) (b : BitVec 6)
  /-- R153. Shifts a right arithmetically by b<5:0>. -/
  | ssra (d : BitVec 6) (a : BitVec 6) (b : BitVec 6)
  /-- R153. Writes the signed minimum of a and b. -/
  | smin (d : BitVec 6) (a : BitVec 6) (b : BitVec 6)
  /-- R153. Writes the signed maximum of a and b. -/
  | smax (d : BitVec 6) (a : BitVec 6) (b : BitVec 6)
  /-- R153. Writes the unsigned minimum of a and b. -/
  | sminu (d : BitVec 6) (a : BitVec 6) (b : BitVec 6)
  /-- R153. Writes the unsigned maximum of a and b. -/
  | smaxu (d : BitVec 6) (a : BitVec 6) (b : BitVec 6)
  /-- R153. Writes 1 if a < b signed, and 0 otherwise. -/
  | sslt (d : BitVec 6) (a : BitVec 6) (b : BitVec 6)
  /-- R153. Writes 1 if a < b unsigned, and 0 otherwise. -/
  | ssltu (d : BitVec 6) (a : BitVec 6) (b : BitVec 6)
  /-- R153. Writes 1 if a = b, and 0 otherwise. -/
  | sseq (d : BitVec 6) (a : BitVec 6) (b : BitVec 6)
  /-- R153. Writes the number of leading zero bits of a. -/
  | sclz (d : BitVec 6) (a : BitVec 6)
  /-- R153. Writes the number of one bits of a. -/
  | spopc (d : BitVec 6) (a : BitVec 6)
  /-- R153. Writes a when register c is nonzero, and b otherwise. -/
  | ssel (d : BitVec 6) (a : BitVec 6) (b : BitVec 6) (c : BitVec 6)
  /-- R155. Writes a plus the sign-extended immediate, or the 40-bit immediate under SLIT. -/
  | saddi (d : BitVec 6) (a : BitVec 6) (i : BitVec 14)
  /-- R155. Writes a and the immediate. -/
  | sandi (d : BitVec 6) (a : BitVec 6) (i : BitVec 14)
  /-- R155. Writes a or the immediate. -/
  | sori (d : BitVec 6) (a : BitVec 6) (i : BitVec 14)
  /-- R155. Writes a xor the immediate. -/
  | sxori (d : BitVec 6) (a : BitVec 6) (i : BitVec 14)
  /-- R156. Shifts a left by the immediate amount. -/
  | sshli (d : BitVec 6) (a : BitVec 6) (n : BitVec 6)
  /-- R156. Shifts a right logically by the immediate amount. -/
  | sshri (d : BitVec 6) (a : BitVec 6) (n : BitVec 6)
  /-- R156. Shifts a right arithmetically by the immediate amount. -/
  | ssrai (d : BitVec 6) (a : BitVec 6) (n : BitVec 6)
  /-- R90. Supplies bits 39:14 of the immediate of its follower, and the pair executes as one instruction. -/
  | slit (l : BitVec 26) (f : LitUser)
  /-- R227. Performs an ordinary load of the sized value at s(a) + offset, extending it into d. -/
  | sld (d : BitVec 6) (a : BitVec 6) (z : BitVec 3) (o : BitVec 11)
  /-- R227. Performs an ordinary store of the low bytes of s(d), buffered under run-ahead. -/
  | sst (d : BitVec 6) (a : BitVec 6) (z : BitVec 3) (o : BitVec 11)
  /-- R229. Performs one 64-bit atomic at s(a) with its order and scope, and returns the old value in d. -/
  | satom (d : BitVec 6) (a : BitVec 6) (b : BitVec 6) (o : BitVec 3) (r : BitVec 2) (s : BitVec 3)
  /-- R230. Prefetch hint, which never traps after the encoding checks. -/
  | spref (h : BitVec 2) (a : BitVec 6) (i : BitVec 14)
  /-- R158. Branches when a = b. -/
  | sbeq (a : BitVec 6) (b : BitVec 6) (o : BitVec 14)
  /-- R158. Branches when a ≠ b. -/
  | sbne (a : BitVec 6) (b : BitVec 6) (o : BitVec 14)
  /-- R158. Branches when a < b signed. -/
  | sblt (a : BitVec 6) (b : BitVec 6) (o : BitVec 14)
  /-- R158. Branches when a ≥ b signed. -/
  | sbge (a : BitVec 6) (b : BitVec 6) (o : BitVec 14)
  /-- R158. Branches when a < b unsigned. -/
  | sbltu (a : BitVec 6) (b : BitVec 6) (o : BitVec 14)
  /-- R158. Branches when a ≥ b unsigned. -/
  | sbgeu (a : BitVec 6) (b : BitVec 6) (o : BitVec 14)
  /-- R159. Jumps by a 20-bit word offset. -/
  | sjmp (o : BitVec 20)
  /-- R159. Writes the return address to d and jumps by a 20-bit word offset. -/
  | scall (d : BitVec 6) (o : BitVec 20)
  /-- R163. Calls through a register to an SPAD with a matching label, writing the return address to s63. -/
  | scallr (a : BitVec 6) (l : BitVec 12)
  /-- R160. Sets SPC to s(a) without a landing check. -/
  | sret (a : BitVec 6)
  /-- R164. Dispatches through a bounded scalar jump table to a labelled SPAD. -/
  | sjtab (a : BitVec 6) (o : BitVec 14)
  /-- R162. Landing pad, which acts as SNOP when executed. -/
  | spad (l : BitVec 12)
  /-- R165. Enqueues a lane block, capturing scalars, FMT, AXIS and the pending set. -/
  | lrun (l : BitVec 26)
  /-- R166. Waits until no block of the group is outstanding. -/
  | lwait
  /-- R167. Writes FMT from s(a), after the checks of R80. -/
  | sfmt (a : BitVec 6)
  /-- R167. Writes FMT.AFMT and FMT.BFMT from the immediate. -/
  | sfmtAb (a : BitVec 5) (b : BitVec 5)
  /-- R239. Writes AXISn from s(a), after its checks. -/
  | saxis (n : BitVec 2) (a : BitVec 6)
  /-- R168. Pops the oldest word of qn's pop buffer into d. -/
  | sqin (d : BitVec 6) (n : BitVec 4)
  /-- R168. Pushes s(a) into qn's push buffer. -/
  | sqout (a : BitVec 6) (n : BitVec 4)
  /-- R289. Claims a barrier object, sets its expected count and sets the group's token bit. -/
  | sbarInit (a : BitVec 6) (p : BitVec 1) (i : BitVec 6)
  /-- R289. Publishes at .team and arrives at the barrier. -/
  | sbarArrive (p : BitVec 1) (i : BitVec 6)
  /-- R289. Waits until the barrier's phase differs from the token, then makes the masked writes visible. -/
  | sbarWait (m : BitVec 7) (p : BitVec 1) (i : BitVec 6)
  /-- R289. Arrives, then waits on the barrier, as one instruction. -/
  | sbarArw (m : BitVec 7) (p : BitVec 1) (i : BitVec 6)
  /-- R293. Compares a word at its home slice, and registers a condition monitor and waits unless it is met or the table is full. -/
  | swaitc (d : BitVec 6) (a : BitVec 6) (b : BitVec 6) (c : BitVec 3) (z : BitVec 2) (s : BitVec 3)
  /-- R37. Ends the group's phase with pub and ref at the scope. -/
  | phase (s : BitVec 3)
  /-- R37. Publishes the group's earlier stores within the scope. -/
  | phasePub (s : BitVec 3)
  /-- R37. Refreshes the group's later loads to the newest values published within the scope. -/
  | phaseRef (s : BitVec 3)
  /-- R45. Orders the group's accesses and commands on the classes in the path mask. -/
  | xfence (m : BitVec 7)
  /-- R47. Waits for the core's accepted commands on the masked classes, then acts as XFENCE. -/
  | drain (m : BitVec 7)
  /-- R416. Samples a termination domain twice, 32 cycles apart, and writes 1 when it is quiet. -/
  | tdet (d : BitVec 6) (a : BitVec 6)
  /-- R300. Acquires an exclusive object, or queues a place and returns its handle. -/
  | xacq (d : BitVec 6) (a : BitVec 6) (s : BitVec 3)
  /-- R300. Waits until the held place is granted, then acquires. -/
  | xwait (d : BitVec 6) (a : BitVec 6) (s : BitVec 3)
  /-- R300. Gives a held place to another group of the team. -/
  | xgive (a : BitVec 6) (b : BitVec 6)
  /-- R300. Exchanges the queue positions of the issuer's place and a later place, or returns STALE. -/
  | xswap (d : BitVec 6) (a : BitVec 6) (b : BitVec 6)
  /-- R300. Abandons a queued place, or releases a granted one. -/
  | xaban (a : BitVec 6)
  /-- R300. Publishes at the scope and releases the object's granted head. -/
  | xrel (a : BitVec 6) (s : BitVec 3)
  /-- R414. Takes the next work record of a work queue, sleeping until one is available, and jumps to its PC. -/
  | wpop (a : BitVec 6)
  /-- R415. Appends one work record to a work queue as a FEED of one. -/
  | wpost (d : BitVec 6) (a : BitVec 6) (b : BitVec 6)
  /-- R274. Resolves and validates a matrix configuration and writes MCONF. -/
  | mcfg (a : BitVec 6)
  /-- R280. Writes GANG with the member list of a gang. -/
  | mgang (a : BitVec 6)
  /-- R276. Accepts a dense multiply-accumulate into a tile, or arrives at a rendezvous when ganged. -/
  | mma (a : BitVec 6) (b : BitVec 6)
  /-- R276. Accepts a multiply-accumulate that skips the B blocks cleared in the bitmap. -/
  | mmas (d : BitVec 6) (a : BitVec 6) (b : BitVec 6)
  /-- R281. Sets every element of a tile to +0. -/
  | mzero (t : BitVec 3)
  /-- R281. Loads a tile from the local store. -/
  | mlda (a : BitVec 6) (t : BitVec 3)
  /-- R283. Converts and stores the rows of a tile to the local store, plain or stippled. -/
  | mst (a : BitVec 6) (b : BitVec 6) (t : BitVec 3)
  /-- R284. Waits for every matrix operation of the group, then fences LANE and MATRIX. -/
  | mwait
  /-- R336. Requests live migration of a MIG page to a target frame. -/
  | pgmig (d : BitVec 6) (a : BitVec 6) (b : BitVec 6)
  /-- R337. Returns a page's directory state, home and epoch. -/
  | pgqry (d : BitVec 6) (a : BitVec 6)
  /-- R170. Reads a special register into d. -/
  | sgetr (d : BitVec 6) (r : BitVec 8)
  /-- R170. Writes a special register from s(a), with privilege and value checks. -/
  | ssetr (a : BitVec 6) (r : BitVec 8)
  /-- R174. Changes only SPC. -/
  | snop
  /-- R178. Halts a privileged group after saving its whole context. -/
  | shalt
  /-- R175. Ends the group after waiting for its work, publishing at .sys and releasing its places. -/
  | send
  /-- R176. Raises SOFTWARE with a software cause. -/
  | strap (c : BitVec 8)
  /-- R255. Returns from the trap handler to the state held in the trap record. -/
  | srft
  /-- R176. Raises BREAKPOINT. -/
  | sbkpt
  /-- R187. Integer A + B per active lane, wrapping or saturating. -/
  | vadd (f : LaneWord)
  /-- R187. Integer A − B per active lane. -/
  | vsub (f : LaneWord)
  /-- R187. Integer A × B per active lane. -/
  | vmul (f : LaneWord)
  /-- R187. High half of the exact integer product. -/
  | vmulh (f : LaneWord)
  /-- R187. Integer A × B + C with one wrap or clamp. -/
  | vmad (f : LaneWord)
  /-- R187. Integer minimum of A and B. -/
  | vmin (f : LaneWord)
  /-- R187. Integer maximum of A and B. -/
  | vmax (f : LaneWord)
  /-- R187. Integer absolute value of A. -/
  | vabs (f : LaneWord)
  /-- R187. Bitwise and. -/
  | vand (f : LaneWord)
  /-- R187. Bitwise or. -/
  | vor (f : LaneWord)
  /-- R187. Bitwise xor. -/
  | vxor (f : LaneWord)
  /-- R187. Bitwise not of A. -/
  | vnot (f : LaneWord)
  /-- R188. Shifts left by B, giving 0 for an amount of N or more. -/
  | vshl (f : LaneWord)
  /-- R188. Shifts right logically by B. -/
  | vshr (f : LaneWord)
  /-- R188. Shifts right arithmetically by B. -/
  | vsra (f : LaneWord)
  /-- R187. Counts the leading zeros of A. -/
  | vclz (f : LaneWord)
  /-- R187. Counts the one bits of A. -/
  | vpopc (f : LaneWord)
  /-- R188. Extracts a bit field of A. -/
  | vbfe (f : LaneWord)
  /-- R188. Inserts A's low bits into a field of dst. -/
  | vbfi (f : LaneWord)
  /-- R187. Selects A where C is nonzero, and B otherwise. -/
  | vsel (f : LaneWord)
  /-- R187. Copies A. -/
  | vmov (f : LaneWord)
  /-- R190. Float A + B, rounded once. -/
  | vfadd (f : LaneWord)
  /-- R190. Float A − B, rounded once. -/
  | vfsub (f : LaneWord)
  /-- R190. Float A × B, rounded once. -/
  | vfmul (f : LaneWord)
  /-- R190. Fused A × B + C with one rounding. -/
  | vfma (f : LaneWord)
  /-- R190. minimumNumber of A and B. -/
  | vfmin (f : LaneWord)
  /-- R190. maximumNumber of A and B. -/
  | vfmax (f : LaneWord)
  /-- R190. Correctly rounded reciprocal. -/
  | vfrcp (f : LaneWord)
  /-- R190. Correctly rounded reciprocal square root. -/
  | vfrsq (f : LaneWord)
  /-- R190. Correctly rounded square root. -/
  | vfsqrt (f : LaneWord)
  /-- R190. Correctly rounded 2^A. -/
  | vfexp2 (f : LaneWord)
  /-- R190. Correctly rounded log2 A. -/
  | vflog2 (f : LaneWord)
  /-- R191. Writes a one-hot class mask of A. -/
  | vfclass (f : LaneWord)
  /-- R192. Converts between integer and float types. -/
  | vcvt (f : LaneWord)
  /-- R193. Quantises one element into an existing block. -/
  | vqnt (f : LaneWord)
  /-- R194. Dequantises a block code to f32. -/
  | vdqnt (f : LaneWord)
  /-- R195. Two-element ts8 dot product plus an addend, rounded once. -/
  | vtsdot (f : LaneWord)
  /-- R196. Two-element zb dot product plus an addend, rounded once. -/
  | vzdot (f : LaneWord)
  /-- R197. Integer compare into a predicate. -/
  | vcmp (f : LaneWord)
  /-- R197. Float compare into a predicate. -/
  | vfcmp (f : LaneWord)
  /-- R198. Predicate and. -/
  | pand (f : LaneWord)
  /-- R198. Predicate or. -/
  | por (f : LaneWord)
  /-- R198. Predicate xor. -/
  | pxor (f : LaneWord)
  /-- R198. Predicate not. -/
  | pnot (f : LaneWord)
  /-- R198. Sets a predicate where A is nonzero. -/
  | pset (f : LaneWord)
  /-- R198. Sets a predicate in the lowest active lane where pa holds. -/
  | pfirst (f : LaneWord)
  /-- R198. Writes 1 or 0 into a vector register from a predicate. -/
  | pmov (f : LaneWord)
  /-- R200. Reads A from the lane that B names, per lane. -/
  | vshuf (f : LaneWord)
  /-- R200. Broadcasts A from a uniform lane. -/
  | vbcast (f : LaneWord)
  /-- R201. Reduces the active lanes by a fixed tree into a scalar register. -/
  | vred (f : LaneWord)
  /-- R201. Inclusive scan of the active lanes by a fixed tree. -/
  | vscan (f : LaneWord)
  /-- R203. Writes a scalar mask of the active lanes where the predicate holds. -/
  | vballot (f : LaneWord)
  /-- R200. Reads one lane of A into a scalar register. -/
  | vrdl (f : LaneWord)
  /-- R200. Writes one lane of dst from A. -/
  | vwrl (f : LaneWord)
  /-- R204. Sorts A's values across the active lanes. -/
  | vsort (f : LaneWord)
  /-- R205. Pushes one word per active lane into a queue register. -/
  | vqin (f : LaneWord)
  /-- R216. Performs an ordinary load per active lane. -/
  | vld (f : LaneWord)
  /-- R216. Performs a coherent load per active lane at the PoC. -/
  | vldc (f : LaneWord)
  /-- R216. Performs an ordinary store per active lane. -/
  | vst (f : LaneWord)
  /-- R224. Performs an atomic per active lane, with the instruction's order and scope. -/
  | vatom (f : LaneWord)
  /-- R217. Prefetch hint per active lane, which never traps. -/
  | vpref (f : LaneWord)
  /-- R222. Loads from the team's local store. -/
  | lld (f : LaneWord)
  /-- R222. Stores to the team's local store. -/
  | lst (f : LaneWord)
  /-- R222. Performs an atomic at the local store. -/
  | latom (f : LaneWord)
  /-- R243. Stipple store: converts with residue carry along an axis and stores the codes. -/
  | vstq (f : LaneWord)
  /-- R246. Saves an axis's residues to memory. -/
  | esav (f : LaneWord)
  /-- R246. Loads an axis's residues from memory. -/
  | elod (f : LaneWord)
  /-- R246. Clears an axis's residues. -/
  | eclr (f : LaneWord)
  /-- R207. Conditional lane branch with a join, which runs the divergence procedure. -/
  | lbra (f : LaneWord)
  /-- R208. Moves the fragment's PC by an offset. -/
  | ljmp (f : LaneWord)
  /-- R209. Per-lane dispatch through a lane jump table to labelled LPADs. -/
  | ljtab (f : LaneWord)
  /-- R210. Lane landing pad, which acts as LNOP. -/
  | lpad (f : LaneWord)
  /-- R128. Join point: settles the fragment's stacks and refuses fragments. -/
  | ljoin (f : LaneWord)
  /-- R128. Join point that waits for every slice and fuses fragments at one address. -/
  | regang (f : LaneWord)
  /-- R130. Join point that ends the block when every slice waits there. -/
  | lend (f : LaneWord)
  /-- R212. Liveness hint at which a pending swap-out or pre-emption may take effect. -/
  | phint (f : LaneWord)
  /-- R213. Changes only the fragment's PC. -/
  | lnop (f : LaneWord)
  /-- R133. A waiting SQOUT entry pushes when its push buffer has room, and later entries follow it. -/
  | sideBufferRelease (g : Nat)
  /-- R142. A waiting group becomes resident, choosing victims and restoring its frame. -/
  | residency (die : Nat)
  /-- R143. A resident group passes its 200,000-cycle quantum and may be taken as a victim. -/
  | quantumExpiry (g : Nat)
  /-- R259. PRETMO cycles after a save request, every fragment stops and a full save begins. -/
  | pretmoExpiry (g : Nat)
  /-- R261. The save engine finishes writing a context frame, the slot frees and any fault record is posted. -/
  | saveCompletion (g : Nat)
  /-- R272. The matrix engine starts the next accepted operation in acceptance order. -/
  | matrixOperation (core : Nat)
  /-- R279. A matrix operation's writes are complete D + 20 cycles after it starts. -/
  | matrixCompletion (core : Nat)
  /-- R357. Copy engine command: plain, DQF, EXPAND or PACK copy. -/
  | copy (w0 w1 w2 w3 w4 : Dword)
  /-- R363. Gather engine command that fetches unique rows and pools bags. -/
  | bag (w0 w1 w2 w3 w4 w5 w6 : Dword)
  /-- R364. Gather engine command that combines duplicates and atomically adds gradients to rows. -/
  | upd (w0 w1 w2 w3 w4 w5 w6 : Dword)
  /-- R366. Bank-side matrix-vector product over weights held in the stack. -/
  | ngemv (w0 w1 w2 w3 w4 w5 w6 : Dword)
  /-- R382. Search engine command that runs a best-first walk over a graph index. -/
  | srch (w0 w1 w2 w3 w4 w5 : Dword)
  /-- R322. A command waiting for pin room, a heap, a deferred entry or a migration switch is accepted and translates. -/
  | engineAcceptance (id : Nat)
  /-- R355. A copy operation writes its results, places its status word and arrives at its barrier. -/
  | copyCompletion (id : Nat)
  /-- R355. A BAG or UPD completes, places its status word and arrives. -/
  | gatherCompletion (id : Nat)
  /-- R355. An NGEMV completes, places its status word and arrives. -/
  | ngemvCompletion (id : Nat)
  /-- R385. A stack named by a range receives and keeps the query of a search. -/
  | broadcast (id stack : Nat)
  /-- R385. A walker reads a node's record, selects its neighbour slot and dispatches its neighbours. -/
  | expand (id : Nat)
  /-- R385. A walker reads a neighbour's record and scores it. -/
  | visit (id n : Nat)
  /-- R382. The home stack receives a (distance, id) pair or an empty reply and merges once the expansion is complete. -/
  | reply (id n : Nat)
  /-- R385. The home stack receives the count of replies to await for an expansion. -/
  | endOfExpansion (id : Nat)
  /-- R335. The directory adds a sharer and returns a GPN's home and epoch on an owner-cache miss. -/
  | directoryQuery (die gpn : Nat)
  /-- R339. A migration copies one 64-byte unit from the old home to the target. -/
  | copyUnit (gpn : Nat)
  /-- R338. After the last unit the directory switches home, claims a stub and sends invalidations. -/
  | switch (gpn : Nat)
  /-- R338. A sharer package removes the GPN from its owner caches. -/
  | invalidation (gpn pkg : Nat)
  /-- R343. A package's acknowledgement reaches the stub, which is freed when no count remains. -/
  | acknowledge (gpn pkg : Nat)
  /-- R340. A request reaching a frame with a live stub is relayed to its new home. -/
  | relay (die gpn : Nat)
  /-- R341. A requester receiving REDIRECT installs the new home in its owner cache. -/
  | redirect (n : Nat)
  /-- R431. Chain-multicasts a local buffer to up to 8 peer packages. -/
  | mcast (w0 w1 w2 w3 w4 w5 w6 : Dword)
  /-- R436. All-reduce over the members of a communicator. -/
  | allred (w0 w1 w2 w3 w4 : Dword)
  /-- R436. Reduce-scatter over a communicator. -/
  | redscat (w0 w1 w2 w3 w4 : Dword)
  /-- R436. All-gather over a communicator. -/
  | allgath (w0 w1 w2 w3 w4 : Dword)
  /-- R436. Broadcast from the root rank. -/
  | bcast (w0 w1 w2 w3 w4 : Dword)
  /-- R436. Completes when every member has issued its CBAR. -/
  | cbar (w0 w1 w2 w3 w4 : Dword)
  /-- R439. Merges sorted top-k lists up a tree of members. -/
  | topkmerge (w0 w1 w2 w3 w4 : Dword)
  /-- R440. A collective writes its DST, places its status word and arrives with class FABRIC. -/
  | collectiveCompletion (id : Nat)
  /-- R405. Packet with no effect. -/
  | nop (e : Entry)
  /-- R407. Discards the queue's fetched-ahead bytes. -/
  | fetchfence (e : Entry)
  /-- R405. Runs entries from an indirect buffer. -/
  | ib (e : Entry)
  /-- R405. Skips the next entries when a memory comparison is false. -/
  | pred (e : Entry)
  /-- R405. Repeats the next entries COUNT times. -/
  | loop (e : Entry)
  /-- R405. Waits until a memory comparison holds, through a monitor. -/
  | waitmem (e : Entry)
  /-- R405. Every 4,096 cycles with the monitor table full, a WAITMEM re-reads its word. -/
  | waitmemReread (qid : Nat)
  /-- R405. Atomic release store of DATA. -/
  | writemem (e : Entry)
  /-- R405. Atomic add or swap as a release, with an optional host notification. -/
  | signal (e : Entry)
  /-- R413. Appends records to a work queue, advancing TAIL and SENT and waking sleepers. -/
  | feed (e : Entry)
  /-- R413. A FEED waiting for room appends its records once the ring has room. -/
  | feedRoom (qid : Nat)
  /-- R409. Checks and accepts a two-entry launch of a grid of teams. -/
  | launch (e0 e1 : Entry)
  /-- R317. Invalidates translations of a range or of the whole ASID. -/
  | tlbinv (e : Entry)
  /-- R326. TLBINV completes after the commands it waits for, and writes its completion. -/
  | tlbinvCompletion (n : Nat)
  /-- R34. Changes a page's HOME or COH through the transition steps. -/
  | pgattr (e : Entry)
  /-- R344. A PGATTR waiting for pins or a migration performs its transition. -/
  | pgattrTransition (n : Nat)
  /-- R319. Binds a free ASID with its root and virtual function. -/
  | asidBind (e : Entry)
  /-- R319. Sweeps and frees an ASID that has no groups or commands. -/
  | asidRetire (e : Entry)
  /-- R331. Makes a parked group eligible for residency. -/
  | resume (e : Entry)
  /-- R323. Makes a deferred engine command translate again. -/
  | resumeCmd (e : Entry)
  /-- R400. A producer's tail write advances TAIL, or is ignored or faults the queue, and feeds a WORK queue. -/
  | tailWrite (qid : Nat) (t : Word)
  /-- R398. Writing STATE := RUN clears the fault, re-executes at HEAD and wakes sleepers. -/
  | qcbStateRun (qid : Nat)
  /-- R414. Every 4,096 cycles with a sleeper waiting, the home die re-reads a head entry with V = 0. -/
  | wpopReread (qid : Nat)
  /-- R416. 32 cycles after the first sample, TDET takes its second sample and writes its result. -/
  | tdetSecondSample (g : Nat)
  /-- R330. The driver advances HEAD, and held fault records are posted. -/
  | faultQueueHead (vf : Nat) (h : Dword)
  /-- R370. At the end of a 32 ms window, captured rows are written back and released and counts restart. -/
  | windowEnd (stack : Nat)
  /-- R446. Starts image verification, self-test, identity derivation and the CAPS write. -/
  | go
  /-- R446. At STAGE 5, starts the front end and sets STAGE 6. -/
  | fego
  /-- R446. Full reset to STAGE 0. -/
  | rst
  /-- R449. Writing the report address starts an attestation report, or it is refused. -/
  | raddr (v : Dword)
  /-- R449. The attestation report is written, ASTAT set to 2 and entry 64 notified. -/
  | reportDone
  /-- R451. Writing the power limit changes throttling within 1 ms. -/
  | plimit (v : Dword)
  /-- R442. Kills every context bound to an ASID, ending its groups and fabric work. -/
  | killctx (v : Dword)
  /-- R450. A write to 0x6010 resumes the halted or fatal group named by GIDENT. -/
  | hostResume (v : Dword)
  /-- R452. Writes a core's CORE-homed reservation, or is ignored past its limits. -/
  | corersv (n : Nat) (v : Dword)
  /-- R452. Writes a slice's pinned area, or is ignored past its limit. -/
  | slicersv (n : Nat) (v : Dword)
  /-- R8. A write to a register without a row of its own, under its access codes. -/
  | registerWrite (addr : Nat) (v : Dword)
  /-- R427. A target checks an inbound remote request against its window table, then performs it or NACKs it. -/
  | inboundRequest (r : Inbound)
  /-- R226. A target translates and pins a remote line for a multi-line atomic, or NACKs. -/
  | translationProbe (pkg : BitVec 10) (addr : Nat)
  /-- R429. An issuer receives a NACK and reports REMOTE_FAULT or a deferred fault. -/
  | nack (id reason : Nat)
  /-- R426. The target's acknowledgement of a performed posted store reaches the issuer. -/
  | storeAcknowledgement (id : Nat)
  /-- R429. A remote request has no response within FTMO. -/
  | remoteTimeout (id : Nat)
  /-- R425. A plane fails, and every package drains requests on it. -/
  | planeFailure (plane : BitVec 3)
  /-- R425. After the drain, the plane map is rewritten, unacknowledged packets replayed and held requests issued. -/
  | planeRemap (failed target : BitVec 3)
  /-- R432. A peer writes a multicast flit at its package and forwards it down the chain. -/
  | mcastFlit (src : BitVec 10) (addr : FlitAt) (data : List Byte)
  /-- R432. The origin receives a peer's report and completes when all are in. -/
  | mcastReport (id peer : Nat) (ok : Bool)
  /-- R435. A 16 KiB chunk of a collective arrives at a member and is combined or written. -/
  | collectiveChunk (id off : Nat) (final : Bool) (data : ChunkData)
  /-- R441. A member receives an abort and fails its operation. -/
  | abort (id : Nat)
  /-- R451. A background scrub finds an uncorrectable soft error, updating UECNT and LASTUE and notifying the host. -/
  | scrub (addr : Nat)
  /-- R446. Power-up starts the boot ROM at STAGE 0. -/
  | powerUp
  /-- R446. Kwaord link training completes and the ROM waits for GO. -/
  | linkTrained
  /-- R443. A host store to device memory over the Kwaord link is performed in host order; it is discarded before STAGE 5 and re-evaluates the condition monitors of its line. -/
  | hostStore (addr : Nat) (data : List Byte)
  /-- R451. Measured module power crosses the limit, so every core's issue rate is reduced or restored, THROT counts, and entry 64 is notified. -/
  | throttle (on : Bool) (cycles : Dword)
  /-- R295. A soft error strikes storage: in a slice's monitor storage it fires every monitor there with status 1, and in a dirty cache-layer line it makes the line uncorrectable. -/
  | softError (at_ : SoftErrorAt)
  /-- R426. A successful response to a remote load, VLDC, atomic or translation probe reaches the issuer, which writes the register or, once every probe has answered, performs the atomics. -/
  | remoteResponse (id : Nat) (data : List Byte) (bad : Nat)
  deriving DecidableEq, Repr, Inhabited

end Sys2Proof
end

