-- ==== Sys2Proof/WellFormed.lean ====
section
/-! DEFINITION. Which instructions the encodings allow: the field rules of the scalar words (R88-R95) and of
the lane words (R96-R100), the opcode of each command word, packet and request. An instruction that is not
well formed has no encoding of its own: its words raise ILLEGAL_INSN (R101) or are refused by the queue or
engine that reads them. -/

namespace Sys2Proof

/-! ### Lane field rules (R97, R100) -/

/-- What an opcode's dst field names. -/
inductive DstKind where
  | vec | pred | scalar | queue | axis | none | map
  deriving DecidableEq, Repr, Inhabited

/-- What an operand field of word1 carries: a selector, nothing, or a subfield below a bound. -/
inductive OpKind where
  | sel | zero | below (n : Nat) | srcType
  deriving DecidableEq, Repr, Inhabited

/-- What rnd3 carries: nothing, a rounding mode, or a condition with codes below n. -/
inductive RndKind where
  | zero | mode | cond (n : Nat)
  deriving DecidableEq, Repr, Inhabited

/-- What word2 carries (R99, R100). -/
inductive W2Kind where
  | lit | zero | mem | atom | locMem | locAtom | target | label | map
  deriving DecidableEq, Repr, Inhabited

/-- The type codes an opcode accepts directly. Codes 17 and 18 go with every class but `zero`. -/
inductive TyKind where
  | zero | int | signed | intB | bfe | bfi | any | arith | cvt | block | ts8 | zb | red | mem | atom
  deriving DecidableEq, Repr, Inhabited

/-- The type codes of R60 that each class holds. -/
def TyKind.codes : TyKind → List Nat
  | .zero => []
  | .int => [0, 1, 2, 3, 4, 5, 6, 7]
  | .signed => [0, 2, 4, 6]
  | .intB => [0, 1, 2, 3, 4, 5, 6, 7, 31]
  | .bfe => [4, 5, 6, 7]
  | .bfi => [5, 7, 31]
  | .any => [0, 1, 2, 3, 4, 5, 6, 7, 8, 9, 10, 11, 12, 31]
  | .arith => [8, 9, 10]
  | .cvt => [0, 1, 2, 3, 4, 5, 6, 7, 8, 9, 10, 11, 12]
  | .block => [13, 14, 15, 16]
  | .ts8 => [14]
  | .zb => [15, 16]
  | .red => [0, 1, 2, 3, 4, 5, 6, 7, 8, 9, 10, 31]
  | .mem => [0, 1, 2, 3, 4, 5, 6, 7, 8, 9, 10, 11, 12, 31]
  | .atom => [4, 5, 6, 7, 10, 31]

/-- The rules of one lane opcode. -/
structure LaneSpec where
  op : Nat
  dst : DstKind := .vec
  ty : TyKind := .zero
  a : OpKind := .sel
  b : OpKind := .zero
  c : OpKind := .zero
  rnd : RndKind := .zero
  sat : Bool := false
  neg : Bool := false
  w2 : W2Kind := .lit
  /-- Whether pred and pneg may be nonzero. -/
  pred : Bool := true
  deriving DecidableEq, Repr, Inhabited

/-- The rules of each lane instruction (R100, and the entries of each instruction). -/
def laneSpec : Instr → Option (LaneSpec × LaneWord)
  | .vadd f => some ({ op := 0x000, ty := .int, b := .sel, sat := true, neg := true }, f)
  | .vsub f => some ({ op := 0x001, ty := .int, b := .sel, sat := true, neg := true }, f)
  | .vmul f => some ({ op := 0x002, ty := .int, b := .sel, sat := true, neg := true }, f)
  | .vmulh f => some ({ op := 0x003, ty := .int, b := .sel, neg := true }, f)
  | .vmad f => some ({ op := 0x004, ty := .int, b := .sel, c := .sel, sat := true, neg := true }, f)
  | .vmin f => some ({ op := 0x005, ty := .int, b := .sel, neg := true }, f)
  | .vmax f => some ({ op := 0x006, ty := .int, b := .sel, neg := true }, f)
  | .vabs f => some ({ op := 0x007, ty := .signed, sat := true }, f)
  | .vand f => some ({ op := 0x008, ty := .intB, b := .sel }, f)
  | .vor f => some ({ op := 0x009, ty := .intB, b := .sel }, f)
  | .vxor f => some ({ op := 0x00A, ty := .intB, b := .sel }, f)
  | .vnot f => some ({ op := 0x00B, ty := .intB }, f)
  | .vshl f => some ({ op := 0x00C, ty := .intB, b := .sel }, f)
  | .vshr f => some ({ op := 0x00D, ty := .intB, b := .sel }, f)
  | .vsra f => some ({ op := 0x00E, ty := .intB, b := .sel }, f)
  | .vclz f => some ({ op := 0x00F, ty := .intB }, f)
  | .vpopc f => some ({ op := 0x010, ty := .intB }, f)
  | .vbfe f => some ({ op := 0x011, ty := .bfe, b := .sel, c := .sel }, f)
  | .vbfi f => some ({ op := 0x012, ty := .bfi, b := .sel, c := .sel }, f)
  | .vsel f => some ({ op := 0x013, ty := .any, b := .sel, c := .sel }, f)
  | .vmov f => some ({ op := 0x014, ty := .any }, f)
  | .vfadd f => some ({ op := 0x040, ty := .arith, b := .sel, rnd := .mode, sat := true, neg := true }, f)
  | .vfsub f => some ({ op := 0x041, ty := .arith, b := .sel, rnd := .mode, sat := true, neg := true }, f)
  | .vfmul f => some ({ op := 0x042, ty := .arith, b := .sel, rnd := .mode, sat := true, neg := true }, f)
  | .vfma f =>
    some ({ op := 0x043, ty := .arith, b := .sel, c := .sel, rnd := .mode, sat := true, neg := true }, f)
  | .vfmin f => some ({ op := 0x044, ty := .arith, b := .sel, sat := true, neg := true }, f)
  | .vfmax f => some ({ op := 0x045, ty := .arith, b := .sel, sat := true, neg := true }, f)
  | .vfrcp f => some ({ op := 0x046, ty := .arith, rnd := .mode, sat := true }, f)
  | .vfrsq f => some ({ op := 0x047, ty := .arith, rnd := .mode, sat := true }, f)
  | .vfsqrt f => some ({ op := 0x048, ty := .arith, rnd := .mode, sat := true }, f)
  | .vfexp2 f => some ({ op := 0x049, ty := .arith, rnd := .mode, sat := true }, f)
  | .vflog2 f => some ({ op := 0x04A, ty := .arith, rnd := .mode, sat := true }, f)
  | .vfclass f => some ({ op := 0x04B, ty := .arith }, f)
  | .vcvt f => some ({ op := 0x080, ty := .cvt, b := .srcType, rnd := .mode, sat := true }, f)
  | .vqnt f => some ({ op := 0x081, ty := .block, b := .sel, rnd := .mode, sat := true }, f)
  | .vdqnt f => some ({ op := 0x082, ty := .block, b := .sel, sat := true }, f)
  | .vtsdot f =>
    some ({ op := 0x083, ty := .ts8, b := .sel, c := .sel, rnd := .mode, sat := true, neg := true }, f)
  | .vzdot f =>
    some ({ op := 0x084, ty := .zb, b := .sel, c := .sel, rnd := .mode, sat := true, neg := true }, f)
  | .vcmp f => some ({ op := 0x0A0, dst := .pred, ty := .int, b := .sel, rnd := .cond 6, neg := true }, f)
  | .vfcmp f => some ({ op := 0x0A1, dst := .pred, ty := .arith, b := .sel, rnd := .cond 8, neg := true }, f)
  | .pand f => some ({ op := 0x0A2, dst := .pred, a := .below 8, b := .below 8, w2 := .zero }, f)
  | .por f => some ({ op := 0x0A3, dst := .pred, a := .below 8, b := .below 8, w2 := .zero }, f)
  | .pxor f => some ({ op := 0x0A4, dst := .pred, a := .below 8, b := .below 8, w2 := .zero }, f)
  | .pnot f => some ({ op := 0x0A5, dst := .pred, a := .below 8, w2 := .zero }, f)
  | .pset f => some ({ op := 0x0A6, dst := .pred, ty := .intB }, f)
  | .pfirst f => some ({ op := 0x0A7, dst := .pred, a := .below 8, w2 := .zero }, f)
  | .pmov f => some ({ op := 0x0A8, a := .below 8, w2 := .zero }, f)
  | .vshuf f => some ({ op := 0x0C0, ty := .any, b := .sel }, f)
  | .vbcast f => some ({ op := 0x0C1, ty := .any, b := .sel }, f)
  | .vred f => some ({ op := 0x0C2, dst := .scalar, ty := .red, c := .below 6, rnd := .mode, sat := true }, f)
  | .vscan f => some ({ op := 0x0C3, ty := .red, c := .below 6, rnd := .mode, sat := true }, f)
  | .vballot f => some ({ op := 0x0C4, dst := .scalar, a := .below 8, w2 := .zero }, f)
  | .vrdl f => some ({ op := 0x0C5, dst := .scalar, ty := .any, b := .sel }, f)
  | .vwrl f => some ({ op := 0x0C6, ty := .any, b := .sel }, f)
  | .vsort f => some ({ op := 0x0C7, ty := .red, c := .below 2 }, f)
  | .vqin f => some ({ op := 0x0C8, dst := .queue, ty := .any }, f)
  | .vld f => some ({ op := 0x0E0, ty := .mem, b := .sel, w2 := .mem }, f)
  | .vst f => some ({ op := 0x0E1, dst := .none, ty := .mem, b := .sel, c := .sel, w2 := .mem }, f)
  | .vldc f => some ({ op := 0x0E2, ty := .mem, b := .sel, w2 := .mem }, f)
  | .vatom f => some ({ op := 0x0E3, ty := .atom, b := .sel, c := .sel, w2 := .atom }, f)
  | .vpref f => some ({ op := 0x0E4, dst := .none, b := .sel, w2 := .mem }, f)
  | .lld f => some ({ op := 0x0E5, ty := .mem, b := .sel, w2 := .locMem }, f)
  | .lst f => some ({ op := 0x0E6, dst := .none, ty := .mem, b := .sel, c := .sel, w2 := .locMem }, f)
  | .latom f => some ({ op := 0x0E7, ty := .atom, b := .sel, c := .sel, w2 := .locAtom }, f)
  | .vstq f => some ({ op := 0x100, dst := .axis, b := .sel, c := .sel, w2 := .mem }, f)
  | .esav f => some ({ op := 0x101, dst := .axis, b := .sel, w2 := .mem }, f)
  | .elod f => some ({ op := 0x102, dst := .axis, b := .sel, w2 := .mem }, f)
  | .eclr f => some ({ op := 0x103, dst := .axis, a := .zero, w2 := .zero }, f)
  | .lbra f => some ({ op := 0x120, dst := .none, a := .sel, b := .sel, c := .sel, w2 := .target }, f)
  | .ljmp f => some ({ op := 0x121, dst := .none, a := .zero, w2 := .target, pred := false }, f)
  | .ljtab f => some ({ op := 0x122, dst := .none, w2 := .target, pred := false }, f)
  | .lpad f => some ({ op := 0x123, dst := .none, a := .zero, w2 := .label, pred := false }, f)
  | .ljoin f => some ({ op := 0x124, dst := .none, a := .zero, w2 := .zero, pred := false }, f)
  | .regang f => some ({ op := 0x125, dst := .none, a := .zero, w2 := .zero, pred := false }, f)
  | .lend f => some ({ op := 0x126, dst := .none, a := .zero, w2 := .zero, pred := false }, f)
  | .phint f =>
    some ({ op := 0x127, dst := .map, a := .sel, b := .sel, c := .sel, sat := true, neg := true,
            w2 := .map, pred := false }, f)
  | .lnop f => some ({ op := 0x128, dst := .none, a := .zero, w2 := .zero, pred := false }, f)
  | _ => none

/-- R207: word1<7:0> of an LBRA, which must be 0: the low 6 bits of opC, sat and negB. -/
def lbraLow (f : LaneWord) : Bool := f.opC.toNat % 64 == 0 && !f.sat && !f.negB

def OpKind.ok (v : BitVec 10) : OpKind → Bool
  | .sel => true
  | .zero => v == 0
  | .below n => decide (v.toNat < n)
  | .srcType => decide (v.toNat ≤ 12) || v == 17 || v == 18

def DstKind.ok (v : BitVec 8) : DstKind → Bool
  | .vec | .map => true
  | .pred => decide (v.toNat < 8)
  | .scalar => decide (v.toNat < 64)
  | .queue => decide (v.toNat < 16)
  | .axis => decide (v.toNat < 4)
  | .none => v == 0

def RndKind.ok (v : BitVec 3) : RndKind → Bool
  | .zero => v == 0
  | .mode => v != 5 && v != 7
  | .cond n => decide (v.toNat < n)

/-- R99, R207-R210: word2 of the instructions whose word2 carries fields. -/
def W2Kind.ok (w : BitVec 32) : W2Kind → Bool
  | .lit | .map => true
  | .zero => w == 0
  | .mem => w.toNat / 2 ^ 24 % 8 == 0
  | .atom => w.toNat / 2 ^ 23 % 16 == 0 && decide (w.toNat / 2 ^ 15 % 8 ≤ 5)
  | .locMem => w.toNat / 2 ^ 24 % 64 == 0
  | .locAtom => w.toNat / 2 ^ 23 % 128 == 0 && decide (w.toNat / 2 ^ 15 % 8 ≤ 5)
  | .target => w.toNat / 2 ^ 24 == 0
  | .label => w.toNat / 2 ^ 12 == 0

def TyKind.ok (v : BitVec 5) (k : TyKind) : Bool :=
  match k with
  | .zero => v == 0
  | k => v == 17 || v == 18 || k.codes.contains v.toNat

/-- The encoding rules of R97 and R100 on the fields of one lane instruction. -/
def LaneSpec.ok (s : LaneSpec) (f : LaneWord) : Bool :=
  s.dst.ok f.dst && s.ty.ok f.ty && s.a.ok f.opA && s.b.ok f.opB && s.c.ok f.opC && s.rnd.ok f.rnd &&
  (s.sat || s.op == 0x120 || !f.sat) && (s.neg || s.op == 0x120 || !f.negB) && s.w2.ok f.w2 &&
  (s.dst == .vec || (!f.nowb && f.lat == 0)) &&
  (s.pred || f.pred == 0) && !(f.pred == 0 && f.pneg) &&
  (s.op != 0x120 || lbraLow f)

/-! ### Scalar field rules -/

def scopeOk (s : BitVec 3) : Bool := decide (s.toNat ≤ 5)

/-- R95: the assigned special register numbers. -/
def specialOk (r : BitVec 8) : Bool :=
  decide (r.toNat ≤ 0x18) || (decide (0x20 ≤ r.toNat) && decide (r.toNat ≤ 0x2F))

/-! ### Command, packet and request codes -/

/-- R352: OPC of a command's word 0. -/
def cmdOpc (w0 : Dword) : Nat := w0.toNat / 2 ^ 56

/-- R404: TYPE of a packet. -/
def packetType (e : Entry) : Nat := e.d0.toNat / 2 ^ 48 % 256

/-- R320: OP of a translation request. -/
def requestOp (e : Entry) : Nat := e.d0.toNat % 256

/-- The instructions that the encodings of the specification allow. A step of the machine that no word
encodes is well formed as it stands. -/
def Instr.wellFormed (i : Instr) : Bool :=
  match laneSpec i with
  | some (s, f) => s.ok f
  | none =>
    match i with
    | .slit _ (.other _) => false
    | .sld _ _ z _ | .sst _ _ z _ => z != 7
    | .satom _ _ _ _ _ s => scopeOk s
    | .swaitc _ _ _ c z s => decide (c.toNat ≤ 5) && decide (z.toNat ≤ 1) && scopeOk s
    | .phase s | .phasePub s | .phaseRef s => scopeOk s
    | .xacq _ _ s | .xwait _ _ s | .xrel _ s => scopeOk s
    | .sgetr _ r | .ssetr _ r => specialOk r
    | .copy w0 _ _ _ _ => cmdOpc w0 == 0x01
    | .bag w0 _ _ _ _ _ _ => cmdOpc w0 == 0x10
    | .upd w0 _ _ _ _ _ _ => cmdOpc w0 == 0x11
    | .ngemv w0 _ _ _ _ _ _ => cmdOpc w0 == 0x20
    | .srch w0 _ _ _ _ _ => cmdOpc w0 == 0x30
    | .allred w0 _ _ _ _ => cmdOpc w0 == 0x40
    | .redscat w0 _ _ _ _ => cmdOpc w0 == 0x41
    | .allgath w0 _ _ _ _ => cmdOpc w0 == 0x42
    | .bcast w0 _ _ _ _ => cmdOpc w0 == 0x43
    | .cbar w0 _ _ _ _ => cmdOpc w0 == 0x44
    | .mcast w0 _ _ _ _ _ _ => cmdOpc w0 == 0x45
    | .topkmerge w0 _ _ _ _ => cmdOpc w0 == 0x46
    | .nop e => packetType e == 0x00
    | .fetchfence e => packetType e == 0x01
    | .ib e => packetType e == 0x02
    | .pred e => packetType e == 0x03
    | .loop e => packetType e == 0x04
    | .waitmem e => packetType e == 0x05
    | .writemem e => packetType e == 0x06
    | .signal e => packetType e == 0x07
    | .feed e => packetType e == 0x08
    | .launch e _ => packetType e == 0x09
    | .tlbinv e => requestOp e == 1
    | .pgattr e => requestOp e == 2
    | .asidBind e => requestOp e == 3
    | .asidRetire e => requestOp e == 4
    | .resume e => requestOp e == 5
    | .resumeCmd e => requestOp e == 6
    | _ => true

end Sys2Proof
end

