-- ==== Sys2Proof/Decode.lean ====
section
/-! DEFINITION. The decoder: total on any bits, refusing what R101 refuses, and the encoder beside it. A
word, pair, triple or record is one natural number whose bit 0 is the least significant bit of its first
word. -/

namespace Sys2Proof

/-- Bits hi..lo of a word, as a field of k bits. -/
def field (k lo w : Nat) : BitVec k := BitVec.ofNat k (w / 2 ^ lo)

/-! ### Scalar words (R88-R95) -/

/-- R93: the register ALU. -/
def decodeAlu (d a b : BitVec 6) (fn : Nat) : Option Instr :=
  match fn with
  | 0x00 => some (.sadd d a b)
  | 0x01 => some (.ssub d a b)
  | 0x02 => some (.smul d a b)
  | 0x03 => some (.smulh d a b)
  | 0x04 => some (.sdiv d a b)
  | 0x05 => some (.srem d a b)
  | 0x08 => some (.sand d a b)
  | 0x09 => some (.sor d a b)
  | 0x0A => some (.sxor d a b)
  | 0x0C => some (.sshl d a b)
  | 0x0D => some (.sshr d a b)
  | 0x0E => some (.ssra d a b)
  | 0x10 => some (.smin d a b)
  | 0x11 => some (.smax d a b)
  | 0x12 => some (.sminu d a b)
  | 0x13 => some (.smaxu d a b)
  | 0x14 => some (.sslt d a b)
  | 0x15 => some (.ssltu d a b)
  | 0x16 => some (.sseq d a b)
  | 0x1C => if b = 0 then some (.sclz d a) else none
  | 0x1D => if b = 0 then some (.spopc d a) else none
  | fn => if 0x40 ≤ fn ∧ fn ≤ 0x7F then some (.ssel d a b (BitVec.ofNat 6 fn)) else none

/-- R90: what an SLIT sees in the word after it. -/
def decodeUser (w : Nat) : LitUser :=
  let x := field 6 20 w
  let y := field 6 14 w
  let i := field 14 0 w
  match w / 2 ^ 26 % 64 with
  | 0x02 => .addi x y i
  | 0x03 => .andi x y i
  | 0x04 => .ori x y i
  | 0x05 => .xori x y i
  | 0x0B => if x.toNat < 4 then .pref (BitVec.ofNat 2 x.toNat) y i else .other (BitVec.ofNat 32 w)
  | 0x0C => .branch .eq x y i
  | 0x0D => .branch .ne x y i
  | 0x0E => .branch .lt x y i
  | 0x0F => .branch .ge x y i
  | 0x10 => .branch .ltu x y i
  | 0x11 => .branch .geu x y i
  | 0x14 => if x = 2 then .jtab y i else .other (BitVec.ofNat 32 w)
  | _ => .other (BitVec.ofNat 32 w)

/-- R92: major 0x00. -/
def decodeSystem (d a : BitVec 6) (aux : Nat) : Option Instr :=
  if a ≠ 0 then none
  else if d = 3 then (if aux < 256 then some (.strap (BitVec.ofNat 8 aux)) else none)
  else if aux ≠ 0 then none
  else match d.toNat with
    | 0 => some .snop
    | 1 => some .shalt
    | 2 => some .send
    | 4 => some .srft
    | 5 => some .sbkpt
    | _ => none

/-- R92: major 0x14. -/
def decodeJump (d a : BitVec 6) (aux : Nat) : Option Instr :=
  match d.toNat with
  | 0 => if aux < 4096 then some (.scallr a (BitVec.ofNat 12 aux)) else none
  | 1 => if aux = 0 then some (.sret a) else none
  | 2 => some (.sjtab a (BitVec.ofNat 14 aux))
  | 3 => if a = 0 ∧ aux < 4096 then some (.spad (BitVec.ofNat 12 aux)) else none
  | _ => none

/-- R92: major 0x1A. -/
def decodeBarrier (d a : BitVec 6) (aux : Nat) : Option Instr :=
  let m := field 7 7 aux
  let p := field 1 6 aux
  let i := field 6 0 aux
  match d.toNat with
  | 0 => if m = 0 then some (.sbarInit a p i) else none
  | 1 => if m = 0 ∧ a = 0 then some (.sbarArrive p i) else none
  | 2 => if a = 0 then some (.sbarWait m p i) else none
  | 3 => if a = 0 then some (.sbarArw m p i) else none
  | _ => none

/-- R92: major 0x20. -/
def decodePlace (d a b : BitVec 6) (fn : Nat) : Option Instr :=
  let s := field 3 4 fn
  if 128 ≤ fn then none
  else match fn % 16 with
    | 0 => if b = 0 ∧ scopeOk s then some (.xacq d a s) else none
    | 1 => if b = 0 ∧ scopeOk s then some (.xwait d a s) else none
    | 2 => if d = 0 ∧ s = 0 then some (.xgive a b) else none
    | 3 => if s = 0 then some (.xswap d a b) else none
    | 4 => if d = 0 ∧ b = 0 ∧ s = 0 then some (.xaban a) else none
    | 5 => if d = 0 ∧ b = 0 ∧ scopeOk s then some (.xrel a s) else none
    | _ => none

/-- R92: major 0x22. -/
def decodeMatrix (d a b : BitVec 6) (fn : Nat) : Option Instr :=
  let t := field 3 0 fn
  if fn / 8 % 2 = 1 then none
  else match fn / 16 with
    | 0 => if d = 0 ∧ b = 0 ∧ t = 0 then some (.mcfg a) else none
    | 1 => if d = 0 ∧ b = 0 ∧ t = 0 then some (.mgang a) else none
    | 2 => if d = 0 ∧ t = 0 then some (.mma a b) else none
    | 3 => if t = 0 then some (.mmas d a b) else none
    | 4 => if d = 0 ∧ a = 0 ∧ b = 0 then some (.mzero t) else none
    | 5 => if d = 0 ∧ b = 0 then some (.mlda a t) else none
    | 6 => if d = 0 then some (.mst a b t) else none
    | 7 => if d = 0 ∧ a = 0 ∧ b = 0 ∧ t = 0 then some .mwait else none
    | _ => none

/-- R88-R95: one scalar word, with the word after it for an SLIT. -/
def decodeScalar (w next : Nat) : Option Instr :=
  let d := field 6 20 w
  let a := field 6 14 w
  let b := field 6 8 w
  let fn := w % 256
  let i := field 14 0 w
  let aux := w % 2 ^ 14
  match w / 2 ^ 26 % 64 with
  | 0x00 => decodeSystem d a aux
  | 0x01 => decodeAlu d a b fn
  | 0x02 => some (.saddi d a i)
  | 0x03 => some (.sandi d a i)
  | 0x04 => some (.sori d a i)
  | 0x05 => some (.sxori d a i)
  | 0x06 =>
    if aux / 2 ^ 6 % 64 ≠ 0 then none
    else match aux / 2 ^ 12 with
      | 0 => some (.sshli d a (field 6 0 w))
      | 1 => some (.sshri d a (field 6 0 w))
      | 2 => some (.ssrai d a (field 6 0 w))
      | _ => none
  | 0x07 => some (.slit (field 26 0 w) (decodeUser next))
  | 0x08 => if field 3 11 w = 7 then none else some (.sld d a (field 3 11 w) (field 11 0 w))
  | 0x09 => if field 3 11 w = 7 then none else some (.sst d a (field 3 11 w) (field 11 0 w))
  | 0x0A =>
    if scopeOk (field 3 0 w) then some (.satom d a b (field 3 5 w) (field 2 3 w) (field 3 0 w)) else none
  | 0x0B => if d.toNat < 4 then some (.spref (field 2 20 w) a i) else none
  | 0x0C => some (.sbeq d a i)
  | 0x0D => some (.sbne d a i)
  | 0x0E => some (.sblt d a i)
  | 0x0F => some (.sbge d a i)
  | 0x10 => some (.sbltu d a i)
  | 0x11 => some (.sbgeu d a i)
  | 0x12 => if d = 0 then some (.sjmp (field 20 0 w)) else none
  | 0x13 => some (.scall d (field 20 0 w))
  | 0x14 => decodeJump d a aux
  | 0x15 => some (.lrun (field 26 0 w))
  | 0x16 => if w % 2 ^ 26 = 0 then some .lwait else none
  | 0x17 =>
    match d.toNat with
    | 0 => if aux = 0 then some (.sfmt a) else none
    | 1 => if a = 0 ∧ aux < 1024 then some (.sfmtAb (field 5 5 w) (field 5 0 w)) else none
    | _ => none
  | 0x18 => if d.toNat < 4 ∧ aux = 0 then some (.saxis (field 2 20 w) a) else none
  | 0x19 =>
    if 16 ≤ b.toNat then none
    else match fn with
      | 0 => if a = 0 then some (.sqin d (field 4 8 w)) else none
      | 1 => if d = 0 then some (.sqout a (field 4 8 w)) else none
      | _ => none
  | 0x1A => decodeBarrier d a aux
  | 0x1B =>
    let c := field 3 5 w
    let z := field 2 3 w
    let s := field 3 0 w
    if c.toNat ≤ 5 ∧ z.toNat ≤ 1 ∧ scopeOk s then some (.swaitc d a b c z s) else none
  | 0x1C =>
    if a = 0 ∧ aux < 8 ∧ scopeOk (field 3 0 w) then
      match d.toNat with
      | 0 => some (.phase (field 3 0 w))
      | 1 => some (.phasePub (field 3 0 w))
      | 2 => some (.phaseRef (field 3 0 w))
      | _ => none
    else none
  | 0x1D => if d = 0 ∧ a = 0 ∧ aux < 128 then some (.xfence (field 7 0 w)) else none
  | 0x1E => if d = 0 ∧ a = 0 ∧ aux < 128 then some (.drain (field 7 0 w)) else none
  | 0x1F => if aux = 0 then some (.tdet d a) else none
  | 0x20 => decodePlace d a b fn
  | 0x21 =>
    match fn with
    | 0 => if d = 0 ∧ b = 0 then some (.wpop a) else none
    | 1 => some (.wpost d a b)
    | _ => none
  | 0x22 => decodeMatrix d a b fn
  | 0x23 =>
    match fn with
    | 0 => some (.pgmig d a b)
    | 1 => if b = 0 then some (.pgqry d a) else none
    | _ => none
  | 0x24 =>
    if a = 0 ∧ aux < 256 ∧ specialOk (field 8 0 w) then some (.sgetr d (field 8 0 w)) else none
  | 0x25 =>
    if d = 0 ∧ aux < 256 ∧ specialOk (field 8 0 w) then some (.ssetr a (field 8 0 w)) else none
  | _ => none

/-- Whether a scalar word is an SLIT, whose pair takes the next word too (R90). -/
def isSlit (w : Nat) : Bool := w / 2 ^ 26 % 64 == 0x07

/-! ### Lane words (R96-R100) -/

/-- R96: the fields of a lane instruction, word0 in bits 31:0. -/
def laneFields (w : Nat) : LaneWord where
  dst := field 8 15 w
  nowb := w / 2 ^ 14 % 2 == 1
  lat := field 2 12 w
  pred := field 3 9 w
  pneg := w / 2 ^ 8 % 2 == 1
  ty := field 5 3 w
  rnd := field 3 0 w
  opA := field 10 54 w
  opB := field 10 44 w
  opC := field 10 34 w
  sat := w / 2 ^ 33 % 2 == 1
  negB := w / 2 ^ 32 % 2 == 1
  w2 := field 32 64 w

/-- R100: the instruction that an opcode names. -/
def laneCtor (op : Nat) (f : LaneWord) : Option Instr :=
  match op with
  | 0x000 => some (.vadd f)
  | 0x001 => some (.vsub f)
  | 0x002 => some (.vmul f)
  | 0x003 => some (.vmulh f)
  | 0x004 => some (.vmad f)
  | 0x005 => some (.vmin f)
  | 0x006 => some (.vmax f)
  | 0x007 => some (.vabs f)
  | 0x008 => some (.vand f)
  | 0x009 => some (.vor f)
  | 0x00A => some (.vxor f)
  | 0x00B => some (.vnot f)
  | 0x00C => some (.vshl f)
  | 0x00D => some (.vshr f)
  | 0x00E => some (.vsra f)
  | 0x00F => some (.vclz f)
  | 0x010 => some (.vpopc f)
  | 0x011 => some (.vbfe f)
  | 0x012 => some (.vbfi f)
  | 0x013 => some (.vsel f)
  | 0x014 => some (.vmov f)
  | 0x040 => some (.vfadd f)
  | 0x041 => some (.vfsub f)
  | 0x042 => some (.vfmul f)
  | 0x043 => some (.vfma f)
  | 0x044 => some (.vfmin f)
  | 0x045 => some (.vfmax f)
  | 0x046 => some (.vfrcp f)
  | 0x047 => some (.vfrsq f)
  | 0x048 => some (.vfsqrt f)
  | 0x049 => some (.vfexp2 f)
  | 0x04A => some (.vflog2 f)
  | 0x04B => some (.vfclass f)
  | 0x080 => some (.vcvt f)
  | 0x081 => some (.vqnt f)
  | 0x082 => some (.vdqnt f)
  | 0x083 => some (.vtsdot f)
  | 0x084 => some (.vzdot f)
  | 0x0A0 => some (.vcmp f)
  | 0x0A1 => some (.vfcmp f)
  | 0x0A2 => some (.pand f)
  | 0x0A3 => some (.por f)
  | 0x0A4 => some (.pxor f)
  | 0x0A5 => some (.pnot f)
  | 0x0A6 => some (.pset f)
  | 0x0A7 => some (.pfirst f)
  | 0x0A8 => some (.pmov f)
  | 0x0C0 => some (.vshuf f)
  | 0x0C1 => some (.vbcast f)
  | 0x0C2 => some (.vred f)
  | 0x0C3 => some (.vscan f)
  | 0x0C4 => some (.vballot f)
  | 0x0C5 => some (.vrdl f)
  | 0x0C6 => some (.vwrl f)
  | 0x0C7 => some (.vsort f)
  | 0x0C8 => some (.vqin f)
  | 0x0E0 => some (.vld f)
  | 0x0E1 => some (.vst f)
  | 0x0E2 => some (.vldc f)
  | 0x0E3 => some (.vatom f)
  | 0x0E4 => some (.vpref f)
  | 0x0E5 => some (.lld f)
  | 0x0E6 => some (.lst f)
  | 0x0E7 => some (.latom f)
  | 0x100 => some (.vstq f)
  | 0x101 => some (.esav f)
  | 0x102 => some (.elod f)
  | 0x103 => some (.eclr f)
  | 0x120 => some (.lbra f)
  | 0x121 => some (.ljmp f)
  | 0x122 => some (.ljtab f)
  | 0x123 => some (.lpad f)
  | 0x124 => some (.ljoin f)
  | 0x125 => some (.regang f)
  | 0x126 => some (.lend f)
  | 0x127 => some (.phint f)
  | 0x128 => some (.lnop f)
  | _ => none

/-- R96-R101: a lane instruction, refused where a field breaks its opcode's rules. -/
def decodeLane (w : Nat) : Option Instr :=
  match laneCtor (w / 2 ^ 23 % 512) (laneFields w) with
  | some i => if i.wellFormed then some i else none
  | none => none

/-! ### Commands, packets and requests -/

/-- How many words the command of an OPC has (R352, R378, R431, R436); none where it is no command. -/
def cmdLength : Nat → Option Nat
  | 0x01 => some 5
  | 0x10 | 0x11 | 0x20 => some 7
  | 0x30 => some 6
  | 0x40 | 0x41 | 0x42 | 0x43 | 0x44 | 0x46 => some 5
  | 0x45 => some 7
  | _ => none

/-- The command in a list of 64-bit words, oldest first. -/
def decodeCommand : List Dword → Option Instr
  | w0 :: w1 :: w2 :: w3 :: w4 :: rest =>
    match cmdOpc w0, rest with
    | 0x01, _ => some (.copy w0 w1 w2 w3 w4)
    | 0x40, _ => some (.allred w0 w1 w2 w3 w4)
    | 0x41, _ => some (.redscat w0 w1 w2 w3 w4)
    | 0x42, _ => some (.allgath w0 w1 w2 w3 w4)
    | 0x43, _ => some (.bcast w0 w1 w2 w3 w4)
    | 0x44, _ => some (.cbar w0 w1 w2 w3 w4)
    | 0x46, _ => some (.topkmerge w0 w1 w2 w3 w4)
    | 0x30, w5 :: _ => some (.srch w0 w1 w2 w3 w4 w5)
    | 0x10, w5 :: w6 :: _ => some (.bag w0 w1 w2 w3 w4 w5 w6)
    | 0x11, w5 :: w6 :: _ => some (.upd w0 w1 w2 w3 w4 w5 w6)
    | 0x20, w5 :: w6 :: _ => some (.ngemv w0 w1 w2 w3 w4 w5 w6)
    | 0x45, w5 :: w6 :: _ => some (.mcast w0 w1 w2 w3 w4 w5 w6)
    | _, _ => none
  | _ => none

/-- R405: the packet of an entry; `e1` is the entry after it, which a LAUNCH takes too. -/
def decodePacket (e e1 : Entry) : Option Instr :=
  match packetType e with
  | 0x00 => some (.nop e)
  | 0x01 => some (.fetchfence e)
  | 0x02 => some (.ib e)
  | 0x03 => some (.pred e)
  | 0x04 => some (.loop e)
  | 0x05 => some (.waitmem e)
  | 0x06 => some (.writemem e)
  | 0x07 => some (.signal e)
  | 0x08 => some (.feed e)
  | 0x09 => some (.launch e e1)
  | _ => none

/-- R320: the translation request of a record. -/
def decodeRequest (e : Entry) : Option Instr :=
  match requestOp e with
  | 1 => some (.tlbinv e)
  | 2 => some (.pgattr e)
  | 3 => some (.asidBind e)
  | 4 => some (.asidRetire e)
  | 5 => some (.resume e)
  | 6 => some (.resumeCmd e)
  | _ => none

/-- The instruction of a table row's bits: a scalar word with a zero word after it, an SLIT pair, or a
lane instruction. -/
def decodeTableWord (nbits w : Nat) : Option Instr :=
  match nbits with
  | 32 => decodeScalar (w % 2 ^ 32) 0
  | 64 => decodeScalar (w % 2 ^ 32) (w / 2 ^ 32 % 2 ^ 32)
  | 96 => decodeLane (w % 2 ^ 96)
  | _ => none

/-! ### The encoder -/

/-- SR, SI, SB, SX words (R88): a major, two register fields and the low 14 bits. -/
def encS (maj : Nat) (x y : BitVec 6) (low : Nat) : Nat := maj * 2 ^ 26 + x.toNat * 2 ^ 20 + y.toNat * 2 ^ 14 + low

/-- An SR word: b and fn in the low 14 bits. -/
def encR (maj : Nat) (d a b : BitVec 6) (fn : Nat) : Nat := encS maj d a (b.toNat * 2 ^ 8 + fn)

/-- SBAR's aux14: path mask, partner bit and barrier index. -/
def encBar (m : BitVec 7) (p : BitVec 1) (i : BitVec 6) : Nat := m.toNat * 2 ^ 7 + p.toNat * 2 ^ 6 + i.toNat

/-- The major of a conditional branch. -/
def BranchCond.major : BranchCond → Nat
  | .eq => 0x0C | .ne => 0x0D | .lt => 0x0E | .ge => 0x0F | .ltu => 0x10 | .geu => 0x11

/-- The word after an SLIT. -/
def encodeUser : LitUser → Nat
  | .addi d a i => encS 0x02 d a i.toNat
  | .andi d a i => encS 0x03 d a i.toNat
  | .ori d a i => encS 0x04 d a i.toNat
  | .xori d a i => encS 0x05 d a i.toNat
  | .pref h a i => encS 0x0B (BitVec.ofNat 6 h.toNat) a i.toNat
  | .branch c a b o => encS c.major a b o.toNat
  | .jtab a o => encS 0x14 2 a o.toNat
  | .other w => w.toNat

/-- R96: the three words of a lane instruction. -/
def encodeLane (op : Nat) (f : LaneWord) : Nat :=
  f.rnd.toNat + f.ty.toNat * 2 ^ 3 + f.pneg.toNat * 2 ^ 8 + f.pred.toNat * 2 ^ 9 + f.lat.toNat * 2 ^ 12 +
  f.nowb.toNat * 2 ^ 14 + f.dst.toNat * 2 ^ 15 + op * 2 ^ 23 + f.negB.toNat * 2 ^ 32 +
  f.sat.toNat * 2 ^ 33 + f.opC.toNat * 2 ^ 34 + f.opB.toNat * 2 ^ 44 + f.opA.toNat * 2 ^ 54 +
  f.w2.toNat * 2 ^ 64

/-- The bits of a scalar instruction: 32 of them, or 64 for an SLIT pair. -/
def encodeScalar : Instr → Option Nat
  | .sadd d a b => some (encR 0x01 d a b 0x00)
  | .ssub d a b => some (encR 0x01 d a b 0x01)
  | .smul d a b => some (encR 0x01 d a b 0x02)
  | .smulh d a b => some (encR 0x01 d a b 0x03)
  | .sdiv d a b => some (encR 0x01 d a b 0x04)
  | .srem d a b => some (encR 0x01 d a b 0x05)
  | .sand d a b => some (encR 0x01 d a b 0x08)
  | .sor d a b => some (encR 0x01 d a b 0x09)
  | .sxor d a b => some (encR 0x01 d a b 0x0A)
  | .sshl d a b => some (encR 0x01 d a b 0x0C)
  | .sshr d a b => some (encR 0x01 d a b 0x0D)
  | .ssra d a b => some (encR 0x01 d a b 0x0E)
  | .smin d a b => some (encR 0x01 d a b 0x10)
  | .smax d a b => some (encR 0x01 d a b 0x11)
  | .sminu d a b => some (encR 0x01 d a b 0x12)
  | .smaxu d a b => some (encR 0x01 d a b 0x13)
  | .sslt d a b => some (encR 0x01 d a b 0x14)
  | .ssltu d a b => some (encR 0x01 d a b 0x15)
  | .sseq d a b => some (encR 0x01 d a b 0x16)
  | .sclz d a => some (encR 0x01 d a 0 0x1C)
  | .spopc d a => some (encR 0x01 d a 0 0x1D)
  | .ssel d a b c => some (encR 0x01 d a b (0x40 + c.toNat))
  | .saddi d a i => some (encS 0x02 d a i.toNat)
  | .sandi d a i => some (encS 0x03 d a i.toNat)
  | .sori d a i => some (encS 0x04 d a i.toNat)
  | .sxori d a i => some (encS 0x05 d a i.toNat)
  | .sshli d a n => some (encS 0x06 d a n.toNat)
  | .sshri d a n => some (encS 0x06 d a (2 ^ 12 + n.toNat))
  | .ssrai d a n => some (encS 0x06 d a (2 * 2 ^ 12 + n.toNat))
  | .slit l f => some (0x07 * 2 ^ 26 + l.toNat + encodeUser f * 2 ^ 32)
  | .sld d a z o => some (encS 0x08 d a (z.toNat * 2 ^ 11 + o.toNat))
  | .sst d a z o => some (encS 0x09 d a (z.toNat * 2 ^ 11 + o.toNat))
  | .satom d a b o r s => some (encR 0x0A d a b (o.toNat * 2 ^ 5 + r.toNat * 2 ^ 3 + s.toNat))
  | .spref h a i => some (encS 0x0B (BitVec.ofNat 6 h.toNat) a i.toNat)
  | .sbeq a b o => some (encS 0x0C a b o.toNat)
  | .sbne a b o => some (encS 0x0D a b o.toNat)
  | .sblt a b o => some (encS 0x0E a b o.toNat)
  | .sbge a b o => some (encS 0x0F a b o.toNat)
  | .sbltu a b o => some (encS 0x10 a b o.toNat)
  | .sbgeu a b o => some (encS 0x11 a b o.toNat)
  | .sjmp o => some (0x12 * 2 ^ 26 + o.toNat)
  | .scall d o => some (0x13 * 2 ^ 26 + d.toNat * 2 ^ 20 + o.toNat)
  | .scallr a l => some (encS 0x14 0 a l.toNat)
  | .sret a => some (encS 0x14 1 a 0)
  | .sjtab a o => some (encS 0x14 2 a o.toNat)
  | .spad l => some (encS 0x14 3 0 l.toNat)
  | .lrun l => some (0x15 * 2 ^ 26 + l.toNat)
  | .lwait => some (0x16 * 2 ^ 26)
  | .sfmt a => some (encS 0x17 0 a 0)
  | .sfmtAb x y => some (encS 0x17 1 0 (x.toNat * 2 ^ 5 + y.toNat))
  | .saxis n a => some (encS 0x18 (BitVec.ofNat 6 n.toNat) a 0)
  | .sqin d n => some (encR 0x19 d 0 (BitVec.ofNat 6 n.toNat) 0)
  | .sqout a n => some (encR 0x19 0 a (BitVec.ofNat 6 n.toNat) 1)
  | .sbarInit a p i => some (encS 0x1A 0 a (encBar 0 p i))
  | .sbarArrive p i => some (encS 0x1A 1 0 (encBar 0 p i))
  | .sbarWait m p i => some (encS 0x1A 2 0 (encBar m p i))
  | .sbarArw m p i => some (encS 0x1A 3 0 (encBar m p i))
  | .swaitc d a b c z s => some (encR 0x1B d a b (c.toNat * 2 ^ 5 + z.toNat * 2 ^ 3 + s.toNat))
  | .phase s => some (encS 0x1C 0 0 s.toNat)
  | .phasePub s => some (encS 0x1C 1 0 s.toNat)
  | .phaseRef s => some (encS 0x1C 2 0 s.toNat)
  | .xfence m => some (encS 0x1D 0 0 m.toNat)
  | .drain m => some (encS 0x1E 0 0 m.toNat)
  | .tdet d a => some (encS 0x1F d a 0)
  | .xacq d a s => some (encR 0x20 d a 0 (s.toNat * 2 ^ 4))
  | .xwait d a s => some (encR 0x20 d a 0 (s.toNat * 2 ^ 4 + 1))
  | .xgive a b => some (encR 0x20 0 a b 2)
  | .xswap d a b => some (encR 0x20 d a b 3)
  | .xaban a => some (encR 0x20 0 a 0 4)
  | .xrel a s => some (encR 0x20 0 a 0 (s.toNat * 2 ^ 4 + 5))
  | .wpop a => some (encR 0x21 0 a 0 0)
  | .wpost d a b => some (encR 0x21 d a b 1)
  | .mcfg a => some (encR 0x22 0 a 0 0x00)
  | .mgang a => some (encR 0x22 0 a 0 0x10)
  | .mma a b => some (encR 0x22 0 a b 0x20)
  | .mmas d a b => some (encR 0x22 d a b 0x30)
  | .mzero t => some (encR 0x22 0 0 0 (0x40 + t.toNat))
  | .mlda a t => some (encR 0x22 0 a 0 (0x50 + t.toNat))
  | .mst a b t => some (encR 0x22 0 a b (0x60 + t.toNat))
  | .mwait => some (encR 0x22 0 0 0 0x70)
  | .pgmig d a b => some (encR 0x23 d a b 0)
  | .pgqry d a => some (encR 0x23 d a 0 1)
  | .sgetr d r => some (encS 0x24 d 0 r.toNat)
  | .ssetr a r => some (encS 0x25 0 a r.toNat)
  | .snop => some 0
  | .shalt => some (encS 0x00 1 0 0)
  | .send => some (encS 0x00 2 0 0)
  | .strap c => some (encS 0x00 3 0 c.toNat)
  | .srft => some (encS 0x00 4 0 0)
  | .sbkpt => some (encS 0x00 5 0 0)
  | _ => none

/-- The words of a command, packet or request, as the engine or queue that reads them finds them. -/
def encodeWords : Instr → Option (List Dword)
  | .copy a b c d e => some [a, b, c, d, e]
  | .bag a b c d e f g | .upd a b c d e f g | .ngemv a b c d e f g | .mcast a b c d e f g =>
    some [a, b, c, d, e, f, g]
  | .srch a b c d e f => some [a, b, c, d, e, f]
  | .allred a b c d e | .redscat a b c d e | .allgath a b c d e | .bcast a b c d e | .cbar a b c d e
  | .topkmerge a b c d e => some [a, b, c, d, e]
  | _ => none

/-- The bits of an instruction that scalar or lane code holds. -/
def encode (i : Instr) : Option Nat :=
  match laneSpec i with
  | some (s, f) => some (encodeLane s.op f)
  | none => encodeScalar i

/-- How many bits an encoded instruction has. -/
def encodedBits (i : Instr) : Nat :=
  match laneSpec i with
  | some _ => 96
  | none => match i with
    | .slit _ _ => 64
    | _ => 32

end Sys2Proof
end

