-- ==== Sys2Proof/Machine/Flags.lean ====
section
/-! DEFINITION. The flags of FPFLAGS (R68). An operation of Numbers.lean answers its result with the flags that it
raises; Operands.lean sets them and takes the exceptions that FMT enables (R69). -/

namespace Sys2Proof.Machine

/-- FPFLAGS<5:0>: SAT, IV, DZ, OF, UF, NX from bit 5 down to bit 0. -/
abbrev FpFlags := BitVec 6

def flagNX : FpFlags := 1
def flagUF : FpFlags := 2
def flagOF : FpFlags := 4
def flagDZ : FpFlags := 8
def flagIV : FpFlags := 16
def flagSAT : FpFlags := 32

def flagIf (b : Bool) (f : FpFlags) : FpFlags := if b then f else 0

/-- R8, R171: SSETR of FPFLAGS clears the bits written as 1. -/
def clearFlags (old v : Dword) : Dword := old &&& ~~~v

end Sys2Proof.Machine
end

