-- ==== Sys2Proof/Machine/Numbers.lean ====
section
/-! DEFINITION. Number formats and arithmetic (R60-R85): element types, exact values, the one rounding
helper, conversions, and the shared-scale and offset-binary formats. Everything is computed exactly on
naturals and integers and rounded once at the end. -/

namespace Sys2Proof.Machine

/-! ### Element types -/

/-- The element types of R60, after FMT.A and FMT.B are resolved. -/
inductive Ty where
  | i8 | n8 | i16 | n16 | i32 | n32 | i64 | n64
  | f16 | bf16 | f32 | e4m3 | e5m2 | mx4 | ts8 | zb4 | zb8 | b32
  deriving DecidableEq, Repr, Inhabited

/-- R60: the type of a code that names one directly. -/
def Ty.ofCode : Nat → Option Ty
  | 0 => some .i8 | 1 => some .n8 | 2 => some .i16 | 3 => some .n16
  | 4 => some .i32 | 5 => some .n32 | 6 => some .i64 | 7 => some .n64
  | 8 => some .f16 | 9 => some .bf16 | 10 => some .f32 | 11 => some .e4m3
  | 12 => some .e5m2 | 13 => some .mx4 | 14 => some .ts8 | 15 => some .zb4
  | 16 => some .zb8 | 31 => some .b32 | _ => none

/-- R60: the width in bits of an element. -/
def Ty.bits : Ty → Nat
  | .i8 | .n8 | .e4m3 | .e5m2 | .ts8 | .zb8 => 8
  | .i16 | .n16 | .f16 | .bf16 => 16
  | .i32 | .n32 | .f32 | .b32 => 32
  | .i64 | .n64 => 64
  | .mx4 | .zb4 => 4

def Ty.isSigned : Ty → Bool
  | .i8 | .i16 | .i32 | .i64 => true
  | _ => false

/-- Integer types proper, without b32. -/
def Ty.isInt : Ty → Bool
  | .i8 | .n8 | .i16 | .n16 | .i32 | .n32 | .i64 | .n64 => true
  | _ => false

/-- Integer types and b32, which behaves as n32 (R186). -/
def Ty.isIntB (t : Ty) : Bool := t.isInt || t == .b32

/-- The float types of R62. -/
def Ty.isFloat : Ty → Bool
  | .f16 | .bf16 | .f32 | .e4m3 | .e5m2 => true
  | _ => false

/-- The float types that the arithmetic instructions take (R189). -/
def Ty.isArith : Ty → Bool
  | .f16 | .bf16 | .f32 => true
  | _ => false

def Ty.isBlock : Ty → Bool
  | .mx4 | .ts8 | .zb4 | .zb8 => true
  | _ => false

/-! ### Rounding modes (R65) -/

inductive Mode where
  | rne | rtz | rdn | rup | rna
  deriving DecidableEq, Repr, Inhabited

/-- R65, R79: the mode of an rnd code, FMT.RND standing for code 6. -/
def Mode.ofCode (fmtRnd : Nat) : Nat → Mode
  | 0 => .rne | 1 => .rtz | 2 => .rdn | 3 => .rup | 4 => .rna
  | 6 => match fmtRnd with
    | 1 => .rtz | 2 => .rdn | 3 => .rup | 4 => .rna | _ => .rne
  | _ => .rne

/-! ### Exact values -/

/-- An exact extended real. A NaN carries the sign and the left-aligned 23-bit mantissa of the operand it
came from, or none where an invalid operation made it (R63). A finite value is a sign and n/d with d > 0. -/
inductive XVal where
  | nan (src : Option (Bool × Nat)) (sig : Bool)
  | inf (neg : Bool)
  | fin (neg : Bool) (n d : Nat)
  deriving DecidableEq, Repr, Inhabited

def XVal.zero : XVal := .fin false 0 1

def XVal.isNaN : XVal → Bool
  | .nan _ _ => true
  | _ => false

def XVal.isSig : XVal → Bool
  | .nan _ s => s
  | _ => false

def XVal.isInf : XVal → Bool
  | .inf _ => true
  | _ => false

def XVal.isZero : XVal → Bool
  | .fin _ n _ => n == 0
  | _ => false

def XVal.neg : XVal → XVal
  | .nan (some (s, p)) q => .nan (some (!s, p)) q
  | .nan none q => .nan none q
  | .inf s => .inf (!s)
  | .fin s n d => .fin (!s) n d

def XVal.sign : XVal → Bool
  | .nan (some (s, _)) _ => s
  | .nan none _ => false
  | .inf s => s
  | .fin s _ _ => s

def XVal.ofInt (i : Int) : XVal := .fin (decide (i < 0)) i.natAbs 1

/-- x times 2^k, exactly. -/
def XVal.scale (x : XVal) (k : Int) : XVal :=
  match x with
  | .fin s n d => if 0 ≤ k then .fin s (n * 2 ^ k.toNat) d else .fin s n (d * 2 ^ (-k).toNat)
  | x => x

/-- The signed numerator of a finite value over its denominator; 0 for the others. -/
def XVal.num : XVal → Int
  | .fin s n _ => if s then -(n : Int) else n
  | _ => 0

def XVal.den : XVal → Nat
  | .fin _ _ d => d
  | _ => 1

/-- The first NaN among the operands, made quiet, else a NaN without a source. -/
def firstNaN : List XVal → XVal
  | [] => .nan none false
  | .nan s _ :: _ => .nan s false
  | _ :: xs => firstNaN xs

def anySig (xs : List XVal) : Bool := xs.any XVal.isSig

/-- R190: the exact sum with its flags. An exact zero sum is +0, or −0 under rdn, unless both addends are
zeros of one sign. -/
def xadd (mode : Mode) (a b : XVal) : XVal × FpFlags :=
  let iv := flagIf (anySig [a, b]) flagIV
  if a.isNaN || b.isNaN then (firstNaN [a, b], iv)
  else match a, b with
    | .inf s, .inf t => if s == t then (.inf s, 0) else (.nan none false, flagIV)
    | .inf s, _ => (.inf s, 0)
    | _, .inf t => (.inf t, 0)
    | _, _ =>
      let n : Int := a.num * b.den + b.num * a.den
      let d := a.den * b.den
      if n == 0 then
        if a.isZero && b.isZero && a.sign == b.sign then (.fin a.sign 0 1, 0)
        else (.fin (mode == .rdn) 0 1, 0)
      else (.fin (decide (n < 0)) n.natAbs d, 0)

/-- R190: the exact product with its flags. -/
def xmul (a b : XVal) : XVal × FpFlags :=
  let iv := flagIf (anySig [a, b]) flagIV
  if a.isNaN || b.isNaN then (firstNaN [a, b], iv)
  else
    let s := a.sign != b.sign
    if a.isInf || b.isInf then
      if a.isZero || b.isZero then (.nan none false, flagIV) else (.inf s, 0)
    else match a, b with
      | .fin _ n d, .fin _ m e => (.fin s (n * m) (d * e), 0)
      | _, _ => (.nan none false, 0)

/-- The exact sum of a list without NaNs, term by term. -/
def xsumTerms (mode : Mode) : XVal → List XVal → XVal × FpFlags
  | acc, [] => (acc, 0)
  | acc, x :: xs =>
    let (y, f) := xadd mode acc x
    let (z, g) := xsumTerms mode y xs
    (z, f ||| g)

/-- R83: the exact sum of an accumulator and a list, with its flags. A NaN among them makes it NaN, and infinities of
opposite sign give NaN with IV. -/
def xsum (mode : Mode) (acc : XVal) (xs : List XVal) : XVal × FpFlags :=
  if (acc :: xs).any XVal.isNaN then (firstNaN (acc :: xs), flagIf (anySig (acc :: xs)) flagIV)
  else xsumTerms mode acc xs

/-- R190: A × B + C exactly; 0 × ∞ raises IV even when C is a quiet NaN. -/
def xfma (mode : Mode) (a b c : XVal) : XVal × FpFlags :=
  let (p, f) := xmul a b
  if a.isNaN || b.isNaN || c.isNaN then
    (firstNaN [a, b, c], f ||| flagIf (anySig [a, b, c]) flagIV)
  else
    let (s, g) := xadd mode p c
    (s, f ||| g)

/-- Less-than on finite and infinite values; zeros of either sign are equal. -/
def xlt (a b : XVal) : Bool :=
  match a, b with
  | .nan _ _, _ | _, .nan _ _ => false
  | .inf s, .inf t => s && !t
  | .inf s, _ => s
  | _, .inf t => !t
  | _, _ => decide (a.num * b.den < b.num * a.den)

def xeq (a b : XVal) : Bool :=
  match a, b with
  | .nan _ _, _ | _, .nan _ _ => false
  | .inf s, .inf t => s == t
  | .inf _, _ => false
  | _, .inf _ => false
  | _, _ => decide (a.num * b.den = b.num * a.den)

/-! ### Float formats (R62) -/

/-- Exponent width, mantissa width, bias, the largest finite magnitude code, and whether it has infinities.
mx4 is the same shape (R71). -/
structure FloatFmt where
  eb : Nat
  mb : Nat
  bias : Nat
  maxEnc : Nat
  hasInf : Bool
  deriving DecidableEq, Repr

def Ty.fmt : Ty → FloatFmt
  | .f16 => ⟨5, 10, 15, 0x7BFF, true⟩
  | .bf16 => ⟨8, 7, 127, 0x7F7F, true⟩
  | .e4m3 => ⟨4, 3, 7, 0x7E, false⟩
  | .e5m2 => ⟨5, 2, 15, 0x7B, true⟩
  | .mx4 => ⟨2, 1, 1, 7, false⟩
  | _ => ⟨8, 23, 127, 0x7F7FFFFF, true⟩

/-- The sign bit's weight. -/
def FloatFmt.signBit (f : FloatFmt) : Nat := 2 ^ (f.eb + f.mb)

def FloatFmt.withSign (f : FloatFmt) (neg : Bool) (mag : Nat) : Nat :=
  if neg then mag + f.signBit else mag

/-- The infinity code, and with the quiet bit the canonical NaN. -/
def FloatFmt.infEnc (f : FloatFmt) : Nat := (2 ^ f.eb - 1) * 2 ^ f.mb

/-- R62: the value of a float code. e4m3 has one NaN per sign and no signalling NaN (R63). -/
def decodeFloat (f : FloatFmt) (bits : Nat) : XVal :=
  let neg := bits / f.signBit % 2 == 1
  let e := bits / 2 ^ f.mb % 2 ^ f.eb
  let m := bits % 2 ^ f.mb
  let mag := bits % f.signBit
  if mag > f.maxEnc && f.hasInf then
    if m == 0 then .inf neg
    else .nan (some (neg, m * 2 ^ (23 - f.mb))) (m / 2 ^ (f.mb - 1) % 2 == 0)
  else if mag > f.maxEnc then .nan (some (neg, m * 2 ^ (23 - f.mb))) false
  else if e == 0 then XVal.scale (.fin neg m 1) (1 - (f.bias : Int) - f.mb)
  else XVal.scale (.fin neg (m + 2 ^ f.mb) 1) ((e : Int) - f.bias - f.mb)

/-- R63: the NaN written for an exact NaN. Where no operand is a NaN, R63 names no source under NANPROP: the positive canonical
one is the model's choice (log 81). -/
def nanEnc (T : Ty) (nanprop : Bool) (src : Option (Bool × Nat)) : Nat :=
  let f := T.fmt
  match nanprop, src with
  | true, some (s, p) =>
    match T with
    | .e4m3 => f.withSign s 0x7F
    | _ =>
      let q := 2 ^ (f.mb - 1)
      let m := p / 2 ^ (23 - f.mb) % q
      f.withSign s (f.infEnc + q + m)
  | _, _ =>
    match T with
    | .e4m3 => 0x7F
    | _ => f.infEnc + 2 ^ (f.mb - 1)

/-! ### Rounding -/

/-- floor(log2(n/d)) for n, d > 0. -/
def floorLog2 (n d : Nat) : Int :=
  let k : Int := (Nat.log2 n : Int) - Nat.log2 d
  let ge := if 0 ≤ k then decide (d * 2 ^ k.toNat ≤ n) else decide (d ≤ n * 2 ^ (-k).toNat)
  if ge then k else k - 1

/-- The integer that n/d (of sign neg) rounds to in magnitude, and whether it differs. -/
def roundMag (mode : Mode) (neg : Bool) (n d : Nat) : Nat × Bool :=
  let q := n / d
  let r := n % d
  let up := match mode with
    | .rne => decide (d < 2 * r) || (2 * r == d && q % 2 == 1)
    | .rtz => false
    | .rdn => r != 0 && neg
    | .rup => r != 0 && !neg
    | .rna => decide (d ≤ 2 * r)
  (if up then q + 1 else q, r != 0)

/-- n/d in units of 2^q, rounded. -/
def roundAt (mode : Mode) (neg : Bool) (n d : Nat) (q : Int) : Nat × Bool :=
  if 0 ≤ q then roundMag mode neg n (d * 2 ^ q.toNat)
  else roundMag mode neg (n * 2 ^ (-q).toNat) d

/-- R66: the overflow result. -/
def overflowRes (T : Ty) (neg sat : Bool) : Nat × FpFlags :=
  let f := T.fmt
  if T == .ts8 then (if neg then 0x88 else 0x00, flagSAT ||| flagNX)
  else if sat || T == .mx4 then (f.withSign neg f.maxEnc, flagSAT ||| flagNX)
  else if f.hasInf then (f.withSign neg f.infEnc, flagOF ||| flagNX)
  else (nanEnc T false none, flagOF ||| flagIV)

/-- R66: the result of an infinite operand or exact result. -/
def infiniteRes (T : Ty) (neg sat : Bool) : Nat × FpFlags :=
  let f := T.fmt
  if T == .ts8 then (if neg then 0x88 else 0x00, flagSAT)
  else if sat || T == .mx4 then (f.withSign neg f.maxEnc, flagSAT)
  else if f.hasInf then (f.withSign neg f.infEnc, 0)
  else (nanEnc T false none, flagIV)

/-- R73, R74: the magnitudes of ts8 in units of 2^−6, ascending. -/
def ts8Mags : List Nat :=
  [0, 1, 2, 3, 4, 5, 6, 7, 8, 9, 10, 12, 14, 15, 16, 17, 18, 20, 24, 28, 30, 31, 32, 33, 34, 36, 40, 48,
   56, 60, 62, 63, 64, 65, 66, 68, 72, 80, 96, 128]

/-- The ts8 magnitude that n/d (in units of 2^−6) rounds to among neighbours (R65, R74). -/
def ts8Pick (mode : Mode) (neg : Bool) (n d : Nat) : List Nat → Nat
  | lo :: hi :: rest =>
    if hi * d ≤ n then ts8Pick mode neg n d (hi :: rest)
    else if lo * d == n then lo
    else match mode with
      | .rtz => lo
      | .rdn => if neg then hi else lo
      | .rup => if neg then lo else hi
      | .rne => if (lo + hi) * d < 2 * n then hi else lo
      | .rna => if 2 * n < (lo + hi) * d then lo else hi
  | [x] => x
  | [] => 0

/-- R74: the canonical code of a ts8 magnitude in units of 2^−6. -/
def ts8Enc (neg : Bool) (m : Nat) : Nat :=
  let s := if neg then 1 else 0
  if m == 0 then 0x77
  else if m == 128 then (if neg then 0x88 else 0x00)
  else
    let hi := Nat.log2 m
    let rest := m - 2 ^ hi
    if rest == 0 then s * 128 + (6 - hi) * 16 + 7
    else if rest == 2 ^ Nat.log2 rest then
      s * 128 + (6 - hi) * 16 + s * 8 + (6 - Nat.log2 rest)
    else
      let top := hi + 1
      s * 128 + (6 - top) * 16 + (1 - s) * 8 + (6 - Nat.log2 (2 ^ top - m))

/-- R69: the rounding helper. Answers the encoding and the flags raised. -/
def roundTo (T : Ty) (mode : Mode) (sat nanprop : Bool) (x : XVal) : Nat × FpFlags :=
  match x with
  | .nan src sig =>
    match T with
    | .mx4 => (0, flagIV)
    | .ts8 => (0x77, flagIV)
    | _ => (nanEnc T nanprop src, flagIf sig flagIV)
  | .inf neg => infiniteRes T neg sat
  | .fin neg n d =>
    match T with
    | .ts8 =>
      if 2 * d < n then overflowRes .ts8 neg sat
      else
        let m := ts8Pick mode neg (64 * n) d ts8Mags
        (ts8Enc neg m, flagIf (m * d != 64 * n) flagNX)
    | _ =>
      let f := T.fmt
      if n == 0 then (f.withSign neg 0, 0)
      else if T == .mx4 && decide (6 * d < n) then overflowRes .mx4 neg sat
      else
        let emin : Int := 1 - (f.bias : Int)
        let e := floorLog2 n d
        let q := max e emin - f.mb
        let (m, nx) := roundAt mode neg n d q
        let enc := (q - (emin - f.mb)).toNat * 2 ^ f.mb + m
        if enc > f.maxEnc then overflowRes T neg sat
        else
          let (m', _) := roundAt mode neg n d (e - f.mb)
          let tiny := decide (e - f.mb < emin - f.mb) &&
            decide (m' < 2 ^ f.mb * 2 ^ (emin - e).toNat)
          (f.withSign neg enc, flagIf nx flagNX ||| flagIf (nx && tiny && T != .mx4) flagUF)

/-- R70: RoundToInteger, with whether the result differs. -/
def roundToInteger (mode : Mode) (neg : Bool) (n d : Nat) : Int × Bool :=
  let (m, nx) := roundMag mode neg n d
  (if neg then -(m : Int) else m, nx)

/-! ### Integers (R61) -/

def Ty.lo (T : Ty) : Int := if T.isSigned then -(2 ^ (T.bits - 1) : Int) else 0
def Ty.hi (T : Ty) : Int := if T.isSigned then 2 ^ (T.bits - 1) - 1 else 2 ^ T.bits - 1

/-- The value of the low bits of an image read as an integer type. -/
def readInt (T : Ty) (img : Nat) : Int :=
  let v := img % 2 ^ T.bits
  if T.isSigned && decide (2 ^ (T.bits - 1) ≤ v) then (v : Int) - 2 ^ T.bits else v

/-- An integer's low N bits. -/
def wrapNat (N : Nat) (i : Int) : Nat := (i % (2 ^ N : Int)).toNat

/-- R61, R184: the register image of an integer result: extended to 32 bits, or 64 bits for a 64-bit type. -/
def intImage (T : Ty) (i : Int) : Nat :=
  let v := wrapNat T.bits i
  if T.bits == 64 then v
  else if T.isSigned then wrapNat 32 (readInt T v) else v

/-- R61, R66: clamp to the type's range, SAT where that changes the value. -/
def clampInt (T : Ty) (i : Int) : Int × FpFlags :=
  if i < T.lo then (T.lo, flagSAT) else if T.hi < i then (T.hi, flagSAT) else (i, 0)

/-- R61: an exact integer result wrapped, or clamped under saturation, as a register image. -/
def intResult (T : Ty) (sat : Bool) (i : Int) : Nat × FpFlags :=
  if sat then
    let (c, f) := clampInt T i
    (intImage T c, f)
  else (intImage T i, 0)

/-- R202: the 64-bit image of an element written to a scalar or pushed to a queue. -/
def image64 (T : Ty) (img : Nat) : Nat :=
  if T.isSigned then wrapNat 64 (readInt T img) else img % 2 ^ T.bits

/-! ### Square root, 2^x and log2 (R190)

An irrational result is replaced by a fraction that lies strictly between the same two neighbouring
multiples of a unit far below any rounding boundary, so that Round answers what it answers for the exact
value. -/

/-- floor(sqrt x), bit by bit from bit `k − 1` down. -/
def isqrtLoop (x : Nat) : Nat → Nat → Nat
  | 0, r => r
  | k + 1, r =>
    let t := r + 2 ^ k
    isqrtLoop x k (if t * t ≤ x then t else r)

def isqrt (x : Nat) : Nat := isqrtLoop x (Nat.log2 x / 2 + 1) 0

/-- The square root of n/d > 0. -/
def xsqrt (n d : Nat) : XVal :=
  let k := 256
  let x := n * 2 ^ (2 * k)
  let s := isqrt (x / d)
  if s * s * d == x then .fin false s (2 ^ k)
  else .fin false (2 * s + 1) (2 ^ (k + 1))

/-- The fixed-point unit of the series below is 2^−seriesBits. -/
def seriesBits : Nat := 384

/-- ln 2 in units of 2^−seriesBits, as the sum over k of 1/(k·2^k). -/
def ln2Loop : Nat → Nat → Nat
  | 0, acc => acc
  | k + 1, acc => ln2Loop k (acc + 2 ^ (seriesBits + 64) / ((k + 1) * 2 ^ (k + 1)))

def ln2Fix : Nat := ln2Loop 460 0 / 2 ^ 64

/-- The sum of y^k/k! from term `i` on, y in fixed point. -/
def expLoop (y : Nat) : Nat → Nat → Nat → Nat → Nat
  | 0, _, _, acc => acc
  | fuel + 1, i, term, acc =>
    let t := term * y / 2 ^ seriesBits / i
    expLoop y fuel (i + 1) t (acc + t)

/-- 2^(n/d), signed by neg: exact for an integer exponent. Exponents beyond ±1024 are held there, which
lies beyond every format's range. -/
def xexp2 (neg : Bool) (n d : Nat) : XVal :=
  let i : Int := if neg then -(((n + d - 1) / d : Nat) : Int) else ((n / d : Nat) : Int)
  if 1024 < i then XVal.scale (.fin false 1 1) 1024
  else if i < -1024 then XVal.scale (.fin false 1 1) (-1024)
  else
    let fr := if neg then (d - n % d) % d else n % d
    if fr == 0 then XVal.scale (.fin false 1 1) i
    else
      let y := fr * ln2Fix / d
      let e := expLoop y 90 1 (2 ^ seriesBits) (2 ^ seriesBits)
      XVal.scale (.fin false (2 * e + 1) (2 ^ (seriesBits + 1))) i

/-- The sum of z^(2k+1)/(2k+1), z and z² in fixed point. -/
def atanhLoop (z2 : Nat) : Nat → Nat → Nat → Nat → Nat
  | 0, _, _, acc => acc
  | fuel + 1, i, p, acc => atanhLoop z2 fuel (i + 2) (p * z2 / 2 ^ seriesBits) (acc + p / i)

/-- log2(n/d) for n, d > 0: exact for a power of two. -/
def xlog2 (n d : Nat) : XVal :=
  let e := floorLog2 n d
  let n' := if 0 ≤ e then n else n * 2 ^ (-e).toNat
  let d' := if 0 ≤ e then d * 2 ^ e.toNat else d
  if n' == d' then .ofInt e
  else
    let z := (n' - d') * 2 ^ seriesBits / (n' + d')
    let z2 := z * z / 2 ^ seriesBits
    let lnm := 2 * atanhLoop z2 130 1 z 0
    let l := lnm * 2 ^ seriesBits / ln2Fix
    let v : Int := e * 2 ^ (seriesBits + 1) + (2 * l + 1)
    .fin (decide (v < 0)) v.natAbs (2 ^ (seriesBits + 1))

/-! ### The float instructions' functions (R190, R191) -/

/-- minimumNumber, or maximumNumber where `mx`. −0 is less than +0. -/
def xminmax (mx : Bool) (a b : XVal) : XVal × FpFlags :=
  let iv := flagIf (anySig [a, b]) flagIV
  match a.isNaN, b.isNaN with
  | true, true => (firstNaN [a, b], iv)
  | true, false => (b, iv)
  | false, true => (a, iv)
  | false, false =>
    let less := xlt a b || (xeq a b && a.sign && !b.sign)
    (if less != mx then a else b, iv)

/-- 1 / A. -/
def xrcp (a : XVal) : XVal × FpFlags :=
  match a with
  | .nan s q => (.nan s false, flagIf q flagIV)
  | .inf s => (.fin s 0 1, 0)
  | .fin s n d => if n == 0 then (.inf s, flagDZ) else (.fin s d n, 0)

/-- 1 / √A. -/
def xrsq (a : XVal) : XVal × FpFlags :=
  match a with
  | .nan s q => (.nan s false, flagIf q flagIV)
  | .inf s => if s then (.nan none false, flagIV) else (.fin false 0 1, 0)
  | .fin s n d =>
    if n == 0 then (.inf s, flagDZ)
    else if s then (.nan none false, flagIV) else (xsqrt d n, 0)

/-- √A. -/
def xsqrtOf (a : XVal) : XVal × FpFlags :=
  match a with
  | .nan s q => (.nan s false, flagIf q flagIV)
  | .inf s => if s then (.nan none false, flagIV) else (.inf false, 0)
  | .fin s n d =>
    if n == 0 then (.fin s 0 1, 0)
    else if s then (.nan none false, flagIV) else (xsqrt n d, 0)

/-- 2^A. -/
def xexp2Of (a : XVal) : XVal × FpFlags :=
  match a with
  | .nan s q => (.nan s false, flagIf q flagIV)
  | .inf s => if s then (.fin false 0 1, 0) else (.inf false, 0)
  | .fin s n d => (xexp2 s n d, 0)

/-- log2 A. -/
def xlog2Of (a : XVal) : XVal × FpFlags :=
  match a with
  | .nan s q => (.nan s false, flagIf q flagIV)
  | .inf s => if s then (.nan none false, flagIV) else (.inf false, 0)
  | .fin s n d =>
    if n == 0 then (.inf true, flagDZ)
    else if s then (.nan none false, flagIV) else (xlog2 n d, 0)

/-- R191: the class mask. -/
def fclass (T : Ty) (img : Nat) : Nat :=
  let f := T.fmt
  let v := img % 2 ^ T.bits
  let sub := v / 2 ^ f.mb % 2 ^ f.eb == 0
  match decodeFloat f v with
  | .nan _ sig => if sig then 2 ^ 8 else 2 ^ 9
  | .inf s => if s then 2 ^ 0 else 2 ^ 7
  | .fin s n _ =>
    if n == 0 then (if s then 2 ^ 3 else 2 ^ 4)
    else if sub then (if s then 2 ^ 2 else 2 ^ 5)
    else (if s then 2 ^ 1 else 2 ^ 6)

/-- An element read as a float type. -/
def readFloat (T : Ty) (img : Nat) : XVal := decodeFloat T.fmt (img % 2 ^ T.bits)

/-- R204: the key that orders a float by totalOrder. -/
def totalKey (T : Ty) (img : Nat) : Int :=
  let v := img % 2 ^ T.bits
  let s := 2 ^ (T.bits - 1)
  if s ≤ v then -((v - s : Nat) : Int) - 1 else v

/-- R67: float to integer. NaN gives 0 with IV; a clamp that changes the value sets IV and not NX. -/
def floatToInt (T : Ty) (mode : Mode) (x : XVal) : Nat × FpFlags :=
  match x with
  | .nan _ _ => (0, flagIV)
  | .inf s => (intImage T (if s then T.lo else T.hi), flagIV)
  | .fin s n d =>
    let (i, nx) := roundToInteger mode s n d
    if i < T.lo then (intImage T T.lo, flagIV)
    else if T.hi < i then (intImage T T.hi, flagIV)
    else (intImage T i, flagIf nx flagNX)

/-- R192: VCVT of one element. -/
def convert (T S : Ty) (mode : Mode) (sat nanprop : Bool) (img : Nat) : Nat × FpFlags :=
  if S.isInt then
    if T.isInt then intResult T sat (readInt S img)
    else roundTo T mode sat nanprop (.ofInt (readInt S img))
  else
    if T.isInt then floatToInt T mode (readFloat S img)
    else roundTo T mode sat nanprop (readFloat S img)

/-! ### Shared-scale and offset-binary elements (R71-R78) -/

/-- R73: one term of a ts8 element, in units of 2^−6. -/
def ts8Term (s c : Nat) : Int := if c == 7 then 0 else if s == 1 then -(2 ^ (6 - c) : Int) else 2 ^ (6 - c)

/-- R73: the value of a ts8 code before scaling. A sum of zero decodes to +0. -/
def ts8Value (q : Nat) : XVal :=
  let i := ts8Term (q / 128 % 2) (q / 16 % 8) + ts8Term (q / 8 % 2) (q % 8)
  .fin (decide (i < 0)) i.natAbs 64

/-- R71: the value of an mx4 code before scaling. -/
def mx4Value (q : Nat) : XVal := decodeFloat Ty.mx4.fmt (q % 16)

/-- R74: the two terms of a ts8 element, times its block scale. -/
def ts8Terms (q scale : Nat) : List XVal :=
  if scale % 256 == 255 then [.nan none false]
  else
    let t (s c : Nat) : XVal :=
      let i := ts8Term s c
      XVal.scale (.fin (decide (i < 0)) i.natAbs 64) ((scale % 256 : Nat) - 127)
    [t (q / 128 % 2) (q / 16 % 8), t (q / 8 % 2) (q % 8)]

/-- R71, R73: an element times its E8M0 block scale. 0xFF makes it NaN. -/
def scaledValue (T : Ty) (q scale : Nat) : XVal :=
  if scale % 256 == 255 then .nan none false
  else
    let v := match T with
      | .mx4 => mx4Value q
      | _ => ts8Value q
    v.scale ((scale % 256 : Nat) - 127)

/-- R76: the zero point that applies to a code of this type. -/
def zbZero (T : Ty) (md : Nat) (zp : Bool) : Nat :=
  if zp then (if T == .zb4 then md / 256 % 16 else md / 256 % 256) else 0

/-- R77: the value of a zb code under its metadata, and IV for d = 0 under an infinite SCALE. -/
def zbValue (T : Ty) (q md : Nat) (zp : Bool) : XVal × FpFlags :=
  let c := q % 2 ^ T.bits
  let d : Int := (c : Int) - zbZero T md zp
  match decodeFloat Ty.f16.fmt (md / 2 ^ 16 % 2 ^ 16) with
  | .nan _ _ => (.nan none false, 0)
  | .inf s => if d == 0 then (.nan none false, flagIV) else (.inf (s != decide (d < 0)), 0)
  | .fin s n e =>
    (.fin (s != decide (d < 0)) (d.natAbs * n) e, 0)

/-- R194: the exact value of a block code under its scale byte or metadata word. -/
def blockValue (T : Ty) (q b : Nat) (zp : Bool) : XVal × FpFlags :=
  if T == .mx4 || T == .ts8 then (scaledValue T q b, 0) else zbValue T q b zp

/-- x / y for a finite nonzero y. -/
def xdiv (a b : XVal) : XVal :=
  match a, b with
  | .fin s n d, .fin t m e => .fin (s != t) (n * e) (d * m)
  | .inf s, .fin t _ _ => .inf (s != t)
  | a, _ => a

/-- R193: quantise x into an existing block. -/
def quantise (T : Ty) (mode : Mode) (x : XVal) (b : Nat) (zp : Bool) : Nat × FpFlags :=
  if T == .mx4 || T == .ts8 then
    if b % 256 == 255 || x.isNaN then (if T == .mx4 then 0 else 0x77, flagIV)
    else roundTo T mode true false (x.scale (127 - ((b % 256 : Nat) : Int)))
  else
    let z : Int := zbZero T b zp
    let top : Int := 2 ^ T.bits - 1
    let S := decodeFloat Ty.f16.fmt (b / 2 ^ 16 % 2 ^ 16)
    if x.isNaN || S.isNaN || S.isInf || S.isZero then (z.toNat, flagIV)
    else match xdiv x S with
      | .inf s => (if s then 0 else top.toNat, flagSAT)
      | .fin s n d =>
        let (i, nx) := roundToInteger mode s n d
        let q := i + z
        let fn := flagIf nx flagNX
        if q < 0 then (0, flagSAT ||| fn)
        else if top < q then (top.toNat, flagSAT ||| fn)
        else (q.toNat, fn)
      | .nan _ _ => (z.toNat, flagIV)

/-- R75: the scale byte of a block converted whole, from the values of its elements. -/
def blockScale (T : Ty) (xs : List XVal) : Nat :=
  if xs.any (fun x => x.isNaN || x.isInf) then 255
  else
    let amax := xs.foldl (fun m x => if xlt m (match x with
      | .fin _ n d => .fin false n d
      | y => y) then (match x with
      | .fin _ n d => .fin false n d
      | y => y) else m) XVal.zero
    match amax with
    | .fin _ n d =>
      if n == 0 then 0
      else
        let e := floorLog2 n d - (if T == .mx4 then 2 else 0)
        (max (-127) (min 127 e) + 127).toNat
    | _ => 255

/-- R75: convert a whole block: its scale byte, its codes and the flags. -/
def blockConvert (T : Ty) (mode : Mode) (xs : List XVal) : Nat × List Nat × FpFlags :=
  let sc := blockScale T xs
  if sc == 255 then (255, xs.map (fun _ => if T == .mx4 then 0 else 0x77), flagIV)
  else
    let rs := xs.map (fun x => roundTo T mode true false (x.scale (127 - (sc : Int))))
    (sc, rs.map Prod.fst, rs.foldl (fun f r => f ||| r.2) 0)

/-- R195: the ts8 dot product of one lane. With scale byte 0xFF the payload of the NaN is that of the first NaN among the
activations and C, the operand A counting as no NaN operand (R63, log 65). -/
def tsdot (mode : Mode) (a : Nat) (b0 b1 c : XVal) : XVal × FpFlags :=
  let e : Nat := a / 2 ^ 16 % 256
  let iv := flagIf (anySig [b0, b1, c]) flagIV
  if e == 255 then (firstNaN [b0, b1, c], iv)
  else
    let w (x : Nat) (b : XVal) : List (XVal × FpFlags) := (ts8Terms x e).map (xmul b)
    let ps := w (a % 256) b0 ++ w (a / 256 % 256) b1
    let (s, f) := xsum mode c (ps.map Prod.fst)
    (if s.isNaN then firstNaN [b0, b1, c] else s, iv ||| f ||| ps.foldl (fun g p => g ||| p.2) 0)

/-- R196: the zb dot product of one lane. -/
def zdot (T : Ty) (mode : Mode) (zp : Bool) (a : Nat) (b0 b1 c : XVal) : XVal × FpFlags :=
  let n := 2 ^ T.bits
  let z : Nat := if zp then a / 2 ^ 16 % n else 0
  let c0 : Nat := a % n
  let c1 : Nat := a / n % n
  let iv := flagIf (anySig [b0, b1, c]) flagIV
  let p0 := xmul (.ofInt ((c0 : Int) - z)) b0
  let p1 := xmul (.ofInt ((c1 : Int) - z)) b1
  let (s, f) := xsum mode c [p0.1, p1.1]
  (if s.isNaN then firstNaN [b0, b1, c] else s, iv ||| f ||| p0.2 ||| p1.2)

/-- R83: one 8-wide accumulation step: the exact sum of the products and the accumulator, rounded once to
f32 with rne. -/
def accum8 (nanprop : Bool) (acc : Nat) (ps : List (XVal × XVal)) : Nat × FpFlags :=
  let prods := ps.map (fun p => xmul p.1 p.2)
  let a := readFloat .f32 acc
  let (s, f) := xsum .rne a (prods.map Prod.fst)
  let (r, g) := roundTo .f32 .rne false nanprop s
  (r, f ||| g ||| flagIf (anySig [a]) flagIV ||| prods.foldl (fun h p => h ||| p.2) 0)

/-- R83: the accumulation over all of K in runs of 8. -/
def accumRuns (nanprop : Bool) : Nat → Nat → List (XVal × XVal) → Nat × FpFlags
  | 0, acc, _ => (acc, 0)
  | _, acc, [] => (acc, 0)
  | fuel + 1, acc, ps =>
    let (a, f) := accum8 nanprop acc (ps.take 8)
    let (b, g) := accumRuns nanprop fuel a (ps.drop 8)
    (b, f ||| g)

end Sys2Proof.Machine
end

