-- ==== Sys2Proof/Config.lean ====
section
/-! DEFINITION. The agents that can take a step, what an implementation fixes, and the free values: constants
without a body, so that nothing can be proved of their values. -/

namespace Sys2Proof

/-- The agents of the module (log 1). Each step is taken by one of them. -/
inductive Agent where
  /-- The scalar strand of a group executes its next instruction (R149). -/
  | strand (g : Nat)
  /-- The strand, or a pipe, passes its next instruction, a load or an atomic, before that is performed; and the `n`th access so
  passed is performed (R51, R52). -/
  | passStrand (g : Nat)
  | passPipe (core p : Nat)
  | land (n : Nat)
  /-- Issue pipe `p` of a core makes its next selection (R139). -/
  | pipe (core p : Nat)
  /-- The front end executes the next entry of a queue (R402). -/
  | front (qid : Nat)
  /-- A free lane of the front end takes a queue (R402). -/
  | frontTake
  /-- The front end fetches an entry of a queue ahead, from the ring or from an indirect buffer, or drops one that it holds
  (R407). -/
  | fetchAhead (qid : Nat) (ring : Bool) (at_ : Nat)
  | dropAhead (qid n : Nat)
  /-- A chunk of a collective arrives while its engine is busy, and waits in its channel's buffer; and the engine of a die takes
  the next chunk that waits (R435). -/
  | chunkWaits (id off : Nat) (final : Bool) (data : ChunkData)
  | chunkNext (die : Nat)
  /-- The endpoint of queue register `q` of a group takes its next command (R146). -/
  | engine (g q : Nat)
  /-- A step of the machine that no word encodes. -/
  | event (i : Instr)
  /-- An L1 evicts the dirty bytes of a line (R32, R37). -/
  | evict (core line : Nat)
  /-- The entry cache of the front end writes a queue control block back (R397). -/
  | qcbWriteback (qid : Nat)
  /-- The entry cache takes a control block from the table (R397). -/
  | qcbFill (qid : Nat)
  /-- A TLB replaces an entry (R316). -/
  | tlbDrop (core n : Nat)
  /-- A walk cache replaces an entry (R316). -/
  | walkDrop (die n : Nat)
  /-- A base die activates a row of a bank (R370). -/
  | rowActivate (stack bank row : Nat)
  /-- A read of `n` bytes that no instruction orders reaches a base die: a table walk, a fetch, a fill (R367, R368). -/
  | baseRead (loc n : Nat)
  /-- The `n`th access on its way reaches its base die (R367, R368). -/
  | baseOp (n : Nat)
  /-- A cache keeps it back: a read is served there, a write goes out with a later one of its block. -/
  | baseKeep (n : Nat)
  /-- A queued write of a 64-byte block merges into the array, and a line leaves the cache layer (R367, R368). -/
  | baseMerge (block : Nat)
  | cacheDrop (line : Nat)
  /-- Temperature and power are measured (R445). -/
  | measure
  /-- Soft errors were corrected (R451). -/
  | corrected (n : Nat)
  deriving DecidableEq, Repr, Inhabited

namespace Config

/-- Which agent moves at a tick where the agenda names none. -/
opaque freeAgent : Nat → Agent

/-- How many cycles the module clock counts during a tick. -/
opaque freeCycles : Nat → Nat

/-- A choice at a tick, the second argument numbering the choices of one step. -/
opaque freeNat : Nat → Nat → Nat

/-- A word that the specification leaves open at a tick, numbered as above. -/
opaque freeWord : Nat → Nat → BitVec 64

/-- The home slice (24 × die + slice) that the hash of R30 gives a line. -/
opaque homeSlice : Nat → Nat

/-- The set of the owner caches that holds a page name (R335). -/
opaque ownerSet : Nat → Nat

/-- The packages of the Rhanan domain (R431). -/
opaque inDomain : Nat → Bool

/-- The set of an L1 that holds a line (R17). -/
opaque l1Set : Nat → Nat

/-- The set of the front end's entry cache that holds a control block (R397). -/
opaque qcbSet : Nat → Nat

/-- The pseudo-channel of a 64-byte block of a stack (R368). -/
opaque channelOf : Nat → Nat

/-- The Caerhus root public key in mask ROM (R447). -/
opaque rootKey : List Byte

/-- What the identity derivation of a tick gives: the private key, or none where it fails (R446, R449). -/
opaque puf : Nat → Option Nat

/-- What the self-test of a tick finds on a die: a bit for each of the 52 physical cores that passes (R448). -/
opaque selfTest : Nat → Nat → Nat

end Config
end Sys2Proof
end

