-- ==== Sys2Proof/Machine/Maps.lean ====
section
/-! DEFINITION. Sparse maps in one canonical form: keys strictly rising, no entry equal to what an unlisted
key reads as. Registers, tables and memory are held so, and equal contents are then equal data. -/

namespace Sys2Proof.Machine

/-- A sparse map from naturals. What an unlisted key reads as is given where the map is read or written. -/
abbrev SMap (α : Type) := List (Nat × α)

def mapGet {α : Type} (d : α) : SMap α → Nat → α
  | [], _ => d
  | (j, v) :: m, k => if k = j then v else mapGet d m k

/-- Take a key out. -/
def mapErase {α : Type} : SMap α → Nat → SMap α
  | [], _ => []
  | (j, w) :: m, k => if k = j then mapErase m k else (j, w) :: mapErase m k

/-- Put an entry before the first greater key. -/
def mapInsert {α : Type} : SMap α → Nat → α → SMap α
  | [], k, v => [(k, v)]
  | (j, w) :: m, k, v => if k < j then (k, v) :: (j, w) :: m else (j, w) :: mapInsert m k v

def mapSet {α : Type} [DecidableEq α] (d : α) (m : SMap α) (k : Nat) (v : α) : SMap α :=
  if v = d then mapErase m k else mapInsert (mapErase m k) k v

/-- The canonical form: keys at least `lo` and strictly rising, and no entry equal to the default. -/
def mapWf {α : Type} [DecidableEq α] (d : α) : Nat → SMap α → Bool
  | _, [] => true
  | lo, (k, v) :: m => decide (lo ≤ k) && !decide (v = d) && mapWf d (k + 1) m

/-- Memory: bytes by local DPA (R27). An unlisted byte reads 0 (log 2). -/
abbrev Memory := List Host.Cell

def memGet (m : Memory) (a : Nat) : Byte := mapGet 0 m a
def memSet (m : Memory) (a : Nat) (v : Byte) : Memory := mapSet 0 m a v

/-- The canonical form of memory. -/
def Memory.wf (m : Memory) : Bool := mapWf (0 : Byte) 0 m

/-- The `n` bytes from `a` as a little-endian number (R7). -/
def memRead (m : Memory) (a : Nat) : Nat → Nat
  | 0 => 0
  | n + 1 => (memGet m a).toNat + 256 * memRead m (a + 1) n

/-- Store the low `n` bytes of a number at `a`, little-endian (R7). -/
def memWrite (m : Memory) (a : Nat) : Nat → Nat → Memory
  | 0, _ => m
  | n + 1, v => memWrite (memSet m a (BitVec.ofNat 8 v)) (a + 1) n (v / 256)

/-- The bytes of a number, lowest first. -/
def bytesOf : Nat → Nat → List Byte
  | 0, _ => []
  | n + 1, v => BitVec.ofNat 8 v :: bytesOf n (v / 256)

/-- The number that a list of bytes holds, lowest first. -/
def natOfBytes : List Byte → Nat
  | [] => 0
  | b :: bs => b.toNat + 256 * natOfBytes bs

/-- Bits hi..lo of a natural. -/
def bits (x hi lo : Nat) : Nat := x / 2 ^ lo % 2 ^ (hi + 1 - lo)

def bit (x i : Nat) : Bool := x / 2 ^ i % 2 == 1

/-- A natural's low k bits as a signed integer. -/
def sext (k x : Nat) : Int :=
  let v := x % 2 ^ k
  if 2 ^ (k - 1) ≤ v ∧ 0 < k then (v : Int) - 2 ^ k else v

/-- Set or clear bit i of a mask. -/
def maskSet (m i : Nat) (b : Bool) : Nat :=
  if bit m i == b then m else if b then m + 2 ^ i else m - 2 ^ i

/-- The indices below n whose bit is set. -/
def maskList (n m : Nat) : List Nat := (List.range n).filter (fun i => bit m i)

/-- The mask of a list of indices below 64, each counted once. -/
def maskOf (is : List Nat) : Nat := is.foldl (fun m i => maskSet m i true) 0

/-- Replace the element at an index. -/
def listSet {α : Type} : List α → Nat → α → List α
  | [], _, _ => []
  | _ :: xs, 0, v => v :: xs
  | x :: xs, i + 1, v => x :: listSet xs i v

/-- Fold over a list with a step that may stop with an error. -/
def foldE {α β ε : Type} (f : β → α → Except ε β) : β → List α → Except ε β
  | b, [] => .ok b
  | b, x :: xs => match f b x with
    | .ok b' => foldE f b' xs
    | .error e => .error e

/-- The first element that a test picks, with what it answers. -/
def firstSome {α β : Type} (f : α → Option β) : List α → Option β
  | [] => none
  | x :: xs => match f x with
    | some y => some y
    | none => firstSome f xs

end Sys2Proof.Machine
end

