-- ==== Sys2Proof/Machine/State.lean ====
section
/-! DEFINITION. The state of the module as plain data, its faults and refusals, and the state after reset.
Records that stay sparse are maps in canonical form (Maps.lean), with the default named beside them. -/

namespace Sys2Proof.Machine

/-- No step of this module ends the machine: every trap of R251 is taken, and every engine and queue failure is
reported, as a next state. The type is kept for the host's interface, and nothing raises it. -/
inductive Fault where
  /-- Raised by nothing: safe. -/
  | machineStop
  deriving DecidableEq, Repr

/-- Reasons to refuse an instruction. -/
inductive Refusal where
  /-- Raised by an arm of exec whose instruction has no meaning yet: safe, for it claims nothing. -/
  | notModelled (mnemonic : String)
  deriving DecidableEq, Repr

/-- The ordering suffixes of R2 that this part carries. -/
structure Variant where
  b : Bool
  t : Bool
  h : Bool
  deriving DecidableEq, Repr, Inhabited

/-- What the agent that moves is working on: group, split-table index, queue and queue register. -/
structure Cur where
  grp : Nat
  frag : Nat
  queue : Nat
  qreg : Nat
  deriving DecidableEq, Repr, Inhabited

/-! ### Memory -/

/-- Who performed a write (R21, R23): a group's store or atomic, an engine of a class on a die for a group, another agent of
the module (the front end, the management core, an L1 that evicts a core-private line), or an agent outside it. -/
inductive Writer where
  | other
  | inside
  | lane (g : Nat)
  | engine (cls g die : Nat)
  deriving DecidableEq, Repr, Inhabited

/-- A write in the coherence order of an aligned 8-byte unit: `old` was the newest value until event `stamp` (R36,
R40). `shut` is the event at which the write was published, 0 for an engine's write that is not published yet (R48).
`born` is the event at which a group issued the store that was performed at `stamp` (R152). -/
structure Hist where
  unit : Nat
  old : Dword
  stamp : Nat
  who : Writer
  shut : Nat
  born : Nat
  deriving DecidableEq, Repr, Inhabited

/-- The bits of an aligned 8-byte unit that a store has written and that are not yet performed (R32, R52): by which
group and when; on a core-private page they stay in the core's L1, on a hardware-coherent page they wait for the line;
and the other groups of the core that have read them (R41). -/
structure Dirty where
  core : Nat
  unit : Nat
  mask : Dword
  val : Dword
  grp : Nat
  stamp : Nat
  cp : Bool
  hc : Bool
  readers : List Nat
  /-- It is of a NOCACHE page (R30). -/
  nc : Bool
  deriving DecidableEq, Repr, Inhabited

/-- An access of HBM that is on its way to its base die (R367, R368): a write or a read, its 64-byte block by (local address)/64,
its byte enables, and whether no cache may keep it back. -/
structure BaseOp where
  write : Bool
  block : Nat
  mask : Nat
  sure : Bool
  deriving DecidableEq, Repr, Inhabited

/-- A line of a core-private page that a core's L1 has taken from backing memory, and the event at which it did (R32,
R33). -/
structure CpLine where
  core : Nat
  line : Nat
  stamp : Nat
  deriving DecidableEq, Repr, Inhabited

/-- A TLB entry (R316): the leaf of a 4 KiB page of an ASID, and the size level of that leaf. A number past the cores' names
a die's engines (R317). -/
structure TlbEntry where
  core : Nat
  asid : Nat
  vpn : Nat
  leaf : Dword
  level : Nat
  deriving DecidableEq, Repr, Inhabited

/-- A walk-cache entry (R316): a pointer of level `level` under an index prefix. -/
structure WalkEntry where
  die : Nat
  asid : Nat
  level : Nat
  pre : Nat
  entry : Dword
  deriving DecidableEq, Repr, Inhabited

/-! ### Groups -/

/-- A split-table entry (R126). SMASK 0 marks it free. -/
structure Frag where
  pc : BitVec 26
  smask : BitVec 16
  join : BitVec 26
  fmtc : BitVec 25
  age : BitVec 16
  spin : BitVec 17
  wait : BitVec 2
  deriving DecidableEq, Repr, Inhabited

/-- A reconvergence-stack entry (R125): KIND 1 PATH, 2 RESUME, 3 FRAG. -/
structure StackEntry where
  kind : BitVec 2
  mask : BitVec 16
  pc : BitVec 26
  join : BitVec 26
  fmtc : BitVec 25
  deriving DecidableEq, Repr, Inhabited

/-- The strand's registers that run-ahead checkpoints (R132): s1 to s63 (default 0), FMT, AXIS0 to AXIS3; and, for each
outstanding block, the oldest first, the mask of the registers that the strand has written behind its LRUN (R150). -/
structure Strand where
  spc : Dword
  regs : SMap Dword
  fmt : Dword
  axis : SMap Dword
  later : List Nat
  deriving DecidableEq, Repr, Inhabited

/-- An outstanding lane block (R130, R131): what it captured, its pending set, the registers to capture when the
earlier block ends, the strand as it stood behind the LRUN, and the bytes it has written (R228). -/
structure Block where
  start : Nat
  scal : SMap Dword
  fmt : Dword
  axis : SMap Dword
  pending : Nat
  late : Nat
  ckpt : Strand
  wrote : List (Nat × Nat)
  seq : Nat
  deriving DecidableEq, Repr, Inhabited

/-- A side-buffer entry (R133): a store or a push, the number of blocks it is held behind, and the strand as it
stood before the instruction. -/
structure SideEntry where
  isPush : Bool
  behind : Nat
  q : Nat
  va : Dword
  loc : Nat
  size : Nat
  data : Dword
  ckpt : Strand
  seq : Nat
  deriving DecidableEq, Repr, Inhabited

/-- An SLD executed under run-ahead (R228). -/
structure EarlyLoad where
  behind : Nat
  loc : Nat
  size : Nat
  ckpt : Strand
  seq : Nat
  deriving DecidableEq, Repr, Inhabited

/-- A posted remote store that failed (R232): the order of its issue, trap code, PC of the store (bit 63 for a lane PC), its
address and the target package. -/
structure Deferred where
  seq : Nat
  code : Nat
  pc : Dword
  addr : Dword
  pkg : Nat
  deriving DecidableEq, Repr, Inhabited

/-- What a group waits on (R453). -/
inductive Wait where
  | none
  | barrier (partner : Bool) (idx : Nat) (woken : Bool)
  | monitor (addr : Nat) (woken : Bool)
  | place (handle : Dword)
  | wpop (qid : Nat) (woken : Bool)
  /-- A DRAIN that waits for the commands accepted before it began (R47); the group stays ready. -/
  | drain (before : Nat)
  deriving DecidableEq, Repr, Inhabited

/-- Whether a group is on its core. -/
inductive Run where
  | resident | away | ended
  /-- The save engine writes its frame; it still holds its slot (R261). -/
  | saving
  deriving DecidableEq, Repr, Inhabited

/-- A sample of a termination domain (R416). -/
structure Sample where
  quiet : Bool
  sent : BitVec 32
  recv : BitVec 32
  deriving DecidableEq, Repr, Inhabited

/-- A TDET in progress (R416): its domain, its first sample and, once taken, its result. -/
structure Tdet where
  tdom : Nat
  first : Sample
  result : Option Bool
  deriving DecidableEq, Repr, Inhabited

/-- The fields of a fault record (R328) that differ between its posters. -/
structure FaultInfo where
  kind : Nat
  code : Nat
  va : Dword := 0
  spc : Dword := 0
  team : Nat := 0
  info : Dword := 0
  asid : Nat := 0
  ltag : Nat := 0
  lpc : Nat := 0x3FFFFFF
  vf : Nat := 0
  gid : Nat := 0
  die : Nat := 0
  core : Nat := 0
  ekind : Nat := 0
  didx : Nat := 0
  level : Nat := 7
  acc : Nat := 0
  deriving DecidableEq, Repr, Inhabited

/-- A save in progress (R261): STATE and the maps it writes, whether the group then waits for residency, the fault
record to post and the fatal record to place (R257, R258). -/
structure SaveJob where
  st : Nat
  full : Bool
  vmap : Dword
  lsmap : Nat
  eligible : Bool
  post : Option FaultInfo
  fatal : List Dword
  deriving DecidableEq, Repr, Inhabited

/-- A group (R121): its place, its strand, its special registers and its lane state. -/
structure Group where
  launch : Nat
  team : Nat
  gid : Nat
  run : Run
  /-- Die × 48 + core (R172). -/
  core : Nat
  slot : Nat
  /-- STATE of the last save (R453). -/
  state : Nat
  /-- Away and waiting for residency (R142). -/
  eligible : Bool
  frame : Nat
  st : Strand
  gang : Dword
  mcfggen : Dword
  mconf : Dword
  fpmode : Dword
  fpflags : Dword
  trapvec : Dword
  traprec : Dword
  pretmo : Dword
  qbind : SMap Dword
  wtok : Nat
  inh : Bool
  dsrc : Nat
  dfrag : Nat
  dlpc : Nat
  wait : Wait
  tdet : Option Tdet
  blocks : List Block
  /-- The split table: index to entry, default free. -/
  frags : SMap Frag
  /-- Reconvergence stacks by slice, top first, and how many of a slice's oldest entries stand in its spill area (R129). -/
  recon : SMap (List StackEntry)
  spilled : SMap Nat
  /-- Active lanes of every slice (R127). -/
  act : Nat
  /-- p1 to p7 as 64-bit lane masks; p0 reads true. -/
  preds : SMap Nat
  /-- v registers by 64 × register + lane. -/
  vregs : SMap Word
  /-- Residues by 64 × axis + lane. -/
  resid : SMap Word
  abind : Dword
  pushq : SMap (List Dword)
  popq : SMap (List Dword)
  /-- Fragments whose VQIN has pushed some of its words, with the queue register and the words still to push (R205). -/
  vqin : List (Nat × Nat × List Dword)
  /-- The words that lane instructions waiting for another package have popped: fragment, lane PC, words (R183). -/
  taken : List (Nat × Nat × List Dword)
  side : List SideEntry
  slds : List EarlyLoad
  deferred : List Deferred
  /-- The event of the last ref (R40), and of the newest performed value of a unit that the group has read or written
  (R41). -/
  refStamp : Nat
  seen : SMap Nat
  /-- Lines that the group has accessed since its last PHASE at .dom or wider, by key / 128 (R34, R35). -/
  touched : List Nat
  /-- The event of the last PHASE.ref by scope, each with the wider scopes that it includes (R152). -/
  codeRef : SMap Nat
  /-- Writes of the group's completed engine commands: class, unit, stamp (R45). -/
  engw : List (Nat × Nat × Nat)
  /-- Engine writes that a fence has made visible to the group's later accesses of a class: class, unit, stamp; class 0 is
  LANE (R45, R48). -/
  vis : List (Nat × Nat × Nat)
  /-- The event of the last fence naming LANE and a class, by class (R45). -/
  fences : SMap Nat
  /-- Tick of the last residency, of the wait, and whether its quantum has passed (R143). -/
  since : Nat
  waitSince : Nat
  quantum : Bool
  /-- A pending request to save the group, and whether it is an urgent pre-emption (R259). -/
  saveReq : Option Bool
  save : Option SaveJob
  vmap : Dword
  lsmap : Nat
  full : Bool
  /-- Termination domain that the group is a member of (R414). -/
  tdom : Option Nat
  /-- Other packages whose slices may hold places of the group (R301). -/
  far : List Nat
  deriving DecidableEq, Repr, Inhabited

/-- The kind of an access that is passed before it is performed (R51): an ordinary load, a coherent load, an atomic. -/
inductive LateKind where
  | ld | ldc | at
  deriving DecidableEq, Repr, Inhabited

/-- An access that a group has passed and not performed yet (R51, R52): the fragment, for a lane instruction, its kind, units
and destination register, the instruction, and the group as it was. -/
structure Late where
  grp : Nat
  frag : Nat
  lane : Bool
  kind : LateKind
  units : List Nat
  dst : Nat
  instr : Instr
  snap : Group
  deriving DecidableEq, Repr, Inhabited

/-- A team (R122): its core, its frame, its local stores (own or even core, odd core of a pair). -/
structure Team where
  launch : Nat
  team : Nat
  core : Nat
  frame : Nat
  loc0 : SMap Byte
  loc1 : SMap Byte
  /-- 8-byte units marked uncorrectable (R357), by 2^17 × store + unit. -/
  bad : List Nat
  /-- The local store is in the team frame (R264). -/
  out : Bool
  ended : Bool
  deriving DecidableEq, Repr, Inhabited

/-- A translation that an engine command or a launch took at submission and holds pinned (R322, R325): the die whose
page-lock table holds the pin, the leaf with its level, and the first VA of the page. -/
structure Pin where
  die : Nat
  va : Nat
  level : Nat
  leaf : Dword
  deriving DecidableEq, Repr, Inhabited

/-- An accepted launch (R408-R411) with its kernel descriptor (R119). -/
structure Launch where
  queue : Nat
  asid : Nat
  vf : Nat
  priv : Bool
  maint : Bool
  ltag : Nat
  prio : Nat
  urgent : Bool
  gx : Nat
  gy : Nat
  gz : Nat
  mx : Nat
  my : Nat
  mz : Nat
  off : Nat
  dies : Nat
  scope : Nat
  caddr : Nat
  cpin : Option Pin
  cval : Dword
  args : List Word
  /-- TEAMIDs of the teams that have taken their first residency. -/
  started : List Nat
  sentry : Dword
  lbase : Dword
  fmt : Dword
  fpmode : Dword
  axis : SMap Dword
  lstore : Nat
  vregs : Nat
  width : Nat
  teamSize : Nat
  pair : Bool
  lcount : Nat
  gbase : Nat
  gcount : Nat
  tbase : Nat
  tcount : Nat
  done : Bool
  killed : Bool
  deriving DecidableEq, Repr, Inhabited

/-- Room claimed for a waiter (R142): a returning group by number, or the team that has not started; the core or even
core of the pair, and the victims taken for it. -/
structure Claim where
  launch : Nat
  team : Nat
  grp : Option Nat
  core : Nat
  victims : List Nat
  deriving DecidableEq, Repr, Inhabited

/-! ### Core, die and slice -/

/-- One bypass latch of a pipe (R136): the lanes written since its last loss, and their values. -/
structure Latch where
  valid : Bool
  lanes : SMap Word
  deriving DecidableEq, Repr, Inhabited

/-- An issue pipe: its hold (selections left and group, R137), the group that issued last, latches b0 to b3. -/
structure Pipe where
  hold : Nat
  owner : Nat
  latches : SMap Latch
  deriving DecidableEq, Repr, Inhabited

/-- A barrier object (R287). -/
structure Barrier where
  valid : Bool
  ph : Bool
  exp : Nat
  cnt : Nat
  pacc : Nat
  lpath : Nat
  asid : Nat
  ltag : Nat
  team : Nat
  waiters : Nat
  /-- The partner-waiter map of this barrier, which the partner core keeps. -/
  partner : Nat
  /-- Engine writes whose completions arrived in this phase, and in the phase before: class, unit, stamp (R48). -/
  writes : List (Nat × Nat × Nat)
  last : List (Nat × Nat × Nat)
  deriving DecidableEq, Repr, Inhabited

/-- Who waits on a monitor: a group (SWAITC), a queue (WAITMEM) or a group of another package. -/
inductive Waiter where
  | group (g : Nat)
  | queue (q : Nat)
  | remote (pkg : Nat)
  deriving DecidableEq, Repr, Inhabited

/-- A condition monitor (R294) at a slice (24 × die + slice); MASK is all ones for a group. -/
structure Monitor where
  slice : Nat
  who : Waiter
  cmp : Nat
  dword : Bool
  scope : Nat
  asid : Nat
  ltag : Nat
  team : Nat
  gid : Nat
  addr : Nat
  mask : Dword
  value : Dword
  deriving DecidableEq, Repr, Inhabited

/-- A record of the place pool (R297): KIND 0 free, 1 header, 2 place. ST 0 queued, 1 granted, 2 abandoned. A holder of
another package is named by 2^40 and more. -/
structure PlaceRec where
  kind : Nat
  st : Nat
  gen : Nat
  /-- Place: the next place; header: HEAD. 0xFFFF at the tail. -/
  next : Nat
  tail : Nat
  obj : Nat
  scope : Nat
  waiting : Bool
  /-- SCOPE that the grant will have: that of an XWAIT of another package (R300). -/
  want : Option Nat
  holder : Option Nat
  hdr : Nat
  deriving DecidableEq, Repr, Inhabited

/-- A matrix operation's kind (R276, R281). -/
inductive MOpKind where
  | mma | mmas | mzero | mlda | mst
  deriving DecidableEq, Repr, Inhabited

/-- An accepted matrix operation with its snapshot (R272, R273). -/
structure MOp where
  id : Nat
  core : Nat
  grp : Nat
  kind : MOpKind
  tile : Nat
  a : Dword
  b : Dword
  bitmap : Dword
  conf : Dword
  /-- The groups whose work it is: the issuer, or every member of a gang. -/
  members : List Nat
  started : Bool
  gated : Bool
  /-- The event of its acceptance; each member with the event of its last fence naming LANE and MATRIX; the engine writes
  that their fences made visible to it (R45, R285). -/
  stamp : Nat
  own : List (Nat × Nat)
  vis : List (Nat × Nat)
  deriving DecidableEq, Repr, Inhabited

/-- A rendezvous latch (R280): core, team and gang set, the item recorded, and the arrivals by group. -/
structure Rendezvous where
  core : Nat
  launch : Nat
  team : Nat
  gang : Nat
  kind : MOpKind
  a : Dword
  b : Dword
  bitmap : Dword
  conf : Dword
  gen : Dword
  arrived : List Nat
  deriving DecidableEq, Repr, Inhabited

/-- The owner of an accumulator tile (R262): launch and team whose operation last wrote it. -/
structure TileTag where
  owned : Bool
  launch : Nat
  team : Nat
  deriving DecidableEq, Repr, Inhabited

/-- A tile that another context's operation put out (R262): core and tile as 8 × core + tile, its owner, and whether
its content went to the owner's team frame or was dropped with an ended team. -/
structure TileOut where
  key : Nat
  launch : Nat
  team : Nat
  saved : Bool
  deriving DecidableEq, Repr, Inhabited

/-- Where an accepted engine command stands (R322, R323, R355). -/
inductive CmdState where
  /-- Waiting to translate: for pins, for a heap, or for a migration's switch. -/
  | waiting
  | deferred (didx : Nat)
  | running
  /-- Its local writes are made, its remote ones are not all acknowledged. -/
  | writing
  /-- Its results are written and it has arrived; its status word waits for earlier ones. -/
  | done
  deriving DecidableEq, Repr, Inhabited

/-- An engine command (R352): endpoint kind and unit (the core of a copy engine, else a die or stack), issuer, queue
register, its words, its translations, the stamp of its acceptance, its outcome, and what it wrote (class, unit of
memory, stamp). -/
structure Cmd where
  id : Nat
  eng : Nat
  unit : Nat
  grp : Nat
  qreg : Nat
  words : List Dword
  state : CmdState
  trans : List Pin
  stamp : Nat
  code : Nat
  count : Nat
  gated : Bool
  /-- The slot of the team frame that holds a gated copy's progress record (R262, R265). -/
  prog : Option Nat
  wrote : List (Nat × Nat × Nat)
  /-- The event of the issuer's last fence naming LANE and the command's class, and the engine writes that its fences
  made visible to the command (R45). -/
  fence : Nat
  vis : List (Nat × Nat)
  /-- When it took its translations, in the numbering of commands and requests (R326). -/
  accepted : Nat
  deriving DecidableEq, Repr, Inhabited

/-! ### Search (R378-R388) -/

/-- A message of a search in flight (R385): `src` is the stack that sent a VISIT. -/
inductive SearchMsg where
  | broadcast (stack : Nat)
  | expand (node : Nat)
  | visit (nbr : Nat)
  | reply (node : Nat) (dist : Option Word)
  | endOf (n : Nat)
  deriving DecidableEq, Repr, Inhabited

/-- A search that runs at its home stack (R382): its command, heap number, descriptor, query as f32 with QINV, heap H,
candidates C, recorded ids V, expansions made, the replies awaited of the current expansion and those received. -/
structure Search where
  cmd : Nat
  home : Nat
  slot : Nat
  desc : List Dword
  query : List Word
  qinv : Word
  heap : List (Word × Nat)
  cands : List (Word × Nat)
  seen : List Nat
  hops : Nat
  /-- The first look at ENTRY has not been answered. -/
  entry : Bool
  expected : Option Nat
  got : List (Nat × Option Word)
  poisoned : Bool
  msgs : List SearchMsg
  queryAt : List Nat
  deriving DecidableEq, Repr, Inhabited

/-! ### Migration (R332-R344) -/

/-- A migration in progress (R338): the page, its frames, and the units copied so far. -/
structure Migration where
  gpn : Nat
  /-- DPAs of the old frame and of the target frame. -/
  src : Nat
  target : Nat
  copied : List Nat
  deriving DecidableEq, Repr, Inhabited

/-- An owner-cache entry of a die (R335). -/
structure Owner where
  die : Nat
  gpn : Nat
  home : Nat
  epoch : Nat
  deriving DecidableEq, Repr, Inhabited

/-- A stub record (R340): the old home, the new home, the packages still to acknowledge, and the requests relayed to
another package that are not yet completed. -/
structure Stub where
  gpn : Nat
  old : Nat
  home : Nat
  epoch : Nat
  waiting : List Nat
  relay : Nat
  /-- This package has removed the page from its owner caches for this stub (R338). -/
  dropped : Bool
  deriving DecidableEq, Repr, Inhabited

/-- A REDIRECT on its way to a die (R341). -/
structure RedirectMsg where
  die : Nat
  gpn : Nat
  home : Nat
  epoch : Nat
  deriving DecidableEq, Repr, Inhabited

/-! ### Fabric (R423-R442) -/

/-- What a remote request asks (R426). -/
inductive RemOp where
  | load (size : Nat)
  | store (size : Nat) (data : Dword)
  | atomic (ty op : Nat) (operand expected : Dword)
  /-- The stores of one lane instruction to one line, in lane order: byte offset in the line, mask, data (R219). -/
  | lineStore (parts : List (Nat × Nat × Nat))
  /-- The atomics of one lane instruction on one line, in lane order: byte offset, operand, expected value. `pinned`: the
  line's page is pinned by a probe (R219, R226). -/
  | lineAtomic (ty op : Nat) (parts : List (Nat × Dword × Dword)) (pinned : Bool)
  /-- A home slice reads the line of a page whose frame is in another package (R334). -/
  | line (loc : Nat)
  /-- The write of an 8-byte unit that it leaves marked uncorrectable (R344, R357). -/
  | mark
  | probe
  | directory (gpn : Nat)
  /-- PGMIG and PGQRY at another package's directory (R336, R337). -/
  | migrate (gpn target : Nat)
  | pageQuery (gpn : Nat)
  | monitor (cmp : Nat) (dword : Bool) (value : Dword)
  | place (op scope : Nat) (arg : Dword)
  deriving DecidableEq, Repr, Inhabited

/-- Where a remote request stands. -/
inductive RemState where
  | held | sent
  /-- `bad` has a bit for each aligned 8-byte unit of the answer that is marked uncorrectable. -/
  | answered (data : List Byte) (bad : Nat)
  | nacked (reason : Nat)
  | timedOut
  deriving DecidableEq, Repr, Inhabited

/-- A remote request: its issuer (group, and the lane PC or NONE for the strand), target DPA, what it asks. -/
structure RemReq where
  id : Nat
  grp : Nat
  pc : Dword
  va : Dword
  addr : Nat
  op : RemOp
  state : RemState
  /-- The page through whose home in an owner cache it was sent (R342). -/
  gpn : Option Nat
  deriving DecidableEq, Repr, Inhabited

/-- A translation probe that was answered and pins a page (R226, R427): the package, the die whose page-lock table holds the
pin, the frame or GPN, and which of the two it is. -/
structure Probe where
  pkg : Nat
  die : Nat
  page : Nat
  mig : Bool
  deriving DecidableEq, Repr, Inhabited

/-- A multicast in progress at its origin (R431): the command, and the reports still missing. -/
structure Mcast where
  cmd : Nat
  peers : List Nat
  failed : Bool
  deriving DecidableEq, Repr, Inhabited

/-- A multicast that arrives at this package (R432): its sender, its number and length, the bytes that have come, and whether
its range passed the check. -/
structure Chain where
  src : Nat
  id : Nat
  len : Nat
  got : Nat
  ok : Bool
  deriving DecidableEq, Repr, Inhabited

/-- A chunk of a collective in a buffer of its channel (R435): the command here, the byte offset, whether it is part of the
result, its sender's operation (R436), its data. -/
structure Chunk where
  cmd : Nat
  off : Nat
  final : Bool
  opc : Nat
  items : Nat
  count : Nat
  data : List (BitVec 64)
  deriving DecidableEq, Repr, Inhabited

/-- Where a collective engine stands among its channels (R435): the channels at which its search starts, for communicators
of high and of low priority, and the chunks that have won while one of low priority was ready. -/
structure Arbiter where
  high : Nat
  low : Nat
  run : Nat
  deriving DecidableEq, Repr, Inhabited

/-- A collective operation in progress at this member (R435): the chunks that have arrived, with their byte offsets:
contributions of single members, and finished parts of the result. -/
structure Coll where
  cmd : Nat
  parts : List (Nat × List Dword)
  finals : List (Nat × List Dword)
  deriving DecidableEq, Repr, Inhabited

/-! ### Front end -/

/-- What a queue's next entry comes from beside its ring (R405): an indirect buffer (next address, entries left), or
a loop (ring count or address of its first entry, LEN, times left, position). -/
inductive QFrame where
  | ib (next left : Nat)
  | loop (start len left pos : Nat)
  deriving DecidableEq, Repr, Inhabited

/-- A queue's run state beside its control block (R402-R407). -/
structure QRun where
  /-- Its frames, innermost first. -/
  frames : List QFrame
  /-- Entries still to pass over (PRED). -/
  skip : Nat
  /-- Entries fetched and kept, at most 4 KiB, the newest first: a ring count, or 2^64 × (ASID + 1) + VA (R407). -/
  ahead : List (Nat × Entry)
  /-- Its packet waits for a word or for room, or for its launches (R403, R405, R413). -/
  waiting : Bool
  parked : Bool
  /-- The write of its packet is made and awaited. -/
  posted : Bool
  /-- Its incomplete launches. -/
  launches : List Nat
  deriving DecidableEq, Repr, Inhabited

/-- A lane of the front end: the queue that it serves, and the packets that it has taken from it (R402). -/
structure FrontLane where
  queue : Nat
  count : Nat
  deriving DecidableEq, Repr, Inhabited

/-- A translation request that waits (R326, R344). `sent`: a PGATTR's copy is on its way to another package, but for the
lines that stay as they were (R35), by their place in the page; `since` is the event at which it left. -/
structure PendReq where
  queue : Nat
  entry : Entry
  stamp : Nat
  sent : Bool
  kept : List Nat
  since : Nat
  deriving DecidableEq, Repr, Inhabited

/-- A fault record that waits for room (R330). -/
structure HeldFault where
  vf : Nat
  words : List Dword
  deriving DecidableEq, Repr, Inhabited

/-- Lines that still behave under the leaf of before a PGATTR (R35): the ASID, the lines by VA/128, that leaf. -/
structure AttrMix where
  asid : Nat
  lines : List Nat
  leaf : Nat
  deriving DecidableEq, Repr, Inhabited

/-- The whole machine. -/
structure State where
  /-- The model's own: the count of steps, which numbers the free values (log 1). -/
  tick : Nat
  /-- The model's own: the agents that move next, the first first (log 1). -/
  agenda : List Agent
  /-- The model's own: what the moving agent works on (log 1). -/
  cur : Cur
  /-- CLOCK (R173). -/
  clock : Dword
  /-- CAPS (R3). -/
  caps : Dword
  /-- PKG (R171). -/
  pkg : Nat
  variant : Variant
  mem : Memory
  /-- The count of writes, publications and refs, which stamps them in the order in which they happen (R36, R38). -/
  ord : Nat
  hist : List Hist
  poison : List Nat
  dirty : List Dirty
  /-- The lines of core-private pages that the cores' L1s hold. -/
  cpLines : List CpLine
  /-- The device register region, 64-bit words by (local address)/8, default 0. -/
  regs : SMap Dword
  tlb : List TlbEntry
  walks : List WalkEntry
  groups : List Group
  /-- Accesses of groups that are passed and not performed yet, oldest first (R51, R52, log 64). -/
  late : List Late
  teams : List Team
  launches : List Launch
  /-- Pipes by 4 × core + pipe. -/
  pipes : SMap Pipe
  /-- Barrier objects by 64 × core + index. -/
  barriers : SMap Barrier
  monitors : List Monitor
  /-- Place records by 65536 × (24 × die + slice) + index. -/
  places : SMap PlaceRec
  /-- Accumulator tiles by 4096 × (8 × core + tile) + 64 × m + n. -/
  tiles : SMap Word
  tileTags : SMap TileTag
  tileOuts : List TileOut
  mops : List MOp
  rendezvous : List Rendezvous
  cmds : List Cmd
  searches : List Search
  migrations : List Migration
  /-- Entries of the owner caches, the most recently used first (R335). -/
  owners : List Owner
  /-- Answers of other packages' directories that an entry is unusable, which whoever asked has not reported yet: the asker's
  identity and the page (R332). -/
  badGpns : List (Nat × Nat)
  /-- Lines, by location/128, of this directory's pages that their home slices hold while the frame is in another
  package (R334). -/
  migLines : List Nat
  stubs : List Stub
  redirects : List RedirectMsg
  remote : List RemReq
  mcasts : List Mcast
  colls : List Coll
  /-- Chunks that wait in the buffers of their channels, in the order of their arrival, and the arbitration of each die's
  engine (R435). -/
  chunks : List Chunk
  arbiters : SMap Arbiter
  /-- Multicasts that arrive (R432). -/
  chains : List Chain
  /-- The pins of translation probes (R226, R427). -/
  probes : List Probe
  /-- Planes that drain (R425). -/
  draining : List Nat
  /-- The entry cache of control blocks: queue and image (R397). -/
  qcache : List (Nat × Nat)
  queues : SMap QRun
  /-- The lanes of the front end that serve a queue, the queues that are to execute in the step under way, and by PRIO the
  id at which the search for the next queue starts (R402). -/
  lanes : List FrontLane
  laneStep : List Nat
  laneNext : SMap Nat
  /-- Groups asleep in WPOP by queue, oldest first (R414). -/
  sleepers : SMap (List Nat)
  /-- SENT and RECV by 2^24 × die + 256 × ASID + TDOM (R416). -/
  sent : SMap (BitVec 32)
  recv : SMap (BitVec 32)
  pendInv : List PendReq
  pendAttr : List PendReq
  mixes : List AttrMix
  /-- The last SEQ of each virtual function (R328), and the records held (R330). -/
  seq : SMap Nat
  held : List HeldFault
  /-- Host notifications posted: entry and data (R444), newest first. -/
  notes : List (Nat × Nat)
  /-- Activation counts of the window by 2^40 × stack + 2^20 × bank + row, and captured rows (R370). -/
  rowHits : SMap Nat
  captured : List (Nat × Nat)
  /-- The DRAM cache layer's lines, the most recently used first, by (local address)/128, and whether they are dirty
  (R367). -/
  cacheLines : List (Nat × Bool)
  /-- Accesses of HBM on their way to the base dies, oldest first. -/
  baseOps : List BaseOp
  /-- The write queues, oldest first: 64-byte block, by (local address)/64, and its byte enables (R368). -/
  writeQueue : List (Nat × Nat)
  /-- The identity's private key, which nothing reads out (R449). -/
  identKey : Nat
  /-- Image digests that the boot verified (R449), and the report in progress. -/
  digests : List (List Byte)
  /-- A report under way: its address, and NONCE as it began. -/
  report : Option (Nat × Nat)
  /-- Uncorrectable soft errors counted whose notification is still to be posted (R451). -/
  ueNotes : Nat
  /-- Room that victims have made for waiters (R142). -/
  claims : List Claim
  /-- The next identity for commands, requests and operations. -/
  nextId : Nat
  deriving DecidableEq, Repr, Inhabited

/-- The reset values of the device register region that are not 0, by (local address)/8: PLANEMAP and PLSTAT
(R424), FTMO, HRTH of each stack (R371) and PLIMIT (R445). -/
def resetRegs : SMap Dword :=
  (List.range 24).map (fun st => (0x3F0000200030 / 8 + 32 * st, 8192)) ++
  [(0x3F0000500000 / 8, 0x76543210), (0x3F0000500008 / 8, 0xFF), (0x3F0000500010 / 8, 2000),
   (0x3F0000605000 / 8, 7500)]

/-- The module right after reset (log 1 to 5 for the values the specification does not give). -/
def State.reset : State where
  tick := 0
  agenda := []
  cur := ⟨0, 0, 0, 0⟩
  clock := 0
  caps := 0
  pkg := 0
  variant := ⟨false, false, false⟩
  mem := []
  ord := 0
  hist := []
  poison := []
  dirty := []
  cpLines := []
  regs := resetRegs
  tlb := []
  walks := []
  groups := []
  late := []
  teams := []
  launches := []
  pipes := []
  barriers := []
  monitors := []
  places := []
  tiles := []
  tileTags := []
  tileOuts := []
  mops := []
  rendezvous := []
  cmds := []
  searches := []
  migrations := []
  owners := []
  badGpns := []
  migLines := []
  stubs := []
  redirects := []
  remote := []
  mcasts := []
  colls := []
  chunks := []
  arbiters := []
  chains := []
  probes := []
  draining := []
  qcache := []
  queues := []
  lanes := []
  laneStep := []
  laneNext := []
  sleepers := []
  sent := []
  recv := []
  pendInv := []
  pendAttr := []
  mixes := []
  seq := []
  held := []
  notes := []
  rowHits := []
  captured := []
  cacheLines := []
  baseOps := []
  writeQueue := []
  identKey := 0
  digests := []
  report := none
  ueNotes := 0
  claims := []
  nextId := 1

end Sys2Proof.Machine
end

