-- ==== Sys2Proof/Machine/Memory.lean ====
section
/-! DEFINITION. Memory: the address space (R26-R31), translation (R311-R317), migrated pages (R332-R341), the
coherence order of each 8-byte unit and the values that loads may return (R36-R42), pub and ref (R37). -/

namespace Sys2Proof.Machine

/-! ### Access to groups and to free values -/

def State.group (s : State) (g : Nat) : Group := (s.groups[g]?).getD default
def State.setGroup (s : State) (g : Nat) (x : Group) : State := { s with groups := listSet s.groups g x }
/-- The group begins to wait, or still waits (R138, R143). -/
def State.hold (s : State) (g : Group) (w : Wait) : Group :=
  { g with wait := w, waitSince := if g.wait == .none then s.tick else g.waitSince }
/-- The group that the moving agent works for. -/
def State.grp (s : State) : Group := s.group s.cur.grp
def State.setGrp (s : State) (x : Group) : State := s.setGroup s.cur.grp x
def State.launch (s : State) (l : Nat) : Launch := (s.launches[l]?).getD default
def State.launchOf (s : State) (g : Group) : Launch := s.launch g.launch
/-- The die of a group (R172). -/
def Group.die (g : Group) : Nat := g.core / 48

/-- The `k`th free choice of this step. -/
def State.free (s : State) (k : Nat) : Nat := Config.freeNat s.tick k

/-- One of several allowed outcomes, chosen freely. -/
def State.pick {α : Type} (s : State) (k : Nat) (d : α) : List α → α
  | [] => d
  | [x] => x
  | x :: xs => ((x :: xs)[s.free k % (xs.length + 1)]?).getD d

/-! ### The device register region (R27, R28) -/

def regGet (s : State) (a : Nat) : Dword := mapGet 0 s.regs (a / 8)
def regSet (s : State) (a : Nat) (v : Dword) : State := { s with regs := mapSet 0 s.regs (a / 8) v }

def regBase : Nat := 0x3F0000000000
def faultBase : Nat := 0x3F0000080000
def dirBaseAddr : Nat := 0x3F0000100000
def dirLenAddr : Nat := 0x3F0000100008
def qtBaseAddr : Nat := 0x3F0000400000
def mgmtBase : Nat := 0x3F0000600000
def coreRsvAddr : Nat := 0x3F0000700000
def sliceRsvAddr : Nat := 0x3F0000704000
def qcbWindow : Nat := 0x3F0001000000

/-- Bytes of a core's local store reserved for CORE-homed pages (R452). -/
def coreRsv (s : State) (core : Nat) : Nat := (regGet s (coreRsvAddr + 8 * core)).toNat * 2 ^ 16

/-! ### The local address space (R27) -/

def hbmBacked (l : Nat) : Bool := decide (l < 0x18000000000) && decide (l % 2 ^ 36 < 0xDF8475000)
def tierBacked (v : Variant) (l : Nat) : Bool :=
  !v.t && decide (0x100000000000 ≤ l) && decide (l < 0x118000000000) && decide (l % 2 ^ 37 < 0x1DCD650000)
def hostWindow (l : Nat) : Bool := decide (0x200000000000 ≤ l) && decide (l < 0x300000000000)
def regWindow (l : Nat) : Bool := decide (0x3F0000000000 ≤ l) && decide (l < 0x400000000000)
/-- Local addresses that hold memory. -/
def isMemory (v : Variant) (l : Nat) : Bool := hbmBacked l || tierBacked v l || hostWindow l

/-- The package of a DPA, and its local address. -/
def dpaPkg (d : Nat) : Nat := d / 2 ^ 46 % 1024
def dpaLocal (d : Nat) : Nat := d % 2 ^ 46

/-! ### Page-table entries (R312-R314) -/

def pteV (e : Nat) : Bool := bit e 0
def pteLeaf (e : Nat) : Bool := bit e 7
def pteR (e : Nat) : Bool := bit e 3
def pteW (e : Nat) : Bool := bit e 4
def pteXS (e : Nat) : Bool := bit e 5
def pteXL (e : Nat) : Bool := bit e 6
def pteG (e : Nat) : Bool := bit e 8
def pteCT (e : Nat) : Bool := bit e 9
def pteHome (e : Nat) : Nat := bits e 11 10
def pteFrame (e : Nat) : Nat := bits e 55 12
def pteCoh (e : Nat) : Nat := bits e 57 56
def pteDQF (e : Nat) : Bool := bit e 58
def pteSPZ (e : Nat) : Bool := bit e 59
def pteMIG (e : Nat) : Bool := bit e 60

/-- R314: a CORE or SLICE leaf's target is in range and reserved. -/
def homeTargetOk (s : State) (e : Nat) : Bool :=
  let die := bits e 45 41
  let u := bits e 40 35
  let ix := bits e 20 12
  bits e 55 46 == s.pkg && decide (die < 24) && bits e 34 21 == 0 &&
  (if pteHome e == 1 then
    decide (u < 48) && decide (ix < 16 * (regGet s (coreRsvAddr + 8 * (48 * die + u))).toNat)
   else decide (u < 24) && decide (ix < (regGet s (sliceRsvAddr + 8 * (24 * die + u))).toNat))

/-- R333: the local address of a directory entry of this package. -/
def dirEntry (s : State) (gpn : Nat) : Nat :=
  dpaLocal (bits (regGet s dirBaseAddr).toNat 55 8 * 256) + 256 * (gpn % 2 ^ 34)

/-- The low 208 bits of a directory entry. -/
def dirBits (s : State) (gpn : Nat) : Nat := memRead s.mem (dirEntry s gpn) 26

def gpnPkg (gpn : Nat) : Nat := bits gpn 43 34

/-- R332: a GPN names a usable entry. A directory of another package answers for itself, each time that it is asked. -/
def gpnOk (s : State) (gpn : Nat) : Bool :=
  if gpnPkg gpn != s.pkg then !s.badGpns.any (fun p => p.2 == gpn)
  else
    let st := bits (dirBits s gpn) 183 182
    decide (gpn % 2 ^ 34 < (regGet s dirLenAddr).toNat) && hbmBacked (dirEntry s gpn) &&
    hbmBacked (dirEntry s gpn + 255) && (st == 1 || st == 2)

/-- R333: the local address of the frame that a home names. -/
def homeLocal (h : Nat) : Nat := bits h 28 24 * 2 ^ 36 + bits h 23 0 * 4096

/-- The home that names a frame DPA. -/
def homeOf (dpa : Nat) : Nat :=
  dpaPkg dpa * 2 ^ 29 + dpaLocal dpa / 2 ^ 36 * 2 ^ 24 + dpaLocal dpa % 2 ^ 36 / 4096

/-- R313: a present entry of a level is malformed. -/
def pteMalformed (s : State) (level e : Nat) : Bool :=
  bits e 63 61 != 0 || bits e 2 1 != 0 || pteCoh e == 3 ||
  (pteLeaf e && decide (3 ≤ level)) || (!pteLeaf e && level == 0) ||
  (pteW e && !pteR e) ||
  (if pteLeaf e then
    (level == 2 && bits e 29 12 != 0) || (level == 1 && bits e 20 12 != 0) ||
    (pteMIG e && (level != 0 || pteCT e)) || (pteCT e && level != 0) ||
    ((pteHome e == 1 || pteHome e == 2) && (level != 0 || pteCT e || !homeTargetOk s e)) ||
    (pteMIG e && !gpnOk s (pteFrame e))
   else
    bits e 60 56 != 0 || bits e 11 8 != 0 || bits e 6 3 != 0 ||
    dpaPkg (pteFrame e * 4096) != s.pkg ||
    !(hbmBacked (dpaLocal (pteFrame e * 4096)) || hostWindow (dpaLocal (pteFrame e * 4096))))

/-! ### The walk (R311, R316, R317) -/

/-- What a translation finds: a leaf and its level, V = 0 at a level, or a malformed entry. -/
inductive Walk where
  | leaf (e level : Nat)
  | absent (level : Nat)
  | bad
  deriving DecidableEq, Repr, Inhabited

/-- The index of a virtual address at a level. -/
def walkIndex (va level : Nat) : Nat :=
  if level == 4 then va / 2 ^ 48 % 64 else va / 2 ^ (12 + 9 * level) % 512

/-- R317: the entry that a level's lookup sees: the table's, or the one the walk cache still holds. -/
def walkEntry (s : State) (asid die level va table : Nat) : Nat :=
  let e := memRead s.mem (table + 8 * walkIndex va level) 8
  let p := va / 2 ^ (12 + 9 * level)
  match s.walks.find? (fun w => w.die == die && w.asid == asid && w.level == level && w.pre == p) with
  | some w => if w.entry.toNat == e then e else s.pick (16 + level) e [e, w.entry.toNat]
  | none => e

/-- The walk from a table at level `fuel − 1` down. -/
def walkFrom (s : State) (asid die va : Nat) : Nat → Nat → Walk
  | 0, _ => .bad
  | level + 1, table =>
    let e := walkEntry s asid die level va table
    if !pteV e then .absent level
    else if pteMalformed s level e then .bad
    else if pteLeaf e then .leaf e level
    else walkFrom s asid die va level (dpaLocal (pteFrame e * 4096))

/-- R318: the table entry of an ASID, and the local address of its root. -/
def asidEntry (s : State) (asid : Nat) : Nat := (regGet s (regBase + 8 * asid)).toNat
def asidRoot (s : State) (asid : Nat) : Nat := dpaLocal (bits (asidEntry s asid) 55 12 * 4096)
def asidBound (s : State) (asid : Nat) : Bool := bits (asidEntry s asid) 63 62 == 1
def asidVf (s : State) (asid : Nat) : Nat := bits (asidEntry s asid) 61 56

def walkRoot (s : State) (asid die va : Nat) : Walk := walkFrom s asid die va 5 (asidRoot s asid)

/-- The L0 table that a walk reaches. -/
def leafTable (s : State) (asid die va : Nat) : Nat → Nat → Option Nat
  | 0, _ => none
  | 1, table => some table
  | level + 2, table =>
    let e := walkEntry s asid die (level + 1) va table
    if !pteV e || pteMalformed s (level + 1) e || pteLeaf e then none
    else leafTable s asid die va (level + 1) (dpaLocal (pteFrame e * 4096))

/-- Leaf `j` of the 64 KiB run of an address, where it is a leaf with CT = 1. -/
def runLeaf (s : State) (table va j : Nat) : Option Nat :=
  let e := memRead s.mem (table + 8 * (walkIndex va 0 / 16 * 16 + j)) 8
  if pteV e && pteCT e && pteLeaf e && !pteMalformed s 0 e then some e else none

/-- The translation of page `i` of a run through its leaf `j`, `x`. -/
def throughLeaf (i j x : Nat) : Walk :=
  .leaf (x - pteFrame x * 4096 + (pteFrame x + i + 2 ^ 44 - j) % 2 ^ 44 * 4096) 0

/-- The sixteen leaves of a run keep its rules. -/
def runKept (s : State) (table va : Nat) : Bool :=
  match runLeaf s table va 0 with
  | none => false
  | some e => pteFrame e % 16 == 0 && (List.range 16).all (fun j => match runLeaf s table va j with
    | some x => pteFrame x == pteFrame e + j && bits x 63 56 == bits e 63 56 && bits x 11 0 == bits e 11 0
    | none => false)

/-- R315: page `i` of a run that breaks the rules translates through its own leaf, whatever that is, or through any leaf of
the run. -/
def throughRun (s : State) (asid die va : Nat) (w : Walk) : Walk :=
  let inL0 : Bool := match w with
    | .leaf _ l | .absent l => l == 0
    | .bad => true
  match if inL0 then leafTable s asid die va 5 (asidRoot s asid) else none with
  | none => w
  | some table =>
    let i := va / 4096 % 16
    if runKept s table va then w
    else s.pick 15 w (w :: ((List.range 16).filter (fun j => j != i)).filterMap (fun j =>
      (runLeaf s table va j).map (throughLeaf i j)))

/-- R316: the virtual range of a TLB entry holds an address. -/
def TlbEntry.holds (t : TlbEntry) (va : Nat) : Bool :=
  t.vpn * 4096 / 2 ^ (12 + 9 * t.level) == va / 2 ^ (12 + 9 * t.level)

/-- The number under which the translations that a die's engines have used are kept (R317, log 75). -/
def engineTlb (die : Nat) : Nat := 1152 + die

/-- R316, R317: a translation as a core, or an engine of a die, sees it: the walk's, or one that a change has left in its
translation cache. -/
def translate (s : State) (core : Option Nat) (asid die va : Nat) : Walk :=
  let w := throughRun s asid die va (walkRoot s asid die va)
  let held := s.tlb.filter (fun t =>
    t.core == core.getD (engineTlb die) && t.holds va && (t.asid == asid || pteG t.leaf.toNat))
  s.pick 14 w (w :: (held.map (fun t => Walk.leaf t.leaf.toNat t.level)).filter (fun x => x != w))

/-- A list in which one more entry of a kind has room: where `n` stand there, one, chosen freely, is replaced. -/
def makeRoom {α : Type} [BEq α] (s : State) (k n : Nat) (mine : α → Bool) (xs : List α) : List α :=
  let ys := xs.filter mine
  if ys.length < n then xs
  else match ys[s.free k % ys.length]? with
    | some y => xs.erase y
    | none => xs

/-- R316, R317: a translation that was used stays in the core's TLB, of 4,096 entries, beside an older one of its page. -/
def noteTlb (s : State) (core asid va e level : Nat) : State :=
  let t : TlbEntry := ⟨core, asid, va / 4096, BitVec.ofNat 64 e, level⟩
  if s.tlb.any (fun x => x.core == core && x.asid == asid && x.leaf == t.leaf && x.level == level && x.holds va) then s
  else { s with tlb := t :: makeRoom s 17 4096 (fun x => x.core == core) s.tlb }

/-- The pointer entries that a walk passes, to be kept in the walk cache. -/
def walkPath (s : State) (asid die va : Nat) : Nat → Nat → List WalkEntry
  | 0, _ => []
  | level + 1, table =>
    let e := walkEntry s asid die level va table
    if !pteV e || pteLeaf e then []
    else ⟨die, asid, level, va / 2 ^ (12 + 9 * level), BitVec.ofNat 64 e⟩ ::
      walkPath s asid die va level (dpaLocal (pteFrame e * 4096))

/-- R316: the pointers that a walk read stay in the die's walk cache, of 2,048 entries. -/
def noteWalk (s : State) (asid die va : Nat) : State :=
  let ps := walkPath s asid die va 5 (asidRoot s asid)
  let fresh := ps.filter (fun p => !s.walks.contains p)
  if fresh.isEmpty then s
  else
    let kept := s.walks.filter (fun w =>
      !fresh.any (fun p => p.die == w.die && p.asid == w.asid && p.level == w.level && p.pre == w.pre))
    { s with walks := fresh.foldl (fun ws p => p :: makeRoom s 18 2048 (fun w => w.die == die) ws) kept }

/-! ### Resolved accesses -/

/-- Where a translated access goes: a package, a memory location or register address in it, the coherence region
that applies (0 HC, 1 SC, 2 CP), HOME, the leaf, and the GPN of a MIG page. `needDir` marks a MIG page whose home must
first be asked of another package's directory, or a line that its home slice must first read from another package. -/
structure Acc where
  pkg : Nat
  loc : Nat
  reg : Bool
  coh : Nat
  home : Nat
  leaf : Nat
  level : Nat
  gpn : Option Nat
  needDir : Bool
  deriving DecidableEq, Repr, Inhabited

/-! ### Where the lines of a migrated page are kept (R334) -/

/-- R30, R334: a line of a page of this package's directory keeps its home slice and its place in the coherence order
wherever its frame is. The model gives such a line a location of its own, by page number and offset. -/
def migBase : Nat := 2 ^ 50
def migLoc (gpn off : Nat) : Nat := migBase + gpn % 2 ^ 34 * 4096 + off
/-- The page number of such a location. -/
def migPage (loc : Nat) : Nat := (loc - migBase) / 4096 % 2 ^ 34

/-- The home of a page of this directory (R333). -/
def pageHome (s : State) (gpn : Nat) : Nat := bits (dirBits s gpn) 62 24
/-- The frame of a page of this directory lies in another package. -/
def farHome (s : State) (gpn : Nat) : Bool := bits (pageHome s gpn) 38 29 != s.pkg

/-- Where the bytes of a location are: those of a migrated page in its frame, or, where the frame is in another package,
at the home slices, under the location itself. -/
def backing (s : State) (loc : Nat) : Nat :=
  if loc < migBase then loc
  else if farHome s (migPage loc) then loc
  else homeLocal (pageHome s (migPage loc)) + loc % 4096

/-- The location by which a request names a line of a page of another package's directory. -/
def farLoc (gpn off : Nat) : Nat := 2 ^ 56 * (gpn % 2 ^ 34 + 1) + off

/-- What an agent was told of unusable directory entries has been reported, or is over: its next walk asks again (R332). -/
def forgetBad (s : State) (who : Nat) : State := { s with badGpns := s.badGpns.filter (fun p => p.1 != who) }

/-- R335: the owner cache of a die holds the home of a page of another package's directory. -/
def ownerOf (s : State) (die gpn : Nat) : Option Owner := s.owners.find? (fun o => o.die == die && o.gpn == gpn)

/-- R333: the DPA of the frame that a home names. -/
def homeDpa (h : Nat) : Nat := bits h 38 29 * 2 ^ 46 + homeLocal h

/-- R340: where a request that an owner-cache entry routes to a frame here with a live stub ends: at the new home. -/
def stubHome (s : State) (gpn home : Nat) : Nat :=
  match s.stubs.find? (fun x => x.gpn == gpn && x.old == home) with
  | some x => x.home
  | none => home

/-- The access that a leaf gives a virtual address. CORE and SLICE pages lie above 2^46 and 2^47. A group reaches a page
of another package's directory at its home slices there; an engine goes to the frame (R334). -/
def resolve (s : State) (engine : Bool) (die va e level : Nat) : Acc :=
  let size := 2 ^ (12 + 9 * level)
  let h := pteHome e
  let coh := if h == 0 then pteCoh e else 0
  if pteMIG e then
    let gpn := pteFrame e
    if gpnPkg gpn == s.pkg then
      let loc := migLoc gpn (va % 4096)
      ⟨s.pkg, loc, false, coh, h, e, level, some gpn, farHome s gpn && !s.migLines.contains (loc / 128)⟩
    else match ownerOf s die gpn with
      | some o =>
        if engine then
          let home := stubHome s gpn o.home
          ⟨bits home 38 29, homeLocal home + va % 4096, false, coh, h, e, level, some gpn, false⟩
        else ⟨gpnPkg gpn, farLoc gpn (va % 4096), false, coh, h, e, level, some gpn, false⟩
      | none => ⟨gpnPkg gpn, farLoc gpn (va % 4096), false, coh, h, e, level, some gpn, true⟩
  else if h == 1 || h == 2 then
    ⟨s.pkg, 2 ^ (45 + h) + bits e 45 12 * 4096 + va % 4096, false, 0, h, e, level, none, false⟩
  else
    let dpa := pteFrame e * 4096 + va % size
    ⟨dpaPkg dpa, dpaLocal dpa, dpaPkg dpa == s.pkg && regWindow (dpaLocal dpa), coh, h, e, level, none, false⟩

/-- R28: an access reaches memory, or the register region for a privileged context. -/
def accOk (s : State) (priv : Bool) (a : Acc) : Bool :=
  a.pkg != s.pkg || a.home == 1 || a.home == 2 || a.gpn.isSome ||
  (if a.reg then priv else isMemory s.variant a.loc)

/-- The permissions an access needs (R220, R86). -/
structure Need where
  r : Bool
  w : Bool
  xs : Bool
  xl : Bool
  deriving DecidableEq, Repr

def needR : Need := ⟨true, false, false, false⟩
def needW : Need := ⟨false, true, false, false⟩
def needRW : Need := ⟨true, true, false, false⟩
def needXS : Need := ⟨false, false, true, false⟩
def needXL : Need := ⟨false, false, false, true⟩

def Need.ok (n : Need) (e : Nat) : Bool :=
  (!n.r || pteR e) && (!n.w || pteW e) && (!n.xs || pteXS e) && (!n.xl || pteXL e)

/-- A condition of R220 met by an access: its order, its trap code, the level of an absent entry, and whether a
malformed entry caused it. -/
structure MemFault where
  cond : Nat
  code : Nat
  level : Nat
  bad : Bool
  deriving DecidableEq, Repr, Inhabited

/-- R220: test one access of a context; alignment is tested by `size`. -/
def testAccess (s : State) (core : Option Nat) (asid die : Nat) (priv : Bool) (va size : Nat) (need : Need) :
    Except MemFault Acc :=
  if 2 ^ 54 ≤ va then .error ⟨1, 0x07, 7, false⟩
  else if va % size ≠ 0 then .error ⟨2, 0x05, 7, false⟩
  else match translate s core asid die va with
    | .absent l => .error ⟨3, 0x06, l, false⟩
    | .bad => .error ⟨4, 0x07, 7, true⟩
    | .leaf e l =>
      let a := resolve s core.isNone die va e l
      if need.ok e && accOk s priv a then .ok a else .error ⟨4, 0x07, 7, false⟩

/-- R35: the access under the leaf that a line still behaves under, where a PGATTR has left it under the old one. -/
def mixedAcc (s : State) (engine : Bool) (asid die va : Nat) (a : Acc) : Acc :=
  match s.mixes.find? (fun m => m.asid == asid && m.lines.contains (va / 128)) with
  | some m => resolve s engine die va m.leaf a.level
  | none => a

/-- R220 for the group that executes. -/
def groupAccess (s : State) (va : Dword) (size : Nat) (need : Need) : Except MemFault Acc :=
  let g := s.grp
  let l := s.launchOf g
  match testAccess s (some g.core) l.asid g.die l.priv va.toNat size need with
  | .ok a => .ok (mixedAcc s false l.asid g.die va.toNat a)
  | .error f => .error f

/-! ### Performing writes -/

/-- The `n` bytes at a location of this package's memory. -/
def memAt (s : State) (a n : Nat) : Nat := memRead s.mem (backing s a) n
def unitOf (s : State) (u : Nat) : Dword := BitVec.ofNat 64 (memAt s (8 * u) 8)
/-- The unit that holds the bytes, and with them the uncorrectable mark, of a unit. -/
def backUnit (s : State) (u : Nat) : Nat := backing s (8 * u) / 8

def blend (old mask new : Dword) : Dword := (old &&& ~~~mask) ||| (new &&& mask)

def allOnes64 : Dword := BitVec.allOnes 64

/-- The bits of a unit that `size` bytes at offset `off` occupy. -/
def unitMask (off size : Nat) : Dword := BitVec.ofNat 64 ((2 ^ (8 * size) - 1) * 2 ^ (8 * off))

/-- R94, R293: the comparisons of SWAITC, WAITMEM and PRED on a word or a dword. -/
def compareWord (cmp : Nat) (dword : Bool) (x y : Dword) : Bool :=
  let n := if dword then 64 else 32
  let ux := x.toNat % 2 ^ n
  let uy := y.toNat % 2 ^ n
  match cmp with
  | 0 => ux == uy
  | 1 => ux != uy
  | 2 => decide (sext n ux < sext n uy)
  | 3 => decide (sext n uy ≤ sext n ux)
  | 4 => decide (ux < uy)
  | _ => decide (uy ≤ ux)

/-- The newest word or dword at a location. -/
def newest (s : State) (a : Nat) (dword : Bool) : Dword :=
  BitVec.ofNat 64 (memAt s a (if dword then 8 else 4))

/-- R294: whether a monitor's comparison holds now. -/
def Monitor.holds (m : Monitor) (s : State) : Bool :=
  compareWord m.cmp m.dword (newest s m.addr m.dword &&& m.mask) m.value

/-- R142, R294: mark a group's monitor wait as satisfied; a group away becomes a waiter for residency. -/
def wakeMonitor (g : Group) : Group :=
  match g.wait with
  | .monitor a _ => { g with wait := .monitor a true, eligible := g.eligible || (g.run == .away && g.state == 2) }
  | _ => g

/-- R294: free a monitor and wake what waits on it. -/
def fireMonitor (s : State) (m : Monitor) : State :=
  let s := { s with monitors := s.monitors.filter (fun x => x != m) }
  match m.who with
  | .group g => s.setGroup g (wakeMonitor (s.group g))
  | .queue q =>
    let r := mapGet default s.queues q
    { s with queues := mapSet default s.queues q { r with waiting := false } }
  | .remote _ => s

/-- R50: the name in the coherence order of an 8-byte unit of a team's local store: team, store, unit. -/
def localKey (team store u : Nat) : Nat := 2 ^ 60 + team * 2 ^ 18 + store * 2 ^ 17 + u
/-- Such a name belongs to a team. -/
def ofTeam (team u : Nat) : Bool := decide (2 ^ 60 ≤ u) && (u - 2 ^ 60) / 2 ^ 18 == team
/-- The coherence order of a team's local store is forgotten. -/
def dropLocal (s : State) (team : Nat) : State := { s with hist := s.hist.filter (fun h => !ofTeam team h.unit) }

/-- R294: a write to a line re-evaluates its monitors. -/
def recheckLine (s : State) (line : Nat) : State :=
  (s.monitors.filter (fun m => m.addr / 128 == line)).foldl
    (fun s m => if m.holds s then fireMonitor s m else s) s

/-- R451: an uncorrectable soft error on a store or a scrub is counted, and entry 64 is to be notified. -/
def countUe (s : State) (loc : Nat) : State :=
  let n := regGet s (mgmtBase + 0x5020)
  { regSet (regSet s (mgmtBase + 0x5020) (n + 1)) (mgmtBase + 0x5028) (BitVec.ofNat 64 (s.pkg * 2 ^ 46 + loc)) with
    ueNotes := s.ueNotes + 1 }

/-- R48: the event at which a write of event `n` is published: 0, not yet, for an engine's. -/
def Writer.published (w : Writer) (n : Nat) : Nat :=
  match w with
  | .engine _ _ _ => 0
  | _ => n

/-! ### Accesses on their way to the base dies (R367, R368) -/

/-- Bytes of a 64-byte block, as byte enables. -/
def byteEnables (loc n : Nat) : Nat := (2 ^ n - 1) * 2 ^ (loc % 64)

/-- An access of HBM is on its way. One that a cache may keep back is not noted twice. -/
def noteBase (s : State) (write : Bool) (loc mask : Nat) (sure : Bool) : State :=
  let o : BaseOp := ⟨write, loc / 64, mask, sure⟩
  if !hbmBacked loc || mask == 0 || (!sure && s.baseOps.contains o) then s else { s with baseOps := s.baseOps ++ [o] }

/-- The byte enables of the bytes of a unit that a mask of bits touches. -/
def unitEnables (u : Nat) (mask : Dword) : Nat :=
  maskOf ((List.range 8).filter (fun i => mask.toNat / 256 ^ i % 256 != 0)) * 2 ^ (8 * u % 64)

/-- A read of a line of this package: on a NOCACHE page it goes to backing memory (R30). -/
def noteRead (s : State) (home loc size : Nat) : State :=
  if home == 0 || home == 3 then noteBase s false (backing s loc) (byteEnables (backing s loc) size) (home == 3) else s

/-- A NOCACHE page's write, just performed, is kept back by no cache (R30). -/
def sureWrites (s : State) (loc : Nat) : State :=
  let b := backing s loc / 64
  { s with baseOps := s.baseOps.map (fun o => if o.write && o.block == b then { o with sure := true } else o) }

/-- R36, R221: one write to an aligned unit takes its place in the unit's coherence order; a write of the whole
unit clears its poison. An engine's write is not published yet (R48). -/
def writeUnit (s : State) (w : Writer) (u : Nat) (mask val : Dword) : State :=
  let old := unitOf s u
  let new := blend old mask val
  let n := s.ord + 1
  let p := backUnit s u
  let s := if mask != allOnes64 && s.poison.contains p then countUe s (8 * p) else s
  let s := noteBase s true (8 * p) (unitEnables p mask) false
  let s := { s with
    mem := memWrite s.mem (backing s (8 * u)) 8 new.toNat
    ord := n
    hist := ⟨u, old, n, w, w.published n, n⟩ :: s.hist
    poison := if mask = allOnes64 then s.poison.filter (fun x => x != p) else s.poison }
  recheckLine s (u / 16)

/-- R339: where a unit of a page that moves is written too, as a DPA, once its 64-byte copy unit is copied. -/
def dualTarget (s : State) (u : Nat) : Option Nat :=
  (s.migrations.find? (fun m => m.copied.contains (u % 512 / 8) &&
    (if 8 * u < migBase then dpaPkg m.src == s.pkg && dpaLocal m.src / 4096 == u / 512
     else m.gpn % 2 ^ 34 == migPage (8 * u)))).map (fun m => m.target + 8 * (u % 512))

/-- R334: the DPA in another package of a unit whose line a home slice here holds. -/
def farTarget (s : State) (u : Nat) : Option Nat :=
  if 8 * u < migBase || !farHome s (migPage (8 * u)) then none
  else
    let h := pageHome s (migPage (8 * u))
    some (bits h 38 29 * 2 ^ 46 + homeLocal h + 8 * u % 4096)

/-- The identity of a migration's requests to other packages. -/
def migGroup : Nat := 2 ^ 42

/-- The key under which a writer waits for the second write of the dual-write window. -/
def Writer.key : Writer → Dword
  | .lane g => BitVec.ofNat 64 (g + 1)
  | .engine c g _ => BitVec.ofNat 64 (2 ^ 40 + 8 * g + c)
  | _ => 0

def planeMapAddr : Nat := 0x3F0000500000
def plStatAddr : Nat := 0x3F0000500008

/-- h of R423. -/
def planeHash (dpa : Nat) : Nat :=
  (List.range 17).foldl (fun h j => h ^^^ bits (dpa / 2 ^ 7) (3 * j + 2) (3 * j)) 0

/-- R423, R426: the DPA of the line that a request names: for a line named by page, in the frame that the requester's die
holds as the page's home. -/
def lineDpa (s : State) (grp dpa : Nat) : Nat :=
  if dpa < 2 ^ 56 then dpa
  else
    let gpn := dpaPkg dpa * 2 ^ 34 + (dpa / 2 ^ 56 - 1)
    match ownerOf s (s.group grp).die gpn with
    | some o => homeDpa o.home + dpa % 4096
    | none => dpa

/-- The plane of a line of a requester. -/
def planeOf (s : State) (grp dpa : Nat) : Nat :=
  let h := planeHash (lineDpa s grp dpa)
  bits (regGet s planeMapAddr).toNat (4 * h + 2) (4 * h)

/-- R342: the page through whose home in an owner cache a request goes to a DPA. -/
def routedPage (s : State) (dpa : Nat) : Option Nat :=
  (s.owners.find? (fun o => homeDpa o.home / 4096 == dpa / 4096)).map Owner.gpn

/-- Issue a request; on a plane that drains it is held (R425). -/
def issueRemote (s : State) (pc va : Dword) (dpa : Nat) (op : RemOp) : State :=
  let st : RemState := if s.draining.contains (planeOf s s.cur.grp dpa) then .held else .sent
  { s with
    remote := s.remote ++ [⟨s.nextId, s.cur.grp, pc, va, dpa, op, st, routedPage s dpa⟩]
    nextId := s.nextId + 1 }

/-- Send the newest value of a unit to a frame of another package, with its mark (R344). -/
def sendUnit (s : State) (w : Writer) (d u : Nat) : State :=
  let out (s : State) (op : RemOp) : State :=
    { issueRemote { s with cur := { s.cur with grp := migGroup } } w.key 0 d op with cur := s.cur }
  let s1 := out s (.store 8 (unitOf s u))
  if s.poison.contains (backUnit s u) then out s1 .mark else s1

/-- The second write of the dual-write window. -/
def dualWrite (s : State) (w : Writer) (d u : Nat) (mask val : Dword) : State :=
  if dpaPkg d == s.pkg then writeUnit s w (dpaLocal d / 8) mask val else sendUnit s w d u

/-- A write that reaches memory: at its place, at the frame of a page whose lines are held here, and at the target of
a page that moves (R339). -/
def performBy (s : State) (w : Writer) (u : Nat) (mask val : Dword) : State :=
  let s1 := writeUnit s w u mask val
  let s2 := match farTarget s u with
    | some d => sendUnit s1 w d u
    | none => s1
  match dualTarget s u with
  | some d => dualWrite s2 w d u mask val
  | none => s2

/-- A write of an agent of the module that is no group and no engine. -/
def performUnit (s : State) (u : Nat) (mask val : Dword) : State := performBy s .inside u mask val

/-- Perform the low `size` bytes of a value at an aligned location. -/
def performBytes (s : State) (loc size : Nat) (v : Dword) : State :=
  performUnit s (loc / 8) (unitMask (loc % 8) size) (v <<< (8 * (loc % 8)))

/-- Perform the low `size` bytes of a value at an aligned location for a writer. -/
def performBytesBy (s : State) (w : Writer) (loc size : Nat) (v : Dword) : State :=
  performBy s w (loc / 8) (unitMask (loc % 8) size) (v <<< (8 * (loc % 8)))

/-- Perform a run of bytes, unit by unit. -/
def performList (s : State) (loc : Nat) : List Byte → State
  | [] => s
  | b :: bs => performList (performUnit s (loc / 8) (unitMask (loc % 8) 1)
      (BitVec.ofNat 64 (b.toNat * 2 ^ (8 * (loc % 8))))) (loc + 1) bs

/-- Perform a list of dwords at an 8-byte aligned location. -/
def performDwords (s : State) (loc : Nat) : List Dword → State
  | [] => s
  | d :: ds => performDwords (performUnit s (loc / 8) allOnes64 d) (loc + 8) ds

/-! ### Unperformed stores (R32, R37, R52) -/

def setSeen (s : State) (g u stamp : Nat) : State :=
  let x := s.group g
  if mapGet 0 x.seen u < stamp then s.setGroup g { x with seen := mapSet 0 x.seen u stamp } else s

/-- The writes made since event `n` carry out a store that was issued at event `born` (R152). -/
def bornAt (s : State) (n born : Nat) : State :=
  { s with hist := s.hist.map (fun h => if n < h.stamp then { h with born := born } else h) }

/-- Perform one store that waits, and forget it. The group that stored it, and those that have read it, have now seen
the unit as it leaves it (R41). What an L1 writes back of a core-private line is its own write (R32). -/
def performDirty1 (s : State) (d : Dirty) : State :=
  let s := bornAt (performBy s (if d.cp then .inside else .lane d.grp) d.unit d.mask d.val) s.ord d.stamp
  let s : State := { (if d.nc then sureWrites s (8 * d.unit) else s) with dirty := s.dirty.erase d }
  (d.grp :: d.readers).foldl (fun s g => setSeen s g d.unit s.ord) s

/-- Two stores that wait take effect in their order: of one group on a hardware-coherent page, else of one L1. -/
def Dirty.after (d e : Dirty) : Bool :=
  d.unit == e.unit && d.hc == e.hc && d.cp == e.cp && (if d.hc then d.grp == e.grp else d.core == e.core)

/-- The stores that a test picks, and those that must take effect before one of them (R36). -/
def closure (p : Dirty → Bool) : List Dirty → List Dirty
  | [] => []
  | d :: ds =>
    let rest := closure p ds
    if p d || rest.any (fun e => e.after d) then d :: rest else rest

/-- Perform the unperformed stores that a test selects, oldest first, each behind those that come before it. -/
def performDirty (s : State) (p : Dirty → Bool) : State := (closure p s.dirty).foldl performDirty1 s

/-- R48: engine writes that a fence has made visible to a group are published with its own stores. -/
def shutWrites (s : State) (g : Nat) : State :=
  let mine := (s.group g).vis.filter (fun v => v.1 == 0)
  let shuts (h : Hist) : Bool := h.shut == 0 && mine.contains (0, h.unit, h.stamp)
  if s.hist.any shuts then
    { s with
      ord := s.ord + 1
      hist := s.hist.map (fun h => if shuts h then { h with shut := s.ord + 1 } else h) }
  else s

/-- R37: pub of a group at a scope. .grp publishes nothing; CP lines are never written through (R32). -/
def pub (s : State) (g scope : Nat) : State :=
  if scope == 0 then s else shutWrites (performDirty s (fun d => d.grp == g && !d.cp)) g

/-- A group has read a store that waits, where a test says so (R41). -/
def Dirty.readBy (g : Nat) (p : Dirty → Bool) (d : Dirty) : Dirty :=
  if p d && d.grp != g && !d.readers.contains g then { d with readers := g :: d.readers } else d

/-- R37, R32: ref of a group at a scope. The core's SC bytes are written back; what the core holds of CP lines is what
the group's later loads start from. -/
def ref (s : State) (g scope : Nat) : State :=
  if scope == 0 then s
  else
    let c := (s.group g).core
    let s := performDirty s (fun d => d.core == c && !d.cp && !d.hc)
    let s : State := { s with
      ord := s.ord + 1
      dirty := s.dirty.map (Dirty.readBy g (fun d => d.core == c && d.cp)) }
    s.setGroup g { s.group g with refStamp := s.ord }

/-- R152: a PHASE.ref at a scope, which bounds what its group's code fetches return of writers within the scope. -/
def codeRef (s : State) (g scope : Nat) : State :=
  let x := s.group g
  s.setGroup g { x with codeRef := (List.range (scope + 1)).foldl (fun m k => mapSet 0 m k s.ord) x.codeRef }

/-- A request is on its way, or held back. -/
def RemState.open (t : RemState) : Bool := t == .held || t == .sent

/-- R37: whether the stores to other packages that a pub at this scope waits for are acknowledged, and the second writes
of the dual-write window are made (R339). -/
def pubReady (s : State) (g scope : Nat) : Bool :=
  scope == 0 || !s.remote.any (fun r => r.state.open &&
    ((r.grp == migGroup && r.pc == (Writer.lane g).key) ||
     (decide (4 ≤ scope) && r.grp == g && (match r.op with
      | .store _ _ | .lineStore _ | .mark => true
      | _ => false))))

/-! ### The values that a load may return (R40, R41, R44) -/

def overlay (v : Dword) (ds : List Dirty) : Dword := ds.foldl (fun v d => blend v d.mask d.val) v

/-- The writes of a unit. -/
def unitHist (s : State) (u : Nat) : List Hist := s.hist.filter (fun h => h.unit == u)

/-- The stamp of the newest write that a test picks, at least `floor`. -/
def newestOf (hs : List Hist) (p : Hist → Bool) (floor : Nat) : Nat :=
  hs.foldl (fun m h => if p h && decide (m < h.stamp) then h.stamp else m) floor

/-- The values, the newest first, that stand in a coherence order above a stamp, each with the stamp at which it became
the value. -/
def valuesOf (top : Dword) (hs : List Hist) (base : Nat) : List (Dword × Nat) :=
  (top, newestOf hs (fun _ => true) 0) ::
    (hs.filter (fun h => decide (base < h.stamp))).map (fun h => (h.old, newestOf hs (fun x => decide (x.stamp < h.stamp)) 0))

/-- The values of a unit of memory above a stamp. -/
def unitValues (s : State) (u base : Nat) : List (Dword × Nat) := valuesOf (unitOf s u) (unitHist s u) base

/-- R40: the stamp that an ordinary load of a unit by a group may not go behind: what it has seen, and the newest write
published when its last ref completed. -/
def loadBase (s : State) (g u : Nat) : Nat :=
  let x := s.group g
  newestOf (unitHist s u) (fun h => h.shut != 0 && decide (h.shut ≤ x.refStamp)) (mapGet 0 x.seen u)

/-- The prefixes of a list, longest first. -/
def prefixesDesc {α : Type} : List α → List (List α)
  | [] => [[]]
  | x :: xs => (prefixesDesc xs).map (fun p => x :: p) ++ [[]]

/-- A value that a load may return, the stamp that it reaches, and the unperformed stores that it shows. -/
structure Choice where
  val : Dword
  stamp : Nat
  shows : List Dirty
  deriving DecidableEq, Repr, Inhabited

/-- The unperformed stores that a group's loads of some bits of a unit may show: its own that wait for the line, or
those of its core's L1. -/
def waitingStores (s : State) (g u coh : Nat) (mask : Dword) : List Dirty :=
  let c := (s.group g).core
  s.dirty.filter (fun d => d.unit == u && d.mask &&& mask != 0 &&
    (if coh == 0 then d.hc && d.grp == g else !d.hc && d.core == c))

/-- The event at which a core's L1 took the line of a unit of a core-private page. -/
def cpFilled (s : State) (core u : Nat) : Option Nat :=
  (s.cpLines.find? (fun x => x.core == core && x.line == u / 16)).map CpLine.stamp

/-- R32, R33: the stamp that a load of a core-private page may not go behind: the first load of a line takes what the last
write-back left in backing memory; later ones find that copy, or a newer one where the L1 has lost it meanwhile. -/
def cpBase (s : State) (g u : Nat) : Nat :=
  let hs := unitHist s u
  let seen := mapGet 0 (s.group g).seen u
  match cpFilled s (s.group g).core u with
  | some n => newestOf hs (fun h => decide (h.stamp ≤ n)) seen
  | none => newestOf hs (fun _ => true) seen

/-- The values of memory that an ordinary load may start from, each with its stamp. -/
def baseValues (s : State) (g u coh : Nat) : List (Dword × Nat) :=
  unitValues s u (if coh == 2 then cpBase s g u else loadBase s g u)

/-- What a load shows that finds unperformed stores in the L1: their bits over a value of memory. Stores that cover the
whole load show no memory (R32). -/
def shownOver (mem : List (Dword × Nat)) (mask : Dword) (p : List Dirty) : List Choice :=
  if p.any (fun d => d.mask &&& mask == mask) then mem.head?.toList.map (fun v => ⟨overlay v.1 p, 0, p⟩)
  else mem.map (fun v => ⟨overlay v.1 p, v.2, p⟩)

/-- R40: what an ordinary load of some bits of a unit may return. Once a group has stored to those bits, or has read an
unperformed store, it returns that store or a newer value. -/
def loadChoices (s : State) (g u coh : Nat) (mask : Dword) : List Choice :=
  let ds := waitingStores s g u coh mask
  let must (d : Dirty) : Bool := d.grp == g || d.readers.contains g
  let shown := (prefixesDesc ds).filter (fun p => !p.isEmpty && ds.all (fun d => !must d || p.contains d))
  (if coh == 0 then shown.map (fun p => ⟨overlay (unitOf s u) p, 0, p⟩)
   else shown.flatMap (shownOver (baseValues s g u coh) mask)) ++
  (if ds.any must then [] else (baseValues s g u coh).map (fun v => ⟨v.1, v.2, []⟩))

/-- The values alone. -/
def loadValues (s : State) (g u coh : Nat) (mask : Dword) : List Dword := (loadChoices s g u coh mask).map Choice.val

/-- A choice shows memory for some of the bits of a load. -/
def Choice.ofMemory (c : Choice) (mask : Dword) : Bool := !c.shows.any (fun d => d.mask &&& mask == mask)

/-- A load returns a choice. Where stores that wait for their line give only a part of it, they are performed, so that
what it returns is a value of the unit's coherence order (R36); what an L1 holds stays there (R32). -/
def takeChoice (s : State) (g u : Nat) (mask : Dword) (c : Choice) : Dword × State :=
  match c.shows.reverse with
  | [] => (c.val, setSeen s g u c.stamp)
  | d :: _ =>
    if d.hc && c.ofMemory mask then
      let s1 := performDirty s (fun x => c.shows.any (fun y => y.stamp == x.stamp))
      (unitOf s1 u, setSeen s1 g u s1.ord)
    else
      let s1 := setSeen s g u c.stamp
      (c.val, { s1 with dirty := s1.dirty.map (Dirty.readBy g (fun x => c.shows.any (fun y => y.stamp == x.stamp))) })

/-- The choice of an ordinary load of `size` bytes at an access of this package. -/
def ordinaryChoice (s : State) (g : Nat) (a : Acc) (size k : Nat) : Choice :=
  s.pick k ⟨unitOf s (a.loc / 8), s.ord, []⟩ (loadChoices s g (a.loc / 8) a.coh (unitMask (a.loc % 8) size))

/-- OrdinaryLoad of R40 of `size` bytes at an access of this package. -/
def loadUnit (s : State) (g : Nat) (a : Acc) (size k : Nat) : Dword × State :=
  let r := takeChoice s g (a.loc / 8) (unitMask (a.loc % 8) size) (ordinaryChoice s g a size k)
  (r.1, noteRead r.2 a.home a.loc size)

/-- CoherentLoad of R40: the newest value, or the group's own latest store. An engine's write that no fence has made
visible is returned or not (R44). The place where a core-private line is coherent is its core's L1 (R30). -/
def coherentChoices (s : State) (g : Nat) (a : Acc) (mask : Dword) : List Choice :=
  let u := a.loc / 8
  let ds := (waitingStores s g u a.coh mask).filter (fun d => a.coh == 2 || d.grp == g)
  let newest := newestOf (unitHist s u) (fun h => h.shut != 0) (mapGet 0 (s.group g).seen u)
  let mem := unitValues s u (if a.coh == 2 then cpBase s g u else newest)
  if ds.isEmpty then mem.map (fun v => ⟨v.1, v.2, []⟩)
  else if a.coh == 0 then [⟨overlay (unitOf s u) ds, 0, ds⟩]
  else shownOver mem mask ds

/-- The choice of a coherent load. -/
def coherentChoice (s : State) (g : Nat) (a : Acc) (size k : Nat) : Choice :=
  s.pick k ⟨unitOf s (a.loc / 8), s.ord, []⟩ (coherentChoices s g a (unitMask (a.loc % 8) size))

def coherentUnit (s : State) (g : Nat) (a : Acc) (size k : Nat) : Dword × State :=
  let r := takeChoice s g (a.loc / 8) (unitMask (a.loc % 8) size) (coherentChoice s g a size k)
  (r.1, noteRead r.2 a.home a.loc size)

/-- The dirty lines, the oldest first, that an L1 holds in the set of a unit's line (R17). -/
def l1Lines (s : State) (core u : Nat) : List Nat :=
  let set_ (u : Nat) : Nat := Config.l1Set (u / 16) % 256
  ((s.dirty.filter (fun d => d.core == core && !d.hc && set_ d.unit == set_ u)).map (fun d => d.unit / 16)).dedup

/-- R17: an L1 has no room for one more dirty line of a set of 16 ways. -/
def l1Full (s : State) (core u : Nat) : Bool :=
  !(l1Lines s core u).contains (u / 16) && decide (16 ≤ (l1Lines s core u).length)

/-- Where it has none, it evicts the line that it has held longest. -/
def l1Room (s : State) (core u : Nat) : State :=
  if l1Full s core u then
    performDirty s (fun d => d.core == core && !d.hc && d.unit / 16 == (l1Lines s core u).headD 0)
  else s

/-- An ordinary store to a unit: it waits for the line on HC, and in the L1 on SC and CP (R32). -/
def storeUnit (s : State) (g : Nat) (a : Acc) (mask val : Dword) : State :=
  let s := if a.coh == 0 then s else l1Room s (s.group g).core (a.loc / 8)
  let n := s.ord + 1
  { s with
    ord := n
    dirty := s.dirty ++ [⟨(s.group g).core, a.loc / 8, mask, val, g, n, a.coh == 2, a.coh == 0, [], a.home == 3⟩] }

/-- R42: what an atomic does before it reads: the group's own stores to the unit take effect; on SC the L1 writes back its
dirty bytes of the line. -/
def atomicPrepare (s : State) (g : Nat) (a : Acc) : State :=
  let c := (s.group g).core
  if a.coh == 2 then s
  else performDirty s (fun d => !d.cp && (if a.coh == 1 then d.core == c && !d.hc && d.unit / 16 == a.loc / 128
    else d.grp == g && d.hc && d.unit == a.loc / 8))

/-- The newest value of a unit at the place where atomics on it are performed: on a core-private page the core's L1, whose
copy of the line may be older than memory (R33, R42). -/
def atomicRead (s : State) (g : Nat) (a : Acc) : Dword :=
  let u := a.loc / 8
  if a.coh == 2 then
    overlay (s.pick (2000 + u) (unitOf s u, 0) (unitValues s u (cpBase s g u))).1 (waitingStores s g u 2 allOnes64)
  else unitOf s u

/-- The write of an atomic, performed at once (R42). No later access of the group is ahead of it (log 64). -/
def atomicWrite (s : State) (g : Nat) (a : Acc) (mask val : Dword) : State :=
  if a.coh == 2 then storeUnit s g a mask val
  else
    let s := performBy s (.lane g) (a.loc / 8) mask val
    let s := if a.home == 3 then sureWrites s a.loc else s
    setSeen s g (a.loc / 8) s.ord

/-- Bits of a unit at a byte offset, `size` bytes of them. -/
def unitPart (v : Dword) (off size : Nat) : Nat := v.toNat / 2 ^ (8 * off) % 2 ^ (8 * size)

def poisoned (s : State) (loc : Nat) : Bool := s.poison.contains (backing s loc / 8)

/-- R221: a load whose choice takes some bits from memory meets an uncorrectable unit there. -/
def poisonedBy (s : State) (a : Acc) (size : Nat) (c : Choice) : Bool :=
  poisoned s a.loc && c.ofMemory (unitMask (a.loc % 8) size)

/-- R221: an atomic, or a load of a whole unit, meets an uncorrectable unit that no whole store in its L1 replaces. -/
def poisonedFor (s : State) (g : Nat) (a : Acc) : Bool :=
  poisoned s a.loc && !(waitingStores s g (a.loc / 8) a.coh allOnes64).any (fun d => d.mask == allOnes64)

/-- An ordinary load, or none where what it takes from memory is uncorrectable (R221). -/
def loadClean (s : State) (g : Nat) (a : Acc) (size k : Nat) : Option (Dword × State) :=
  if poisonedBy s a size (ordinaryChoice s g a size k) then none else some (loadUnit s g a size k)

/-- The same of a coherent load. -/
def coherentClean (s : State) (g : Nat) (a : Acc) (size k : Nat) : Option (Dword × State) :=
  if poisonedBy s a size (coherentChoice s g a size k) then none else some (coherentUnit s g a size k)

/-! ### Migrated pages: what an access leaves behind (R335, R340) -/

/-- The owner cache with an entry put first: 1,024 sets of 8, the least recently used of a full set replaced (R335). -/
def putOwner (os : List Owner) (o : Owner) : List Owner :=
  let rest := os.filter (fun x => !(x.die == o.die && x.gpn == o.gpn))
  let mine := rest.filter (fun x => x.die == o.die && Config.ownerSet x.gpn % 1024 == Config.ownerSet o.gpn % 1024)
  o :: (match mine[7]? with
    | some y => rest.erase y
    | none => rest)

/-- R335: the directory adds this package to SHARERS at the entry's PoC and the die caches HOME and EPOCH. An entry that
is there is used. -/
def dirQuery (s : State) (die gpn : Nat) : State :=
  match ownerOf s die gpn with
  | some o => { s with owners := putOwner s.owners o }
  | none =>
    if gpnPkg gpn != s.pkg then s
    else
      let b := dirBits s gpn
      let a := dirEntry s gpn + 128 + s.pkg / 8
      let v := (memGet s.mem a).toNat
      performBytes { s with owners := putOwner s.owners ⟨die, gpn, bits b 62 24, bits b 191 184⟩ } a 1
        (BitVec.ofNat 64 (maskSet v (s.pkg % 8) true))

/-- R340: a request that a die still sends to an older home is relayed, and its answer carries REDIRECT. -/
def noteMig (s : State) (die : Nat) (gpn : Option Nat) : State :=
  match gpn with
  | none => s
  | some n =>
    let s := dirQuery s die n
    match ownerOf s die n with
    | some o =>
      let b := dirBits s n
      let msg : RedirectMsg := match s.stubs.find? (fun x => x.gpn == n && x.old == o.home) with
        | some x => if gpnPkg n == s.pkg then ⟨die, n, bits b 62 24, bits b 191 184⟩ else ⟨die, n, x.home, x.epoch⟩
        | none => if gpnPkg n == s.pkg then ⟨die, n, bits b 62 24, bits b 191 184⟩ else ⟨die, n, o.home, o.epoch⟩
      if o.home == msg.home || s.redirects.contains msg then s
      else { s with redirects := s.redirects ++ [msg] }
    | none => s

/-- The die whose owner cache resolves a lane access to a MIG page: the line's home die (R334). -/
def migDie (gpn : Nat) : Nat := gpn % 2 ^ 34 % 24

/-- R32: an L1 takes a line of a core-private page that it does not hold. -/
def fillCp (s : State) (core : Nat) (a : Acc) : State :=
  if a.coh != 2 || a.pkg != s.pkg || (cpFilled s core (a.loc / 8)).isSome then s
  else { s with cpLines := ⟨core, a.loc / 128, s.ord⟩ :: s.cpLines }

/-- The key of the line of an access. -/
def Acc.lineKey (a : Acc) : Nat := (a.pkg * 2 ^ 100 + a.loc) / 128

/-- R34: the moving group has accessed a line. -/
def touchLine (s : State) (a : Acc) : State :=
  if s.grp.touched.contains a.lineKey then s
  else s.setGrp { s.grp with touched := a.lineKey :: s.grp.touched }

/-- What a group's access leaves in the translation caches, owner caches and core-private lines. -/
def noteAccess (s : State) (va : Dword) (a : Acc) : State :=
  let g := s.grp
  let asid := (s.launchOf g).asid
  let s := touchLine (fillCp s g.core a) a
  let s := noteTlb s g.core asid va.toNat a.leaf a.level
  let s := noteWalk s asid g.die va.toNat
  match a.gpn with
  | some n => noteMig s (if gpnPkg n == s.pkg then migDie n else g.die) (some n)
  | none => s

/-! ### Engines' reads (R44, R45, R46) -/

/-- Who reads for an engine: its class; when the command was accepted; its issuers, each with the event of its last fence
before that which names LANE and the class; the engine writes that fences made visible to it. -/
structure Reader where
  cls : Nat
  stamp : Nat
  own : List (Nat × Nat)
  vis : List (Nat × Nat)
  deriving DecidableEq, Repr, Inhabited

/-- R44-R46: the reader returns this write or a newer one: the issuer's own behind a fence, another agent's published
before the command's acceptance, an engine's that a fence made visible; the matrix engine sees its own writes (R272). A
store of another group to the team's local store, which nothing publishes, is behind an issuer's fence too (R50). -/
def Reader.bound (r : Reader) (h : Hist) : Bool :=
  match h.who with
  | .lane g => match r.own.find? (fun p => p.1 == g) with
    | some p => decide (h.stamp ≤ p.2)
    | none => if 2 ^ 60 ≤ h.unit then r.own.any (fun p => decide (h.stamp ≤ p.2)) else decide (h.stamp ≤ r.stamp)
  | .other | .inside => decide (h.stamp ≤ r.stamp)
  | .engine c g _ => (c == 1 && r.cls == 1) || r.vis.contains (h.unit, h.stamp) ||
    (!r.own.any (fun p => p.1 == g) && h.shut != 0 && decide (h.shut ≤ r.stamp))

/-- A unit as an engine reads it. -/
def engineUnit (s : State) (r : Reader) (u k : Nat) : Dword :=
  (s.pick k (unitOf s u, 0) (unitValues s u (newestOf (unitHist s u) r.bound 0))).1

/-- `n` bytes that an engine reads at a location. -/
def engineBytes (s : State) (r : Reader) (loc : Nat) : Nat → List Byte
  | 0 => []
  | n + 1 =>
    BitVec.ofNat 8 (unitPart (engineUnit s r (loc / 8) (1000 + loc / 8)) (loc % 8) 1) ::
      engineBytes s r (loc + 1) n

end Sys2Proof.Machine
end

