-- ==== Sys2Proof/Machine/Registers.lean ====
section
/-! DEFINITION. The device register region (R27): what a read returns, which bits a write changes (R8), which step a
write is, and the queue control blocks behind their window (R397, R398). -/

namespace Sys2Proof.Machine

/-! ### Bring-up registers (R445) -/

def stageAddr : Nat := mgmtBase
def ctlAddr : Nat := mgmtBase + 8
/-- STAGE. -/
def stage (s : State) : Nat := (regGet s stageAddr).toNat % 256
/-- R446: the boot has failed: every unit but the registers of R445 is stopped. -/
def stopped (s : State) : Bool := stage s == 0xFF
/-- What a unit does while it is not stopped. -/
def liveOr (s t : State) : State := if stopped s then s else t
/-- Set STAGE and BERR. -/
def setStage (s : State) (st berr : Nat) : State := regSet s stageAddr (BitVec.ofNat 64 (berr * 256 + st))

def maskBits (hi lo : Nat) : Dword := BitVec.ofNat 64 (2 ^ (hi + 1) - 2 ^ lo)

/-! ### Queue control blocks (R397, R398) -/

/-- The local address of a control block's place in the table. -/
def qcbHome (s : State) (q : Nat) : Nat := dpaLocal (bits (regGet s qtBaseAddr).toNat 63 26 * 2 ^ 26) + 64 * q
/-- The current image: the entry cache's, or the table's. -/
def qcbImage (s : State) (q : Nat) : Nat :=
  match s.qcache.find? (fun p => p.1 == q) with
  | some p => p.2
  | none => memRead s.mem (qcbHome s q) 64
/-- R397: the entry cache writes a block back to the table. What software stored there in the meantime is lost. -/
def writebackQcb (s : State) (q : Nat) : State :=
  match s.qcache.find? (fun p => p.1 == q) with
  | some p =>
    let s1 := performDwords s (qcbHome s q) ((List.range 8).map (fun k => BitVec.ofNat 64 (p.2 / 2 ^ (64 * k))))
    { s1 with qcache := s1.qcache.filter (fun x => x.1 != q) }
  | none => s
/-- R397: the blocks cached in the set of a block. -/
def qcbWays (s : State) (q : Nat) : List Nat :=
  (s.qcache.map Prod.fst).filter (fun p => Config.qcbSet p % 512 == Config.qcbSet q % 512)
/-- A place for a block in the entry cache: where its set holds 8 others, one of them, which is left open, goes back. -/
def qcbRoom (s : State) (q : Nat) : State :=
  let ways := qcbWays s q
  if ways.contains q || decide (ways.length < 8) then s else writebackQcb s (s.pick (900 + q) (ways.headD 0) ways)
/-- Change an image in the entry cache. -/
def qcbPut (s : State) (q img : Nat) : State :=
  let s := qcbRoom s q
  { s with qcache := (q, img % 2 ^ 512) :: s.qcache.filter (fun p => p.1 != q) }
/-- Replace bits hi..lo. -/
def putBits (x hi lo v : Nat) : Nat :=
  x - bits x hi lo * 2 ^ lo + v % 2 ^ (hi + 1 - lo) * 2 ^ lo
def qcbSetField (s : State) (q hi lo v : Nat) : State := qcbPut s q (putBits (qcbImage s q) hi lo v)

def qcbBase (i : Nat) : Nat := bits i 511 448
def qcbCtx (i : Nat) : Nat := bits i 447 384
def qcbTail (i : Nat) : Nat := bits i 383 352
def qcbHead (i : Nat) : Nat := bits i 351 320
def qcbTdom (i : Nat) : Nat := bits i 247 240
def qcbDie (i : Nat) : Nat := bits i 239 235
def qcbLabel (i : Nat) : Nat := bits i 231 220
def qcbSize (i : Nat) : Nat := bits i 219 216
def qcbPrio (i : Nat) : Nat := bits i 215 214
def qcbKind (i : Nat) : Nat := bits i 213 212
def qcbState (i : Nat) : Nat := bits i 211 210
/-- N of R398. -/
def qcbN (i : Nat) : Nat := 2 ^ qcbSize i

/-- A DPA of HBM or the host window of this package. -/
def ringPlace (s : State) (d n : Nat) : Bool :=
  decide (d < 2 ^ 56) && dpaPkg d == s.pkg &&
  ((hbmBacked (dpaLocal d) && hbmBacked (dpaLocal d + n - 1)) || (hostWindow (dpaLocal d) && hostWindow (dpaLocal d + n - 1)))

/-- R398: the KIND that an id must have. -/
def qcbKindOk (q : Nat) (i : Nat) : Bool :=
  if q < 0x400 then qcbKind i == 1
  else if q < 0x10000 then false
  else if q < 0x10040 then qcbKind i == 3
  else qcbKind i == 2

/-- R398: no field of the block is invalid. -/
def qcbOk (s : State) (q : Nat) : Bool :=
  let i := qcbImage s q
  qcbKindOk q i && decide (4 ≤ qcbSize i) && decide (qcbState i ≤ 2) && bits i 234 232 == 0 && bits i 209 0 == 0 &&
  qcbBase i % 4096 == 0 && ringPlace s (qcbBase i) (64 * qcbN i) && qcbCtx i % 128 == 0 &&
  dpaPkg (qcbCtx i) == s.pkg && isMemory s.variant (dpaLocal (qcbCtx i)) && decide (qcbDie i < 24)

/-- Where a window address lies: queue and byte. -/
def inQcbWindow (a : Nat) : Bool := decide (qcbWindow ≤ a) && decide (a < qcbWindow + 2 ^ 26)
def qcbDword (s : State) (a : Nat) : Dword :=
  BitVec.ofNat 64 (qcbImage s ((a - qcbWindow) / 64) / 2 ^ (64 * ((a - qcbWindow) % 64 / 8)))

/-! ### Reads -/

/-- The offset of a bring-up register. -/
def mgmtOff (a : Nat) : Nat := a - mgmtBase

/-- Whether the specification assigns a register at an aligned address of the region. -/
def regAssigned (a : Nat) : Bool :=
  let inR (b n : Nat) : Bool := decide (b ≤ a) && decide (a < b + n)
  let o := mgmtOff a
  inR regBase 0x80000 || inR faultBase (32 * 64) || inR dirBaseAddr 16 ||
  (inR 0x3F0000200000 (0x100 * 24) && decide (a % 0x100 < 0x38)) || inR 0x3F0000300000 (0x1000 * 24) ||
  inR qtBaseAddr 8 || inR 0x3F0000500000 0x20 || inR 0x3F0000501000 (32 * 64) || inR 0x3F0000510000 (16 * 256) ||
  inR coreRsvAddr (8 * 1152) || inR sliceRsvAddr (8 * 576) || inQcbWindow a ||
  (inR mgmtBase 0x6020 && (decide (o < 0x10) || (decide (0x100 ≤ o) && decide (o < 0x130)) ||
    (decide (0x1000 ≤ o) && decide (o < 0x10C0)) || (decide (0x2000 ≤ o) && decide (o < 0x2040)) ||
    (decide (0x3000 ≤ o) && decide (o < 0x3030)) || (decide (0x4000 ≤ o) && decide (o < 0x4410)) ||
    (decide (0x5000 ≤ o) && decide (o < 0x5030)) || decide (0x6000 ≤ o)))

/-- A read of the aligned dword at an address (R8, R443). What an unassigned address or a window without a stated address
reads as is left open: a free value (log 21). -/
def regValue (s : State) (a : Nat) : Dword :=
  let a := a / 8 * 8
  if inQcbWindow a then qcbDword s a
  else if !regAssigned a then Config.freeWord s.tick 60
  else if s.variant.b && decide (0x3F0000200000 ≤ a) && decide (a < 0x3F0000300000) &&
      (decide (a % 0x100 < 0x20) || a % 0x100 == 0x30) then 0
  else regGet s a

/-! ### Writes -/

/-- The bits of a register that software may write (R8). -/
def regMask (s : State) (a : Nat) : Dword :=
  let o := mgmtOff a
  let inR (b n : Nat) : Bool := decide (b ≤ a) && decide (a < b + n)
  if inR faultBase (32 * 64) then
    (if a % 32 == 0 then maskBits 10 0 else if a % 32 == 24 then allOnes64 else 0)
  else if a == dirBaseAddr then maskBits 55 8
  else if a == dirLenAddr then maskBits 33 0
  else if inR 0x3F0000200000 (0x100 * 24) then
    (if a % 0x100 == 0x30 && !s.variant.b then maskBits 31 0 else 0)
  else if a == qtBaseAddr then maskBits 63 26
  else if a == 0x3F0000500010 then maskBits 31 0
  else if inR 0x3F0000501000 (32 * 64) then
    (match a % 32 / 8 with
     | 0 => 0
     | 1 => maskBits 63 63 ||| maskBits 61 15
     | 3 => allOnes64
     | _ => 0)
  else if inR 0x3F0000510000 (16 * 256) then
    (if a % 16 == 0 then maskBits 63 12 else maskBits 63 43 ||| maskBits 15 0)
  else if inR mgmtBase 0x6020 then
    (if decide (0x100 ≤ o) && decide (o < 0x130) then allOnes64
     else if decide (0x3000 ≤ o) && decide (o < 0x3028) then allOnes64
     else if decide (0x4000 ≤ o) && decide (o < 0x4410) then
       (if o % 16 == 0 then allOnes64 else maskBits 63 63 ||| maskBits 31 0)
     else if o == 0x6000 then maskBits 4 0
     else if o == 0x6008 then allOnes64
     else 0)
  else 0

/-- R8, R45: the steps that a store of `size` bytes at a register address is, in order. -/
def regEvents (s : State) (a size : Nat) (v : Dword) : List Instr :=
  let w := a / 8 * 8
  let m := unitMask (a % 8) size
  let bare := blend (regValue s w) m (v <<< (8 * (a % 8)))
  -- BROKEN is cleared by writing 1 (R434): a store that leaves its byte out writes 0 there
  let full := if decide (0x3F0000501000 ≤ w) && decide (w < 0x3F0000501000 + 32 * 64) && w % 32 == 8 && !bit m.toNat 62
    then bare &&& ~~~ BitVec.ofNat 64 (2 ^ 62) else bare
  let o := mgmtOff w
  if inQcbWindow w then
    let q := (w - qcbWindow) / 64
    if w % 64 == 40 then
      (if a % 8 < 4 then [.registerWrite w full] else []) ++
      (if 4 < a % 8 + size then [.tailWrite q (BitVec.ofNat 32 (full.toNat / 2 ^ 32))] else [])
    else [.registerWrite w full]
  else if w == ctlAddr then
    if bit full.toNat 1 then [.rst]
    else (if bit full.toNat 0 then [.go] else []) ++ (if bit full.toNat 2 then [.fego] else [])
  else if o == 0x3020 && decide (mgmtBase ≤ w) then [.raddr full]
  else if o == 0x5000 && decide (mgmtBase ≤ w) then [.plimit full]
  else if o == 0x6010 && decide (mgmtBase ≤ w) then [.hostResume full]
  else if o == 0x6018 && decide (mgmtBase ≤ w) then [.killctx full]
  else if decide (coreRsvAddr ≤ w) && decide (w < coreRsvAddr + 8 * 1152) then
    [.corersv ((w - coreRsvAddr) / 8) full]
  else if decide (sliceRsvAddr ≤ w) && decide (w < sliceRsvAddr + 8 * 576) then
    [.slicersv ((w - sliceRsvAddr) / 8) full]
  else if decide (faultBase ≤ w) && decide (w < faultBase + 32 * 64) && w % 32 == 0 then
    [.faultQueueHead ((w - faultBase) / 32) full]
  else [.registerWrite w full]

/-- A store to the register region: its steps come next (log 23). -/
def regStore (s : State) (a size : Nat) (v : Dword) : State :=
  { s with agenda := (regEvents s a size v).map Agent.event ++ s.agenda }

end Sys2Proof.Machine
end

