-- ==== Sys2Proof/Machine/Issue.lean ====
section
/-! DEFINITION. Remote accesses as the issuer sees them (R221, R226, R423-R429), and the stores of a group wherever
they go. -/

namespace Sys2Proof.Machine

/-! ### Requests -/

/-- A key for a byte of memory wherever it is: package and location. -/
def Acc.key (a : Acc) : Nat := a.pkg * 2 ^ 100 + a.loc
/-- The DPA of a remote access. -/
def Acc.dpa (a : Acc) : Nat := a.pkg * 2 ^ 46 + a.loc
/-- An access of this package's memory whose home is known. -/
def Acc.isLocal (a : Acc) (s : State) : Bool := a.pkg == s.pkg && !a.needDir

def RemOp.isStore : RemOp → Bool
  | .store _ _ | .lineStore _ | .mark => true
  | _ => false

/-- The group's outstanding request of one instruction to one address. -/
def remOf (s : State) (pc : Dword) (dpa : Nat) : Option RemReq :=
  s.remote.find? (fun r => r.grp == s.cur.grp && r.pc == pc && r.addr == dpa && !r.op.isStore)

/-- Forget an instruction's requests. -/
def dropRemote (s : State) (pc : Dword) : State :=
  { s with remote := s.remote.filter (fun r => !(r.grp == s.cur.grp && r.pc == pc && !r.op.isStore)) }

/-- What a remote step of an instruction finds: it waits in a state, or it has its answer. -/
inductive RemoteAns where
  | wait (s : State)
  | fail (code : Nat)
  | done (data : List Byte) (bad : Nat)

/-- R426, R429: issue a request once, and answer when its response, NACK or timeout has arrived. -/
def remoteStep (s : State) (pc va : Dword) (dpa : Nat) (op : RemOp) : RemoteAns :=
  match remOf s pc dpa with
  | none => .wait (issueRemote s pc va dpa op)
  | some r => match r.state with
    | .held | .sent => .wait s
    | .answered d p => .done d p
    | .nacked _ => .fail 0x09
    | .timedOut => .fail 0x0A

/-- R334, R335: what an access waits for before its line is at hand: the home of a page of another package's
directory, or the line of a page whose frame is in another package. The response installs it, and the access goes on. -/
def directoryStep (s : State) (pc va : Dword) (a : Acc) : RemoteAns :=
  let gpn := a.gpn.getD 0
  match farTarget s (a.loc / 128 * 16) with
  | some d => if gpnPkg gpn == s.pkg then remoteStep s pc va d (.line (a.loc / 128 * 128))
    else remoteStep s pc va (gpnPkg gpn * 2 ^ 46 + gpn % 2 ^ 34) (.directory gpn)
  | none => remoteStep s pc va (gpnPkg gpn * 2 ^ 46 + gpn % 2 ^ 34) (.directory gpn)

/-- The package that such a step asks. -/
def directoryPkg (s : State) (a : Acc) : Nat :=
  let gpn := a.gpn.getD 0
  if gpnPkg gpn == s.pkg then bits (pageHome s gpn) 38 29 else gpnPkg gpn

/-! ### Stores of a group -/

/-- R426: a store to another package is posted; a store to a register is the steps it stands for; any other store
follows R32. -/
def performStore (s : State) (pc va : Dword) (a : Acc) (size : Nat) (v : Dword) : State :=
  if a.pkg != s.pkg then issueRemote s pc va a.dpa (.store size v)
  else if a.reg then regStore s a.loc size v
  else storeUnit s s.cur.grp a (unitMask (a.loc % 8) size) (v <<< (8 * (a.loc % 8)))

end Sys2Proof.Machine
end

