-- ==== Sys2Proof/Machine/Ops.lean ====
section
/-! DEFINITION. The shared operations: strand registers and run-ahead (R130-R135, R149-R151), host notifications
and fault records (R327-R330, R444), the context frame (R263-R265, R453), taking a trap, the fatal path, parking
and the return (R251-R260), lane blocks, bypass latches. -/

namespace Sys2Proof.Machine

abbrev Result := Host.Outcome State Fault Refusal

/-! ### Strand registers (R149) -/

/-- A read of s0 returns 0. -/
def Strand.get (t : Strand) (r : BitVec 6) : Dword := if r = 0 then 0 else mapGet 0 t.regs r.toNat
/-- A write to s0 is discarded. -/
def Strand.set (t : Strand) (r : BitVec 6) (v : Dword) : Strand :=
  if r = 0 then t
  else { t with regs := mapSet 0 t.regs r.toNat v, later := t.later.map (fun m => maskSet m r.toNat true) }
/-- A write by the lanes of the oldest block: one that the strand has made since then stays (R150). -/
def Strand.laneSet (t : Strand) (r : BitVec 6) (v : Dword) : Strand :=
  if r = 0 || bit (t.later.headD 0) r.toNat then t else { t with regs := mapSet 0 t.regs r.toNat v }
/-- The oldest block has ended. -/
def Strand.blockOver (t : Strand) : Strand := { t with later := t.later.tail }

def State.reg (s : State) (r : BitVec 6) : Dword := s.grp.st.get r
def State.spc (s : State) : Dword := s.grp.st.spc
def State.setReg (s : State) (r : BitVec 6) (v : Dword) : State :=
  s.setGrp { s.grp with st := s.grp.st.set r v }
def State.setSpc (s : State) (v : Dword) : State :=
  s.setGrp { s.grp with st := { s.grp.st with spc := v } }
/-- N of R149: the address of the next word. -/
def State.next (s : State) : Dword := s.spc + 4
/-- Write a register and move to the next word. -/
def State.wb (s : State) (r : BitVec 6) (v : Dword) : State := (s.setReg r v).setSpc s.next
/-- Move to the next word. -/
def State.advance (s : State) : State := s.setSpc s.next

/-! ### Run-ahead (R130-R134) -/

/-- A block is outstanding, so that strand instructions run ahead (R132). In its handler a group's strand commits
at once (R254). -/
def Group.ahead (g : Group) : Bool := !g.inh && !g.blocks.isEmpty
/-- Everything before a serialising instruction has committed and left the side buffer (R132, R231). -/
def Group.quiet (g : Group) : Bool := (g.inh || g.blocks.isEmpty) && g.side.isEmpty
/-- R131, R150: the register is marked pending by an outstanding block. -/
def Group.pendingReg (g : Group) (r : BitVec 6) : Bool :=
  !g.inh && r != 0 && g.blocks.any (fun b => bit b.pending r.toNat)
/-- R150: an instruction that reads or writes a pending register stalls. -/
def State.stalls (s : State) (rs : List (BitVec 6)) : Bool := rs.any s.grp.pendingReg

/-! ### Host notifications (R444) -/

/-- Post a notification through an entry. A disabled entry posts nothing. -/
def notify (s : State) (entry : Nat) : State :=
  let a := mgmtBase + 0x4000 + 16 * entry
  let hi := (regGet s (a + 8)).toNat
  let addr := dpaLocal (regGet s a).toNat
  if bit hi 63 then
    let s := { s with notes := (entry, hi % 2 ^ 32) :: s.notes }
    if hostWindow addr then performBytes s (addr / 4 * 4) 4 (BitVec.ofNat 64 (hi % 2 ^ 32)) else s
  else s

/-! ### Fault records (R327-R330) -/

/-- R328: the eight dwords of a record, the lowest first. -/
def FaultInfo.dwords (f : FaultInfo) (seq : Nat) : List Dword :=
  [BitVec.ofNat 64 (f.code * 2 ^ 8 + f.kind), 0,
   BitVec.ofNat 64 (f.gid * 2 ^ 59 + f.die * 2 ^ 54 + f.core * 2 ^ 48 + f.ekind * 2 ^ 44 + f.didx * 2 ^ 38 +
     f.level * 2 ^ 35 + f.acc * 2 ^ 32),
   BitVec.ofNat 64 (f.asid * 2 ^ 48 + f.ltag * 2 ^ 32 + f.lpc * 2 ^ 6 + f.vf),
   f.info, BitVec.ofNat 64 (seq * 2 ^ 32 + f.team), f.spc, f.va]

def fqHead (s : State) (vf : Nat) : Nat := (regGet s (faultBase + 32 * vf)).toNat % 2048
def fqTail (s : State) (vf : Nat) : Nat := (regGet s (faultBase + 32 * vf + 8)).toNat % 2048
def fqHeld (s : State) (vf : Nat) : Nat := bits (regGet s (faultBase + 32 * vf + 8)).toNat 31 16
def fqLost (s : State) (vf : Nat) : Nat := bits (regGet s (faultBase + 32 * vf + 8)).toNat 63 32
def fqBase (s : State) (vf : Nat) : Nat := dpaLocal (regGet s (faultBase + 32 * vf + 24)).toNat

/-- Set LOST, HELD and TAIL of a control block (R327). -/
def fqSet (s : State) (vf lost held tail : Nat) : State :=
  regSet s (faultBase + 32 * vf + 8)
    (BitVec.ofNat 64 (lost % 2 ^ 32 * 2 ^ 32 + held % 2 ^ 16 * 2 ^ 16 + tail % 2048))

/-- The queue has room (R327). -/
def fqRoom (s : State) (vf : Nat) : Bool := (fqTail s vf + 2048 - fqHead s vf) % 2048 != 1024

/-- R329: write a record in its slot, advance TAIL, notify the host. -/
def fqWrite (s : State) (vf : Nat) (ws : List Dword) : State :=
  let t := fqTail s vf
  let s := performDwords s (fqBase s vf + 64 * (t % 1024)) ws
  notify (fqSet s vf (fqLost s vf) (fqHeld s vf) (t + 1)) vf

/-- R328-R330: post a record to a virtual function's fault queue. -/
def postFault (s : State) (f : FaultInfo) : State :=
  let vf := f.vf
  let n := mapGet 0 s.seq vf % (2 ^ 32 - 1) + 1
  let s := { s with seq := mapSet 0 s.seq vf n }
  let ws := f.dwords n
  if regGet s (faultBase + 32 * vf + 24) = 0 then fqSet s vf (fqLost s vf + 1) (fqHeld s vf) (fqTail s vf)
  else if fqRoom s vf && fqHeld s vf == 0 then fqWrite s vf ws
  else
    let s := { s with held := s.held ++ [⟨vf, ws⟩] }
    fqSet s vf (fqLost s vf) (fqHeld s vf + 1) (fqTail s vf)

/-- The fields of a record that name a group. -/
def groupFault (s : State) (g : Group) (kind code : Nat) : FaultInfo :=
  let l := s.launchOf g
  { kind := kind, code := code, team := g.team, asid := l.asid, ltag := l.ltag, vf := l.vf, gid := g.gid,
    die := g.die, core := g.core % 48 }

/-! ### Latches (R136) and pipes -/

def pipeOf (g : Group) : Nat := 4 * g.core + g.slot % 4

/-- All four latches of a pipe are lost. -/
def losePipe (s : State) (p : Nat) : State :=
  let x := mapGet default s.pipes p
  { s with pipes := mapSet default s.pipes p { x with latches := [] } }

def loseLatches (s : State) (g : Group) : State := losePipe s (pipeOf g)

/-! ### Rollback (R135, R260) -/

/-- R135, R260: the strand returns to the instruction after the LRUN of the oldest outstanding block; every later
block, the side-buffer entries held behind the block, and the early loads are discarded. In a handler the strand
has not run ahead (R254). -/
def Group.rollback (g : Group) : Group :=
  if g.inh then g else
  match g.blocks with
  | [] => g
  | b :: _ => { g with
      st := b.ckpt
      blocks := [{ b with late := 0 }]
      side := g.side.filter (fun e => e.behind == 0)
      slds := [] }

/-- Loads of the strand from other packages are discarded with what has run ahead. -/
def dropLoads (s : State) (gi : Nat) : State :=
  { forgetBad s gi with remote := s.remote.filter (fun r => !(r.grp == gi && !bit r.pc.toNat 63 && (match r.op with
    | .load _ | .directory _ | .line _ => true
    | _ => false))) }

/-- The rollback of a group of the machine. -/
def rollbackGroup (s : State) (gi : Nat) : State :=
  let g := s.group gi
  (if g.ahead then dropLoads s gi else s).setGroup gi g.rollback

/-! ### The context frame (R263, R453) -/

def frameAddr (s : State) (g : Group) : Nat := dpaLocal (s.launchOf g).gbase + 0x16000 * g.frame

/-- R453: the local DPA of a location that a group watches. -/
def watchedDpa (s : State) (a : Nat) : Nat :=
  dpaLocal (match farTarget s (a / 8) with
    | some d => d + a % 8
    | none => backing s a)

/-- R453: the wait kind and object of the header. -/
def Wait.code (s : State) : Wait → Nat × Dword
  | .none => (0, 0)
  | .barrier p i w => if w then (0, 0) else (1, BitVec.ofNat 64 (p.toNat * 64 + i))
  | .monitor a _ => (2, BitVec.ofNat 64 (watchedDpa s a))
  | .place h => (3, h)
  | .wpop q _ => (4, BitVec.ofNat 64 q)
  | .drain _ => (0, 0)

/-- R453: the header. -/
def headerWords (s : State) (g : Group) : List Dword :=
  let (wk, wo) := g.wait.code s
  let blk := !g.blocks.isEmpty
  let start := match g.blocks with
    | b :: _ => b.start
    | [] => 0
  [BitVec.ofNat 64 (g.dfrag % 256 * 2 ^ 24 + g.dsrc % 4 * 2 ^ 16 + wk * 2 ^ 8 + blk.toNat * 32 + g.full.toNat * 16 +
     g.inh.toNat * 8 + g.state % 8), wo, g.st.spc, g.vmap,
   BitVec.ofNat 64 (start * 2 ^ 32 + g.lsmap % 256), BitVec.ofNat 64 (g.dlpc % 2 ^ 26)] ++
  List.replicate 10 0

/-- A special register as SGETR reads it (R171). MCONF and WTOK stand at the unassigned numbers that the frame
gives them (R273, R288). -/
def specialReg (s : State) (g : Group) (n : Nat) : Dword :=
  let l := s.launchOf g
  let nat (x : Nat) : Dword := BitVec.ofNat 64 x
  match n with
  | 0x00 => nat g.gid
  | 0x01 => nat (g.team / (l.gx * l.gy) * 2 ^ 42 + g.team / l.gx % l.gy * 2 ^ 21 + g.team % l.gx)
  | 0x02 => nat (l.gx * l.gy * l.gz * l.teamSize)
  | 0x03 => nat g.team
  | 0x04 => nat l.teamSize
  | 0x05 => nat l.width
  | 0x06 => nat (g.core % 48)
  | 0x07 => nat (g.core / 48)
  | 0x08 => nat s.pkg
  | 0x09 => g.st.fmt
  | 0x0A => mapGet 0 g.st.axis 0
  | 0x0B => mapGet 0 g.st.axis 1
  | 0x0C => mapGet 0 g.st.axis 2
  | 0x0D => mapGet 0 g.st.axis 3
  | 0x0E => g.gang
  | 0x0F => g.mcfggen
  | 0x10 => g.fpmode
  | 0x11 => g.fpflags
  | 0x12 => g.trapvec
  | 0x13 => g.traprec
  | 0x14 => s.clock
  | 0x15 => s.caps
  | 0x16 => nat l.asid
  | 0x17 => nat l.vf
  | 0x18 => g.pretmo
  | 0x19 => g.mconf
  | 0x1A => nat (g.wtok % 2 ^ 64)
  | 0x1B => nat (g.wtok / 2 ^ 64)
  | n => if 0x20 ≤ n ∧ n < 0x30 then mapGet 0 g.qbind (n - 0x20) else 0

def fragDwords (f : Frag) : List Dword :=
  let v := f.pc.toNat + f.smask.toNat * 2 ^ 26 + f.join.toNat * 2 ^ 42 + f.fmtc.toNat * 2 ^ 68 +
    f.age.toNat * 2 ^ 93 + f.spin.toNat * 2 ^ 109 + f.wait.toNat * 2 ^ 126
  [BitVec.ofNat 64 v, BitVec.ofNat 64 (v / 2 ^ 64)]

def fragOfNat (v : Nat) : Frag :=
  ⟨BitVec.ofNat 26 v, BitVec.ofNat 16 (v / 2 ^ 26), BitVec.ofNat 26 (v / 2 ^ 42), BitVec.ofNat 25 (v / 2 ^ 68),
   BitVec.ofNat 16 (v / 2 ^ 93), BitVec.ofNat 17 (v / 2 ^ 109), BitVec.ofNat 2 (v / 2 ^ 126)⟩

def stackDwords (e : StackEntry) : List Dword :=
  let v := e.fmtc.toNat * 2 ^ 33 + e.join.toNat * 2 ^ 58 + e.pc.toNat * 2 ^ 84 + e.mask.toNat * 2 ^ 110 +
    e.kind.toNat * 2 ^ 126
  [BitVec.ofNat 64 v, BitVec.ofNat 64 (v / 2 ^ 64)]

def stackOfNat (v : Nat) : StackEntry :=
  ⟨BitVec.ofNat 2 (v / 2 ^ 126), BitVec.ofNat 16 (v / 2 ^ 110), BitVec.ofNat 26 (v / 2 ^ 84),
   BitVec.ofNat 26 (v / 2 ^ 58), BitVec.ofNat 25 (v / 2 ^ 33)⟩

/-- Pack n-byte values, the lowest first, into dwords. -/
def packDwords (per : Nat) (k : Nat) : Nat → List Nat → List Dword
  | 0, _ => []
  | fuel + 1, xs =>
    if xs.isEmpty then []
    else BitVec.ofNat 64 ((xs.take per).foldr (fun x acc => x % 2 ^ k + acc * 2 ^ k) 0) ::
      packDwords per k fuel (xs.drop per)

/-- Lane values of a register row as dwords, two lanes each. -/
def rowDwords (m : SMap Word) (row width : Nat) : List Dword :=
  packDwords 2 32 64 ((List.range width).map (fun l => (mapGet 0 m (64 * row + l)).toNat))

/-- The entries of a slice's stack that stand in hardware, the top first, and those in its spill area, the oldest first
(R129). -/
def Group.hwStack (g : Group) (sl : Nat) : List StackEntry :=
  let st := mapGet [] g.recon sl
  st.take (st.length - mapGet 0 g.spilled sl)
def Group.spillStack (g : Group) (sl : Nat) : List StackEntry :=
  (mapGet [] g.recon sl).reverse.take (mapGet 0 g.spilled sl)

/-- R129: the entries that a change of a group's stacks puts into the spill areas of its frame. -/
def spillStacks (s : State) (old new : Group) : State :=
  new.spilled.foldl (fun s p =>
    let was := old.spillStack p.1
    let now := new.spillStack p.1
    (List.range now.length).foldl (fun s k =>
      if now[k]? == was[k]? then s
      else performDwords s (frameAddr s new + 0x1000 + 1024 * p.1 + 16 * (8 + k)) (stackDwords (now[k]?.getD default))) s) s

/-- The group that moves takes new stacks. -/
def State.setStacks (s : State) (g : Group) : State := (spillStacks s s.grp g).setGrp g

/-- R263: the parts of the frame as (offset, dwords). Vector registers go by the map; the stack entries in hardware count
from the top (log 12). -/
def frameParts (s : State) (g : Group) : List (Nat × List Dword) :=
  let l := s.launchOf g
  let w := l.width
  let q (m : SMap (List Dword)) (n : Nat) : List Dword := mapGet [] m n
  [(0x0000, headerWords s g),
   (0x0080, (List.range 64).map (fun r => if r = 0 then 0 else mapGet 0 g.st.regs r)),
   (0x0280, (List.range 32).map (specialReg s g)),
   (0x0380, (List.range 16).map (fun n => mapGet 0 g.qbind n))] ++
  (match g.blocks with
   | b :: _ => [(0x0400, (List.range 64).map (fun r => mapGet 0 b.scal r)),
      (0x0600, [b.fmt] ++ (List.range 4).map (fun n => mapGet 0 b.axis n) ++ [BitVec.ofNat 64 b.pending])]
   | [] => [(0x0600, [0, 0, 0, 0, 0, 0])]) ++
  [(0x0630, [g.abind, 0]),
   (0x0640, BitVec.ofNat 64 (2 ^ w - 1) :: (List.range 7).map (fun n => BitVec.ofNat 64 (mapGet 0 g.preds (n + 1))))] ++
  (List.range 4).map (fun n => (0x0800 + 256 * n, rowDwords g.resid n w)) ++
  (List.range 16).map (fun i => (0x0C00 + 16 * i, fragDwords (mapGet default g.frags i))) ++
  [(0x0D00, packDwords 8 8 4 ((List.range 16).map (fun n => (q g.pushq n).length) ++
      (List.range 16).map (fun n => min 16 (q g.popq n).length)))] ++
  (List.range (w / 4)).map (fun sl => (0x1000 + 1024 * sl,
    let st := g.hwStack sl
    (st.map stackDwords).flatten ++ List.replicate (2 * (8 - st.length)) 0)) ++
  (List.range 16).map (fun n => (0x5000 + 256 * n, q g.pushq n ++ List.replicate (16 - (q g.pushq n).length) 0 ++
    (q g.popq n).take 16)) ++
  ((List.range (8 * l.vregs)).filter (fun r => bit g.vmap.toNat (r / 4))).map
    (fun r => (0x6000 + 256 * r, rowDwords g.vregs r w))

/-- The save engine writes the frame. -/
def writeFrame (s : State) (g : Group) : State :=
  (frameParts s g).foldl (fun s p => performDwords s (frameAddr s g + p.1) p.2) s

/-! ### Team local stores (R264, R265) -/

def teamIndex (s : State) (launch team : Nat) : Nat :=
  (s.teams.findIdx? (fun t => t.launch == launch && t.team == team)).getD s.teams.length
def State.team (s : State) (i : Nat) : Team := (s.teams[i]?).getD default
def State.setTeam (s : State) (i : Nat) (t : Team) : State := { s with teams := listSet s.teams i t }
def State.teamOf (s : State) (g : Group) : Nat := teamIndex s g.launch g.team
/-- The groups of a team. -/
def teamGroups (s : State) (launch team : Nat) : List Group :=
  s.groups.filter (fun x => x.launch == launch && x.team == team)
/-- Bytes of a team's local store on each of its cores (R29, R123). -/
def Launch.lsPer (l : Launch) : Nat := if l.pair then l.lstore / 2 else l.lstore
def teamFrameAddr (s : State) (t : Team) : Nat := dpaLocal (s.launch t.launch).tbase + 0x242000 * t.frame

/-- R113: the byte ranges (store, first byte, length) that a local-store map names. -/
def lsUnits (l : Launch) (map : Nat) : List (Nat × Nat × Nat) :=
  (maskList 8 map).map (fun j => if l.pair then (j / 4, j % 4 * 2 ^ 18, 2 ^ 18) else (0, j * 2 ^ 17, 2 ^ 17))

/-- R113: the map of every unit within the allocation. -/
def lsAll (l : Launch) : Nat :=
  maskOf ((List.range 8).filter (fun j => if l.pair then decide (j % 4 * 2 ^ 18 < l.lsPer)
    else decide (j * 2 ^ 17 < l.lsPer)))

/-- R264: the local store of a team goes to its frame when its last resident group leaves. -/
def saveStore (s : State) (i : Nat) : State :=
  let t := s.team i
  let l := s.launch t.launch
  let gs := teamGroups s t.launch t.team
  if t.ended || t.out || gs.any (fun x => x.run == .resident || x.run == .saving) then s
  else
    let map := gs.foldl (fun m x => maskOf (maskList 8 m ++ maskList 8 (if x.full then lsAll l else x.lsmap))) 0
    let a := teamFrameAddr s t
    let put (s : State) (u : Nat × Nat × Nat) : State :=
      let m := if u.1 == 0 then t.loc0 else t.loc1
      performDwords s (a + u.1 * 2 ^ 20 + u.2.1) ((List.range (min u.2.2 (l.lsPer - u.2.1) / 8)).map
        (fun k => BitVec.ofNat 64 (memRead m (u.2.1 + 8 * k) 8)))
    let s := (lsUnits l map).foldl put s
    (dropLocal s i).setTeam i { t with out := true, loc0 := [], loc1 := [] }

def readDw (s : State) (a : Nat) : Dword := BitVec.ofNat 64 (memRead s.mem a 8)

/-- R264, R453: the local-store map of a group's latest save, as its frame holds it while the group is away. -/
def savedMap (s : State) (l : Launch) (x : Group) : Nat :=
  if x.run == .away then
    if bit (readDw s (frameAddr s x)).toNat 4 then lsAll l else (readDw s (frameAddr s x + 0x20)).toNat % 256
  else if x.full then lsAll l else x.lsmap

/-- R264: a unit that was not saved reads 0 on restore. -/
def restoreStore (s : State) (i : Nat) : State :=
  let t := s.team i
  let l := s.launch t.launch
  if !t.out then s
  else
    let map := (teamGroups s t.launch t.team).foldl (fun m x => maskOf (maskList 8 m ++ maskList 8 (savedMap s l x))) 0
    let a := teamFrameAddr s t
    let read (c : Nat) : SMap Byte :=
      ((lsUnits l map).filter (fun u => u.1 == c)).foldl (fun m u =>
        (List.range (min u.2.2 (l.lsPer - u.2.1))).foldl
          (fun m k => memSet m (u.2.1 + k) (memGet s.mem (a + c * 2 ^ 20 + u.2.1 + k))) m) []
    let kept (u : Nat) : Bool := (lsUnits l map).any (fun r => r.1 == u / 2 ^ 17 &&
      decide (r.2.1 ≤ u % 2 ^ 17 * 8) && decide (u % 2 ^ 17 * 8 < r.2.1 + r.2.2))
    s.setTeam i { t with
      out := false
      loc0 := read 0
      loc1 := read 1
      bad := t.bad.filter kept }

/-! ### Leaving the core -/

/-- Remove a group's slot from the waiters and partner maps of its core (R292). -/
def dropWaiter (s : State) (g : Group) : State :=
  let cut (p : Nat × Barrier) : Nat × Barrier :=
    let own := p.1 / 64 == g.core
    let oth := p.1 / 64 / 2 == g.core / 2 && !own
    (p.1, { p.2 with
      waiters := if own then maskSet p.2.waiters g.slot false else p.2.waiters
      partner := if oth then maskSet p.2.partner g.slot false else p.2.partner })
  { s with barriers := (s.barriers.map cut).filter (fun p => p.2 != default) }

/-- R259, R261: a group's save begins: the strand is rolled back (R260), the implicit pub at .sys is made (R39), and
the group issues nothing more. -/
def saveGroup (s : State) (gi : Nat) (job : SaveJob) : State :=
  let s := forgetBad (pub (rollbackGroup s gi) gi 5) gi
  let g := s.group gi
  let s := loseLatches (dropWaiter s g) g
  s.setGroup gi { s.group gi with
    run := .saving
    save := some job
    saveReq := none
    quantum := false }

/-- A place step as a request of another package's slice names it: the handle's package and low bits. -/
def handleDpa (h : Dword) : Nat := bits h.toNat 63 54 * 2 ^ 46 + h.toNat % 2 ^ 46

/-- R300, R301: an XWAIT at another package has been answered that its place is queued (3), and not yet that it is
granted. -/
def placeQueued (s : State) (gi : Nat) (h : Dword) : Bool :=
  s.remote.any (fun r => r.grp == gi && r.addr == handleDpa h && (match r.op, r.state with
    | .place 1 _ _, .answered d _ => natOfBytes (d.take 1) == 3
    | _, _ => false))

/-- R24, R142: the wait of a group is not over, so that it is no waiter for residency. -/
def waitHolds (s : State) (gi : Nat) : Bool :=
  let g := s.group gi
  match g.wait with
  | .none | .drain _ => false
  | .barrier p i w =>
    let core := if p then (if g.core % 2 == 0 then g.core + 1 else g.core - 1) else g.core
    let b := mapGet default s.barriers (64 * core + i)
    !w && b.valid && b.ph == bit g.wtok (if p then 64 + i else i)
  | .monitor _ w => !w
  | .place h =>
    let r := mapGet default s.places
      (65536 * (24 * bits h.toNat 53 49 + bits h.toNat 48 44) + bits h.toNat 43 28)
    if bits h.toNat 63 54 == s.pkg then r.kind == 2 && r.st == 0 else placeQueued s gi h
  | .wpop _ w => !w

/-- R259, R261, R264: the frame is written, the slot freed, the record posted. -/
def finishSave (s : State) (gi : Nat) (job : SaveJob) : State :=
  let g := s.group gi
  let l := s.launchOf g
  let g := { g with
    state := job.st
    full := job.full
    vmap := if job.full then BitVec.ofNat 64 (2 ^ (2 * l.vregs) - 1) else job.vmap
    lsmap := if job.full then lsAll l else job.lsmap
    save := none
    run := .away
    eligible := job.eligible && !waitHolds s gi }
  let s := writeFrame (s.setGroup gi g) g
  -- words beyond the buffer, and those that arrive while the group is away, are held (R24, R146)
  let s := s.setGroup gi { s.group gi with popq := (g.popq.map (fun p => (p.1, p.2.drop 16))).filter (fun p => p.2 != []) }
  let s := performDwords s (frameAddr s g + 0xE00) job.fatal
  let s := saveStore s (s.teamOf g)
  match job.post with
  | some f => postFault s f
  | none => s

/-- R262: an urgent pre-emption of a group's team is under way: the clocks of its operations are gated. -/
def teamGated (s : State) (g : Group) : Bool :=
  (teamGroups s g.launch g.team).any (fun x => x.run == .resident && x.saveReq == some true)

/-- R262: gated operations of a context go on where a group of it is resident again. -/
def ungate (s : State) (core asid : Nat) : State :=
  let mine (gi : Nat) : Bool := (s.launchOf (s.group gi)).asid == asid
  { s with
    mops := s.mops.map (fun o => if o.core == core && mine o.grp then { o with gated := false } else o)
    cmds := s.cmds.map (fun c => if c.eng == 1 && c.unit == core && mine c.grp then
      { c with gated := false, prog := none } else c) }

/-- R262: a group has left a core. Gated work of its context there goes on where another group of it is resident. -/
def ungateLeft (s : State) (core asid : Nat) : State :=
  if s.groups.any (fun x => x.run == .resident && x.core == core && (s.launchOf x).asid == asid) then ungate s core asid
  else s

/-- The cores of a group's team. -/
def teamCores (s : State) (g : Group) : List Nat :=
  if (s.launchOf g).pair then [g.core / 2 * 2, g.core / 2 * 2 + 1] else [g.core]

/-- R261: the save ends, once the stores that its pub at .sys waits for are acknowledged (R37, R39). -/
def execSaveCompletion (g : Nat) (s : State) : Result :=
  .next (match (s.group g).run, (s.group g).save with
    | .saving, some job =>
      if !pubReady s g 5 then s
      else
        let x := s.group g
        (teamCores s x).foldl (fun s c => ungateLeft s c (s.launchOf x).asid) (finishSave s g job)
    | _, _ => s)

/-! ### The restore (R258, R263) -/

/-- The wait that a header names: the group's own, where the header still names that. -/
def waitOfCode (s : State) (k : Nat) (o : Dword) (old : Wait) : Wait :=
  if old.code s == (k, o) then old
  else match k with
  | 1 => .barrier (bit o.toNat 6) (o.toNat % 64) false
  | 2 => .monitor o.toNat true
  | 3 => .place o
  | 4 => .wpop o.toNat (match old with
    | .wpop _ w => w
    | _ => true)
  | _ => .none

/-- A row of lane values read back. -/
def readRow (s : State) (a row width : Nat) (m : SMap Word) : SMap Word :=
  (List.range width).foldl (fun m l => mapSet 0 m (64 * row + l) (BitVec.ofNat 32 (memRead s.mem (a + 4 * l) 4))) m

/-- The first `n` entries of the map by a function of the index. -/
def buildMap {α : Type} [DecidableEq α] (d : α) (n : Nat) (f : Nat → α) : SMap α :=
  (List.range n).foldl (fun m i => mapSet d m i (f i)) []

/-- A stack entry read back. -/
def readStack (s : State) (a : Nat) : StackEntry := stackOfNat (memRead s.mem a 16)

/-- R263, R453: a group as its frame gives it. Active masks, the strand checkpoint of a present block, the count of spilled
stack entries, the words held for a pop buffer, those that a VQIN has still to push, and those that a waiting instruction has
popped stay with the group (log 12, log 87). A block that only the frame has starts
with every lane active. -/
def readFrame (s : State) (g : Group) : Group :=
  let a := frameAddr s g
  let l := s.launchOf g
  let w := l.width
  let h := (readDw s a).toNat
  let sp (n : Nat) : Dword := readDw s (a + 0x280 + 8 * n)
  let regs := (buildMap 0 64 (fun r => if r = 0 then 0 else readDw s (a + 0x80 + 8 * r)))
  let axis := buildMap 0 4 (fun n => sp (0x0A + n))
  let st : Strand := ⟨readDw s (a + 0x10), regs, sp 0x09, axis, if bit h 5 then [0] else []⟩
  let vmap := readDw s (a + 0x18)
  let cnt (n : Nat) : Nat := (memGet s.mem (a + 0xD00 + n)).toNat
  let b := g.blocks.headD default
  let blocks := if bit h 5 then [{ b with
      start := bits (readDw s (a + 0x20)).toNat 57 32
      scal := buildMap 0 64 (fun r => readDw s (a + 0x400 + 8 * r))
      fmt := readDw s (a + 0x600)
      axis := buildMap 0 4 (fun n => readDw s (a + 0x608 + 8 * n))
      pending := (readDw s (a + 0x628)).toNat
      ckpt := st }] else []
  { g with
    st := st
    gang := sp 0x0E
    mcfggen := sp 0x0F
    fpmode := sp 0x10
    fpflags := sp 0x11
    trapvec := sp 0x12
    traprec := sp 0x13
    pretmo := sp 0x18
    mconf := sp 0x19
    wtok := (sp 0x1A).toNat + (sp 0x1B).toNat * 2 ^ 64
    qbind := buildMap 0 16 (fun n => readDw s (a + 0x380 + 8 * n))
    inh := bit h 3
    dsrc := bits h 17 16
    dfrag := bits h 31 24
    dlpc := (readDw s (a + 0x28)).toNat % 2 ^ 26
    wait := waitOfCode s (bits h 10 8) (readDw s (a + 8)) g.wait
    full := bit h 4
    vmap := vmap
    lsmap := (readDw s (a + 0x20)).toNat % 256
    act := if g.blocks.isEmpty then 2 ^ w - 1 else g.act
    blocks := blocks
    abind := readDw s (a + 0x630)
    preds := buildMap 0 8 (fun n => if n = 0 then 0 else (readDw s (a + 0x640 + 8 * n)).toNat % 2 ^ w)
    resid := (List.range 4).foldl (fun m n => readRow s (a + 0x800 + 256 * n) n w m) []
    frags := buildMap default 16 (fun i => fragOfNat (memRead s.mem (a + 0xC00 + 16 * i) 16))
    recon := buildMap [] (w / 4) (fun sl =>
      let e (i : Nat) : StackEntry := readStack s (a + 0x1000 + 1024 * sl + 16 * i)
      ((List.range 8).map e).takeWhile (fun x => x.kind != 0) ++
        ((List.range (mapGet 0 g.spilled sl)).map (fun k => e (8 + k))).reverse)
    pushq := buildMap [] 16 (fun n => (List.range (cnt n)).map (fun i => readDw s (a + 0x5000 + 256 * n + 8 * i)))
    popq := buildMap [] 16 (fun n =>
      (List.range (min 16 (cnt (16 + n)))).map (fun i => readDw s (a + 0x5080 + 256 * n + 8 * i)) ++
      mapGet [] g.popq n)
    vregs := ((List.range (8 * l.vregs)).filter (fun r => bit vmap.toNat (r / 4))).foldl
      (fun m r => readRow s (a + 0x6000 + 256 * r) r w m) [] }

/-! ### Taking a trap (R252-R257) -/

/-- What a trap reports (R253). -/
structure Trap where
  code : Nat
  source : Nat := 0
  lane : Nat := 0xFF
  slice : Nat := 0xFF
  frag : Nat := 0xFF
  lmask : Nat := 0
  cause : Nat := 0
  spc : Dword := 0
  xflags : Nat := 0
  lpc : Nat := 0x3FFFFFF
  addr : Dword := 0
  dpc : Dword := 0
  fmt : Dword := 0
  info : Dword := 0
  deriving DecidableEq, Repr, Inhabited

/-- R253: the sixteen dwords of the record, the lowest first. -/
def Trap.dwords (t : Trap) (st : Strand) : List Dword :=
  [BitVec.ofNat 64 (t.lmask % 16 * 2 ^ 48 + t.frag * 2 ^ 40 + t.slice * 2 ^ 32 + t.lane * 2 ^ 24 + t.cause * 2 ^ 16 +
     t.source * 2 ^ 8 + t.code),
   t.spc, BitVec.ofNat 64 (t.lpc * 2 ^ 32 + t.xflags), t.addr, t.dpc, t.fmt, t.info, 0, 0, 0, 0, 0,
   st.get 60, st.get 61, st.get 62, st.get 63]

/-- Write dwords of the group's memory as ordinary stores; none where any of them faults (R254). -/
def storeDwords (s : State) : Dword → List Dword → Option State
  | _, [] => some s
  | va, d :: ds =>
    match groupAccess s va 8 needW with
    | .ok a => storeDwords (performStore (noteAccess s va a) s.spc va a 8 d) (va + 8) ds
    | .error _ => none

/-- Test the sixteen stores of a record before any is made. -/
def recordOk (s : State) (va : Dword) : Bool :=
  (List.range 16).all (fun i => match groupAccess s (va + BitVec.ofNat 64 (8 * i)) 8 needW with
    | .ok _ => true
    | .error _ => false)

/-- A directory of another package that must be asked before the record's page is known (R335). -/
def recordDir (s : State) (va : Dword) : Option Acc :=
  match groupAccess s va 8 needW with
  | .ok a => if a.needDir then some a else none
  | .error _ => none

/-- The key of the directory request of a delivery. -/
def recordPc : Dword := 2

def Group.recAddr (g : Group) : Dword := BitVec.ofNat 64 (bits g.traprec.toNat 53 7 * 128)
def Group.vecAddr (g : Group) : Dword := BitVec.ofNat 64 (bits g.trapvec.toNat 53 2 * 4)

/-- R257: a trap that cannot be delivered. The group saves its whole context with STATE 4, the would-be record goes
to the frame, a record of kind TRAP is posted, and the group leaves its slot. -/
def fatal (s : State) (t : Trap) : State :=
  let gi := s.cur.grp
  let s := rollbackGroup s gi
  let g := s.group gi
  saveGroup s gi {
    st := 4
    full := true
    vmap := 0
    lsmap := 0
    eligible := false
    fatal := t.dwords g.st
    post := some { groupFault s g 3 t.code with
      va := t.addr
      spc := g.st.spc
      lpc := t.lpc
      info := BitVec.ofNat 64 (s.pkg * 2 ^ 46 + frameAddr s g + 0xE00) } }

/-- A trap of the group has a handler to go to (R254). -/
def Group.handles (g : Group) : Bool := !g.inh && bits g.trapvec.toNat 53 2 != 0 && bits g.traprec.toNat 53 7 != 0

/-- R335: what the delivery of a trap waits for: the home of the record's page, from another package. What raises the
trap is then executed again. -/
def recordWait (s : State) : Option State :=
  let g := s.grp
  if g.handles && recordOk s g.recAddr then
    match (recordDir s g.recAddr).map (directoryStep s recordPc g.recAddr) with
    | some (.wait s1) => some s1
    | some (.done _ _) => some (dropRemote s recordPc)
    | _ => none
  else none

/-- R254: deliver a trap to the group's handler, or end in the fatal path. The SPC of a lane trap's record is the
strand's after the rollback (R135). -/
def deliverNow (s : State) (t : Trap) : State :=
  let g := s.grp
  let s := forgetBad s s.cur.grp
  let s' := if t.source = 1 then rollbackGroup s s.cur.grp else s
  let g' := s'.grp
  let t := if t.source = 1 then { t with spc := g'.st.spc } else t
  if !g.handles then fatal s' t
  else if !recordOk s' g.recAddr || (recordDir s' g.recAddr).isSome then fatal (dropRemote s' recordPc) t
  else match storeDwords s' g.recAddr (t.dwords g'.st) with
    | none => fatal s' t
    | some s'' =>
      let x := s''.grp
      let st := (x.st.set 60 g.recAddr).set 61 (BitVec.ofNat 64 t.code)
      loseLatches (s''.setGrp { x with
        st := { st with spc := g.vecAddr }
        inh := true
        dsrc := t.source
        dfrag := t.frag
        dlpc := t.lpc }) x

/-- Deliver a trap once the home of the record's page is known. `pre` is what the trap's raising does besides. -/
def deliverAfter (s : State) (t : Trap) (pre : State → State) : State :=
  match recordWait s with
  | some s1 => s1
  | none => deliverNow (pre s) t

def deliver (s : State) (t : Trap) : State := deliverAfter s t id

/-- R258: a page that is not present parks the group, which saves its whole context and posts a record. -/
def park (s : State) (va : Dword) (lpc level acc : Nat) : State :=
  let gi := s.cur.grp
  let s := rollbackGroup s gi
  let g := s.group gi
  saveGroup s gi {
    st := 1
    full := true
    vmap := 0
    lsmap := 0
    eligible := false
    fatal := []
    post := some { groupFault s g 0 0x06 with va := va, spc := g.st.spc, lpc := lpc, level := level, acc := acc } }

/-- R313: the record of a malformed entry that an instruction reports, with the SPC at which the group goes on (R328). -/
def formatRecord (f : MemFault) (va : Dword) (lpc acc : Nat) (s : State) : State :=
  if f.bad then
    let g := s.grp
    let spc := if lpc = 0x3FFFFFF then g.st.spc else g.rollback.st.spc
    postFault s { groupFault s g 7 0x07 with va := va, spc := spc, lpc := lpc, acc := acc }
  else s

/-! ### Traps of the strand (R134, R151) -/

/-- A strand trap: under run-ahead it is raised when the instruction commits (R134), so the strand holds until
then. -/
def strandTrapAfter (s : State) (t : Trap) (pre : State → State) : State :=
  if s.grp.ahead then s
  else deliverAfter s { t with fmt := s.grp.st.fmt, spc := if t.spc = 0 then s.spc else t.spc } pre

def strandTrap (s : State) (t : Trap) : State := strandTrapAfter s t id

/-- A strand trap of a code alone. -/
def trapCode (s : State) (code : Nat) : State := strandTrap s { code := code }

/-- A memory fault of a strand access (R220, R227): a park for an absent page, else a trap. -/
def strandFault (s : State) (f : MemFault) (va : Dword) (acc : Nat) : State :=
  if s.grp.ahead then s
  else if f.cond = 3 then park s va 0x3FFFFFF f.level acc
  else strandTrapAfter s { code := f.code, addr := va } (formatRecord f va 0x3FFFFFF acc)

/-- A free strand instruction over the registers it names (R132, R150). -/
def strandFree (s : State) (rs : List (BitVec 6)) (k : State) : Result :=
  .next (if s.stalls rs then s else k)

/-- A serialising strand instruction (R132): it waits until it commits. -/
def strandSerial (s : State) (k : State) : Result :=
  .next (if s.grp.quiet then k else s)

/-! ### Code fetch (R86, R152, R161) -/

/-- The narrowest scope of a group that includes a writer (R23). -/
def scopeOf (s : State) (g : Group) (gi : Nat) : Writer → Nat
  | .lane w =>
    let x := s.group w
    if w == gi then 0
    else if x.launch == g.launch && x.team == g.team then 1
    else if x.die == g.die then 2
    else 3
  | .engine _ _ d => if d == g.die then 2 else 3
  | .inside => 3
  | .other => 5

/-- R152: a PHASE.ref of the group bars what stood before a write: its own store from its issue, another agent's write from
when it was performed, at a scope that includes the writer. -/
def codeBars (s : State) (g : Group) (gi : Nat) (h : Hist) : Bool :=
  decide ((if h.who == .lane gi then h.born else h.stamp) ≤ mapGet 0 g.codeRef (scopeOf s g gi h.who))

/-- R152: the values that a code fetch of a unit may return: a value that the instruction cache still holds, down to the
newest write that a PHASE.ref of the group bars; or the group's own store that waits. -/
def codeValues (s : State) (u : Nat) : List Dword :=
  let g := s.grp
  let gi := s.cur.grp
  let own := s.dirty.filter (fun d => d.unit == u && d.grp == gi)
  let must := own.filter (fun d => decide (d.stamp ≤ mapGet 0 g.codeRef 0))
  let base := newestOf (unitHist s u) (codeBars s g gi) 0
  if own.isEmpty then (unitValues s u base).map Prod.fst
  else if must.isEmpty then (unitValues s u base).map Prod.fst ++ [overlay (unitOf s u) own]
  else [overlay (unitOf s u) must, overlay (unitOf s u) own]

/-- The word that a code fetch may return (R152). What another package's memory holds comes from outside the module (log
20). -/
def fetchPart (s : State) (a : Acc) (k : Nat) : Nat :=
  if a.pkg != s.pkg || a.needDir then (Config.freeWord s.tick k).toNat % 2 ^ 32
  else if a.reg then unitPart (regGet s a.loc) (a.loc % 8) 4
  else unitPart (s.pick k (unitOf s (a.loc / 8)) (codeValues s (a.loc / 8))) (a.loc % 8) 4

/-- FetchScalar of R161. -/
def fetchScalar (s : State) (va : Dword) (k : Nat) : Except MemFault Nat :=
  match groupAccess s va 4 needXS with
  | .ok a => .ok (fetchPart s a k)
  | .error e => .error e

/-- A word of lane code (R86). -/
def fetchLaneWord (s : State) (va : Dword) (k : Nat) : Except MemFault Nat :=
  match groupAccess s va 4 needXL with
  | .ok a => .ok (fetchPart s a k)
  | .error e => .error e

/-- The address of a lane instruction (R86). -/
def laneAddr (s : State) (pc : Nat) : Dword := (s.launchOf s.grp).lbase + BitVec.ofNat 64 (12 * pc)

/-- The three words of a lane instruction as one number. -/
def fetchLane (s : State) (pc : Nat) : Except (MemFault × Dword) Nat :=
  let a := laneAddr s pc
  match fetchLaneWord s a 4, fetchLaneWord s (a + 4) 5, fetchLaneWord s (a + 8) 6 with
  | .ok x, .ok y, .ok z => .ok (x + y * 2 ^ 32 + z * 2 ^ 64)
  | .error e, _, _ => .error (e, a)
  | _, .error e, _ => .error (e, a + 4)
  | _, _, .error e => .error (e, a + 8)

/-! ### Lane blocks (R130, R131, R165) -/

/-- R131: the scalar destinations of one lane instruction word: VRED, VBALLOT and VRDL. -/
def scalarDst (w : Nat) : Option Nat :=
  let op := w / 2 ^ 23 % 512
  if op == 0x0C2 || op == 0x0C4 || op == 0x0C5 then some (w / 2 ^ 15 % 64) else none

/-- R131: the linear scan of a block from its first instruction, up to LEND, LCOUNT or an unreadable word. -/
def pendingScan (s : State) (lcount : Nat) : Nat → Nat → Nat → Nat
  | 0, _, m => m
  | fuel + 1, pc, m =>
    if lcount ≤ pc then m
    else match fetchLane s pc with
      | .error _ => m
      | .ok w =>
        if w / 2 ^ 23 % 512 == 0x126 then m
        else pendingScan s lcount fuel (pc + 1) (match scalarDst w with
          | some r => if r == 0 then m else maskSet m r true
          | none => m)

/-- A group's first fragment of a block: every slice, all lanes active (R130). -/
def firstFrag (width start : Nat) (fmt : Dword) : Frag :=
  ⟨BitVec.ofNat 26 start, BitVec.ofNat 16 (2 ^ (width / 4) - 1), 0x3FFFFFF, BitVec.ofNat 25 (fmt.toNat / 2 ^ 7),
   0, 0, 0⟩

/-- R130, R136, R240: the start of the oldest block. -/
def startBlock (s : State) (gi : Nat) : State :=
  let g := s.group gi
  let w := (s.launchOf g).width
  match g.blocks with
  | [] => s
  | b :: _ => loseLatches (s.setGroup gi { g with
      frags := [(0, firstFrag w b.start b.fmt)]
      recon := []
      spilled := []
      act := 2 ^ w - 1
      abind := 0 }) g

/-- Push a word for an endpoint (R146). -/
def Group.push (g : Group) (q : Nat) (v : Dword) : Group :=
  { g with pushq := mapSet [] g.pushq q (mapGet [] g.pushq q ++ [v]) }
/-- R205: a VQIN is part-way through its pushes into a queue register. -/
def Group.vqinOn (g : Group) (q : Nat) : Bool := g.vqin.any (fun p => p.2.1 == q)
def Group.pushRoom (g : Group) (q n : Nat) : Bool := decide ((mapGet [] g.pushq q).length + n ≤ 16)

end Sys2Proof.Machine
end

