-- ==== Sys2Proof/Machine/Operands.lean ====
section
/-! DEFINITION. Lane operands and results: types at issue (R60), activity (R181), selectors and their checks (R98,
R182), queue pops (R183), lane traps (R252), register images and latches (R97, R184), flags and exceptions (R69). -/

namespace Sys2Proof.Machine

/-! ### The executing fragment -/

/-- The split-table entry that the pipe chose. -/
def State.frag (s : State) : Frag := mapGet default s.grp.frags s.cur.frag
def State.setFrag (s : State) (f : Frag) : State :=
  s.setGrp { s.grp with frags := mapSet default s.grp.frags s.cur.frag f }
/-- The block that runs. -/
def State.block (s : State) : Block := s.grp.blocks.headD default
def State.width (s : State) : Nat := (s.launchOf s.grp).width
/-- Vector registers per lane (R119). -/
def State.nvreg (s : State) : Nat := 8 * (s.launchOf s.grp).vregs

/-- The FMT copy of the executing path (R79). -/
def State.pathFmt (s : State) : Nat := s.frag.fmtc.toNat * 2 ^ 7

/-- Slices of a fragment, ascending. -/
def Frag.slices (f : Frag) : List Nat := maskList 16 f.smask.toNat
/-- Lanes of a fragment, ascending. -/
def Frag.lanes (f : Frag) : List Nat := (f.slices.map (fun sl => [4 * sl, 4 * sl + 1, 4 * sl + 2, 4 * sl + 3])).flatten

/-- A predicate in a lane; p0 reads true (R181). -/
def Group.pred (g : Group) (p lane : Nat) : Bool := p == 0 || bit (mapGet 0 g.preds p) lane

/-- R181: a lane of the fragment is active for the instruction. -/
def laneActive (s : State) (f : LaneWord) (l : Nat) : Bool :=
  bit s.grp.act l && (s.grp.pred f.pred.toNat l != f.pneg)

def activeLanes (s : State) (f : LaneWord) : List Nat := s.frag.lanes.filter (laneActive s f)

/-- Move the fragment to its next instruction. -/
def State.nextLane (s : State) : State := s.setFrag { s.frag with pc := s.frag.pc + 1 }

/-! ### Lane traps (R252) -/

/-- The lane that a trap of the whole instruction names. -/
def wholeLane (s : State) (f : LaneWord) : Nat :=
  match activeLanes s f with
  | l :: _ => l
  | [] => 4 * s.frag.slices.headD 0

/-- The report of a lane trap (R252, R253). -/
def laneReport (s : State) (f : LaneWord) (code lane : Nat) : Trap where
  code := code
  source := 1
  lane := lane
  slice := lane / 4
  frag := s.cur.frag
  lmask := maskOf ((List.range 4).filter (fun j => laneActive s f (4 * (lane / 4) + j)))
  lpc := s.frag.pc.toNat
  fmt := BitVec.ofNat 64 s.pathFmt

/-- A lane trap; `pre` is what its raising does besides, once the trap can be delivered. -/
def laneTrapAfter (s : State) (f : LaneWord) (code lane : Nat) (addr : Dword) (pre : State → State) : State :=
  deliverAfter s { laneReport s f code lane with addr := addr } pre
def laneTrap (s : State) (f : LaneWord) (code lane : Nat) (addr : Dword) : State := laneTrapAfter s f code lane addr id

/-- A trap of the whole instruction (R101, R102). -/
def laneTrapAll (s : State) (f : LaneWord) (code : Nat) : State := laneTrap s f code (wholeLane s f) 0

/-- R220: a memory condition of a lane: a park for an absent page, else a trap. -/
def laneFault (s : State) (f : LaneWord) (e : MemFault) (lane acc : Nat) (va : Dword) : State :=
  if e.cond = 3 then park s va s.frag.pc.toNat e.level acc
  else deliverAfter s { laneReport s f e.code lane with addr := va } (formatRecord e va s.frag.pc.toNat acc)

/-! ### Types at issue -/

/-- R60: the type of a code, 17 and 18 standing for FMT.AFMT and FMT.BFMT. -/
def resolveTy (fmt : Nat) (code : Nat) : Option Ty :=
  if code == 17 then Ty.ofCode (bits fmt 31 27)
  else if code == 18 then Ty.ofCode (bits fmt 26 22)
  else Ty.ofCode code

/-- R66: saturation is in effect. -/
def satOn (fmt : Nat) (f : LaneWord) : Bool := f.sat || bit fmt 12

def modeOf (fmt : Nat) (f : LaneWord) : Mode := Mode.ofCode (bits fmt 15 13) f.rnd.toNat

/-- R193: the zero-point enable that applies: BZP for a type coded as FMT.B, AZP otherwise. -/
def zpOn (fmt : Nat) (f : LaneWord) : Bool := if f.ty == 18 then bit fmt 16 else bit fmt 17

/-! ### Selectors (R98) -/

inductive Sel where
  | vreg (r : Nat) | latch (n : Nat) | scalar (r : Nat) | queue (n : Nat) | resid (n : Nat)
  | laneId | sliceId | int (v : Int) | flt (c : Nat) | lit | bad
  deriving DecidableEq, Repr, Inhabited

def Sel.ofNat (x : Nat) : Sel :=
  if x < 0x100 then .vreg x
  else if x < 0x104 then .latch (x - 0x100)
  else if 0x110 ≤ x ∧ x < 0x150 then .scalar (x - 0x110)
  else if 0x150 ≤ x ∧ x < 0x160 then .queue (x - 0x150)
  else if 0x160 ≤ x ∧ x < 0x164 then .resid (x - 0x160)
  else if x = 0x170 then .laneId
  else if x = 0x171 then .sliceId
  else if 0x180 ≤ x ∧ x < 0x1C0 then .int ((x : Int) - 0x190)
  else if 0x1C0 ≤ x ∧ x < 0x1C8 then .flt (x - 0x1C0)
  else if x = 0x3FF then .lit
  else .bad

/-- How an instruction reads an operand: by a type, as the 32 bits of a block type's codes, as a uniform n32 (R199), as a
lane base (R214), or not at all. -/
inductive Read where
  | none | ty (t : Ty) | codes | uniform | base
  deriving DecidableEq, Repr, Inhabited

def latchValid (s : State) (n : Nat) : Bool :=
  (mapGet default (mapGet default s.pipes (pipeOf s.grp)).latches n).valid

/-- R98, R199, R214: a selector is legal for what reads it. -/
def selOk (s : State) (litOk : Bool) (rd : Read) (x : Nat) : Bool :=
  let sel := Sel.ofNat x
  let wide := match rd with
    | .ty t => t.bits == 64
    | _ => false
  match rd with
  | .none => true
  | .base => match sel with
    | .scalar _ => true
    | .vreg r => r % 2 == 0 && decide (r + 1 < s.nvreg)
    | _ => false
  | .uniform => match sel with
    | .scalar _ | .int _ => true
    | .lit => litOk
    | _ => false
  | .codes => match sel with
    | .vreg r => decide (r < s.nvreg)
    | .latch n => latchValid s n
    | .scalar _ | .queue _ | .resid _ | .laneId | .sliceId => true
    | .lit => litOk
    | _ => false
  | .ty t => match sel with
    | .vreg r => decide (r < s.nvreg) && !(wide && r % 2 == 1)
    | .latch n => latchValid s n && (!wide || (n % 2 == 0 && latchValid s (n + 1)))
    | .scalar _ | .queue _ | .resid _ | .laneId | .sliceId => true
    | .int _ => !(t.isFloat || t.isBlock)
    | .flt _ => t.isFloat
    | .lit => litOk
    | .bad => false

/-- R98: a float constant in a type: 0, 0.5, 1, 2, 4, −0.5, −1, −2. -/
def floatConst (t : Ty) (c : Nat) : Nat :=
  let x : XVal := match c with
    | 0 => .fin false 0 1
    | 1 => .fin false 1 2
    | 2 => .fin false 1 1
    | 3 => .fin false 2 1
    | 4 => .fin false 4 1
    | 5 => .fin true 1 2
    | 6 => .fin true 1 1
    | _ => .fin true 2 1
  (roundTo t .rne false false x).1

/-- A vector register image in a lane. -/
def Group.vlane (g : Group) (r l : Nat) : Nat := (mapGet 0 g.vregs (64 * r + l)).toNat

/-- A latch in a lane. A lane not written since the loss holds a value that the specification leaves open (log 10). -/
def latchLane (s : State) (n l : Nat) : Nat :=
  match (mapGet default (mapGet default s.pipes (pipeOf s.grp)).latches n).lanes.find? (fun p => p.1 == l) with
  | some p => p.2.toNat
  | none => (Config.freeWord s.tick (64 * n + l)).toNat % 2 ^ 32

/-- R182: the raw value of a selector in a lane, before it is read as its type; `pop` is its popped word. Under a 64-bit
type the high word of e0 to e3, LANEID and SLICEID is 0 (log 66). -/
def selValue (s : State) (t : Ty) (w2 : Word) (pop : Dword) (x l : Nat) : Nat :=
  let wide := t.bits == 64
  match Sel.ofNat x with
  | .vreg r => s.grp.vlane r l + (if wide then s.grp.vlane (r + 1) l * 2 ^ 32 else 0)
  | .latch n => latchLane s n l + (if wide then latchLane s (n + 1) l * 2 ^ 32 else 0)
  | .scalar r =>
    let v := if r == 0 then 0 else (mapGet 0 s.block.scal r).toNat
    if wide then v else v % 2 ^ 32
  | .queue _ => if wide then pop.toNat else pop.toNat % 2 ^ 32
  | .resid n => (mapGet 0 s.grp.resid (64 * n + l)).toNat
  | .laneId => l
  | .sliceId => l / 4
  | .int v => wrapNat (if wide then 64 else 32) v
  | .flt c => floatConst t c
  | .lit => if wide then wrapNat 64 (sext 32 w2.toNat) else w2.toNat
  | .bad => 0

/-! ### Queue selectors (R183) -/

/-- The queue registers that an instruction pops, in operand order. -/
def popsOf (spec : LaneSpec) (f : LaneWord) : List Nat :=
  let q (k : OpKind) (x : BitVec 10) : List Nat := match k, Sel.ofNat x.toNat with
    | .sel, .queue n => [n]
    | _, _ => []
  if spec.w2 == .map || spec.op == 0x120 then []
  else q spec.a f.opA ++ q spec.b f.opB ++ q spec.c f.opC

def kindOf (g : Group) (q : Nat) : Nat := (mapGet 0 g.qbind q).toNat % 16

/-- Every word that the instruction pops is present. -/
def popsReady (g : Group) (ps : List Nat) : Bool :=
  ps.all (fun q => decide ((ps.filter (fun x => x == q)).length ≤ (mapGet [] g.popq q).length))

/-- Pop the words, in order. -/
def popAll (g : Group) : List Nat → Group × List Dword
  | [] => (g, [])
  | q :: qs =>
    let b := mapGet [] g.popq q
    let (g', vs) := popAll { g with popq := mapSet [] g.popq q b.tail } qs
    (g', b.headD 0 :: vs)

/-- R183: the words that the fragment's instruction popped when it began to wait for another package. -/
def takenWords (s : State) : Option (List Dword) :=
  (s.grp.taken.find? (fun x => x.1 == s.cur.frag && x.2.1 == s.frag.pc.toNat)).map (fun x => x.2.2)
/-- The group without them. -/
def untaken (s : State) : List (Nat × Nat × List Dword) :=
  s.grp.taken.filter (fun x => !(x.1 == s.cur.frag && x.2.1 == s.frag.pc.toNat))

/-- Every word that the fragment's instruction pops is at hand. -/
def popsAtHand (s : State) (ps : List Nat) : Bool := (takenWords s).isSome || popsReady s.grp ps

/-- The group once the words are popped, and the words. -/
def popWords (s : State) (ps : List Nat) : Group × List Dword :=
  match takenWords s with
  | some vs => ({ s.grp with taken := untaken s }, vs)
  | none => popAll s.grp ps

/-! ### The environment of a lane instruction -/

/-- What a meaning sees after the encoding checks: the state with its pops made, the type, the active lanes and
the operands by lane. -/
structure Env where
  /-- The state as the instruction found it. -/
  s0 : State
  s : State
  f : LaneWord
  ty : Ty
  act : List Nat
  /-- The words popped, in operand order, and their queue registers. -/
  words : List Dword
  queues : List Nat
  a : Nat → Nat
  b : Nat → Nat
  /-- B before negB. -/
  braw : Nat → Nat
  c : Nat → Nat
  fmt : Nat
  mode : Mode
  sat : Bool
  zp : Bool
  nanprop : Bool

/-- R98: the dst field names an allocated vector register, even under a 64-bit type. -/
def dstOk (s : State) (spec : LaneSpec) (f : LaneWord) (t : Ty) : Bool :=
  spec.dst != .vec || (decide (f.dst.toNat < s.nvreg) && !(t.bits == 64 && f.dst.toNat % 2 == 1))

/-- R184: a 64-bit result takes an even latch. -/
def latOk (spec : LaneSpec) (f : LaneWord) (t : Ty) : Bool :=
  !(spec.dst == .vec && t.bits == 64 && f.lat.toNat % 2 == 1)

/-- R133: the memory accesses and queue pushes of a block are held while an entry of an earlier block is still in
the side buffer. -/
def blockHeld (g : Group) : Bool := g.side.any (fun e => e.behind == 0)

/-- A negated operand B (R97): the sign of a float type, else modulo 2^N. -/
def negOperand (t : Ty) (v : Nat) : Nat :=
  if t.isFloat then
    let sb := 2 ^ (t.bits - 1)
    let x := v % 2 ^ t.bits
    if sb ≤ x then x - sb else x + sb
  else wrapNat t.bits (-(v % 2 ^ t.bits : Nat))

/-- The checks of R101, R102, R183 and R185 before execution. `ok` accepts the resolved type, and `ra`, `rb`, `rc`
say how each operand is read under it. An error is the state that the instruction ends in: a trap, or no change
while it waits. -/
def laneEnv (s : State) (spec : LaneSpec) (f : LaneWord) (ok : Ty → Bool) (ra rb rc : Ty → Read) :
    Except State Env :=
  let fmt := s.pathFmt
  let t := if spec.ty == .zero then some Ty.b32 else resolveTy fmt f.ty.toNat
  match t with
  | none => .error (laneTrapAll s f 0x01)
  | some t =>
    if !ok t || !latOk spec f t then .error (laneTrapAll s f 0x01)
    else
      let lit := spec.w2 == .lit
      if !dstOk s spec f t || !selOk s lit (ra t) f.opA.toNat || !selOk s lit (rb t) f.opB.toNat ||
          !selOk s lit (rc t) f.opC.toNat then .error (laneTrapAll s f 0x02)
      else
        let ps := popsOf spec f
        match ps.find? (fun q => kindOf s.grp q == 0) with
        | some q => .error (deliver s { laneReport s f 0x0D (wholeLane s f) with info := BitVec.ofNat 64 q })
        | none =>
          if !popsAtHand s ps then .error s
          else
            let (g, vs) := popWords s ps
            let s' := s.setGrp g
            let isQ (x : BitVec 10) : Nat := match Sel.ofNat x.toNat with
              | .queue _ => 1
              | _ => 0
            let na := if spec.a == .sel then isQ f.opA else 0
            let nb := if spec.b == .sel then isQ f.opB else 0
            let rdT (r : Read) : Ty := match r with
              | .ty t => t
              | .codes => .b32
              | _ => .n32
            let val (r : Read) (n : Nat) (x : BitVec 10) (l : Nat) : Nat :=
              selValue s (rdT r) f.w2 ((vs[n]?).getD 0) x.toNat l
            let b0 := val (rb t) na f.opB
            .ok {
              s0 := s
              s := s'
              f := f
              ty := t
              act := activeLanes s f
              words := vs
              queues := ps
              a := val (ra t) 0 f.opA
              b := if f.negB then fun l => negOperand (rdT (rb t)) (b0 l) else b0
              braw := b0
              c := val (rc t) (na + nb) f.opC
              fmt := fmt
              mode := modeOf fmt f
              sat := satOn fmt f
              zp := zpOn fmt f
              nanprop := bit s.grp.fpmode.toNat 0 }

/-! ### Results (R97, R184) -/

/-- Write one lane of a register: a pair under a 64-bit type. -/
def Group.setLane (g : Group) (wide : Bool) (r l v : Nat) : Group :=
  let m := mapSet 0 g.vregs (64 * r + l) (BitVec.ofNat 32 v)
  { g with vregs := if wide then mapSet 0 m (64 * (r + 1) + l) (BitVec.ofNat 32 (v / 2 ^ 32)) else m }

/-- Write a latch in the given lanes. A latch write by an instruction that R139 chose starts a hold (R137). -/
def setLatch (s : State) (n : Nat) (vs : List (Nat × Nat)) : State :=
  let p := pipeOf s.grp
  let x := mapGet default s.pipes p
  let la := mapGet default x.latches n
  let lanes := vs.foldl (fun m v => (m.filter (fun y => y.1 != v.1)) ++ [(v.1, BitVec.ofNat 32 v.2)]) la.lanes
  let x' : Pipe := ⟨if x.hold = 4 then 3 else x.hold, x.owner, mapSet default x.latches n ⟨true, lanes⟩⟩
  { s with pipes := mapSet default s.pipes p x' }

/-- Write results by lane to dst and latch as nowb and lat say (R97). -/
def writeVec (s : State) (f : LaneWord) (wide : Bool) (vs : List (Nat × Nat)) : State :=
  let s := if f.nowb then s
    else s.setGrp (vs.foldl (fun g v => g.setLane wide f.dst.toNat v.1 v.2) s.grp)
  if f.lat != 0 || f.nowb then
    let s := setLatch s f.lat.toNat vs
    if wide then setLatch s (f.lat.toNat + 1) (vs.map (fun v => (v.1, v.2 / 2 ^ 32))) else s
  else s

/-- R197, R198: write a predicate in the given lanes; a write to p0 is discarded. -/
def writePred (s : State) (p : Nat) (vs : List (Nat × Bool)) : State :=
  if p = 0 then s
  else s.setGrp { s.grp with
    preds := mapSet 0 s.grp.preds p (vs.foldl (fun m v => maskSet m v.1 v.2) (mapGet 0 s.grp.preds p)) }

/-- R150, R202: a lane instruction writes a scalar register, which releases its pending mark. The strand's checkpoints
behind the blocks hold it too, where the strand has not written the register since. -/
def writeScalar (s : State) (r : BitVec 6) (v : Dword) : State :=
  let g := s.grp
  let fix (b : Block) : Block := { b with
    ckpt := b.ckpt.laneSet r v
    pending := if bit b.pending r.toNat then b.pending - 2 ^ r.toNat else b.pending }
  let blocks := match g.blocks with
    | b :: rest => fix b :: rest.map (fun x => { x with ckpt := x.ckpt.laneSet r v })
    | [] => []
  s.setGrp { g with
    st := g.st.laneSet r v
    blocks := blocks
    side := g.side.map (fun e => { e with ckpt := e.ckpt.laneSet r v })
    slds := g.slds.map (fun e => { e with ckpt := e.ckpt.laneSet r v }) }

/-! ### Flags and exceptions (R68, R69) -/

/-- FMT.XEN enables as FPFLAGS bits: bit 11 IV down to bit 7 NX. SAT has none. -/
def enables (fmt : Nat) : FpFlags :=
  flagIf (bit fmt 11) flagIV ||| flagIf (bit fmt 10) flagDZ ||| flagIf (bit fmt 9) flagOF |||
  flagIf (bit fmt 8) flagUF ||| flagIf (bit fmt 7) flagNX

def raiseFlags (s : State) (fl : FpFlags) : State :=
  s.setGrp { s.grp with fpflags := s.grp.fpflags ||| BitVec.setWidth 64 fl }

/-- R69, R252: finish an instruction that raised flags by lane: FP_EXCEPTION where an enabled one occurred, with
the flags set and nothing else written, else `k`. The flags set and reported are all that the lanes raised, SAT among them
(R185, log 80). `lane` overrides the lane reported. -/
def finishFp (e : Env) (fls : List (Nat × FpFlags)) (lane : Option Nat) (k : State → State) : State :=
  let fl := fls.foldl (fun m x => m ||| x.2) 0
  let en := enables e.fmt
  match fls.find? (fun x => x.2 &&& en != 0) with
  | some x =>
    let s := raiseFlags e.s0 fl
    deliver s { laneReport s e.f 0x11 (lane.getD x.1) with xflags := fl.toNat }
  | none => k (raiseFlags e.s fl)

/-- An instruction that computes a register image and flags in each active lane. -/
def laneMap (e : Env) (wide : Bool) (fn : Nat → Nat × FpFlags) : State :=
  let rs := e.act.map (fun l => (l, fn l))
  finishFp e (rs.map (fun r => (r.1, r.2.2))) none
    (fun s => (writeVec s e.f wide (rs.map (fun r => (r.1, r.2.1)))).nextLane)

/-- An instruction that computes a predicate and flags in each active lane. -/
def lanePred (e : Env) (fn : Nat → Bool × FpFlags) : State :=
  let rs := e.act.map (fun l => (l, fn l))
  finishFp e (rs.map (fun r => (r.1, r.2.2))) none
    (fun s => (writePred s (e.f.dst.toNat % 8) (rs.map (fun r => (r.1, r.2.1)))).nextLane)

/-- Run a meaning on the environment, if the checks pass. -/
def withEnv (x : Except State Env) (k : Env → State) : Result :=
  match x with
  | .ok e => .next (k e)
  | .error s => .next s

/-- The rules of an instruction's opcode; every lane constructor has them. -/
def specOf (i : Instr) : LaneSpec :=
  match laneSpec i with
  | some (x, _) => x
  | none => default

/-! ### Ways to read an operand -/

def rT (t : Ty) : Read := .ty t
def rTy (x : Ty) : Ty → Read := fun _ => .ty x
def rNo : Ty → Read := fun _ => .none
def rCodes : Ty → Read := fun _ => .codes
def rUni : Ty → Read := fun _ => .uniform
def rBase : Ty → Read := fun _ => .base

/-- Checks of an instruction whose operands are read under its type. -/
def envT (s : State) (i : Instr) (f : LaneWord) (ok : Ty → Bool) (ra rb rc : Ty → Read) : Except State Env :=
  laneEnv s (specOf i) f ok ra rb rc

end Sys2Proof.Machine
end

