-- ==== Sys2Proof/Machine/LaneInteger.lean ====
section
/-! DEFINITION. The integer lane instructions (R186-R188). -/

namespace Sys2Proof.Machine

def isWide (e : Env) : Bool := e.ty.bits == 64

/-- A binary operation on the exact values of A and B, wrapped or clamped (R186). -/
def intExact2 (s : State) (i : Instr) (f : LaneWord) (op : Int → Int → Int) : Result :=
  withEnv (envT s i f Ty.isInt rT rT rNo) (fun e => laneMap e (isWide e) (fun l =>
    intResult e.ty e.sat (op (readInt e.ty (e.a l)) (readInt e.ty (e.b l)))))

/-- A binary operation on the bits of A and B under integer types and b32. -/
def bitsOp2 (s : State) (i : Instr) (f : LaneWord) (op : Nat → Nat → Nat → Nat) : Result :=
  withEnv (envT s i f Ty.isIntB rT rT rNo) (fun e => laneMap e (isWide e) (fun l =>
    (intImage e.ty (op e.ty.bits (e.a l % 2 ^ e.ty.bits) (e.b l) : Nat), 0)))

/-- A unary operation on the bits of A under integer types and b32. -/
def bitsOp1 (s : State) (i : Instr) (f : LaneWord) (op : Nat → Nat → Nat) : Result :=
  withEnv (envT s i f Ty.isIntB rT rNo rNo) (fun e => laneMap e (isWide e) (fun l =>
    (intImage e.ty (op e.ty.bits (e.a l % 2 ^ e.ty.bits) : Nat), 0)))

/-- R187. -/
def execVadd (f : LaneWord) (s : State) : Result := intExact2 s (.vadd f) f (fun a b => a + b)
/-- R187. -/
def execVsub (f : LaneWord) (s : State) : Result := intExact2 s (.vsub f) f (fun a b => a - b)
/-- R187. -/
def execVmul (f : LaneWord) (s : State) : Result := intExact2 s (.vmul f) f (fun a b => a * b)
/-- R187: bits 2N−1:N of the exact product. -/
def execVmulh (f : LaneWord) (s : State) : Result :=
  withEnv (envT s (.vmulh f) f Ty.isInt rT rT rNo) (fun e => laneMap e (isWide e) (fun l =>
    (intImage e.ty (readInt e.ty (e.a l) * readInt e.ty (e.b l) / 2 ^ e.ty.bits), 0)))
/-- R187: one wrap or clamp on the exact value. -/
def execVmad (f : LaneWord) (s : State) : Result :=
  withEnv (envT s (.vmad f) f Ty.isInt rT rT rT) (fun e => laneMap e (isWide e) (fun l =>
    intResult e.ty e.sat (readInt e.ty (e.a l) * readInt e.ty (e.b l) + readInt e.ty (e.c l))))
/-- R187. -/
def execVmin (f : LaneWord) (s : State) : Result := intExact2 s (.vmin f) f min
/-- R187. -/
def execVmax (f : LaneWord) (s : State) : Result := intExact2 s (.vmax f) f max
/-- R187. -/
def execVabs (f : LaneWord) (s : State) : Result :=
  withEnv (envT s (.vabs f) f (fun t => t.isInt && t.isSigned) rT rNo rNo) (fun e =>
    laneMap e (isWide e) (fun l => intResult e.ty e.sat ((readInt e.ty (e.a l)).natAbs : Int)))
/-- R187. -/
def execVand (f : LaneWord) (s : State) : Result := bitsOp2 s (.vand f) f (fun _ a b => a &&& b)
/-- R187. -/
def execVor (f : LaneWord) (s : State) : Result := bitsOp2 s (.vor f) f (fun _ a b => a ||| b)
/-- R187. -/
def execVxor (f : LaneWord) (s : State) : Result := bitsOp2 s (.vxor f) f (fun _ a b => a ^^^ b)
/-- R187. -/
def execVnot (f : LaneWord) (s : State) : Result := bitsOp1 s (.vnot f) f (fun n a => 2 ^ n - 1 - a)

/-- R188: an amount is an n32 value, and N or more shifts everything out. -/
def shlBits (n a b : Nat) : Nat := if n ≤ b % 2 ^ 32 then 0 else a * 2 ^ (b % 2 ^ 32)
def shrBits (n a b : Nat) : Nat := if n ≤ b % 2 ^ 32 then 0 else a / 2 ^ (b % 2 ^ 32)
def sraBits (n a b : Nat) : Nat :=
  let k := min (b % 2 ^ 32) (n - 1)
  wrapNat n (sext n a / 2 ^ k)

/-- R188. -/
def execVshl (f : LaneWord) (s : State) : Result := bitsOp2 s (.vshl f) f shlBits
/-- R188. -/
def execVshr (f : LaneWord) (s : State) : Result := bitsOp2 s (.vshr f) f shrBits
/-- R188. -/
def execVsra (f : LaneWord) (s : State) : Result := bitsOp2 s (.vsra f) f sraBits

def clzBits (n a : Nat) : Nat := if a == 0 then n else n - 1 - Nat.log2 a
def popcBits (n a : Nat) : Nat := ((List.range n).filter (fun i => bit a i)).length

/-- R187. -/
def execVclz (f : LaneWord) (s : State) : Result := bitsOp1 s (.vclz f) f clzBits
/-- R187. -/
def execVpopc (f : LaneWord) (s : State) : Result := bitsOp1 s (.vpopc f) f popcBits

/-- R188: the length of a field that starts at p, cut at N. -/
def fieldLen (n p len : Nat) : Nat := if n ≤ p then 0 else min len (n - p)

/-- R188. -/
def execVbfe (f : LaneWord) (s : State) : Result :=
  withEnv (envT s (.vbfe f) f (fun t => t.isInt && decide (32 ≤ t.bits)) rT rT rT) (fun e =>
    laneMap e (isWide e) (fun l =>
      let n := e.ty.bits
      let p := e.b l % 2 ^ 32
      let k := fieldLen n p (e.c l % 2 ^ 32)
      let v := e.a l / 2 ^ p % 2 ^ k
      (intImage e.ty (if k = 0 then 0 else if e.ty.isSigned then sext k v else v), 0)))

/-- R188: old bits of dst outside the field are kept. -/
def execVbfi (f : LaneWord) (s : State) : Result :=
  withEnv (envT s (.vbfi f) f (fun t => t == .n32 || t == .n64 || t == .b32) rT rT rT) (fun e =>
    laneMap e (isWide e) (fun l =>
      let n := e.ty.bits
      let p := e.b l % 2 ^ 32
      let k := fieldLen n p (e.c l % 2 ^ 32)
      let r := f.dst.toNat
      let old := e.s.grp.vlane r l + (if isWide e then e.s.grp.vlane (r + 1) l * 2 ^ 32 else 0)
      (if k = 0 then old else old - bits old (p + k - 1) p * 2 ^ p + e.a l % 2 ^ k * 2 ^ p, 0)))

/-- R184: the register image of an element moved as bits. -/
def moveImage (t : Ty) (v : Nat) : Nat := if t.isIntB then intImage t (v : Nat) else v % 2 ^ t.bits

/-- Every type but a block type (R187). -/
def anyTy (t : Ty) : Bool := !t.isBlock

/-- R187: A where C's bits are not all 0, else B. -/
def execVsel (f : LaneWord) (s : State) : Result :=
  withEnv (envT s (.vsel f) f anyTy rT rT rT) (fun e => laneMap e (isWide e) (fun l =>
    (moveImage e.ty (if e.c l % 2 ^ e.ty.bits != 0 then e.a l else e.b l), 0)))
/-- R187. -/
def execVmov (f : LaneWord) (s : State) : Result :=
  withEnv (envT s (.vmov f) f anyTy rT rNo rNo) (fun e => laneMap e (isWide e) (fun l => (moveImage e.ty (e.a l), 0)))

end Sys2Proof.Machine
end

