-- ==== Sys2Proof/Machine/LaneFloat.lean ====
section
/-! DEFINITION. The floating-point lane instructions and conversions (R189-R196). -/

namespace Sys2Proof.Machine

/-- Round an exact result into the instruction's type, with the flags of its forming. -/
def roundEnv (e : Env) (t : Ty) (x : XVal × FpFlags) : Nat × FpFlags :=
  let (v, g) := roundTo t e.mode e.sat e.nanprop x.1
  (v, x.2 ||| g)

def fa (e : Env) (l : Nat) : XVal := readFloat e.ty (e.a l)
def fb (e : Env) (l : Nat) : XVal := readFloat e.ty (e.b l)
def fc (e : Env) (l : Nat) : XVal := readFloat e.ty (e.c l)

/-- A binary float operation, rounded once (R189). -/
def floatOp2 (s : State) (i : Instr) (f : LaneWord) (op : Mode → XVal → XVal → XVal × FpFlags) : Result :=
  withEnv (envT s i f Ty.isArith rT rT rNo) (fun e => laneMap e false (fun l =>
    roundEnv e e.ty (op e.mode (fa e l) (fb e l))))

/-- A unary float operation, rounded once (R189). -/
def floatOp1 (s : State) (i : Instr) (f : LaneWord) (op : XVal → XVal × FpFlags) : Result :=
  withEnv (envT s i f Ty.isArith rT rNo rNo) (fun e => laneMap e false (fun l => roundEnv e e.ty (op (fa e l))))

/-- R190. -/
def execVfadd (f : LaneWord) (s : State) : Result := floatOp2 s (.vfadd f) f xadd
/-- R190: A + (−B). A NaN result takes the sign of the operand itself (R63). -/
def xsub (mode : Mode) (a b : XVal) : XVal × FpFlags :=
  let r := xadd mode a b.neg
  if r.1.isNaN then (firstNaN [a, b], r.2) else r
/-- R190. -/
def execVfsub (f : LaneWord) (s : State) : Result := floatOp2 s (.vfsub f) f xsub
/-- R190. -/
def execVfmul (f : LaneWord) (s : State) : Result := floatOp2 s (.vfmul f) f (fun _ a b => xmul a b)
/-- R190: one rounding (R81). -/
def execVfma (f : LaneWord) (s : State) : Result :=
  withEnv (envT s (.vfma f) f Ty.isArith rT rT rT) (fun e => laneMap e false (fun l =>
    roundEnv e e.ty (xfma e.mode (fa e l) (fb e l) (fc e l))))
/-- R190: minimumNumber. -/
def execVfmin (f : LaneWord) (s : State) : Result := floatOp2 s (.vfmin f) f (fun _ a b => xminmax false a b)
/-- R190: maximumNumber. -/
def execVfmax (f : LaneWord) (s : State) : Result := floatOp2 s (.vfmax f) f (fun _ a b => xminmax true a b)
/-- R190. -/
def execVfrcp (f : LaneWord) (s : State) : Result := floatOp1 s (.vfrcp f) f xrcp
/-- R190. -/
def execVfrsq (f : LaneWord) (s : State) : Result := floatOp1 s (.vfrsq f) f xrsq
/-- R190. -/
def execVfsqrt (f : LaneWord) (s : State) : Result := floatOp1 s (.vfsqrt f) f xsqrtOf
/-- R190. -/
def execVfexp2 (f : LaneWord) (s : State) : Result := floatOp1 s (.vfexp2 f) f xexp2Of
/-- R190. -/
def execVflog2 (f : LaneWord) (s : State) : Result := floatOp1 s (.vflog2 f) f xlog2Of
/-- R191: raises no flag. -/
def execVfclass (f : LaneWord) (s : State) : Result :=
  withEnv (envT s (.vfclass f) f Ty.isArith rT rNo rNo) (fun e => laneMap e false (fun l => (fclass e.ty (e.a l), 0)))

/-- Types 0 to 12 (R192). -/
def cvtTy (t : Ty) : Bool := t.isInt || t.isFloat

/-- R192: opB holds the source type. -/
def execVcvt (f : LaneWord) (s : State) : Result :=
  let src := (resolveTy s.pathFmt (f.opB.toNat % 32)).getD .b32
  withEnv (envT s (.vcvt f) f (fun t => cvtTy t && cvtTy src) (rTy src) rNo rNo) (fun e =>
    laneMap e (isWide e) (fun l => convert e.ty src e.mode e.sat e.nanprop (e.a l)))

/-- R193. -/
def execVqnt (f : LaneWord) (s : State) : Result :=
  withEnv (envT s (.vqnt f) f Ty.isBlock (rTy .f32) (rTy .b32) rNo) (fun e => laneMap e false (fun l =>
    let x := readFloat .f32 (e.a l)
    let (q, fl) := quantise e.ty e.mode x (e.b l) e.zp
    (q, fl ||| flagIf x.isSig flagIV)))

/-- R194: rne into f32; a NaN made by the scale raises no flag. -/
def execVdqnt (f : LaneWord) (s : State) : Result :=
  withEnv (envT s (.vdqnt f) f Ty.isBlock rCodes (rTy .b32) rNo) (fun e => laneMap e false (fun l =>
    let (v, fl) := blockValue e.ty (e.a l) (e.b l) e.zp
    let (r, g) := roundTo .f32 .rne e.sat false v
    (r, fl ||| g)))

/-- R195: the bf16 activations of B, negated together by negB. -/
def activations (e : Env) (l : Nat) : XVal × XVal :=
  let b0 := readFloat .bf16 (e.braw l)
  let b1 := readFloat .bf16 (e.braw l / 2 ^ 16)
  if e.f.negB then (b0.neg, b1.neg) else (b0, b1)

/-- R195. -/
def execVtsdot (f : LaneWord) (s : State) : Result :=
  withEnv (envT s (.vtsdot f) f (fun t => t == .ts8) rCodes rCodes (rTy .f32)) (fun e =>
    laneMap e false (fun l =>
      let (b0, b1) := activations e l
      roundEnv e .f32 (tsdot e.mode (e.a l) b0 b1 (readFloat .f32 (e.c l)))))

/-- R196. -/
def execVzdot (f : LaneWord) (s : State) : Result :=
  withEnv (envT s (.vzdot f) f (fun t => t == .zb4 || t == .zb8) rCodes rCodes (rTy .f32)) (fun e =>
    laneMap e false (fun l =>
      let (b0, b1) := activations e l
      roundEnv e .f32 (zdot e.ty e.mode e.zp (e.a l) b0 b1 (readFloat .f32 (e.c l)))))

end Sys2Proof.Machine
end

