-- ==== Sys2Proof/Machine/LanePredicate.lean ====
section
/-! DEFINITION. Compares and predicate instructions (R197, R198). -/

namespace Sys2Proof.Machine

/-- R197: the condition of VCMP on exact values. -/
def intCond (c : Nat) (a b : Int) : Bool :=
  match c with
  | 0 => a == b
  | 1 => a != b
  | 2 => decide (a < b)
  | 3 => decide (a ≤ b)
  | 4 => decide (b < a)
  | _ => decide (b ≤ a)

/-- R197. -/
def execVcmp (f : LaneWord) (s : State) : Result :=
  withEnv (envT s (.vcmp f) f Ty.isInt rT rT rNo) (fun e => lanePred e (fun l =>
    (intCond f.rnd.toNat (readInt e.ty (e.a l)) (readInt e.ty (e.b l)), 0)))

/-- R197: the condition of VFCMP with its flags. -/
def floatCond (c : Nat) (a b : XVal) : Bool × FpFlags :=
  let un := a.isNaN || b.isNaN
  let quiet := flagIf (anySig [a, b]) flagIV
  let loud := flagIf un flagIV
  match c with
  | 0 => (xeq a b, quiet)
  | 1 => (!xeq a b, quiet)
  | 2 => (xlt a b, loud)
  | 3 => (xlt a b || xeq a b, loud)
  | 4 => (xlt b a, loud)
  | 5 => (xlt b a || xeq a b, loud)
  | 6 => (un, quiet)
  | _ => (!un, quiet)

/-- R197. -/
def execVfcmp (f : LaneWord) (s : State) : Result :=
  withEnv (envT s (.vfcmp f) f Ty.isArith rT rT rNo) (fun e => lanePred e (fun l =>
    floatCond f.rnd.toNat (fa e l) (fb e l)))

/-- R198: an operation on the predicates that opA and opB name. -/
def predOp (s : State) (f : LaneWord) (op : Bool → Bool → Bool) : Result :=
  .next (writePred s (f.dst.toNat % 8) ((activeLanes s f).map (fun l =>
    (l, op (s.grp.pred (f.opA.toNat % 8) l) (s.grp.pred (f.opB.toNat % 8) l))))).nextLane

/-- R198. -/
def execPand (f : LaneWord) (s : State) : Result := predOp s f (fun a b => a && b)
/-- R198. -/
def execPor (f : LaneWord) (s : State) : Result := predOp s f (fun a b => a || b)
/-- R198. -/
def execPxor (f : LaneWord) (s : State) : Result := predOp s f (fun a b => a != b)
/-- R198. -/
def execPnot (f : LaneWord) (s : State) : Result := predOp s f (fun a _ => !a)
/-- R198: A ≠ 0. -/
def execPset (f : LaneWord) (s : State) : Result :=
  withEnv (envT s (.pset f) f Ty.isIntB rT rNo rNo) (fun e => lanePred e (fun l =>
    (e.a l % 2 ^ e.ty.bits != 0, 0)))
/-- R198: the lowest active lane of the fragment where pa is true. -/
def execPfirst (f : LaneWord) (s : State) : Result :=
  let act := activeLanes s f
  let first := act.find? (fun l => s.grp.pred (f.opA.toNat % 8) l)
  .next (writePred s (f.dst.toNat % 8) (act.map (fun l => (l, some l == first)))).nextLane
/-- R198: 1 where pa is true, 0 elsewhere. -/
def execPmov (f : LaneWord) (s : State) : Result :=
  withEnv (envT s (.pmov f) f (fun _ => true) rNo rNo rNo) (fun e => laneMap e false (fun l =>
    (if e.s.grp.pred (f.opA.toNat % 8) l then 1 else 0, 0)))

end Sys2Proof.Machine
end

