-- ==== Sys2Proof/Machine/LaneCross.lean ====
section
/-! DEFINITION. Cross-lane instructions (R82, R199-R205). -/

namespace Sys2Proof.Machine

/-- R199: A of lane j as a lane of the fragment sees it: 0 outside the fragment. -/
def crossA (e : Env) (j : Nat) : Nat := if e.s.frag.lanes.contains j then e.a j else 0

/-- R200. -/
def execVshuf (f : LaneWord) (s : State) : Result :=
  withEnv (envT s (.vshuf f) f anyTy rT (rTy .n32) rNo) (fun e => laneMap e (isWide e) (fun l =>
    (moveImage e.ty (crossA e (e.b l % 2 ^ 32 % e.s.width)), 0)))
/-- R200. -/
def execVbcast (f : LaneWord) (s : State) : Result :=
  withEnv (envT s (.vbcast f) f anyTy rT rUni rNo) (fun e => laneMap e (isWide e) (fun l =>
    (moveImage e.ty (crossA e (e.b l % 2 ^ 32 % e.s.width)), 0)))
/-- R200: executes even with no active lane. -/
def execVrdl (f : LaneWord) (s : State) : Result :=
  withEnv (envT s (.vrdl f) f anyTy rT rUni rNo) (fun e =>
    let j := e.b 0 % 2 ^ 32 % e.s.width
    (writeScalar e.s (f.dst.setWidth 6) (BitVec.ofNat 64 (image64 e.ty (crossA e j)))).nextLane)
/-- R200. -/
def execVwrl (f : LaneWord) (s : State) : Result :=
  withEnv (envT s (.vwrl f) f anyTy rT rUni rNo) (fun e =>
    let j := e.b 0 % 2 ^ 32 % e.s.width
    (writeVec e.s f (isWide e) (if e.act.contains j then [(j, moveImage e.ty (e.a j))] else [])).nextLane)

/-! ### Reductions and scans (R82, R201) -/

/-- R82: the identity that a lane that does not contribute supplies; none for a float MIN or MAX. -/
def redIdentity (t : Ty) (op : Nat) : Option Nat :=
  if t.isFloat then (if op == 0 then some (t.fmt.withSign true 0) else none)
  else match op with
    | 1 => some (wrapNat t.bits t.hi)
    | 2 => some (wrapNat t.bits t.lo)
    | 3 => some (2 ^ t.bits - 1)
    | _ => some 0

/-- R201: ⊕ of two present operands. -/
def redOp (e : Env) (op x y : Nat) : Nat × FpFlags :=
  let t := e.ty
  let n := 2 ^ t.bits
  if t.isFloat then
    let a := readFloat t x
    let b := readFloat t y
    match op with
    | 0 => roundEnv e t (xadd e.mode a b)
    | 1 => roundEnv e t (xminmax false a b)
    | _ => roundEnv e t (xminmax true a b)
  else match op with
    | 0 =>
      let (v, fl) := intResult t e.sat (readInt t x + readInt t y)
      (v % n, fl)
    | 1 => (if readInt t x ≤ readInt t y then x % n else y % n, 0)
    | 2 => (if readInt t x ≤ readInt t y then y % n else x % n, 0)
    | 3 => (x % n &&& y % n, 0)
    | 4 => (x % n ||| y % n, 0)
    | _ => (x % n ^^^ y % n, 0)

/-- R82: ⊕ where an operand may be absent. -/
def redOpt (e : Env) (op : Nat) (x y : Option Nat) : Option Nat × FpFlags :=
  match x, y with
  | none, none => (none, 0)
  | some v, none | none, some v =>
    let (r, fl) := redOp e op v v
    (some r, fl)
  | some a, some b =>
    let (r, fl) := redOp e op a b
    (some r, fl)

/-- One level of the reduction tree: neighbours combine, the lower lane on the left. -/
def redLevel (e : Env) (op : Nat) : List (Option Nat) → List (Option Nat) × FpFlags
  | x :: y :: rest =>
    let (r, fl) := redOpt e op x y
    let (rs, gl) := redLevel e op rest
    (r :: rs, fl ||| gl)
  | xs => (xs, 0)

/-- TreeReduce of R82. -/
def treeReduce (e : Env) (op : Nat) : Nat → List (Option Nat) → Option Nat × FpFlags
  | 0, xs => (xs.headD none, 0)
  | k + 1, xs =>
    let (ys, fl) := redLevel e op xs
    let (r, gl) := treeReduce e op k ys
    (r, fl ||| gl)

/-- One step of the scan: lane i combines with lane i − d. -/
def scanLevel (e : Env) (op d : Nat) (xs : List (Option Nat)) : List (Option Nat) × FpFlags :=
  let rs := (List.range xs.length).map (fun i =>
    if d ≤ i then redOpt e op ((xs[i - d]?).getD none) ((xs[i]?).getD none) else ((xs[i]?).getD none, 0))
  (rs.map Prod.fst, rs.foldl (fun m r => m ||| r.2) 0)

/-- TreeScan of R82, from distance d on. -/
def treeScan (e : Env) (op : Nat) : Nat → Nat → List (Option Nat) → List (Option Nat) × FpFlags
  | 0, _, xs => (xs, 0)
  | k + 1, d, xs =>
    let (ys, fl) := scanLevel e op d xs
    let (r, gl) := treeScan e op k (2 * d) ys
    (r, fl ||| gl)

/-- The tree's inputs over the group's width. -/
def redInputs (e : Env) (op : Nat) : List (Option Nat) :=
  (List.range e.s.width).map (fun l =>
    if e.act.contains l then some (e.a l % 2 ^ e.ty.bits) else redIdentity e.ty op)

/-- R82: the value of a tree to which no lane contributes. -/
def redEmpty (t : Ty) (op : Nat) : Nat := t.fmt.withSign (op != 1) t.fmt.infEnc

/-- R201: AND, OR and XOR under a float type, and rnd3 where no rounding takes place, are illegal. sat is taken, and ignored,
where nothing is rounded or wraps (log 67). -/
def redTy (f : LaneWord) (t : Ty) : Bool :=
  let op := f.opC.toNat % 8
  (t.isIntB || t.isArith) && !(t.isArith && decide (3 ≤ op)) && (f.rnd == 0 || (t.isArith && op == 0))

/-- R201. -/
def execVred (f : LaneWord) (s : State) : Result :=
  withEnv (envT s (.vred f) f (redTy f) rT rNo rNo) (fun e =>
    let op := f.opC.toNat % 8
    let (r, fl) := treeReduce e op (Nat.log2 e.s.width) (redInputs e op)
    let v := r.getD (redEmpty e.ty op)
    finishFp e [(wholeLane e.s f, fl)] none (fun s =>
      (writeScalar s (f.dst.setWidth 6) (BitVec.ofNat 64 (image64 e.ty v))).nextLane))
/-- R201. -/
def execVscan (f : LaneWord) (s : State) : Result :=
  withEnv (envT s (.vscan f) f (redTy f) rT rNo rNo) (fun e =>
    let op := f.opC.toNat % 8
    let (rs, fl) := treeScan e op (Nat.log2 e.s.width) 1 (redInputs e op)
    finishFp e [(wholeLane e.s f, fl)] none (fun s =>
      (writeVec s f (isWide e) (e.act.map (fun l =>
        (l, moveImage e.ty (((rs[l]?).getD none).getD (redEmpty e.ty op)))))).nextLane))
/-- R203. -/
def execVballot (f : LaneWord) (s : State) : Result :=
  .next (writeScalar s (f.dst.setWidth 6) (BitVec.ofNat 64 (maskOf ((activeLanes s f).filter
    (fun l => s.grp.pred (f.opA.toNat % 8) l))))).nextLane

/-- Insert into a list sorted by a key. -/
def insertKey (x : Int × Nat) : List (Int × Nat) → List (Int × Nat)
  | [] => [x]
  | y :: ys => if x.1 ≤ y.1 then x :: y :: ys else y :: insertKey x ys

def sortKeys (xs : List (Int × Nat)) : List (Int × Nat) := xs.foldr insertKey []

/-- R204: integers by value, floats by totalOrder. -/
def sortKey (t : Ty) (v : Nat) : Int := if t.isFloat then totalKey t v else readInt t v

/-- R204. -/
def execVsort (f : LaneWord) (s : State) : Result :=
  withEnv (envT s (.vsort f) f (fun t => t.isIntB || t.isArith) rT rNo rNo) (fun e =>
    let vs := (sortKeys (e.act.map (fun l => (sortKey e.ty (e.a l), e.a l)))).map Prod.snd
    let vs := if f.opC.toNat % 2 == 1 then vs.reverse else vs
    (writeVec e.s f (isWide e) (e.act.zip (vs.map (moveImage e.ty)))).nextLane)

/-- R205: a VQIN pushes the words that the buffer has room for, the others when it has room again. -/
def vqinPush (g : Group) (fi q : Nat) (ws : List Dword) : Group × Bool :=
  let k := min (16 - (mapGet [] g.pushq q).length) ws.length
  let g' := (ws.take k).foldl (fun g w => g.push q w) { g with vqin := g.vqin.filter (fun p => p.1 != fi) }
  if k == ws.length then (g', true) else ({ g' with vqin := (fi, q, ws.drop k) :: g'.vqin }, false)

/-- R205, R133: once a VQIN has begun, it has popped its operand, and no other word enters between its words. Which queue
register is reported where both are unbound: the operand's (log 68). -/
def execVqin (f : LaneWord) (s : State) : Result :=
  let q := f.dst.toNat % 16
  let fi := s.cur.frag
  let go (s : State) (ws : List Dword) : State :=
    let (g, done) := vqinPush s.grp fi q ws
    if done then (s.setGrp g).nextLane else s.setGrp g
  match s.grp.vqin.find? (fun p => p.1 == fi) with
  | some p => .next (go s p.2.2)
  | none => withEnv (match envT s (.vqin f) f anyTy rT rNo rNo with
    | .ok e => if kindOf s.grp q == 0 then
        .error (deliver s { laneReport s f 0x0D (wholeLane s f) with info := BitVec.ofNat 64 q })
      else if blockHeld s.grp then .error s else .ok e
    | .error x => .error x) (fun e =>
    let ws := e.act.map (fun l => BitVec.ofNat 64 (image64 e.ty (e.a l)))
    if !ws.isEmpty && (s.grp.vqinOn q || !s.grp.pushRoom q 1) then s else go e.s ws)

end Sys2Proof.Machine
end

