-- ==== Sys2Proof/Machine/Remote.lean ====
section
/-! DEFINITION. The release of the side buffer (R133) and the end of a block (R130, R228). -/

namespace Sys2Proof.Machine

/-! ### The side buffer (R133) -/

/-- What comes of releasing an entry. -/
inductive Released where
  | gone (s : State)
  | stay (s : State)

/-- Perform a released store as an ordinary store (R133). A page that has gone meanwhile makes the store trap or
park as its own instruction, from its own SPC (R134); a directory of another package is asked first. -/
def releaseStore (s : State) (e : SideEntry) : Released :=
  match groupAccess s e.va e.size needW with
  | .ok a =>
    if a.needDir then
      match directoryStep s e.ckpt.spc e.va a with
      | .wait s' => .stay s'
      | .fail c =>
        .stay (strandTrapAfter
          (s.setGrp { s.grp with st := { e.ckpt with later := [] }, blocks := [], side := [], slds := [] })
          { code := c, addr := e.va, info := BitVec.ofNat 64 (directoryPkg s a) } (fun t => dropRemote t e.ckpt.spc))
      | .done _ _ => .stay (dropRemote s e.ckpt.spc)
    else .gone (performStore (noteAccess s e.va a) e.ckpt.spc e.va a e.size e.data)
  | .error f =>
    let s := s.setGrp { s.grp with st := { e.ckpt with later := [] }, blocks := [], side := [], slds := [] }
    .stay (strandFault s f e.va 1)

/-- R133: entries held behind no block leave in program order, a push waiting for room holding back the rest. -/
def releaseSide (s : State) : Nat → State
  | 0 => s
  | fuel + 1 =>
    let g := s.grp
    match g.side with
    | [] => s
    | e :: rest =>
      if e.behind ≠ 0 then s
      else if e.isPush then
        if g.pushRoom e.q 1 && !g.vqinOn e.q then releaseSide (s.setGrp ({ g with side := rest }.push e.q e.data)) fuel else s
      else match releaseStore s e with
        | .gone s' => releaseSide (s'.setGrp { s'.grp with side := s'.grp.side.tail }) fuel
        | .stay s' => s'

/-- R133: a waiting entry of the side buffer leaves. -/
def execSideBufferRelease (g : Nat) (s : State) : Result :=
  let s := { s with cur := { s.cur with grp := g } }
  .next (if (s.group g).run == .resident then releaseSide s 16 else s)

/-- R228: the early load of the ended block that one of its stores overlaps. -/
def earlyConflict (g : Group) (b : Block) : Option EarlyLoad :=
  g.slds.find? (fun l => l.behind != 0 && b.wrote.any (fun w => w.1 < l.loc + l.size && l.loc < w.1 + w.2))

/-- R228: loads of the strand from other packages, still under way or not yet taken, whose bytes the ended block has
written; they are made again. -/
def dropWritten (s : State) (gi : Nat) (b : Block) : State :=
  let dpa (key : Nat) : Nat := key / 2 ^ 100 * 2 ^ 46 + key % 2 ^ 100
  let hit (a n : Nat) : Bool := b.wrote.any (fun w => decide (dpa w.1 < a + n) && decide (a < dpa w.1 + w.2))
  { s with remote := s.remote.filter (fun r => !(r.grp == gi && !bit r.pc.toNat 63 && (match r.op with
    | .load n => hit r.addr n
    | _ => false))) }

/-- R130, R133, R165, R228: the oldest block ends: its pending marks go, the next block captures the registers that
were pending as its LRUN left them (log 22), side-buffer entries behind it leave, a conflicting early load is executed
again, and the next block starts. -/
def endBlock (s : State) : State :=
  let gi := s.cur.grp
  let g := s.grp
  match g.blocks with
  | [] => s
  | b :: rest =>
    let dec (n : Nat) : Nat := n - 1
    let confl := earlyConflict g b
    let keep (q : Nat) : Bool := match confl with
      | some l => decide (q < l.seq)
      | none => true
    let st := match confl with
      | some l => l.ckpt
      | none => g.st
    let fix (x : Block) : Block := { x with
      scal := (maskList 64 x.late).foldl (fun m r => mapSet 0 m r (mapGet 0 x.ckpt.regs r)) x.scal
      late := 0
      ckpt := x.ckpt.blockOver }
    let g := { g with
      st := st.blockOver
      blocks := (rest.filter (fun x => keep x.seq)).map fix
      side := (g.side.filter (fun e => keep e.seq)).map (fun e =>
        { e with behind := dec e.behind, ckpt := e.ckpt.blockOver })
      slds := (g.slds.filter (fun e => keep e.seq && e.behind != 1)).map (fun e =>
        { e with behind := dec e.behind, ckpt := e.ckpt.blockOver })
      frags := []
      recon := []
      spilled := []
      abind := 0
      taken := [] }
    let s := loseLatches (s.setGroup gi g) g
    let s := if confl.isSome then dropLoads s gi else dropWritten s gi b
    startBlock (releaseSide s 16) gi

end Sys2Proof.Machine
end

