-- ==== Sys2Proof/Machine/Scalar.lean ====
section
/-! DEFINITION. Strand instructions without memory access: register arithmetic (R153, R154), immediates and SLIT
(R155-R157), transfers (R158-R164), lane blocks (R165, R166), format and axes (R167, R239), queue registers (R168). -/

namespace Sys2Proof.Machine

/-! ### Register arithmetic (R153) -/

/-- Write d and move on: an instruction over the source registers named. -/
def aluOp (s : State) (d : BitVec 6) (srcs : List (BitVec 6)) (v : Dword) : Result :=
  strandFree s (d :: srcs) (s.wb d v)

def boolDword (b : Bool) : Dword := if b then 1 else 0

def execSadd (d a b : BitVec 6) (s : State) : Result := aluOp s d [a, b] (s.reg a + s.reg b)
def execSsub (d a b : BitVec 6) (s : State) : Result := aluOp s d [a, b] (s.reg a - s.reg b)
def execSmul (d a b : BitVec 6) (s : State) : Result := aluOp s d [a, b] (s.reg a * s.reg b)
/-- Bits 127:64 of the signed product. -/
def execSmulh (d a b : BitVec 6) (s : State) : Result :=
  aluOp s d [a, b] (BitVec.ofInt 64 ((s.reg a).toInt * (s.reg b).toInt / 2 ^ 64))

/-- R154: the quotient or remainder, or INT_DIVIDE_ZERO. -/
def divOp (s : State) (d a b : BitVec 6) (v : Dword) : Result :=
  strandFree s [d, a, b] (if s.reg b = 0 then trapCode s 0x12 else s.wb d v)

def execSdiv (d a b : BitVec 6) (s : State) : Result := divOp s d a b (BitVec.sdiv (s.reg a) (s.reg b))
def execSrem (d a b : BitVec 6) (s : State) : Result := divOp s d a b (BitVec.srem (s.reg a) (s.reg b))
def execSand (d a b : BitVec 6) (s : State) : Result := aluOp s d [a, b] (s.reg a &&& s.reg b)
def execSor (d a b : BitVec 6) (s : State) : Result := aluOp s d [a, b] (s.reg a ||| s.reg b)
def execSxor (d a b : BitVec 6) (s : State) : Result := aluOp s d [a, b] (s.reg a ^^^ s.reg b)
/-- The amount is b<5:0>. -/
def execSshl (d a b : BitVec 6) (s : State) : Result := aluOp s d [a, b] (s.reg a <<< ((s.reg b).toNat % 64))
def execSshr (d a b : BitVec 6) (s : State) : Result := aluOp s d [a, b] (s.reg a >>> ((s.reg b).toNat % 64))
def execSsra (d a b : BitVec 6) (s : State) : Result :=
  aluOp s d [a, b] ((s.reg a).sshiftRight ((s.reg b).toNat % 64))
def execSmin (d a b : BitVec 6) (s : State) : Result :=
  aluOp s d [a, b] (if (s.reg a).slt (s.reg b) then s.reg a else s.reg b)
def execSmax (d a b : BitVec 6) (s : State) : Result :=
  aluOp s d [a, b] (if (s.reg a).slt (s.reg b) then s.reg b else s.reg a)
def execSminu (d a b : BitVec 6) (s : State) : Result :=
  aluOp s d [a, b] (if (s.reg a).ult (s.reg b) then s.reg a else s.reg b)
def execSmaxu (d a b : BitVec 6) (s : State) : Result :=
  aluOp s d [a, b] (if (s.reg a).ult (s.reg b) then s.reg b else s.reg a)
def execSslt (d a b : BitVec 6) (s : State) : Result := aluOp s d [a, b] (boolDword ((s.reg a).slt (s.reg b)))
def execSsltu (d a b : BitVec 6) (s : State) : Result := aluOp s d [a, b] (boolDword ((s.reg a).ult (s.reg b)))
def execSseq (d a b : BitVec 6) (s : State) : Result := aluOp s d [a, b] (boolDword (s.reg a == s.reg b))

/-- Leading zero bits of a 64-bit value, 0 to 64. -/
def leadingZeros (x : Nat) : Nat := if x = 0 then 64 else 63 - Nat.log2 x

def execSclz (d a : BitVec 6) (s : State) : Result :=
  aluOp s d [a] (BitVec.ofNat 64 (leadingZeros (s.reg a).toNat))
def execSpopc (d a : BitVec 6) (s : State) : Result :=
  aluOp s d [a] (BitVec.ofNat 64 (maskList 64 (s.reg a).toNat).length)
def execSsel (d a b c : BitVec 6) (s : State) : Result :=
  aluOp s d [a, b, c] (if s.reg c = 0 then s.reg b else s.reg a)

/-! ### Immediates (R155, R156) -/

/-- A 14-bit field sign-extended (R89). -/
def imm14 (i : BitVec 14) : Dword := i.signExtend 64

/-- The 40-bit immediate of an SLIT pair (R90). -/
def imm40 (l : BitVec 26) (i : BitVec 14) : Dword := (l ++ i).signExtend 64

/-- An immediate operation whose next word is at `n`. -/
def immOp (s : State) (d a : BitVec 6) (v n : Dword) : Result := strandFree s [d, a] ((s.setReg d v).setSpc n)

def execSaddi (d a : BitVec 6) (i : BitVec 14) (s : State) : Result := immOp s d a (s.reg a + imm14 i) s.next
def execSandi (d a : BitVec 6) (i : BitVec 14) (s : State) : Result := immOp s d a (s.reg a &&& imm14 i) s.next
def execSori (d a : BitVec 6) (i : BitVec 14) (s : State) : Result := immOp s d a (s.reg a ||| imm14 i) s.next
def execSxori (d a : BitVec 6) (i : BitVec 14) (s : State) : Result := immOp s d a (s.reg a ^^^ imm14 i) s.next
def execSshli (d a n : BitVec 6) (s : State) : Result := aluOp s d [a] (s.reg a <<< n.toNat)
def execSshri (d a n : BitVec 6) (s : State) : Result := aluOp s d [a] (s.reg a >>> n.toNat)
def execSsrai (d a n : BitVec 6) (s : State) : Result := aluOp s d [a] ((s.reg a).sshiftRight n.toNat)

/-! ### Branches and jumps (R158-R160) -/

/-- R158: when a branch is taken. -/
def branchTaken (c : BranchCond) (x y : Dword) : Bool :=
  match c with
  | .eq => x == y
  | .ne => x != y
  | .lt => x.slt y
  | .ge => !x.slt y
  | .ltu => x.ult y
  | .geu => !x.ult y

/-- R158: a branch by a word offset from the next instruction `n`. -/
def branchOp (c : BranchCond) (s : State) (a b : BitVec 6) (off n : Dword) : Result :=
  strandFree s [a, b] (s.setSpc (if branchTaken c (s.reg a) (s.reg b) then n + 4 * off else n))

def execSbeq (a b : BitVec 6) (o : BitVec 14) (s : State) : Result := branchOp .eq s a b (imm14 o) s.next
def execSbne (a b : BitVec 6) (o : BitVec 14) (s : State) : Result := branchOp .ne s a b (imm14 o) s.next
def execSblt (a b : BitVec 6) (o : BitVec 14) (s : State) : Result := branchOp .lt s a b (imm14 o) s.next
def execSbge (a b : BitVec 6) (o : BitVec 14) (s : State) : Result := branchOp .ge s a b (imm14 o) s.next
def execSbltu (a b : BitVec 6) (o : BitVec 14) (s : State) : Result := branchOp .ltu s a b (imm14 o) s.next
def execSbgeu (a b : BitVec 6) (o : BitVec 14) (s : State) : Result := branchOp .geu s a b (imm14 o) s.next

/-- R159. -/
def execSjmp (o : BitVec 20) (s : State) : Result := .next (s.setSpc (s.next + 4 * o.signExtend 64))
/-- R159. -/
def execScall (d : BitVec 6) (o : BitVec 20) (s : State) : Result :=
  strandFree s [d] ((s.setReg d s.next).setSpc (s.next + 4 * o.signExtend 64))

/-- R161: a computed address is tested before SPC changes. -/
def targetFault (t : Dword) : Option Nat :=
  if t.toNat % 4 ≠ 0 then some 0x05 else if 2 ^ 54 ≤ t.toNat then some 0x07 else none

/-- R160. -/
def execSret (a : BitVec 6) (s : State) : Result :=
  strandFree s [a] (match targetFault (s.reg a) with
    | some c => strandTrap s { code := c, addr := s.reg a }
    | none => s.setSpc (s.reg a))

/-- R162: the word of SPAD with a label. -/
def spadWord (label : Nat) : Nat := 0x50300000 + label

/-- R162: a transfer to a landing pad with a label, which then makes `k` of the state. -/
def landAt (s : State) (t : Dword) (label : Nat) (k : State → State) : State :=
  match targetFault t with
  | some c => strandTrap s { code := c, addr := t }
  | none => match fetchScalar s t 3 with
    | .error f => strandFault s f t 3
    | .ok w => if w = spadWord label then k s else trapCode s 0x03

/-- R163. -/
def execScallr (a : BitVec 6) (l : BitVec 12) (s : State) : Result :=
  strandFree s [a, 63] (landAt s (s.reg a) l.toNat (fun s' => (s'.setReg 63 s.next).setSpc (s.reg a)))

/-- R164: dispatch through a table at a word offset from the next instruction `n`. -/
def jumpTable (s : State) (a : BitVec 6) (off n : Dword) : Result :=
  let tab := n + 4 * off
  let k := s.reg a
  strandFree s [a] (match fetchScalar s tab 1 with
    | .error f => strandFault s f tab 3
    | .ok bound =>
      if bound ≤ k.toNat then trapCode s 0x04
      else
        let ea := tab + 4 * (k + 1)
        match fetchScalar s ea 2 with
        | .error f => strandFault s f ea 3
        | .ok e =>
          let t := tab + 4 * (BitVec.ofNat 20 (e / 2 ^ 12)).signExtend 64
          landAt s t (e % 2 ^ 12) (fun s' => s'.setSpc t))

def execSjtab (a : BitVec 6) (o : BitVec 14) (s : State) : Result := jumpTable s a (imm14 o) s.next

/-- R162: acts as SNOP. -/
def execSpad (_l : BitVec 12) (s : State) : Result := .next s.advance

/-- R174: changes only SPC. -/
def execSnop (s : State) : Result := .next s.advance

/-! ### SLIT (R90, R157) -/

/-- R90: a pair executes as one instruction, at the SLIT's SPC. SPREF changes nothing that the model holds (R217,
R230). -/
def execSlit (l : BitVec 26) (f : LitUser) (s : State) : Result :=
  let n := s.spc + 8
  match f with
  | .addi d a i => immOp s d a (s.reg a + imm40 l i) n
  | .andi d a i => immOp s d a (s.reg a &&& imm40 l i) n
  | .ori d a i => immOp s d a (s.reg a ||| imm40 l i) n
  | .xori d a i => immOp s d a (s.reg a ^^^ imm40 l i) n
  | .pref _ a _ => strandFree s [a] (s.setSpc n)
  | .branch c a b o => branchOp c s a b (imm40 l o) n
  | .jtab a o => jumpTable s a (imm40 l o) n
  | .other _ => .next (trapCode s 0x01)

/-! ### Lane blocks (R165, R166) -/

/-- R165: capture and enqueue a block. -/
def enqueueBlock (s : State) (l : BitVec 26) : State :=
  let g := s.grp
  let lc := (s.launchOf g).lcount
  let pend := pendingScan s lc lc l.toNat 0
  let late := g.blocks.foldl (fun m b => maskOf (maskList 64 m ++ maskList 64 b.pending)) 0
  let st : Strand := { g.st with spc := s.next, later := g.st.later ++ [0] }
  let b : Block := {
    start := l.toNat
    scal := g.st.regs
    fmt := g.st.fmt
    axis := g.st.axis
    pending := pend
    late := late
    ckpt := st
    wrote := []
    seq := s.tick }
  let s' := s.setGrp { g with st := st, blocks := g.blocks ++ [b] }
  if g.blocks.isEmpty then startBlock s' s.cur.grp else s'

/-- R165, R254: LRUN raises ILLEGAL_INSN in a handler; a third block stalls the strand. -/
def execLrun (l : BitVec 26) (s : State) : Result :=
  .next (if s.grp.inh then trapCode s 0x01
    else if 2 ≤ s.grp.blocks.length then s
    else enqueueBlock s l)

/-- R166. -/
def execLwait (s : State) : Result := strandSerial s s.advance

/-! ### Format and axes (R80, R167, R239) -/

/-- R80. -/
def fmtOk (v : Dword) : Bool :=
  let n := v.toNat
  bits n 63 32 == 0 && bits n 6 0 == 0 && decide (bits n 31 27 ≤ 16) && decide (bits n 26 22 ≤ 16) &&
  decide (bits n 15 13 ≤ 4)

/-- R238, R239. -/
def axisOk (v : Dword) : Bool :=
  let n := v.toNat
  let ty := bits n 15 11
  bits n 63 24 == 0 && bits n 3 0 == 0 && (ty == 0 || (decide (13 ≤ ty) && decide (ty ≤ 16))) &&
  !((ty == 13 || ty == 14) && (bits n 10 9 != 2 || bit n 5))

def State.setFmt (s : State) (v : Dword) : State :=
  s.setGrp { s.grp with st := { s.grp.st with fmt := v } }
def State.setAxis (s : State) (n : Nat) (v : Dword) : State :=
  s.setGrp { s.grp with st := { s.grp.st with axis := mapSet 0 s.grp.st.axis n v } }

def execSfmt (a : BitVec 6) (s : State) : Result :=
  strandFree s [a] (if fmtOk (s.reg a) then (s.setFmt (s.reg a)).advance else trapCode s 0x02)

/-- FMT with AFMT and BFMT replaced. -/
def fmtWith (v : Dword) (a b : BitVec 5) : Dword :=
  BitVec.ofNat 64 (v.toNat / 2 ^ 32 * 2 ^ 32 + a.toNat * 2 ^ 27 + b.toNat * 2 ^ 22 + v.toNat % 2 ^ 22)

def execSfmtAb (a b : BitVec 5) (s : State) : Result :=
  let v := fmtWith s.grp.st.fmt a b
  .next (if fmtOk v then (s.setFmt v).advance else trapCode s 0x02)

def execSaxis (n : BitVec 2) (a : BitVec 6) (s : State) : Result :=
  strandFree s [a] (if axisOk (s.reg a) then (s.setAxis n.toNat (s.reg a)).advance else trapCode s 0x02)

/-! ### Queue registers (R168, R169) -/

/-- QUEUE_BIND, with the queue register in INFO (R253). -/
def queueTrap (s : State) (n : Nat) : State := strandTrap s { code := 0x0D, info := BitVec.ofNat 64 n }

/-- R168: a serialising pop. -/
def execSqin (d : BitVec 6) (n : BitVec 4) (s : State) : Result :=
  let q := n.toNat
  strandSerial s (if kindOf s.grp q = 0 then queueTrap s q
    else match mapGet [] s.grp.popq q with
      | [] => s
      | v :: vs => (s.setGrp { s.grp with popq := mapSet [] s.grp.popq q vs }).wb d v)

/-- R133: how many blocks an entry made now is held behind. -/
def Group.behind (g : Group) : Nat := if g.inh then 0 else g.blocks.length

/-- R133: take a side-buffer entry; a full buffer stalls the strand. -/
def sideEntry (s : State) (isPush : Bool) (q : Nat) (va : Dword) (loc size : Nat) (data : Dword) : State :=
  let g := s.grp
  if 16 ≤ g.side.length then s
  else
    let e : SideEntry := ⟨isPush, g.behind, q, va, loc, size, data, g.st, s.tick⟩
    (s.setGrp { g with side := g.side ++ [e] }).advance

/-- R168, R169: a push; under run-ahead it takes a side-buffer entry. -/
def execSqout (a : BitVec 6) (n : BitVec 4) (s : State) : Result :=
  let q := n.toNat
  let g := s.grp
  strandFree s [a] (if kindOf g q = 0 then queueTrap s q
    else if g.behind ≠ 0 || !g.side.isEmpty then sideEntry s true q 0 0 0 (s.reg a)
    else if g.pushRoom q 1 && !g.vqinOn q then (s.setGrp (g.push q (s.reg a))).advance
    else s)

end Sys2Proof.Machine
end

