-- ==== Sys2Proof/Machine/StrandMemory.lean ====
section
/-! DEFINITION. Strand memory instructions (R227-R230), phases and fences (R37, R45, R47, R231, R232). -/

namespace Sys2Proof.Machine

/-! ### SLD and SST (R227) -/

/-- R94: the size of a size code. -/
def sizeOf3 (z : BitVec 3) : Nat :=
  match z.toNat with
  | 0 | 1 => 1
  | 2 | 3 => 2
  | 4 | 5 => 4
  | _ => 8

/-- R227: a loaded value extended as its size code says. -/
def extendLoad (z : BitVec 3) (v : Nat) : Dword :=
  match z.toNat with
  | 0 => BitVec.ofInt 64 (sext 8 v)
  | 2 => BitVec.ofInt 64 (sext 16 v)
  | 4 => BitVec.ofInt 64 (sext 32 v)
  | _ => BitVec.ofNat 64 v

/-- Forget the requests of the strand's instruction. -/
def dropOwn (s : State) : State := dropRemote s s.spc

/-- R429: a remote step failed: REMOTE_FAULT or REMOTE_TIMEOUT, with the target package in INFO. Under run-ahead it is kept
until the instruction commits (R134). -/
def remoteTrap (s : State) (code : Nat) (va : Dword) (pkg : Nat) : State :=
  if s.grp.ahead then s
  else strandTrapAfter s { code := code, addr := va, info := BitVec.ofNat 64 pkg } dropOwn

/-- Wait for what the access needs of another package first; the instruction then goes on (R334, R335). -/
def askDirectory (s : State) (va : Dword) (a : Acc) : State :=
  match directoryStep s s.spc va a with
  | .wait s' => s'
  | .fail c => remoteTrap s c va (directoryPkg s a)
  | .done _ _ => dropRemote s s.spc

/-- The newest buffered store that overlaps a byte range (R133). -/
def buffered (g : Group) (key size : Nat) : Option SideEntry :=
  g.side.reverse.find? (fun e => !e.isPush && decide (e.loc < key + size) && decide (key < e.loc + e.size))

/-- The page makes SLD serialising (R132): not CACHED, or the register region. -/
def sldSerial (a : Acc) : Bool := a.home != 0 || a.reg

/-- The end of an SLD: under run-ahead it is noted as an early load (R228). `s0` is the state in which it began. -/
def sldDone (s0 s : State) (d : BitVec 6) (a : Acc) (size : Nat) (v : Dword) : State :=
  let s1 := s.wb d v
  let n := s0.grp.behind
  if n = 0 then s1
  else s1.setGrp { s1.grp with slds := s1.grp.slds ++ [⟨n, a.key, size, s0.grp.st, s0.tick⟩] }

/-- An SLD from memory, a register or another package. -/
def sldRead (s : State) (d : BitVec 6) (va : Dword) (z : BitVec 3) (a : Acc) : State :=
  let size := sizeOf3 z
  if a.needDir then askDirectory s va a
  else if a.pkg != s.pkg then
    match remoteStep (noteAccess s va a) s.spc va a.dpa (.load size) with
    | .wait s' => s'
    | .fail c => remoteTrap s c va a.pkg
    | .done bs p =>
      if p != 0 then remoteTrap s 0x19 va 0
      else sldDone s (dropRemote s s.spc) d a size (extendLoad z (natOfBytes (bs.take size)))
  else if a.reg then s.wb d (extendLoad z (unitPart (regValue s a.loc) (a.loc % 8) size))
  else match loadClean (noteAccess s va a) s.cur.grp a size 8 with
    | some (v, s1) => sldDone s s1 d a size (extendLoad z (unitPart v (a.loc % 8) size))
    | none => strandTrap s { code := 0x19, addr := va }

/-- R132, R133, R227: an SLD at a tested access. A serialising one finds an empty side buffer. -/
def sldAt (s : State) (d : BitVec 6) (va : Dword) (z : BitVec 3) (a : Acc) : State :=
  let size := sizeOf3 z
  let g := s.grp
  if sldSerial a && !g.quiet then s
  else match buffered g a.key size with
  | some e =>
    if e.loc ≤ a.key ∧ a.key + size ≤ e.loc + e.size then
      sldDone s s d a size (extendLoad z (e.data.toNat / 2 ^ (8 * (a.key - e.loc)) % 2 ^ (8 * size)))
    else s
  | none => sldRead s d va z a

def execSld (d a : BitVec 6) (z : BitVec 3) (o : BitVec 11) (s : State) : Result :=
  let va := s.reg a + o.signExtend 64
  strandFree s [d, a] (match groupAccess s va (sizeOf3 z) needR with
    | .error f => strandFault s f va 0
    | .ok x => sldAt s d va z x)

/-- R133, R227: an SST at a tested access. -/
def sstAt (s : State) (va : Dword) (z : BitVec 3) (a : Acc) (v : Dword) : State :=
  let g := s.grp
  if a.needDir then askDirectory s va a
  else if g.behind ≠ 0 || !g.side.isEmpty then sideEntry s false 0 va a.key (sizeOf3 z) v
  else (performStore (noteAccess s va a) s.spc va a (sizeOf3 z) v).advance

def execSst (d a : BitVec 6) (z : BitVec 3) (o : BitVec 11) (s : State) : Result :=
  let va := s.reg a + o.signExtend 64
  strandFree s [d, a] (match groupAccess s va (sizeOf3 z) needW with
    | .error f => strandFault s f va 1
    | .ok x => sstAt s va z x (s.reg d))

/-- R217, R230: changes no value that an access returns. -/
def execSpref (_h : BitVec 2) (a : BitVec 6) (_i : BitVec 14) (s : State) : Result := strandFree s [a] s.advance

/-! ### Atomics (R42, R43, R229) -/

def hasAcq (r : Nat) : Bool := r == 1 || r == 3
def hasRel (r : Nat) : Bool := r == 2 || r == 3

/-- R94: the new value of a 64-bit atomic, or none where a compare fails. -/
def satomNew (op : Nat) (old v exp : Dword) : Option Dword :=
  match op with
  | 0 => some (old + v)
  | 1 => some (old &&& v)
  | 2 => some (old ||| v)
  | 3 => some (old ^^^ v)
  | 4 => some (if old.slt v then old else v)
  | 5 => some (if old.slt v then v else old)
  | 6 => some v
  | _ => if old = exp then some v else none

/-- The type code of the 64-bit signed atomic in a remote request. -/
def tyI64 : Nat := 6

/-- One 64-bit atomic on this package's memory or a register: the old value. -/
def satomLocal (s : State) (a : Acc) (op : Nat) (v exp : Dword) : Dword × State :=
  if a.reg then
    let old := regValue s a.loc
    (old, match satomNew op old v exp with
      | some n => regStore s a.loc 8 n
      | none => s)
  else
    let s := atomicPrepare s s.cur.grp a
    let old := atomicRead s s.cur.grp a
    (old, match satomNew op old v exp with
      | some n => atomicWrite s s.cur.grp a allOnes64 n
      | none => setSeen s s.cur.grp (a.loc / 8) s.ord)

/-- R229 at a tested access. -/
def satomAt (s : State) (d : BitVec 6) (va : Dword) (a : Acc) (op r sc : Nat) (v : Dword) : State :=
  let g := s.cur.grp
  let fin (s : State) (old : Dword) : State := ((if hasAcq r then ref s g sc else s).setReg d old).advance
  if a.needDir then askDirectory s va a
  else if a.pkg != s.pkg then
    let issued := (remOf s s.spc a.dpa).isSome
    if !issued && hasRel r && !pubReady s g sc then pub s g sc
    else
      let s0 := if !issued && hasRel r then pub s g sc else s
      match remoteStep (noteAccess s0 va a) s.spc va a.dpa (.atomic tyI64 op v (s.reg d)) with
      | .wait s' => s'
      | .fail c => remoteTrap s c va a.pkg
      | .done bs p =>
        if p != 0 then strandTrapAfter s { code := 0x19, addr := va } dropOwn
        else fin (dropRemote s s.spc) (BitVec.ofNat 64 (natOfBytes (bs.take 8)))
  else if !a.reg && poisonedFor s g a then strandTrap s { code := 0x19, addr := va }
  else if hasRel r && !pubReady s g sc then pub s g sc
  else
    let s0 := if hasRel r then pub s g sc else s
    let (old, s1) := satomLocal (noteAccess s0 va a) a op v (s.reg d)
    fin s1 old

def execSatom (d a b : BitVec 6) (o : BitVec 3) (r : BitVec 2) (sc : BitVec 3) (s : State) : Result :=
  let va := s.reg a
  strandSerial s (match groupAccess s va 8 needRW with
    | .error f => strandFault s f va 2
    | .ok x => satomAt s d va x o.toNat r.toNat sc.toNat (s.reg b))

/-! ### Path classes (R21, R45) -/

/-- The class of an engine kind (R21, R148): COPY 2, GATHER 3, COLL 5, DOT and SRCH 4. -/
def kindClass (k : Nat) : Nat :=
  match k with
  | 1 => 2
  | 2 => 3
  | 3 => 5
  | _ => 4

/-- A push buffer holds a whole command, or a word that no command starts with. -/
def holdsCommand (g : Group) (q : Nat) : Bool :=
  match mapGet [] g.pushq q with
  | [] => false
  | w :: ws => match cmdLength (cmdOpc w) with
    | some n => decide (n ≤ ws.length + 1)
    | none => true

/-- Commands of a group on the classes of a mask that have not completed their writes: pushed, accepted or
deferred. -/
def engineBusy (s : State) (gi m : Nat) : Bool :=
  let g := s.group gi
  (List.range 16).any (fun q => kindOf g q != 0 && bit m (kindClass (kindOf g q)) && holdsCommand g q) ||
  s.cmds.any (fun c => c.grp == gi && c.state != .done && bit m (kindClass c.eng))

/-- R45, R284: matrix operations of a group, with every rendezvous in which it has an arrival. -/
def matrixBusy (s : State) (gi : Nat) : Bool :=
  s.mops.any (fun o => o.members.contains gi) || s.rendezvous.any (fun r => r.arrived.contains gi)

/-- R47: commands on the classes of a mask that were accepted before a stamp, from any group of a core. -/
def coreBusy (s : State) (core m before : Nat) : Bool :=
  s.cmds.any (fun c => (s.group c.grp).core == core && c.state != .done && decide (c.id < before) &&
    bit m (kindClass c.eng)) ||
  (bit m 1 && s.mops.any (fun o => o.core == core && decide (o.id < before)))

/-- Posted remote stores of a group that are not yet acknowledged (R22). -/
def postedOut (s : State) (gi : Nat) : Bool :=
  s.remote.any (fun r => r.grp == gi && r.op.isStore && (r.state == .held || r.state == .sent))

/-- Entries that a list does not hold yet, put before it. -/
def addNew {α : Type} [DecidableEq α] (xs ys : List α) : List α := xs.filter (fun x => !ys.contains x) ++ ys

/-- Engine writes become visible to the group's later accesses of the classes of a mask (R45, R48). A later ordinary load
returns them or newer values. -/
def seeWrites (s : State) (gi m : Nat) (ws : List (Nat × Nat × Nat)) : State :=
  let g := s.group gi
  let seen := if bit m 0 then ws.foldl (fun t w =>
    if mapGet 0 t w.2.1 < w.2.2 then mapSet 0 t w.2.1 w.2.2 else t) g.seen else g.seen
  let vis := (maskList 7 m).flatMap (fun c => ws.map (fun w => (c, w.2.1, w.2.2)))
  s.setGroup gi { g with seen := seen, vis := addNew vis g.vis }

/-- R45: what XFENCE waits for. -/
def fenceReady (s : State) (gi m : Nat) : Bool :=
  !engineBusy s gi m && !(bit m 1 && matrixBusy s gi) && !(bit m 5 && postedOut s gi)

/-- R285: the matrix engine's writes to the local store that a fence waited for are performed there for every group of the
team. -/
def shutMatrix (s : State) (ws : List (Nat × Nat × Nat)) : State :=
  let hits (h : Hist) : Bool := h.shut == 0 && decide (2 ^ 60 ≤ h.unit) && ws.contains (1, h.unit, h.stamp)
  { s with
    ord := s.ord + 1
    hist := s.hist.map (fun h => if hits h then { h with shut := s.ord + 1 } else h) }

/-- R45: the effect of XFENCE once its waits are over, over the writes of earlier commands given. LANE stores are performed;
the writes become visible to later accesses of the mask's classes, as do those that LANE sees already; and later commands
of those classes see the group's stores. A mask of one class, LANE, orders nothing. -/
def fenceOver (s : State) (gi m : Nat) (ws : List (Nat × Nat × Nat)) : State :=
  if m = 1 then s
  else
    let ws := ws.filter (fun w => bit m w.1)
    let s := if bit m 0 then performDirty s (fun d => d.grp == gi && !d.cp) else s
    let s := if bit m 0 && bit m 1 then shutMatrix s ws else s
    let s := seeWrites s gi m ws
    if bit m 0 then
      let s := seeWrites s gi m (((s.group gi).vis.filter (fun v => v.1 == 0)).map (fun v => (0, v.2)))
      let g := s.group gi
      s.setGroup gi { g with fences := (maskList 7 m).foldl (fun f c => mapSet 0 f c s.ord) g.fences }
    else s

def fenceEffect (s : State) (gi m : Nat) : State := fenceOver s gi m (s.group gi).engw

/-! ### Deferred faults (R232) -/

/-- The deferred fault of the oldest store among those that have arrived. -/
def oldestDeferred : List Deferred → Option Deferred
  | [] => none
  | d :: ds => match oldestDeferred ds with
    | some e => if e.seq < d.seq then some e else some d
    | none => some d

/-- R232: the end of a fence: its own effect is complete in `s1`; the next instruction, then the oldest deferred remote
fault, if any. -/
def reportDeferred (s s1 : State) : State :=
  match oldestDeferred s1.grp.deferred with
  | none => s1.advance
  | some e =>
    match recordWait s with
    | some t => t
    | none =>
      let s2 := s1.advance
      let s2 := s2.setGrp { s2.grp with deferred := s2.grp.deferred.erase e }
      deliverNow s2 {
        code := e.code
        source := 2
        spc := s2.spc
        addr := e.addr
        dpc := e.pc
        fmt := s2.grp.st.fmt
        info := BitVec.ofNat 64 e.pkg }

/-! ### PHASE, XFENCE, DRAIN (R231) -/

/-- R34: a PHASE at .dom or wider is the preparatory step of a PGATTR for every line that its group has accessed. -/
def untouch (s : State) (g sc : Nat) : State := if sc < 4 then s else s.setGroup g { s.group g with touched := [] }

/-- R37: pub and ref as the kind says; PHASE.dom and wider wait for the acknowledgements. A ref bounds the group's code
fetches too (R152). -/
def phaseOp (s : State) (doPub doRef : Bool) (sc : Nat) : Result :=
  let g := s.cur.grp
  strandSerial s
    (let s1 := if doPub then pub s g sc else s
     if doPub && !pubReady s1 g sc then s1
     else
       let s2 := if doRef then codeRef (ref s1 g sc) g sc else s1
       reportDeferred s1 (if doPub && doRef then untouch s2 g sc else s2))

def execPhase (sc : BitVec 3) (s : State) : Result := phaseOp s true true sc.toNat
def execPhasePub (sc : BitVec 3) (s : State) : Result := phaseOp s true false sc.toNat
def execPhaseRef (sc : BitVec 3) (s : State) : Result := phaseOp s false true sc.toNat

/-- R45. -/
def execXfence (m : BitVec 7) (s : State) : Result :=
  let n := m.toNat
  strandSerial s (if !fenceReady s s.cur.grp n then s
    else
      let s1 := fenceEffect s s.cur.grp n
      if bit n 5 then reportDeferred s s1 else s1.advance)

/-- R47: a DRAIN remembers, at its first look, which commands it waits for. -/
def drainMark (g : Group) : Option Nat :=
  match g.wait with
  | .drain n => some n
  | _ => none

/-- R47: the writes of the commands of every group of a core. -/
def coreWrites (s : State) (core : Nat) : List (Nat × Nat × Nat) :=
  (s.groups.filter (fun x => x.core == core)).flatMap Group.engw

/-- R47: the core's commands first, then what XFENCE naming LANE and the mask waits for. -/
def execDrain (m : BitVec 7) (s : State) : Result :=
  let n := m.toNat
  let g := s.grp
  strandSerial s (
    let mark := (drainMark g).getD s.nextId
    if n ≠ 0 && (coreBusy s g.core n mark || !fenceReady s s.cur.grp n) then
      s.setGrp { g with wait := .drain mark }
    else
      let s0 := s.setGrp { g with wait := .none }
      let s1 := if n = 0 then s0 else fenceOver s0 s.cur.grp (maskSet n 0 true) (coreWrites s0 g.core)
      if bit n 5 then reportDeferred s s1 else s1.advance)

end Sys2Proof.Machine
end

