-- ==== Sys2Proof/Machine/LaneMemory.lean ====
section
/-! DEFINITION. Lane memory instructions (R214-R221), the local store (R29, R222), lane atomics (R223-R226). -/

namespace Sys2Proof.Machine

/-! ### Addresses (R214) -/

def w2Scale (w : Word) : Nat := w.toNat / 2 ^ 30
def w2Sgn (w : Word) : Bool := bit w.toNat 27
def w2Imm (w : Word) : Int := sext 24 w.toNat
def w2Atop (w : Word) : Nat := bits w.toNat 23 20
def w2Ord (w : Word) : Nat := bits w.toNat 19 18
def w2Scope (w : Word) : Nat := bits w.toNat 17 15
def w2Disp (w : Word) : Int := sext 15 w.toNat

/-- R214: the base of a lane: a captured scalar or an even register pair. -/
def laneBase (s : State) (x l : Nat) : Dword :=
  match Sel.ofNat x with
  | .scalar r => if r == 0 then 0 else mapGet 0 s.block.scal r
  | .vreg r => BitVec.ofNat 64 (s.grp.vlane r l + s.grp.vlane (r + 1) l * 2 ^ 32)
  | _ => 0

/-- LaneAddress of R214. -/
def laneAddress (e : Env) (disp : Int) (l : Nat) : Dword :=
  let off : Int := if w2Sgn e.f.w2 then sext 32 (e.b l) else (e.b l % 2 ^ 32 : Nat)
  laneBase e.s0 e.f.opA.toNat l + BitVec.ofInt 64 (off * 2 ^ w2Scale e.f.w2 + disp)

/-- R220: the first condition met, and within it the lowest lane. -/
def firstFault (xs : List (Nat × Dword × Except MemFault Acc)) : Option (Nat × Dword × MemFault) :=
  firstSome (fun cond => firstSome (fun x => match x.2.2 with
    | .error f => if f.cond == cond then some (x.1, x.2.1, f) else none
    | .ok _ => none) xs) [1, 2, 3, 4]

/-- A lane's tested access. -/
structure LaneAcc where
  lane : Nat
  va : Dword
  acc : Acc
  deriving DecidableEq, Repr, Inhabited

/-- R220: test every active lane before any access is made. An error is the state of the trap or park. -/
def laneAccesses (e : Env) (disp : Int) (size : Nat) (need : Need) (acc : Nat) : Except State (List LaneAcc) :=
  let xs := e.act.map (fun l =>
    let va := laneAddress e disp l
    (l, va, groupAccess e.s0 va size need))
  match firstFault xs with
  | some (l, va, f) => .error (laneFault e.s0 e.f f l acc va)
  | none => .ok (xs.filterMap (fun x => match x.2.2 with
    | .ok a => some ⟨x.1, x.2.1, a⟩
    | .error _ => none))

/-- What a fragment leaves in the translation caches. -/
def noteLanes (s : State) (xs : List LaneAcc) : State := xs.foldl (fun s x => noteAccess s x.va x.acc) s

/-! ### Remote requests of a fragment (R219, R221) -/

/-- The key of a lane instruction's request: bit 63, lane, fragment and lane PC. -/
def laneKey (s : State) (l : Nat) : Dword :=
  BitVec.ofNat 64 (2 ^ 63 + l * 2 ^ 57 + s.cur.frag * 2 ^ 32 + s.frag.pc.toNat)

/-- R183: an instruction that waits for another package has popped its words. -/
def keepPops (e : Env) (s : State) : State :=
  if e.words.isEmpty || (takenWords s).isSome then s
  else s.setGrp { s.grp with
    popq := e.s.grp.popq
    taken := (s.cur.frag, s.frag.pc.toNat, e.words) :: s.grp.taken }

/-- R102, R183: an instruction that has waited and now traps, or begins again, has popped nothing: its words stand before
the others of their queue registers. -/
def givePops (s : State) (qs : List Nat) : State :=
  match takenWords s with
  | none => s
  | some vs => s.setGrp { s.grp with
    taken := untaken s
    popq := (qs.zip vs).foldr (fun p m => mapSet [] m p.1 (p.2 :: mapGet [] m p.1)) s.grp.popq }

/-- Forget the requests of the executing lane instruction. -/
def dropLane (s : State) : State :=
  let k := (laneKey s 0).toNat % 2 ^ 57
  { s with remote := s.remote.filter (fun r =>
    !(r.grp == s.cur.grp && bit r.pc.toNat 63 && r.pc.toNat % 2 ^ 57 == k && !r.op.isStore)) }

/-- The same, with what the instruction had popped given back. -/
def dropPops (e : Env) (s : State) : State := dropLane (givePops s e.queues)

/-- A lane trap of a remote step. -/
def laneRemoteTrap (e : Env) (s : State) (code lane : Nat) (va : Dword) (pkg : Nat) : State :=
  deliverAfter s { laneReport s e.f code lane with addr := va, info := BitVec.ofNat 64 pkg } (dropPops e)

/-- What a set of remote steps finds: still waiting, the first lane that failed, or every answer. -/
inductive LaneRemote where
  | wait (s : State)
  | fail (x : LaneAcc) (code : Nat)
  | done (answers : List (LaneAcc × List Byte × Nat))

/-- Issue every step that has not been issued, and collect the answers. Where lanes fail, the lowest that failed is reported,
with its own code, once no lane waits (log 88). -/
def laneSteps (s : State) (step : State → LaneAcc → RemoteAns) (xs : List LaneAcc) : LaneRemote :=
  let r := xs.foldl (fun (acc : State × Bool × Option (LaneAcc × Nat) × List (LaneAcc × List Byte × Nat)) x =>
    let (s, waits, bad, ds) := acc
    match step s x with
    | .wait s' => (s', true, bad, ds)
    | .fail c => (s, waits, bad <|> some (x, c), ds)
    | .done d p => (s, waits, bad, ds ++ [(x, d, p)])) (s, false, none, [])
  match r.2.2.1 with
  | some (x, c) => if r.2.1 then .wait r.1 else .fail x c
  | none => if r.2.1 then .wait r.1 else .done r.2.2.2

/-- R334, R335: what the lanes' lines need of other packages first. -/
def laneDirs (s : State) (xs : List LaneAcc) : LaneRemote :=
  laneSteps s (fun s x => directoryStep s (laneKey s 0) x.va x.acc) (xs.filter (fun x => x.acc.needDir))

/-- Lanes that reach another package. -/
def remoteLanes (s : State) (xs : List LaneAcc) : List LaneAcc := xs.filter (fun x => x.acc.pkg != s.pkg)

/-- The line of an access, as a DPA. -/
def LaneAcc.line (x : LaneAcc) : Nat := x.acc.dpa / 128 * 128
/-- The lanes that share a line of another package with one, in lane order. -/
def lineMates (xs : List LaneAcc) (x : LaneAcc) : List LaneAcc := xs.filter (fun y => y.line == x.line)
/-- The unit of an access is marked uncorrectable in an answer that brings its line. -/
def LaneAcc.badIn (x : LaneAcc) (bad : Nat) : Bool := bit bad (x.acc.loc % 128 / 8)

/-- R219: one packet per line. -/
def lineLoad (s : State) (x : LaneAcc) : RemoteAns := remoteStep s (laneKey s 0) x.va x.line (.load 128)

/-- Run a lane instruction past its directories and remote loads. -/
def withRemote (e : Env) (xs : List LaneAcc) (step : State → LaneAcc → RemoteAns)
    (k : List (LaneAcc × List Byte × Nat) → State) : State :=
  match laneDirs e.s0 xs with
  | .wait s => keepPops e s
  | .fail x c => laneRemoteTrap e e.s0 c x.lane x.va (directoryPkg e.s0 x.acc)
  | .done (_ :: _) => dropLane e.s0
  | .done [] =>
    match laneSteps e.s0 step (remoteLanes e.s0 xs) with
    | .wait s => keepPops e s
    | .fail x c => laneRemoteTrap e e.s0 c x.lane x.va x.acc.pkg
    | .done ds => k ds

/-! ### Loads (R216) -/

/-- R133: memory accesses of the block wait for the side buffer. -/
def heldBlock (x : Except State Env) (s : State) : Except State Env :=
  match x with
  | .ok e => if blockHeld s.grp then .error s else .ok e
  | .error t => .error t

/-- How a lane of this package's memory chooses what it loads, at the instruction's start. -/
abbrev LaneChoice := State → LaneAcc → Choice

/-- An ordinary load of a lane, and a coherent one, of `size` bytes. -/
def laneLoad (size : Nat) : LaneChoice := fun s x => ordinaryChoice s s.cur.grp x.acc size (100 + x.lane)
def laneLoadC (size : Nat) : LaneChoice := fun s x => coherentChoice s s.cur.grp x.acc size (100 + x.lane)

/-- A lane takes what it has chosen in the state `s0`. -/
def laneTake (size : Nat) (load : LaneChoice) (s0 : State) (sacc : State × List (Nat × Nat)) (x : LaneAcc) :
    State × List (Nat × Nat) :=
  if x.acc.reg then (sacc.1, sacc.2 ++ [(x.lane, (regValue s0 x.acc.loc).toNat)])
  else
    let (v, s) := takeChoice sacc.1 s0.cur.grp (x.acc.loc / 8) (unitMask (x.acc.loc % 8) size) (load s0 x)
    (s, sacc.2 ++ [(x.lane, v.toNat)])

/-- R221: the lowest lane that a test finds to take uncorrectable data here, or whose answer brings such data. -/
def poisonLane (s : State) (bad : LaneAcc → Bool) (xs : List LaneAcc) (ds : List (LaneAcc × List Byte × Nat)) :
    Option LaneAcc :=
  xs.find? (fun x => if x.acc.pkg != s.pkg then ds.any (fun d => d.1 == x && x.badIn d.2.2)
    else !x.acc.reg && bad x)

/-- The test of a load. -/
def loadBad (s : State) (size : Nat) (load : LaneChoice) (x : LaneAcc) : Bool := poisonedBy s x.acc size (load s x)

/-- The values of loads of `size` bytes, lane by lane, once what other packages hold is at hand. -/
def laneValues (e : Env) (xs : List LaneAcc) (ds : List (LaneAcc × List Byte × Nat)) (size : Nat)
    (load : LaneChoice) (s : State) : State × List (Nat × Nat) :=
  let here := xs.filter (fun x => x.acc.pkg == e.s.pkg)
  let (s, vs) := here.foldl (laneTake size load e.s0) (noteLanes s xs, [])
  let near := here.zip vs |>.map (fun p => (p.1.lane, unitPart (BitVec.ofNat 64 p.2.2) (p.1.acc.loc % 8) size))
  let far := ds.map (fun d => (d.1.lane, natOfBytes ((d.2.1.drop (d.1.acc.loc % 128)).take size)))
  (s, near ++ far)

/-- A load of lanes. A failure of another package is reported before uncorrectable data (log 88). -/
def laneLoads (e : Env) (load : LaneChoice) : State :=
  let size := e.ty.bits / 8
  match laneAccesses e (w2Imm e.f.w2) size needR 0 with
  | .error s => s
  | .ok xs => withRemote e xs lineLoad (fun ds =>
      match poisonLane e.s0 (loadBad e.s0 size load) xs ds with
      | some x => laneTrapAfter e.s0 e.f 0x19 x.lane x.va (dropPops e)
      | none =>
        let (s, vs) := laneValues e xs ds size load (dropLane e.s)
        (writeVec s e.f (isWide e) (vs.map (fun v => (v.1, moveImage e.ty v.2)))).nextLane)

/-- R215. -/
def memTy (t : Ty) : Bool := !t.isBlock

def execVld (f : LaneWord) (s : State) : Result :=
  withEnv (heldBlock (envT s (.vld f) f memTy rBase (rTy .n32) rNo) s) (fun e => laneLoads e (laneLoad (e.ty.bits / 8)))
def execVldc (f : LaneWord) (s : State) : Result :=
  withEnv (heldBlock (envT s (.vldc f) f memTy rBase (rTy .n32) rNo) s) (fun e => laneLoads e (laneLoadC (e.ty.bits / 8)))

/-! ### Stores (R216, R218) -/

/-- R228: the bytes that the block has written. -/
def noteWrote (s : State) (key size : Nat) : State :=
  match s.grp.blocks with
  | b :: rest => s.setGrp { s.grp with blocks := { b with wrote := (key, size) :: b.wrote } :: rest }
  | [] => s

/-- A lane's store: its access, size in bytes, mask and data. -/
structure LaneStore where
  at_ : LaneAcc
  size : Nat
  mask : Nat
  data : Nat
  deriving DecidableEq, Repr, Inhabited

/-- A store of a lane in the register region; a mask leaves some bits of its bytes as they are (R245). -/
def laneRegStore (s : State) (w : LaneStore) : State :=
  let a := w.at_.acc
  let all := 2 ^ (8 * w.size) - 1
  regStore s a.loc w.size (BitVec.ofNat 64 (if w.mask == all then w.data
    else (unitPart (regValue s a.loc) (a.loc % 8) w.size &&& (all - w.mask)) ||| w.data))

/-- R219: the stores of one instruction to one unit are one write; the highest lane's bytes remain (R218). -/
def mergeUnit (ws : List LaneStore) (w : LaneStore) : List LaneStore :=
  let off := w.at_.acc.loc % 8
  let u : LaneStore := ⟨{ w.at_ with acc := { w.at_.acc with loc := w.at_.acc.loc - off } }, 8, w.mask * 2 ^ (8 * off),
    w.data * 2 ^ (8 * off)⟩
  let same (x : LaneStore) : Bool := x.at_.acc.loc == u.at_.acc.loc && x.at_.acc.coh == u.at_.acc.coh
  if ws.any same then
    ws.map (fun x => if same x then
      { x with mask := x.mask ||| u.mask, data := (x.data &&& (2 ^ 64 - 1 - u.mask)) ||| u.data } else x)
  else ws ++ [u]

/-- A write of a lane instruction in this package. -/
def laneStore (s : State) (w : LaneStore) : State :=
  storeUnit s s.cur.grp w.at_.acc (BitVec.ofNat 64 w.mask) (BitVec.ofNat 64 w.data)

/-- R219: the stores to one line of another package go out as one packet, under the lowest lane's address. -/
def lineStore (s : State) (pc : Dword) (ws : List LaneStore) (line : Nat) : State :=
  let mine := ws.filter (fun w => w.at_.line == line)
  let va := ((mine.map (fun w => w.at_.va)).head?).getD 0
  issueRemote s pc va line (.lineStore (mine.map (fun w => (w.at_.acc.loc % 128, w.mask, w.data))))

/-- R218, R219: the stores of a lane instruction, in ascending lane order, and the bytes that its block has written. -/
def laneStores (s : State) (pc : Dword) (ws : List LaneStore) : State :=
  let far := ws.filter (fun w => w.at_.acc.pkg != s.pkg)
  let near := ws.filter (fun w => w.at_.acc.pkg == s.pkg)
  let s0 := (near.filter (fun w => w.at_.acc.reg)).foldl laneRegStore s
  let s1 := ((near.filter (fun w => !w.at_.acc.reg)).foldl mergeUnit []).foldl laneStore s0
  let s2 := (far.map (fun w => w.at_.line)).dedup.foldl (fun s l => lineStore s pc far l) s1
  ws.foldl (fun s w => noteWrote s w.at_.acc.key w.size) s2

/-- The stores of whole values. -/
def wholeStores (xs : List LaneAcc) (size : Nat) (v : Nat → Nat) : List LaneStore :=
  xs.map (fun x => ⟨x, size, 2 ^ (8 * size) - 1, v x.lane % 2 ^ (8 * size)⟩)

def execVst (f : LaneWord) (s : State) : Result :=
  withEnv (heldBlock (envT s (.vst f) f memTy rBase (rTy .n32) rT) s) (fun e =>
    let size := e.ty.bits / 8
    match laneAccesses e (w2Imm f.w2) size needW 1 with
    | .error s => s
    | .ok xs => withRemote e xs (fun _ _ => .done [] 0) (fun _ =>
        (laneStores (noteLanes (dropLane e.s) xs) (laneKey e.s0 0) (wholeStores xs size e.c)).nextLane))

/-- R217: never traps after the encoding checks, and changes no value that an access returns. -/
def execVpref (f : LaneWord) (s : State) : Result :=
  withEnv (envT s (.vpref f) f (fun _ => true) rBase (rTy .n32) rNo) (fun e => e.s.nextLane)

/-! ### Atomics (R223-R226) -/

/-- R223: the types and operations that go together. -/
def atomTy (f : LaneWord) (t : Ty) : Bool :=
  let op := w2Atop f.w2
  match t with
  | .i32 | .i64 | .n32 | .n64 | .b32 => true
  | .f32 => !(op == 1 || op == 2 || op == 3)
  | _ => false

/-- R223: the new value of a word, or none where a compare fails. f32 results are canonical and raise nothing. -/
def atomNew (t : Ty) (op old v exp : Nat) : Option Nat :=
  let n := 2 ^ t.bits
  let fl (x : XVal × FpFlags) : Nat := (roundTo t .rne false false x.1).1
  match op with
  | 0 => some (if t.isFloat then fl (xadd .rne (readFloat t old) (readFloat t v)) else (old + v) % n)
  | 1 => some (old &&& v)
  | 2 => some (old ||| v)
  | 3 => some (old ^^^ v)
  | 4 => some (if t.isFloat then fl (xminmax false (readFloat t old) (readFloat t v))
      else if readInt t old ≤ readInt t v then old else v)
  | 5 => some (if t.isFloat then fl (xminmax true (readFloat t old) (readFloat t v))
      else if readInt t old ≤ readInt t v then v else old)
  | 6 => some v
  | _ => if old == exp then some v else none

/-- The expected value of a CAS: dst before the write. -/
def atomExp (e : Env) (l : Nat) : Nat :=
  e.s0.grp.vlane e.f.dst.toNat l + (if isWide e then e.s0.grp.vlane (e.f.dst.toNat + 1) l * 2 ^ 32 else 0)

/-- One lane's atomic on this package's memory or a register. -/
def atomLocal (e : Env) (acc : State × List (Nat × Nat)) (x : LaneAcc) : State × List (Nat × Nat) :=
  let (s, vs) := acc
  let gi := s.cur.grp
  let size := e.ty.bits / 8
  let off := x.acc.loc % 8
  let v := e.c x.lane % 2 ^ e.ty.bits
  let ex := atomExp e x.lane % 2 ^ e.ty.bits
  if x.acc.reg then
    let old := unitPart (regValue s x.acc.loc) off size
    let s := match atomNew e.ty (w2Atop e.f.w2) old v ex with
      | some n => regStore s x.acc.loc size (BitVec.ofNat 64 n)
      | none => s
    (s, vs ++ [(x.lane, old)])
  else
    let s := atomicPrepare s gi x.acc
    let old := unitPart (atomicRead s gi x.acc) off size
    let s := match atomNew e.ty (w2Atop e.f.w2) old v ex with
      | some n => noteWrote (atomicWrite s gi x.acc (unitMask off size) (BitVec.ofNat 64 (n * 2 ^ (8 * off))))
          x.acc.key size
      | none => setSeen s gi (x.acc.loc / 8) s.ord
    (s, vs ++ [(x.lane, old)])

/-- The type code of R60 that an atomic's request carries. -/
def atomCode (t : Ty) : Nat :=
  match t with
  | .i32 => 4 | .n32 => 5 | .i64 => 6 | .n64 => 7 | .f32 => 10 | _ => 31

/-- R226: the translation probe of a remote line. -/
def lineProbe (s : State) (x : LaneAcc) : RemoteAns := remoteStep s (laneKey s 0) x.va x.line .probe

/-- R219, R225: the atomics of a remote line, in lane order as one packet. -/
def lineAtomic (e : Env) (xs : List LaneAcc) (pinned : Bool) (s : State) (x : LaneAcc) : RemoteAns :=
  let mates := lineMates xs x
  remoteStep s (laneKey s 1) (mates.headD x).va x.line (.lineAtomic (atomCode e.ty) (w2Atop e.f.w2)
    (mates.map (fun y => (y.acc.loc % 128, BitVec.ofNat 64 (e.c y.lane), BitVec.ofNat 64 (atomExp e y.lane)))) pinned)

/-- The old value that a line's answer gives a lane. -/
def lineOld (xs : List LaneAcc) (size : Nat) (d : LaneAcc × List Byte × Nat) : Nat :=
  natOfBytes ((d.2.1.drop (size * (lineMates xs d.1).idxOf d.1)).take size)

/-- R226: more than one line, and at least one on another package. -/
def needProbes (s : State) (xs : List LaneAcc) : Bool :=
  !(remoteLanes s xs).isEmpty && decide (1 < ((xs.map (fun x => x.acc.key / 128)).dedup).length)

/-- R224 past its tests: the pub, the lanes in ascending order, the ref. -/
def laneAtomics (e : Env) (xs : List LaneAcc) : State :=
  let gi := e.s0.cur.grp
  let ord := w2Ord e.f.w2
  let sc := w2Scope e.f.w2
  let size := e.ty.bits / 8
  let probes := needProbes e.s0 xs
  let far := remoteLanes e.s0 xs
  match poisonLane e.s0 (fun x => poisonedFor e.s0 gi x.acc) (xs.filter (fun x => x.acc.pkg == e.s0.pkg)) [] with
  | some x => laneTrapAfter e.s0 e.f 0x19 x.lane x.va (dropPops e)
  | none =>
    withRemote e xs (if probes then lineProbe else fun _ _ => .done [] 0) (fun _ =>
      let s1 := if hasRel ord then pub e.s0 gi sc else e.s0
      if hasRel ord && !pubReady s1 gi sc then keepPops e s1
      else match laneSteps s1 (lineAtomic e far probes) far with
        | .wait s => keepPops e s
        | .fail x c => laneRemoteTrap e s1 c x.lane x.va x.acc.pkg
        | .done ds =>
          match ds.find? (fun d => d.1.badIn d.2.2) with
          | some d => laneTrapAfter s1 e.f 0x19 d.1.lane d.1.va (dropPops e)
          | none =>
            let s2 := if hasRel ord then pub e.s gi sc else e.s
            let (s3, vs) := (xs.filter (fun x => x.acc.pkg == e.s.pkg)).foldl (atomLocal e)
              (noteLanes (dropLane s2) xs, [])
            let s3 := far.foldl (fun s x => noteWrote s x.acc.key size) s3
            let s4 := writeVec s3 e.f (isWide e) ((vs ++ ds.map (fun d => (d.1.lane, lineOld far size d))).map
              (fun v => (v.1, moveImage e.ty v.2)))
            (if hasAcq ord then ref s4 gi sc else s4).nextLane)

def execVatom (f : LaneWord) (s : State) : Result :=
  withEnv (heldBlock (envT s (.vatom f) f (atomTy f) rBase (rTy .n32) rT) s) (fun e =>
    match laneAccesses e (w2Disp f.w2) (e.ty.bits / 8) needRW 2 with
    | .error s => s
    | .ok xs => laneAtomics e xs)

/-! ### The local store (R29, R50, R222) -/

/-- R29: the store (0 own or even core, 1 odd core) and byte that a local address names for a group, or none where
LOCAL_RANGE is raised. -/
def localPlace (s : State) (g : Group) (la : Nat) : Option (Nat × Nat) :=
  let l := s.launchOf g
  let other := bit la 20
  let off := la % 2 ^ 20
  let core := if other then (if g.core % 2 == 0 then g.core + 1 else g.core - 1) else g.core
  if 2 ^ 21 ≤ la || (other && !l.pair) || decide (l.lsPer ≤ off) || decide (2 ^ 20 - coreRsv s core ≤ off) then none
  else some (if l.pair then core % 2 else 0, off)

/-- The local store of the group's team. -/
def localMem (s : State) (g : Group) (w : Nat) : SMap Byte :=
  let t := s.team (s.teamOf g)
  if w == 0 then t.loc0 else t.loc1
def localRead (s : State) (g : Group) (p : Nat × Nat) (size : Nat) : Nat := memRead (localMem s g p.1) p.2 size
/-- The unit of a local byte, and whether it is marked uncorrectable (R221, R357). -/
def localUnit (p : Nat × Nat) : Nat := 2 ^ 17 * p.1 + p.2 / 8
def localBad (s : State) (g : Group) (p : Nat × Nat) : Bool := (s.team (s.teamOf g)).bad.contains (localUnit p)
/-- The name of a local byte's unit in the coherence order (R50), and the unit's value. -/
def localName (s : State) (g : Group) (p : Nat × Nat) : Nat := localKey (s.teamOf g) p.1 (p.2 / 8)
def localValue (s : State) (g : Group) (p : Nat × Nat) : Dword :=
  BitVec.ofNat 64 (memRead (localMem s g p.1) (p.2 / 8 * 8) 8)

/-- A write of a writer to the local store takes its place in the coherence order of its unit (R50). R221: a write of the
whole unit clears its mark. -/
def localWriteBy (w : Writer) (s : State) (g : Group) (p : Nat × Nat) (size v : Nat) : State :=
  let i := s.teamOf g
  let t := s.team i
  let n := s.ord + 1
  let h : Hist := ⟨localName s g p, localValue s g p, n, w, w.published n, n⟩
  let t := if size = 8 then { t with bad := t.bad.filter (fun u => u != localUnit p) } else t
  let s : State := { s with ord := n, hist := h :: s.hist }
  s.setTeam i (if p.1 == 0 then { t with loc0 := memWrite t.loc0 p.2 size v }
    else { t with loc1 := memWrite t.loc1 p.2 size v })

/-- A group's own write. -/
def localWrite (s : State) (p : Nat × Nat) (size v : Nat) : State := localWriteBy (.lane s.cur.grp) s s.grp p size v

/-- R44, R50: what a LANE access reads of a unit of the local store: every LANE write is visible to it; an engine's write
that no fence has made visible is returned or not. -/
def localValues (s : State) (g : Group) (p : Nat × Nat) : List (Dword × Nat) :=
  let hs := unitHist s (localName s g p)
  valuesOf (localValue s g p) hs (newestOf hs (fun h => h.shut != 0) (mapGet 0 g.seen (localName s g p)))

/-- One such read of `size` bytes. -/
def localLoad (s : State) (p : Nat × Nat) (size k : Nat) : Nat × State :=
  let (v, n) := s.pick k (localValue s s.grp p, 0) (localValues s s.grp p)
  (unitPart v (p.2 % 8) size, setSeen s s.cur.grp (localName s s.grp p) n)

/-- R222: the local address of a lane. -/
def localAddr (e : Env) (disp : Int) (l : Nat) : Nat :=
  wrapNat 32 ((e.a l % 2 ^ 32 : Nat) + (e.b l % 2 ^ 32 : Nat) * 2 ^ w2Scale e.f.w2 + disp)

/-- R222: the tests, LOCAL_RANGE before MISALIGNED. -/
def localAccesses (e : Env) (disp : Int) (size : Nat) : Except State (List (Nat × Nat × Nat)) :=
  let xs := e.act.map (fun l => (l, localAddr e disp l))
  match xs.find? (fun x => (localPlace e.s0 e.s0.grp x.2).isNone) with
  | some x => .error (laneTrap e.s0 e.f 0x08 x.1 (BitVec.ofNat 64 x.2))
  | none => match xs.find? (fun x => x.2 % size != 0) with
    | some x => .error (laneTrap e.s0 e.f 0x05 x.1 (BitVec.ofNat 64 x.2))
    | none => .ok (xs.filterMap (fun x => (localPlace e.s0 e.s0.grp x.2).map (fun p => (x.1, p.1, p.2))))

/-- R221: the lowest lane whose unit is marked uncorrectable traps. -/
def localClean (e : Env) (disp : Int) (xs : List (Nat × Nat × Nat)) (k : State) : State :=
  match xs.find? (fun x => localBad e.s0 e.s0.grp x.2) with
  | some x => laneTrap e.s0 e.f 0x19 x.1 (BitVec.ofNat 64 (localAddr e disp x.1))
  | none => k

def execLld (f : LaneWord) (s : State) : Result :=
  withEnv (heldBlock (envT s (.lld f) f memTy (rTy .n32) (rTy .n32) rNo) s) (fun e =>
    let size := e.ty.bits / 8
    match localAccesses e (w2Imm f.w2) size with
    | .error s => s
    | .ok xs => localClean e (w2Imm f.w2) xs (
      let r := xs.foldl (fun (acc : State × List (Nat × Nat)) x =>
        let (v, s) := localLoad acc.1 x.2 size (100 + x.1)
        (s, acc.2 ++ [(x.1, moveImage e.ty v)])) (e.s, [])
      (writeVec r.1 f (isWide e) r.2).nextLane))

def execLst (f : LaneWord) (s : State) : Result :=
  withEnv (heldBlock (envT s (.lst f) f memTy (rTy .n32) (rTy .n32) rT) s) (fun e =>
    let size := e.ty.bits / 8
    match localAccesses e (w2Imm f.w2) size with
    | .error s => s
    | .ok xs => (xs.foldl (fun s x => localWrite s x.2 size (e.c x.1 % 2 ^ e.ty.bits)) e.s).nextLane)

/-- R222, R224: one lane's atomic at the local store. An engine's write that falls between its read and its write is one
that the read does not return (R44), and that the write then replaces. -/
def localAtom (e : Env) (acc : State × List (Nat × Nat)) (x : Nat × Nat × Nat) : State × List (Nat × Nat) :=
  let size := e.ty.bits / 8
  let (old, s) := localLoad acc.1 x.2 size (100 + x.1)
  let s := match atomNew e.ty (w2Atop e.f.w2) old (e.c x.1 % 2 ^ e.ty.bits) (atomExp e x.1 % 2 ^ e.ty.bits) with
    | some n => localWrite s x.2 size n
    | none => s
  (s, acc.2 ++ [(x.1, old)])

/-- R222: indivisible against every LANE access; against the engines' accesses as localAtom says. -/
def execLatom (f : LaneWord) (s : State) : Result :=
  withEnv (heldBlock (envT s (.latom f) f (atomTy f) (rTy .n32) (rTy .n32) rT) s) (fun e =>
    let gi := e.s0.cur.grp
    let ord := w2Ord f.w2
    let sc := w2Scope f.w2
    match localAccesses e (w2Disp f.w2) (e.ty.bits / 8) with
    | .error s => s
    | .ok xs => localClean e (w2Disp f.w2) xs (
      let s1 := if hasRel ord then pub e.s gi sc else e.s
      if hasRel ord && !pubReady s1 gi sc then keepPops e (pub e.s0 gi sc)
      else
        let (s2, vs) := xs.foldl (localAtom e) (s1, [])
        let s3 := writeVec s2 f (isWide e) (vs.map (fun v => (v.1, moveImage e.ty v.2)))
        (if hasAcq ord then ref s3 gi sc else s3).nextLane))

end Sys2Proof.Machine
end

