-- ==== Sys2Proof/Machine/Stipple.lean ====
section
/-! DEFINITION. The stipple store (R237-R247). -/

namespace Sys2Proof.Machine

/-! ### The conversion step (R241) -/

def xdropNx (x : Nat × FpFlags) : Nat × FpFlags := (x.1, x.2 &&& (flagIV ||| flagSAT))

/-- Clamp(d, −L, L): the value, and whether it was clamped. -/
def clampMag (d lim : XVal) : XVal × Bool :=
  match d with
  | .fin s _ _ =>
    let mag : XVal := if s then d.neg else d
    if xlt lim mag then (if s then lim.neg else lim, true) else (d, false)
  | .inf s => (if s then lim.neg else lim, true)
  | .nan _ _ => (d, false)

/-- StippleStep: the code, the residue as an f32 image, and the flags IV and SAT. -/
def stippleStep (x : XVal) (t : Ty) (m : Nat) (zp : Bool) (cl : Nat) : Nat × Nat × FpFlags :=
  let (q, fl) := xdropNx (quantise t .rne x m zp)
  if fl &&& flagIV != 0 then (q, 0, flagIV)
  else
    let val := (blockValue t q m zp).1
    let u : XVal := if t == .mx4 || t == .ts8 then (XVal.fin false 1 1).scale ((m % 256 : Nat) - 127)
      else match decodeFloat Ty.f16.fmt (m / 2 ^ 16 % 2 ^ 16) with
        | .fin _ n d => .fin false n d
        | v => v
    let (d, cut) := clampMag (xadd .rne x val.neg).1 (u.scale cl)
    (q, (roundTo .f32 .rne false false d).1, fl ||| flagIf cut flagSAT)

/-! ### Axes (R238, R240) -/

def axisMreg (a : Dword) : Nat := bits a.toNat 23 16
def axisType (a : Dword) : Option Ty := Ty.ofCode (bits a.toNat 15 11)
/-- B of R242. -/
def axisBlock (a : Dword) : Nat :=
  let t := bits a.toNat 15 11
  if t == 13 || t == 14 then 32 else 8 * 2 ^ bits a.toNat 10 9
def axisClamp (a : Dword) : Nat := bits a.toNat 8 7
def axisReset (a : Dword) : Bool := bit a.toNat 6
def axisZp (a : Dword) : Bool := bit a.toNat 5
/-- LANE mode. -/
def axisLane (a : Dword) : Bool := bit a.toNat 4

/-- The captured axis that the instruction names, and its number. -/
def axisOf (e : Env) : Nat × Dword :=
  let n := e.f.dst.toNat % 4
  (n, mapGet 0 e.s0.block.axis n)

/-- R240: the fragment may use axis n. -/
def bindOk (s : State) (n : Nat) : Bool :=
  let b := bits s.grp.abind.toNat (16 * n + 15) (16 * n)
  b &&& s.frag.smask.toNat == b
def bindAxis (s : State) (n : Nat) : State :=
  let a := s.grp.abind.toNat
  s.setGrp { s.grp with abind := BitVec.ofNat 64 (putBits a (16 * n + 15) (16 * n) s.frag.smask.toNat) }

def residue (g : Group) (n l : Nat) : Nat := (mapGet 0 g.resid (64 * n + l)).toNat
def setResidue (s : State) (n : Nat) (vs : List (Nat × Nat)) : State :=
  s.setGrp { s.grp with resid := vs.foldl (fun m v => mapSet 0 m (64 * n + v.1) (BitVec.ofNat 32 v.2)) s.grp.resid }

/-! ### VSTQ (R242-R245) -/

/-- E of R242, in elements. -/
def elemIndex (e : Env) (l : Nat) : Int :=
  let off : Int := if w2Sgn e.f.w2 then sext 32 (e.b l) else (e.b l % 2 ^ 32 : Nat)
  off * 2 ^ w2Scale e.f.w2 + w2Imm e.f.w2

def isNibble (t : Ty) : Bool := t == .mx4 || t == .zb4

/-- The target byte of a lane. -/
def elemAddr (e : Env) (t : Ty) (l : Nat) : Dword :=
  let x := elemIndex e l
  laneBase e.s0 e.f.opA.toNat l + BitVec.ofInt 64 (if isNibble t then x / 2 else x)

/-- R243: the conversions of the active lanes: (lane, code, residue, flags), and the carry left in LANE mode. -/
def stippleLanes (e : Env) (n : Nat) (a : Dword) (t : Ty) :
    List Nat → Nat → List (Nat × Nat × Nat × FpFlags) × Nat
  | [], c => ([], c)
  | l :: ls, c =>
    let c0 := if axisLane a then c else residue e.s0.grp n l
    let c1 := if axisReset a && elemIndex e l % (axisBlock a : Int) == 0 then 0 else c0
    let x := (xadd .rne (readFloat .f32 (e.c l)) (readFloat .f32 c1)).1
    let (q, r, fl) := stippleStep x t (e.s0.grp.vlane (axisMreg a) l) (axisZp a) (axisClamp a)
    let (rest, cEnd) := stippleLanes e n a t ls r
    ((l, q, r, fl) :: rest, cEnd)

/-- R218, R245: merge the codes that fall in one byte. -/
def mergeByte (xs : List LaneStore) (x : LaneAcc) (mask v : Nat) : List LaneStore :=
  if xs.any (fun y => y.at_.acc.key == x.acc.key) then
    xs.map (fun y => if y.at_.acc.key == x.acc.key then
      { y with mask := y.mask ||| mask, data := (y.data &&& (255 - mask)) ||| v } else y)
  else xs ++ [⟨x, 1, mask, v⟩]

/-- The bytes that the codes of the lanes fill. -/
def codeBytes (e : Env) (t : Ty) (xs : List LaneAcc) (codes : List Nat) : List LaneStore :=
  (xs.zip codes).foldl (fun acc p =>
    if isNibble t then
      (if elemIndex e p.1.lane % 2 == 1 then mergeByte acc p.1 0xF0 (p.2 % 16 * 16) else mergeByte acc p.1 0x0F (p.2 % 16))
    else mergeByte acc p.1 0xFF (p.2 % 256)) []

/-- R244 from step 4 on. -/
def vstqRun (e : Env) (n : Nat) (a : Dword) (t : Ty) : State :=
  let tests := e.act.map (fun l =>
    let va := elemAddr e t l
    (l, va, groupAccess e.s0 va 1 needW))
  match firstFault tests with
  | some (l, va, f) => laneFault e.s0 e.f f l 1 va
  | none =>
    let xs := tests.filterMap (fun x => match x.2.2 with
      | .ok y => some (⟨x.1, x.2.1, y⟩ : LaneAcc)
      | .error _ => none)
    let w := e.s0.width
    let (rs, c) := stippleLanes e n a t e.act (residue e.s0.grp n (w - 1))
    withRemote e xs (fun _ _ => .done [] 0) (fun _ =>
      finishFp e (rs.map (fun r => (r.1, r.2.2.2))) none (fun s =>
        let s := bindAxis s n
        let s := setResidue s n (rs.map (fun r => (r.1, r.2.2.1)))
        let s := if axisLane a then setResidue s n [(w - 1, c)] else s
        (laneStores (noteLanes (dropLane s) xs) (laneKey e.s0 0) (codeBytes e t xs (rs.map (fun r => r.2.1)))).nextLane))

/-- STIPPLE_ORDER of the whole instruction (R240, R252). -/
def stippleOrder (e : Env) : State := laneTrapAll e.s0 e.f 0x10

def execVstq (f : LaneWord) (s : State) : Result :=
  withEnv (heldBlock (envT s (.vstq f) f (fun _ => true) rBase (rTy .n32) (rTy .f32)) s) (fun e =>
    let (n, a) := axisOf e
    match axisType a with
    | none => laneTrapAll e.s0 f 0x02
    | some t =>
      if bits a.toNat 15 11 == 0 || decide (s.nvreg ≤ axisMreg a) then laneTrapAll e.s0 f 0x02
      else if !bindOk e.s0 n then stippleOrder e
      else if e.act.isEmpty then (bindAxis e.s n).nextLane
      else vstqRun e n a t)

/-! ### ESAV, ELOD, ECLR (R246) -/

/-- The lanes that form addresses: every active lane, or the lowest in LANE mode. -/
def axisEnv (e : Env) (a : Dword) : Env := if axisLane a then { e with act := e.act.take 1 } else e
/-- The lane whose residue goes with an address. -/
def axisCarrier (e : Env) (a : Dword) (l : Nat) : Nat := if axisLane a then e.s0.width - 1 else l

def execEsav (f : LaneWord) (s : State) : Result :=
  withEnv (heldBlock (envT s (.esav f) f (fun _ => true) rBase (rTy .n32) rNo) s) (fun e =>
    let (n, a) := axisOf e
    let e' := axisEnv e a
    if !bindOk e.s0 n then stippleOrder e
    else match laneAccesses e' (w2Imm f.w2) 4 needW 1 with
      | .error s => s
      | .ok xs => withRemote e' xs (fun _ _ => .done [] 0) (fun _ =>
        (laneStores (noteLanes (dropLane (bindAxis e.s n)) xs) (laneKey e.s0 0)
          (wholeStores xs 4 (fun l => residue e.s0.grp n (axisCarrier e a l)))).nextLane))

def execElod (f : LaneWord) (s : State) : Result :=
  withEnv (heldBlock (envT s (.elod f) f (fun _ => true) rBase (rTy .n32) rNo) s) (fun e =>
    let (n, a) := axisOf e
    let e' := axisEnv e a
    if !bindOk e.s0 n then stippleOrder e
    else match laneAccesses e' (w2Imm f.w2) 4 needR 0 with
      | .error s => s
      | .ok xs => withRemote e' xs lineLoad (fun ds =>
        match poisonLane e.s0 (loadBad e.s0 4 (laneLoad 4)) xs ds with
        | some x => laneTrapAfter e.s0 f 0x19 x.lane x.va (dropPops e)
        | none =>
          let (s, vs) := laneValues e xs ds 4 (laneLoad 4) (dropLane (bindAxis e.s n))
          (setResidue s n (vs.map (fun v => (axisCarrier e a v.1, v.2)))).nextLane))

def execEclr (f : LaneWord) (s : State) : Result :=
  withEnv (envT s (.eclr f) f (fun _ => true) rNo rNo rNo) (fun e =>
    let (n, a) := axisOf e
    if !bindOk e.s0 n then stippleOrder e
    else
      let ls := if axisLane a && !e.act.isEmpty then e.act ++ [e.s0.width - 1] else e.act
      (setResidue (bindAxis e.s n) n (ls.map (fun l => (l, 0)))).nextLane)

end Sys2Proof.Machine
end

