-- ==== Sys2Proof/Machine/LaneControl.lean ====
section
/-! DEFINITION. Lane control: the divergence procedure and Split (R127), join points (R128, R129), and the control
instructions (R206-R213). -/

namespace Sys2Proof.Machine

/-! ### Stacks and fragments (R125-R127) -/

def noneJoin : BitVec 26 := 0x3FFFFFF

def Group.fragAt (g : Group) (i : Nat) : Frag := mapGet default g.frags i
def Group.putFrag (g : Group) (i : Nat) (f : Frag) : Group := { g with frags := mapSet default g.frags i f }
def Group.stackAt (g : Group) (sl : Nat) : List StackEntry := mapGet [] g.recon sl
/-- Put a slice's stack, of which the `k` oldest entries stand in the spill area. -/
def Group.putSpilled (g : Group) (sl k : Nat) (st : List StackEntry) : Group :=
  { g with recon := mapSet [] g.recon sl st, spilled := mapSet 0 g.spilled sl k }
/-- Put a slice's stack after a pop: the last entry in hardware gone, the newest spilled one comes back (R129). -/
def Group.putStack (g : Group) (sl : Nat) (st : List StackEntry) : Group :=
  g.putSpilled sl (min (mapGet 0 g.spilled sl) (st.length - 1)) st
/-- Active lanes of a slice. -/
def Group.actOf (g : Group) (sl : Nat) : Nat := g.act / 2 ^ (4 * sl) % 16
def Group.putAct (g : Group) (sl m : Nat) : Group := { g with act := putBits g.act (4 * sl + 3) (4 * sl) m }
/-- Entries in use. -/
def Group.live (g : Group) : List Nat := (List.range 16).filter (fun i => (g.fragAt i).smask != 0)

/-- R129: a push onto eight entries in hardware moves the oldest of them to the spill area. -/
def Group.pushEntry (g : Group) (sl : Nat) (e : StackEntry) : Group :=
  let k := mapGet 0 g.spilled sl
  g.putSpilled sl (if (g.stackAt sl).length = k + 8 then k + 1 else k) (e :: g.stackAt sl)

/-- R129: the lowest slice whose depth exceeds 64. -/
def overflow (g : Group) (sls : List Nat) : Option Nat := sls.find? (fun sl => decide (64 < (g.stackAt sl).length))

/-- Insert into an ascending list without repeats. -/
def insertNat (x : Nat) : List Nat → List Nat
  | [] => [x]
  | y :: ys => if x < y then x :: y :: ys else if x = y then y :: ys else y :: insertNat x ys

/-- The entries of the later values of Split, each in the lowest free place (log 69). -/
def splitRest (f : Frag) (j : BitVec 26) (next : Nat → Nat) : List Nat → Group → Group
  | [], g => g
  | v :: vs, g =>
    let i := ((List.range 16).find? (fun i => (g.fragAt i).smask == 0)).getD 0
    let m := maskOf (f.slices.filter (fun sl => next sl == v))
    splitRest f j next vs (g.putFrag i { f with
      pc := BitVec.ofNat 26 v
      smask := BitVec.ofNat 16 m
      join := j
      age := 0
      spin := 0
      wait := 0 })

/-- Split of R127 on entry `fi`. -/
def splitFrag (g : Group) (fi : Nat) (next : Nat → Nat) (j : BitVec 26) : Group :=
  let f := g.fragAt fi
  match f.slices.foldr (fun sl vs => insertNat (next sl) vs) [] with
  | [] => g
  | [v] => g.putFrag fi { f with pc := BitVec.ofNat 26 v, wait := 0 }
  | v :: vs =>
    let g := f.slices.foldl (fun g sl => g.pushEntry sl ⟨3, f.smask, 0, f.join, f.fmtc⟩) g
    let g := g.putFrag fi { f with
      pc := BitVec.ofNat 26 v
      smask := BitVec.ofNat 16 (maskOf (f.slices.filter (fun sl => next sl == v)))
      join := j
      spin := 0
      wait := 0 }
    splitRest f j next vs g

/-- R129, R252: SPILL_FAULT at the lowest slice that overflows. -/
def spillTrap (s : State) (sl : Nat) : State :=
  let f : LaneWord := default
  let lane := ((List.range 4).find? (fun j => bit (s.grp.actOf sl) j)).getD 0
  laneTrap s f 0x13 (4 * sl + lane) 0

/-- Commit a group unless a stack overflows. -/
def commitSplit (s : State) (g : Group) (sls : List Nat) : State :=
  match overflow g sls with
  | some sl => spillTrap s sl
  | none => s.setStacks g

/-! ### Branches (R207, R208) -/

/-- PC + 1 + an offset of 24 bits. -/
def laneTarget (pc : BitVec 26) (off : BitVec 24) : BitVec 26 := pc + 1 + off.signExtend 26

/-- The join offset of an LBRA: word1<31:8>. -/
def lbraJoin (f : LaneWord) : BitVec 24 :=
  BitVec.ofNat 24 (f.opA.toNat * 2 ^ 14 + f.opB.toNat * 2 ^ 4 + f.opC.toNat / 2 ^ 6)

/-- The divergence of one slice: pushes, the new active mask, the next PC. -/
def divergeSlice (g : Group) (f : Frag) (cond : Nat → Bool) (t x : Nat) (j : BitVec 26) (sl : Nat) : Group × Nat :=
  let act := g.actOf sl
  let tk := maskOf ((List.range 4).filter (fun i => bit act i && cond (4 * sl + i)))
  let nt := maskOf ((List.range 4).filter (fun i => bit act i && !cond (4 * sl + i)))
  if tk ≠ 0 ∧ nt ≠ 0 then
    let g := g.pushEntry sl ⟨2, BitVec.ofNat 16 act, 0, j, f.fmtc⟩
    let g := g.pushEntry sl ⟨1, BitVec.ofNat 16 nt, BitVec.ofNat 26 x, j, f.fmtc⟩
    (g.putAct sl tk, t)
  else if tk ≠ 0 then (g, t)
  else (g, x)

/-- R127, R207. -/
def execLbra (f : LaneWord) (s : State) : Result :=
  let fr := s.frag
  let t := (laneTarget fr.pc (f.w2.setWidth 24)).toNat
  let x := (fr.pc + 1).toNat
  let off := lbraJoin f
  let j := if off = 0 then noneJoin else laneTarget fr.pc off
  let cond (l : Nat) : Bool := s.grp.pred f.pred.toNat l != f.pneg
  let r := fr.slices.foldl (fun (acc : Group × List (Nat × Nat)) sl =>
    let (g, v) := divergeSlice acc.1 fr cond t x j sl
    (g, (sl, v) :: acc.2)) (s.grp, [])
  let next (sl : Nat) : Nat := ((r.2.find? (fun p => p.1 == sl)).map Prod.snd).getD x
  .next (commitSplit s (splitFrag r.1 s.cur.frag next j) fr.slices)

/-- R208. -/
def execLjmp (f : LaneWord) (s : State) : Result :=
  .next (s.setFrag { s.frag with pc := laneTarget s.frag.pc (f.w2.setWidth 24) })

/-- R210: acts as LNOP. -/
def execLpad (_f : LaneWord) (s : State) : Result := .next s.nextLane
/-- R213. -/
def execLnop (_f : LaneWord) (s : State) : Result := .next s.nextLane

/-! ### LJTAB (R209) -/

/-- A word of the table, or the fault of its fetch. -/
def tableWord (s : State) (tb : BitVec 26) (k : Nat) : Except (MemFault × Dword) Nat :=
  let va := laneAddr s tb.toNat + BitVec.ofNat 64 (4 * k)
  match fetchLaneWord s va (20 + k) with
  | .ok w => .ok w
  | .error e => .error (e, va)

/-- What a lane of LJTAB finds after its index is in range: its target, a fetch fault, or no pad there. -/
inductive PadAns where
  | target (t : Nat)
  | fault (e : MemFault) (va : Dword)
  | bad
  deriving DecidableEq, Repr, Inhabited

def padTarget (s : State) (tb : BitVec 26) (k : Nat) : PadAns :=
  match tableWord s tb (k + 1) with
  | .error (e, va) => .fault e va
  | .ok w =>
    let t := tb + (BitVec.ofNat 20 (w / 2 ^ 12)).signExtend 26
    if (s.launchOf s.grp).lcount ≤ t.toNat then .bad
    else match fetchLane s t.toNat with
      | .error (e, va) => .fault e va
      | .ok i => if i = 0x123 * 2 ^ 23 + w % 2 ^ 12 * 2 ^ 64 then .target t.toNat else .bad

/-- R209 past the range test: pads, then one target per slice, then the split. -/
def ljtabGo (e : Env) (ts : List (Nat × PadAns)) : State :=
  let s := e.s0
  match ts.find? (fun x => match x.2 with
    | .target _ => false
    | _ => true) with
  | some (l, .fault m va) => laneFault s e.f m l 4 va
  | some (l, _) => laneTrap s e.f 0x03 l 0
  | none =>
    let target (l : Nat) : Option Nat := firstSome (fun x => match x with
      | (j, PadAns.target t) => if j == l then some t else none
      | _ => none) ts
    let fr := s.frag
    let lanesOf (sl : Nat) : List Nat := e.act.filter (fun l => l / 4 == sl)
    match fr.slices.find? (fun sl => (lanesOf sl).any (fun l => target l != target ((lanesOf sl).headD 0))) with
    | some sl => laneTrap s e.f 0x02 ((lanesOf sl).headD 0) 0
    | none =>
      let next (sl : Nat) : Nat := match lanesOf sl with
        | l :: _ => (target l).getD 0
        | [] => (fr.pc + 1).toNat
      commitSplit s (splitFrag e.s.grp s.cur.frag next fr.join) fr.slices

def execLjtab (f : LaneWord) (s : State) : Result :=
  withEnv (envT s (.ljtab f) f (fun _ => true) (rTy .n32) rNo rNo) (fun e =>
    if e.act.isEmpty then e.s.nextLane
    else
      let tb := laneTarget s.frag.pc (f.w2.setWidth 24)
      match tableWord s tb 0 with
      | .error (m, va) => laneFault s f m (e.act.headD 0) 4 va
      | .ok bound =>
        match e.act.find? (fun l => decide (bound ≤ e.a l % 2 ^ 32)) with
        | some l => laneTrap s f 0x04 l 0
        | none => ljtabGo e (e.act.map (fun l => (l, padTarget s tb (e.a l % 2 ^ 32)))))

/-! ### Join points (R128) -/

/-- An entry's JOIN matches A at a join point of a kind (1 LJOIN, 2 REGANG, 3 LEND). -/
def joinMatches (kind : Nat) (a j : BitVec 26) : Bool := j == a || (kind == 2 && j == noneJoin) || kind == 3

def topKind (g : Group) (sl : Nat) : Nat := match g.stackAt sl with
  | e :: _ => e.kind.toNat
  | [] => 0

/-- Step 1 of R128: the fragment waits, and refuses with the others once they hold every slice. Their one entry is the
lowest of theirs, with the copy of FMT of the fragment that came last (log 84). -/
def refuse (g : Group) (fi kind : Nat) (a : BitVec 26) : Group :=
  let f := g.fragAt fi
  let e := (g.stackAt (f.slices.headD 0)).headD default
  let g := g.putFrag fi { f with pc := a, wait := BitVec.ofNat 2 kind }
  let part := g.live.filter (fun i =>
    let x := g.fragAt i
    x.wait != 0 && x.pc == a && joinMatches kind a x.join && x.smask &&& e.mask == x.smask)
  let held := part.foldl (fun m i => m ||| (g.fragAt i).smask) (0 : BitVec 16)
  if held = e.mask then
    let age := part.foldl (fun m i => max m (g.fragAt i).age.toNat) 0
    let first := part.headD fi
    let g := part.foldl (fun g i => g.putFrag i default) g
    let g := g.putFrag first ⟨a, e.mask, e.join, f.fmtc, BitVec.ofNat 16 age, 0, 0⟩
    (maskList 16 e.mask.toNat).foldl (fun g sl =>
      if topKind g sl == 3 then g.putStack sl (g.stackAt sl).tail else g) g
  else g

/-- While the top is RESUME and matches: restore the mask. -/
def resumeSlice (g : Group) (kind : Nat) (a : BitVec 26) (sl : Nat) : Nat → Group
  | 0 => g
  | fuel + 1 => match g.stackAt sl with
    | e :: st =>
      if e.kind == 2 && joinMatches kind a e.join then
        resumeSlice ((g.putAct sl (e.mask.toNat % 16)).putStack sl st) kind a sl fuel
      else g
    | [] => g

/-- Step 2 of R128 for one slice: where it goes, and the FMT copy of the path that it takes up (R127). -/
def settleSlice (g : Group) (kind : Nat) (a : BitVec 26) (sl : Nat) : Group × Nat × Option (BitVec 25) :=
  let g := resumeSlice g kind a sl 65
  match g.stackAt sl with
  | e :: st =>
    if e.kind == 1 && joinMatches kind a e.join then
      ((g.putAct sl (e.mask.toNat % 16)).putStack sl st, e.pc.toNat, some e.fmtc)
    else (g, a.toNat, none)
  | [] => (g, a.toNat, none)

/-- R127: a path runs under its entry's copy of FMT: each fragment of the slices takes that of its lowest slice. -/
def takePaths (g : Group) (cs : List (Nat × Option (BitVec 25))) : Group :=
  g.live.foldl (fun g i =>
    let f := g.fragAt i
    match cs.find? (fun c => c.1 == f.slices.headD 64) with
    | some (_, some c) => g.putFrag i { f with fmtc := c }
    | _ => g) g

/-- How settling leaves a fragment: waiting for others, gone to other places, or settled at the join point. -/
inductive Settled where
  | waits | moved | here (fi : Nat)
  deriving DecidableEq, Repr, Inhabited

/-- R128: settle entry `fi` at A. A FRAG entry that matches A while the fragment's JOIN does not stays, and the fragment goes on
at A + 1, for step 3 would repeat without end (log 85). -/
def settle (kind : Nat) (a : BitVec 26) : Nat → Group → Nat → Group × Settled
  | 0, g, fi => (g, .here fi)
  | fuel + 1, g, fi =>
    let f := g.fragAt fi
    if joinMatches kind a f.join && f.slices.all (fun sl => topKind g sl == 3) then (refuse g fi kind a, .waits)
    else
      let r := f.slices.foldl (fun (acc : Group × List (Nat × Nat × Option (BitVec 25))) sl =>
        let (g, v) := settleSlice acc.1 kind a sl
        (g, (sl, v) :: acc.2)) (g, [])
      let next (sl : Nat) : Nat := ((r.2.find? (fun p => p.1 == sl)).map (fun p => p.2.1)).getD a.toNat
      if f.slices.any (fun sl => next sl != a.toNat) then
        let g' := takePaths (splitFrag r.1 fi next a) (r.2.map (fun p => (p.1, p.2.2)))
        match f.slices.find? (fun sl => next sl == a.toNat) with
        | none => (g', .moved)
        | some sl =>
          let fi' := ((g'.live).find? (fun i => bit (g'.fragAt i).smask.toNat sl)).getD fi
          settle kind a fuel g' fi'
      else if f.slices.any (fun sl => match r.1.stackAt sl with
          | e :: _ => joinMatches kind a e.join
          | [] => false) && r.1 != g then settle kind a fuel r.1 fi
      else (r.1, .here fi)

/-- Settle the executing fragment, or trap where a stack overflows; then go on with `k` on where it settled. -/
def joinPoint (s : State) (kind : Nat) (k : State → Settled → State) : Result :=
  let fr := s.frag
  let (g, st) := settle kind fr.pc 200 s.grp s.cur.frag
  .next (match overflow g fr.slices with
    | some sl => spillTrap s sl
    | none => k (s.setStacks g) st)

/-- R128: at LJOIN a settled fragment goes on. -/
def execLjoin (_f : LaneWord) (s : State) : Result :=
  joinPoint s 1 (fun s st => match st with
    | .here fi => s.setGrp (s.grp.putFrag fi { s.grp.fragAt fi with pc := (s.grp.fragAt fi).pc + 1 })
    | _ => s)

/-- R128: once every slice waits at a REGANG, the fragments at each address fuse into one, which goes on in the lowest of
their entries and with its copy of FMT (log 84). -/
def fuseRegang (g : Group) : Group :=
  if g.live.all (fun i => (g.fragAt i).wait == 2) then
    let addrs := g.live.foldr (fun i vs => insertNat (g.fragAt i).pc.toNat vs) []
    addrs.foldl (fun g a =>
      let part := g.live.filter (fun i => (g.fragAt i).wait == 2 && (g.fragAt i).pc.toNat == a)
      let first := part.headD 0
      let f := g.fragAt first
      let m := part.foldl (fun m i => m ||| (g.fragAt i).smask) (0 : BitVec 16)
      let age := part.foldl (fun m i => max m (g.fragAt i).age.toNat) 0
      let g := part.foldl (fun g i => g.putFrag i default) g
      let g := g.putFrag first ⟨BitVec.ofNat 26 (a + 1), m, noneJoin, f.fmtc, BitVec.ofNat 16 age, 0, 0⟩
      (maskList 16 m.toNat).foldl (fun g sl => g.putSpilled sl
        ((g.spillStack sl).filter (fun e => e.kind != 3)).length ((g.stackAt sl).filter (fun e => e.kind != 3))) g) g
  else g

def execRegang (_f : LaneWord) (s : State) : Result :=
  joinPoint s 2 (fun s st =>
    let g := match st with
      | .here fi => s.grp.putFrag fi { s.grp.fragAt fi with wait := 2 }
      | _ => s.grp
    s.setStacks (fuseRegang g))

/-- R128, R130: the block ends when every slice of the group waits at LEND. -/
def execLend (_f : LaneWord) (s : State) : Result :=
  joinPoint s 3 (fun s st =>
    let g := match st with
      | .here fi => s.grp.putFrag fi { s.grp.fragAt fi with wait := 3 }
      | _ => s.grp
    let s := s.setGrp g
    if g.live.all (fun i => (g.fragAt i).wait == 3) then endBlock s else s)

/-! ### PHINT (R113, R212) -/

/-- R113, R119: the vector map and local-store map name only what the kernel has. -/
def mapsOk (l : Launch) (vmap : Dword) (lsmap : Nat) : Bool :=
  decide (vmap.toNat < 2 ^ (2 * l.vregs)) && (lsmap &&& lsAll l == lsmap)

/-- R212: a group is fully ganged. -/
def fullyGanged (s : State) : Bool :=
  match s.grp.live with
  | [i] => (s.grp.fragAt i).smask.toNat == 2 ^ (s.width / 4) - 1
  | _ => false

/-- The vector map of a PHINT: word1 in the high half, word2 in the low half. -/
def phintMap (f : LaneWord) : Dword :=
  BitVec.ofNat 64 (f.w2.toNat + (f.negB.toNat + f.sat.toNat * 2 + f.opC.toNat * 4 + f.opB.toNat * 2 ^ 12 +
    f.opA.toNat * 2 ^ 22) * 2 ^ 32)

def execPhint (f : LaneWord) (s : State) : Result :=
  let l := s.launchOf s.grp
  .next (if !mapsOk l (phintMap f) f.dst.toNat then laneTrapAll s f 0x02
    else
      let s1 := s.nextLane
      if s.grp.saveReq.isSome && fullyGanged s then
        saveGroup s1 s1.cur.grp ⟨2, false, phintMap f, f.dst.toNat, true, none, []⟩
      else s1)

end Sys2Proof.Machine
end

