-- ==== Sys2Proof/Machine/Sync.lean ====
section
/-! DEFINITION. Barrier objects (R287-R292), condition monitors (R293-R296), exclusive objects and places
(R297-R302). -/

namespace Sys2Proof.Machine

/-! ### Barriers -/

def otherCore (core : Nat) : Nat := if core % 2 == 0 then core + 1 else core - 1
/-- The core of the barrier that an SBAR names. -/
def barCore (g : Group) (p : Nat) : Nat := if p == 1 then otherCore g.core else g.core
def barKey (g : Group) (p i : Nat) : Nat := 64 * barCore g p + i
/-- The WTOK bit of a barrier. -/
def barTok (p i : Nat) : Nat := 64 * p + i
def State.barrier (s : State) (k : Nat) : Barrier := mapGet default s.barriers k
def State.setBarrier (s : State) (k : Nat) (b : Barrier) : State :=
  { s with barriers := mapSet default s.barriers k b }

/-- The team of a group owns a barrier (R286). -/
def ownsBarrier (s : State) (g : Group) (b : Barrier) : Bool :=
  let l := s.launchOf g
  b.asid == l.asid && b.ltag == l.ltag && b.team == g.team

/-- A group waits on a barrier, resident or not, and no completion has ended its wait. -/
def waitsOn (s : State) (gi k : Nat) : Bool :=
  let g := s.group gi
  g.run != .ended && waitHolds s gi && (match g.wait with
  | .barrier p i _ => barKey g p.toNat i == k
  | _ => false)

/-- R142: a group that was saved while it waited becomes a waiter for residency. -/
def wakeAway (g : Group) : Group := if g.run == .away && g.state == 2 then { g with eligible := true } else g

/-- R292: a completion wakes a waiter of its core. One that has left its core becomes a waiter for residency. -/
def wakeBarrier (g : Group) : Group :=
  match g.run, g.wait with
  | .resident, .barrier p i _ => { g with wait := .barrier p i true }
  | _, _ => wakeAway g

/-- A waiter that a completion of the barrier has woken has not gone on yet. -/
def wokenOn (s : State) (k : Nat) : Bool :=
  s.groups.any (fun g => g.run == .resident && (match g.wait with
    | .barrier p i w => w && barKey g p.toNat i == k
    | _ => false))

/-- Arrive of R289, with the engine writes that the arrival makes known (R48). -/
def arriveAt (s : State) (k cls : Nat) (ws : List (Nat × Nat × Nat)) : State :=
  let b := s.barrier k
  let b := { b with pacc := maskSet b.pacc cls true, cnt := b.cnt + 1, writes := ws ++ b.writes }
  if b.cnt == b.exp then
    let done := { b with
      ph := !b.ph
      cnt := 0
      lpath := b.pacc
      pacc := 0
      waiters := 0
      partner := 0
      last := if wokenOn s k then b.writes ++ b.last else b.writes
      writes := [] }
    ((List.range s.groups.length).filter (fun gi => waitsOn s gi k)).foldl
      (fun t gi => t.setGroup gi (wakeBarrier (t.group gi))) (s.setBarrier k done)
  else s.setBarrier k b

/-- BARRIER_INVALID and its INFO (R253). -/
def barTrap (s : State) (p i : Nat) : State :=
  strandTrap s { code := 0x15, info := BitVec.ofNat 64 (barCore s.grp p % 48 * 64 + i) }

/-- R290: the first test that an SBAR fails; `cnt` is an init's count. -/
def barTest (s : State) (p i : Nat) (cnt : Option Nat) : Option State :=
  let g := s.grp
  let b := s.barrier (barKey g p i)
  let countBad := match cnt with
    | some c => c == 0 || decide (65535 < c)
    | none => false
  if p == 1 && !(s.launchOf g).pair then some (barTrap s p i)
  else if countBad then some (trapCode s 0x02)
  else if b.valid && !ownsBarrier s g b then some (barTrap s p i)
  else if cnt.isNone && !b.valid then some (barTrap s p i)
  else if cnt.isSome && (List.range s.groups.length).any (fun x => waitsOn s x (barKey g p i)) then some (barTrap s p i)
  else none

def setTok (g : Group) (j : Nat) (v : Bool) : Group := { g with wtok := maskSet g.wtok j v }

/-- R289. -/
def execSbarInit (a : BitVec 6) (p : BitVec 1) (i : BitVec 6) (s : State) : Result :=
  strandSerial s (match barTest s p.toNat i.toNat (some (s.reg a).toNat) with
    | some t => t
    | none =>
      let g := s.grp
      let k := barKey g p.toNat i.toNat
      let l := s.launchOf g
      let b := s.barrier k
      let s1 := s.setBarrier k { b with
        valid := true
        exp := (s.reg a).toNat
        cnt := 0
        pacc := 0
        writes := []
        asid := l.asid
        ltag := l.ltag
        team := g.team }
      (s1.setGrp (setTok s1.grp (barTok p.toNat i.toNat) b.ph)).advance)

/-- The arrival of a group: pub at .team, the token, the count. -/
def groupArrive (s : State) (p i : Nat) : State :=
  let s := pub s s.cur.grp 1
  let k := barKey s.grp p i
  let s := s.setGrp (setTok s.grp (barTok p i) (s.barrier k).ph)
  arriveAt s k 0 []

def execSbarArrive (p : BitVec 1) (i : BitVec 6) (s : State) : Result :=
  strandSerial s (match barTest s p.toNat i.toNat none with
    | some t => t
    | none => (groupArrive s p.toNat i.toNat).advance)

/-- The path classes that a barrier's path mask makes writes visible to: LANE, and those of later commands (R48). -/
def pathReaders : Nat := 0x7D

/-- Wait of R289: the group is listed until PH differs from its token, or a completion has woken it (R292). Then the writes
of the mask's classes that arrived in the phase are visible to it; those of other classes follow R44 (R48). -/
def barWait (s : State) (m p i : Nat) : State :=
  let g := s.grp
  let k := barKey g p i
  let b := s.barrier k
  let tok := bit g.wtok (barTok p i)
  if b.ph == tok && g.wait != .barrier (p == 1) i true then
    let s := s.setBarrier k (if p == 1 then { b with partner := maskSet b.partner g.slot true }
      else { b with waiters := maskSet b.waiters g.slot true })
    s.setGrp (s.hold g (.barrier (p == 1) i false))
  else
    let s := s.setGrp { setTok g (barTok p i) (!tok) with wait := .none }
    (ref (seeWrites s s.cur.grp pathReaders (b.last.filter (fun w => bit m w.1))) s.cur.grp 1).advance

/-- The group already waits in this SBAR, or has been woken in it. -/
def waitingAt (g : Group) (p i : Nat) : Bool :=
  g.wait == .barrier (p == 1) i false || g.wait == .barrier (p == 1) i true

def execSbarWait (m : BitVec 7) (p : BitVec 1) (i : BitVec 6) (s : State) : Result :=
  strandSerial s (if waitingAt s.grp p.toNat i.toNat then barWait s m.toNat p.toNat i.toNat
    else match barTest s p.toNat i.toNat none with
      | some t => t
      | none => barWait s m.toNat p.toNat i.toNat)

def execSbarArw (m : BitVec 7) (p : BitVec 1) (i : BitVec 6) (s : State) : Result :=
  strandSerial s (if waitingAt s.grp p.toNat i.toNat then barWait s m.toNat p.toNat i.toNat
    else match barTest s p.toNat i.toNat none with
      | some t => t
      | none => barWait (groupArrive s p.toNat i.toNat) m.toNat p.toNat i.toNat)

/-! ### Home slices (R30, R334) -/

/-- The home slice of a location, as 24 × die + slice. -/
def sliceOf (loc : Nat) (gpn : Option Nat) : Nat :=
  match gpn with
  | some n =>
    let p := n % 2 ^ 34
    24 * (p % 24) + (p / 24 + loc / 128 % 32) % 24
  | none =>
    if 2 ^ 47 ≤ loc then 24 * bits loc 45 41 + bits loc 40 35
    else Config.homeSlice (loc / 128) % 576
def Acc.slice (a : Acc) : Nat := sliceOf a.loc a.gpn

/-! ### Condition monitors (R293, R296) -/

/-- Finish an SWAITC with a status; every status but RETRY refreshes at the scope. -/
def swaitDone (s : State) (d : BitVec 6) (st : Nat) (sc : Nat) : State :=
  let s := s.setGrp { s.grp with wait := .none }
  let s := if st = 2 then s else ref s s.cur.grp sc
  s.wb d (BitVec.ofNat 64 st)

/-- R453: the local DPA of a word that a monitor at another package watches, as far as it is known here. -/
def farWatched (s : State) (va : Dword) (a : Acc) : Nat :=
  match a.gpn with
  | some n => match ownerOf s s.grp.die n with
    | some o => homeLocal o.home + va.toNat % 4096
    | none => 0
  | none => a.loc

/-- A monitor on another package. The answer 3 says that it is registered there; a later one says that it fired. -/
def swaitRemote (s : State) (d : BitVec 6) (va : Dword) (a : Acc) (cmp : Nat) (dw : Bool) (v : Dword) (sc : Nat) :
    State :=
  match remoteStep (noteAccess s va a) s.spc va a.dpa (.monitor cmp dw v) with
  | .wait s' => s'
  | .fail c => remoteTrap s c va a.pkg
  | .done bs p =>
    let st := natOfBytes (bs.take 1)
    if p != 0 then strandTrapAfter s { code := 0x19, addr := va } dropOwn
    else if st = 3 then s.setGrp (s.hold s.grp (.monitor (farWatched s va a) false))
    else swaitDone (dropRemote s s.spc) d (min st 2) sc

/-- The comparison and the registration as one step at the home slice. -/
def swaitLocal (s : State) (d : BitVec 6) (va : Dword) (a : Acc) (cmp : Nat) (dw : Bool) (v : Dword) (sc : Nat) :
    State :=
  let s0 := noteAccess s va a
  let size := if dw then 8 else 4
  match if a.reg then some (regValue s0 a.loc, s0) else coherentClean s0 s.cur.grp a size 9 with
  | none => strandTrap s { code := 0x19, addr := va }
  | some (u, s1) =>
  let x := BitVec.ofNat 64 (unitPart u (a.loc % 8) size)
  if compareWord cmp dw x v then swaitDone s1 d 0 sc
  else if a.reg || decide (4096 ≤ (s1.monitors.filter (fun m => m.slice == a.slice)).length) then
    swaitDone s1 d 2 sc
  else
    let l := s.launchOf s.grp
    let m : Monitor := ⟨a.slice, .group s.cur.grp, cmp, dw, sc, l.asid, l.ltag, s.grp.team, s.grp.gid, a.loc, allOnes64, v⟩
    let s2 : State := { s1 with monitors := s1.monitors ++ [m] }
    s2.setGrp (s2.hold s2.grp (.monitor a.loc false))

def execSwaitc (d a b : BitVec 6) (c : BitVec 3) (z : BitVec 2) (sc : BitVec 3) (s : State) : Result :=
  let va := s.reg a
  let dw := z == 1
  let go (x : Acc) : State :=
    if x.home == 1 || x.coh == 2 then strandTrap s { code := 0x07, addr := va }
    else if x.needDir then askDirectory s va x
    else if x.pkg != s.pkg then swaitRemote s d va x c.toNat dw (s.reg b) sc.toNat
    else swaitLocal s d va x c.toNat dw (s.reg b) sc.toNat
  strandSerial s (match s.grp.wait with
    | .monitor _ true => swaitDone (dropRemote s s.spc) d 1 sc.toNat
    | .monitor _ false => s
    | _ => match groupAccess s va (if dw then 8 else 4) needR with
      | .error f => strandFault s f va 0
      | .ok x => go x)

/-! ### Place records (R297, R298) -/

def placeKey (slice idx : Nat) : Nat := 65536 * slice + idx
def State.place (s : State) (slice idx : Nat) : PlaceRec := mapGet default s.places (placeKey slice idx)
def State.setPlace (s : State) (slice idx : Nat) (r : PlaceRec) : State :=
  { s with places := mapSet default s.places (placeKey slice idx) r }
/-- Freeing a record increments its generation (R301). -/
def freePlace (s : State) (slice idx : Nat) : State :=
  s.setPlace slice idx { (default : PlaceRec) with gen := ((s.place slice idx).gen + 1) % 256 }
/-- Records of a slice in use. -/
def usedPlaces (s : State) (slice : Nat) : List (Nat × PlaceRec) :=
  (s.places.filter (fun p => p.1 / 65536 == slice && p.2.kind != 0)).map (fun p => (p.1 % 65536, p.2))
def freeCount (s : State) (slice : Nat) : Nat := 65536 - (usedPlaces s slice).length

/-- A free record: which one is not stated (log 25). -/
def pickFree (s : State) (slice : Nat) : Nat → Nat → Nat
  | 0, i => i % 65536
  | fuel + 1, i => if (s.place slice (i % 65536)).kind = 0 then i % 65536 else pickFree s slice fuel (i + 1)
/-- Choice 2 is a place's: 0xFFFF, which NEXT has for the tail, is taken last. -/
def newIndex (s : State) (slice k : Nat) : Nat :=
  let i := pickFree s slice 65536 (s.free k)
  if k = 2 ∧ i = 0xFFFF then pickFree s slice 65536 0 else i

/-- The header of an object, if it has one. -/
def headerOf (s : State) (slice obj : Nat) : Option Nat :=
  ((usedPlaces s slice).find? (fun p => p.2.kind == 1 && p.2.obj == obj)).map Prod.fst

/-- R298: a handle. -/
def handleOf (s : State) (slice idx : Nat) : Dword :=
  BitVec.ofNat 64 (s.pkg * 2 ^ 54 + slice / 24 * 2 ^ 49 + slice % 24 * 2 ^ 44 + idx * 2 ^ 28 +
    (s.place slice idx).gen * 2 ^ 20)
def handleSlice (h : Nat) : Nat := 24 * bits h 53 49 + bits h 48 44
def handleIdx (h : Nat) : Nat := bits h 43 28

/-- R298: a handle of this package names a live place. -/
def livePlace (s : State) (h : Nat) : Bool :=
  bits h 19 0 == 0 && bits h 63 54 == s.pkg && decide (bits h 53 49 ≤ 23) && decide (bits h 48 44 ≤ 23) &&
  (let r := s.place (handleSlice h) (handleIdx h)
   r.kind == 2 && r.gen == bits h 27 20)
/-- R298: it is held by a group. -/
def heldBy (s : State) (h holder : Nat) : Bool :=
  livePlace s h && (s.place (handleSlice h) (handleIdx h)).holder == some holder
/-- It is held by the issuer. -/
def heldPlace (s : State) (h : Nat) : Bool := heldBy s h s.cur.grp

/-! ### Release and Grant (R301) -/

def grantPlace (s : State) (slice hdr q : Nat) : State :=
  let r := s.place slice q
  let s := s.setPlace slice q (match r.want with
    | some sc => { r with st := 1, scope := sc, waiting := false, want := none }
    | none => { r with st := 1 })
  let s := s.setPlace slice hdr { s.place slice hdr with next := q }
  match r.holder with
  | some g => if r.waiting && decide (g < s.groups.length) then s.setGroup g (wakeAway (s.group g)) else s
  | none => s

/-- Free abandoned places from an index on, then grant the next one, or free the header. -/
def releaseFrom (s : State) (slice hdr : Nat) : Nat → Nat → State
  | 0, _ => s
  | fuel + 1, q =>
    if q = 0xFFFF then freePlace s slice hdr
    else
      let r := s.place slice q
      if r.st = 2 then releaseFrom (freePlace s slice q) slice hdr fuel r.next
      else grantPlace s slice hdr q

def releasePlace (s : State) (slice p : Nat) : State :=
  let r := s.place slice p
  releaseFrom (freePlace s slice p) slice r.hdr 65536 r.next

/-- Abandon a queued place, or release a granted one. -/
def dropPlace (s : State) (slice p : Nat) : State :=
  let r := s.place slice p
  if r.st = 1 then releasePlace s slice p
  else s.setPlace slice p { r with st := 2, holder := none, waiting := false, want := none }

/-- Abandon the places of a holder in this package's slices, and release its grants. -/
def dropHeld (s : State) (holder : Nat) : State :=
  (s.places.filter (fun p => p.2.kind == 2 && p.2.holder == some holder)).foldl
    (fun s p => dropPlace s (p.1 / 65536) (p.1 % 65536)) s

/-- The identity of the requests that abandon a group's places at other packages. -/
def endGroupId : Nat := 2 ^ 47

/-- R175, R266, R301: abandon the places and release the grants of a group, here and at the packages whose slices may hold
some. -/
def dropPlaces (s : State) (gi : Nat) : State :=
  let s1 := dropHeld s gi
  let s2 := (s1.group gi).far.foldl (fun s p =>
    issueRemote { s with cur := { s.cur with grp := endGroupId } } 0 0 (p * 2 ^ 46) (.place 6 0 (BitVec.ofNat 64 gi))) s1
  { s2 with cur := s.cur }

/-- A group may hold a place of another package. -/
def noteFar (s : State) (gi pkg : Nat) : State :=
  let g := s.group gi
  if g.far.contains pkg then s else s.setGroup gi { g with far := pkg :: g.far }

/-! ### The place instructions (R299, R300, R302) -/

/-- PLACE_INVALID with a handle in INFO (R253). -/
def placeTrap (s : State) (h : Dword) : State := strandTrap s { code := 0x14, info := h }

/-- A place step on another package, under its own instruction. The first byte of the answer is 1 for PLACE_INVALID, whose
INFO is `info`, 3 for a place that is still queued, 4 for a granted place whose holder must first publish; a value
follows. -/
def placeAsk (s : State) (va : Dword) (dpa pkg op sc : Nat) (arg : Dword) (info : List Byte → Dword)
    (k : State → Nat → List Byte → State) : State :=
  match remoteStep s s.spc va dpa (.place op sc arg) with
  | .wait s' => s'
  | .fail c => remoteTrap s c va pkg
  | .done bs _ =>
    if natOfBytes (bs.take 1) = 1 then placeTrap (dropRemote s s.spc) (info (bs.drop 1))
    else k s (natOfBytes (bs.take 1)) (bs.drop 1)

/-- The first dword of bytes. -/
def headDword (bs : List Byte) : Dword := BitVec.ofNat 64 (natOfBytes (bs.take 8))

/-- The instruction's request says that its pub is made. -/
def pubMade (s : State) (dpa : Nat) : Bool :=
  match (remOf s s.spc dpa).map RemReq.op with
  | some (.place o _ _) => decide (8 ≤ o)
  | _ => false

/-- R300, R302: XGIVE, XABAN and XREL on another package. The slice tests the place first. It performs the step on a queued
place; the step on a granted one waits for the issuer's pub at the place's SCOPE, or at XREL's, and is then asked for
again, with 8 added to its number. -/
def placePub (s : State) (va : Dword) (dpa pkg op sc : Nat) (arg : Dword) (info : List Byte → Dword) : State :=
  let gi := s.cur.grp
  if pubMade s dpa then
    match remoteStep s s.spc va dpa (.place (op + 8) sc arg) with
    | .wait s' => s'
    | .fail c => remoteTrap s c va pkg
    | .done _ _ => (dropRemote s s.spc).advance
  else placeAsk s va dpa pkg op sc arg info (fun s n bs =>
    if n != 4 && op != 5 then (dropRemote s s.spc).advance
    else
      let scope := if op = 5 then sc else natOfBytes (bs.take 1) % 8
      let s1 := pub s gi scope
      if !pubReady s1 gi scope then s1
      else issueRemote (dropRemote s1 s.spc) s.spc va dpa (.place (op + 8) sc arg))

/-- R302: the tests of XACQ and XREL on the object's address. -/
def objectAccess (s : State) (va : Dword) : Except State Acc :=
  match groupAccess s va 1 needRW with
  | .error f => .error (strandFault s f va 2)
  | .ok a =>
    if va.toNat % 128 ≠ 0 then .error (strandTrap s { code := 0x05, addr := va })
    else if a.home != 0 || a.coh == 2 || a.reg then .error (strandTrap s { code := 0x07, addr := va })
    else if a.needDir && a.pkg != s.pkg then .error (askDirectory s va a)
    else .ok a

/-- XACQ at its home slice, for a holder: the value of d. -/
def acquireAt (s : State) (sl obj holder sc : Nat) : Dword × State :=
  match headerOf s sl obj with
  | none =>
    if freeCount s sl < 2 then (2, s)
    else
      let h := newIndex s sl 1
      let hr := s.place sl h
      let s1 := s.setPlace sl h { hr with kind := 1 }
      let p := newIndex s1 sl 2
      let s2 := s1.setPlace sl h { hr with kind := 1, next := p, tail := p, obj := obj }
      (1, s2.setPlace sl p { s2.place sl p with
        kind := 2
        st := 1
        next := 0xFFFF
        scope := sc
        holder := some holder
        hdr := h })
  | some h =>
    if freeCount s sl = 0 then (2, s)
    else
      let p := newIndex s sl 2
      let hr := s.place sl h
      let s1 := s.setPlace sl p { s.place sl p with
        kind := 2
        st := 0
        next := 0xFFFF
        holder := some holder
        hdr := h }
      let s2 := s1.setPlace sl hr.tail { s1.place sl hr.tail with next := p }
      let s3 := s2.setPlace sl h { hr with tail := p }
      (handleOf s3 sl p, s3)

/-- The end of an XACQ: a grant acts as .acq. -/
def acquired (s : State) (d : BitVec 6) (sc : Nat) (v : Dword) : State :=
  (if v = 1 then ref s s.cur.grp sc else s).wb d v

def execXacq (d a : BitVec 6) (sc : BitVec 3) (s : State) : Result :=
  let va := s.reg a
  strandSerial s (match objectAccess s va with
    | .error t => t
    | .ok x =>
      if x.pkg != s.pkg then placeAsk s va x.dpa x.pkg 0 sc.toNat 0 headDword (fun s _ bs =>
        let v := headDword bs
        acquired (if v = 2 then dropRemote s s.spc else noteFar (dropRemote s s.spc) s.cur.grp x.pkg) d sc.toNat v)
      else
        let (v, s1) := acquireAt (noteAccess s va x) x.slice (x.loc / 128) s.cur.grp sc.toNat
        acquired s1 d sc.toNat v)

/-- R298: a handle may name a place of another package of the domain. -/
def handleRemote (s : State) (h : Dword) : Bool :=
  bits h.toNat 63 54 != s.pkg && Config.inDomain (bits h.toNat 63 54) && bits h.toNat 19 0 == 0 &&
  decide (bits h.toNat 53 49 ≤ 23) && decide (bits h.toNat 48 44 ≤ 23)

/-- The end of an XWAIT. -/
def waited (s : State) (d : BitVec 6) (sc : Nat) : State :=
  (ref (s.setGrp { s.grp with wait := .none }) s.cur.grp sc).wb d 1

def execXwait (d a : BitVec 6) (sc : BitVec 3) (s : State) : Result :=
  let h := s.reg a
  let sl := handleSlice h.toNat
  let i := handleIdx h.toNat
  strandSerial s (
    if handleRemote s h then placeAsk s 0 (handleDpa h) (bits h.toNat 63 54) 1 sc.toNat h (fun _ => h) (fun s n _ =>
      if n = 3 then s.setGrp (s.hold s.grp (.place h)) else waited (dropRemote s s.spc) d sc.toNat)
    else if !heldPlace s h.toNat then placeTrap s h
    else
      let r := s.place sl i
      if r.st = 0 then
        (s.setPlace sl i { r with waiting := true }).setGrp (s.hold s.grp (.place h))
      else waited (s.setPlace sl i { r with scope := sc.toNat, waiting := false }) d sc.toNat)

/-- The group of the issuer's team with a number. -/
def memberGroup (s : State) (g : Group) (n : Nat) : Option Nat :=
  s.groups.findIdx? (fun x => x.launch == g.launch && x.team == g.team && x.gid == n)

def execXgive (a b : BitVec 6) (s : State) : Result :=
  let h := s.reg a
  let n := (s.reg b).toNat
  let sl := handleSlice h.toNat
  let i := handleIdx h.toNat
  strandSerial s (
    if decide (32 ≤ n) || decide ((s.launchOf s.grp).teamSize ≤ n) then trapCode s 0x02
    else if handleRemote s h then
      let s1 := match memberGroup s s.grp n with
        | some j => noteFar s j (bits h.toNat 63 54)
        | none => s
      placePub s1 0 (handleDpa h) (bits h.toNat 63 54) 2 n h (fun _ => h)
    else if !heldPlace s h.toNat then placeTrap s h
    else
      let r := s.place sl i
      let s1 := if r.st = 1 then pub s s.cur.grp r.scope else s
      if r.st = 1 && !pubReady s1 s.cur.grp r.scope then s1
      else
        let m := memberGroup s s.grp n
        let gone : Bool := match m with
          | some j => (s.group j).run == .ended
          | none => true
        (if gone then dropPlace s1 sl i else s1.setPlace sl i { r with holder := m }).advance)

/-- Indices of a queue from one on, to the tail. -/
def placeChain (s : State) (slice : Nat) : Nat → Nat → List Nat
  | 0, _ => []
  | fuel + 1, i => if i = 0xFFFF then [] else i :: placeChain s slice fuel (s.place slice i).next

/-- Rewrite the links of a queue. -/
def relink (s : State) (slice hdr : Nat) : List Nat → State
  | [] => s
  | [x] =>
    let s := s.setPlace slice x { s.place slice x with next := 0xFFFF }
    s.setPlace slice hdr { s.place slice hdr with tail := x }
  | x :: y :: rest => relink (s.setPlace slice x { s.place slice x with next := y }) slice hdr (y :: rest)

/-- XSWAP at its home slice: the value of d. -/
def swapAt (s : State) (sl i h2 : Nat) : Dword × State :=
  let p := s.place sl i
  let j := handleIdx h2
  let q := s.place sl j
  let behind := (placeChain s sl 65536 p.next).contains j
  if p.st ≠ 0 || !livePlace s h2 || handleSlice h2 != sl || q.st ≠ 0 || q.hdr != p.hdr || !behind then (3, s)
  else
    let c := (placeChain s sl 65536 (s.place sl p.hdr).next).map
      (fun x => if x == i then j else if x == j then i else x)
    (0, relink s sl p.hdr c)

def execXswap (d a b : BitVec 6) (s : State) : Result :=
  let h := s.reg a
  let h2 := (s.reg b).toNat
  let sl := handleSlice h.toNat
  let i := handleIdx h.toNat
  strandSerial s (
    if handleRemote s h then placeAsk s 0 (handleDpa h) (bits h.toNat 63 54) 3 0 (s.reg b) (fun _ => h)
      (fun s _ bs => (dropRemote s s.spc).wb d (headDword bs))
    else if !heldPlace s h.toNat then placeTrap s h
    else
      let r := swapAt s sl i h2
      r.2.wb d r.1)

def execXaban (a : BitVec 6) (s : State) : Result :=
  let h := s.reg a
  let sl := handleSlice h.toNat
  let i := handleIdx h.toNat
  strandSerial s (
    if handleRemote s h then placePub s 0 (handleDpa h) (bits h.toNat 63 54) 4 0 h (fun _ => h)
    else if !heldPlace s h.toNat then placeTrap s h
    else
      let r := s.place sl i
      let s1 := if r.st = 1 then pub s s.cur.grp r.scope else s
      if r.st = 1 && !pubReady s1 s.cur.grp r.scope then s1
      else (dropPlace s1 sl i).advance)

/-- R300, R310: the issuer's stores that wait for their lines are performed before its place is released, whatever the scope
(log 78). -/
def execXrel (a : BitVec 6) (sc : BitVec 3) (s : State) : Result :=
  let va := s.reg a
  strandSerial s (match objectAccess s va with
    | .error t => t
    | .ok x =>
      if x.pkg != s.pkg then placePub s va x.dpa x.pkg 5 sc.toNat 0 headDword
      else
        let sl := x.slice
        match headerOf s sl (x.loc / 128) with
        | none => placeTrap s 0
        | some h =>
          let i := (s.place sl h).next
          let r := s.place sl i
          if r.st ≠ 1 || r.holder != some s.cur.grp then placeTrap s (handleOf s sl i)
          else
            let s0 := pub (noteAccess s va x) s.cur.grp sc.toNat
            let s1 := performDirty s0 (fun d => d.grp == s.cur.grp && d.hc)
            if !pubReady s1 s.cur.grp sc.toNat then s1
            else (releasePlace s1 sl i).advance)

end Sys2Proof.Machine
end

