-- ==== Sys2Proof/Machine/Matrix.lean ====
section
/-! DEFINITION. The matrix engine (R271-R285), its accumulator tiles and their scan-out (R262), and the engines'
accesses to a team's local store (R29, R264). -/

namespace Sys2Proof.Machine

/-! ### Local-store accesses of engines -/

/-- Whether a byte of a team's store lies in a unit that the team's last saves kept (R264). -/
def unitSaved (s : State) (t : Team) (w off : Nat) : Bool :=
  let l := s.launch t.launch
  let map := (teamGroups s t.launch t.team).foldl
    (fun m x => maskOf (maskList 8 m ++ maskList 8 (if x.full then lsAll l else x.lsmap))) 0
  (lsUnits l map).any (fun u => u.1 == w && decide (u.2.1 ≤ off) && decide (off < u.2.1 + u.2.2))

/-- A byte of the local store of a group's team as an engine reads it, wherever the team's store is: on the core, where
each unit follows R44, or saved in the team frame (R24, R264). What an engine reads of the store of a team that has ended
is left open. -/
def storeByte1 (s : State) (r : Reader) (g : Group) (la : Nat) : Byte :=
  match localPlace s g la with
  | none => 0
  | some (w, off) =>
    let t := s.team (s.teamOf g)
    if t.ended then BitVec.ofNat 8 (Config.freeWord s.tick (0x20000 + la)).toNat
    else if !t.out then
      let hs := unitHist s (localName s g (w, off))
      let v := s.pick (0x30000 + localUnit (w, off)) (localValue s g (w, off), 0)
        (valuesOf (localValue s g (w, off)) hs (newestOf hs r.bound 0))
      BitVec.ofNat 8 (unitPart v.1 (off % 8) 1)
    else if unitSaved s t w off then memGet s.mem (teamFrameAddr s t + w * 2 ^ 20 + off)
    else 0

/-- `n` bytes of the local store as a little-endian number. -/
def storeNat (s : State) (r : Reader) (g : Group) (la : Nat) : Nat → Nat
  | 0 => 0
  | n + 1 => (storeByte1 s r g la).toNat + 256 * storeNat s r g (la + 1) n

/-- Write bytes of one unit of the local store of a group's team; of an ended team nothing is kept. A unit that is wholly
written is no longer marked (R221). -/
def storePut1 (w : Writer) (s : State) (g : Group) (la : Nat) (bs : List Byte) : State :=
  match localPlace s g la with
  | none => s
  | some (c, off) =>
    let i := s.teamOf g
    let t := s.team i
    if t.ended then s
    else if !t.out then localWriteBy w s g (c, off) bs.length (natOfBytes bs)
    else
      let u := localUnit (c, off)
      let s := if bs.length = 8 then s.setTeam i { t with bad := t.bad.filter (fun x => x != u) } else s
      if unitSaved s t c off then performList s (teamFrameAddr s t + c * 2 ^ 20 + off) bs else s

/-- Pieces of a byte list, each within one aligned 8-byte unit. -/
def unitPieces : Nat → Nat → List Byte → List (Nat × List Byte)
  | 0, _, _ => []
  | _, _, [] => []
  | fuel + 1, va, bs =>
    let k := 8 - va % 8
    (va, bs.take k) :: unitPieces fuel (va + k) (bs.drop k)

/-- Write bytes of the local store. -/
def storePut (w : Writer) (s : State) (g : Group) (la : Nat) (bs : List Byte) : State :=
  (unitPieces (bs.length + 1) la bs).foldl (fun s p => storePut1 w s g p.1 p.2) s

/-- The writes that a writer has made since a state: class, unit, stamp (R45). -/
def writesSince (s t : State) (w : Writer) (cls : Nat) : List (Nat × Nat × Nat) :=
  (t.hist.filter (fun h => decide (s.ord < h.stamp) && h.who == w)).map (fun h => (cls, h.unit, h.stamp))

/-- A byte of the local store is in a unit marked uncorrectable. -/
def storeBad (s : State) (g : Group) (la : Nat) : Bool :=
  match localPlace s g la with
  | some p => localBad s g p
  | none => false

/-- R357: mark the unit of a local byte. -/
def markLocal (s : State) (g : Group) (la : Nat) : State :=
  match localPlace s g la with
  | some p =>
    let i := s.teamOf g
    if localBad s g p then s else s.setTeam i { s.team i with bad := localUnit p :: (s.team i).bad }
  | none => s

/-- The end of the legal local addresses from one on, within the store that it names. -/
def localEnd (s : State) (g : Group) (la : Nat) : Nat :=
  match localPlace s g la with
  | none => la
  | some (_, off) =>
    let core := if bit la 20 then otherCore g.core else g.core
    la - off + min (s.launchOf g).lsPer (2 ^ 20 - coreRsv s core)

/-- The first local address of a range that raises LOCAL_RANGE (R29). A range of a pair team may go on from its own core's
store into the partner's. -/
def firstBadLocal (s : State) (g : Group) (la n : Nat) : Option Nat :=
  let e := localEnd s g la
  let e := if la < 2 ^ 20 ∧ e = 2 ^ 20 then localEnd s g e else e
  if n = 0 ∨ la + n ≤ e then none else some e

/-! ### The configuration (R273, R274) -/

def cfgAstr (c : Nat) : Nat := bits c 63 56
def cfgBstr (c : Nat) : Nat := bits c 55 48
def cfgAT (c : Nat) : Nat := bits c 39 35
def cfgBT (c : Nat) : Nat := bits c 34 30
def cfgAblk (c : Nat) : Nat := bits c 29 28
def cfgBblk (c : Nat) : Nat := bits c 27 26
def cfgAzp (c : Nat) : Bool := bit c 25
def cfgBzp (c : Nat) : Bool := bit c 24
def cfgSp (c : Nat) : Bool := bit c 16
def cfgTile (c : Nat) : Nat := bits c 10 8
def cfgM (c : Nat) : Nat := 16 * 2 ^ bits c 5 4
def cfgN (c : Nat) : Nat := 16 * 2 ^ bits c 3 2
def cfgK (c : Nat) : Nat := 16 * 2 ^ bits c 1 0

/-- The block size of an operand: 32 for mx4 and ts8, the code's for zb (R76). -/
def blockOf (t blk : Nat) : Nat := if t == 13 || t == 14 then 32 else 8 * 2 ^ blk

/-- R274: an operand's type, block-size code and zero-point bit are a valid choice for K. -/
def cfgOperandOk (t blk : Nat) (zp : Bool) (k : Nat) : Bool :=
  if t == 9 || t == 11 || t == 12 then blk == 0 && !zp
  else if t == 13 || t == 14 then blk == 2 && !zp && k % 32 == 0
  else if t == 15 || t == 16 then k % blockOf t blk == 0
  else false

/-- R274: codes 17 and 18 stand for FMT.A and FMT.B: type, block-size code and zero-point bit. -/
def cfgResolve (fmt t blk : Nat) (zp : Bool) : Option (Nat × Nat × Bool) :=
  if t == 17 || t == 18 then
    if blk == 0 && !zp then
      some (if t == 17 then (bits fmt 31 27, bits fmt 21 20, bit fmt 17) else (bits fmt 26 22, bits fmt 19 18, bit fmt 16))
    else none
  else some (t, blk, zp)

/-- R274: the value that MCFG writes, or none where it is invalid. -/
def cfgValue (fmt c : Nat) : Option Nat :=
  match cfgResolve fmt (cfgAT c) (cfgAblk c) (cfgAzp c), cfgResolve fmt (cfgBT c) (cfgBblk c) (cfgBzp c) with
  | some (at_, ab, az), some (bt, bb, bz) =>
    let k := cfgK c
    if bits c 47 40 == 0 && bits c 23 17 == 0 && bits c 15 11 == 0 && bits c 7 6 == 0 &&
        bits c 5 4 != 3 && bits c 3 2 != 3 && bits c 1 0 != 3 &&
        cfgOperandOk at_ ab az k && cfgOperandOk bt bb bz k then
      some (putBits (putBits (putBits (putBits (putBits (putBits c 39 35 at_) 34 30 bt) 29 28 ab) 27 26 bb)
        25 25 az.toNat) 24 24 bz.toNat)
    else none
  | _, _ => none

/-- MATRIX_CONFIG. -/
def matrixTrap (s : State) : State := trapCode s 0x0F

/-- R274. -/
def execMcfg (a : BitVec 6) (s : State) : Result :=
  strandSerial s (match cfgValue s.grp.st.fmt.toNat (s.reg a).toNat with
    | some v => (s.setGrp { s.grp with mconf := BitVec.ofNat 64 v, mcfggen := s.grp.mcfggen + 1 }).advance
    | none => matrixTrap s)

/-! ### Gangs (R280) -/

def gangCnt (v : Nat) : Nat := bits v 34 32
/-- The listed GIDs, in the order of their fields. -/
def gangList (v : Nat) : List Nat := (List.range (gangCnt v)).map (fun i => bits v (5 * i + 4) (5 * i))

/-- R280: a value that MGANG takes. -/
def gangOk (s : State) (v : Nat) : Bool :=
  let g := s.grp
  let n := gangCnt v
  let gs := gangList v
  bits v 63 35 == 0 && bits v 31 30 == 0 && n != 1 && n != 7 &&
  (List.range 6).all (fun i => decide (i < n) || bits v (5 * i + 4) (5 * i) == 0) &&
  (n == 0 || (decide (gs.dedup = gs) && gs.all (fun x => decide (x < (s.launchOf g).teamSize)) && gs.contains g.gid &&
    gs.all (fun x => match memberGroup s g x with
      | some j => (s.group j).core == g.core
      | none => true)))

def execMgang (a : BitVec 6) (s : State) : Result :=
  strandSerial s (if gangOk s (s.reg a).toNat then (s.setGrp { s.grp with gang := s.reg a }).advance
    else trapCode s 0x02)

/-! ### Operands (R275, R278) -/

/-- An operand as the engine reads it: type, zero points, block size (0 for none), BASE, SCB, stride in bytes, K. -/
structure Operand where
  ty : Ty
  zp : Bool
  bs : Nat
  base : Nat
  scb : Nat
  stride : Nat
  k : Nat
  deriving DecidableEq, Repr, Inhabited

def opBase (r : Nat) : Nat := bits r 20 0
def opScb (r : Nat) : Nat := bits r 52 32

def mkOperand (t blk : Nat) (zp : Bool) (str k r : Nat) : Operand :=
  let ty := (Ty.ofCode t).getD .bf16
  ⟨ty, zp, if ty.isBlock then blockOf t blk else 0, opBase r, opScb r,
    if str = 0 then k * ty.bits / 8 else 16 * str, k⟩

def operandA (c r : Nat) : Operand := mkOperand (cfgAT c) (cfgAblk c) (cfgAzp c) (cfgAstr c) (cfgK c) r
def operandB (c r : Nat) : Operand := mkOperand (cfgBT c) (cfgBblk c) (cfgBzp c) (cfgBstr c) (cfgK c) r

/-- Bytes of a scale: an E8M0 byte or a zb metadata word. -/
def scaleWidth (t : Ty) : Nat := if t == .zb4 || t == .zb8 then 4 else 1

/-- R78: where packed block `bit` of B lies among the set bits below it. -/
def packedIndex (bitmap b : Nat) : Nat := (maskList b bitmap).length

/-- The local address of element k of row or column i; a packed B takes its blocks in bit order (R278). -/
def elemLocal (o : Operand) (packed : Option Nat) (i k : Nat) : Nat × Bool :=
  let w := o.ty.bits
  match packed with
  | none => (o.base + i * o.stride + k * w / 8, k % 2 == 1)
  | some bm =>
    let e := i % 8 * 8 + k % 8
    (o.base + packedIndex bm (k / 8 * 8 + i / 8) * (8 * w) + e * w / 8, e % 2 == 1)

/-- The local address of the scale of element k of row or column i. -/
def scaleLocal (o : Operand) (i k : Nat) : Nat := o.scb + (i * (o.k / o.bs) + k / o.bs) * scaleWidth o.ty

/-- An element as the terms whose products are summed: its value, or the two terms of a ts8 element (R74). -/
def elemTerms (s : State) (r : Reader) (g : Group) (o : Operand) (packed : Option Nat) (i k : Nat) : List XVal :=
  let (la, odd) := elemLocal o packed i k
  let w := o.ty.bits
  let raw := storeNat s r g la ((w + 7) / 8)
  let q := if w == 4 then (if odd then raw / 16 else raw % 16) else raw
  let sc := storeNat s r g (scaleLocal o i k) (scaleWidth o.ty)
  if o.bs = 0 then [readFloat o.ty q]
  else if o.ty == .ts8 then ts8Terms q sc
  else [(blockValue o.ty q sc o.zp).1]

/-! ### Acceptance tests (R277) -/

/-- The ranges (address, length) that an operation reads, in the order in which they are tested: A, its scales, B,
its scales (log 30). -/
def readRanges (c ra rb : Nat) (bm : Option Nat) : List (Nat × Nat) :=
  let a := operandA c ra
  let b := operandB c rb
  let k := cfgK c
  let rows (o : Operand) (n : Nat) : List (Nat × Nat) :=
    (List.range n).map (fun i => (o.base + i * o.stride, k * o.ty.bits / 8))
  let scales (o : Operand) (n : Nat) : List (Nat × Nat) :=
    if o.bs = 0 then [] else [(o.scb, n * (k / o.bs) * scaleWidth o.ty)]
  let set (m kb nb : Nat) : Bool := bit m (kb * 8 + nb)
  let bRanges : List (Nat × Nat) := match bm with
    | none => rows b (cfgN c) ++ scales b (cfgN c)
    | some m =>
      (if cfgSp c then [(b.base, (maskList 64 m).length * (8 * b.ty.bits))]
       else (List.range (cfgN c)).flatMap (fun n => ((List.range (k / 8)).filter (fun kb => set m kb (n / 8))).map
        (fun kb => (b.base + n * b.stride + kb * b.ty.bits, b.ty.bits)))) ++
      (if b.bs = 0 then [] else (List.range (cfgN c)).flatMap (fun n => ((List.range (k / b.bs)).filter (fun j =>
        (List.range (b.bs / 8)).any (fun x => set m (j * (b.bs / 8) + x) (n / 8)))).map
        (fun j => (scaleLocal b n (j * b.bs), scaleWidth b.ty))))
  rows a (cfgM c) ++ scales a (cfgM c) ++ bRanges

/-- R277: the second test. -/
def mmaConfigBad (c ra rb : Nat) (bm : Option Nat) : Bool :=
  let res (r : Nat) : Bool := bits r 63 53 != 0 || bits r 31 21 != 0
  let scb (o : Operand) : Bool := o.bs == 0 && o.scb != 0
  let str (o : Operand) (x : Nat) : Bool := x != 0 && decide (o.stride < o.k * o.ty.bits / 8)
  let a := operandA c ra
  let b := operandB c rb
  c == 0 || res ra || res rb || scb a || scb b || str a (cfgAstr c) || str b (cfgBstr c) ||
  (match bm with
   | none => cfgSp c
   | some m => (cfgSp c && cfgBstr c != 0) ||
    (maskList 64 m).any (fun i => decide (cfgK c / 8 ≤ i / 8) || decide (cfgN c / 8 ≤ i % 8)))

/-- R277: MISALIGNED names the first misaligned address. -/
def mmaMisaligned (c ra rb : Nat) : Option Nat :=
  let zb (o : Operand) : Bool := o.ty == .zb4 || o.ty == .zb8
  let one (o : Operand) : Option Nat :=
    if o.base % 16 ≠ 0 then some o.base else if zb o && o.scb % 4 != 0 then some o.scb else none
  one (operandA c ra) <|> one (operandB c rb)

/-- A local-store trap of a matrix instruction. -/
def localTrap (s : State) (code la : Nat) : State := strandTrap s { code := code, addr := BitVec.ofNat 64 la }

/-! ### Acceptance (R272, R280) -/

def mopsOf (s : State) (core : Nat) : List MOp := s.mops.filter (fun o => o.core == core)
def mqFull (s : State) (core : Nat) : Bool := decide (16 ≤ (mopsOf s core).length)

/-- Accept an operation for a set of groups. Its reads follow the fences that they have made (R285). -/
def acceptMOp (s : State) (kind : MOpKind) (tile : Nat) (a b bitmap conf : Dword) (members : List Nat) : State :=
  { s with
    mops := s.mops ++ [{
      id := s.nextId
      core := s.grp.core
      grp := s.cur.grp
      kind := kind
      tile := tile
      a := a
      b := b
      bitmap := bitmap
      conf := conf
      members := members
      started := false
      gated := teamGated s s.grp
      stamp := s.ord
      own := members.map (fun gi => (gi, mapGet 0 (s.group gi).fences 1))
      vis := members.flatMap (fun gi => ((s.group gi).vis.filter (fun v => v.1 == 1)).map Prod.snd) }]
    nextId := s.nextId + 1 }

/-- The reader that an operation is. -/
def MOp.reader (o : MOp) : Reader := ⟨1, o.stamp, o.own, o.vis⟩
/-- The writer that it is. -/
def MOp.writer (o : MOp) : Writer := .engine 1 o.grp (o.core / 48)

/-- The set of a gang as a mask of GIDs. -/
def gangSet (v : Nat) : Nat := maskOf (gangList v)

/-- R280: an arrival at the rendezvous latch. -/
def gangArrive (s : State) (kind : MOpKind) (a b bitmap : Dword) : State :=
  let g := s.grp
  let gi := s.cur.grp
  let set := gangSet g.gang.toNat
  let item : Rendezvous := ⟨g.core, g.launch, g.team, set, kind, a, b, bitmap, g.mconf, g.mcfggen, [gi]⟩
  let same (r : Rendezvous) : Bool := r.core == g.core && r.launch == g.launch && r.team == g.team && r.gang == set
  let tile := cfgTile g.mconf.toNat
  let all (arr : List Nat) : Bool := decide (gangCnt g.gang.toNat ≤ arr.length)
  if s.rendezvous.any (fun r => r.arrived.contains gi) then s
  else match s.rendezvous.find? same with
    | none =>
      if 8 ≤ (s.rendezvous.filter (fun r => r.core == g.core)).length then s
      else { s with rendezvous := s.rendezvous ++ [item] }.advance
    | some r =>
      if { r with arrived := [gi] } ≠ item then trapCode s 0x0E
      else
        let arr := r.arrived ++ [gi]
        if all arr then
          if mqFull s g.core then s
          else (acceptMOp { s with rendezvous := s.rendezvous.filter (fun x => x != r) } kind tile a b bitmap g.mconf
            arr).advance
        else { s with rendezvous := s.rendezvous.map (fun x => if x == r then { r with arrived := arr } else x) }.advance

/-- R277: the tests of MMA and MMAS, then acceptance or an arrival. -/
def mmaOp (s : State) (kind : MOpKind) (a b : Dword) (bm : Option Nat) : State :=
  let g := s.grp
  let c := g.mconf.toNat
  if mmaConfigBad c a.toNat b.toNat bm then matrixTrap s
  else match mmaMisaligned c a.toNat b.toNat with
    | some la => localTrap s 0x05 la
    | none => match firstSome (fun r => firstBadLocal s g r.1 r.2) (readRanges c a.toNat b.toNat bm) with
      | some la => localTrap s 0x08 la
      | none =>
        let bitmap := BitVec.ofNat 64 (bm.getD 0)
        if gangCnt g.gang.toNat ≠ 0 then gangArrive s kind a b bitmap
        else if mqFull s g.core then s
        else (acceptMOp s kind (cfgTile c) a b bitmap g.mconf [s.cur.grp]).advance

def execMma (a b : BitVec 6) (s : State) : Result :=
  strandSerial s (mmaOp s .mma (s.reg a) (s.reg b) none)
def execMmas (d a b : BitVec 6) (s : State) : Result :=
  strandSerial s (mmaOp s .mmas (s.reg a) (s.reg b) (some (s.reg d).toNat))

/-- R281: an operation that only needs room in the queue. -/
def moverOp (s : State) (kind : MOpKind) (tile : Nat) (a b fmt conf : Dword) : State :=
  if mqFull s s.grp.core then s else (acceptMOp s kind tile a b fmt conf [s.cur.grp]).advance

def execMzero (t : BitVec 3) (s : State) : Result :=
  strandSerial s (moverOp s .mzero t.toNat 0 0 0 0)

def execMlda (a : BitVec 6) (t : BitVec 3) (s : State) : Result :=
  let la := (s.reg a).toNat
  strandSerial s (if la % 128 ≠ 0 then localTrap s 0x05 la
    else match firstBadLocal s s.grp la 16384 with
      | some x => localTrap s 0x08 x
      | none => moverOp s .mlda t.toNat (s.reg a) 0 0 0)

/-! ### MST (R282, R283) -/

def mstRv (d : Nat) : Nat := bits d 63 43
def mstMb (d : Nat) : Nat := bits d 42 22
def mstOstr (d : Nat) : Nat := bits d 21 14
def mstBlk (d : Nat) : Nat := bits d 13 12
def mstZp (d : Nat) : Bool := bit d 11
def mstClamp (d : Nat) : Nat := bits d 10 9
def mstReset (d : Nat) : Bool := bit d 8
def mstStq (d : Nat) : Bool := bit d 7
def mstSat (d : Nat) : Bool := bit d 6
def mstOt (d : Nat) : Nat := bits d 4 0
def mstTy (d : Nat) : Option Ty :=
  let t := mstOt d
  if 8 ≤ t ∧ t ≤ 16 then Ty.ofCode t else none
/-- The bytes of a packed row, and the row stride. -/
def mstRow (c : Nat) (t : Ty) : Nat := cfgN c * t.bits / 8
def mstStride (c d : Nat) (t : Ty) : Nat := if mstOstr d = 0 then mstRow c t else 16 * mstOstr d
def mstBlock (d : Nat) : Nat := blockOf (mstOt d) (mstBlk d)
/-- The scale of element n of row m. -/
def mstScale (c d : Nat) (t : Ty) (m n : Nat) : Nat :=
  mstMb d + (m * (cfgN c / mstBlock d) + n / mstBlock d) * scaleWidth t

/-- R283: MATRIX_CONFIG, or the output type. -/
def mstConfig (c d : Nat) : Option Ty :=
  match mstTy d with
  | none => none
  | some t =>
    let n := cfgN c
    if c == 0 || bit d 5 ||
      (!t.isBlock && (mstStq d || mstMb d != 0 || mstBlk d != 0 || mstZp d || mstClamp d != 0 || mstReset d ||
        mstRv d != 0)) ||
      ((t == .mx4 || t == .ts8) && (mstBlk d != 2 || mstZp d)) ||
      (t.isBlock && n % mstBlock d != 0) ||
      (mstOstr d != 0 && decide (16 * mstOstr d < mstRow c t)) then none
    else some t

/-- R281: MISALIGNED: the output, a zb metadata array, the residue vector. -/
def mstMisaligned (la d : Nat) (t : Ty) : Option Nat :=
  if la % 16 ≠ 0 then some la
  else if (t == .zb4 || t == .zb8) && mstMb d % 4 != 0 then some (mstMb d)
  else if mstStq d && mstRv d % 4 != 0 then some (mstRv d)
  else none

/-- The ranges that an MST reads or writes. -/
def mstRanges (c la d : Nat) (t : Ty) : List (Nat × Nat) :=
  (List.range (cfgM c)).map (fun m => (la + m * mstStride c d t, mstRow c t)) ++
  (if t.isBlock then [(mstMb d, cfgM c * (cfgN c / mstBlock d) * scaleWidth t)] else []) ++
  (if mstStq d then [(mstRv d, 4 * cfgM c)] else [])

def execMst (a b : BitVec 6) (t : BitVec 3) (s : State) : Result :=
  let la := (s.reg a).toNat
  let d := (s.reg b).toNat
  let c := s.grp.mconf.toNat
  strandSerial s (match mstConfig c d with
    | none => matrixTrap s
    | some ot => match mstMisaligned la d ot with
      | some x => localTrap s 0x05 x
      | none => match firstSome (fun r => firstBadLocal s s.grp r.1 r.2) (mstRanges c la d ot) with
        | some x => localTrap s 0x08 x
        | none => moverOp s .mst t.toNat (s.reg a) (s.reg b) s.grp.st.fmt s.grp.mconf)

/-- R284: MWAIT's wait and its effect, that of XFENCE naming LANE and MATRIX; then what follows. SEND and SHALT perform it
first. -/
def mwaitThen (s : State) (k : State → State) : State :=
  if matrixBusy s s.cur.grp || !fenceReady s s.cur.grp 3 then s else k (fenceEffect s s.cur.grp 3)

def execMwait (s : State) : Result := strandSerial s (mwaitThen s State.advance)

/-! ### Tiles (R262, R271) -/

def tileKey (core tile : Nat) : Nat := 8 * core + tile
def tileAt (s : State) (k m n : Nat) : Nat := (mapGet 0 s.tiles (4096 * k + 64 * m + n)).toNat
/-- Write elements (m, n, value) of a tile. -/
def tilePut (s : State) (k : Nat) (xs : List (Nat × Nat × Nat)) : State :=
  { s with tiles := xs.foldl (fun t x => mapSet 0 t (4096 * k + 64 * x.1 + x.2.1) (BitVec.ofNat 32 x.2.2)) s.tiles }
def tileIndices : List (Nat × Nat) := (List.range 64).flatMap (fun m => (List.range 64).map (fun n => (m, n)))
def tileFill (s : State) (k : Nat) (f : Nat → Nat → Nat) : State :=
  tilePut s k (tileIndices.map (fun p => (p.1, p.2, f p.1 p.2)))
/-- The address of a tile's slot in a team frame (R265). -/
def tileSlot (s : State) (launch team k : Nat) : Nat :=
  let t := s.team (teamIndex s launch team)
  let c := if (s.launch launch).pair then k / 8 % 2 else 0
  teamFrameAddr s t + 0x200000 + 0x21000 * c + 0x4000 * (k % 8)

/-- Two launches belong to one context (log 31). -/
def sameContext (s : State) (l m : Nat) : Bool := (s.launch l).asid == (s.launch m).asid

def teamEnded (s : State) (launch team : Nat) : Bool := (s.team (teamIndex s launch team)).ended

/-- R262: the tile of the context that owned it goes out. -/
def tileScanOut (s : State) (k : Nat) (tag : TileTag) : State :=
  if teamEnded s tag.launch tag.team then
    { s with tileOuts := ⟨k, tag.launch, tag.team, false⟩ :: s.tileOuts }
  else
    let ds := (List.range 2048).map (fun i =>
      let at_ (e : Nat) : Nat := tileAt s k (e / 64) (e % 64)
      BitVec.ofNat 64 (at_ (2 * i) + at_ (2 * i + 1) * 2 ^ 32))
    let s := performDwords s (tileSlot s tag.launch tag.team k) ds
    { s with tileOuts := ⟨k, tag.launch, tag.team, true⟩ :: s.tileOuts }

/-- What a context finds in a tile that it does not own: its own content back from the slot, +0 after a drop until it
has written the tile again; where it has never written the tile since another context did, or its frame has gone, an open value (log 32). -/
def tileScanIn (s : State) (k launch : Nat) : State :=
  match s.tileOuts.find? (fun o => o.key == k && sameContext s o.launch launch) with
  | some o =>
    let s1 : State := { s with tileOuts := s.tileOuts.filter (fun x => x != o) }
    if !o.saved then tileFill s k (fun _ _ => 0)
    else if teamEnded s o.launch o.team then
      tileFill s1 k (fun m n => (Config.freeWord s.tick (0x10000 + 64 * m + n)).toNat % 2 ^ 32)
    else
      let a := tileSlot s o.launch o.team k
      { tileFill s1 k (fun m n => memRead s.mem (a + 256 * m + 4 * n) 4) with
        tileTags := mapSet default s.tileTags k ⟨true, o.launch, o.team⟩ }
  | none => tileFill s k (fun m n => (Config.freeWord s.tick (0x10000 + 64 * m + n)).toNat % 2 ^ 32)

/-- R262: an operation of a context enters a tile. -/
def tileEnter (s : State) (k launch : Nat) : State :=
  let tag := mapGet default s.tileTags k
  if tag.owned && sameContext s tag.launch launch then s
  else if !tag.owned && !s.tileOuts.any (fun o => o.key == k) then s
  else
    let s := if tag.owned then tileScanOut s k tag else s
    tileScanIn { s with tileTags := mapSet default s.tileTags k default } k launch

/-- R262: the tile now belongs to the team that wrote it; what its context had there before is gone. -/
def tileOwn (s : State) (k launch team : Nat) : State :=
  { s with
    tileTags := mapSet default s.tileTags k ⟨true, launch, team⟩
    tileOuts := s.tileOuts.filter (fun o => !(o.key == k && sameContext s o.launch launch)) }

/-! ### Performing an operation (R276, R281, R283) -/

/-- The products of elements, each the exact sum of the products of its terms (R74). -/
def termPairs (as_ bs : List (List XVal)) : List (XVal × XVal) :=
  (as_.zip bs).flatMap (fun p => p.1.flatMap (fun x => p.2.map (fun y => (x, y))))

/-- R276: the runs of 8 along K of one element; a skipped block forms no product. -/
def macRuns (skip : Nat → Bool) : Nat → Nat → Nat → List (List XVal) → List (List XVal) → Nat
  | 0, _, acc, _, _ => acc
  | fuel + 1, kb, acc, as_, bs =>
    let acc := if skip kb then acc else (accum8 false acc (termPairs (as_.take 8) (bs.take 8))).1
    macRuns skip fuel (kb + 1) acc (as_.drop 8) (bs.drop 8)

/-- R276. -/
def performMma (s : State) (o : MOp) : State :=
  let g := s.group o.grp
  let c := o.conf.toNat
  let k := cfgK c
  let bm := o.bitmap.toNat
  let sparse := o.kind == .mmas
  let packed := if sparse && cfgSp c then some bm else none
  let keep (kb nb : Nat) : Bool := !sparse || bit bm (kb * 8 + nb)
  let oa := operandA c o.a.toNat
  let ob := operandB c o.b.toNat
  let rows := (List.range (cfgM c)).map (fun m => (m, (List.range k).map (elemTerms s o.reader g oa none m)))
  let cols := (List.range (cfgN c)).map (fun n => (n, (List.range k).map (fun j =>
    if keep (j / 8) (n / 8) then elemTerms s o.reader g ob packed n j else [XVal.zero])))
  let key := tileKey o.core o.tile
  tilePut s key (rows.flatMap (fun r => cols.map (fun cl =>
    (r.1, cl.1, macRuns (fun kb => !keep kb (cl.1 / 8)) (k / 8) 0 (tileAt s key r.1 cl.1) r.2 cl.2))))

/-- Codes of a row as bytes: two 4-bit codes to a byte, the even one low. -/
def packCodes (t : Ty) : Nat → List Nat → List Byte
  | 0, _ => []
  | _, [] => []
  | fuel + 1, q :: qs =>
    if t.bits == 4 then BitVec.ofNat 8 (q % 16 + qs.headD 0 % 16 * 16) :: packCodes t fuel (qs.drop 1)
    else bytesOf (t.bits / 8) q ++ packCodes t fuel qs

/-- R250: one row converted with its carry: the codes and the carry left. -/
def stqRow (t : Ty) (d : Nat) (md : Nat → Nat) : Nat → List Nat → Nat → List Nat × Nat
  | _, [], c => ([], c)
  | n, a :: as_, c =>
    let c := if mstReset d && n % mstBlock d == 0 then 0 else c
    let x := (xadd .rne (readFloat .f32 a) (readFloat .f32 c)).1
    let (q, r, _) := stippleStep x t (md n) (mstZp d) (mstClamp d)
    let (qs, c') := stqRow t d md (n + 1) as_ r
    (q :: qs, c')

/-- Blocks of 32 elements converted with scales chosen by R75: codes and scale bytes. -/
def blockRow (t : Ty) (mode : Mode) : Nat → List Nat → List Nat × List Nat
  | 0, _ => ([], [])
  | fuel + 1, xs =>
    if xs.isEmpty then ([], [])
    else
      let (sc, qs, _) := blockConvert t mode ((xs.take 32).map (readFloat .f32))
      let (rq, rs) := blockRow t mode fuel (xs.drop 32)
      (qs ++ rq, sc :: rs)

/-- R283: convert and store one row. -/
def storeRow (s : State) (o : MOp) (t : Ty) (m : Nat) : State :=
  let g := s.group o.grp
  let c := o.conf.toNat
  let d := o.b.toNat
  let f := o.bitmap.toNat
  let la := o.a.toNat + m * mstStride c d t
  let xs := (List.range (cfgN c)).map (tileAt s (tileKey o.core o.tile) m)
  let mode := Mode.ofCode (bits f 15 13) 6
  let md (n : Nat) : Nat := storeNat s o.reader g (mstScale c d t m n) (scaleWidth t)
  let put (s : State) (qs : List Nat) : State := storePut o.writer s g la (packCodes t 64 qs)
  if mstStq d then
    let rv := mstRv d + 4 * m
    let (qs, r) := stqRow t d md 0 xs (storeNat s o.reader g rv 4)
    storePut o.writer (put s qs) g rv (bytesOf 4 r)
  else if t == .mx4 || t == .ts8 then
    let (qs, scs) := blockRow t mode 2 xs
    storePut o.writer (put s qs) g (mstScale c d t m 0) (scs.map (BitVec.ofNat 8))
  else if t == .zb4 || t == .zb8 then
    put s ((List.range (cfgN c)).zip xs |>.map (fun p => (quantise t mode (readFloat .f32 p.2) (md p.1) (mstZp d)).1))
  else
    put s (xs.map (fun x => (roundTo t mode (mstSat d || bit f 12) false (readFloat .f32 x)).1))

/-- The writes of an operation. The rows of MST.stq are converted in ascending order (R250, log 89). -/
def performMOp (s : State) (o : MOp) : State :=
  let g := s.group o.grp
  let key := tileKey o.core o.tile
  let s := tileEnter s key g.launch
  let own (s : State) : State := tileOwn s key g.launch g.team
  match o.kind with
  | .mma | .mmas => own (performMma s o)
  | .mzero => own (tileFill s key (fun _ _ => 0))
  | .mlda => own (tileFill s key (fun m n => storeNat s o.reader g (o.a.toNat + 256 * m + 4 * n) 4))
  | .mst => match mstTy o.b.toNat with
    | some t => (List.range (cfgM o.conf.toNat)).foldl (fun s m => storeRow s o t m) s
    | none => s

/-- R272: the engine starts the oldest operation that has not started. One whose clock is gated holds its progress, and
does not hold back the others (R262). -/
def execMatrixOperation (core : Nat) (s : State) : Result :=
  .next (match (mopsOf s core).find? (fun o => !o.started && !o.gated) with
    | some o => { s with mops := s.mops.map (fun x => if x.id == o.id then { x with started := true } else x) }
    | none => s)

/-- The writes of an operation are those of a completed command of each of its groups (R45). -/
def noteMOp (s t : State) (o : MOp) : State :=
  let ws := writesSince s t o.writer 1
  o.members.foldl (fun u gi => u.setGroup gi { u.group gi with engw := ws ++ (u.group gi).engw }) t

/-- R279: the writes of the oldest operation are complete. -/
def execMatrixCompletion (core : Nat) (s : State) : Result :=
  .next (match (mopsOf s core).filter (fun o => !o.gated) with
    | o :: _ => if o.started then
        let s0 := { s with mops := s.mops.filter (fun x => x.id != o.id) }
        noteMOp s0 (performMOp s0 o) o
      else s
    | [] => s)

end Sys2Proof.Machine
end

