-- ==== Sys2Proof/Machine/Contexts.lean ====
section
/-! DEFINITION. Context records (R399), queue faults (R406), what the front end reads and writes (R403), pins (R322),
the end of a group, a team and a launch (R175, R411), and the kill of a context (R266, R442). -/

namespace Sys2Proof.Machine

/-! ### Context records (R399) -/

/-- A context record of a queue, as memory holds it. -/
def ctxOf (s : State) (q : Nat) : Nat := memRead s.mem (dpaLocal (qcbCtx (qcbImage s q))) 128
def ctxGbase (c : Nat) : Nat := bits c 1023 960
def ctxGcount (c : Nat) : Nat := bits c 959 928
def ctxTbase (c : Nat) : Nat := bits c 927 864
def ctxTcount (c : Nat) : Nat := bits c 863 848
def ctxAsid (c : Nat) : Nat := bits c 79 64
def ctxMaint (c : Nat) : Bool := bit c 9
def ctxPriv (c : Nat) : Bool := bit c 8
def ctxVf (c : Nat) : Nat := bits c 5 0

/-- R403. -/
def ctxOk (s : State) (c : Nat) : Bool :=
  bits c 847 80 == 0 && bits c 63 10 == 0 && bits c 7 6 == 0 && (!ctxMaint c || ctxPriv c) &&
  asidBound s (ctxAsid c) && asidVf s (ctxAsid c) == ctxVf c

def State.queue (s : State) (q : Nat) : QRun := mapGet default s.queues q
def State.setQueue (s : State) (q : Nat) (r : QRun) : State := { s with queues := mapSet default s.queues q r }

/-- The ring count at which the entry stands that holds, or leads to, the executing packet. -/
def ringAt (s : State) (q : Nat) : Nat :=
  match (s.queue q).frames.getLast? with
  | some (.loop start _ _ pos) => start + pos
  | _ => qcbHead (qcbImage s q)

/-- The identity under which a queue's remote requests are kept. -/
def frontGroup (q : Nat) : Nat := 2 ^ 40 + q

/-- R402: a queue's lane is free again. -/
def leaveLane (s : State) (q : Nat) : State :=
  { s with
    lanes := s.lanes.filter (fun l => l.queue != q)
    laneStep := s.laneStep.filter (fun x => x != q) }

/-- The ring entries that a queue holds are dropped: they may be written anew. -/
def dropRing (r : QRun) : QRun := { r with ahead := r.ahead.filter (fun p => decide (2 ^ 64 ≤ p.1)) }

/-- R406. -/
def queueFault (s : State) (q fcode : Nat) (finfo : Dword) : State :=
  let head := ringAt s q
  let i := qcbImage s q
  let i := putBits (putBits (putBits (putBits i 351 320 head) 319 256 finfo.toNat) 255 248 fcode) 211 210 2
  let s := qcbPut s q i
  let s := forgetBad (leaveLane (s.setQueue q { dropRing (s.queue q) with
    frames := []
    skip := 0
    waiting := false
    parked := false
    posted := false }) q) (frontGroup q)
  let s : State := { s with monitors := s.monitors.filter (fun m => m.who != .queue q) }
  notify s (ctxVf (ctxOf s q))

/-! ### Front-end accesses (R403) -/

/-- Pieces of a byte range that lie within one 128-byte line each. -/
def pieces : Nat → Nat → Nat → List (Nat × Nat)
  | 0, _, _ => []
  | fuel + 1, va, n =>
    if n = 0 then []
    else
      let k := min n (128 - va % 128)
      (va, k) :: pieces fuel (va + k) (n - k)

/-- A translation of the front end. An error is the state with the queue faulted, or with a directory asked. -/
def frontAccess (s : State) (q va : Nat) (need : Need) : Except State Acc :=
  let c := ctxOf s q
  match testAccess s none (ctxAsid c) 0 (ctxPriv c) va 1 need with
  | .ok x =>
    let a := mixedAcc s true (ctxAsid c) 0 va x
    if a.needDir then
      match directoryStep s 1 (BitVec.ofNat 64 va) a with
      | .wait s' => .error s'
      | .fail e => .error (queueFault (dropRemote s 1) q e (BitVec.ofNat 64 va))
      | .done _ _ => .error (dropRemote s 1)
    else .ok a
  | .error f =>
    let s := if f.bad then postFault s { kind := 7, code := 0x07, va := BitVec.ofNat 64 va, asid := ctxAsid c, vf := ctxVf c
                                         acc := need.r.toNat * need.w.toNat + need.w.toNat } else s
    .error (queueFault s q (if f.cond = 3 then 0x06 else 0x07) (BitVec.ofNat 64 va))

/-- Bytes of a register region. -/
def regBytes (s : State) (loc n : Nat) : List Byte :=
  (List.range n).map (fun i => BitVec.ofNat 8 (unitPart (regValue s (loc + i)) ((loc + i) % 8) 1))

/-- Coherent loads of a byte range, each within its line. -/
def frontRead (s : State) (q : Nat) : List (Nat × Nat) → Except State (List Byte)
  | [] => .ok []
  | (va, n) :: ps =>
    match frontAccess s q va needR with
    | .error t => .error t
    | .ok a =>
      let rest (here : List Byte) : Except State (List Byte) :=
        match frontRead s q ps with
        | .ok bs => .ok (here ++ bs)
        | .error t => .error t
      let va64 := BitVec.ofNat 64 va
      if a.pkg != s.pkg then
        match remoteStep s 0 va64 a.dpa (.load n) with
        | .wait s' => .error s'
        | .fail c => .error (queueFault (dropRemote s 0) q c va64)
        | .done bs p => if p != 0 then .error (queueFault (dropRemote s 0) q 0x19 va64) else rest bs
      else if a.reg then rest (regBytes s a.loc n)
      else if (List.range n).any (fun i => poisoned s (a.loc + i)) then .error (queueFault s q 0x19 va64)
      else rest (bytesOf n (memAt s a.loc n))

def frontBytes (s : State) (q va n : Nat) : Except State (List Byte) := frontRead s q (pieces (n / 128 + 2) va n)

/-- A write of an agent at a resolved place. A line that its home slice here does not hold is written in its frame (R334). -/
def placeStoreBy (w : Writer) (s : State) (a : Acc) (size : Nat) (v : Dword) : State :=
  if a.pkg != s.pkg then issueRemote s 0 0 a.dpa (.store size v)
  else if a.needDir then
    match farTarget s (a.loc / 8) with
    | some d => issueRemote s 0 0 (d + a.loc % 8) (.store size v)
    | none => s
  else if a.reg then regStore s a.loc size v
  else
    let t := performBytesBy s w a.loc size v
    if a.home == 3 then sureWrites t a.loc else t
/-- A write of the front end. -/
def placeStore (s : State) (a : Acc) (size : Nat) (v : Dword) : State := placeStoreBy .inside s a size v

/-! ### Pins (R322, R325) -/

def Pin.acc (s : State) (p : Pin) (va : Nat) : Acc := resolve s true p.die va p.leaf.toNat p.level
/-- The frame or GPN that a pin locks. -/
def Pin.key (p : Pin) : Nat × Bool := (pteFrame p.leaf.toNat, pteMIG p.leaf.toNat)
def Pin.size (p : Pin) : Nat := 2 ^ (12 + 9 * p.level)
def Pin.covers (p : Pin) (va : Nat) : Bool := decide (p.va ≤ va) && decide (va < p.va + p.size)

/-- R333: PINS of a page of this directory follows its pins. -/
def pinPage (s : State) (gpn : Nat) (up : Bool) : State :=
  if gpnPkg gpn == s.pkg then
    let a := dirEntry s gpn + 24
    let n := memRead s.mem a 2
    performBytes s a 2 (BitVec.ofNat 64 (if up then n + 1 else n - 1))
  else s

/-- The same for a list of pins. -/
def pinCount (s : State) (ps : List Pin) (up : Bool) : State :=
  ps.foldl (fun s p => if pteMIG p.leaf.toNat then pinPage s (pteFrame p.leaf.toNat) up else s) s

/-! ### The end of a group, a team, a launch -/

def Launch.teams (l : Launch) : Nat := l.gx * l.gy * l.gz
def State.setLaunch (s : State) (i : Nat) (l : Launch) : State := { s with launches := listSet s.launches i l }

/-- R411: every group of the grid has ended. -/
def launchOver (s : State) (li : Nat) : Bool :=
  let l := s.launch li
  decide (l.teams ≤ l.started.length) && s.groups.all (fun g => g.launch != li || g.run == .ended)

/-- R411: the completion dword, then the W packets. -/
def finishLaunch (s : State) (li : Nat) : State :=
  let l := s.launch li
  if l.done || l.killed || !launchOver s li then s
  else
    let s := s.setLaunch li { l with done := true, cpin := none }
    let s := match l.cpin with
      | some p =>
        let old := s.cur
        let s := placeStore { s with cur := { s.cur with grp := frontGroup l.queue } } (p.acc s l.caddr) 8 l.cval
        pinCount { s with cur := old } [p] false
      | none => s
    let left := (s.queue l.queue).launches.filter (fun x => x != li)
    s.setQueue l.queue { s.queue l.queue with
      launches := left
      parked := (s.queue l.queue).parked && !left.isEmpty }

/-- The group leaves the sleepers of every queue. -/
def dropSleeper (s : State) (gi : Nat) : State :=
  let cut (p : Nat × List Nat) : Nat × List Nat := (p.1, p.2.filter (fun x => x != gi))
  { s with sleepers := (s.sleepers.map cut).filter (fun p => !p.2.isEmpty) }

/-- The queues whose control block is not all zeros: the cached ones, and those with a nonzero byte in the table
(R397). -/
def knownQueues (s : State) : List Nat :=
  let base := qcbHome s 0
  (s.qcache.map Prod.fst ++ (s.mem.filter (fun c => decide (base ≤ c.1) && decide (c.1 < base + 2 ^ 26))).map
    (fun c => (c.1 - base) / 64)).dedup

/-- R175: the local store and barrier objects of a team whose groups have all ended. -/
def finishTeam (s : State) (launch team : Nat) : State :=
  if (teamGroups s launch team).any (fun x => x.run != .ended) then s
  else
    let i := teamIndex s launch team
    let l := s.launch launch
    let s := (dropLocal s i).setTeam i { s.team i with ended := true, loc0 := [], loc1 := [], bad := [] }
    let own (b : Barrier) : Bool := b.valid && b.asid == l.asid && b.ltag == l.ltag && b.team == team
    let free (p : Nat × Barrier) : Nat × Barrier := (p.1, if own p.2 then { p.2 with valid := false } else p.2)
    { s with barriers := (s.barriers.map free).filter (fun p => p.2 != default) }

/-- R175: the slot is freed; the group leaves its domain (R416). -/
def removeGroup (s : State) (gi : Nat) : State :=
  let g := s.group gi
  let s := forgetBad (dropWaiter (dropSleeper s gi) g) gi
  let s : State := { s with
    monitors := s.monitors.filter (fun m => m.who != .group gi)
    remote := s.remote.filter (fun r => r.grp != gi) }
  s.setGroup gi { g with
    run := .ended
    eligible := false
    wait := .none
    tdet := none
    tdom := none
    blocks := []
    frags := []
    recon := []
    spilled := []
    vqin := []
    side := []
    slds := []
    deferred := []
    save := none
    saveReq := none }

/-- A group ends. The local store of a team of which no group is resident any more is saved (R264), and gated work of its
context goes on where another group of it is resident (R262). -/
def endGroup (s : State) (gi : Nat) : State :=
  let g := s.group gi
  let s1 := finishTeam (loseLatches (removeGroup s gi) g) g.launch g.team
  let s2 := saveStore s1 (s1.teamOf g)
  let s3 := (teamCores s2 g).foldl (fun s c => ungateLeft s c (s.launchOf g).asid) s2
  finishLaunch s3 g.launch

/-! ### Kill (R266, R442) -/

/-- The control word of a heap (R387). -/
def heapAddr (stack slot : Nat) : Nat := 0x3F0000300000 + 0x1000 * stack + 8 * slot

/-- R434: the communicator that a collective command names. -/
def commAddr (c : Nat) : Nat := 0x3F0000501000 + 32 * c
def cmdComm (c : Cmd) : Nat := bits (c.words[1]?.getD 0).toNat 63 58
/-- The opcodes that use a communicator. -/
def cmdIsComm (c : Cmd) : Bool := c.eng == 3 && cmdOpc (c.words.headD 0) != 0x45

/-- R442: an operation of the killed context that is in progress breaks its communicator. -/
def breakComm (s : State) (c : Cmd) : State :=
  if cmdIsComm c && c.state != .done then
    let a := commAddr (cmdComm c) + 8
    regSet s a (regGet s a ||| BitVec.ofNat 64 (2 ^ 62))
  else s

/-- Stop an engine command at once. -/
def cancelCmd (s : State) (c : Cmd) : State :=
  let s := breakComm s c
  let s := pinCount s c.trans false
  let s := (s.searches.filter (fun x => x.cmd == c.id)).foldl (fun s x => regSet s (heapAddr x.home x.slot) 0) s
  { s with
    cmds := s.cmds.filter (fun x => x.id != c.id)
    searches := s.searches.filter (fun x => x.cmd != c.id)
    colls := s.colls.filter (fun x => x.cmd != c.id)
    chunks := s.chunks.filter (fun x => x.cmd != c.id)
    mcasts := s.mcasts.filter (fun x => x.cmd != c.id)
    remote := s.remote.filter (fun r => r.grp != 2 ^ 41 + c.id) }

/-- R442: which of a group's stores that are not yet performed other contexts may see is open: each is performed or
dropped. -/
def loseStores (s : State) (gi : Nat) : State :=
  let keep (d : Dirty) : Bool := !d.cp && s.free (5000 + d.stamp) % 2 == 0
  performDirty { s with dirty := s.dirty.filter (fun d => d.grp != gi || keep d) } (fun d => d.grp == gi)

/-- Groups of a context that exist. -/
def groupsOfAsid (s : State) (asid : Nat) : List Nat :=
  (List.range s.groups.length).filter (fun i => (s.launchOf (s.group i)).asid == asid && (s.group i).run != .ended)

/-- R266: a group is removed with no save and no pub. -/
def killGroup (s : State) (gi : Nat) : State :=
  let g := s.group gi
  let s := loseLatches (removeGroup (dropPlaces (loseStores s gi) gi) gi) g
  finishTeam s g.launch g.team

def killContext (s : State) (asid : Nat) : State :=
  let mine (l : Nat) : Bool := (s.launch l).asid == asid
  let inn (g : Nat) : Bool := mine (s.group g).launch
  let gs := groupsOfAsid s asid
  let s1 : State := { s with
    launches := s.launches.map (fun l => if l.asid == asid && !l.done then { l with killed := true, cpin := none } else l)
    mops := s.mops.filter (fun o => !inn o.grp)
    rendezvous := s.rendezvous.filter (fun r => !mine r.launch) }
  let s2 := (s.launches.filter (fun l => l.asid == asid && !l.done)).foldl
    (fun s l => pinCount s l.cpin.toList false) s1
  let s3 := (s2.cmds.filter (fun c => inn c.grp)).foldl cancelCmd s2
  let s4 := gs.foldl killGroup s3
  let qs := (knownQueues s4).filter (fun q => qcbKind (qcbImage s q) != 0 && qcbOk s q &&
    ctxAsid (ctxOf s q) == asid)
  let s5 := qs.foldl (fun s q => queueFault s q 0x1A 0) s4
  postFault s5 { kind := 5, code := 0x1A, asid := asid, vf := asidVf s asid }

end Sys2Proof.Machine
end

