-- ==== Sys2Proof/Machine/System.lean ====
section
/-! DEFINITION. Special registers (R170-R173, R148) and the system instructions (R174-R179, R255). -/

namespace Sys2Proof.Machine

/-! ### SGETR, SSETR (R170, R171) -/

/-- R170: SGETR is free, but FPFLAGS holds what every earlier block has raised only once they have ended (R68, R150). In a
handler it does not wait for the suspended block (log 86). -/
def execSgetr (d : BitVec 6) (r : BitVec 8) (s : State) : Result :=
  strandFree s [d] (
    if !specialOk r then trapCode s 0x01
    else if r = 0x11 && s.grp.ahead then s
    else s.wb d (specialReg s s.grp r.toNat))

/-- R148: a value that QBINDn takes. -/
def qbindOk (v : Nat) : Bool :=
  bits v 63 13 == 0 && bits v 7 4 == 0 && decide (bits v 12 8 ≤ 23) && decide (bits v 3 0 ≤ 5) &&
  !(bits v 3 0 == 1 && bits v 12 8 != 0)

/-- R4: the endpoint is on this part. -/
def unitPresent (s : State) (v : Nat) : Bool :=
  !(bits v 3 0 == 4 && !bit s.caps.toNat 0) && !(bits v 3 0 == 5 && !bit s.caps.toNat 1)

/-- R148: bind a queue register, once its earlier pushes have been accepted. -/
def setQbind (s : State) (n : Nat) (v : Dword) : State :=
  if !qbindOk v.toNat then trapCode s 0x02
  else if !unitPresent s v.toNat then trapCode s 0x0C
  else if !(mapGet [] s.grp.pushq n).isEmpty then s
  else (s.setGrp { s.grp with qbind := mapSet 0 s.grp.qbind n v }).advance

/-- R170: the write of a special register past PRIVILEGE. -/
def writeSpecial (s : State) (n : Nat) (v : Dword) : State :=
  let g := s.grp
  let bad (b : Bool) (k : State) : State := if b then trapCode s 0x02 else k
  match n with
  | 0x09 => bad (!fmtOk v) (s.setFmt v).advance
  | 0x0A => bad (!axisOk v) (s.setAxis 0 v).advance
  | 0x0B => bad (!axisOk v) (s.setAxis 1 v).advance
  | 0x0C => bad (!axisOk v) (s.setAxis 2 v).advance
  | 0x0D => bad (!axisOk v) (s.setAxis 3 v).advance
  | 0x10 => bad (bits v.toNat 63 1 != 0) (s.setGrp { g with fpmode := v }).advance
  | 0x11 => bad (bits v.toNat 63 6 != 0) (s.setGrp { g with fpflags := clearFlags g.fpflags v }).advance
  | 0x12 => bad (bits v.toNat 63 54 != 0 || bits v.toNat 1 0 != 0) (s.setGrp { g with trapvec := v }).advance
  | 0x13 => bad (bits v.toNat 63 54 != 0 || bits v.toNat 6 0 != 0) (s.setGrp { g with traprec := v }).advance
  | 0x18 => bad (bits v.toNat 63 32 != 0) (s.setGrp { g with pretmo := v }).advance
  | n => if 0x20 ≤ n ∧ n < 0x30 then setQbind s (n - 0x20) v else trapCode s 0x02

def execSsetr (a : BitVec 6) (r : BitVec 8) (s : State) : Result :=
  strandSerial s (
    if !specialOk r then trapCode s 0x01
    else if r = 0x18 && !(s.launchOf s.grp).priv then trapCode s 0x18
    else writeSpecial s r.toNat (s.reg a))

/-! ### SEND, SHALT (R175, R178) -/

/-- R175: SEND in its steps. -/
def execSend (s : State) : Result :=
  let gi := s.cur.grp
  strandSerial s (
    mwaitThen s (fun s0 =>
      if s0.grp.pushq.any (fun p => !p.2.isEmpty) then s0
      else
        let s1 := pub s0 gi 5
        if !pubReady s1 gi 5 then s1
        else endGroup (dropPlaces s1 gi) gi))

/-- R178: after MWAIT the whole context is saved with SPC = N, after the pub at .sys; the save frees the slot. -/
def execShalt (s : State) : Result :=
  let gi := s.cur.grp
  strandSerial s (
    if !(s.launchOf s.grp).priv then trapCode s 0x18
    else mwaitThen s (fun s0 => saveGroup s0.advance gi {
      st := 3
      full := true
      vmap := 0
      lsmap := 0
      eligible := false
      post := none
      fatal := [] }))

/-! ### STRAP, SBKPT (R176) -/

def execStrap (c : BitVec 8) (s : State) : Result :=
  strandSerial s (strandTrap s { code := 0x16, cause := c.toNat, spc := s.next })
def execSbkpt (s : State) : Result :=
  strandSerial s (strandTrap s { code := 0x17, spc := s.next })

/-! ### SRFT (R255) -/

/-- What reading a record finds: a fault with its address, a state in which the group waits, or the dwords. -/
inductive RecordRead where
  | fault (f : MemFault) (va : Dword)
  | wait (s : State)
  | ok (ds : List Dword) (s : State)

/-- The last `n` dwords of the record read as ordinary loads of the group. Those that hold only fields for reading (ADDR,
DPC, INFO) are not read. -/
def readRecord (s : State) (va : Dword) : Nat → RecordRead
  | 0 => .ok [] s
  | n + 1 =>
    let cons (v : Dword) (s1 : State) : RecordRead := match readRecord s1 (va + 8) n with
      | .ok vs s2 => .ok (v :: vs) s2
      | r => r
    if n == 12 || n == 11 || n == 9 then cons 0 s
    else match groupAccess s va 8 needR with
    | .error f => .fault f va
    | .ok a =>
      if a.needDir then
        match directoryStep s s.spc va a with
        | .wait s1 => .wait s1
        | .fail c => .fault ⟨4, c, 7, false⟩ va
        | .done _ _ => .wait (dropRemote s s.spc)
      else if a.pkg != s.pkg then
        match remoteStep (noteAccess s va a) s.spc va a.dpa (.load 8) with
        | .wait s1 => .wait s1
        | .fail c => .fault ⟨4, c, 7, false⟩ va
        | .done bs p => if p != 0 then .fault ⟨4, 0x19, 7, false⟩ va else cons (BitVec.ofNat 64 (natOfBytes (bs.take 8))) s
      else if a.reg then cons (regValue s a.loc) s
      else match loadClean (noteAccess s va a) s.cur.grp a 8 (700 + n) with
        | some (v, s1) => cons v s1
        | none => .fault ⟨4, 0x19, 7, false⟩ va

/-- R253: the reserved bits of a record, by dword. -/
def recordReserved : List Dword :=
  [maskBits 63 53, 0, BitVec.ofNat 64 (2 ^ 64 - 2 ^ 58 + 2 ^ 32 - 2 ^ 6), 0, 0, 0, 0, allOnes64, allOnes64, allOnes64,
   allOnes64, allOnes64, 0, 0, 0, 0]

/-- R255: the return to the state that a record holds. -/
def srftReturn (s : State) (r : List Dword) : State :=
  let d (i : Nat) : Dword := r[i]?.getD 0
  let spc := d 1
  let fmt := d 5
  if (r.zip recordReserved).any (fun p => p.1 &&& p.2 != 0) || bits spc.toNat 1 0 != 0 || bits spc.toNat 63 54 != 0 ||
      !fmtOk fmt then
    fatal s { code := 0x02, spc := s.spc, fmt := s.grp.st.fmt }
  else
    let g := s.grp
    let st := ((((g.st.set 60 (d 12)).set 61 (d 13)).set 62 (d 14)).set 63 (d 15))
    let g1 : Group :=
      if g.dsrc = 1 then
        let f := mapGet default g.frags g.dfrag
        let f1 := { f with fmtc := BitVec.ofNat 25 (fmt.toNat / 2 ^ 7) }
        let f2 := if bit (d 0).toNat 52 then { f1 with pc := BitVec.ofNat 26 (g.dlpc + 1) } else f1
        { g with st := st, frags := mapSet default g.frags g.dfrag f2 }
      else { g with st := { st with fmt := fmt } }
    -- the strand stands behind the LRUN of the block that resumes, so that is its checkpoint (R135)
    let st1 : Strand := { g1.st with spc := spc, later := g1.blocks.map (fun _ => 0) }
    s.setGrp { g1 with
      st := st1
      inh := false
      blocks := match g1.blocks with
        | b :: rest => { b with ckpt := st1 } :: rest
        | [] => [] }

def execSrft (s : State) : Result :=
  strandSerial s (
    if !s.grp.inh then trapCode s 0x01
    else match readRecord s s.grp.recAddr 16 with
      | .fault f va =>
        let s0 := dropRemote s s.spc
        if f.cond = 3 then park s0 va 0x3FFFFFF f.level 0
        else fatal (formatRecord f va 0x3FFFFFF 0 s0) { code := f.code, addr := va, spc := s.spc, fmt := s.grp.st.fmt }
      | .wait s1 => s1
      | .ok r s1 => srftReturn (dropRemote s1 s1.spc) r)

end Sys2Proof.Machine
end

