-- ==== Sys2Proof/Machine/WorkQueue.lean ====
section
/-! DEFINITION. Work queues (R397-R401, R412-R416): known queues, tail writes, appends, sleepers, WPOP, WPOST, TDET. -/

namespace Sys2Proof.Machine

/-! ### Queues (R397, R398) -/

def m32 (x : Nat) : Nat := x % 2 ^ 32
/-- Entries between HEAD and TAIL. -/
def qcbCount (i : Nat) : Nat := m32 (qcbTail i + 2 ^ 32 - qcbHead i)
/-- The local address of entry c. -/
def ringAddr (i c : Nat) : Nat := dpaLocal (qcbBase i) + 64 * (c % qcbN i)
/-- A WORK queue. -/
def isWork (q i : Nat) : Bool := decide (0x10040 ≤ q) && qcbKind i == 2

/-- The key of a termination domain (R416). -/
def domKey (die asid tdom : Nat) : Nat := 2 ^ 24 * die + 256 * asid + tdom
/-- The domain of a queue. -/
def queueDom (s : State) (q : Nat) : Nat :=
  let i := qcbImage s q
  domKey (qcbDie i) (ctxAsid (ctxOf s q)) (qcbTdom i)

def addSent (s : State) (k n : Nat) : State :=
  { s with sent := mapSet 0 s.sent k (mapGet 0 s.sent k + BitVec.ofNat 32 n) }
def addRecv (s : State) (k n : Nat) : State :=
  { s with recv := mapSet 0 s.recv k (mapGet 0 s.recv k + BitVec.ofNat 32 n) }

/-! ### Sleepers (R414) -/

def sleepersOf (s : State) (q : Nat) : List Nat := mapGet [] s.sleepers q

/-- A sleeper of the queue that has not been woken. -/
def asleep (s : State) (q g : Nat) : Bool := (s.group g).wait == .wpop q false

/-- Wake a sleeper; one that is away waits for residency (R142). -/
def wakeSleeper (q : Nat) (s : State) (g : Nat) : State :=
  s.setGroup g (wakeAway { s.group g with wait := .wpop q true })

/-- Wake up to n sleepers, the oldest first. -/
def wakeSleepers (s : State) (q n : Nat) : State :=
  (((sleepersOf s q).filter (asleep s q)).take n).foldl (wakeSleeper q) s

/-! ### Appends (R400, R413) -/

/-- The record has room. -/
def hasRoom (i n : Nat) : Bool := decide (qcbCount i + n ≤ qcbN i)

/-- R413: one record, with V set. -/
def putRecord (s : State) (a : Nat) (r : List Dword) : State :=
  performDwords s a ((List.range 8).map (fun k =>
    let d := r[k]?.getD 0
    if k = 1 then d ||| BitVec.ofNat 64 (2 ^ 63) else d))

def putRecords (s : State) (i : Nat) : Nat → List (List Dword) → State
  | _, [] => s
  | c, r :: rs => putRecords (putRecord s (ringAddr i c) r) i (c + 1) rs

/-- R413: append records in one step: copy, TAIL, SENT, sleepers. -/
def appendRecords (s : State) (q : Nat) (rs : List (List Dword)) : State :=
  let i := qcbImage s q
  let s := putRecords s i (qcbTail i) rs
  let s := qcbSetField s q 383 352 (m32 (qcbTail i + rs.length))
  wakeSleepers (addSent s (queueDom s q) rs.length) q rs.length

/-- R400: a tail write. -/
def applyTail (s : State) (q : Nat) (t : Word) : State :=
  let i := qcbImage s q
  let d := m32 (t.toNat + 2 ^ 32 - qcbTail i)
  if 1 ≤ d ∧ d < 2 ^ 31 then
    let s := qcbSetField s q 383 352 t.toNat
    let s := if isWork q i then wakeSleepers (addSent s (queueDom s q) d) q d else s
    if qcbN i < qcbCount (qcbImage s q) then queueFault s q 0x02 (BitVec.ofNat 64 t.toNat) else s
  else s

/-- R446: the device register region is live from STAGE 5 on. -/
def regionLive (s : State) : Bool := stage s == 5 || stage s == 6

def execTailWrite (qid : Nat) (t : Word) (s : State) : Result :=
  .next (if regionLive s && decide (qid < 2 ^ 20) then applyTail s qid t else s)

/-- R398, R406, R414: STATE := RUN. -/
def runQueue (s : State) (q : Nat) : State :=
  let i := qcbImage s q
  let s := qcbPut s q (putBits (putBits (putBits i 319 256 0) 255 248 0) 211 210 1)
  let s := s.setQueue q { dropRing (s.queue q) with
    waiting := false
    parked := false
    posted := false }
  if isWork q i then wakeSleepers s q (sleepersOf s q).length else s

def execQcbStateRun (qid : Nat) (s : State) : Result :=
  .next (if regionLive s && decide (qid < 2 ^ 20) then runQueue s qid else s)

/-- R414: the home die looks at a head entry whose V was 0. -/
def execWpopReread (qid : Nat) (s : State) : Result :=
  let i := qcbImage s qid
  .next (if qcbHead i != qcbTail i && bit (memRead s.mem (ringAddr i (qcbHead i) + 8) 8) 63 then wakeSleepers s qid 1
    else s)

/-! ### WPOP (R414) -/

/-- The tests of WPOP and WPOST on a queue id. -/
def workTest (s : State) (v : Dword) : Option State :=
  let q := v.toNat
  if 2 ^ 20 ≤ q || !isWork q (qcbImage s q) || !qcbOk s q then some (trapCode s 0x02)
  else if ctxAsid (ctxOf s q) != (s.launchOf s.grp).asid then some (trapCode s 0x18)
  else none

/-- The entry at HEAD can be consumed. -/
def headReady (s : State) (i : Nat) : Bool :=
  qcbState i == 1 && qcbHead i != qcbTail i && bit (memRead s.mem (ringAddr i (qcbHead i) + 8) 8) 63

/-- The group sleeps, at its former position if it has one. -/
def sleepOn (s : State) (q : Nat) : State :=
  let gi := s.cur.grp
  let l := sleepersOf s q
  let s : State := if l.contains gi then s else { s with sleepers := mapSet [] s.sleepers q (l ++ [gi]) }
  s.setGrp (s.hold s.grp (.wpop q false))

/-- R414: what a WPOP leaves once its record is consumed. -/
def wpopEnter (s : State) (r : List Dword) : State :=
  let l := s.launchOf s.grp
  let arg (k : Nat) : Dword := BitVec.ofNat 64 ((r[2 + k / 2]?.getD 0).toNat / 2 ^ (32 * (k % 2)) % 2 ^ 32)
  let s := codeRef (ref s s.cur.grp 5) s.cur.grp 5
  let g := s.grp
  let st := (List.range 8).foldl (fun (t : Strand) k => t.set (BitVec.ofNat 6 (k + 1)) (arg k)) g.st
  s.setGrp { g with
    st := { st with
      spc := r.headD 0
      fmt := l.fmt
      axis := l.axis
      later := [] }
    fpflags := 0
    qbind := []
    gang := 0
    mconf := 0
    wtok := 0
    resid := [] }

/-- R401: clear V and advance HEAD; RECV counts. -/
def consumeRecord (s : State) (q : Nat) : State :=
  let i := qcbImage s q
  let s := performUnit s (ringAddr i (qcbHead i) / 8 + 1) (BitVec.ofNat 64 (2 ^ 63)) 0
  let s := qcbSetField s q 351 320 (m32 (qcbHead i + 1))
  addRecv s (queueDom s q) 1

/-- One look of WPOP at its queue. -/
def wpopLook (s : State) (q : Nat) : State :=
  let i := qcbImage s q
  if !headReady s i then sleepOn s q
  else
    let a := ringAddr i (qcbHead i)
    let s0 := dropSleeper s s.cur.grp
    let s1 := s0.setGrp { s0.grp with wait := .none }
    if (List.range 8).any (fun k => poisoned s1 (a + 8 * k)) then trapCode s1 0x19
    else
      let r := (List.range 8).map (fun k => readDw s1 (a + 8 * k))
      landAt s1 (r.headD 0) (qcbLabel i) (fun s2 => wpopEnter (consumeRecord s2 q) r)

def execWpop (a : BitVec 6) (s : State) : Result :=
  let q := (s.reg a).toNat
  strandSerial s (
    if s.grp.inh then trapCode s 0x01
    else match s.grp.wait with
      | .wpop p true => wpopLook s p
      | .wpop _ false => s
      | _ => match workTest s (s.reg a) with
        | some t => t
        | none =>
          let s1 := s.setGrp { s.grp with tdom := some (queueDom s q) }
          let s2 := pub s1 s.cur.grp 5
          if pubReady s2 s.cur.grp 5 then wpopLook s2 q else s2)

/-! ### WPOST (R415) -/

/-- The 64 bytes read coherently: an error is the state of a trap or a wait. -/
def postSource (s : State) (va : Dword) (a : Acc) : Except State (List Dword × State) :=
  if a.needDir then .error (askDirectory s va a)
  else if a.pkg != s.pkg then
    match remoteStep (noteAccess s va a) s.spc va a.dpa (.load 64) with
    | .wait s1 => .error s1
    | .fail c => .error (remoteTrap s c va a.pkg)
    | .done bs p =>
      if p != 0 then .error (strandTrapAfter s { code := 0x19, addr := va } dropOwn)
      else .ok ((List.range 8).map (fun k => BitVec.ofNat 64 (natOfBytes ((bs.drop (8 * k)).take 8))), dropRemote s s.spc)
  else if a.reg then .ok ((List.range 8).map (fun k => regValue s (a.loc + 8 * k)), s)
  else match (List.range 8).foldl (fun (p : Option (List Dword × State)) k =>
      p.bind (fun p => (coherentClean p.2 p.2.cur.grp { a with loc := a.loc + 8 * k } 8 (30 + k)).map (fun r =>
        (p.1 ++ [r.1], r.2)))) (some ([], noteAccess s va a)) with
    | some r => .ok r
    | none => .error (strandTrap s { code := 0x19, addr := va })

def execWpost (d a b : BitVec 6) (s : State) : Result :=
  let va := s.reg b
  let q := (s.reg a).toNat
  strandSerial s (match workTest s (s.reg a) with
    | some t => t
    | none =>
      if va.toNat % 64 ≠ 0 then strandTrap s { code := 0x05, addr := va }
      else match groupAccess s va 1 needR with
        | .error f => strandFault s f va 0
        | .ok x =>
          let s0 := pub s s.cur.grp 3
          if !pubReady s0 s.cur.grp 3 then s0
          else match postSource s0 va x with
          | .error t => t
          | .ok (r, s1) =>
            let i := qcbImage s1 q
            if qcbState i != 1 then s1.wb d 3
            else if !hasRoom i 1 then s1.wb d 2
            else (appendRecords s1 q [r]).wb d 0)

/-! ### TDET (R416) -/

/-- Sample of R416 for the domain of a key, without the issuer. -/
def sampleDomain (s : State) (key issuer : Nat) : Sample :=
  let qs := (knownQueues s).filter (fun q => isWork q (qcbImage s q) && qcbOk s q && queueDom s q == key)
  let empty := qs.all (fun q => qcbHead (qcbImage s q) == qcbTail (qcbImage s q))
  let waits (g : Group) : Bool := match g.wait with
    | .wpop q _ => qs.contains q
    | _ => false
  let idle := (List.range s.groups.length).all (fun i => i == issuer || (s.group i).tdom != some key ||
    (s.group i).run == .ended || waits (s.group i))
  ⟨empty && idle, mapGet 0 s.sent key, mapGet 0 s.recv key⟩

/-- The domain of TDOM on the issuer's die. -/
def tdetKey (s : State) (g : Group) (tdom : Nat) : Nat := domKey g.die (s.launchOf g).asid tdom

def execTdet (d a : BitVec 6) (s : State) : Result :=
  let v := (s.reg a).toNat
  let g := s.grp
  strandSerial s (
    if 2 ^ 8 ≤ v then trapCode s 0x02
    else match g.tdet with
      | none => s.setGrp { g with tdet := some ⟨v, sampleDomain s (tdetKey s g v) s.cur.grp, none⟩ }
      | some t => match t.result with
        | some r => (s.setGrp { g with tdet := none }).wb d (boolDword r)
        | none => s)

/-- The second sample, and the result. -/
def execTdetSecondSample (g : Nat) (s : State) : Result :=
  let x := s.group g
  .next (match x.tdet with
    | some t =>
      let b := sampleDomain s (tdetKey s x t.tdom) g
      let r := t.first.quiet && b.quiet && t.first.sent == b.sent && b.sent == t.first.recv && t.first.recv == b.recv
      s.setGroup g { x with tdet := some { t with result := some r } }
    | none => s)

end Sys2Proof.Machine
end

