-- ==== Sys2Proof/Machine/FrontEnd.lean ====
section
/-! DEFINITION. The front end's packets (R401-R413): where a queue's next entry comes from, the packets, launches. -/

namespace Sys2Proof.Machine

/-! ### Fetching entries (R401, R405, R407) -/

def entryOfDwords (d : List Dword) : Entry :=
  let w (k : Nat) : Dword := d[k]?.getD 0
  ⟨w 0, w 1, w 2, w 3, w 4, w 5, w 6, w 7⟩
def entryOfBytes (b : List Byte) : Entry :=
  entryOfDwords ((List.range 8).map (fun k => BitVec.ofNat 64 (natOfBytes ((b.drop (8 * k)).take 8))))

/-- R407: a 64-byte granule is fetched whole. -/
def granule (s : State) (loc : Nat) : Entry :=
  entryOfDwords ((List.range 8).map (fun i => unitOf s (loc / 8 + i)))

/-- Where an entry stands: a ring count, or an address in an indirect buffer. -/
inductive Place where
  | ring (c : Nat)
  | buffer (va : Nat)
  deriving DecidableEq, Repr

/-- The entry `j` places after the one that the queue executes, in the same ring, buffer or loop range. -/
def entryPlace (s : State) (q j : Nat) : Option Place :=
  match (s.queue q).frames with
  | [] => some (.ring (m32 (qcbHead (qcbImage s q) + j)))
  | .ib next left :: _ => if j < left then some (.buffer (next + 64 * j)) else none
  | .loop start len _ pos :: fs =>
    if len ≤ pos + j then none
    else if fs.isEmpty then some (.ring (m32 (start + pos + j)))
    else some (.buffer (start + 64 * (pos + j)))

/-- The name under which an entry is kept. -/
def entryKey (s : State) (q : Nat) : Place → Nat
  | .ring c => c
  | .buffer va => 2 ^ 64 * (ctxAsid (ctxOf s q) + 1) + va % 2 ^ 64

/-- The entry as it was fetched. -/
def heldEntry (s : State) (q : Nat) (p : Place) : Option Entry :=
  ((s.queue q).ahead.find? (fun x => x.1 == entryKey s q p)).map Prod.snd

/-- Keep an entry: at most 4 KiB of them. -/
def keepEntry (s : State) (q : Nat) (p : Place) (e : Entry) : State :=
  s.setQueue q { s.queue q with ahead := ((entryKey s q p, e) :: (s.queue q).ahead.filter (fun x => x.1 != entryKey s q p)).take 64 }

/-- What a fetch of an entry finds: nothing to consume yet, an entry, a state in which the queue faulted or waits, or
the end of its buffer or loop range. -/
inductive Fetched where
  | notYet
  | entry (e : Entry)
  | stop (s : State)
  | outside

/-- The entry of a ring count (R401), below TAIL. -/
def ringFetch (s : State) (q c : Nat) : Fetched :=
  let i := qcbImage s q
  let a := ringAddr i c
  if qcbCount i ≤ m32 (c + 2 ^ 32 - qcbHead i) then .notYet
  else if (List.range 8).any (fun j => poisoned s (a + 8 * j)) then .stop (queueFault s q 0x19 0)
  else
    let e := granule s a
    if bit e.d0.toNat 63 then .entry e else .notYet

/-- The entry at an address of an indirect buffer, under the context's translation. -/
def bufferFetch (s : State) (q va : Nat) : Fetched :=
  if !ctxOk s (ctxOf s q) then .stop (queueFault s q 0x02 0)
  else match frontAccess s q va needR with
    | .error t => .stop t
    | .ok a =>
      if a.pkg == s.pkg && !a.reg && !(List.range 8).any (fun j => poisoned s (a.loc + 8 * j)) then
        .entry (granule s a.loc)
      else match frontRead s q [(va, 64)] with
        | .error t => .stop t
        | .ok bs => .entry (entryOfBytes bs)

/-- An entry: as it was fetched, else as it stands now. -/
def fetchPlace (s : State) (q : Nat) (p : Place) : Fetched :=
  match heldEntry s q p with
  | some e => .entry e
  | none => match p with
    | .ring c => ringFetch s q c
    | .buffer va => bufferFetch s q va

def fetchEntry (s : State) (q j : Nat) : Fetched :=
  match entryPlace s q j with
  | some p => fetchPlace s q p
  | none => .outside

/-! ### Passing entries (R401, R405) -/

/-- R401: clear V of `k` entries at HEAD and advance it. -/
def consumeRing (s : State) (q : Nat) : Nat → State
  | 0 => s
  | k + 1 =>
    let i := qcbImage s q
    let s := performUnit s (ringAddr i (qcbHead i) / 8) (BitVec.ofNat 64 (2 ^ 63)) 0
    let s := s.setQueue q { s.queue q with ahead := (s.queue q).ahead.filter (fun x => x.1 != qcbHead i) }
    consumeRing (qcbSetField s q 351 320 (m32 (qcbHead i + 1))) q k

def setFrames (s : State) (q : Nat) (fs : List QFrame) : State := s.setQueue q { s.queue q with frames := fs }

/-- Pass `k` entries of the innermost source: a loop repeats its range, and its last run, an exhausted buffer's IB and
ring entries are passed in the source around it. -/
def passFrom (s : State) (q : Nat) : List QFrame → Nat → State
  | [], k => consumeRing (setFrames s q []) q k
  | .ib next left :: fs, k => if left ≤ k then passFrom s q fs 1 else setFrames s q (.ib (next + 64 * k) (left - k) :: fs)
  | .loop start len left pos :: fs, k =>
    let p := pos + k
    if 1 < left then
      setFrames s q ((if p < len then .loop start len left p else .loop start len (left - 1) 0) :: fs)
    else if fs.isEmpty then
      consumeRing (setFrames s q (if p < len then [.loop start len left p] else [])) q k
    else if p < len then setFrames s q (.loop start len left p :: fs)
    else passFrom s q fs len

/-- Entries are passed. -/
def passOver (s : State) (q k : Nat) : State :=
  let s := dropRemote (dropRemote s 0) 1
  let s := s.setQueue q { s.queue q with
    waiting := false
    posted := false }
  passFrom s q (s.queue q).frames k

/-- The lane of a queue counts a packet (R402). -/
def countPacket (s : State) (q : Nat) : State :=
  { s with lanes := s.lanes.map (fun l => if l.queue == q then { l with count := l.count + 1 } else l) }

/-- A packet is complete: its entries are passed. -/
def passed (s : State) (q k : Nat) : State := passOver (countPacket s q) q k

/-- The queue waits, and leaves its lane (R402). -/
def waitQueue (s : State) (q : Nat) : State :=
  let s := leaveLane (dropRemote (dropRemote s 0) 1) q
  s.setQueue q { s.queue q with waiting := true }

/-! ### What every packet does first (R403, R404) -/

/-- The dwords after the first. -/
def entryArgs (e : Entry) : List Dword := [e.d1, e.d2, e.d3, e.d4, e.d5, e.d6, e.d7]
/-- Reserved bits of a header, U outside a LAUNCH and bits of ARG that the packet does not name are 0. -/
def headerOk (e : Entry) (arg : Nat) : Bool := e.d0 &&& (maskBits 61 56 ||| (maskBits 47 0 &&& ~~~ BitVec.ofNat 64 arg)) == 0
/-- The dwords from `k` on are 0. -/
def argsZero (e : Entry) (k : Nat) : Bool := ((entryArgs e).drop (k - 1)).all (fun d => d == 0)
def entryArg (e : Entry) : Nat := e.d0.toNat % 2 ^ 48
def aligned8 (d : Dword) : Bool := d.toNat % 8 == 0

/-- Every packet but LAUNCH completes before the next begins (R403), so writes to other packages must be acknowledged,
and the second writes of the dual-write window (R339); one that failed faults the queue. -/
def frontSettled (s : State) (q : Nat) : Option State :=
  match s.remote.find? (fun r => r.grp == frontGroup q && r.op.isStore) with
  | none =>
    if s.remote.any (fun r => r.grp == migGroup && r.pc == Writer.inside.key && r.state.open) then some s else none
  | some r =>
    let cut : State := { s with remote := s.remote.filter (fun x => x != r) }
    match r.state with
    | .nacked _ => some (queueFault cut q 0x09 r.va)
    | .timedOut => some (queueFault cut q 0x0A r.va)
    | _ => some s

/-- A packet: malformed ones fault the queue; one with W waits for the queue's earlier launches. -/
def packet (s : State) (e : Entry) (ok : Bool) (k : State → Nat → State) : Result :=
  let q := s.cur.queue
  let s : State := { s with cur := { s.cur with grp := frontGroup q } }
  .next (if !ok then queueFault s q 0x01 0
    else match frontSettled s q with
      | some t => t
      | none => if bit e.d0.toNat 62 && !(s.queue q).launches.isEmpty then
          leaveLane (s.setQueue q { s.queue q with parked := true }) q
        else k s q)

/-- A packet that translates addresses: the context record is checked first (R403). -/
def contextPacket (s : State) (e : Entry) (ok : Bool) (k : State → Nat → State) : Result :=
  packet s e ok (fun s q => if ctxOk s (ctxOf s q) then k s q else queueFault s q 0x02 0)

/-! ### NOP, FETCHFENCE, IB, LOOP (R405, R407) -/

def nopOk (e : Entry) : Bool := headerOk e 0 && argsZero e 1

def execNop (e : Entry) (s : State) : Result := packet s e (nopOk e) (fun s q => passed s q 1)

/-- R407: every entry that the queue holds is discarded. -/
def execFetchfence (e : Entry) (s : State) : Result :=
  packet s e (nopOk e) (fun s q => passed (s.setQueue q { s.queue q with ahead := [] }) q 1)

def QFrame.isIb : QFrame → Bool
  | .ib _ _ => true
  | .loop _ _ _ _ => false

def ibOk (e : Entry) : Bool :=
  headerOk e 0 && argsZero e 3 && e.d1.toNat % 64 == 0 && decide (1 ≤ e.d2.toNat) && decide (e.d2.toNat ≤ 65536)

/-- R405: the third level of nesting faults the queue. -/
def execIb (e : Entry) (s : State) : Result :=
  contextPacket s e (ibOk e) (fun s q =>
    let fs := (s.queue q).frames
    if 2 ≤ (fs.filter QFrame.isIb).length then queueFault s q 0x01 0
    else
      let s := dropRemote (dropRemote s 0) 1
      setFrames (countPacket s q) q (.ib e.d1.toNat e.d2.toNat :: fs))

def loopLen (e : Entry) : Nat := bits (entryArg e) 21 16
def loopCount (e : Entry) : Nat := entryArg e % 2 ^ 16 + 1
def loopOk (e : Entry) : Bool := headerOk e 0x3FFFFF && argsZero e 1 && decide (1 ≤ loopLen e)

/-- R405: a LOOP inside a loop range faults the queue; its range lies within its indirect buffer. -/
def execLoop (e : Entry) (s : State) : Result :=
  packet s e (loopOk e) (fun s q =>
    match (s.queue q).frames with
    | [] =>
      let s1 := passed s q 1
      setFrames s1 q [.loop (qcbHead (qcbImage s1 q)) (loopLen e) (loopCount e) 0]
    | .ib next left :: fs =>
      if fs.any (fun f => !f.isIb) || decide (left ≤ loopLen e) then queueFault s q 0x01 0
      else
        let s1 := passed s q 1
        setFrames s1 q (.loop (next + 64) (loopLen e) (loopCount e) 0 :: (s1.queue q).frames)
    | .loop _ _ _ _ :: _ => queueFault s q 0x01 0)

/-! ### PRED, WAITMEM (R405) -/

def cmpOf (e : Entry) : Nat := entryArg e % 8
/-- (word and MASK) against VALUE. -/
def entryHolds (e : Entry) (v : Dword) : Bool := compareWord (cmpOf e) true (v &&& e.d2) e.d3

def predOk (e : Entry) : Bool := headerOk e 0xFF07 && argsZero e 4 && decide (cmpOf e ≤ 5) && aligned8 e.d1

def execPred (e : Entry) (s : State) : Result :=
  contextPacket s e (predOk e) (fun s q =>
    match frontBytes s q e.d1.toNat 8 with
    | .error t => t
    | .ok bs =>
      let s1 := passed s q 1
      if entryHolds e (BitVec.ofNat 64 (natOfBytes bs)) then s1
      else s1.setQueue q { s1.queue q with skip := bits (entryArg e) 15 8 })

def waitmemOk (e : Entry) : Bool := headerOk e 7 && argsZero e 4 && decide (cmpOf e ≤ 5) && aligned8 e.d1

/-- Register a monitor for the queue at the word's home slice, where its table has room (R293, R405). A word of
another package or of the register region is only read again (log 33). -/
def watchWord (s : State) (q : Nat) (e : Entry) : State :=
  match frontAccess s q e.d1.toNat needR with
  | .error t => t
  | .ok a =>
    let s : State := { s with monitors := s.monitors.filter (fun m => m.who != .queue q) }
    if a.pkg != s.pkg || a.reg || decide (4096 ≤ (s.monitors.filter (fun m => m.slice == a.slice)).length) then
      waitQueue s q
    else
      let m : Monitor := ⟨a.slice, .queue q, cmpOf e, true, 5, ctxAsid (ctxOf s q), 0, 0, 0, a.loc, e.d2, e.d3⟩
      waitQueue { s with monitors := s.monitors ++ [m] } q

/-- One look of a WAITMEM. -/
def waitmemLook (s : State) (q : Nat) (e : Entry) : State :=
  match frontBytes s q e.d1.toNat 8 with
  | .error t => t
  | .ok bs =>
    if entryHolds e (BitVec.ofNat 64 (natOfBytes bs)) then
      passed { s with monitors := s.monitors.filter (fun m => m.who != .queue q) } q 1
    else watchWord s q e

def execWaitmem (e : Entry) (s : State) : Result := contextPacket s e (waitmemOk e) (fun s q => waitmemLook s q e)

/-- The queue that an event names becomes the one that moves. -/
def onQueue (s : State) (q : Nat) : State := { s with cur := { s.cur with queue := q, grp := frontGroup q } }

/-- R405: a waiting WAITMEM reads its word again. -/
def execWaitmemReread (qid : Nat) (s : State) : Result :=
  let s1 := onQueue s qid
  if !(s.queue qid).waiting then .next s
  else match fetchEntry s1 qid 0 with
    | .entry e => if packetType e == 0x05 && waitmemOk e then execWaitmem e s1 else .next s
    | .stop t => .next t
    | _ => .next s

/-! ### WRITEMEM, SIGNAL (R405) -/

def entryScopeOk (e : Entry) : Bool := decide (entryArg e % 8 ≤ 5)

def writememOk (e : Entry) : Bool := headerOk e 0x17 && argsZero e 3 && entryScopeOk e && aligned8 e.d1

/-- The write of a packet is made, and awaited. -/
def post (s : State) (q : Nat) : State := s.setQueue q { s.queue q with posted := true }

/-- The packet is complete once its write is: at once in this package. -/
def execWritemem (e : Entry) (s : State) : Result :=
  contextPacket s e (writememOk e) (fun s q =>
    if (s.queue q).posted then passed s q 1
    else match frontAccess s q e.d1.toNat needW with
    | .error t => t
    | .ok a =>
      let t := placeStore s a (if bit (entryArg e) 4 then 8 else 4) e.d2
      if (frontSettled t q).isNone then passed t q 1 else post t q)

def signalOk (e : Entry) : Bool := headerOk e 0x37 && argsZero e 3 && entryScopeOk e && aligned8 e.d1

/-- The word that a SIGNAL leaves. -/
def signalValue (e : Entry) (old : Dword) : Dword := if bit (entryArg e) 4 then e.d2 else old + e.d2

/-- R405: with IRQ the host is then notified. -/
def signalDone (s : State) (q : Nat) (e : Entry) : State :=
  let vf := ctxVf (ctxOf s q)
  let s := passed s q 1
  if bit (entryArg e) 5 then notify s vf else s

/-- A write to a register, and a second write of the dual-write window, are awaited before the host is notified (R339, R444). -/
def execSignal (e : Entry) (s : State) : Result :=
  contextPacket s e (signalOk e) (fun s q =>
    if (s.queue q).posted then signalDone s q e
    else match frontAccess s q e.d1.toNat needRW with
    | .error t => t
    | .ok a =>
      if a.pkg != s.pkg then
        match remoteStep s 0 e.d1 a.dpa (.atomic tyI64 (if bit (entryArg e) 4 then 6 else 0) e.d2 0) with
        | .wait t => t
        | .fail c => queueFault (dropRemote s 0) q c e.d1
        | .done _ p => if p != 0 then queueFault (dropRemote s 0) q 0x19 e.d1 else signalDone s q e
      else if a.reg then post (regStore s a.loc 8 (signalValue e (regValue s a.loc))) q
      else if poisoned s a.loc then queueFault s q 0x19 e.d1
      else
        let t := performUnit s (a.loc / 8) allOnes64 (signalValue e (unitOf s (a.loc / 8)))
        if (frontSettled t q).isNone then signalDone t q e else post t q)

/-! ### FEED (R413) -/

def feedQid (e : Entry) : Nat := entryArg e % 2 ^ 20
def feedOk (e : Entry) : Bool := headerOk e 0xFFFFF && argsZero e 3 && e.d2.toNat / 2 ^ 32 == 0 && e.d1.toNat % 64 == 0

/-- The records of a byte string. -/
def recordsOf : Nat → List Byte → List (List Dword)
  | 0, _ => []
  | n + 1, bs =>
    (List.range 8).map (fun k => BitVec.ofNat 64 (natOfBytes ((bs.drop (8 * k)).take 8))) :: recordsOf n (bs.drop 64)

def feedRun (s : State) (q : Nat) (e : Entry) : State :=
  let t := feedQid e
  let i := qcbImage s t
  let n := e.d2.toNat
  if !isWork t i || !qcbOk s t || qcbState i != 1 || ctxAsid (ctxOf s t) != ctxAsid (ctxOf s q) || n == 0 ||
      decide (qcbN i < n) then queueFault s q 0x02 0
  else if !hasRoom i n then waitQueue s q
  else match frontBytes s q e.d1.toNat (64 * n) with
    | .error x => x
    | .ok bs => passed (appendRecords s t (recordsOf n bs)) q 1

def execFeed (e : Entry) (s : State) : Result := contextPacket s e (feedOk e) (fun s q => feedRun s q e)

/-- R413: a waiting FEED looks again. -/
def execFeedRoom (qid : Nat) (s : State) : Result :=
  let s1 := onQueue s qid
  if !(s.queue qid).waiting then .next s
  else match fetchEntry s1 qid 0 with
    | .entry e => if packetType e == 0x08 && feedOk e then execFeed e s1 else .next s
    | .stop t => .next t
    | _ => .next s

/-! ### Pins and the page-lock tables (R322) -/

/-- The pins held in the page-lock table of a die. -/
def pinsOf (s : State) (die : Nat) : List Pin :=
  (s.cmds.flatMap (fun c => c.trans) ++ s.launches.flatMap (fun l => l.cpin.toList)).filter (fun p => p.die == die)
/-- What the probes of other packages pin in the table of a die (R226, R427). -/
def probeKeys (s : State) (die : Nat) : List (Nat × Bool) :=
  (s.probes.filter (fun p => p.die == die)).map (fun p => (p.page, p.mig))
/-- The table has room for further frames and pages. -/
def keyRoom (s : State) (die : Nat) (ks : List (Nat × Bool)) : Bool :=
  decide (((pinsOf s die).map Pin.key ++ probeKeys s die ++ ks).dedup.length ≤ 16384)
def pinRoom (s : State) (die : Nat) (ps : List Pin) : Bool := keyRoom s die (ps.map Pin.key)
/-- A page moves (R344). Whether one of another package's directory does is not seen from here, and chosen freely (log 41). -/
def gpnMoving (s : State) (gpn : Nat) : Bool :=
  if gpnPkg gpn == s.pkg then bits (dirBits s gpn) 183 182 == 2 else s.free (0x400000 + gpn % 2 ^ 34) % 2 == 1
/-- R344: the page of a pin moves, so that the pin waits for the switch. -/
def pinMoving (s : State) (p : Pin) : Bool := pteMIG p.leaf.toNat && gpnMoving s (pteFrame p.leaf.toNat)

/-- The pin of a translated address. -/
def pinOf (die va : Nat) (a : Acc) : Pin :=
  ⟨die, va / 2 ^ (12 + 9 * a.level) * 2 ^ (12 + 9 * a.level), a.level, BitVec.ofNat 64 a.leaf⟩

/-! ### Kernel descriptors (R119) -/

def kdScount (d : Nat) : Nat := bits d 735 704
def kdLcount (d : Nat) : Nat := bits d 703 672
def kdNeed (d : Nat) : Nat := bits d 655 648
def kdPair (d : Nat) : Bool := bit d 640
def kdTeam (d : Nat) : Nat := bits d 639 632
def kdWidth (d : Nat) : Nat := bits d 631 624
def kdVregs (d : Nat) : Nat := bits d 623 608
def kdLstore (d : Nat) : Nat := bits d 607 576
def kdAxis (d n : Nat) : Dword := BitVec.ofNat 64 (d / 2 ^ (320 + 64 * n))
def kdFpmode (d : Nat) : Dword := BitVec.ofNat 64 (d / 2 ^ 256)
def kdFmt (d : Nat) : Dword := BitVec.ofNat 64 (d / 2 ^ 192)
def kdLbase (d : Nat) : Dword := BitVec.ofNat 64 (d / 2 ^ 64)
def kdSentry (d : Nat) : Dword := BitVec.ofNat 64 d

/-- R119: a valid descriptor. Its AXISn values are not checked (log 70). -/
def kdOk (d : Nat) : Bool :=
  bits d 1023 736 == 0 && bits d 671 656 == 0 && decide (kdNeed d < 8) && bits d 647 641 == 0 &&
  decide (1 ≤ kdTeam d) && decide (kdTeam d ≤ 32) && (kdWidth d == 16 || kdWidth d == 32 || kdWidth d == 64) &&
  decide (1 ≤ kdVregs d) && decide (kdVregs d ≤ 32) && kdLstore d % 4096 == 0 &&
  decide (kdLstore d ≤ if kdPair d then 2 ^ 21 else 2 ^ 20) && fmtOk (kdFmt d) && (kdFpmode d).toNat / 2 == 0 &&
  (kdLbase d).toNat % 128 == 0 && (kdSentry d).toNat % 4 == 0

/-! ### LAUNCH (R408-R411) -/

def launchGx (e : Entry) : Nat := bits e.d2.toNat 20 0
def launchGy (e : Entry) : Nat := bits e.d2.toNat 41 21
def launchGz (e : Entry) : Nat := bits e.d2.toNat 62 42
def launchTeams (e : Entry) : Nat := launchGx e * launchGy e * launchGz e
def launchUrgent (e : Entry) : Bool := bit e.d0.toNat 61

/-- R409 step 1, for the two entries. A KDESC that is not on an 8-byte boundary fails it (log 71). -/
def launchOk (e f : Entry) (prio : Nat) : Bool :=
  let dim (x : Nat) : Bool := decide (x ≤ 2 ^ 20)
  bits e.d0.toNat 60 56 == 0 && entryArg e == 0 && !bit e.d2.toNat 63 && dim (launchGx e) && dim (launchGy e) &&
  dim (launchGz e) && decide (launchTeams e ≤ 2 ^ 32) && (!launchUrgent e || prio == 0) && e.d5.toNat / 2 ^ 27 == 0 &&
  decide (bits e.d5.toNat 26 24 ≤ 5) && aligned8 e.d6 && (launchTeams e == 0 || aligned8 e.d1) &&
  headerOk f 0 && !bit f.d0.toNat 62 && packetType f == 0x0A && argsZero f 5

/-- R123 for one team of a kernel on an empty core, or on each core of an empty pair. -/
def teamFits (s : State) (d core : Nat) : Bool :=
  let n := if kdPair d then (kdTeam d + 1) / 2 else kdTeam d
  let ls := if kdPair d then kdLstore d / 2 else kdLstore d
  let fits (c : Nat) : Bool :=
    decide (n ≤ 64) && decide (n * kdWidth d ≤ 2048) && decide (n * kdWidth d * kdVregs d * 32 ≤ 2 ^ 20) &&
    decide (ls + coreRsv s c ≤ 2 ^ 20)
  if kdPair d then fits (core / 2 * 2) && fits (core / 2 * 2 + 1) else fits core

/-- R410: a nonzero tag that no incomplete launch of the ASID has; which one is open. -/
def pickLtag (s : State) (asid : Nat) : Nat → Nat → Option Nat
  | 0, _ => none
  | fuel + 1, t =>
    let t := t % 65535 + 1
    if s.launches.any (fun l => l.asid == asid && l.ltag == t && !l.done && !l.killed) then pickLtag s asid fuel t
    else some t

/-- What the front end keeps of an accepted launch. -/
def newLaunch (s : State) (q c d ltag : Nat) (e f : Entry) (pin : Option Pin) : Launch where
  queue := q
  asid := ctxAsid c
  vf := ctxVf c
  priv := ctxPriv c
  maint := ctxMaint c
  ltag := ltag
  prio := qcbPrio (qcbImage s q)
  urgent := launchUrgent e
  gx := launchGx e
  gy := launchGy e
  gz := launchGz e
  mx := bits e.d3.toNat 63 32
  my := bits e.d3.toNat 31 0
  mz := bits e.d4.toNat 63 32
  off := bits e.d4.toNat 31 0
  dies := bits e.d5.toNat 23 0
  scope := bits e.d5.toNat 26 24
  caddr := e.d6.toNat
  cpin := pin
  cval := e.d7
  args := (List.range 8).map (fun k => BitVec.ofNat 32 (((entryArgs f)[k / 2]?.getD 0).toNat / 2 ^ (32 * (k % 2))))
  started := []
  sentry := kdSentry d
  lbase := kdLbase d
  fmt := kdFmt d
  fpmode := kdFpmode d
  axis := (List.range 4).foldl (fun m n => mapSet 0 m n (kdAxis d n)) []
  lstore := kdLstore d
  vregs := kdVregs d
  width := kdWidth d
  teamSize := kdTeam d
  pair := kdPair d
  lcount := kdLcount d
  gbase := ctxGbase c
  gcount := ctxGcount c
  tbase := ctxTbase c
  tcount := ctxTcount c
  done := false
  killed := false

/-- Accept a launch whose checks have passed. -/
def acceptLaunch (s : State) (q c d : Nat) (e f : Entry) (pin : Option Pin) : State :=
  match pickLtag s (ctxAsid c) 65535 (s.free 50) with
  | none => s
  | some t =>
    let li := s.launches.length
    let s := pinCount { s with launches := s.launches ++ [newLaunch s q c d t e f pin] } pin.toList true
    let s := s.setQueue q { s.queue q with launches := (s.queue q).launches ++ [li] }
    passed (finishLaunch s li) q 2

/-- R409 step 3: the translation of CADDR and its pin, then acceptance. -/
def launchCaddr (s : State) (q : Nat) (e : Entry) (k : Option Pin → State) : State :=
  if e.d6 = 0 then k none
  else match frontAccess s q e.d6.toNat needW with
    | .error t => t
    | .ok a =>
      let p := pinOf 0 e.d6.toNat a
      if pinMoving s p || !pinRoom s 0 [p] then s else k (some p)

/-- R409 steps 3 to 5. A KDESC that is on an 8-byte boundary and not on a 128-byte one faults with FCODE 0x02 after both
translations (log 71). -/
def launchRun (s : State) (q : Nat) (e f : Entry) : State :=
  let c := ctxOf s q
  if launchTeams e = 0 then launchCaddr s q e (fun p => acceptLaunch s q c 0 e f p)
  else match frontBytes s q e.d1.toNat 128 with
    | .error t => t
    | .ok bs =>
      let d := natOfBytes bs
      launchCaddr s q e (fun p =>
        if !kdOk d || e.d1.toNat % 128 != 0 then queueFault s q 0x02 0
        else if (List.range 3).any (fun i => bit (kdNeed d) i && !bit s.caps.toNat (i)) then queueFault s q 0x0C 0
        else if !(List.range 1152).any (teamFits s d) || decide (ctxGcount c < kdTeam d) || ctxTcount c == 0 then
          queueFault s q 0x02 0
        else acceptLaunch s q c d e f p)

def execLaunch (e0 e1 : Entry) (s : State) : Result :=
  contextPacket s e0 (launchOk e0 e1 (qcbPrio (qcbImage s s.cur.queue))) (fun s q => launchRun s q e0 e1)

end Sys2Proof.Machine
end

