-- ==== Sys2Proof/Machine/Requests.lean ====
section
/-! DEFINITION. Translation requests (R317-R321, R326, R331), the attribute transitions (R34), and the move of a page's
bytes from one place to another. -/

namespace Sys2Proof.Machine

/-! ### The record (R320) -/

def reqCaddr (e : Entry) : Nat := e.d7.toNat
def reqArg1 (e : Entry) : Nat := e.d5.toNat
def reqArg2 (e : Entry) : Nat := e.d4.toNat
def reqArg3 (e : Entry) : Nat := e.d3.toNat
def reqAsid (e : Entry) : Nat := e.d2.toNat / 2 ^ 48
def reqReservedOk (e : Entry) : Bool := e.d2.toNat % 2 ^ 48 == 0 && e.d1 == 0 && bits e.d0.toNat 62 8 == 0

/-- R321: CADDR names backed memory of this package. -/
def caddrOk (s : State) (a : Nat) : Bool :=
  a % 16 == 0 && decide (a < 2 ^ 56) && dpaPkg a == s.pkg && isMemory s.variant (dpaLocal a) &&
  isMemory s.variant (dpaLocal a + 15)

/-- R321: CVAL, then the status. -/
def completeRequest (s : State) (e : Entry) (st : Nat) : State :=
  let u := dpaLocal (reqCaddr e) / 8
  performUnit (performUnit s u allOnes64 e.d6) (u + 1) allOnes64 (BitVec.ofNat 64 st)

def finishRequest (s : State) (q : Nat) (e : Entry) (st : Nat) : State := passed (completeRequest s e st) q 1

/-- R320, R321: a request: CADDR first, then BAD, then what it does. -/
def request (s : State) (e : Entry) (ok : Bool) (k : State → Nat → State) : Result :=
  let q := s.cur.queue
  let s : State := { s with cur := { s.cur with grp := frontGroup q } }
  .next (if !caddrOk s (reqCaddr e) then queueFault s q 0x02 e.d7
    else if !reqReservedOk e || reqAsid e == 0 || !ok then finishRequest s q e 2
    else k s q)

/-- A request of a bound ASID. -/
def boundRequest (s : State) (e : Entry) (ok : Bool) (k : State → Nat → State) : Result :=
  request s e ok (fun s q => if asidBound s (reqAsid e) then k s q else finishRequest s q e 1)

/-- R321: a record whose OP is unknown fails with BAD. -/
def badRequest (e : Entry) (s : State) : Result := request s e false (fun s _ => s)

/-! ### Sweeps (R316, R317, R319) -/

/-- The page of a TLB entry or the range of a walk-cache entry meets a range; length 0 is every address. -/
def meets (a n lo len : Nat) : Bool := len == 0 || (decide (a < lo + len) && decide (lo < a + n))

/-- Remove an ASID's entries in a range, and G entries there where asked. -/
def sweepRange (s : State) (asid lo len : Nat) (g : Bool) : State :=
  { s with
    tlb := s.tlb.filter (fun t => !((t.asid == asid || (g && pteG t.leaf.toNat)) &&
      meets (t.vpn * 4096 / 2 ^ (12 + 9 * t.level) * 2 ^ (12 + 9 * t.level)) (2 ^ (12 + 9 * t.level)) lo len))
    walks := s.walks.filter (fun w => !(w.asid == asid &&
      meets (w.pre * 2 ^ (12 + 9 * w.level)) (2 ^ (12 + 9 * w.level)) lo len)) }

/-- Fire the monitors that a test picks (R295). -/
def fireMonitors (s : State) (p : Monitor → Bool) : State := (s.monitors.filter p).foldl fireMonitor s

/-! ### TLBINV (R317, R326) -/

def tlbinvOk (e : Entry) : Bool :=
  reqArg1 e % 4096 == 0 && decide (reqArg1 e < 2 ^ 54) && reqArg2 e % 4096 == 0 &&
  decide (reqArg1 e + reqArg2 e ≤ 2 ^ 54) && decide (reqArg3 e < 2)

def cmdAsid (s : State) (c : Cmd) : Nat := (s.launchOf (s.group c.grp)).asid

/-- R326: no command of the ASID that took its translations before the request began holds one in the range. -/
def tlbinvReady (s : State) (r : PendReq) : Bool :=
  !s.cmds.any (fun c => decide (c.accepted < r.stamp) && cmdAsid s c == reqAsid r.entry &&
    c.trans.any (fun p => meets p.va p.size (reqArg1 r.entry) (reqArg2 r.entry)))

def sweepRequest (s : State) (e : Entry) : State :=
  sweepRange s (reqAsid e) (reqArg1 e) (reqArg2 e) (bit (reqArg3 e) 0)

/-- The request is under way: the ring goes on, and its completion is a step of its own. -/
def execTlbinv (e : Entry) (s : State) : Result :=
  boundRequest s e (tlbinvOk e) (fun s q =>
    let s := sweepRequest s e
    passed { s with
      pendInv := s.pendInv ++ [⟨q, e, s.nextId, false, [], 0⟩]
      nextId := s.nextId + 1 } q 1)

/-! ### The move of bytes -/

/-- Units that go from one place to another: the name under which a record of one is kept now, or none where what stood
there before is gone. -/
abbrev Renaming := Nat → Option Nat

/-- Renamed maps and lists of unit, and of class, unit and stamp. -/
def Renaming.seen (f : Renaming) (m : SMap Nat) : SMap Nat :=
  (m.filterMap (fun p => (f p.1).map (fun u => (u, p.2)))).foldl (fun t p => mapSet 0 t p.1 p.2) []
def Renaming.pairs (f : Renaming) (xs : List (Nat × Nat)) : List (Nat × Nat) :=
  xs.filterMap (fun p => (f p.1).map (fun u => (u, p.2)))
def Renaming.writes (f : Renaming) (xs : List (Nat × Nat × Nat)) : List (Nat × Nat × Nat) :=
  xs.filterMap (fun p => (f p.2.1).map (fun u => (p.1, u, p.2.2)))

/-- Every record of what was written to, seen of and fenced on a unit follows it to its new name. -/
def renameUnits (s : State) (f : Renaming) : State :=
  { s with
    hist := s.hist.filterMap (fun h => (f h.unit).map (fun u => { h with unit := u }))
    groups := s.groups.map (fun g => { g with
      seen := f.seen g.seen
      engw := f.writes g.engw
      vis := f.writes g.vis })
    cmds := s.cmds.map (fun c => { c with
      wrote := f.writes c.wrote
      vis := f.pairs c.vis })
    mops := s.mops.map (fun o => { o with vis := f.pairs o.vis })
    barriers := (s.barriers.map (fun p => (p.1, { p.2 with
      writes := f.writes p.2.writes
      last := f.writes p.2.last }))).filter (fun p => p.2 != default) }

/-- The bytes, the poison and the records of `n` units go from `src` to `dst`, but for those that `skip` names by their place
in the run. -/
def moveUnits (s : State) (src dst n : Nat) (skip : Nat → Bool) : State :=
  if src = dst then s
  else
    let at_ (b u : Nat) : Bool := decide (b ≤ u) && decide (u < b + n) && !skip (u - b)
    let is := (List.range n).filter (fun i => !skip i)
    let marks := (is.filter (fun i => s.poison.contains (backUnit s (src + i)))).map (fun i => backUnit s (dst + i))
    let old := is.map (fun i => backUnit s (dst + i))
    let moved (u : Nat) : Option Nat := if at_ src u then some (u - src + dst) else if at_ dst u then none else some u
    { renameUnits s moved with
      mem := is.foldl (fun m i => memWrite m (backing s (8 * (dst + i))) 8 (memAt s (8 * (src + i)) 8)) s.mem
      poison := marks ++ s.poison.filter (fun u => !old.contains u) }

/-! ### PGATTR (R34, R35, R320) -/

/-- The address, level and entry of the leaf that the table itself gives a virtual address. -/
def findLeaf (s : State) (va : Nat) : Nat → Nat → Option (Nat × Nat × Nat)
  | 0, _ => none
  | level + 1, table =>
    let a := table + 8 * walkIndex va level
    let e := memRead s.mem a 8
    if !pteV e || pteMalformed s level e then none
    else if pteLeaf e then some (a, level, e)
    else findLeaf s va level (dpaLocal (pteFrame e * 4096))

/-- R313: the walk to the leaf meets a malformed entry. -/
def walkBad (s : State) (va : Nat) : Nat → Nat → Bool
  | 0, _ => false
  | level + 1, table =>
    let e := memRead s.mem (table + 8 * walkIndex va level) 8
    pteV e && (pteMalformed s level e || (!pteLeaf e && walkBad s va level (dpaLocal (pteFrame e * 4096))))

def leafBad (s : State) (asid va : Nat) : Bool := decide (va < 2 ^ 54) && walkBad s va 5 (asidRoot s asid)

def leafOf (s : State) (asid va : Nat) : Option (Nat × Nat × Nat) :=
  if 2 ^ 54 ≤ va then none else findLeaf s va 5 (asidRoot s asid)

/-- Bytes that a leaf's request covers: the whole run for CT. -/
def attrSize (level e : Nat) : Nat := if pteCT e then 2 ^ 16 else 2 ^ (12 + 9 * level)

/-- R320: the new entry is well formed and changes only what it may. -/
def attrOk (s : State) (level old new : Nat) : Bool :=
  let keep (e : Nat) : Nat := e - pteFrame e * 2 ^ 12 - pteHome e * 2 ^ 10 - pteCoh e * 2 ^ 56
  decide (new < 2 ^ 64) && pteV new && !pteMalformed s level new && keep new == keep old &&
  (pteHome new != pteHome old || pteFrame new == pteFrame old) && (!pteCT old || pteFrame new % 16 == 0)

/-- The leaves that a request at a leaf changes: the whole run for CT. -/
def attrLeaves (s : State) (addr old : Nat) : List Nat :=
  if pteCT old then (List.range 16).map (fun i => memRead s.mem (addr / 128 * 128 + 8 * i) 8) else [old]

/-- What keeps a PGATTR from its transition: a pin of one of its leaves where the home changes, or a migration in progress
(R322, R344). -/
def attrWaits (s : State) (addr old new : Nat) : Bool :=
  let keys := (attrLeaves s addr old).map (fun e => (pteFrame e, pteMIG e))
  let mig := pteMIG old && gpnPkg (pteFrame old) == s.pkg
  (pteHome new != pteHome old &&
    ((s.cmds.flatMap (fun c => c.trans) ++ s.launches.flatMap (fun l => l.cpin.toList)).any (fun p => keys.contains p.key) ||
     s.probes.any (fun p => keys.contains (p.page, p.mig)) ||
     (mig && bits (dirBits s (pteFrame old)) 207 192 != 0))) || (pteMIG old && gpnMoving s (pteFrame old))

/-- The key of a PGATTR's requests to other packages. -/
def attrPc (va : Nat) : Dword := BitVec.ofNat 64 (2 ^ 62 + va)

/-- The lines of a page of another package, read one by one. -/
def remoteLines (s : State) (pc : Dword) (dpa : Nat) : Nat → RemoteAns
  | 0 => .done [] 0
  | n + 1 => match remoteLines s pc dpa n with
    | .done bs p => match remoteStep s pc 0 (dpa + 128 * n) (.load 128) with
      | .done cs q => .done (bs ++ cs) (p + q * 2 ^ (16 * n))
      | r => r
    | r => r

/-- Where the bytes of an access are: its frame, for a page of this directory whose frame is in another package. -/
def frameAcc (s : State) (a : Acc) : Acc :=
  match a.gpn, farTarget s (a.loc / 8) with
  | some n, some d => if gpnPkg n == s.pkg then { a with pkg := dpaPkg d, loc := dpaLocal d } else a
  | _, _ => a

/-- The units of a page's new frame hold what was read of its old one, marked where that was marked (R34). Nothing older stands
behind them. -/
def putMarked (s : State) (loc bad : Nat) (bs : List Byte) : State :=
  let n := bs.length / 8
  let us := (List.range n).map (fun i => backUnit s (loc / 8 + i))
  let marks := ((List.range n).filter (bit bad)).map (fun i => backUnit s (loc / 8 + i))
  let fresh (u : Nat) : Option Nat := if loc / 8 ≤ u ∧ u < loc / 8 + n then none else some u
  { renameUnits s fresh with
    mem := (List.range n).foldl (fun m i =>
      memWrite m (backing s (loc + 8 * i)) 8 (natOfBytes ((bs.drop (8 * i)).take 8))) s.mem
    poison := marks ++ s.poison.filter (fun u => !us.contains u) }

/-- What a copy of a page finds: it waits, it has failed, it is made, or its stores are on their way. -/
inductive CopyAns where
  | wait (s : State)
  | fail
  | made (s : State)
  | sent (s : State)

/-- R34: the copy of a page to its new home, but for the lines that `skip` names by their place in it (log 34). -/
def copyPage (s : State) (pc : Dword) (a b : Acc) (size : Nat) (skip : Nat → Bool) : CopyAns :=
  let a := frameAcc s a
  let b := frameAcc s b
  let out (s : State) (bs : List Byte) : State :=
    ((List.range (size / 8)).filter (fun i => !skip (i / 16))).foldl (fun s i =>
      issueRemote s pc 0 (b.dpa + 8 * i) (.store 8 (BitVec.ofNat 64 (natOfBytes ((bs.drop (8 * i)).take 8))))) s
  if a.key == b.key then .made s
  else if a.pkg == s.pkg && b.pkg == s.pkg then
    .made (moveUnits s (a.loc / 8) (b.loc / 8) (size / 8) (fun i => skip (i / 16)))
  else if a.pkg == s.pkg then .sent (out s (bytesOf size (memAt s a.loc size)))
  else match remoteLines s pc a.dpa (size / 128) with
    | .wait t => .wait t
    | .fail _ => .fail
    | .done bs bad =>
      let s1 := dropRemote s pc
      let lines := (List.range (size / 128)).filter (fun l => !skip l)
      if b.pkg == s.pkg then
        .made (lines.foldl (fun s l => putMarked s (b.loc + 128 * l) (bad / 2 ^ (16 * l) % 2 ^ 16) ((bs.drop (128 * l)).take 128)) s1)
      else .sent (out s1 bs)

/-- R34: the writes of the leaves. -/
def rewriteLeaves (s : State) (addr old new : Nat) : State :=
  if pteCT old then
    (List.range 16).foldl (fun s i =>
      performUnit s (addr / 8 / 16 * 16 + i) allOnes64 (BitVec.ofNat 64 (new + i * 4096))) s
  else performUnit s (addr / 8) allOnes64 (BitVec.ofNat 64 new)

/-- A location lies in the page of an access. -/
def Acc.holdsLoc (a : Acc) (s : State) (size loc : Nat) : Bool :=
  a.pkg == s.pkg && decide (a.loc ≤ loc) && decide (loc < a.loc + size)

/-- The stores of a copy to another package that are not acknowledged: whether one is in such a state. -/
def copyStores (s : State) (pc : Dword) (t : RemState → Bool) : Bool :=
  s.remote.any (fun r => r.grp == s.cur.grp && r.pc == pc && r.op.isStore && t r.state)

/-- The requests of a copy are forgotten. -/
def dropCopy (s : State) (pc : Dword) : State :=
  { s with remote := s.remote.filter (fun r => !(r.grp == s.cur.grp && r.pc == pc)) }

/-- The line comes under the present leaf. -/
def dropMix (s : State) (m : AttrMix) (l : Nat) : State :=
  let cut (x : AttrMix) : AttrMix := if x == m then { x with lines := x.lines.filter (fun k => k != l) } else x
  { s with mixes := (s.mixes.map cut).filter (fun x => !x.lines.isEmpty) }

/-- R35: what a line that an earlier PGATTR left under an older leaf goes through to come under the present one: its stores
are performed at the old place, and it is copied. The flag says that it is over. -/
def settleLine (s : State) (asid : Nat) (m : AttrMix) (l : Nat) : State × Bool :=
  let pc := attrPc (128 * l)
  match leafOf s asid (128 * l) with
  | none => (dropMix s m l, true)
  | some (_, level, e) =>
    let x := resolve s true 0 (128 * l) m.leaf level
    let y := resolve s true 0 (128 * l) e level
    if copyStores s pc RemState.open then (s, false)
    else if copyStores s pc (fun _ => true) then (dropMix (dropCopy s pc) m l, true)
    else match copyPage (performDirty s (fun d => x.holdsLoc s 128 (8 * d.unit))) pc x y 128 (fun _ => false) with
      | .made t => (dropMix t m l, true)
      | .fail => (dropMix (dropCopy s pc) m l, true)
      | .wait t | .sent t => (t, false)

/-- The lines of a range that are under an older leaf, with what names that. -/
def mixLines (s : State) (asid lo len : Nat) : List (AttrMix × Nat) :=
  (s.mixes.filter (fun m => m.asid == asid)).flatMap (fun m => (m.lines.filter (fun l => meets (128 * l) 128 lo len)).map
    (fun l => (m, l)))

/-- R35, R317: every such line comes under the present leaf, or the state in which one is on its way. -/
def settleMix (s : State) (asid lo len : Nat) : Nat → State × Bool
  | 0 => (s, true)
  | fuel + 1 => match mixLines s asid lo len with
    | [] => (s, true)
    | (m, l) :: _ => match settleLine s asid m l with
      | (t, true) => settleMix t asid lo len fuel
      | r => r
def mixCount (s : State) : Nat := (s.mixes.map (fun m => m.lines.length)).foldl (· + ·) 0

/-- The lines of a page, by their place in it, that a group has accessed since its last PHASE at .dom or wider. -/
def touchedLines (s : State) (a : Acc) (size : Nat) : List Nat :=
  let k := a.lineKey
  (((s.groups.filter (fun g => g.run != .ended)).flatMap (fun g => g.touched)).dedup.filter
    (fun t => decide (k ≤ t) && decide (t < k + size / 128))).map (fun t => t - k)

/-- R35: the lines that stay under the old attributes: of those that a group has accessed without the preparatory step of
R34, some, chosen freely (log 35). A CP page needs no such step. -/
def keptLines (s : State) (a : Acc) (size : Nat) : List Nat :=
  if a.coh == 2 && a.home == 0 then []
  else (touchedLines s a size).filter (fun l => a.pkg != s.pkg || s.free (60 + l) % 2 == 1)

/-- R35: the lines that a group has written while a copy of the page was on its way to another package. -/
def writtenLines (s : State) (a : Acc) (size since : Nat) : List Nat :=
  (((s.hist.filter (fun h => decide (since < h.stamp) && a.holdsLoc s size (8 * h.unit))).map Hist.unit ++
    (s.dirty.filter (fun d => a.holdsLoc s size (8 * d.unit))).map Dirty.unit).map (fun u => (8 * u - a.loc) / 128)).dedup

/-- R34, R35: the leaves are rewritten and the page's translations swept; its monitors fire (R295). -/
def finishAttr (s : State) (asid va addr level old new : Nat) (a : Acc) (kept : List Nat) : State :=
  let size := attrSize level old
  let s := sweepRange (rewriteLeaves s addr old new) asid va size true
  let s : State := { s with
    cpLines := s.cpLines.filter (fun x => !a.holdsLoc s size (128 * x.line))
    mixes := if kept.isEmpty then s.mixes else ⟨asid, kept.map (fun l => va / 128 + l), old⟩ :: s.mixes }
  fireMonitors s (fun m => a.holdsLoc s size m.addr)

/-- How far a PGATTR comes: its status, or it waits, its copy sent or not. -/
inductive AttrAns where
  | over (s : State) (status : Nat)
  /-- Its copy is not on its way. -/
  | wait (s : State)
  /-- Its copy is, but for some lines. -/
  | sent (s : State) (kept : List Nat)
  /-- Its walk meets a malformed entry (R313). -/
  | bad (s : State)

/-- R34: the transition of a leaf. Dirty bytes of the page, but for those of lines that stay under the old attributes, are
performed at the old place first. A copy to another package is acknowledged before the leaf changes. -/
def transition (s : State) (asid va addr level old new : Nat) : AttrAns :=
  let size := attrSize level old
  match settleMix s asid va size (mixCount s) with
  | (t, false) => .wait t
  | (s0, true) =>
  let a := resolve s0 true 0 va old level
  let b := resolve s0 true 0 va new level
  let kept := keptLines s0 a size
  let s1 := performDirty s0 (fun d => a.holdsLoc s0 size (8 * d.unit) && !kept.contains ((8 * d.unit - a.loc) / 128))
  if pteHome old == pteHome new then .over (finishAttr s1 asid va addr level old new a kept) 0
  else match copyPage s1 (attrPc va) a b size kept.contains with
    | .made s2 => .over (finishAttr s2 asid va addr level old new a kept) 0
    | .wait t => .wait t
    | .fail => .over (dropRemote s (attrPc va)) 2
    | .sent t => .sent t kept

/-- The transition once its copy is sent, at event `since`, without the lines of `kept`. Those that were written meanwhile
stay under the old attributes too (R35). -/
def sentTransition (s : State) (asid va addr level old new : Nat) (kept : List Nat) (since : Nat) : AttrAns :=
  let clean := dropCopy s (attrPc va)
  let a := resolve s true 0 va old level
  if copyStores s (attrPc va) RemState.open then .sent s kept
  else if copyStores s (attrPc va) (fun _ => true) then .over clean 2
  else .over (finishAttr clean asid va addr level old new a
    (kept ++ (writtenLines s a (attrSize level old) since).filter (fun l => !kept.contains l))) 0

/-- A page of another package's directory whose home is not known yet. -/
def attrDirectory (s : State) (va level old new : Nat) : Option State :=
  firstSome (fun e =>
    let x := resolve s true 0 va e level
    if x.needDir && x.pkg != s.pkg then
      match directoryStep s (attrPc va) (BitVec.ofNat 64 va) x with
      | .wait t => some t
      | _ => some (dropRemote s (attrPc va))
    else none) [old, new]

/-- A PGATTR makes its transition, and gives the status, or keeps waiting; `r` says what it has sent. An ASID that is no
longer bound is not walked (R319). -/
def tryAttr (s : State) (e : Entry) (r : Option PendReq) : AttrAns :=
  let va := reqArg1 e
  let new := reqArg2 e
  let asid := reqAsid e
  if !asidBound s asid then .over s 1
  else match leafOf s asid va with
  | none => if leafBad s asid va then .bad s else .over s 4
  | some (addr, level, old) =>
    match r with
    | some x => sentTransition s asid va addr level old new x.kept x.since
    | none =>
    if va % attrSize level old ≠ 0 || !attrOk s level old new then .over s 2
    else if attrWaits s addr old new then .wait s
    else match attrDirectory s va level old new with
      | some t => .wait t
      | none => transition s asid va addr level old new

/-- R313: the request's walk met a malformed entry: one FORMAT record, and its ring faults at the address. The request
completes with no status (log 77). -/
def attrFault (s : State) (q : Nat) (e : Entry) : State :=
  queueFault (postFault s { kind := 7, code := 0x07, va := e.d5, asid := reqAsid e, vf := asidVf s (reqAsid e) }) q 0x07 e.d5

/-- A PGATTR that is not over stays with its ring. -/
def pendAttrs (s : State) (q : Nat) (e : Entry) (sent : Bool) (kept : List Nat) : State :=
  { s with pendAttr := s.pendAttr ++ [⟨q, e, s.nextId, sent, kept, s.ord⟩] }

def execPgattr (e : Entry) (s : State) : Result :=
  boundRequest s e (reqArg1 e % 4096 == 0 && reqArg3 e == 0) (fun s q =>
    match tryAttr s e none with
    | .over s1 st => finishRequest s1 q e st
    | .bad t => attrFault t q e
    | .wait t => passed (pendAttrs t q e false []) q 1
    | .sent t kept => passed (pendAttrs t q e true kept) q 1)

/-- R344: a waiting PGATTR. -/
def execPgattrTransition (n : Nat) (s : State) : Result :=
  .next (match s.pendAttr[n]? with
    | some r =>
      let s0 : State := { s with cur := { s.cur with queue := r.queue, grp := frontGroup r.queue } }
      match tryAttr s0 r.entry (if r.sent then some r else none) with
      | .over s1 st => completeRequest (forgetBad { s1 with pendAttr := s1.pendAttr.eraseIdx n } s0.cur.grp) r.entry st
      | .bad t => attrFault { t with pendAttr := t.pendAttr.eraseIdx n } r.queue r.entry
      | .wait t => { t with pendAttr := t.pendAttr.set n { r with sent := false } }
      | .sent t kept => { t with pendAttr := t.pendAttr.set n { r with
          sent := true
          kept := kept
          since := if r.sent then r.since else t.ord } }
    | none => s)

/-- R317, R326: no line of the range is under an older leaf any more, then the sweep and the completion. -/
def execTlbinvCompletion (n : Nat) (s : State) : Result :=
  .next (match s.pendInv[n]? with
    | some r =>
      let s0 : State := { s with cur := { s.cur with queue := r.queue, grp := frontGroup r.queue } }
      if !tlbinvReady s r then s
      else match settleMix s0 (reqAsid r.entry) (reqArg1 r.entry) (reqArg2 r.entry) (mixCount s) with
        | (t, false) => t
        | (t, true) => completeRequest { sweepRequest t r.entry with pendInv := t.pendInv.eraseIdx n } r.entry 0
    | none => s)

/-! ### ASID_BIND, ASID_RETIRE (R318, R319) -/

def asidState (s : State) (asid : Nat) : Nat := bits (asidEntry s asid) 63 62
def setAsid (s : State) (asid v : Nat) : State := regSet s (regBase + 8 * asid) (BitVec.ofNat 64 v)

/-- R311: a root lies in HBM or the host window of this package. -/
def rootOk (s : State) (d : Nat) : Bool :=
  d % 4096 == 0 && decide (d < 2 ^ 56) && dpaPkg d == s.pkg && (hbmBacked (dpaLocal d) || hostWindow (dpaLocal d))

def execAsidBind (e : Entry) (s : State) : Result :=
  request s e (rootOk s (reqArg1 e) && decide (reqArg2 e < 64) && reqArg3 e == 0) (fun s q =>
    if asidState s (reqAsid e) != 0 then finishRequest s q e 1
    else finishRequest (setAsid s (reqAsid e) (2 ^ 62 + reqArg2 e * 2 ^ 56 + reqArg1 e)) q e 0)

/-- R319: a group of the ASID, or an engine command that has not completed. -/
def asidBusy (s : State) (asid : Nat) : Bool :=
  !(groupsOfAsid s asid).isEmpty ||
  s.launches.any (fun l => l.asid == asid && !l.done && !l.killed && decide (l.started.length < l.teams)) ||
  s.cmds.any (fun c => cmdAsid s c == asid && c.state != .done)

/-- A PGATTR of the ASID that still waits is over (R319, R321). -/
def dropAttrs (s : State) (asid : Nat) : State :=
  let mine := s.pendAttr.filter (fun r => reqAsid r.entry == asid)
  mine.foldl (fun s r => completeRequest s r.entry 1)
    { s with pendAttr := s.pendAttr.filter (fun r => reqAsid r.entry != asid), mixes := s.mixes.filter (fun m => m.asid != asid) }

def execAsidRetire (e : Entry) (s : State) : Result :=
  boundRequest s e (reqArg1 e == 0 && reqArg2 e == 0 && reqArg3 e == 0) (fun s q =>
    let a := reqAsid e
    if asidBusy s a then finishRequest s q e 1
    else
      let s1 := setAsid s a (2 ^ 63 + asidEntry s a % 2 ^ 62)
      let s2 := fireMonitors (sweepRange s1 a 0 0 true) (fun m => m.asid == a)
      finishRequest (setAsid (dropAttrs s2 a) a (asidEntry s a % 2 ^ 62)) q e 0)

/-! ### RESUME, RESUME_CMD (R323, R331) -/

/-- The parked group that a RESUME names. -/
def parkedGroup (s : State) (e : Entry) : Option Nat :=
  (List.range s.groups.length).find? (fun i =>
    let g := s.group i
    let l := s.launchOf g
    g.run == .away && g.state == 1 && !g.eligible && l.asid == reqAsid e && l.ltag == bits (reqArg1 e) 47 32 &&
    g.team == reqArg1 e % 2 ^ 32 && g.gid == reqArg2 e)

def execResume (e : Entry) (s : State) : Result :=
  boundRequest s e (decide (reqArg1 e < 2 ^ 48) && decide (reqArg2 e < 32) && reqArg3 e == 0) (fun s q =>
    match parkedGroup s e with
    | some i => finishRequest (s.setGroup i { s.group i with eligible := true }) q e 0
    | none => finishRequest s q e 3)

/-- The unit of an engine on a die: a copy engine's core, else the die or its stack. -/
def resumeUnit (a : Nat) : Nat := if bits a 10 7 == 1 then 48 * bits a 21 17 + bits a 16 11 else bits a 21 17

def deferredCmd (s : State) (e : Entry) : Option Cmd :=
  let a := reqArg1 e
  s.cmds.find? (fun c => c.eng == bits a 10 7 && c.unit == resumeUnit a && c.state == .deferred (a % 64) &&
    cmdAsid s c == reqAsid e)

/-- R323: the command translates again, as if newly accepted: behind those that wait. -/
def execResumeCmd (e : Entry) (s : State) : Result :=
  boundRequest s e (decide (reqArg1 e < 2 ^ 22) && !bit (reqArg1 e) 6 && reqArg2 e == 0 && reqArg3 e == 0) (fun s q =>
    match deferredCmd s e with
    | some c => finishRequest { s with
        cmds := s.cmds.filter (fun x => x.id != c.id) ++ [{ c with state := .waiting, stamp := s.ord }] } q e 0
    | none => finishRequest s q e 3)

end Sys2Proof.Machine
end

