-- ==== Sys2Proof/Machine/Migration.lean ====
section
/-! DEFINITION. Live page migration (R332-R345): PGMIG, PGQRY, the directory, copy, switch, stubs, owner caches. -/

namespace Sys2Proof.Machine

/-! ### Directory entries (R333) -/

def dirHome (e : Nat) : Nat := bits e 62 24
def dirTarget (e : Nat) : Nat := bits e 101 63
def dirOld0 (e : Nat) : Nat := bits e 140 102
def dirOld1 (e : Nat) : Nat := bits e 179 141
def dirNstub (e : Nat) : Nat := bits e 181 180
def dirState (e : Nat) : Nat := bits e 183 182
def dirEpoch (e : Nat) : Nat := bits e 191 184
def dirPins (e : Nat) : Nat := bits e 207 192
/-- The directory writes an entry's low 256 bits at its PoC. -/
def dirPut (s : State) (gpn e : Nat) : State :=
  performDwords s (dirEntry s gpn) ((List.range 4).map (fun i => BitVec.ofNat 64 (e / 2 ^ (64 * i))))
def dirSet (s : State) (gpn hi lo v : Nat) : State :=
  dirPut s gpn (putBits (memRead s.mem (dirEntry s gpn) 32) hi lo v)

/-- The packages of SHARERS. -/
def sharersOf (s : State) (gpn : Nat) : List Nat := maskList 1024 (memRead s.mem (dirEntry s gpn + 128) 128)
/-- Add a package to SHARERS. -/
def addSharer (s : State) (gpn pkg : Nat) : State :=
  let a := dirEntry s gpn + 128 + pkg / 8
  performBytes s a 1 (BitVec.ofNat 64 (maskSet (memGet s.mem a).toNat (pkg % 8) true))

/-! ### PGMIG, PGQRY (R336, R337) -/

/-- R226, R322: an inbound probe pins a frame. -/
def probePinned (s : State) (frame : Nat) : Bool := s.probes.any (fun p => !p.mig && p.page == frame)

/-- The step at the directory home: the status, and the entry marked. -/
def migrateStep (s : State) (gpn target : Nat) : Nat × State :=
  let e := dirBits s gpn
  let h := homeOf target
  if dirState e == 2 || h == dirHome e || h == dirOld0 e || h == dirOld1 e then (1, s)
  else if dirPins e != 0 || probePinned s (homeDpa (dirHome e) / 4096) then (2, s)
  else
    let s1 := dirSet (dirSet s gpn 101 63 h) gpn 183 182 2
    (0, { s1 with migrations := s1.migrations ++ [⟨gpn, homeDpa (dirHome e), target, []⟩] })

/-- The result of PGQRY on an entry. -/
def queryValue (e : Nat) : Dword :=
  BitVec.ofNat 64 (dirState e * 2 ^ 62 + dirNstub e * 2 ^ 60 + homeDpa (dirHome e) / 4096 * 4096 + dirEpoch e)

/-- A backed HBM frame of a package of the domain. -/
def frameOk (s : State) (d : Nat) : Bool :=
  d % 4096 == 0 && decide (d < 2 ^ 56) && hbmBacked (dpaLocal d) && (dpaPkg d == s.pkg || Config.inDomain (dpaPkg d))

/-- What a query of an instruction at a directory finds, this package's or another's. An answer that the entry is unusable is
a malformed leaf (R332). -/
def atDirectory (s : State) (va : Dword) (gpn : Nat) (op : RemOp) (here : State → State) (k : State → Dword → State) :
    State :=
  if gpnPkg gpn == s.pkg then here s
  else match remoteStep s s.spc va (gpnPkg gpn * 2 ^ 46 + gpn % 2 ^ 34) op with
    | .wait t => t
    | .fail c => remoteTrap s c va (gpnPkg gpn)
    | .done bs bad =>
      if bad != 0 then strandTrapAfter s { code := 0x07, addr := va }
        (fun t => formatRecord ⟨4, 0x07, 7, true⟩ va 0x3FFFFFF 0 (dropOwn t))
      else k (dropRemote s s.spc) (BitVec.ofNat 64 (natOfBytes (bs.take 8)))

/-- R336 tests 3 to 5: a walk that must ask another package's directory asks it before the leaf counts as well formed; where
that fails, `early` is what an earlier test finds. -/
def resolvedPage (s : State) (va : Dword) (x : Acc) (early : Option State) (k : State) : State :=
  if x.needDir && x.pkg != s.pkg then
    match directoryStep s s.spc va x with
    | .wait t => t
    | .fail c => (early.map dropOwn).getD (remoteTrap s c va (directoryPkg s x))
    | .done _ _ => dropRemote s s.spc
  else k

def execPgmig (d a b : BitVec 6) (s : State) : Result :=
  let va := s.reg a
  let t := (s.reg b).toNat
  strandSerial s (
    if !(s.launchOf s.grp).priv then trapCode s 0x18
    else match groupAccess s va 1 needR with
      | .error f => strandFault s f va 0
      | .ok x =>
        let s1 := noteAccess s va { x with gpn := none }
        match x.gpn with
        | none => strandTrap s { code := 0x07, addr := va }
        | some gpn => resolvedPage s va x (if frameOk s t then none else some (trapCode s 0x02)) (
          if !frameOk s t then trapCode s 0x02
          else atDirectory s1 va gpn (.migrate gpn t)
            (fun s => let r := migrateStep s gpn t
                      r.2.wb d (BitVec.ofNat 64 r.1))
            (fun s v => s.wb d v)))

def execPgqry (d a : BitVec 6) (s : State) : Result :=
  let va := s.reg a
  strandSerial s (match groupAccess s va 1 needR with
    | .error f => strandFault s f va 0
    | .ok x =>
      let s1 := noteAccess s va { x with gpn := none }
      match x.gpn with
      | none => s1.wb d (BitVec.ofNat 64 (pteFrame x.leaf * 4096))
      | some gpn => resolvedPage s va x none (
          atDirectory s1 va gpn (.pageQuery gpn) (fun s => s.wb d (queryValue (dirBits s gpn))) (fun s v => s.wb d v)))

/-! ### Owner caches (R335) -/

/-- A query of a die of this package, or, for 24 + p, of package p (log 36). -/
def execDirectoryQuery (die gpn : Nat) (s : State) : Result :=
  .next (if gpnPkg gpn != s.pkg || !gpnOk s gpn then s
    else if die < 24 then dirQuery s die gpn
    else if die < 24 + 1024 then addSharer s gpn (die - 24)
    else s)

/-- R335: a carried EPOCH is newer. -/
def epochNewer (carried held : Nat) : Bool :=
  let d := (carried + 256 - held % 256) % 256
  decide (1 ≤ d) && decide (d ≤ 127)

/-- R342: a request of this package to the frame that a home names is outstanding. -/
def homeBusy (s : State) (home : Nat) : Bool :=
  s.remote.any (fun r => r.state.open && r.addr / 4096 == homeDpa home / 4096)

/-- R342: a request for a page through another home than this one is outstanding. -/
def olderOut (s : State) (gpn home : Nat) : Bool :=
  s.remote.any (fun r => r.state.open && r.gpn == some gpn && r.addr / 4096 != homeDpa home / 4096)

/-- R341: a REDIRECT takes effect, once no request through the older home is outstanding (R342). -/
def execRedirect (n : Nat) (s : State) : Result :=
  .next (match s.redirects[n]? with
    | some r =>
      let t : State := { s with redirects := s.redirects.eraseIdx n }
      match ownerOf s r.die r.gpn with
      | none => if olderOut s r.gpn r.home then s
        else { t with owners := putOwner t.owners ⟨r.die, r.gpn, r.home, r.epoch⟩ }
      | some o =>
        if !epochNewer r.epoch o.epoch then t
        else if homeBusy s o.home then s
        else { t with owners := putOwner t.owners { o with home := r.home, epoch := r.epoch } }
    | none => s)

/-- R340: a request of a die that still names an older home is relayed, and its answer carries REDIRECT. -/
def execRelay (die gpn : Nat) (s : State) : Result :=
  .next (if gpnPkg gpn == s.pkg && gpnOk s gpn && s.owners.any (fun o => o.die == die && o.gpn == gpn) then
      noteMig s die (some gpn)
    else s)

/-! ### Copy (R338, R339, R344) -/

def migrationOf (s : State) (gpn : Nat) : Option Migration := s.migrations.find? (fun m => m.gpn == gpn)
def setMigration (s : State) (m : Migration) : State :=
  { s with migrations := s.migrations.map (fun x => if x.gpn == m.gpn then m else x) }

/-- Write a 64-byte unit at the target, and mark what is uncorrectable there (log 38). -/
def writeTarget (s : State) (d : Nat) (ds : List Dword) (bad : Nat → Bool) : State :=
  if dpaPkg d == s.pkg then
    let u := dpaLocal d / 8
    let s1 := performDwords s (dpaLocal d) ds
    { s1 with poison := (((List.range 8).filter bad).map (fun i => u + i)) ++ s1.poison }
  else ((List.range 8).zip ds).foldl (fun s p =>
    let t := issueRemote s 0 0 (d + 8 * p.1) (.store 8 p.2)
    if bad p.1 then issueRemote t 0 0 (d + 8 * p.1) .mark else t) s

/-- Copy unit `n` of a page. What the home slices hold of a page in another package is not read from there. -/
def execCopyUnit (gpn : Nat) (s : State) : Result :=
  let s0 : State := { s with cur := { s.cur with grp := migGroup + gpn } }
  .next (match migrationOf s gpn with
    | none => s
    | some m =>
      let n := m.copied.length
      if 64 ≤ n || (n == 0 && decide (2 ≤ dirNstub (dirBits s gpn))) then s
      else
        let loc := migLoc gpn (64 * n)
        let m' := { m with copied := m.copied ++ [n] }
        if !farHome s gpn || s.migLines.contains (loc / 128) then
          let ds := (List.range 8).map (fun i => unitOf s (loc / 8 + i))
          setMigration (writeTarget (dropRemote s0 0) (m.target + 64 * n) ds (fun i => poisoned s (loc + 8 * i))) m'
        else match remoteStep s0 0 0 (m.src + 64 * n) (.load 64) with
          | .wait t => t
          | .fail _ => dropRemote s0 0
          | .done bs p =>
            let ds := (List.range 8).map (fun i => BitVec.ofNat 64 (natOfBytes ((bs.drop (8 * i)).take 8)))
            setMigration (writeTarget (dropRemote s0 0) (m.target + 64 * n) ds (bit p)) m')

/-! ### Stubs (R340, R343) -/

/-- Free the oldest stub of a page while nothing is awaited at it and nothing that it relayed is incomplete. -/
def freeStubs (s : State) (gpn : Nat) : Nat → State
  | 0 => s
  | fuel + 1 =>
    match s.stubs.find? (fun x => x.gpn == gpn) with
    | some x =>
      if !(x.waiting.isEmpty && x.relay == 0) then s
      else if gpnPkg gpn != s.pkg then freeStubs { s with stubs := s.stubs.filter (fun y => y != x) } gpn fuel
      else
        let e := memRead s.mem (dirEntry s gpn) 32
        let e := if 2 ≤ dirNstub e then putBits e 179 141 0 else putBits e 140 102 0
        let s1 := dirPut s gpn (putBits e 181 180 (dirNstub e - 1))
        freeStubs { s1 with stubs := s1.stubs.filter (fun y => y != x) } gpn fuel
    | none => s

/-- The oldest stub of a page for which this package still has to forget the page. -/
def dueStub (s : State) (gpn : Nat) : Option Stub :=
  s.stubs.find? (fun x => x.gpn == gpn && x.waiting.contains s.pkg && !x.dropped)

/-- R338: an invalidation reaches a package: the dies of this one forget the page. -/
def execInvalidation (gpn pkg : Nat) (s : State) : Result :=
  .next (if pkg == s.pkg && (gpnPkg gpn != s.pkg || (dueStub s gpn).isSome) then
      { s with
        owners := s.owners.filter (fun o => o.gpn != gpn)
        stubs := match dueStub s gpn with
          | some x => s.stubs.map (fun y => if y == x then { y with dropped := true } else y)
          | none => s.stubs }
    else s)

/-- R338, R343: an acknowledgement reaches the oldest stub that awaits the package. This package acknowledges once its dies
have forgotten the page for that stub, and no request that it sent to an earlier home is outstanding. -/
def execAcknowledge (gpn pkg : Nat) (s : State) : Result :=
  .next (match s.stubs.find? (fun x => x.gpn == gpn && x.waiting.contains pkg) with
    | some x =>
      if pkg == s.pkg && (!x.dropped || s.stubs.any (fun y => y.gpn == gpn && homeBusy s y.old)) then s
      else
        let x' := { x with waiting := x.waiting.filter (fun p => p != pkg) }
        freeStubs { s with stubs := s.stubs.map (fun y => if y == x then x' else y) } gpn 2
    | none => s)

/-! ### The switch (R338, R345) -/

/-- The lines of a page at its home slices, as migLines names them. -/
def pageLines (gpn : Nat) : List Nat := (List.range 32).map (fun j => migLoc gpn 0 / 128 + j)

/-- The home slices keep the lines of a page whose new frame is in another package, with their marks (R49). -/
def holdLines (s : State) (m : Migration) : State :=
  let at_ (i : Nat) : Nat := migLoc m.gpn 0 / 8 + i
  let from_ (i : Nat) : Nat := dpaLocal m.src / 8 + i
  { s with
    mem := (List.range 512).foldl (fun t i => memWrite t (8 * at_ i) 8 (memRead s.mem (8 * from_ i) 8)) s.mem
    poison := ((List.range 512).filter (fun i => s.poison.contains (from_ i))).map at_ ++ s.poison
    migLines := pageLines m.gpn ++ s.migLines }

/-- The home slices fill the lines from the new frame here again. -/
def dropLines (s : State) (m : Migration) : State :=
  let at_ (i : Nat) : Nat := migLoc m.gpn 0 / 8 + i
  { s with
    mem := (List.range 512).foldl (fun t i => memWrite t (8 * at_ i) 8 0) s.mem
    poison := s.poison.filter (fun u => u / 512 != migLoc m.gpn 0 / 4096)
    migLines := s.migLines.filter (fun l => l / 32 != migLoc m.gpn 0 / 4096) }

/-- R49: the page's bytes stay what they are. They are in both frames (R339); a line that the home slices hold while its
frame is in another package stays there. -/
def switchBytes (s : State) (m : Migration) : State :=
  let here (d : Nat) : Bool := dpaPkg d == s.pkg
  let s1 : State := { s with migrations := s.migrations.filter (fun x => x.gpn != m.gpn) }
  if here m.src && !here m.target then holdLines s1 m
  else if !here m.src && here m.target then dropLines s1 m
  else s1

/-- R345: captured rows of the old frame are written back and released with the frame's lines in the cache layer, and rows
of the new frame start uncaptured. Which rows a frame lies in is not stated, so each captured row of its stack is released
or not (log 37). -/
def releaseRows (s : State) (m : Migration) : State :=
  let out (d k : Nat) (c : Nat × Nat) : Bool :=
    dpaPkg d == s.pkg && c.1 == dpaLocal d / 2 ^ 36 && s.free (k + c.2) % 2 == 1
  { s with
    captured := s.captured.filter (fun c => !out m.src 300 c && !out m.target 301 c)
    cacheLines := if dpaPkg m.src == s.pkg then s.cacheLines.filter (fun l => l.1 / 32 != dpaLocal m.src / 4096)
      else s.cacheLines }

/-- R338, R339, R342: every copy and second write has reached TARGET, and no request to the old home is outstanding. -/
def copySettled (s : State) (m : Migration) : Bool :=
  !s.remote.any (fun r => r.state.open && (r.addr / 4096 == m.target / 4096 || r.addr / 4096 == m.src / 4096))

/-- R340: the old frame's controller has a free stub record; another package's controller is not seen from here. -/
def stubRoom (s : State) (m : Migration) : Bool :=
  dpaPkg m.src != s.pkg ||
  decide ((s.stubs.filter (fun x => bits x.old 38 29 == s.pkg && bits x.old 28 24 == dpaLocal m.src / 2 ^ 36)).length < 256)

def execSwitch (gpn : Nat) (s : State) : Result :=
  .next (match migrationOf s gpn with
    | none => s
    | some m =>
      if m.copied.length != 64 || !stubRoom s m || !copySettled s m then s
      else
        let s1 := releaseRows (switchBytes s m) m
        let e := memRead s1.mem (dirEntry s1 gpn) 32
        let old := dirHome e
        let ep := (dirEpoch e + 1) % 256
        let sh := sharersOf s1 gpn
        let e := putBits (putBits (putBits (putBits (putBits (putBits e 179 141 (dirOld0 e)) 140 102 old) 62 24
          (dirTarget e)) 181 180 (dirNstub e + 1)) 191 184 ep) 183 182 1
        let s2 := dirPut s1 gpn e
        let s3 := performDwords s2 (dirEntry s2 gpn + 128) (List.replicate 16 0)
        freeStubs { s3 with stubs := s3.stubs ++ [⟨gpn, old, dirHome e, ep, sh, 0, false⟩] } gpn 2)

end Sys2Proof.Machine
end

