-- ==== Sys2Proof/Machine/Engines.lean ====
section
/-! DEFINITION. What every engine command shares (R46, R146, R322-R326, R352-R355): acceptance, translation at
submission, reads and writes through the pins, completion, status words and arrivals. -/

namespace Sys2Proof.Machine

/-! ### Words (R352, R353) -/

def Cmd.word (c : Cmd) (k : Nat) : Nat := (c.words[k]?.getD 0).toNat
def Cmd.opc (c : Cmd) : Nat := bits (c.word 0) 63 56
def Cmd.tag (c : Cmd) : Nat := bits (c.word 0) 55 40
def Cmd.sts (c : Cmd) : Bool := bit (c.word 0) 33
def Cmd.bar (c : Cmd) : Bool := bit (c.word 0) 32
def Cmd.bcore (c : Cmd) : Nat := bits (c.word 0) 17 12
def Cmd.bidx (c : Cmd) : Nat := bits (c.word 0) 5 0
/-- The reserved bits of a header are 0. -/
def Cmd.headerOk (c : Cmd) : Bool := bits (c.word 0) 39 34 == 0 && bits (c.word 0) 31 18 == 0 && bits (c.word 0) 11 6 == 0

/-- The opcodes of an endpoint kind. -/
def engineOps : Nat → List Nat
  | 1 => [0x01]
  | 2 => [0x10, 0x11]
  | 3 => [0x40, 0x41, 0x42, 0x43, 0x44, 0x45, 0x46]
  | 4 => [0x20]
  | 5 => [0x30]
  | _ => []

/-- The die that hosts a command's engine, die n for stack n. -/
def Cmd.die (c : Cmd) : Nat := if c.eng == 1 then c.unit / 48 else c.unit
def Cmd.sameEngine (c d : Cmd) : Bool := c.eng == d.eng && c.unit == d.unit

def cmdOf (s : State) (id : Nat) : Option Cmd := s.cmds.find? (fun c => c.id == id)
def putCmd (s : State) (c : Cmd) : State := { s with cmds := s.cmds.map (fun x => if x.id == c.id then c else x) }

/-- The identity under which a command's requests to other packages are kept. -/
def cmdGroup (id : Nat) : Nat := 2 ^ 41 + id
def asCmd (s : State) (id : Nat) : State := { s with cur := { s.cur with grp := cmdGroup id } }

/-! ### Completion (R48, R291, R353, R355) -/

/-- The fields of a record that name a command. -/
def engineFault (s : State) (c : Cmd) (kind code : Nat) : FaultInfo :=
  { groupFault s (s.group c.grp) kind code with
    die := c.die
    core := if c.eng == 1 then c.unit % 48 else 0
    ekind := c.eng }

def statusWord (c : Cmd) : Dword :=
  BitVec.ofNat 64 (c.opc * 2 ^ 56 + c.tag * 2 ^ 40 + c.code % 256 * 2 ^ 32 + c.count % 2 ^ 32)

/-- The earliest accepted command of a queue register. -/
def firstCmd (s : State) (g q : Nat) : Option Cmd :=
  (s.cmds.filter (fun c => c.grp == g && c.qreg == q)).foldl (fun b c => match b with
    | none => some c
    | some x => if c.id < x.id then some c else b) none

/-- R353: status words are placed in acceptance order. -/
def placeWords (s : State) (g q : Nat) : Nat → State
  | 0 => s
  | fuel + 1 =>
    match firstCmd s g q with
    | some c =>
      if c.state == .done then
        let s := { s with cmds := s.cmds.filter (fun x => x.id != c.id) }
        let x := s.group g
        let s := if c.sts || c.code != 0 then
            s.setGroup g { x with popq := mapSet [] x.popq q (mapGet [] x.popq q ++ [statusWord c]) }
          else s
        placeWords s g q fuel
      else s
    | none => s

/-- R291: the arrival of a command at its barrier. -/
def arriveCmd (s : State) (c : Cmd) : State :=
  if !c.bar then s
  else
    let g := s.group c.grp
    let k := 64 * (48 * g.die + c.bcore) + c.bidx
    let b := s.barrier k
    if 48 ≤ c.bcore || !b.valid then s
    else if ownsBarrier s g b then arriveAt s k (kindClass c.eng) c.wrote
    else postFault s { engineFault s c 4 0x15 with info := BitVec.ofNat 64 (c.bcore * 64 + c.bidx) }

/-- R434, R435: a collective operation that this member has begun is over: SEQ counts it, and its channel is free. -/
def endColl (s : State) (c : Cmd) : State :=
  if s.colls.any (fun x => x.cmd == c.id) then
    let a := commAddr (cmdComm c) + 16
    let d := (regGet s a).toNat
    regSet { s with
      colls := s.colls.filter (fun x => x.cmd != c.id)
      chunks := s.chunks.filter (fun x => x.cmd != c.id) } a (BitVec.ofNat 64 (putBits d 63 32 (bits d 63 32 + 1)))
  else s

/-- R355: the writes are made; the status word, the pins, the arrival. -/
def completeCmd (s : State) (c : Cmd) (code count : Nat) : State :=
  let s := endColl s c
  let c' := { c with state := .done, code := code, count := count, trans := [], prog := none }
  let s := pinCount (putCmd s c') c.trans false
  let s : State := { forgetBad s (cmdGroup c.id) with remote := s.remote.filter (fun r => r.grp != cmdGroup c.id) }
  let g := s.group c.grp
  let s := s.setGroup c.grp { g with engw := c.wrote ++ g.engw }
  arriveCmd (placeWords s c.grp c.qreg (s.cmds.length + 1)) c'

/-- A command that fails: it has written nothing. -/
def failCmd (s : State) (c : Cmd) (code : Nat) : State := completeCmd s { c with wrote := [] } code 0

/-! ### Acceptance (R46, R146, R354 step 1) -/

def qbindOf (g : Group) (q : Nat) : Nat := (mapGet 0 g.qbind q).toNat
def qbindUnit (g : Group) (q : Nat) : Nat := if bits (qbindOf g q) 3 0 == 1 then g.core else bits (qbindOf g q) 12 8

def Group.popPush (g : Group) (q n : Nat) : Group :=
  { g with pushq := mapSet [] g.pushq q ((mapGet [] g.pushq q).drop n) }

/-- An engine accepts a command of the executing group's queue register and starts on it. One whose OPC is not the
endpoint's has its header consumed alone. -/
def submit (s : State) (ws : List Dword) (start : State → Cmd → State) : Result :=
  let g := s.grp
  let gi := s.cur.grp
  let q := s.cur.qreg
  let kind := bits (qbindOf g q) 3 0
  let known := (engineOps kind).contains (cmdOpc (ws.headD 0))
  let ws := if known then ws else ws.take 1
  let cls := kindClass kind
  let c : Cmd := ⟨s.nextId, kind, qbindUnit g q, gi, q, ws, .waiting, [], s.ord, 0, 0, false, none, [],
    mapGet 0 g.fences cls, (g.vis.filter (fun v => v.1 == cls)).map Prod.snd, s.nextId⟩
  let s1 : State := { s.setGroup gi (g.popPush q ws.length) with
    cmds := s.cmds ++ [c]
    nextId := s.nextId + 1 }
  .next (if !known || !c.headerOk then failCmd s1 c 0x01 else start s1 c)

/-! ### Translation at submission (R322-R324) -/

/-- A range that a command touches: the die whose table pins it, what it needs, ACC of a record, the bits that every leaf must
carry, and, where it is rows with gaps between them, a row's length and the stride. -/
structure Range where
  die : Nat
  va : Nat
  len : Nat
  need : Need
  acc : Nat
  must : Nat
  rows : Option (Nat × Nat)

/-- The first address of a range, from one on, that the command touches. -/
def Range.next (r : Range) (va : Nat) : Nat :=
  match r.rows with
  | none => va
  | some (len, stride) =>
    let o := va - r.va
    if o % stride < len then va else r.va + (o / stride + 1) * stride

/-- What a translation of ranges finds. -/
inductive Tried where
  | pins (ps : List Pin)
  /-- The home of the page must first be asked of another package's directory (R332, R335). -/
  | ask (die va : Nat) (a : Acc)
  | absent (va level acc : Nat)
  | fails (va acc : Nat) (bad : Bool)
  | moving

/-- The offset of the first byte of a part of a leaf that nothing backs, behind a backed one (R28): a leaf lies in one
window, whose backed bytes come first. -/
def firstUnbacked (s : State) (a : Acc) (n : Nat) : Option Nat :=
  if a.pkg != s.pkg || a.reg || a.home == 1 || a.home == 2 || a.gpn.isSome || isMemory s.variant (a.loc + n - 1) then none
  else if a.loc < 0x18000000000 then some (0xDF8475000 - a.loc % 2 ^ 36)
  else some (0x1DCD650000 - a.loc % 2 ^ 37)

def tryRange (s : State) (c : Cmd) (r : Range) : Nat → Nat → List Pin → Tried
  | 0, _, _ => .fails r.va r.acc false
  | fuel + 1, from_, ps =>
    let va := r.next from_
    if r.va + r.len ≤ va then .pins ps
    else
      let l := s.launchOf (s.group c.grp)
      match testAccess s none l.asid r.die l.priv va 1 r.need with
      | .error f => if f.cond = 3 then .absent va f.level r.acc else .fails va r.acc f.bad
      | .ok a =>
        let p := pinOf r.die va a
        let ps := if ps.contains p then ps else ps ++ [p]
        if !(maskList 64 r.must).all (bit a.leaf) || decide (1024 < ps.length) then .fails va r.acc false
        else match (firstUnbacked s a (min (p.va + p.size) (r.va + r.len) - va)).map (fun i => r.next (va + i)) with
          | some b => if b < min (p.va + p.size) (r.va + r.len) then .fails b r.acc false
            else tryRange s c r fuel (p.va + p.size) ps
          | none =>
            if a.needDir && a.pkg != s.pkg then .ask r.die va a
            else if pinMoving s p then .moving
            else tryRange s c r fuel (p.va + p.size) ps

/-- The ranges of one set, whose leaves are limited together. -/
def tryRanges (s : State) (c : Cmd) : List Range → List Pin → Tried
  | [], ps => .pins ps
  | r :: rs, ps => match tryRange s c r 1026 r.va ps with
    | .pins ps' => tryRanges s c rs ps'
    | t => t

/-- Several sets, each with its own limit and its own pins (R380). -/
def trySets (s : State) (c : Cmd) : List (List Range) → List Pin → Tried
  | [], ps => .pins ps
  | rs :: rest, ps => match tryRanges s c rs [] with
    | .pins qs => trySets s c rest (ps ++ qs)
    | t => t

/-- The lowest free index of an engine's deferred list. -/
def freeDidx (s : State) (c : Cmd) : Nat :=
  ((List.range 32).find? (fun i => !s.cmds.any (fun x => x.sameEngine c && x.state == .deferred i))).getD 0

/-- R323: the command is parked; it holds no pins. -/
def deferCmd (s : State) (c : Cmd) (va level acc : Nat) : State :=
  let i := freeDidx s c
  let s := pinCount (putCmd (forgetBad s (cmdGroup c.id)) { c with state := .deferred i, trans := [] }) c.trans false
  postFault s { engineFault s c 1 0x06 with va := BitVec.ofNat 64 va, didx := i, level := level, acc := acc }

/-- R324: the record of a failed translation, then the failure. -/
def protCmd (s : State) (c : Cmd) (va acc : Nat) (bad : Bool) : State :=
  let s := postFault s { engineFault s c (if bad then 7 else 2) 0x07 with va := BitVec.ofNat 64 va, acc := acc }
  failCmd s c 0x07

/-- The command waits at acceptance, without pins. -/
def holdCmd (s : State) (c : Cmd) : State :=
  pinCount (putCmd s { c with state := .waiting, trans := [] }) c.trans false

/-- The key of a command's question to a directory, for the owner cache of a die. -/
def dirPc (die : Nat) : Dword := BitVec.ofNat 64 (0x10000 + die)

/-- The command waits at acceptance for the home of a page of another package's directory. -/
def askCmd (s : State) (c : Cmd) (die va : Nat) (a : Acc) : State :=
  let s1 := holdCmd s c
  match directoryStep (asCmd s1 c.id) (dirPc die) (BitVec.ofNat 64 va) a with
  | .wait t => t
  | .fail e => failCmd s1 { c with state := .waiting, trans := [] } e
  | .done _ _ => dropRemote (asCmd s1 c.id) (dirPc die)

def roomFor (s : State) (ps : List Pin) : Bool :=
  (ps.map Pin.die).dedup.all (fun d => pinRoom s d (ps.filter (fun p => p.die == d)))

/-- What a translation leaves in the caches of its die: the leaf, and the home of a migrated page (R317, R334, R335). -/
def notePin (s : State) (c : Cmd) (p : Pin) : State :=
  let leaf := p.leaf.toNat
  noteMig (noteTlb s (engineTlb p.die) (cmdAsid s c) p.va leaf p.level) p.die
    (if pteMIG leaf then some (pteFrame leaf) else none)

/-- A command takes further pins, where their tables have room, and goes on. -/
def takePins (s : State) (c : Cmd) (new : List Pin) (k : State → Cmd → State) : State :=
  if !roomFor s new then holdCmd s c
  else
    let c' := { c with
      trans := c.trans ++ new
      accepted := if c.trans.isEmpty then s.nextId else c.accepted }
    let s1 : State := new.foldl (fun s p => notePin s c p) { s with nextId := s.nextId + 1 }
    k (pinCount (putCmd s1 c') new true) c'

/-- R322: translate the sets and pin their leaves, then go on; `fresh` picks the pins that the command does not hold yet. -/
def translateWith (s : State) (c : Cmd) (sets : List (List Range)) (fresh : List Pin → List Pin) (k : State → Cmd → State) :
    State :=
  match trySets s c sets [] with
  | .absent va l a => deferCmd s c va l a
  | .fails va a b => protCmd s c va a b
  | .moving => holdCmd s c
  | .ask d va a => askCmd s c d va a
  | .pins ps => takePins s c (fresh ps) k

/-- Sets that a command has not translated before. -/
def translateCmd (s : State) (c : Cmd) (sets : List (List Range)) (k : State → Cmd → State) : State :=
  translateWith s c sets id k

/-- A set of which the command holds a part. -/
def extendCmd (s : State) (c : Cmd) (set : List Range) (k : State → Cmd → State) : State :=
  translateWith s c [set] (fun ps => ps.filter (fun p => !c.trans.contains p)) k

def runCmd (s : State) (c : Cmd) : State := putCmd s { c with state := .running }

/-! ### Reads through the pins (R46, R325, R357) -/

/-- R35, R325: the place that a command's pin gives an address; a line that a PGATTR has left under an older leaf is still
there. -/
def cmdAcc (s : State) (c : Cmd) (va : Nat) : Acc :=
  match c.trans.find? (fun p => p.covers va) with
  | some p => mixedAcc s true (cmdAsid s c) p.die va (p.acc s va)
  | none => default

/-- The die whose owner cache a command's access uses (R334). -/
def cmdDie (c : Cmd) (va : Nat) : Nat :=
  match c.trans.find? (fun p => p.covers va) with
  | some p => p.die
  | none => c.die

/-- The reader and the writer that a command is. -/
def Cmd.reader (c : Cmd) : Reader := ⟨kindClass c.eng, c.stamp, [(c.grp, c.fence)], c.vis⟩
def Cmd.writer (c : Cmd) : Writer := .engine (kindClass c.eng) c.grp c.die

/-- The pieces of ranges, each within one 128-byte line. -/
def linesOf (rs : List (Nat × Nat)) : List (Nat × Nat) := rs.flatMap (fun r => pieces (r.2 / 128 + 2) r.1 r.2)

/-- What the reads of a command find: a state in which it waits, a code, or that every byte is at hand. -/
inductive Ready where
  | wait (s : State)
  | fail (code : Nat)
  | go

/-- Ask other packages for what they hold of the ranges: directories first, then lines. -/
def cmdReady (s : State) (c : Cmd) (rs : List (Nat × Nat)) : Ready :=
  let s0 := asCmd s c.id
  let xs := (linesOf rs).map (fun p => (p, cmdAcc s c p.1))
  match xs.find? (fun x => x.2.needDir) with
  | some x =>
    let pc := dirPc (cmdDie c x.1.1)
    match directoryStep s0 pc (BitVec.ofNat 64 x.1.1) x.2 with
    | .wait t => .wait t
    | .fail e => .fail e
    | .done _ _ => .wait (dropRemote s0 pc)
  | none =>
    let far := xs.filter (fun x => x.2.pkg != s.pkg)
    let todo := far.filter (fun x => (remOf s0 0 x.2.dpa).isNone)
    if !todo.isEmpty then
      .wait (todo.foldl (fun s x => issueRemote s 0 (BitVec.ofNat 64 x.1.1) x.2.dpa (.load x.1.2)) s0)
    else
      let sts := far.filterMap (fun x => (remOf s0 0 x.2.dpa).map RemReq.state)
      if sts.any (fun t => t == .held || t == .sent) then .wait s
      else if sts.contains .timedOut then .fail 0x0A
      else if sts.any (fun t => match t with
        | .nacked _ => true
        | _ => false) then .fail 0x09
      else .go

/-- The bytes of a piece, each with its uncorrectable mark. -/
def readPiece (s : State) (c : Cmd) (p : Nat × Nat) : List (Byte × Bool) :=
  let a := cmdAcc s c p.1
  if a.pkg != s.pkg then
    match (remOf (asCmd s c.id) 0 a.dpa).map RemReq.state with
    | some (.answered d b) => (d.take p.2).zip ((List.range p.2).map (fun i => bit b ((a.loc + i) / 8 - a.loc / 8)))
    | _ => []
  else if a.reg then (regBytes s a.loc p.2).map (fun x => (x, false))
  else (engineBytes s c.reader a.loc p.2).zip ((List.range p.2).map (fun i => poisoned s (a.loc + i)))

/-- What an engine's reads of ranges send to the base dies; `sure` where a unit of the base die makes them. -/
def noteReads (s : State) (c : Cmd) (sure : Bool) (rs : List (Nat × Nat)) : State :=
  (linesOf rs).foldl (fun s p => (List.range 2).foldl (fun s h =>
    let a := cmdAcc s c p.1
    let lo := max a.loc ((a.loc / 64 + h) * 64)
    let hi := min (a.loc + p.2) ((a.loc / 64 + h + 1) * 64)
    if a.pkg != s.pkg || a.needDir || a.reg || decide (hi ≤ lo) then s
    else noteRead s (if sure then 3 else a.home) lo (hi - lo)) s) s

/-- The bytes of a range. -/
def cmdRead (s : State) (c : Cmd) (va n : Nat) : List (Byte × Bool) := (linesOf [(va, n)]).flatMap (readPiece s c)

def bytesAt (bs : List (Byte × Bool)) (i n : Nat) : Nat := natOfBytes (((bs.drop i).take n).map Prod.fst)
def badAt (bs : List (Byte × Bool)) (i n : Nat) : Bool := ((bs.drop i).take n).any Prod.snd

/-! ### Writes -/

/-- Write bytes at virtual addresses; what the command wrote is kept for its fences and its barrier. -/
def cmdWrite (s : State) (c : Cmd) (va : Nat) (bs : List Byte) : State × Cmd :=
  let t := (unitPieces (bs.length + 1) va bs).foldl (fun t p =>
    let a := cmdAcc t c p.1
    placeStoreBy c.writer (noteMig t (cmdDie c p.1) a.gpn) a p.2.length (BitVec.ofNat 64 (natOfBytes p.2))) (asCmd s c.id)
  ({ t with cur := s.cur }, { c with wrote := writesSince s t c.writer (kindClass c.eng) ++ c.wrote })

/-- Mark the unit of an address uncorrectable (R357). -/
def cmdMark (s : State) (c : Cmd) (va : Nat) : State :=
  let a := cmdAcc s c va
  let far (d : Nat) : State := { issueRemote (asCmd s c.id) 0 0 (d / 8 * 8) .mark with cur := s.cur }
  if a.pkg != s.pkg then far a.dpa
  else if a.needDir then
    match farTarget s (a.loc / 8) with
    | some d => far d
    | none => s
  else if a.reg || poisoned s a.loc then s
  else { s with poison := backUnit s (a.loc / 8) :: s.poison }

/-- The writes are made. The command completes in a later step, once other packages have acknowledged theirs: until then
a reader may see any of the writes or not (R44). -/
def finishWrites (s : State) (c : Cmd) (code count : Nat) : State :=
  putCmd s { c with state := .writing, code := code, count := count }

/-- A command in its last phase looks at its requests again. -/
def writingStep (s : State) (c : Cmd) : State :=
  let rs := s.remote.filter (fun r => r.grp == cmdGroup c.id)
  if rs.any (fun r => r.state.open) || s.remote.any (fun r => r.grp == migGroup && r.pc == c.writer.key && r.state.open) then s
  else if rs.any (fun r => r.state == .timedOut) then completeCmd s c 0x0A 0
  else if rs.any (fun r => match r.state with
    | .nacked _ => true
    | _ => false) then completeCmd s c 0x09 0
  else if rs.any (fun r => match r.state, r.op with
    | .answered _ p, .atomic _ _ _ _ | .answered _ p, .lineAtomic _ _ _ _ => p != 0
    | _, _ => false) then completeCmd s c 0x19 c.count
  else completeCmd s c c.code c.count

/-- A completion event of a command of an endpoint kind. -/
def completion (s : State) (id : Nat) (ok : Cmd → Bool) (k : State → Cmd → State) : Result :=
  .next (match cmdOf s id with
    | some c =>
      if !ok c then s
      else match c.state with
        | .running => k s c
        | .writing => writingStep s c
        | _ => s
    | none => s)

end Sys2Proof.Machine
end

