-- ==== Sys2Proof/Machine/Copy.lean ====
section
/-! DEFINITION. The copy engine (R356-R361): plain, DQF, EXPAND and PACK copies. -/

namespace Sys2Proof.Machine

/-! ### Fields (R356) -/

def cpSrc (c : Cmd) : Nat := c.word 1
def cpDst (c : Cmd) : Nat := c.word 2
def cpDir (c : Cmd) : Nat := bits (c.word 3) 63 62
def cpSpz (c : Cmd) : Nat := bits (c.word 3) 61 60
def cpDqf (c : Cmd) : Bool := bit (c.word 3) 59
def cpEt (c : Cmd) : Nat := bits (c.word 3) 58 54
def cpLen (c : Cmd) : Nat := bits (c.word 3) 31 0
def cpAux (c : Cmd) : Nat := c.word 4
/-- The element width in bytes of a sparse copy. -/
def cpWidth (c : Cmd) : Nat := if cpEt c == 8 || cpEt c == 9 then 2 else 1
def cpGranule (c : Cmd) : Nat := 64 * cpWidth c
def cpGranules (c : Cmd) : Nat := cpLen c / cpGranule c

/-- The local bytes that a copy takes or gives; of a PACK, whose count the fields do not tell, those that it could give
(R356, log 44). -/
def cpLocalLen (c : Cmd) : Nat := if cpDqf c then 4 * cpLen c else if cpSpz c == 2 then 16 + cpLen c else cpLen c

/-- R356-R361: a field lies outside its limits. -/
def cpBad (c : Cmd) : Bool :=
  let loc := if cpDir c == 0 then cpDst c else if cpDir c == 1 then cpSrc c else 0
  cpDir c == 3 || cpSpz c == 3 || (cpDqf c && (cpSpz c != 0 || cpDir c != 0)) || (cpSpz c == 2 && cpDir c != 0) ||
  (if cpSpz c == 0 then cpEt c != 0 else !([0, 1, 8, 9, 11, 12, 16].contains (cpEt c))) ||
  (cpSpz c == 0 && !cpDqf c && cpAux c != 0) || cpLen c == 0 || decide (2 ^ 21 ≤ loc) ||
  (cpDqf c && (cpSrc c % 128 != 0 || cpLen c % 128 != 0 || cpDst c % 16 != 0)) ||
  (cpSpz c != 0 && (cpSrc c % cpGranule c != 0 || cpLen c % cpGranule c != 0)) ||
  (cpSpz c == 2 && (decide (64 < cpGranules c) || cpDst c % 16 != 0))

/-- R356: the local side breaks R29 or reaches past the team's store. -/
def cpLocalBad (s : State) (c : Cmd) : Bool :=
  let g := s.group c.grp
  let n := cpLocalLen c
  if cpDir c == 0 then (firstBadLocal s g (cpDst c) n).isSome
  else if cpDir c == 1 then (firstBadLocal s g (cpSrc c) n).isSome
  else false

/-! ### Submission (R322) -/

/-- Bytes of the parallel array. -/
def cpAuxLen (c : Cmd) : Nat := if cpDqf c then cpLen c / 16 else if cpSpz c != 0 then 8 * cpGranules c else 0

def cpRanges (c : Cmd) : List Range :=
  let must := if cpDqf c then 2 ^ 58 else if cpSpz c != 0 then 2 ^ 59 else 0
  (if cpDir c == 1 then [] else [⟨c.die, cpSrc c, cpLen c, needR, 0, must, none⟩]) ++
  [⟨c.die, cpAux c, cpAuxLen c, needR, 0, 0, none⟩] ++
  (if cpDir c == 0 then [] else [⟨c.die, cpDst c, cpLen c, needW, 1, 0, none⟩])

def copyStart (s : State) (c : Cmd) : State :=
  if bits (c.word 3) 53 32 != 0 then failCmd s c 0x01
  else if cpBad c then failCmd s c 0x02
  else if cpLocalBad s c then failCmd s c 0x08
  else translateCmd s { c with gated := teamGated s (s.group c.grp) } [cpRanges c] runCmd

/-- R262: a copy pushed on a core whose gated operations are another context's puts their progress records in the
frames of their teams. The content of a record is left open. -/
def scanOutCopies (s : State) (core asid : Nat) : State :=
  (s.cmds.filter (fun c => c.eng == 1 && c.unit == core && c.gated && c.prog.isNone && cmdAsid s c != asid)).foldl
    (fun s c =>
      let g := s.group c.grp
      let t := s.team (s.teamOf g)
      let mine (x : Cmd) : Bool := x.eng == 1 && x.unit == core && s.teamOf (s.group x.grp) == s.teamOf g
      let used := s.cmds.filterMap (fun x => if mine x then x.prog else none)
      let j := ((List.range 4).find? (fun i => !used.contains i)).getD 0
      let odd := if (s.launchOf g).pair then core % 2 else 0
      let s := performDwords s (teamFrameAddr s t + 0x220000 + 0x21000 * odd + 128 * j)
        ((List.range 16).map (fun i => Config.freeWord s.tick (0x30000 + 64 * c.id + i)))
      putCmd s { c with prog := some j }) s

def execCopy (w0 w1 w2 w3 w4 : Dword) (s : State) : Result :=
  let s := if kindOf s.grp s.cur.qreg == 1 then scanOutCopies s s.grp.core (s.launchOf s.grp).asid else s
  submit s [w0, w1, w2, w3, w4] copyStart

/-! ### Source and destination -/

abbrev Marked := List (Byte × Bool)

def readLocal (s : State) (r : Reader) (g : Group) (la n : Nat) : Marked :=
  (List.range n).map (fun i => (storeByte1 s r g (la + i), storeBad s g (la + i)))

/-- The source bytes of a copy. -/
def cpRead (s : State) (c : Cmd) : Marked :=
  if cpDir c == 1 then readLocal s c.reader (s.group c.grp) (cpSrc c) (cpLen c) else cmdRead s c (cpSrc c) (cpLen c)

/-- Write bytes at the destination, and mark the units that take a byte from a marked source. -/
def cpWrite (s : State) (c : Cmd) (off : Nat) (bs : Marked) : State × Cmd :=
  let at_ := cpDst c + off
  let bad := (List.range bs.length).filter (fun i => (bs[i]?.getD (0, false)).2)
  if cpDir c == 0 then
    let g := s.group c.grp
    let t := storePut c.writer s g at_ (bs.map Prod.fst)
    (bad.foldl (fun s i => markLocal s g (at_ + i)) t, { c with wrote := writesSince s t c.writer 2 ++ c.wrote })
  else
    let (s1, c1) := cmdWrite s c at_ (bs.map Prod.fst)
    (bad.foldl (fun s i => cmdMark s c (at_ + i)) s1, c1)

/-! ### Plain copies (R357) -/

/-- The bytes that an overlapping copy writes: per destination unit, the source as it stood, or the bytes that the
command itself wrote to the source range. `done` holds the bytes already determined, the latest first; the byte
`d` places before is then the one written over the source. -/
def overlapBytes (s : State) (base d : Nat) (up : Bool) : Nat → Nat → Marked → Marked → Marked
  | 0, _, _, done => done
  | _, _, [], done => done
  | fuel + 1, i, b :: bs, done =>
    let a := if up then base + i else base - i
    let own := s.free (4000 + a / 8) % 2 == 1 && decide (d ≤ i)
    overlapBytes s base d up fuel (i + 1) bs ((if own then (done[d - 1]?.getD b) else b) :: done)

def plainBytes (s : State) (c : Cmd) (bs : Marked) : Marked :=
  let n := cpLen c
  let src := cpSrc c
  let dst := cpDst c
  if cpDir c != 2 then bs
  else if src < dst && dst < src + n then (overlapBytes s dst (dst - src) true n 0 bs []).reverse
  else if dst < src && src < dst + n then overlapBytes s (dst + n - 1) (src - dst) false n 0 bs.reverse []
  else bs

/-! ### DQF (R358) -/

/-- The bf16 of an mx4 code with its scale byte. -/
def dqfValue (q e : Nat) : Nat :=
  if e == 255 then 0x7FC0
  else (roundTo .bf16 .rne false false ((readFloat .mx4 q).scale ((e : Int) - 127))).1

/-- One source line of 32 bytes' scale: 256 codes to a line of 128 bytes, a scale for each 32 codes (R72). -/
def dqfBytes (src aux : Marked) : Marked :=
  (List.range (2 * src.length)).flatMap (fun j =>
    let b := src[j / 2]?.getD (0, false)
    let x := aux[j / 32]?.getD (0, false)
    let q := if j % 2 == 0 then b.1.toNat % 16 else b.1.toNat / 16
    (bytesOf 2 (dqfValue q x.1.toNat)).map (fun y => (y, b.2 || x.2)))

/-! ### Sparse copies (R359-R361) -/

/-- R359: the bytes of a granule that are read: all, or, where the cache layer is present, those up to the last 64-byte unit
that holds a nonzero element. -/
def granuleRead (s : State) (w bm : Nat) : Nat :=
  if s.variant.b then 64 * w else ((maskList 64 bm).length * w + 63) / 64 * 64

/-- Expand the elements of one granule: the next packed element where the bitmap has a 1, else zero. -/
def expandGranule (w bm : Nat) (bad : Bool) : Nat → Nat → Marked → Marked
  | 0, _, _ => []
  | fuel + 1, i, bs =>
    if bit bm i then (bs.take w).map (fun b => (b.1, b.2 || bad)) ++ expandGranule w bm bad fuel (i + 1) (bs.drop w)
    else List.replicate w (0, bad) ++ expandGranule w bm bad fuel (i + 1) bs

def granuleOf (c : Cmd) (src aux : Marked) (g : Nat) : Marked :=
  expandGranule (cpWidth c) (bytesAt aux (8 * g) 8) (badAt aux (8 * g) 8) 64 0 ((src.drop (cpGranule c * g)).take (cpGranule c))

def expandBytes (c : Cmd) (src aux : Marked) : Marked := (List.range (cpGranules c)).flatMap (granuleOf c src aux)

/-- A byte that the copy reads is marked uncorrectable. -/
def cpMarked (s : State) (c : Cmd) (src aux : Marked) : Bool :=
  aux.any Prod.snd || (if cpSpz c == 0 then src.any Prod.snd
    else (List.range (cpGranules c)).any (fun g =>
      badAt src (cpGranule c * g) (granuleRead s (cpWidth c) (bytesAt aux (8 * g) 8))))

/-- R361: the granules whose bitmap is not 0, and the map. -/
def packMap (c : Cmd) (aux : Marked) : List Nat := (List.range (cpGranules c)).filter (fun g => bytesAt aux (8 * g) 8 != 0)
def packBytes (c : Cmd) (src aux : Marked) : Marked :=
  let gs := packMap c aux
  let bad := (List.range (cpGranules c)).any (fun g => badAt aux (8 * g) 8)
  (bytesOf 8 (maskOf gs)).map (fun b => (b, bad)) ++ List.replicate 8 (0, false) ++ gs.flatMap (granuleOf c src aux)

/-! ### Completion (R353-R355) -/

/-- The copy engine performs four commands at once, started in acceptance order; one whose progress record has been
scanned out holds no place (R262). -/
def copyTurn (s : State) (c : Cmd) : Bool :=
  !c.gated && (((s.cmds.filter (fun x => x.sameEngine c && (x.state == .running || x.state == .writing) &&
    !(x.gated && x.prog.isSome))).take 4).any (fun x => x.id == c.id))

def copyRun (s : State) (c : Cmd) : State :=
  let rs := (if cpDir c == 1 then [] else [(cpSrc c, cpLen c)]) ++ [(cpAux c, cpAuxLen c)]
  match cmdReady s c rs with
  | .wait t => t
  | .fail e => failCmd s c e
  | .go =>
    let src := cpRead s c
    let aux := cmdRead s c (cpAux c) (cpAuxLen c)
    let out := if cpDqf c then dqfBytes src aux
      else if cpSpz c == 1 then expandBytes c src aux
      else if cpSpz c == 2 then packBytes c src aux
      else plainBytes s c src
    let (s1, c1) := cpWrite s c 0 out
    finishWrites s1 c1 (if cpMarked s c src aux then 0x19 else 0) out.length

def execCopyCompletion (id : Nat) (s : State) : Result :=
  completion s id (fun c => c.eng == 1 && copyTurn s c) copyRun

end Sys2Proof.Machine
end

