-- ==== Sys2Proof/Machine/Gather.lean ====
section
/-! DEFINITION. The gather engine (R362-R364) and the bank-side dot units (R365, R366). -/

namespace Sys2Proof.Machine

def f32Round (x : XVal) : Nat := (roundTo .f32 .rne false false x).1
def f32Val (n : Nat) : XVal := readFloat .f32 n
def f32Add (a b : Nat) : Nat := f32Round (xadd .rne (f32Val a) (f32Val b)).1

/-! ### BAG and UPD: fields (R362, R364) -/

def gTbase (c : Cmd) : Nat := c.word 1
def gIbase (c : Cmd) : Nat := c.word 2
/-- OBASE of a BAG, GBASE of an UPD. -/
def gObase (c : Cmd) : Nat := c.word 3
def gDbase (c : Cmd) : Nat := c.word 4
def gNr (c : Cmd) : Nat := bits (c.word 5) 63 32
def gRs (c : Cmd) : Nat := bits (c.word 5) 31 16
def gD (c : Cmd) : Nat := bits (c.word 5) 15 0
def gNi (c : Cmd) : Nat := bits (c.word 6) 63 48
def gNb (c : Cmd) : Nat := bits (c.word 6) 47 32
def gTt (c : Cmd) : Nat := bits (c.word 6) 31 27
def gPool (c : Cmd) : Nat := bits (c.word 6) 26 25
def gTy (c : Cmd) : Ty := (Ty.ofCode (gTt c)).getD .f32
/-- The element size in bytes. -/
def gSize (c : Cmd) : Nat := (gTy c).bits / 8
def gRow (c : Cmd) (u : Nat) : Nat × Nat := (gTbase c + gRs c * u, gD c * gSize c)
/-- The table, all of whose rows the command may touch. -/
def gTable (c : Cmd) : Nat × Nat := (gTbase c, gRs c * (gNr c - 1) + gD c * gSize c)
/-- Its rows, without what lies between them. -/
def gRows (c : Cmd) (need : Need) (acc : Nat) : Range :=
  ⟨c.die, (gTable c).1, (gTable c).2, need, acc, 0, some (gD c * gSize c, gRs c)⟩

/-- The limits that both commands share. -/
def gBad (c : Cmd) : Bool :=
  !([8, 9, 10, 11, 12].contains (gTt c)) || gTbase c % gSize c != 0 || gIbase c % 4 != 0 ||
  gNr c == 0 || gRs c % gSize c != 0 || decide (gRs c < gD c * gSize c) || gD c == 0 || decide (4096 < gD c) ||
  gNi c == 0 || decide (4096 < gNi c)

def bagBad (c : Cmd) : Bool :=
  gBad c || gObase c % 4 != 0 || gDbase c % 4 != 0 || gNb c == 0 || decide (gNi c < gNb c) || gPool c == 3

def updBad (c : Cmd) : Bool := gBad c || c.word 4 != 0 || gNb c != 0 || gPool c != 0 || gTt c != 10

def range (c : Cmd) (r : Nat × Nat) (need : Need) (acc : Nat) : Range := ⟨c.die, r.1, r.2, need, acc, 0, none⟩

def bagStart (s : State) (c : Cmd) : State :=
  let l := s.launchOf (s.group c.grp)
  if bits (c.word 6) 24 0 != 0 then failCmd s c 0x01
  else if bagBad c then failCmd s c 0x02
  else if gPool c == 2 && !(l.priv && l.maint) then failCmd s c 0x18
  else translateCmd s c [[gRows c needR 0, range c (gIbase c, 4 * gNi c) needR 0,
    range c (gObase c, 4 * gNb c) needR 0, range c (gDbase c, 4 * gD c * gNb c) needW 1]] runCmd

def updStart (s : State) (c : Cmd) : State :=
  if bits (c.word 6) 24 0 != 0 then failCmd s c 0x01
  else if updBad c then failCmd s c 0x02
  else translateCmd s c [[gRows c needRW 2, range c (gIbase c, 4 * gNi c) needR 0,
    range c (gObase c, 4 * gD c * gNi c) needR 0]] runCmd

def execBag (w0 w1 w2 w3 w4 w5 w6 : Dword) (s : State) : Result := submit s [w0, w1, w2, w3, w4, w5, w6] bagStart
def execUpd (w0 w1 w2 w3 w4 w5 w6 : Dword) (s : State) : Result := submit s [w0, w1, w2, w3, w4, w5, w6] updStart

/-! ### BAG (R363) -/

/-- An array of n32 values. -/
def wordsAt (bs : Marked) (n : Nat) : List Nat := (List.range n).map (fun i => bytesAt bs (4 * i) 4)

/-- The offsets are non-decreasing, start at 0 and stay within NI. -/
def offsetsOk (os : List Nat) (ni : Nat) : Bool :=
  os.headD 1 == 0 && (os.zip (os.drop 1)).all (fun p => decide (p.1 ≤ p.2)) && os.all (fun o => decide (o ≤ ni))

def distinct (is : List Nat) : List Nat := is.dedup.mergeSort (fun a b => decide (a ≤ b))

/-- Element e of a fetched row, as an f32. -/
def rowElem (c : Cmd) (row : Marked) (e : Nat) : Nat := f32Round (readFloat (gTy c) (bytesAt row (gSize c * e) (gSize c)))

/-- One pooled element over the rows of a bag. -/
def poolElem (c : Cmd) (rows : List Marked) (e : Nat) : Nat :=
  match rows with
  | [] => if gPool c == 2 then 0xFF800000 else 0
  | r :: rest =>
    let acc := rest.foldl (fun a x =>
      if gPool c == 2 then f32Round (xminmax true (f32Val a) (f32Val (rowElem c x e))).1
      else f32Add a (rowElem c x e)) (rowElem c r e)
    if gPool c == 1 then f32Round (xdiv (f32Val acc) (.fin false rows.length 1)) else acc

/-- One bag: its rows, and its output. A row with an uncorrectable soft error makes the bag NaN. -/
def bagOut (c : Cmd) (rows : List Marked) : List Byte :=
  let bad := rows.any (fun r => r.any Prod.snd)
  (List.range (gD c)).flatMap (fun e => bytesOf 4 (if bad then 0x7FC00000 else poolElem c rows e))

def bagRun (s : State) (c : Cmd) : State :=
  match cmdReady s c [(gIbase c, 4 * gNi c), (gObase c, 4 * gNb c)] with
  | .wait t => t
  | .fail e => failCmd s c e
  | .go =>
    let ib := cmdRead s c (gIbase c) (4 * gNi c)
    let ob := cmdRead s c (gObase c) (4 * gNb c)
    let is := wordsAt ib (gNi c)
    let os := wordsAt ob (gNb c)
    if is.any (fun i => decide (gNr c ≤ i)) || !offsetsOk os (gNi c) then failCmd s c 0x02
    else
      let us := distinct is
      match cmdReady s c (us.map (gRow c)) with
      | .wait t => t
      | .fail e => failCmd s c e
      | .go =>
        let rows := us.map (fun u => (u, cmdRead s c (gRow c u).1 (gRow c u).2))
        let rowOf (u : Nat) : Marked := ((rows.find? (fun r => r.1 == u)).map Prod.snd).getD []
        let bagRows (b : Nat) : List Marked :=
          let lo := os[b]?.getD 0
          let hi := os[b + 1]?.getD (gNi c)
          ((is.drop lo).take (hi - lo)).map rowOf
        let out := (List.range (gNb c)).flatMap (fun b => bagOut c (bagRows b))
        let (s1, c1) := cmdWrite (noteReads s c false (us.map (gRow c))) c (gDbase c) out
        let bad := ib.any Prod.snd || ob.any Prod.snd || rows.any (fun r => r.2.any Prod.snd)
        finishWrites s1 c1 (if bad then 0x19 else 0) us.length

/-! ### UPD (R364) -/

/-- An atomic f32 ADD at a row element (R42); true where its unit is uncorrectable. -/
def atomicAdd (s : State) (c : Cmd) (va g : Nat) : State × Bool :=
  let a := cmdAcc s c va
  if a.pkg != s.pkg then
    let old := s.cur
    let s1 := issueRemote (asCmd s c.id) 0 (BitVec.ofNat 64 va) a.dpa (.atomic 10 0 (BitVec.ofNat 64 g) 0)
    ({ s1 with cur := old }, false)
  else if a.reg then
    (regStore s a.loc 4 (BitVec.ofNat 64 (f32Add (unitPart (regValue s a.loc) (a.loc % 8) 4) g)), false)
  else if poisoned s a.loc then (s, true)
  else
    let t := performBytesBy s c.writer a.loc 4 (BitVec.ofNat 64 (f32Add (memAt s a.loc 4) g))
    -- an atomic's write is published at once (R42)
    ({ t with hist := t.hist.map (fun h => if s.ord < h.stamp then { h with shut := h.stamp } else h) }, false)

/-- Element e of the combined gradient of a row: the records in order, each sum rounded. -/
def combined (c : Cmd) (gb : Marked) (rs : List Nat) (e : Nat) : Nat :=
  match rs.map (fun r => bytesAt gb (4 * (gD c * r + e)) 4) with
  | [] => 0
  | g :: gs => gs.foldl f32Add g

/-- The directories of the table's pages must be known before its atomics go out. -/
def updRun (s : State) (c : Cmd) : State :=
  match cmdReady s c [(gIbase c, 4 * gNi c), (gObase c, 4 * gD c * gNi c)] with
  | .wait t => t
  | .fail e => failCmd s c e
  | .go =>
    let ib := cmdRead s c (gIbase c) (4 * gNi c)
    let gb := cmdRead s c (gObase c) (4 * gD c * gNi c)
    let is := wordsAt ib (gNi c)
    if is.any (fun i => decide (gNr c ≤ i)) then failCmd s c 0x02
    else
      let us := distinct is
      match us.find? (fun u => (linesOf [gRow c u]).any (fun p => (cmdAcc s c p.1).needDir)) with
      | some u => match cmdReady s c [gRow c u] with
        | .wait t => t
        | .fail e => failCmd s c e
        | .go => s
      | none =>
        let adds := us.flatMap (fun u =>
          let rs := (List.range is.length).filter (fun r => is[r]? == some u)
          (List.range (gD c)).map (fun e => ((gRow c u).1 + 4 * e, combined c gb rs e)))
        let r := adds.foldl (fun (x : State × Bool) p =>
          let y := atomicAdd x.1 c p.1 p.2
          (y.1, x.2 || y.2)) (s, false)
        let bad := r.2 || ib.any Prod.snd || gb.any Prod.snd
        finishWrites r.1 { c with wrote := writesSince s r.1 c.writer 3 ++ c.wrote } (if bad then 0x19 else 0) us.length

def execGatherCompletion (id : Nat) (s : State) : Result :=
  completion s id (fun c => c.eng == 2) (fun s c => if c.opc == 0x10 then bagRun s c else updRun s c)

/-! ### NGEMV (R365, R366) -/

def nW (c : Cmd) : Nat := c.word 1
def nS (c : Cmd) : Nat := c.word 2
def nX (c : Cmd) : Nat := c.word 3
def nY (c : Cmd) : Nat := c.word 4
def nRsw (c : Cmd) : Nat := bits (c.word 5) 63 32
def nRows (c : Cmd) : Nat := bits (c.word 5) 31 16
def nCols (c : Cmd) : Nat := bits (c.word 5) 15 0
def nWt (c : Cmd) : Nat := bits (c.word 6) 63 59
def nXt (c : Cmd) : Nat := bits (c.word 6) 58 54
def nYt (c : Cmd) : Nat := bits (c.word 6) 53 49
def nBlk (c : Cmd) : Nat := bits (c.word 6) 48 47
def nZp (c : Cmd) : Bool := bit (c.word 6) 46
def nAcc (c : Cmd) : Bool := bit (c.word 6) 45
def nSpz (c : Cmd) : Bool := bit (c.word 6) 44
def nTy (t : Nat) : Ty := (Ty.ofCode t).getD .f32
def nZb (c : Cmd) : Bool := nWt c == 15 || nWt c == 16
def nBlock (c : Cmd) : Bool := decide (13 ≤ nWt c) && decide (nWt c ≤ 16)
def nBs (c : Cmd) : Nat := blockOf (nWt c) (nBlk c)
/-- Bytes of a row of weights, of x, of y, and of the scale or bitmap array. -/
def nRowLen (c : Cmd) : Nat := nCols c * (nTy (nWt c)).bits / 8
def nXlen (c : Cmd) : Nat := nCols c * (nTy (nXt c)).bits / 8
def nYlen (c : Cmd) : Nat := nRows c * ((nTy (nYt c)).bits / 8)
def nSlen (c : Cmd) : Nat :=
  if nSpz c then nRows c * nCols c / 64 * 8
  else if nBlock c then nRows c * (nCols c / nBs c) * scaleWidth (nTy (nWt c)) else 0

def ngemvBad (c : Cmd) : Bool :=
  !([9, 11, 13, 14, 15, 16].contains (nWt c)) || !([9, 11].contains (nXt c)) || !([8, 9, 10].contains (nYt c)) ||
  nRows c == 0 || nCols c % 32 != 0 || decide (nCols c < 32) || decide (16384 < nCols c) || nW c % 64 != 0 ||
  nX c % ((nTy (nXt c)).bits / 8) != 0 || nY c % ((nTy (nYt c)).bits / 8) != 0 || nRsw c % 64 != 0 ||
  decide (nRsw c < nRowLen c) || (if nZb c then false else nBlk c != (if nBlock c then 2 else 0)) ||
  (nZp c && !nZb c) || (nAcc c && nYt c != 10) || (nSpz c && (!([9, 11].contains (nWt c)) || nCols c % 64 != 0)) ||
  (nZb c && (nCols c % nBs c != 0 || nS c % 4 != 0)) || (nS c != 0 && !nBlock c && !nSpz c)

def nWlen (c : Cmd) : Nat := nRsw c * (nRows c - 1) + nRowLen c

/-- The rows of W, without what lies between them. -/
def nRange (c : Cmd) : Range := ⟨c.die, nW c, nWlen c, needR, 0, 0, some (nRowLen c, nRsw c)⟩

/-- A page of a range that does not lie in a stack of this package. -/
def offStack (s : State) (c : Cmd) (r : Range) (stack : Nat) : Bool :=
  c.trans.any (fun p =>
    let va := r.next (max p.va r.va)
    let a := p.acc s va
    decide (0 < r.len) && decide (va < r.va + r.len) && decide (va < p.va + p.size) &&
    (a.pkg != s.pkg || !hbmBacked (backing s a.loc) || backing s a.loc / 2 ^ 36 != stack))

/-- R365: the test of the homes of W and of its parallel array comes straight after translation. -/
def ngemvHomes (s : State) (c : Cmd) : State :=
  if offStack s c (nRange c) c.unit || offStack s c (range c (nS c, nSlen c) needR 0) c.unit then failCmd s c 0x02 else runCmd s c

def ngemvStart (s : State) (c : Cmd) : State :=
  if bits (c.word 6) 43 0 != 0 then failCmd s c 0x01
  else if ngemvBad c then failCmd s c 0x02
  else translateCmd s c [[nRange c, range c (nS c, nSlen c) needR 0,
    range c (nX c, nXlen c) needR 0, range c (nY c, nYlen c) (if nAcc c then needRW else needW) 1]] ngemvHomes

def execNgemv (w0 w1 w2 w3 w4 w5 w6 : Dword) (s : State) : Result :=
  submit s [w0, w1, w2, w3, w4, w5, w6] ngemvStart

/-- The bitmap of granule g of row r of a sparse W. -/
def nBitmap (c : Cmd) (sb : Marked) (r g : Nat) : Nat := bytesAt sb (8 * (r * (nCols c / 64) + g)) 8

/-- The weights of a row by column, as the terms of their products (R74): none where a sparse bitmap has a 0. -/
def rowWeights (c : Cmd) (row sb : Marked) (r : Nat) : List (Option (List XVal)) :=
  let t := nTy (nWt c)
  let w := t.bits
  (List.range (nCols c)).map (fun j =>
    if nSpz c then
      let bm := nBitmap c sb r (j / 64)
      if bit bm (j % 64) then
        let k := (maskList (j % 64) bm).length
        some [readFloat t (bytesAt row ((j / 64 * 64 + k) * w / 8) (w / 8))]
      else none
    else
      let b := bytesAt row (j * w / 8) ((w + 7) / 8)
      let q := if w == 4 then (if j % 2 == 1 then b / 16 else b % 16) else b
      if nBlock c then
        let sw := scaleWidth t
        let sc := bytesAt sb ((r * (nCols c / nBs c) + j / nBs c) * sw) sw
        some (if t == .ts8 then ts8Terms q sc else [(blockValue t q sc (nZp c)).1])
      else some [readFloat t q])

/-- A byte of a row that `len` picks from each granule of a sparse W, or any byte of a dense one, is marked. -/
def rowMarked (c : Cmd) (row sb : Marked) (r : Nat) (len : Nat → Nat) : Bool :=
  if nSpz c then
    let n := 8 * (nTy (nWt c)).bits
    (List.range (nCols c / 64)).any (fun g => badAt row (n * g) (len (nBitmap c sb r g)))
  else row.any Prod.snd

/-- R366: runs of 8 columns; a missing weight forms no product. -/
def ngemvRuns : Nat → Nat → List (Option (List XVal)) → List XVal → Nat
  | 0, acc, _, _ => acc
  | fuel + 1, acc, ws, xs =>
    let ps := ((ws.take 8).zip (xs.take 8)).filterMap (fun p => p.1.map (fun w => (w, [p.2])))
    ngemvRuns fuel (accum8 false acc (termPairs (ps.map Prod.fst) (ps.map Prod.snd))).1 (ws.drop 8) (xs.drop 8)

/-- One result, or the canonical NaN of YT for a row with an uncorrectable soft error. -/
def ngemvRow (c : Cmd) (xs : List XVal) (row sb : Marked) (acc r : Nat) : Nat :=
  let t := nTy (nYt c)
  let w := (nTy (nWt c)).bits / 8
  if rowMarked c row sb r (fun bm => (maskList 64 bm).length * w) then nanEnc t false none
  else
    let a := ngemvRuns (nCols c / 8) acc (rowWeights c row sb r) xs
    if t == .f32 then a else (roundTo t .rne false false (f32Val a)).1

/-- What the unit reads of a row of W (R359, R366). -/
def nReads (s : State) (c : Cmd) (sb : Marked) (r : Nat) : List (Nat × Nat) :=
  let row := nW c + nRsw c * r
  let w := (nTy (nWt c)).bits / 8
  if nSpz c then (List.range (nCols c / 64)).map (fun g => (row + 64 * w * g, granuleRead s w (nBitmap c sb r g)))
  else [(row, nRowLen c)]

def ngemvRun (s : State) (c : Cmd) : State :=
  let rows := (List.range (nRows c)).map (fun r => (nW c + nRsw c * r, nRowLen c))
  let rs := rows ++ [(nS c, nSlen c), (nX c, nXlen c)] ++ (if nAcc c then [(nY c, nYlen c)] else [])
  match cmdReady s c rs with
  | .wait t => t
  | .fail e => failCmd s c e
  | .go =>
    let xb := cmdRead s c (nX c) (nXlen c)
    let xw := (nTy (nXt c)).bits / 8
    let xs := (List.range (nCols c)).map (fun j => readFloat (nTy (nXt c)) (bytesAt xb (xw * j) xw))
    let sb := cmdRead s c (nS c) (nSlen c)
    let yb := if nAcc c then cmdRead s c (nY c) (nYlen c) else []
    let out := (List.range (nRows c)).map (fun r =>
      let row := cmdRead s c (nW c + nRsw c * r) (nRowLen c)
      (ngemvRow c xs row sb (bytesAt yb (4 * r) 4) r,
        rowMarked c row sb r (granuleRead s ((nTy (nWt c)).bits / 8))))
    let s0 := noteReads s c true ((List.range (nRows c)).flatMap (nReads s c sb))
    let (s1, c1) := cmdWrite s0 c (nY c) (out.flatMap (fun o => bytesOf ((nTy (nYt c)).bits / 8) o.1))
    let bad := xb.any Prod.snd || sb.any Prod.snd || yb.any Prod.snd || out.any Prod.snd
    finishWrites s1 c1 (if bad then 0x19 else 0) (nRows c)

def execNgemvCompletion (id : Nat) (s : State) : Result := completion s id (fun c => c.eng == 4) ngemvRun

end Sys2Proof.Machine
end

