-- ==== Sys2Proof/Machine/Search.lean ====
section
/-! DEFINITION. The search engine (R374-R390): acceptance in two passes, distances, the walk, its messages, and the
heap control words. -/

namespace Sys2Proof.Machine

/-! ### Fields (R374, R378) -/

def shIdesc (c : Cmd) : Nat := c.word 1
def shQbase (c : Cmd) : Nat := c.word 2
def shRbase (c : Cmd) : Nat := c.word 3
def shSnap (c : Cmd) : Nat := bits (c.word 4) 63 32
def shEntry (c : Cmd) : Nat := bits (c.word 4) 31 0
def shK (c : Cmd) : Nat := bits (c.word 5) 63 55
def shL (c : Cmd) : Nat := bits (c.word 5) 54 45
def shHops (c : Cmd) : Nat := bits (c.word 5) 44 29
def shMet (c : Cmd) : Nat := bits (c.word 5) 28 27

/-- R379 step 2. -/
def srchBad (c : Cmd) : Bool :=
  shK c == 0 || decide (256 < shK c) || decide (shL c < shK c) || decide (512 < shL c) || shHops c == 0 ||
  shMet c == 3 || shIdesc c % 16 != 0 || shRbase c % 8 != 0

/-- A descriptor's dwords. -/
abbrev Desc := List Dword

def Desc.dw (d : Desc) (i : Nat) : Nat := (d[i]?.getD 0).toNat
def Desc.et (d : Desc) : Nat := bits (d.dw 0) 63 59
def Desc.d (d : Desc) : Nat := bits (d.dw 0) 58 48
def Desc.nrange (d : Desc) : Nat := bits (d.dw 0) 47 43
def Desc.rsz (d : Desc) : Nat := bits (d.dw 0) 42 36
def Desc.ty (d : Desc) : Ty := (Ty.ofCode d.et).getD .f32
def Desc.esize (d : Desc) : Nat := d.ty.bits / 8

/-- A range of node ids (R374). -/
structure IdRange where
  stack : Nat
  base : Nat
  first : Nat
  count : Nat
  deriving DecidableEq, Repr, Inhabited

def Desc.range (d : Desc) (i : Nat) : IdRange :=
  ⟨bits (d.dw (3 + 2 * i)) 63 59, bits (d.dw (3 + 2 * i)) 53 0, bits (d.dw (2 + 2 * i)) 63 32, bits (d.dw (2 + 2 * i)) 31 0⟩
def Desc.ranges (d : Desc) : List IdRange := (List.range d.nrange).map d.range

/-- The range of a node id. -/
def Desc.find (d : Desc) (n : Nat) : Option IdRange :=
  d.ranges.find? (fun r => decide (r.first ≤ n) && decide (n < r.first + r.count))

/-- The bytes of a record that are read, and its address in a range. -/
def Desc.recLen (d : Desc) : Nat := 544 + d.d * d.esize
def Desc.addr (d : Desc) (r : IdRange) (n : Nat) : Nat := r.base + d.rsz * 64 * (n - r.first)

/-- R374, R379: the ranges stand in order. -/
def rangesOk : List IdRange → Bool
  | [] => true
  | [r] => decide (r.first + r.count ≤ 2 ^ 32)
  | r :: q :: rs => decide (r.first + r.count ≤ q.first) && rangesOk (q :: rs)

/-- R379 step 5 on the descriptor. -/
def descBad (c : Cmd) (d : Desc) : Bool :=
  bits (d.dw 0) 35 0 != 0 || d.dw 1 != 0 || !([0, 9, 11].contains d.et) || d.d == 0 || decide (1024 < d.d) ||
  d.nrange == 0 || decide (24 < d.nrange) || decide (d.rsz * 64 < d.recLen) ||
  (List.range d.nrange).any (fun i => bits (d.dw (3 + 2 * i)) 58 54 != 0) ||
  d.ranges.any (fun r => decide (23 < r.stack) || r.base % 64 != 0 || r.count == 0) ||
  !rangesOk d.ranges || !((d.ranges.map IdRange.stack).Nodup) || (d.find (shEntry c)).isNone ||
  shQbase c % d.esize != 0

/-! ### Distances (R381) -/

/-- An element of a vector, as an exact value. -/
def elemVal (t : Ty) (n : Nat) : XVal := if t.isInt then .ofInt (readInt t n) else readFloat t n

def vecOf (d : Desc) (bs : Marked) (at_ : Nat) : List Nat :=
  (List.range d.d).map (fun e => f32Round (elemVal d.ty (bytesAt bs (at_ + d.esize * e) d.esize)))

/-- A sum of products by the 8-wide rule of R83 from +0. -/
def sum8 (ps : List (XVal × XVal)) : Nat := (accumRuns false (ps.length + 1) 0 ps).1

def dot8 (q v : List Nat) : Nat := sum8 ((q.map f32Val).zip (v.map f32Val))

def f32Neg (n : Nat) : Nat := if (f32Val n).isNaN then 0x7FC00000 else if n < 2 ^ 31 then n + 2 ^ 31 else n - 2 ^ 31
def f32Mul (a b : Nat) : Nat := f32Round (xmul (f32Val a) (f32Val b)).1

def distance (met : Nat) (q v : List Nat) (qinv ninv : Nat) : Nat :=
  if met == 0 then
    sum8 ((q.zip v).map (fun p =>
      let x := (xadd .rne (f32Val p.1) (f32Val p.2).neg).1
      (x, x)))
  else if met == 1 then f32Neg (dot8 q v)
  else f32Round (xadd .rne (f32Val 0x3F800000) (f32Val (f32Mul (f32Mul (dot8 q v) qinv) ninv)).neg).1

/-- A pair (distance, id), and the order of R381. -/
abbrev Pair := Word × Nat

def pairLt (a b : Pair) : Bool :=
  let x := f32Val a.1.toNat
  let y := f32Val b.1.toNat
  if x.isNaN && y.isNaN then decide (a.2 < b.2)
  else if x.isNaN then false
  else if y.isNaN then true
  else if xlt x y then true
  else if xlt y x then false
  else decide (a.2 < b.2)

/-- A list of pairs kept in order. -/
def insertPair (p : Pair) : List Pair → List Pair
  | [] => [p]
  | q :: qs => if pairLt p q then p :: q :: qs else q :: insertPair p qs

/-- R382: insert a pair whose id is not there, and keep at most `n` pairs. -/
def keepPair (n : Nat) (ps : List Pair) (p : Pair) : List Pair :=
  if ps.any (fun q => q.2 == p.2) then ps else (insertPair p ps).take n

/-! ### Records (R375-R377) -/

/-- R376: a record as read under a snapshot names a visible node. -/
def visible (bs : Marked) (n snap : Nat) : Bool :=
  bytesAt bs 0 4 == n && decide (bytesAt bs 4 4 ≤ snap) && decide (snap < bytesAt bs 8 4) && !bs.any Prod.snd

/-- R377: the neighbour list. -/
def neighbours (bs : Marked) (snap : Nat) : List Nat :=
  let v0 := bytesAt bs 16 4
  let v1 := bytesAt bs 280 4
  let slot := if v0 ≤ snap && (decide (snap < v1) || decide (v1 ≤ v0)) then some 16
    else if v1 ≤ snap then some 280 else none
  match slot with
  | some o => (List.range (min (bits (bytesAt bs (o + 4) 4) 6 0) 64)).map (fun i => bytesAt bs (o + 8 + 4 * i) 4)
  | none => []

/-! ### The searches and their heaps (R387) -/

def searchOf (s : State) (id : Nat) : Option Search := s.searches.find? (fun h => h.cmd == id)

def searchHeap (stack slot : Nat) : Nat := 0x3F0000300000 + 0x1000 * stack + 8 * slot

/-- The control word of a heap in use. -/
def heapWord (h : Search) : Dword :=
  let out := match h.expected with
    | some n => if h.entry then 0 else n - h.got.length
    | none => 0
  BitVec.ofNat 64 (2 ^ 63 + h.heap.length * 2 ^ 54 + h.cands.length * 2 ^ 44 + h.hops * 2 ^ 28 + out * 2 ^ 21 +
    h.seen.length)

def putSearch (s : State) (h : Search) : State :=
  regSet { s with searches := s.searches.map (fun x => if x.cmd == h.cmd then h else x) }
    (searchHeap h.home h.slot) (heapWord h)

/-- The search is at its end: its heap is free. -/
def dropSearch (s : State) (h : Search) : State :=
  regSet { s with searches := s.searches.filter (fun x => x.cmd != h.cmd) } (searchHeap h.home h.slot) 0

/-- The search is dropped with its command's completion. -/
def settleSearch (s : State) (h : Search) : State :=
  match cmdOf s h.cmd with
  | some c => if c.state == .writing then s else dropSearch s h
  | none => dropSearch s h

/-! ### Acceptance (R379, R380) -/

def descLen (n : Nat) : Nat := 16 + 16 * n

def Desc.ofBytes (bs : Marked) : Desc :=
  (List.range (bs.length / 8)).map (fun i => BitVec.ofNat 64 (bytesAt bs (8 * i) 8))

/-- The pages of a range of ids. -/
def Desc.pages (d : Desc) (r : IdRange) : Range := ⟨r.stack, r.base, d.rsz * 64 * r.count, needR, 0, 0, none⟩

/-- The sets of the second pass: the query and the result area at the home stack, and each range at its own. -/
def srchSets (c : Cmd) (d : Desc) : List (List Range) :=
  [⟨c.die, shQbase c, d.d * d.esize, needR, 0, 0, none⟩, ⟨c.die, shRbase c, 8 * shK c, needW, 1, 0, none⟩] ::
    d.ranges.map (fun r => [d.pages r])

/-- The pages whose home another package's directory must give first. -/
def dirsReady (s : State) (c : Cmd) : Ready :=
  match c.trans.find? (fun p => (p.acc s p.va).needDir) with
  | some p => cmdReady s c [(p.va, 1)]
  | none => .go

def freeHeaps (s : State) (stack : Nat) : List Nat :=
  (List.range 256).filter (fun j => regGet s (searchHeap stack j) == 0)

/-- The search begins: its query goes to the stacks of its ranges, and ENTRY is looked at. -/
def searchBegin (s : State) (c : Cmd) (d : Desc) (q : List Nat) (qinv : Nat) : State :=
  let fs := freeHeaps s c.unit
  let h : Search := ⟨c.id, c.unit, s.pick 21 (fs.headD 0) fs, d, q.map (BitVec.ofNat 32), BitVec.ofNat 32 qinv,
    [], [], [], 0, true, some 1, [], false, d.ranges.map (fun r => .broadcast r.stack) ++ [.visit (shEntry c)], []⟩
  putSearch { runCmd s c with searches := s.searches ++ [h] } h

/-- The descriptor has passed: the second pass, and the tests of what it names. -/
def srchSecond (s : State) (c : Cmd) (d : Desc) : State :=
  translateCmd s c (srchSets c d) (fun s c =>
    match dirsReady s c with
    | .wait t => t
    | .fail e => failCmd s c e
    | .go => match cmdReady s c [(shQbase c, d.d * d.esize)] with
      | .wait t => t
      | .fail e => failCmd s c e
      | .go =>
        let qb := cmdRead s c (shQbase c) (d.d * d.esize)
        let q := vecOf d qb 0
        let sq := dot8 q q
        if d.ranges.any (fun r => offStack s c (d.pages r) r.stack) ||
            (shMet c == 2 && (f32Val sq).isZero) then failCmd s c 0x02
        else if qb.any Prod.snd then failCmd s c 0x19
        else searchBegin s c d q (f32Round (xrsq (f32Val sq)).1))

/-- The descriptor is pinned: read it and test it. Its NRANGE is read first, then all of it. -/
def srchFirst (s : State) (c : Cmd) : State :=
  match cmdReady s c [(shIdesc c, 16)] with
  | .wait t => t
  | .fail e => failCmd s c e
  | .go =>
    let head := cmdRead s c (shIdesc c) 16
    let n := (Desc.ofBytes head).nrange
    extendCmd s c [⟨c.die, shIdesc c, descLen n, needR, 0, 0, none⟩] (fun s c =>
      match cmdReady s c [(shIdesc c, 16), (shIdesc c + 16, 16 * n)] with
      | .wait t => t
      | .fail e => failCmd s c e
      | .go =>
        let bs := head ++ cmdRead s c (shIdesc c + 16) (16 * n)
        let d := Desc.ofBytes bs
        if descBad c d then failCmd s c 0x02
        else if bs.any Prod.snd then failCmd s c 0x19
        else srchSecond s c d)

def srchStart (s : State) (c : Cmd) : State :=
  if bits (c.word 5) 26 0 != 0 then failCmd s c 0x01
  else if srchBad c then failCmd s c 0x02
  else if (freeHeaps s c.unit).isEmpty then holdCmd s c
  else translateCmd s c [[⟨c.die, shIdesc c, 16, needR, 0, 0, none⟩]] srchFirst

def execSrch (w0 w1 w2 w3 w4 w5 : Dword) (s : State) : Result := submit s [w0, w1, w2, w3, w4, w5] srchStart

/-! ### Messages (R385) -/

/-- A search of a running command that holds a message. -/
def withMsg (s : State) (id : Nat) (m : SearchMsg) (k : Search → Cmd → State) : State :=
  match searchOf s id, cmdOf s id with
  | some h, some c => if h.msgs.contains m && c.state == .running then k { h with msgs := h.msgs.erase m } c else s
  | _, _ => s

def execBroadcast (id stack : Nat) (s : State) : Result :=
  .next (withMsg s id (.broadcast stack) (fun h _ => putSearch s { h with queryAt := stack :: h.queryAt }))

/-- A record as its walker reads it: none for an id of no range. -/
def readNode (s : State) (c : Cmd) (h : Search) (n : Nat) : Option Marked :=
  (Desc.find h.desc n).map (fun r => cmdRead s c (Desc.addr h.desc r n) (Desc.recLen h.desc))

/-- The stack of a node has the query. -/
def hasQuery (h : Search) (n : Nat) : Bool :=
  match Desc.find h.desc n with
  | some r => h.queryAt.contains r.stack
  | none => false

/-- A walker reads a node and answers with its distance, or with an empty reply. -/
def scoreNode (s : State) (c : Cmd) (h : Search) (n : Nat) : Search :=
  let bs := (readNode s c h n).getD []
  let d := distance (shMet c) (h.query.map BitVec.toNat) (vecOf h.desc bs 544) h.qinv.toNat (bytesAt bs 12 4)
  { h with
    msgs := h.msgs ++ [.reply n (if visible bs n (shSnap c) then some (BitVec.ofNat 32 d) else none)]
    poisoned := h.poisoned || bs.any Prod.snd }

/-- The walker's read of a node's record at its base die. -/
def noteNode (s : State) (c : Cmd) (h : Search) (n : Nat) : State :=
  match Desc.find h.desc n with
  | some r => noteReads s c true [(Desc.addr h.desc r n, Desc.recLen h.desc)]
  | none => s

def execVisit (id n : Nat) (s : State) : Result :=
  .next (withMsg s id (.visit n) (fun h c =>
    if hasQuery h n then putSearch (noteNode s c h n) (scoreNode s c h n) else s))

/-- R385: a neighbour is scored by the walker of its own stack. -/
def dispatch (s : State) (c : Cmd) (own : Nat) (h : Search) (n : Nat) : Search :=
  if ((Desc.find h.desc n).map IdRange.stack) == some own then scoreNode s c h n
  else { h with msgs := h.msgs ++ [.visit n] }

def execExpand (id : Nat) (s : State) : Result :=
  .next (match (searchOf s id).bind (fun h => h.msgs.findSome? (fun m => match m with
      | .expand n => some n
      | _ => none)) with
    | none => s
    | some n => withMsg s id (.expand n) (fun h c =>
        if !hasQuery h n then s
        else
          let bs := (readNode s c h n).getD []
          let h := { h with poisoned := h.poisoned || bs.any Prod.snd }
          let ns := if !visible bs n (shSnap c) then []
            else ((neighbours bs (shSnap c)).filter (fun x => x != n && (Desc.find h.desc x).isSome)).reverse.dedup.reverse
          let own := ((Desc.find h.desc n).map IdRange.stack).getD 0
          let h := ns.foldl (dispatch s c own) h
          putSearch (noteNode s c h n) { h with msgs := h.msgs ++ [.endOf ns.length] }))

/-! ### The walk (R382-R384) -/

def visitSet (n : Nat) : Nat := n * 0x9E3779B1 % 2 ^ 32 / 2 ^ 23

/-- R383: a full set records nothing. -/
def recordId (v : List Nat) (n : Nat) : List Nat :=
  if decide (8 ≤ (v.filter (fun x => visitSet x == visitSet n)).length) then v else n :: v

/-- One reply of an expansion. -/
def mergeReply (k l : Nat) (h : Search) (p : Pair) : Search :=
  if h.seen.contains p.2 then h
  else { h with
    seen := recordId h.seen p.2
    cands := keepPair l h.cands p
    heap := keepPair k h.heap p }

/-- R386: the result area. -/
def resultBytes (k : Nat) (ps : List Pair) : List Byte :=
  (List.range k).flatMap (fun i => match ps[i]? with
    | some p => bytesOf 8 (p.2 * 2 ^ 32 + p.1.toNat)
    | none => bytesOf 8 0xFFFFFFFF7F800000)

def searchStop (s : State) (c : Cmd) (h : Search) : State :=
  let (s1, c1) := cmdWrite (putSearch s h) c (shRbase c) (resultBytes (shK c) h.heap)
  settleSearch (finishWrites s1 c1 (if h.poisoned then 0x19 else 0) h.heap.length) h

/-- The head of the loop: stop, or expand the least candidate. -/
def walkOn (s : State) (c : Cmd) (h : Search) : State :=
  match h.cands with
  | [] => searchStop s c h
  | p :: ps =>
    if (h.heap.length == shK c && (match h.heap.getLast? with
        | some q => !pairLt p q
        | none => false)) || h.hops == shHops c then searchStop s c h
    else putSearch s { h with
      cands := ps
      hops := h.hops + 1
      expected := none
      got := []
      msgs := h.msgs ++ [.expand p.2] }

/-- Every reply of an expansion is in: merge them in order and go on. -/
def mergeAll (s : State) (c : Cmd) (h : Search) : State :=
  let ps : List Pair := h.got.filterMap (fun g => g.2.map (fun d => (d, g.1)))
  if h.entry then
    let h := { h with entry := false }
    match ps with
    | [] => searchStop s c h
    | p :: _ => walkOn s c { h with
        seen := recordId [] p.2
        cands := [p]
        heap := [p] }
  else walkOn s c ((ps.foldl (fun l p => insertPair p l) []).foldl (mergeReply (shK c) (shL c)) h)

def gathered (s : State) (c : Cmd) (h : Search) : State :=
  if h.expected == some h.got.length then mergeAll s c h else putSearch s h

def execReply (id n : Nat) (s : State) : Result :=
  .next (match (searchOf s id).bind (fun h => h.msgs.find? (fun m => match m with
      | .reply x _ => x == n
      | _ => false)) with
    | some (.reply x d) => withMsg s id (.reply x d) (fun h c => gathered s c { h with got := h.got ++ [(x, d)] })
    | _ => s)

/-- The count of an expansion arrives; a search whose results await another package's acknowledgement looks again. -/
def execEndOfExpansion (id : Nat) (s : State) : Result :=
  .next (match searchOf s id, cmdOf s id with
    | some h, some c =>
      if c.state == .writing then settleSearch (writingStep s c) h
      else match h.msgs.findSome? (fun m => match m with
        | .endOf k => some k
        | _ => none) with
        | some k => withMsg s id (.endOf k) (fun h c => gathered s c { h with expected := some k })
        | none => s
    | _, _ => s)

end Sys2Proof.Machine
end

