-- ==== Sys2Proof/Machine/Collective.lean ====
section
/-! DEFINITION. The collective engine (R431-R441): chain multicast, and the collectives of a communicator as this
member sees them. -/

namespace Sys2Proof.Machine

/-! ### Communicators (R434) -/

def commDw (s : State) (c k : Nat) : Nat := (regGet s (commAddr c + 8 * k)).toNat
def commValid (s : State) (c : Nat) : Bool := bit (commDw s c 1) 63
def commBroken (s : State) (c : Nat) : Bool := bit (commDw s c 1) 62
def commHigh (s : State) (c : Nat) : Bool := bit (commDw s c 1) 61
def commVc (s : State) (c : Nat) : Nat := bits (commDw s c 1) 60 57
def commDie (s : State) (c : Nat) : Nat := bits (commDw s c 1) 56 52
def commNmem (s : State) (c : Nat) : Nat := bits (commDw s c 1) 51 41
def commRank (s : State) (c : Nat) : Nat := bits (commDw s c 1) 40 31
def commAsid (s : State) (c : Nat) : Nat := bits (commDw s c 1) 30 15

/-- R442: a communicator is broken. -/
def markBroken (s : State) (c : Nat) : State :=
  regSet s (commAddr c + 8) (regGet s (commAddr c + 8) ||| BitVec.ofNat 64 (2 ^ 62))

/-! ### Fields (R436) -/

def coRoot (c : Cmd) : Nat := bits (c.word 1) 57 48
def coTypeCode (c : Cmd) : Nat := bits (c.word 1) 47 43
def coRop (c : Cmd) : Nat := bits (c.word 1) 42 40
def coK (c : Cmd) : Nat := bits (c.word 1) 39 31
def coFanin (c : Cmd) : Nat := bits (c.word 1) 30 27
def coSrc (c : Cmd) : Nat := c.word 2
def coDst (c : Cmd) : Nat := c.word 3
def coCount (c : Cmd) : Nat := bits (c.word 4) 31 0
def coTy (c : Cmd) : Ty := (Ty.ofCode (coTypeCode c)).getD .f32
/-- Bytes of an element. -/
def coEs (c : Cmd) : Nat := if c.opc == 0x46 then 8 else if c.opc == 0x44 then 1 else (coTy c).bits / 8

def usesType (o : Nat) : Bool := decide (0x40 ≤ o) && decide (o ≤ 0x43)
def usesRop (o : Nat) : Bool := o == 0x40 || o == 0x41
def usesRoot (o : Nat) : Bool := o == 0x43 || o == 0x46

/-- R437 step 1: a reserved bit, or a field that the operation does not use, is not 0. -/
def collReserved (c : Cmd) : Bool :=
  let o := c.opc
  bits (c.word 1) 26 0 != 0 || bits (c.word 4) 63 32 != 0 || (!usesType o && (coTypeCode c != 0 || coCount c != 0)) ||
  (!usesRop o && coRop c != 0) || (!usesRoot o && coRoot c != 0) || (o != 0x46 && (coK c != 0 || coFanin c != 0)) ||
  (o == 0x44 && (coSrc c != 0 || coDst c != 0))

/-- R437 step 2. -/
def collBad (s : State) (c : Cmd) : Bool :=
  let o := c.opc
  let k := cmdComm c
  !commValid s k || commDie s k != c.unit || (usesRoot o && decide (commNmem s k ≤ coRoot c)) ||
  (usesType o && (!([10, 9, 4, 5, 6, 7].contains (coTypeCode c)) || coCount c == 0 || decide (2 ^ 31 < coCount c))) ||
  (usesRop o && decide (2 < coRop c)) ||
  (o == 0x46 && (coK c == 0 || decide (256 < coK c) || decide (coFanin c < 2) || decide (8 < coFanin c))) ||
  coSrc c % coEs c != 0 || coDst c % coEs c != 0

/-! ### Buffers -/

def coN (s : State) (c : Cmd) : Nat := commNmem s (cmdComm c)
def coRank (s : State) (c : Cmd) : Nat := commRank s (cmdComm c)
def coBlock (c : Cmd) : Nat := coCount c * coEs c
def isRoot (s : State) (c : Cmd) : Bool := coRank s c == coRoot c

/-- The bytes that this member reads. -/
def coSrcLen (s : State) (c : Cmd) : Nat :=
  match c.opc with
  | 0x40 | 0x42 => coBlock c
  | 0x41 => coN s c * coBlock c
  | 0x43 => if isRoot s c then coBlock c else 0
  | 0x46 => 8 * coK c
  | _ => 0

/-- The bytes that this member writes. -/
def coDstLen (s : State) (c : Cmd) : Nat :=
  match c.opc with
  | 0x40 | 0x41 | 0x43 => coBlock c
  | 0x42 => coN s c * coBlock c
  | 0x46 => if isRoot s c then 8 * coK c else 0
  | _ => 0

/-- R437, R441: the operation runs at this member. -/
def collRun (s : State) (c : Cmd) : State := { runCmd s c with colls := s.colls ++ [⟨c.id, [], []⟩] }

def collStart (s : State) (c : Cmd) : State :=
  if collReserved c then failCmd s c 0x01
  else if collBad s c then failCmd s c 0x02
  else if commBroken s (cmdComm c) then failCmd s c 0x1A
  else if cmdAsid s c != commAsid s (cmdComm c) then failCmd s c 0x18
  else translateCmd s c [[⟨c.die, coSrc c, coSrcLen s c, needR, 0, 0, none⟩, ⟨c.die, coDst c, coDstLen s c, needW, 1, 0, none⟩]] collRun

def execAllred (w0 w1 w2 w3 w4 : Dword) (s : State) : Result := submit s [w0, w1, w2, w3, w4] collStart
def execRedscat (w0 w1 w2 w3 w4 : Dword) (s : State) : Result := submit s [w0, w1, w2, w3, w4] collStart
def execAllgath (w0 w1 w2 w3 w4 : Dword) (s : State) : Result := submit s [w0, w1, w2, w3, w4] collStart
def execBcast (w0 w1 w2 w3 w4 : Dword) (s : State) : Result := submit s [w0, w1, w2, w3, w4] collStart
def execCbar (w0 w1 w2 w3 w4 : Dword) (s : State) : Result := submit s [w0, w1, w2, w3, w4] collStart
def execTopkmerge (w0 w1 w2 w3 w4 : Dword) (s : State) : Result := submit s [w0, w1, w2, w3, w4] collStart

/-! ### Chunks (R435) -/

def chunkMax : Nat := 16384

/-- R439: the children of a member in the tree. -/
def childCount (n fanin q : Nat) : Nat := ((List.range n).filter (fun x => decide (0 < x) && (x - 1) / fanin == q)).length
def coChildren (s : State) (c : Cmd) : Nat :=
  childCount (coN s c) (coFanin c) ((coRank s c + coN s c - coRoot c) % coN s c)

/-- The length in bytes of the chunk that stands at an offset; none where none stands. -/
def chunkLen (s : State) (c : Cmd) (off : Nat) : Option Nat :=
  match c.opc with
  | 0x42 =>
    let b := off % coBlock c
    if off < coDstLen s c && b % chunkMax == 0 && off / coBlock c != coRank s c then some (min chunkMax (coBlock c - b)) else none
  | 0x44 => if off = 0 then some 0 else none
  | 0x46 => if off = 0 then some (8 * coK c) else none
  | _ => if off < coBlock c && off % chunkMax == 0 then some (min chunkMax (coBlock c - off)) else none

/-- The offsets of the chunks that this member needs from others. -/
def chunkOffs (s : State) (c : Cmd) : List Nat :=
  let per := (List.range ((coBlock c + chunkMax - 1) / chunkMax)).map (fun i => chunkMax * i)
  match c.opc with
  | 0x40 | 0x41 => if coN s c ≤ 1 then [] else per
  | 0x42 => ((List.range (coN s c)).filter (fun m => m != coRank s c)).flatMap (fun m => per.map (fun o => m * coBlock c + o))
  | 0x43 => if isRoot s c then [] else per
  | 0x44 => if coN s c ≤ 1 then [] else [0]
  | _ => if coChildren s c = 0 then [] else [0]

/-- How many contributions complete a chunk. -/
def partsNeeded (s : State) (c : Cmd) : Nat := if c.opc == 0x46 then coChildren s c else coN s c - 1

def collOf (s : State) (id : Nat) : Option Coll := s.colls.find? (fun x => x.cmd == id)
def partsAt (x : Coll) (off : Nat) : List (List Dword) := (x.parts.filter (fun p => p.1 == off)).map Prod.snd

/-- A chunk of the result is determined at this member. -/
def chunkDone (s : State) (c : Cmd) (x : Coll) (off : Nat) : Bool :=
  x.finals.any (fun p => p.1 == off) ||
  ((c.opc == 0x40 || c.opc == 0x41 || c.opc == 0x44 || c.opc == 0x46) && (partsAt x off).length == partsNeeded s c)

/-- R435: operations on one channel are performed whole, in acceptance order. -/
def collTurn (s : State) (c : Cmd) : Bool :=
  match s.colls.find? (fun x => match cmdOf s x.cmd with
    | some d => commVc s (cmdComm d) == commVc s (cmdComm c)
    | none => false) with
  | some x => x.cmd == c.id
  | none => false

/-! ### Reductions (R438) -/

def addElem (t : Ty) (a b : Nat) : Nat :=
  if t.isFloat then f32Add a b else wrapNat t.bits (readInt t a + readInt t b)
def minmaxElem (t : Ty) (mx : Bool) (a b : Nat) : Nat :=
  if t.isFloat then f32Round (xminmax mx (f32Val a) (f32Val b)).1
  else if (if mx then readInt t a < readInt t b else readInt t b < readInt t a) then b else a
def combine (c : Cmd) (a b : Nat) : Nat := if coRop c == 0 then addElem (coTy c) a b else minmaxElem (coTy c) (coRop c == 2) a b

/-- R438: two of the partial results, freely chosen, become one, until one is left. -/
def combineAll (s : State) (c : Cmd) (k : Nat) : Nat → List Nat → Nat
  | 0, xs => xs.headD 0
  | _, [] => 0
  | _, [x] => x
  | fuel + 1, x :: y :: xs =>
    let l := x :: y :: xs
    let i := s.free (k + 2 * fuel) % l.length
    let l2 := l.eraseIdx i
    let j := s.free (k + 2 * fuel + 1) % l2.length
    combineAll s c k fuel (combine c (l[i]?.getD 0) (l2[j]?.getD 0) :: l2.eraseIdx j)

/-- bf16 elements widen to f32 and are rounded once at the end. -/
def widen (t : Ty) (n : Nat) : Nat := if t == .bf16 then f32Round (readFloat .bf16 n) else n
def narrow (t : Ty) (n : Nat) : Nat :=
  if t == .bf16 then (roundTo .bf16 .rne false false (f32Val n)).1
  else if t == .f32 then f32Round (f32Val n) else n

def dwordBytes (ds : List Dword) : List Byte := ds.flatMap (fun d => bytesOf 8 d.toNat)
def elemAt (es : Nat) (bs : List Byte) (i : Nat) : Nat := natOfBytes ((bs.drop (es * i)).take es)

/-- A chunk of a reduction, from what every member contributed. -/
def reduceChunk (s : State) (c : Cmd) (off : Nat) (xs : List (List Byte)) (n : Nat) : List Byte :=
  let es := coEs c
  let t := coTy c
  (List.range (n / es)).flatMap (fun i =>
    bytesOf es (narrow t (combineAll s c (2 ^ 20 + 4096 * (off + i)) xs.length (xs.map (fun x => widen t (elemAt es x i))))))

/-! ### Top-k merges (R439) -/

def isFiller (p : Pair) : Bool := p.2 == 0xFFFFFFFF && p.1 == 0x7F800000

/-- Equal pairs count once; which of two images of one distance is kept is open. -/
def distinctPairs (s : State) (k : Nat) (p : Pair) : List Pair → List Pair
  | [] => [p]
  | q :: qs =>
    if pairLt p q then p :: distinctPairs s (k + 1) q qs
    else distinctPairs s (k + 1) (if s.free (6000 + k) % 2 == 0 then p else q) qs

def mergeLists (s : State) (k : Nat) (ps : List Pair) : List Pair :=
  match (ps.filter (fun p => !isFiller p)).foldl (fun l p => insertPair p l) [] with
  | [] => []
  | p :: qs => (distinctPairs s 0 p qs).take k

def pairsOf (bs : List Byte) : List Pair :=
  (List.range (bs.length / 8)).map (fun i => (BitVec.ofNat 32 (elemAt 8 bs i), elemAt 8 bs i / 2 ^ 32))

/-! ### Results -/

/-- The bytes of a determined chunk, from this member's own source and what has arrived. -/
def chunkBytes (s : State) (c : Cmd) (x : Coll) (src : List Byte) (off : Nat) : List Byte :=
  let n := (chunkLen s c off).getD 0
  match x.finals.find? (fun p => p.1 == off) with
  | some p => (dwordBytes p.2).take n
  | none =>
    let own := (src.drop (off + if c.opc == 0x41 then coRank s c * coBlock c else 0)).take n
    reduceChunk s c off (own :: (partsAt x off).map dwordBytes) n

/-- What this member writes where every chunk is determined, as (offset, bytes). -/
def collWrites (s : State) (c : Cmd) (x : Coll) (src : List Byte) : List (Nat × List Byte) :=
  match c.opc with
  | 0x40 | 0x41 =>
    if coN s c ≤ 1 then [(0, (List.range (coCount c)).flatMap (fun i =>
      bytesOf (coEs c) (narrow (coTy c) (widen (coTy c) (elemAt (coEs c) src i)))))]
    else (chunkOffs s c).map (fun o => (o, chunkBytes s c x src o))
  | 0x42 => (coRank s c * coBlock c, src) :: (chunkOffs s c).map (fun o => (o, chunkBytes s c x src o))
  | 0x43 => if isRoot s c then [(0, src)] else (chunkOffs s c).map (fun o => (o, chunkBytes s c x src o))
  | 0x46 =>
    if isRoot s c then
      [(0, resultBytes (coK c) (mergeLists s (coK c) (pairsOf src ++ (partsAt x 0).flatMap (fun p => pairsOf (dwordBytes p)))))]
    else []
  | _ => []

def writePairs (s : State) (c : Cmd) (ws : List (Nat × List Byte)) : State × Cmd :=
  ws.foldl (fun x p => cmdWrite x.1 x.2 (coDst c + p.1) p.2) (s, c)

/-- COUNT of a collective: of a TOPKMERGE by R439; the others' is not stated. -/
def collCount (s : State) (c : Cmd) : Nat :=
  if c.opc == 0x46 then (if isRoot s c then coK c else 0) else (Config.freeWord s.tick 62).toNat % 2 ^ 32

/-- R440: DST, the status word, the arrival. -/
def collFinish (s : State) (c : Cmd) : State :=
  match collOf s c.id with
  | none => s
  | some x =>
    if !((chunkOffs s c).all (chunkDone s c x) && collTurn s c) then s
    else match cmdReady s c [(coSrc c, coSrcLen s c)] with
      | .wait t => t
      | .fail e => failCmd s c e
      | .go =>
        let src := cmdRead s c (coSrc c) (coSrcLen s c)
        let (s1, c1) := writePairs s c (collWrites s c x (src.map Prod.fst))
        finishWrites s1 c1 (if src.any Prod.snd then 0x19 else 0) (collCount s c)

def execCollectiveCompletion (id : Nat) (s : State) : Result :=
  completion s id cmdIsComm collFinish

/-! ### Failure (R437, R441, R442) -/

/-- R441: units of DST whose final value this member holds are written or left, each chosen freely. -/
def someUnits (s : State) (base : Nat) : Nat → List Byte → List (Nat × List Byte)
  | 0, _ => []
  | _, [] => []
  | fuel + 1, bs =>
    let k := 8 - base % 8
    (if s.free (7000 + base / 8) % 2 == 0 then [(base, bs.take k)] else []) ++ someUnits s (base + k) fuel (bs.drop k)

/-- R441: the parts of DST whose final value this member holds, as (offset, bytes). -/
def knownWrites (s : State) (c : Cmd) (x : Coll) (src : List Byte) : List (Nat × List Byte) :=
  let done := ((chunkOffs s c).filter (chunkDone s c x)).map (fun o => (o, chunkBytes s c x src o))
  let all := collWrites s c x src
  match c.opc with
  | 0x40 | 0x41 => if coN s c ≤ 1 then all else done
  | 0x42 => (coRank s c * coBlock c, src) :: done
  | 0x43 => if isRoot s c then all else done
  | 0x46 => if (chunkOffs s c).all (chunkDone s c x) then all else []
  | _ => []

/-- The operation fails at this member with a code. Where members compared unlike operations, DST is left as it stood
(R437). In its last phase it has written all of DST. -/
def collFail (s : State) (c : Cmd) (code : Nat) : State :=
  match c.state, collOf s c.id with
  | .running, some x =>
    let ready := match cmdReady s c [(coSrc c, coSrcLen s c)] with
      | .go => true
      | _ => false
    let src := (cmdRead s c (coSrc c) (coSrcLen s c)).map Prod.fst
    let ws := if ready && code != 0x0E then
        (knownWrites s c x src).flatMap (fun p =>
          (someUnits s (coDst c + p.1) (p.2.length + 1) p.2).map (fun u => (u.1 - coDst c, u.2)))
      else []
    let (s1, c1) := writePairs s c ws
    finishWrites s1 c1 code 0
  | .writing, some _ => if c.code = 0 then putCmd s { c with code := code, count := 0 } else s
  | _, _ => s

/-- R436, R437: a chunk comes of the operation that this member performs. -/
def chunkMatches (c : Cmd) (k : Chunk) : Bool :=
  k.opc == c.opc && k.items % 2 ^ 58 == c.word 1 % 2 ^ 58 && k.count == coCount c

/-- R435, R437: the engine takes a chunk of an operation whose turn it is. One of a different operation shows that the
members' operations differ. -/
def takeChunk (s : State) (k : Chunk) : State :=
  match cmdOf s k.cmd, collOf s k.cmd with
  | some c, some x =>
    let put (y : Coll) : State := { s with colls := s.colls.map (fun z => if z.cmd == k.cmd then y else z) }
    if !chunkMatches c k then collFail s c 0x0E
    else if (chunkLen s c k.off).map (fun n => (n + 7) / 8) != some k.data.length || chunkDone s c x k.off ||
        (!k.final && decide (partsNeeded s c ≤ (partsAt x k.off).length)) then s
    else if (k.final && c.opc != 0x46) || c.opc == 0x42 || c.opc == 0x43 then
      put { x with finals := x.finals ++ [(k.off, k.data)] }
    else put { x with parts := x.parts ++ [(k.off, k.data)] }
  | _, _ => s

/-- The chunk belongs to a running operation of a die's engine whose channel it has. -/
def chunkReady (s : State) (die : Nat) (k : Chunk) : Bool :=
  match cmdOf s k.cmd with
  | some c => c.unit == die && c.state == .running && collTurn s c
  | none => false
def chunkComm (s : State) (k : Chunk) : Nat := ((cmdOf s k.cmd).map cmdComm).getD 0

/-- The first chunk of the channel whose turn is next. -/
def firstTurn (s : State) (next : Nat) (ks : List Chunk) : Option Chunk :=
  let turn (k : Chunk) : Nat := (commVc s (chunkComm s k) + 16 - next % 16) % 16
  ks.find? (fun k => ks.all (fun j => decide (turn k ≤ turn j)))

/-- R435: the chunk that wins among those that wait for a die's engine: high priority before low, but for one chunk in 16,
and by turns of the channels. -/
def arbitrate (s : State) (die : Nat) : Option (Chunk × Arbiter) :=
  let a := mapGet default s.arbiters die
  let ready := s.chunks.filter (chunkReady s die)
  let high := ready.filter (fun k => commHigh s (chunkComm s k))
  let low := ready.filter (fun k => !commHigh s (chunkComm s k))
  let vc (k : Chunk) : Nat := commVc s (chunkComm s k)
  if !low.isEmpty && (high.isEmpty || decide (15 ≤ a.run)) then
    (firstTurn s a.low low).map (fun k => (k, { a with low := (vc k + 1) % 16, run := 0 }))
  else (firstTurn s a.high high).map (fun k =>
    (k, { a with high := (vc k + 1) % 16, run := if low.isEmpty then 0 else a.run + 1 }))

/-- The engine of a die takes its next chunk. -/
def nextChunk (s : State) (die : Nat) : State :=
  match arbitrate s die with
  | some (k, a) => takeChunk { s with
      chunks := s.chunks.erase k
      arbiters := mapSet default s.arbiters die a } k
  | none => s

/-- A chunk as it stands in a buffer. -/
def chunkOf (id off : Nat) (final : Bool) (d : ChunkData) : Chunk :=
  ⟨id, off, final, d.opc.toNat, d.items.toNat, d.count.toNat, d.words⟩

/-- A chunk arrives in its channel's buffer: that of an operation in progress here. -/
def chunkArrives (s : State) (k : Chunk) : State :=
  if (collOf s k.cmd).isSome then { s with chunks := s.chunks ++ [k] } else s

/-- R435, R437: a chunk arrives, and the engine takes one of those that wait. -/
def execCollectiveChunk (id off : Nat) (final : Bool) (data : ChunkData) (s : State) : Result :=
  .next (match cmdOf s id with
    | some c => nextChunk (chunkArrives s (chunkOf id off final data)) c.unit
    | none => s)

/-- The identity of an abort that marks communicator `c` broken (R442), and of one by which another member tells of unlike
operations (R437). -/
def brokenId (c : Nat) : Nat := 2 ^ 40 + c
def unlikeId (id : Nat) : Nat := 2 ^ 41 + id

/-- R437, R441, R442: another member's abort fails the operation; a kill at a peer breaks the communicator. -/
def execAbort (id : Nat) (s : State) : Result :=
  .next (if unlikeId 0 ≤ id then
      match cmdOf s (id - unlikeId 0) with
      | some c => if cmdIsComm c && c.state == .running then collFail s c 0x0E else s
      | none => s
    else if brokenId 0 ≤ id then
      let k := id - brokenId 0
      if 64 ≤ k then s
      else
        let s := markBroken s k
        (s.cmds.filter (fun c => cmdIsComm c && cmdComm c == k)).foldl (fun s c => collFail s c 0x1A) s
    else match cmdOf s id with
      | some c => if cmdIsComm c then collFail s c 0x09 else s
      | none => s)

/-! ### Chain multicast (R431, R432) -/

def mcN (c : Cmd) : Nat := bits (c.word 1) 63 60
/-- The peer field at a position. -/
def mcField (c : Cmd) (k : Nat) : Nat :=
  if k < 6 then bits (c.word 2) (10 * k + 9) (10 * k) else bits (c.word 3) (10 * (k - 6) + 9) (10 * (k - 6))
def mcPeers (c : Cmd) : List Nat := (List.range (mcN c)).map (mcField c)
def mcSrc (c : Cmd) : Nat := c.word 4
def mcDst (c : Cmd) : Nat := c.word 5
def mcLen (c : Cmd) : Nat := bits (c.word 6) 19 0

def mcReserved (c : Cmd) : Bool :=
  bits (c.word 1) 59 0 != 0 || bits (c.word 2) 63 60 != 0 || bits (c.word 3) 63 20 != 0 || bits (c.word 6) 63 20 != 0

def mcBad (s : State) (c : Cmd) : Bool :=
  mcN c == 0 || decide (8 < mcN c) || (List.range 8).any (fun k => decide (mcN c ≤ k) && mcField c k != 0) ||
  !(mcPeers c).Nodup || (mcPeers c).any (fun p => p == s.pkg || !Config.inDomain p) || mcLen c % 8 != 0 ||
  decide (mcLen c < 8) || decide (2 ^ 19 < mcLen c) || mcSrc c % 8 != 0 || mcDst c % 8 != 0

/-- DST maps pages of the issuing package that have a DPA, its register region among them. -/
def mcDstOk (s : State) (c : Cmd) : Bool :=
  (linesOf [(mcDst c, mcLen c)]).all (fun p =>
    let a := cmdAcc s c p.1
    a.pkg == s.pkg && decide (backing s a.loc < 2 ^ 46))

/-- The data leaves for peer 0; the command now waits for its reports. -/
def mcSend (s : State) (c : Cmd) : State :=
  match dirsReady s c with
  | .wait t => t
  | .fail e => failCmd s c e
  | .go =>
    if !mcDstOk s c then failCmd s c 0x02
    else match cmdReady s c [(mcSrc c, mcLen c)] with
      | .wait t => t
      | .fail e => failCmd s c e
      | .go =>
        let bad := (cmdRead s c (mcSrc c) (mcLen c)).any Prod.snd
        { runCmd s { c with code := if bad then 0x19 else 0 } with
          mcasts := s.mcasts ++ [⟨c.id, mcPeers c, false⟩] }

def mcastStart (s : State) (c : Cmd) : State :=
  if mcReserved c then failCmd s c 0x01
  else if mcBad s c then failCmd s c 0x02
  else translateCmd s c [[⟨c.die, mcSrc c, mcLen c, needR, 0, 0, none⟩, ⟨c.die, mcDst c, mcLen c, needW, 1, 0, none⟩]] mcSend

def execMcast (w0 w1 w2 w3 w4 w5 w6 : Dword) (s : State) : Result :=
  submit s [w0, w1, w2, w3, w4, w5, w6] mcastStart

/-- R432: a report; with the last the command completes, its COUNT the peers that wrote. -/
def execMcastReport (id peer : Nat) (ok : Bool) (s : State) : Result :=
  .next (match cmdOf s id, s.mcasts.find? (fun m => m.cmd == id) with
    | some c, some m =>
      if !m.peers.contains peer then s
      else
        let m' : Mcast := ⟨id, m.peers.erase peer, m.failed || !ok⟩
        let c' := { c with count := c.count + if ok then 1 else 0 }
        if m'.peers.isEmpty then
          completeCmd { s with mcasts := s.mcasts.filter (fun x => x.cmd != id) } c' (if m'.failed then 0x09 else c'.code)
            c'.count
        else putCmd { s with mcasts := s.mcasts.map (fun x => if x.cmd == id then m' else x) } c'
    | _, _ => s)

end Sys2Proof.Machine
end

