-- ==== Sys2Proof/Machine/Fabric.lean ====
section
/-! DEFINITION. The fabric (R423-R433): planes, the inbound check, and what comes back to an issuer. -/

namespace Sys2Proof.Machine

/-! ### Planes (R424, R425) -/

def plStat (s : State) : Nat := (regGet s plStatAddr).toNat
def planeUsable (s : State) (p : Nat) : Bool := bit (plStat s) p

/-- R425 step 1: requests of the plane are held from now on. -/
def execPlaneFailure (plane : BitVec 3) (s : State) : Result :=
  .next (if planeUsable s plane.toNat && !stopped s && !s.draining.contains plane.toNat then
      { s with draining := plane.toNat :: s.draining }
    else s)

/-- The plane map with each entry of a plane renamed. -/
def renamePlanes (m p t : Nat) : Nat :=
  (List.range 8).foldl (fun m i => if bits m (4 * i + 2) (4 * i) == p then putBits m (4 * i + 2) (4 * i) t else m) m

/-- R425 step 3: held requests go out. -/
def releaseHeld (s : State) : State :=
  { s with remote := s.remote.map (fun r =>
      if r.state == .held && !s.draining.contains (planeOf s r.grp r.addr) then { r with state := .sent } else r) }

/-- R425 steps 2 and 3. A plane that drains itself is taken only where every other one does. Where no plane is left, the plane
is only marked unusable. -/
def execPlaneRemap (failed target : BitVec 3) (s : State) : Result :=
  let p := failed.toNat
  let t := target.toNat
  let st := plStat s
  let down := putBits (putBits st 15 8 (bits st 15 8 + 1)) p p 0
  let left := (List.range 8).filter (fun i => i != p && planeUsable s i)
  .next (if !s.draining.contains p || !planeUsable s p || stopped s then s
    else if !left.isEmpty then
      if !left.contains t || (s.draining.contains t && left.any (fun i => !s.draining.contains i)) then s
      else
        let m := renamePlanes (regGet s planeMapAddr).toNat p t
        releaseHeld { regSet (regSet s planeMapAddr (BitVec.ofNat 64 m)) plStatAddr (BitVec.ofNat 64 down) with
          draining := s.draining.filter (fun x => x != p) }
    else regSet s plStatAddr (BitVec.ofNat 64 down))

/-! ### The inbound check (R427, R428) -/

/-- A window, as its upper and lower dword. -/
def windowHi (s : State) (i : Nat) : Nat := (regGet s (0x3F0000510000 + 16 * i + 8)).toNat
def windowLo (s : State) (i : Nat) : Nat := (regGet s (0x3F0000510000 + 16 * i)).toNat
def windowSrc (h src : Nat) : Bool := bit h 63 && (bit h 43 || bits h 53 44 == src)
def windowPage (h l page : Nat) : Bool :=
  decide (bits l 45 12 ≤ page) && decide (page ≤ bits h 15 0 * 2 ^ 18 + bits l 63 46)

/-- What a request asks leave for: R, W, A or all three. -/
def windowGrants (h : Nat) (r w a : Bool) : Bool := (!r || bit h 62) && (!w || bit h 61) && (!a || bit h 60)

/-- R427, R428: none where the request passes, else its NACK reason. A line named by page whose frame is in another package lies
on no page of this one: a window of its requester stands for it (R344, log 73). -/
def inboundReason (s : State) (src addr n : Nat) (r w a : Bool) : Option Nat :=
  let ms := (List.range 256).filter (fun i => windowSrc (windowHi s i) src &&
    (decide (2 ^ 56 ≤ addr) || windowPage (windowHi s i) (windowLo s i) (addr / 4096)))
  if ms.isEmpty then some 1
  else if !ms.any (fun i => windowGrants (windowHi s i) r w a) then some 2
  else if 2 ^ 56 ≤ addr then none
  else if !isMemory s.variant addr || !isMemory s.variant (addr + n - 1) then some 3
  else none

/-- R428: the record of a NACK. -/
def logInbound (s : State) (src addr acc : Nat) : State :=
  match (List.range 256).find? (fun i => windowSrc (windowHi s i) src) with
  | some i => postFault s { kind := 6, code := 0x09, info := BitVec.ofNat 64 src, va := BitVec.ofNat 64 addr, acc := acc,
                            vf := bits (windowHi s i) 59 54 }
  | none => regSet s 0x3F0000500018 (regGet s 0x3F0000500018 + 1)

/-! ### Where an inbound request is performed (R334, R340) -/

/-- R340: the live stub of a frame. -/
def stubAt (s : State) (a : Nat) : Option Stub :=
  s.stubs.find? (fun x => bits x.old 38 29 == s.pkg && homeLocal x.old / 4096 == a / 4096)

/-- The page of this directory whose frame a local address is in. -/
def pageAt (s : State) (a : Nat) : Option Nat :=
  let base := dirEntry s 0
  let inDir (c : Host.Cell) : Bool := decide (base ≤ c.1) && decide (c.1 < base + 256 * (regGet s dirLenAddr).toNat)
  ((s.mem.filter inDir).map (fun c => s.pkg * 2 ^ 34 + (c.1 - base) / 256)).dedup.find? (fun n =>
    gpnOk s n && !farHome s n && homeLocal (pageHome s n) / 4096 == a / 4096)

/-- R334, R340: the location of a local address: a line of a page of this directory has it at its home slice, also where the
address is in an old frame with a live stub; a page of another directory is at the new home. -/
def frameLoc (s : State) (a : Nat) : Nat :=
  match stubAt s a with
  | some x => if gpnPkg x.gpn == s.pkg then migLoc x.gpn (a % 4096) else homeLocal x.home + a % 4096
  | none => match pageAt s a with
    | some n => migLoc n (a % 4096)
    | none => a

/-- The page of a location, for its home slice. -/
def locPage (s : State) (loc : Nat) : Option Nat := if loc < migBase then none else some (s.pkg * 2 ^ 34 + migPage loc)

/-- A request names a line of a page of this directory by page and offset (R426), or else a local address: the address
that the windows are searched for, and the location. -/
def inboundLoc (s : State) (a : Nat) : Nat × Nat :=
  if a < 2 ^ 56 then (a, frameLoc s a)
  else
    let gpn := s.pkg * 2 ^ 34 + (a / 2 ^ 56 - 1)
    let off := a % 4096
    (if farHome s gpn then a else homeLocal (pageHome s gpn) + off, migLoc gpn off)

/-- The address is one of this package: local, or in a page of its directory. -/
def inboundAddr (s : State) (a : Nat) : Bool :=
  decide (a < 2 ^ 46) || (decide (2 ^ 56 ≤ a) && decide (a % 2 ^ 56 < 4096) && decide (a / 2 ^ 56 ≤ 2 ^ 34) &&
    gpnOk s (s.pkg * 2 ^ 34 + (a / 2 ^ 56 - 1)))

/-- The identity of what a stub relays to another package. -/
def relayGroup : Nat := 2 ^ 53
def relayId (x : Stub) : Nat := relayGroup + 256 * x.gpn + x.epoch

/-- R340: the stubs that a request to the old frame of one passes: that one and the later ones of its page. -/
def passedStubs (s : State) (gpn epoch : Nat) : List Stub :=
  (s.stubs.filter (fun y => y.gpn == gpn)).dropWhile (fun y => y.epoch != epoch)

/-- RELAY of each stub passed changes. -/
def countRelay (s : State) (gpn epoch : Nat) (f : Nat → Nat) : State :=
  let ps := passedStubs s gpn epoch
  { s with stubs := s.stubs.map (fun y => if ps.contains y then { y with relay := f y.relay } else y) }

/-- R340: what a request to an old frame leads to at a new home in another package counts in RELAY of each stub passed
until it is complete. -/
def relayBy (s : State) (a : Nat) (t : State) : State :=
  match stubAt s a with
  | none => t
  | some x =>
    let out (r : RemReq) : Bool := decide (s.nextId ≤ r.id) && r.grp == migGroup
    let n := (t.remote.filter out).length
    countRelay { t with remote := t.remote.map (fun r => if out r then { r with grp := relayId x } else r) } x.gpn x.epoch
      (fun k => k + n)

/-- What a stub relayed is complete: RELAY of each stub that it passed falls. -/
def relayDone (s : State) (grp : Nat) : State :=
  let gpn := (grp - relayGroup) / 256
  freeStubs (countRelay s gpn ((grp - relayGroup) % 256) (fun k => k - 1)) gpn 2

/-- R340: the frame in another package to which a request for a local address is relayed whole: a read of a page of this
directory, or any request for a page of another one. -/
def relayTarget (s : State) (a : Nat) (read : Bool) : Option Nat :=
  match stubAt s a with
  | some x =>
    let h := if gpnPkg x.gpn == s.pkg then pageHome s x.gpn else x.home
    if bits h 38 29 != s.pkg && (read || gpnPkg x.gpn != s.pkg) then some (homeDpa h + a % 4096) else none
  | none => none

/-- The requests of a list, by DPA, go out for a migration. -/
def sendAll (s : State) (rs : List (Nat × RemOp)) : State :=
  { rs.foldl (fun t r => issueRemote t 0 0 r.1 r.2) { s with cur := { s.cur with grp := migGroup } } with cur := s.cur }

/-! ### What a request does here -/

/-- Perform a write of bytes at a location. -/
def inboundWrite (s : State) (a : Nat) (bs : List Byte) : State :=
  (unitPieces (bs.length + 1) a bs).foldl (fun s p => performBytesBy s .other p.1 p.2.length (BitVec.ofNat 64 (natOfBytes p.2))) s

/-- Perform a write of some bits of each byte (R245). -/
def inboundMasked (s : State) (a : Nat) (bs : List (Byte × Byte)) : State :=
  ((List.range bs.length).zip bs).foldl (fun s p =>
    let l := a + p.1
    let up (b : Byte) : Dword := BitVec.ofNat 64 (b.toNat * 2 ^ (8 * (l % 8)))
    performBy s .other (l / 8) (up p.2.2) (up p.2.1)) s

/-- Perform an atomic (R42). An uncorrectable unit is left as it is. -/
def inboundAtomic (s : State) (a : Nat) (t : Ty) (op : Nat) (v e : Dword) : State :=
  let size := t.bits / 8
  let n := 2 ^ t.bits
  if poisoned s a then s
  else match atomNew t op (memAt s a size) (v.toNat % n) (e.toNat % n) with
    | some x => performBytesBy s .other a size (BitVec.ofNat 64 x)
    | none => s

/-- R225: the atomics of one line packet, in lane order, with nothing between them. -/
def inboundAtomics (s : State) (line : Nat) (t : Ty) (op : Nat) : List (Nat × Dword × Dword) → State
  | [] => s
  | p :: ps => inboundAtomics (inboundAtomic s (line + p.1) t op p.2.1 p.2.2) line t op ps

/-- R293, R294: the registration step of an SWAITC of another package. -/
def inboundMonitor (s : State) (m : Monitor) : State :=
  if poisoned s m.addr || m.holds s || decide (4096 ≤ (s.monitors.filter (fun x => x.slice == m.slice)).length) then s
  else { s with monitors := s.monitors ++ [m] }

/-- The identity of a group of another package as a holder of places. -/
def farHolder (src who : Nat) : Nat := 2 ^ 40 + src * 2 ^ 30 + who % 2 ^ 30

/-- R300, R301: a place step on a handle by a group of another package, where it passes R302. A step on a granted place
waits for the issuer's pub: numbers 10 and 12 say that it is made. -/
def inboundHandle (s : State) (op scope src who to_ : Nat) (h second : Dword) : State :=
  let sl := handleSlice h.toNat
  let i := handleIdx h.toNat
  let r := s.place sl i
  if !heldBy s h.toNat (farHolder src who) then s
  else if op == 1 then
    s.setPlace sl i (if r.st = 0 then { r with waiting := true, want := some scope }
      else { r with scope := scope, waiting := false, want := none })
  else if op == 3 then (swapAt s sl i second.toNat).2
  else if r.st == 1 && decide (op < 8) then s
  else if op % 8 == 2 then s.setPlace sl i { r with holder := some (farHolder src to_) }
  else if op % 8 == 4 then dropPlace s sl i
  else s

/-- The same of XACQ and XREL on an object. -/
def inboundObject (s : State) (op scope src who loc : Nat) : State :=
  let sl := sliceOf loc (locPage s loc)
  if op == 0 then (acquireAt s sl (loc / 128) (farHolder src who) scope).2
  else match headerOf s sl (loc / 128) with
    | none => s
    | some h =>
      let i := (s.place sl h).next
      let r := s.place sl i
      if op == 13 && r.st == 1 && r.holder == some (farHolder src who) then releasePlace s sl i else s

/-- R322, R333: another package pins, or no longer pins, a page of this directory. A pin of a page that moves waits. -/
def inboundPin (s : State) (gpn : Nat) (up : Bool) : State :=
  if gpnPkg gpn != s.pkg || !gpnOk s gpn || (up && gpnMoving s gpn) then s else pinPage s gpn up

/-- R226, R322: the pin of a probe of a package: the frame of the address, or the page whose line it names. -/
def probeOf (s : State) (src addr : Nat) : Probe :=
  let loc := (inboundLoc s addr).2
  let die := sliceOf loc (locPage s loc) / 24
  match locPage s loc with
  | some n => ⟨src, die, n, true⟩
  | none => ⟨src, die, s.pkg * 2 ^ 34 + loc / 4096, false⟩

/-- A probe's pin goes (R226). -/
def unprobe (s : State) (p : Probe) : State :=
  if s.probes.contains p then
    let t : State := { s with probes := s.probes.erase p }
    if p.mig then pinPage t p.page false else t
  else s

/-- The tests that an inbound request to memory passes, and what it then does at its location; `fwd` is what a stub relays to
a DPA. One that crosses a line is no request. -/
def inboundAccess (s : State) (src addr n acc : Nat) (rd wr at_ : Bool) (fwd : Nat → List (Nat × RemOp)) (k : Nat → State) :
    State :=
  let p := inboundLoc s addr
  if n == 0 || decide (128 < addr % 128 + n) || !inboundAddr s addr then s
  else if (inboundReason s src p.1 n rd wr at_).isSome then logInbound s src p.1 acc
  else relayBy s addr (match relayTarget s addr rd with
    | some d => sendAll s (fwd d)
    | none => k p.2)

/-- A write of bytes as stores at a DPA. -/
def fwdWrite (bs : List Byte) (d : Nat) : List (Nat × RemOp) :=
  (unitPieces (bs.length + 1) d bs).map (fun p => (p.1, .store p.2.length (BitVec.ofNat 64 (natOfBytes p.2))))

/-- The types that an atomic may have (R223). -/
def atomTypes : List Ty := [.i32, .i64, .n32, .n64, .b32, .f32]

/-- R423-R428: a request of another package. A read changes nothing here. A place step on a handle names no memory, and no
window is searched for it (log 73). -/
def execInboundRequest (r : Inbound) (s : State) : Result :=
  let src := r.src.toNat
  let go := inboundAccess s src r.addr
  .next (if stopped s then s else match r.kind with
    | .read n => go n 0 true false false (fun d => [(d, .load n)]) (fun _ => s)
    | .write bs => go bs.length 1 false true false (fwdWrite bs) (fun a => inboundWrite s a bs)
    | .masked bs ms =>
      if bs.length != ms.length then s
      else go bs.length 1 false true false (fun d => [(d / 128 * 128, .lineStore
          ((List.range bs.length).map (fun i => (d % 128 + i, (ms.getD i 0).toNat, (bs.getD i 0).toNat))))])
        (fun a => inboundMasked s a (bs.zip ms))
    | .mark =>
      if r.addr % 8 != 0 then s
      else go 8 1 false true false (fun d => [(d, .mark)]) (fun a => { s with poison := backUnit s (a / 8) :: s.poison })
    | .atomic ty op v e => match Ty.ofCode ty.toNat with
      | some t =>
        if !atomTypes.contains t || decide (7 < op.toNat) || r.addr % (t.bits / 8) != 0 then s
        else go (t.bits / 8) 2 false false true (fun d => [(d, .atomic ty.toNat op.toNat v e)])
          (fun a => inboundAtomic s a t op.toNat v e)
      | none => s
    | .lineAtomic ty op ps => match Ty.ofCode ty.toNat with
      | some t =>
        let n := t.bits / 8
        if !atomTypes.contains t || decide (7 < op.toNat) || r.addr % 128 != 0 ||
            ps.any (fun p => p.1 % n != 0 || decide (128 ≤ p.1)) then s
        else
          let s0 := unprobe s (probeOf s src r.addr)
          inboundAccess s0 src r.addr 128 2 false false true (fun d => [(d, .lineAtomic ty.toNat op.toNat ps false)])
            (fun a => inboundAtomics s0 a t op.toNat ps)
      | none => s
    | .monitor cmp dw v sc asid ltag team gid =>
      let n := if dw then 8 else 4
      if r.addr % n != 0 || decide (5 < cmp) then s
      else go n 0 true false false (fun d => [(d, .monitor cmp dw v)]) (fun a =>
        inboundMonitor s ⟨sliceOf a (locPage s a), .remote src, cmp, dw, sc, asid, ltag, team, gid, a, allOnes64, v⟩)
    | .place op scope who to_ h second =>
      if op == 0 || op == 5 || op == 13 then
        if r.addr % 128 != 0 then s
        else go 128 2 true true false (fun _ => []) (fun a => inboundObject s op scope src who a)
      else if op == 6 then dropHeld s (farHolder src who)
      else inboundHandle s op scope src who to_ h second
    | .pin gpn up => inboundPin s gpn up
    | .migrate gpn target =>
      if gpnPkg gpn == s.pkg && gpnOk s gpn && frameOk s target then (migrateStep s gpn target).2 else s
    | .unprobe => if inboundAddr s r.addr then unprobe s (probeOf s src r.addr) else s
    | .stub gpn old home epoch ps =>
      let x : Stub := ⟨gpn, old, home, epoch, ps, 0, false⟩
      if gpnPkg gpn != src || src == s.pkg || bits old 38 29 != s.pkg || decide (256 ≤ epoch) || decide (2 ^ 39 ≤ home) ||
          s.stubs.any (fun y => y.gpn == gpn && y.epoch == epoch) then s
      else freeStubs { s with stubs := s.stubs ++ [x] } gpn 2
    | .redirect die gpn home epoch =>
      if gpnPkg gpn == s.pkg || decide (24 ≤ die) || decide (256 ≤ epoch) || decide (2 ^ 39 ≤ home) then s
      else { s with redirects := s.redirects ++ [⟨die, gpn, home, epoch⟩] })

/-- R226, R427: a translation probe needs every permission, and pins its page in the table of the page's die. It waits for a
page that moves, and for room (R322, R344). -/
def execTranslationProbe (pkg : BitVec 10) (addr : Nat) (s : State) : Result :=
  let src := pkg.toNat
  let a := (inboundLoc s addr).1
  let p := probeOf s src addr
  .next (if !inboundAddr s addr || stopped s then s
    else if (inboundReason s src a 1 true true true).isSome then logInbound s src a 2
    else if (p.mig && gpnMoving s p.page) || !keyRoom s p.die [(p.page, p.mig)] then s
    else
      let t : State := { s with probes := s.probes ++ [p] }
      if p.mig then pinPage t p.page true else t)

/-- R432: the first byte of a range that the check refuses, page by page. -/
def chainRefused (s : State) (src : Nat) : Nat → Nat → Nat → Option Nat
  | 0, _, _ => none
  | fuel + 1, a, n =>
    let k := min n (4096 - a % 4096)
    if n = 0 then none
    else if (inboundReason s src a k false true false).isSome then some a
    else chainRefused s src fuel (a + k) (n - k)

/-- R432: the multicast of a flit: known from its first flits, or checked as a whole now. -/
def chainOf (s : State) (src id dst len : Nat) : State × Chain :=
  match s.chains.find? (fun c => c.src == src && c.id == id) with
  | some c => (s, c)
  | none => match chainRefused s src (len / 4096 + 2) dst len with
    | some a => (logInbound s src a 1, ⟨src, id, len, 0, false⟩)
    | none => (s, ⟨src, id, len, 0, true⟩)

/-- R432: the flits of a multicast arrive in order. They are written here, unless the check of its range has failed. The next
peer is not this module's. -/
def execMcastFlit (src : BitVec 10) (addr : FlitAt) (data : List Byte) (s : State) : Result :=
  let a := addr.dst + addr.off
  .next (if data.isEmpty || decide (4096 < a % 4096 + data.length) || decide (addr.len < addr.off + data.length) ||
      decide (2 ^ 46 < addr.dst + addr.len) || stopped s then s
    else
      let (s1, c) := chainOf s src.toNat addr.id addr.dst addr.len
      if c.got != addr.off || c.len != addr.len then s
      else
        let s2 := if !c.ok then s1
          else relayBy s1 a (match relayTarget s1 a false with
            | some d => sendAll s1 (fwdWrite data d)
            | none => inboundWrite s1 (frameLoc s1 a) data)
        let rest := s2.chains.filter (fun x => !(x.src == src.toNat && x.id == addr.id))
        { s2 with chains := if addr.off + data.length = addr.len then rest else rest ++ [{ c with got := addr.off + data.length }] })

/-! ### Answers at the issuer (R426, R429) -/

def remoteReq (s : State) (id : Nat) : Option RemReq := s.remote.find? (fun r => r.id == id)
def dropReq (s : State) (id : Nat) : State := { s with remote := s.remote.filter (fun r => r.id != id) }
def setReq (s : State) (id : Nat) (t : RemState) : State :=
  { s with remote := s.remote.map (fun r => if r.id == id then { r with state := t } else r) }

/-- R253, R232: the PC of a store, bit 63 set for a lane PC. -/
def deferredPc (pc : Dword) : Dword :=
  if bit pc.toNat 63 then BitVec.ofNat 64 (2 ^ 63 + pc.toNat % 2 ^ 26) else pc

/-- R232: a posted store failed. A group keeps it for its next reporting fence; a queue and an engine find it; a copy, a
second write and a relay of a migration ride it out, and are sent again (R344). -/
def storeFailed (s : State) (r : RemReq) (code : Nat) (t : RemState) : State :=
  if r.grp < 2 ^ 40 then
    let g := s.group r.grp
    let s := dropReq s r.id
    if g.run == .ended then s
    else s.setGroup r.grp { g with
      deferred := g.deferred ++ [⟨r.id, code, deferredPc r.pc, r.va, dpaPkg r.addr⟩] }
  else if migGroup ≤ r.grp then s
  else setReq s r.id t

/-- R226: an atomic whose line a probe has pinned is not refused any more. -/
def RemOp.pinned : RemOp → Bool
  | .lineAtomic _ _ _ p => p
  | _ => false

def execNack (id reason : Nat) (s : State) : Result :=
  .next (match remoteReq s id with
    | some r =>
      if r.state != .sent || r.op.pinned || decide (reason < 1) || decide (3 < reason) then s
      else if r.op.isStore then storeFailed s r 0x0B (.nacked reason)
      else setReq s id (.nacked reason)
    | none => s)

def execStoreAcknowledgement (id : Nat) (s : State) : Result :=
  .next (match remoteReq s id with
    | some r =>
      if r.op.isStore && r.state == .sent then
        if relayGroup ≤ r.grp then relayDone (dropReq s id) r.grp else dropReq s id
      else s
    | none => s)

/-- R425: the clock of a held request stands still, unless no plane is left. -/
def mayTimeOut (s : State) (r : RemReq) : Bool :=
  r.state == .sent || (r.state == .held && plStat s % 256 == 0)

/-- R429, R441: no response in time: a request fails, or a collective's chunk is lost. -/
def execRemoteTimeout (id : Nat) (s : State) : Result :=
  .next (match remoteReq s id with
    | some r =>
      if !mayTimeOut s r then s
      else if r.op.isStore then storeFailed s r 0x0A .timedOut
      else setReq s id .timedOut
    | none => match cmdOf s id with
      | some c => if cmdIsComm c then collFail s c 0x0A else s
      | none => s)

/-- The bytes that an answer carries at least. -/
def answerLen : RemOp → Nat
  | .load n => n
  | .line _ => 128
  | .atomic ty _ _ _ => if ty == 6 || ty == 7 then 8 else 4
  | .lineAtomic ty _ ps _ => (if ty == 6 || ty == 7 then 8 else 4) * ps.length
  | .directory _ => 6
  | .migrate _ _ | .pageQuery _ => 8
  | .monitor _ _ _ => 1
  | .place _ _ _ => 9
  | _ => 0

/-- The die in whose owner cache an answer of a directory is installed: the requester's (R335). -/
def ownerDie (s : State) (r : RemReq) : Nat :=
  if r.grp < 2 ^ 40 then (s.group r.grp).die
  else if r.grp < 2 ^ 41 then 0
  else r.pc.toNat - 0x10000

/-- R335: the answer of a directory, home then EPOCH. While a request for the page through another home is outstanding, the new
one is not taken, and the directory is asked again (R342). -/
def installOwner (s : State) (r : RemReq) (gpn : Nat) (bs : List Byte) : State :=
  let h := natOfBytes (bs.take 5) % 2 ^ 39
  let e := natOfBytes ((bs.drop 5).take 1)
  let d := ownerDie s r
  if (ownerOf s d gpn).isSome || olderOut s gpn h then s else { s with owners := putOwner s.owners ⟨d, gpn, h, e⟩ }

/-- R332: a directory answers that its entry is not usable. The asker's walk finds the leaf malformed. -/
def badDirectory (s : State) (who gpn : Nat) : State :=
  if s.badGpns.contains (who, gpn) then s else { s with badGpns := (who, gpn) :: s.badGpns }

/-- R334: a home slice fills a line of a page whose frame is in another package. -/
def installLine (s : State) (loc bad : Nat) (bs : List Byte) : State :=
  if loc < migBase || !farHome s (migPage loc) || s.migLines.contains (loc / 128) then s
  else { s with
    mem := (List.range 16).foldl (fun m i => memWrite m (loc + 8 * i) 8 (natOfBytes ((bs.drop (8 * i)).take 8))) s.mem
    poison := (maskList 16 bad).map (fun i => loc / 8 + i) ++ s.poison
    migLines := loc / 128 :: s.migLines }

/-- The first byte of an answer. -/
def answerHead (bs : List Byte) : Nat := natOfBytes (bs.take 1)

/-- R426: a response. A monitor on another package answers twice, that it is registered and that it fired; so does the
XWAIT of a queued place, which is granted later (R301). -/
def execRemoteResponse (id : Nat) (data : List Byte) (bad : Nat) (s : State) : Result :=
  .next (match remoteReq s id with
    | none => s
    | some r =>
      if data.length < answerLen r.op || r.op.isStore then s
      else if r.grp == endGroupId then dropReq s id
      else if relayGroup ≤ r.grp then relayDone (dropReq s id) r.grp
      else match r.state, r.op with
        | .sent, .directory gpn =>
          if bad != 0 then badDirectory (dropReq s id) r.grp gpn else installOwner (dropReq s id) r gpn data
        | .sent, .line loc => installLine (dropReq s id) loc bad data
        | .sent, _ => setReq s id (.answered data bad)
        | .answered old _, .monitor _ _ _ =>
          if answerHead old == 3 && answerHead data == 1 then
            (setReq s id (.answered data bad)).setGroup r.grp (wakeMonitor (s.group r.grp))
          else s
        | .answered old _, .place 1 _ _ =>
          if answerHead old == 3 && answerHead data == 0 then
            (setReq s id (.answered data bad)).setGroup r.grp (wakeAway (s.group r.grp))
          else s
        | _, _ => s)

end Sys2Proof.Machine
end

