-- ==== Sys2Proof/Machine/Residency.lean ====
section
/-! DEFINITION. Residency (R121-R123, R142-R145, R259-R264, R410): waiters, room, claims, victims, admission; and the
acceptance of waiting engine commands (R322). -/

namespace Sys2Proof.Machine

/-! ### Engine acceptance (R322, R323, R344) -/

/-- The start of a command at its endpoint. -/
def startCmd (s : State) (c : Cmd) : State :=
  match c.eng with
  | 1 => copyStart s c
  | 2 => if c.opc == 0x10 then bagStart s c else updStart s c
  | 3 => if c.opc == 0x45 then mcastStart s c else collStart s c
  | 4 => ngemvStart s c
  | _ => srchStart s c

/-- The first waiting command of an engine tries again: it is accepted as of now (R380). -/
def execEngineAcceptance (id : Nat) (s : State) : Result :=
  .next (match cmdOf s id with
    | some c =>
      if c.state == .waiting && ((s.cmds.find? (fun x => x.sameEngine c && x.state == .waiting)).map Cmd.id) == some id then
        startCmd s { c with stamp := s.ord }
      else s
    | none => s)

/-! ### Placement (R145) -/

/-- The dies that a launch may use, ascending. -/
def Launch.dieSet (l : Launch) : List Nat := if l.dies == 0 then List.range 24 else maskList 24 l.dies
def Launch.hash (l : Launch) (t : Nat) : Nat :=
  (t % l.gx * l.mx + t / l.gx % l.gy * l.my + t / (l.gx * l.gy) * l.mz + l.off) % 2 ^ 64
def Launch.dieOf (l : Launch) (t : Nat) : Nat :=
  (l.dieSet[l.hash t % l.dieSet.length]?).getD 0
def Launch.sliceOf (l : Launch) (t : Nat) : Nat := l.hash t / l.dieSet.length % 24

def absDiff (a b : Nat) : Nat := if a ≤ b then b - a else a - b

/-- The cores of the die in the order in which R145 prefers them, the even core standing for a pair. Of two pairs at one
distance the lower one comes first, as R145 says of cores (log 82). -/
def coreOrder (l : Launch) (die t : Nat) : List Nat :=
  let sl := l.sliceOf t
  let cs := (List.range 48).filter (fun c => !l.pair || c % 2 == 0)
  (cs.mergeSort (fun a b => decide (absDiff (a / 2) sl < absDiff (b / 2) sl) ||
    (decide (absDiff (a / 2) sl = absDiff (b / 2) sl) && decide (a ≤ b)))).map (fun c => 48 * die + c)

/-! ### Room (R123) -/

/-- What a core is asked for, or gives: slots, lanes, bytes of vector registers and of local store. -/
structure Load where
  slots : Nat
  lanes : Nat
  vbytes : Nat
  store : Nat
  deriving DecidableEq, Repr, Inhabited

def Load.add (a b : Load) : Load := ⟨a.slots + b.slots, a.lanes + b.lanes, a.vbytes + b.vbytes, a.store + b.store⟩
def Load.zero : Load := ⟨0, 0, 0, 0⟩
def Load.ok (a : Load) : Bool :=
  decide (a.slots ≤ 64) && decide (a.lanes ≤ 2048) && decide (a.vbytes ≤ 2 ^ 20) && decide (a.store ≤ 2 ^ 20)

/-- The group holds a slot: resident, or being saved. -/
def Group.onCore (g : Group) : Bool := g.run == .resident || g.run == .saving

/-- One group's share of its core, its team's store left out. -/
def groupLoad (l : Launch) : Load := ⟨1, l.width, l.width * l.vregs * 32, 0⟩

/-- The cores that a team's store stands on. -/
def Team.cores (t : Team) (pair : Bool) : List Nat := if pair then [t.core / 2 * 2, t.core / 2 * 2 + 1] else [t.core]

/-- Whether a team has a group on its core or pair, some groups left out. -/
def teamThere (s : State) (launch team : Nat) (without : List Nat) : Bool :=
  (List.range s.groups.length).any (fun i => !without.contains i && (s.group i).launch == launch &&
    (s.group i).team == team && (s.group i).onCore)

/-- What a core holds, some groups left out. -/
def coreLoad (s : State) (core : Nat) (without : List Nat) : Load :=
  let gs := (List.range s.groups.length).filter (fun i => !without.contains i && (s.group i).onCore && (s.group i).core == core)
  let base := gs.foldl (fun a i => a.add (groupLoad (s.launchOf (s.group i)))) Load.zero
  let ts := s.teams.filter (fun t => (t.cores (s.launch t.launch).pair).contains core && !t.ended &&
    teamThere s t.launch t.team without)
  { base with store := ts.foldl (fun a t => a + (s.launch t.launch).lsPer) 0 + coreRsv s core }

/-! ### Waiters (R142, R144) -/

/-- A waiter for residency: a group that returns, or a team that has not started. -/
structure Waiting where
  launch : Nat
  team : Nat
  grp : Option Nat
  deriving DecidableEq, Repr, Inhabited

/-- The first team of a launch on a die that has not started. -/
def firstTeam (l : Launch) (die : Nat) : Nat → Nat → Option Nat
  | 0, _ => none
  | fuel + 1, t => if l.dieOf t == die && !l.started.contains t then some t else firstTeam l die fuel (t + 1)

def launchLive (l : Launch) : Bool := !l.done && !l.killed

/-- The waiters of one launch on a die. Teams come in TEAMID order (R410); where groups that return stand is open. -/
def launchWaiters (s : State) (die li : Nat) : List Waiting :=
  let l := s.launch li
  let back := ((List.range s.groups.length).filter (fun i => (s.group i).launch == li && (s.group i).run == .away &&
    (s.group i).eligible && (s.group i).die == die)).map (fun i => (⟨li, (s.group i).team, some i⟩ : Waiting))
  let fresh := if launchLive l then ((firstTeam l die l.teams 0).map (fun t => (⟨li, t, none⟩ : Waiting))).toList else []
  let ws := back ++ fresh
  ws.rotate (s.free 51)

/-- R142: the waiters of a die: by priority, then in launch order. -/
def waiters (s : State) (die : Nat) : List Waiting :=
  let ls := (List.range s.launches.length).filter (fun i => !(s.launch i).killed)
  (List.range 4).flatMap (fun p => (ls.filter (fun i => (s.launch i).prio == p)).flatMap (launchWaiters s die))

/-- What a waiter asks of each core, were it to go to a core. -/
def demand (s : State) (w : Waiting) (core : Nat) (without : List Nat) : List (Nat × Load) :=
  let l := s.launch w.launch
  let one := groupLoad l
  match w.grp with
  | some _ =>
    let there := teamThere s w.launch w.team without
    let cs := if l.pair then [core, otherCore core] else [core]
    cs.map (fun c => (c, { (if c == core then one else Load.zero) with store := if there then 0 else l.lsPer }))
  | none =>
    let many (n : Nat) : Load := ⟨n, n * l.width, n * l.width * l.vregs * 32, l.lsPer⟩
    if l.pair then [(core, many ((l.teamSize + 1) / 2)), (core + 1, many (l.teamSize / 2))] else [(core, many l.teamSize)]

/-- The cores that a waiter may go to, in order. -/
def placesFor (s : State) (w : Waiting) (die : Nat) : List Nat :=
  match w.grp with
  | some i => [(s.group i).core]
  | none => coreOrder (s.launch w.launch) die w.team

/-- The room that victims of a claim have freed on a core. -/
def claimed (s : State) (c : Claim) (core : Nat) : Load :=
  let gone := c.victims.filter (fun i => !(s.group i).onCore && (s.group i).core == core)
  let base := gone.foldl (fun a i => a.add (groupLoad (s.launchOf (s.group i)))) Load.zero
  let ts := (s.teams.filter (fun t => (t.cores (s.launch t.launch).pair).contains core &&
    c.victims.any (fun i => (s.group i).launch == t.launch && (s.group i).team == t.team) && !teamThere s t.launch t.team []))
  { base with store := ts.foldl (fun a t => a + (s.launch t.launch).lsPer) 0 }

def Claim.of (c : Claim) (w : Waiting) : Bool := c.launch == w.launch && c.team == w.team && c.grp == w.grp

/-- The waiter fits on a core beside what earlier waiters have claimed, some groups left out. -/
def fitsAt (s : State) (earlier : List Claim) (w : Waiting) (core : Nat) (without : List Nat) : Bool :=
  (demand s w core without).all (fun d =>
    let held := earlier.foldl (fun a c => a.add (claimed s c d.1)) (coreLoad s d.1 without)
    (held.add d.2).ok)

/-! ### Frames and slots (R263, R265, R399) -/

/-- Free indices of the group pool and of the team pool that a launch names. -/
def freeFrames (s : State) (l : Launch) : List Nat :=
  let used := (s.groups.filter (fun g => g.run != .ended && (s.launchOf g).gbase == l.gbase)).map Group.frame
  (List.range l.gcount).filter (fun i => !used.contains i)
/-- A team frame is held until its team has ended and no progress record of a copy is in it. -/
def teamHeld (s : State) (t : Team) : Bool :=
  !t.ended || s.cmds.any (fun c => c.prog.isSome && (s.group c.grp).launch == t.launch && (s.group c.grp).team == t.team)
def freeTeamFrames (s : State) (l : Launch) : List Nat :=
  let used := (s.teams.filter (fun t => teamHeld s t && (s.launch t.launch).tbase == l.tbase)).map Team.frame
  (List.range l.tcount).filter (fun i => !used.contains i)

/-- A free slot of a core; which one is open. -/
def freeSlots (s : State) (core : Nat) : List Nat :=
  (List.range 64).filter (fun n => !s.groups.any (fun g => g.onCore && g.core == core && g.slot == n))
def takeSlot (s : State) (core k : Nat) : Nat := s.pick k ((freeSlots s core).headD 0) (freeSlots s core)

/-- The waiter has frames. -/
def framesFor (s : State) (w : Waiting) : Bool :=
  let l := s.launch w.launch
  w.grp.isSome || (decide (l.teamSize ≤ (freeFrames s l).length) && !(freeTeamFrames s l).isEmpty)

/-! ### Admission (R142, R144, R410) -/

/-- R171, R410: a group as it starts. -/
def newGroup (l : Launch) (li team gid core slot frame now : Nat) : Group :=
  { (default : Group) with
    launch := li
    team := team
    gid := gid
    run := .resident
    core := core
    slot := slot
    frame := frame
    st := ⟨l.sentry, (List.range 8).foldl (fun m k => mapSet 0 m (k + 1) ((l.args[k]?.getD 0).setWidth 64)) [], l.fmt, l.axis, []⟩
    fpmode := l.fpmode
    pretmo := 40000
    dfrag := 0xFF
    dlpc := 0x3FFFFFF
    since := now }

/-- One group of a new team. -/
def startGroup (li team core frame0 : Nat) (s : State) (gid : Nat) : State :=
  let l := s.launch li
  let c := if l.pair then core / 2 * 2 + gid % 2 else core
  let fs := freeFrames s l
  let f := s.pick (200 + 2 * gid) (fs.headD frame0) fs
  let gi := s.groups.length
  let g := newGroup l li team gid c (takeSlot s c (201 + 2 * gid)) f s.tick
  codeRef (ref { s with groups := s.groups ++ [g] } gi 5) gi 5

/-- A team takes its first residency. -/
def startTeam (s : State) (w : Waiting) (core : Nat) : State :=
  let l := s.launch w.launch
  let tf := s.pick 52 ((freeTeamFrames s l).headD 0) (freeTeamFrames s l)
  let s := s.setLaunch w.launch { l with started := l.started ++ [w.team] }
  let s : State := { s with teams := s.teams ++ [⟨w.launch, w.team, core, tf, [], [], [], false, false⟩] }
  let s := (List.range l.teamSize).foldl (startGroup w.launch w.team core 0) s
  ungate (ungate s core l.asid) (if l.pair then otherCore core else core) l.asid

/-- A group returns: its frame, its team's store, the implicit ref (R39, R258). -/
def returnGroup (s : State) (gi : Nat) : State :=
  let g := s.group gi
  let s := restoreStore s (s.teamOf g)
  let g := readFrame s g
  let s := s.setGroup gi { g with
    run := .resident
    state := 0
    eligible := false
    slot := takeSlot s g.core 53
    since := s.tick
    quantum := false
    saveReq := none }
  ungate (codeRef (ref s gi 5) gi 5) g.core (s.launchOf g).asid

def takeIn (s : State) (w : Waiting) (core : Nat) : State :=
  let s : State := { s with claims := s.claims.filter (fun c => !c.of w) }
  match w.grp with
  | some gi => returnGroup s gi
  | none => startTeam s w core

/-! ### Victims (R143, R259, R262) -/

/-- The cores on which a waiter lacks room. -/
def lackingCores (s : State) (earlier : List Claim) (w : Waiting) (core : Nat) : List Nat :=
  ((demand s w core []).filter (fun d =>
    !((earlier.foldl (fun a c => a.add (claimed s c d.1)) (coreLoad s d.1 [])).add d.2).ok)).map Prod.fst

/-- Victims of the cores that lack room, in the order in which they are tried, with the way each is taken: true for
those that leave at once. An urgent launch takes groups of lower priority without waiting for their quanta. -/
def victimOrder (s : State) (earlier : List Claim) (w : Waiting) (core : Nat) : List (Nat × Bool) :=
  let l := s.launch w.launch
  let cs := lackingCores s earlier w core
  let on := (List.range s.groups.length).filter (fun i => (s.group i).run == .resident && cs.contains (s.group i).core &&
    decide (l.prio ≤ (s.launchOf (s.group i)).prio))
  let wait := (on.filter (waitHolds s)).mergeSort
    (fun a b => decide ((s.group a).waitSince ≤ (s.group b).waitSince))
  let ran := (on.filter (fun i => !waitHolds s i && (s.group i).saveReq.isNone && ((s.group i).quantum ||
      (l.urgent && decide (l.prio < (s.launchOf (s.group i)).prio))))).mergeSort
    (fun a b => decide ((s.group a).since ≤ (s.group b).since))
  wait.map (fun i => (i, true)) ++ ran.map (fun i => (i, false))

/-- The fewest victims, in order, that make room for a waiter on a core. -/
def chooseVictims (s : State) (earlier : List Claim) (w : Waiting) (core : Nat) :
    List (Nat × Bool) → List (Nat × Bool) → Option (List (Nat × Bool))
  | done, rest =>
    if fitsAt s earlier w core (done.map Prod.fst) then some done
    else match rest with
      | [] => none
      | v :: vs => chooseVictims s earlier w core (done ++ [v]) vs

/-- A full save of a group that leaves (R143, R259). -/
def fullSave : SaveJob where
  st := 2
  full := true
  vmap := 0
  lsmap := 0
  eligible := true
  post := none
  fatal := []

/-- R259: a remote access of the group's instructions is in flight. -/
def inFlight (s : State) (gi : Nat) : Bool :=
  s.remote.any (fun r => r.grp == gi && !r.op.isStore && (r.state == .held || r.state == .sent) && (match r.op with
    | .monitor _ _ _ => false
    | _ => true))

/-- R262: the clocks of the matrix and copy work of a team are gated, on each of its cores. -/
def gateTeam (s : State) (g : Group) : State :=
  let mine (gi : Nat) : Bool := (s.group gi).launch == g.launch && (s.group gi).team == g.team
  { s with
    mops := s.mops.map (fun o => if (teamCores s g).contains o.core && mine o.grp then { o with gated := true } else o)
    cmds := s.cmds.map (fun c =>
      if c.eng == 1 && (teamCores s g).contains c.unit && mine c.grp then { c with gated := true } else c) }

/-- A swap-out or an urgent pre-emption is requested of a group (R143, R259). PRETMO 0 forces the save at once. -/
def requestSave (s : State) (gi : Nat) (urgent : Bool) : State :=
  let g := s.group gi
  let s := if urgent then gateTeam s g else s
  let s := s.setGroup gi { s.group gi with saveReq := some urgent }
  if g.pretmo.toNat % 2 ^ 32 == 0 && !inFlight s gi then saveGroup s gi fullSave else s

/-- The victims go their ways. A claim that others have emptied is made anew. -/
def takeVictims (s : State) (w : Waiting) (core : Nat) (vs : List (Nat × Bool)) : State :=
  let l := s.launch w.launch
  let s : State := { s with
    claims := s.claims.filter (fun c => !c.of w) ++ [⟨w.launch, w.team, w.grp, core, vs.map Prod.fst⟩] }
  vs.foldl (fun s v =>
    if v.2 then saveGroup s v.1 fullSave
    else requestSave s v.1 (l.urgent && decide (l.prio < (s.launchOf (s.group v.1)).prio))) s

/-! ### The steps -/

/-- Victims of a claim that are still to leave. -/
def leaving (s : State) (c : Claim) : List Nat :=
  c.victims.filter (fun i => (s.group i).run == .saving || ((s.group i).run == .resident && (s.group i).saveReq.isSome))

/-- The room of a claim suffices for its waiter once its victims have left (R142). -/
def claimHolds (s : State) (earlier : List Claim) (w : Waiting) (c : Claim) : Bool :=
  c.of w && fitsAt s earlier w c.core (leaving s c)

/-- The waiters in order: the first that fits becomes resident; one that fits nowhere takes victims, and again where
another has taken the room that its victims left. The core of a team's first residency, whose victims R143 speaks of, is the
first in the order of R145 where there are victims that make room (log 83). -/
def residencyFrom (s : State) (die : Nat) (earlier : List Claim) : List Waiting → State
  | [] => s
  | w :: ws =>
    let places := if framesFor s w then placesFor s w die else []
    match places.find? (fun c => fitsAt s earlier w c []) with
    | some c => takeIn s w c
    | none => match s.claims.find? (claimHolds s earlier w) with
      | some c => residencyFrom s die (earlier ++ [c]) ws
      | none =>
        match places.findSome? (fun c => (chooseVictims s earlier w c [] (victimOrder s earlier w c)).map (fun vs => (c, vs))) with
        | some (c, vs) => takeVictims s w c vs
        | none => residencyFrom s die earlier ws

/-- R259: a group of the die whose save is requested and that has begun to wait. -/
def waitingSave (s : State) (die : Nat) : Option Nat :=
  (List.range s.groups.length).find? (fun i => (s.group i).die == die && (s.group i).run == .resident &&
    (s.group i).saveReq.isSome && waitHolds s i)

/-- Claims of waiters that wait no more are dropped. -/
def liveClaims (s : State) (die : Nat) (ws : List Waiting) : List Claim :=
  s.claims.filter (fun c => c.core / 48 != die || ws.any (fun w => c.of w))

def execResidency (die : Nat) (s : State) : Result :=
  let ws := waiters s die
  .next (if stage s != 6 || decide (24 ≤ die) then s
    else match waitingSave s die with
      | some i => saveGroup s i fullSave
      | none => residencyFrom { s with claims := liveClaims s die ws } die [] ws)

/-- R143: the quantum of a resident group passes. -/
def execQuantumExpiry (g : Nat) (s : State) : Result :=
  .next (if (s.group g).run == .resident then s.setGroup g { s.group g with quantum := true } else s)

/-- R259: a requested save is forced. -/
def execPretmoExpiry (g : Nat) (s : State) : Result :=
  let x := s.group g
  .next (if x.run == .resident && x.saveReq.isSome && !inFlight s g then saveGroup s g fullSave else s)

end Sys2Proof.Machine
end

