-- ==== Sys2Proof/Machine/HostLink.lean ====
section
/-! DEFINITION. The host link, bring-up and management (R443-R452): boot, attestation, register writes, kill and
resume, soft errors, and the stack counters (R370, R371). -/

namespace Sys2Proof.Machine

/-! ### Bring-up (R446-R449) -/

/-- Registers at reset on a part of a variant (R371, R424). -/
def partRegs (v : Variant) : SMap Dword :=
  let rs := if v.b then (List.range 24).foldl (fun m st => mapSet 0 m (0x3F0000200030 / 8 + 32 * st) 0) resetRegs else resetRegs
  if v.h then mapSet 0 (mapSet 0 rs (0x3F0000500000 / 8) 0x32103210) (0x3F0000500008 / 8) 0x0F else rs

/-- R446: full reset to STAGE 0. What the host holds is its own, and the straps of the part stay. -/
def fullReset (s : State) : State :=
  { State.reset with
    tick := s.tick
    agenda := []
    pkg := s.pkg
    variant := s.variant
    mem := s.mem.filter (fun c => hostWindow c.1)
    regs := partRegs s.variant }

def execPowerUp (s : State) : Result := .next (fullReset s)
def execRst (s : State) : Result := .next (fullReset s)
def execLinkTrained (s : State) : Result := .next (if stage s == 0 then setStage s 1 0 else s)

/-- The boot stops; entry 64 is notified of its end. -/
def bootFail (s : State) (berr : Nat) : State := notify (regSet (setStage s 0xFF berr) ctlAddr 0) 64

def imageLen (s : State) (i : Nat) : Nat := (regGet s (mgmtBase + 0x108 + 16 * i)).toNat
def imageAddr (s : State) (i : Nat) : Nat := 0x200000000000 + (regGet s (mgmtBase + 0x100 + 16 * i)).toNat
def memBytes (s : State) (a n : Nat) : List Byte := bytesOf n (memRead s.mem a n)

/-- R447: the failure of an image, or the digest of its body. -/
def verifyImage (s : State) (i : Nat) : Except Nat (List Byte) :=
  let n := imageLen s i
  if n < 128 then .error 1
  else
    let t := memBytes s (imageAddr s i + n - 128) 128
    let body := memBytes s (imageAddr s i) (n - 128)
    let d := (t.drop 8).take 32
    if natOfBytes (t.take 4) != i + 1 || natOfBytes ((t.drop 4).take 4) != n - 128 || (t.drop 104).any (fun b => b != 0) then .error 1
    else if sm3 body != d then .error 2
    else if !sm2Verify Config.rootKey d ((t.drop 40).take 64) then .error 3
    else .ok d

/-- R447: the images in order. On -B parts image 1 is not loaded. -/
def verifyAll (s : State) : Except Nat (List (List Byte)) :=
  foldE (fun ds i =>
    if i == 1 && s.variant.b then (if imageLen s 1 == 0 then .ok (ds ++ [List.replicate 32 0]) else .error 1)
    else match verifyImage s i with
      | .ok d => .ok (ds ++ [d])
      | .error e => .error e) [] (List.range 3)

/-- R448: the physical cores of a die that are active. -/
def activeMap (m : Nat) : Option Nat :=
  let ps := ((List.range 26).filter (fun j => bit m (2 * j) && bit m (2 * j + 1))).take 24
  if ps.length < 24 then none else some (maskOf (ps.flatMap (fun j => [2 * j, 2 * j + 1])))

/-- R448: self-test chooses the cores and clears tiles, barriers, monitors and places. -/
def selfTest (s : State) : State :=
  match foldE (fun (s : State) d => match activeMap (Config.selfTest s.tick d) with
      | some m => .ok (regSet s (mgmtBase + 0x1000 + 8 * d) (BitVec.ofNat 64 m))
      | none => (.error () : Except Unit State)) s (List.range 24) with
  | .ok s1 => setStage { s1 with
      tiles := []
      tileTags := []
      tileOuts := []
      barriers := []
      monitors := []
      places := [] } 4 0
  | .error _ => bootFail s 4

/-- R3: CAPS of a part. -/
def capsOf (v : Variant) : Dword :=
  BitVec.ofNat 64 ((if v.h then 4 else 8) * 2 ^ 16 + (if v.t then 0 else 12) * 2 ^ 8 + if v.b then 0 else 7)

/-- PUBKEY takes the identity's public key. -/
def putPubKey (s : State) (key : List Byte) : State :=
  (List.range 8).foldl (fun s i =>
    regSet s (mgmtBase + 0x2000 + 8 * i) (BitVec.ofNat 64 (natOfBytes ((key.drop (8 * i)).take 8)))) s

/-- R446: the ROM goes on by one stage: GO takes it from waiting to verification, and each further step to the next. -/
def bootStep (s : State) : State :=
  match stage s with
  | 1 => regSet (setStage s 2 0) ctlAddr 1
  | 2 => match verifyAll s with
    | .ok ds => { regSet (setStage s 3 0) ctlAddr 0 with digests := ds }
    | .error e => bootFail s e
  | 3 => selfTest s
  | 4 => match Config.puf s.tick with
    | some n =>
      let d := n % (sm2N - 2) + 1
      let s1 := putPubKey s (sm2Public d)
      { setStage s1 5 0 with
        caps := capsOf s.variant
        clock := 0
        identKey := d }
    | none => bootFail s 5
  | _ => s

def execGo (s : State) : Result := .next (bootStep s)

/-- R446: the front end starts. -/
def execFego (s : State) : Result := .next (if stage s == 5 then notify (setStage s 6 0) 64 else s)

/-! ### Attestation (R449) -/

def astat (s : State) : Nat := (regGet s (mgmtBase + 0x3028)).toNat % 4
def nonce (s : State) : Nat := (List.range 4).foldl (fun n i => n + (regGet s (mgmtBase + 0x3000 + 8 * i)).toNat * 2 ^ (64 * i)) 0

def execRaddr (v : Dword) (s : State) : Result :=
  .next (if astat s == 1 then s
    else
      let s := regSet s (mgmtBase + 0x3020) v
      if stage s != 6 then regSet s (mgmtBase + 0x3028) 3
      else { regSet s (mgmtBase + 0x3028) 1 with report := some (dpaLocal v.toNat, nonce s) })

/-- The report over a nonce. The random number of the signature is free. -/
def reportBytes (s : State) (n : Nat) : List Byte :=
  let cmap := (List.range 24).flatMap (fun d => bytesOf 8 (regGet s (mgmtBase + 0x1000 + 8 * d)).toNat)
  let head := bytesOf 32 n ++ s.digests.flatten ++ bytesOf 8 s.caps.toNat ++ sm3 cmap ++ List.replicate 24 0
  head ++ sm2Sign s.identKey (sm3 head) (s.free 55) 4

/-- Bytes written through the host window. -/
def windowWrite (s : State) (a : Nat) (bs : List Byte) : State :=
  (unitPieces (bs.length + 1) a bs).foldl (fun s p =>
    if hostWindow p.1 then performBytes s p.1 p.2.length (BitVec.ofNat 64 (natOfBytes p.2)) else s) s

def execReportDone (s : State) : Result :=
  .next (match s.report with
    | some (a, n) =>
      let s1 := windowWrite s a (reportBytes s (s.pick 54 n [n, nonce s]))
      notify { regSet s1 (mgmtBase + 0x3028) 2 with report := none } 64
    | none => s)

/-! ### Registers (R8, R332, R371, R398, R434, R445, R452) -/

/-- R445: a management register, which the host may write at any stage. -/
def isMgmt (a : Nat) : Bool := decide (mgmtBase ≤ a) && decide (a < mgmtBase + 0x10000)

/-- R332: the writes to DIRBASE and DIRLEN that are ignored. -/
def dirIgnored (a : Nat) (v : Dword) (s : State) : Bool :=
  (a == dirBaseAddr && (v &&& ~~~ maskBits 55 8 != 0 || dpaPkg v.toNat != s.pkg || !hbmBacked (dpaLocal v.toNat))) ||
  (a == dirLenAddr && v &&& ~~~ maskBits 33 0 != 0)

/-- The communicator of a register address. -/
def commOf (a : Nat) : Option Nat :=
  if decide (0x3F0000501000 ≤ a) && decide (a < 0x3F0000501000 + 32 * 64) then some ((a - 0x3F0000501000) / 32) else none

/-- R434: an operation of the communicator is accepted and incomplete. -/
def commBusy (s : State) (k : Nat) : Bool := s.cmds.any (fun c => cmdIsComm c && cmdComm c == k && c.state != .done)

/-- R434: a write to a communicator's entry; BROKEN is cleared by writing 1. -/
def writeComm (s : State) (k a : Nat) (v : Dword) : State :=
  if commBusy s k then s
  else
    let n := blend (regGet s a) (regMask s a) v
    regSet s a (if a % 32 == 8 && bit v.toNat 62 then n &&& ~~~ BitVec.ofNat 64 (2 ^ 62) else n)

/-- R398: a write to a dword of a control block's window, TAIL aside. -/
def writeQcb (s : State) (q k : Nat) (v : Dword) : State :=
  let i := qcbImage s q
  let run := qcbState i == 1
  let old := BitVec.ofNat 64 (i / 2 ^ (64 * k))
  let put (m : Dword) : State := qcbPut s q (putBits i (64 * k + 63) (64 * k) (blend old m v).toNat)
  match k with
  | 3 =>
    let st := bits v.toNat 19 18
    let s1 := put (if run then maskBits 19 18 else maskBits 55 43 ||| maskBits 39 18)
    if st == 1 then runQueue s1 q else s1
  | 5 =>
    if run then s
    else
      let s1 := put (maskBits 31 0)
      s1.setQueue q { s1.queue q with
        frames := []
        skip := 0
        waiting := false
        parked := false
        posted := false }
  | 6 | 7 => if run then s else put allOnes64
  | _ => s

/-- R371: HRTH of a stack, which only privileged contexts write. -/
def isHrth (a : Nat) : Bool :=
  decide (0x3F0000200000 ≤ a) && decide (a < 0x3F0000200000 + 0x100 * 24) && a % 0x100 / 8 == 6

def execRegisterWrite (addr : Nat) (v : Dword) (s : State) : Result :=
  let a := addr / 8 * 8
  .next (if !regWindow a || (!regionLive s && !isMgmt a) then s
    else if inQcbWindow a then writeQcb s ((a - qcbWindow) / 64) ((a - qcbWindow) % 64 / 8) v
    else match commOf a with
      | some k => writeComm s k a v
      | none => if dirIgnored a v s then s else regSet s a (blend (regGet s a) (regMask s a) v))

/-- R445, R451: other values are clamped. -/
def execPlimit (v : Dword) (s : State) : Result :=
  .next (regSet s (mgmtBase + 0x5000) (BitVec.ofNat 64 (min 7500 (max 1000 (v.toNat % 2 ^ 16)))))

/-- R452. -/
def execCorersv (n : Nat) (v : Dword) (s : State) : Result :=
  let used := (coreLoad s n []).store - coreRsv s n
  .next (if !regionLive s || decide (1152 ≤ n) || decide (8 < v.toNat) || decide (2 ^ 20 < used + v.toNat * 2 ^ 16) then s
    else regSet s (coreRsvAddr + 8 * n) v)

def execSlicersv (n : Nat) (v : Dword) (s : State) : Result :=
  .next (if !regionLive s || decide (576 ≤ n) || decide (512 < v.toNat) then s else regSet s (sliceRsvAddr + 8 * n) v)

/-! ### Fault queues (R327, R330) -/

/-- Records held for a virtual function go out in order while there is room. -/
def postHeld (s : State) (vf : Nat) : Nat → State
  | 0 => s
  | fuel + 1 =>
    match s.held.find? (fun h => h.vf == vf) with
    | some h =>
      if fqRoom s vf then
        let s1 := fqSet { s with held := s.held.erase h } vf (fqLost s vf) (fqHeld s vf - 1) (fqTail s vf)
        postHeld (fqWrite s1 vf h.words) vf fuel
      else s
    | none => s

def execFaultQueueHead (vf : Nat) (h : Dword) (s : State) : Result :=
  .next (if !regionLive s || decide (64 ≤ vf) then s
    else
      let s := regSet s (faultBase + 32 * vf) (BitVec.ofNat 64 (h.toNat % 2048))
      postHeld s vf s.held.length)

/-! ### Kill and resume (R266, R442, R450) -/

def execKillctx (v : Dword) (s : State) : Result :=
  let asid := v.toNat % 2 ^ 16
  let s := regSet s (mgmtBase + 0x6018) (BitVec.ofNat 64 asid)
  .next (if regionLive s && asidBound s asid then killContext s asid else s)

/-- The group that GIDENT names. -/
def identGroup (s : State) : Option Nat :=
  let d := (regGet s (mgmtBase + 0x6008)).toNat
  let n := (regGet s (mgmtBase + 0x6000)).toNat % 32
  (List.range s.groups.length).find? (fun i =>
    let g := s.group i
    let l := s.launchOf g
    g.run != .ended && l.asid == bits d 63 48 && l.ltag == bits d 47 32 && g.team == bits d 31 0 && g.gid == n)

/-- R450, R453: a frame header that a resume accepts. -/
def headerAccepted (s : State) (g : Group) : Bool :=
  let a := frameAddr s g
  let d (k : Nat) : Nat := (readDw s (a + 8 * k)).toNat
  bits (d 0) 63 32 == 0 && bits (d 0) 23 18 == 0 && bits (d 0) 15 11 == 0 && bits (d 0) 7 6 == 0 &&
  decide (bits (d 0) 10 8 ≤ 4) && decide (bits (d 0) 2 0 ≤ 4) && bits (d 2) 63 54 == 0 && bits (d 2) 1 0 == 0 &&
  bits (d 4) 63 58 == 0 && bits (d 4) 31 8 == 0 && bits (d 5) 63 26 == 0 &&
  (List.range 10).all (fun k => d (6 + k) == 0)

def hrstat (s : State) (n : Nat) : State := regSet s (mgmtBase + 0x6010) (BitVec.ofNat 64 n)

/-- R450: any value written resumes the group that GIDENT names. -/
def execHostResume (_v : Dword) (s : State) : Result :=
  .next (match identGroup s with
    | none => hrstat s 3
    | some i =>
      let g := s.group i
      if g.run != .away || g.eligible || (g.state != 3 && g.state != 4) || !headerAccepted s g then hrstat s 2
      else hrstat (s.setGroup i { g with eligible := true }) 1)

/-! ### Host stores (R443) -/

/-- A host store is performed in host order. Before STAGE 5 one to HBM is discarded; one to HRTH has no effect (R371),
and once the boot has failed one to the second tier. -/
def execHostStore (addr : Nat) (data : List Byte) (s : State) : Result :=
  let ps := unitPieces (data.length + 1) addr data
  .next (ps.foldr (fun p s =>
      if regWindow p.1 && !isHrth p.1 then regStore s p.1 p.2.length (BitVec.ofNat 64 (natOfBytes p.2)) else s)
    (ps.foldl (fun s p =>
      if regWindow p.1 || !isMemory s.variant p.1 || (hbmBacked p.1 && !regionLive s) || (stopped s && !hostWindow p.1) then s
      else performBytesBy s .other p.1 p.2.length (BitVec.ofNat 64 (natOfBytes p.2))) s))

/-! ### Errors, throttling, counters (R221, R295, R367, R370, R451) -/

/-- Mark units uncorrectable. -/
def markBad (s : State) (us : List Nat) : State :=
  { s with poison := us.filter (fun u => !s.poison.contains u) ++ s.poison }

def onPart (s : State) (a : Nat) : Bool := hbmBacked a || tierBacked s.variant a

def execScrub (addr : Nat) (s : State) : Result :=
  let a := dpaLocal addr
  .next (if onPart s a && !stopped s then countUe (markBad s [a / 8]) (a / 8 * 8) else s)

/-- R367: a clean line of the cache layer is fetched again, a dirty one becomes uncorrectable. -/
def execSoftError (e : SoftErrorAt) (s : State) : Result :=
  .next (match e with
    | .memory a => if onPart s (dpaLocal a) then markBad s [dpaLocal a / 8] else s
    | .monitors d k => fireMonitors s (fun m => m.slice == 24 * d + k)
    | .cacheLine a dirty =>
      if dirty && s.cacheLines.contains (dpaLocal a / 128, true) then
        markBad s ((List.range 16).map (fun i => dpaLocal a / 128 * 16 + i))
      else s)

def execThrottle (_on : Bool) (cycles : Dword) (s : State) : Result :=
  .next (liveOr s (notify (regSet s (mgmtBase + 0x5010) (regGet s (mgmtBase + 0x5010) + cycles)) 64))

/-- R370: counts restart, and captured rows go back. -/
def execWindowEnd (stack : Nat) (s : State) : Result :=
  .next (liveOr s { s with
    rowHits := s.rowHits.filter (fun p => p.1 / 2 ^ 40 != stack)
    captured := s.captured.filter (fun p => p.1 != stack) })

end Sys2Proof.Machine
end

