-- ==== Sys2Proof/Machine/Dispatch.lean ====
section
/-! DEFINITION. The meaning of every instruction: one arm per constructor. -/

namespace Sys2Proof.Machine

/-- What an instruction does in a state. -/
def exec (i : Instr) (s : State) : Host.Outcome State Fault Refusal :=
  match i with
  | .sadd d a b => Sys2Proof.Machine.execSadd d a b s
  | .ssub d a b => Sys2Proof.Machine.execSsub d a b s
  | .smul d a b => Sys2Proof.Machine.execSmul d a b s
  | .smulh d a b => Sys2Proof.Machine.execSmulh d a b s
  | .sdiv d a b => Sys2Proof.Machine.execSdiv d a b s
  | .srem d a b => Sys2Proof.Machine.execSrem d a b s
  | .sand d a b => Sys2Proof.Machine.execSand d a b s
  | .sor d a b => Sys2Proof.Machine.execSor d a b s
  | .sxor d a b => Sys2Proof.Machine.execSxor d a b s
  | .sshl d a b => Sys2Proof.Machine.execSshl d a b s
  | .sshr d a b => Sys2Proof.Machine.execSshr d a b s
  | .ssra d a b => Sys2Proof.Machine.execSsra d a b s
  | .smin d a b => Sys2Proof.Machine.execSmin d a b s
  | .smax d a b => Sys2Proof.Machine.execSmax d a b s
  | .sminu d a b => Sys2Proof.Machine.execSminu d a b s
  | .smaxu d a b => Sys2Proof.Machine.execSmaxu d a b s
  | .sslt d a b => Sys2Proof.Machine.execSslt d a b s
  | .ssltu d a b => Sys2Proof.Machine.execSsltu d a b s
  | .sseq d a b => Sys2Proof.Machine.execSseq d a b s
  | .sclz d a => Sys2Proof.Machine.execSclz d a s
  | .spopc d a => Sys2Proof.Machine.execSpopc d a s
  | .ssel d a b c => Sys2Proof.Machine.execSsel d a b c s
  | .saddi d a imm => Sys2Proof.Machine.execSaddi d a imm s
  | .sandi d a imm => Sys2Proof.Machine.execSandi d a imm s
  | .sori d a imm => Sys2Proof.Machine.execSori d a imm s
  | .sxori d a imm => Sys2Proof.Machine.execSxori d a imm s
  | .sshli d a n => Sys2Proof.Machine.execSshli d a n s
  | .sshri d a n => Sys2Proof.Machine.execSshri d a n s
  | .ssrai d a n => Sys2Proof.Machine.execSsrai d a n s
  | .slit l f => Sys2Proof.Machine.execSlit l f s
  | .sld d a z o => Sys2Proof.Machine.execSld d a z o s
  | .sst d a z o => Sys2Proof.Machine.execSst d a z o s
  | .satom d a b o r sc => Sys2Proof.Machine.execSatom d a b o r sc s
  | .spref h a imm => Sys2Proof.Machine.execSpref h a imm s
  | .sbeq a b o => Sys2Proof.Machine.execSbeq a b o s
  | .sbne a b o => Sys2Proof.Machine.execSbne a b o s
  | .sblt a b o => Sys2Proof.Machine.execSblt a b o s
  | .sbge a b o => Sys2Proof.Machine.execSbge a b o s
  | .sbltu a b o => Sys2Proof.Machine.execSbltu a b o s
  | .sbgeu a b o => Sys2Proof.Machine.execSbgeu a b o s
  | .sjmp o => Sys2Proof.Machine.execSjmp o s
  | .scall d o => Sys2Proof.Machine.execScall d o s
  | .scallr a l => Sys2Proof.Machine.execScallr a l s
  | .sret a => Sys2Proof.Machine.execSret a s
  | .sjtab a o => Sys2Proof.Machine.execSjtab a o s
  | .spad l => Sys2Proof.Machine.execSpad l s
  | .lrun l => Sys2Proof.Machine.execLrun l s
  | .lwait => Sys2Proof.Machine.execLwait s
  | .sfmt a => Sys2Proof.Machine.execSfmt a s
  | .sfmtAb a b => Sys2Proof.Machine.execSfmtAb a b s
  | .saxis n a => Sys2Proof.Machine.execSaxis n a s
  | .sqin d n => Sys2Proof.Machine.execSqin d n s
  | .sqout a n => Sys2Proof.Machine.execSqout a n s
  | .sbarInit a p imm => Sys2Proof.Machine.execSbarInit a p imm s
  | .sbarArrive p imm => Sys2Proof.Machine.execSbarArrive p imm s
  | .sbarWait m p imm => Sys2Proof.Machine.execSbarWait m p imm s
  | .sbarArw m p imm => Sys2Proof.Machine.execSbarArw m p imm s
  | .swaitc d a b c z sc => Sys2Proof.Machine.execSwaitc d a b c z sc s
  | .phase sc => Sys2Proof.Machine.execPhase sc s
  | .phasePub sc => Sys2Proof.Machine.execPhasePub sc s
  | .phaseRef sc => Sys2Proof.Machine.execPhaseRef sc s
  | .xfence m => Sys2Proof.Machine.execXfence m s
  | .drain m => Sys2Proof.Machine.execDrain m s
  | .tdet d a => Sys2Proof.Machine.execTdet d a s
  | .xacq d a sc => Sys2Proof.Machine.execXacq d a sc s
  | .xwait d a sc => Sys2Proof.Machine.execXwait d a sc s
  | .xgive a b => Sys2Proof.Machine.execXgive a b s
  | .xswap d a b => Sys2Proof.Machine.execXswap d a b s
  | .xaban a => Sys2Proof.Machine.execXaban a s
  | .xrel a sc => Sys2Proof.Machine.execXrel a sc s
  | .wpop a => Sys2Proof.Machine.execWpop a s
  | .wpost d a b => Sys2Proof.Machine.execWpost d a b s
  | .mcfg a => Sys2Proof.Machine.execMcfg a s
  | .mgang a => Sys2Proof.Machine.execMgang a s
  | .mma a b => Sys2Proof.Machine.execMma a b s
  | .mmas d a b => Sys2Proof.Machine.execMmas d a b s
  | .mzero t => Sys2Proof.Machine.execMzero t s
  | .mlda a t => Sys2Proof.Machine.execMlda a t s
  | .mst a b t => Sys2Proof.Machine.execMst a b t s
  | .mwait => Sys2Proof.Machine.execMwait s
  | .pgmig d a b => Sys2Proof.Machine.execPgmig d a b s
  | .pgqry d a => Sys2Proof.Machine.execPgqry d a s
  | .sgetr d r => Sys2Proof.Machine.execSgetr d r s
  | .ssetr a r => Sys2Proof.Machine.execSsetr a r s
  | .snop => Sys2Proof.Machine.execSnop s
  | .shalt => Sys2Proof.Machine.execShalt s
  | .send => Sys2Proof.Machine.execSend s
  | .strap c => Sys2Proof.Machine.execStrap c s
  | .srft => Sys2Proof.Machine.execSrft s
  | .sbkpt => Sys2Proof.Machine.execSbkpt s
  | .vadd f => Sys2Proof.Machine.execVadd f s
  | .vsub f => Sys2Proof.Machine.execVsub f s
  | .vmul f => Sys2Proof.Machine.execVmul f s
  | .vmulh f => Sys2Proof.Machine.execVmulh f s
  | .vmad f => Sys2Proof.Machine.execVmad f s
  | .vmin f => Sys2Proof.Machine.execVmin f s
  | .vmax f => Sys2Proof.Machine.execVmax f s
  | .vabs f => Sys2Proof.Machine.execVabs f s
  | .vand f => Sys2Proof.Machine.execVand f s
  | .vor f => Sys2Proof.Machine.execVor f s
  | .vxor f => Sys2Proof.Machine.execVxor f s
  | .vnot f => Sys2Proof.Machine.execVnot f s
  | .vshl f => Sys2Proof.Machine.execVshl f s
  | .vshr f => Sys2Proof.Machine.execVshr f s
  | .vsra f => Sys2Proof.Machine.execVsra f s
  | .vclz f => Sys2Proof.Machine.execVclz f s
  | .vpopc f => Sys2Proof.Machine.execVpopc f s
  | .vbfe f => Sys2Proof.Machine.execVbfe f s
  | .vbfi f => Sys2Proof.Machine.execVbfi f s
  | .vsel f => Sys2Proof.Machine.execVsel f s
  | .vmov f => Sys2Proof.Machine.execVmov f s
  | .vfadd f => Sys2Proof.Machine.execVfadd f s
  | .vfsub f => Sys2Proof.Machine.execVfsub f s
  | .vfmul f => Sys2Proof.Machine.execVfmul f s
  | .vfma f => Sys2Proof.Machine.execVfma f s
  | .vfmin f => Sys2Proof.Machine.execVfmin f s
  | .vfmax f => Sys2Proof.Machine.execVfmax f s
  | .vfrcp f => Sys2Proof.Machine.execVfrcp f s
  | .vfrsq f => Sys2Proof.Machine.execVfrsq f s
  | .vfsqrt f => Sys2Proof.Machine.execVfsqrt f s
  | .vfexp2 f => Sys2Proof.Machine.execVfexp2 f s
  | .vflog2 f => Sys2Proof.Machine.execVflog2 f s
  | .vfclass f => Sys2Proof.Machine.execVfclass f s
  | .vcvt f => Sys2Proof.Machine.execVcvt f s
  | .vqnt f => Sys2Proof.Machine.execVqnt f s
  | .vdqnt f => Sys2Proof.Machine.execVdqnt f s
  | .vtsdot f => Sys2Proof.Machine.execVtsdot f s
  | .vzdot f => Sys2Proof.Machine.execVzdot f s
  | .vcmp f => Sys2Proof.Machine.execVcmp f s
  | .vfcmp f => Sys2Proof.Machine.execVfcmp f s
  | .pand f => Sys2Proof.Machine.execPand f s
  | .por f => Sys2Proof.Machine.execPor f s
  | .pxor f => Sys2Proof.Machine.execPxor f s
  | .pnot f => Sys2Proof.Machine.execPnot f s
  | .pset f => Sys2Proof.Machine.execPset f s
  | .pfirst f => Sys2Proof.Machine.execPfirst f s
  | .pmov f => Sys2Proof.Machine.execPmov f s
  | .vshuf f => Sys2Proof.Machine.execVshuf f s
  | .vbcast f => Sys2Proof.Machine.execVbcast f s
  | .vred f => Sys2Proof.Machine.execVred f s
  | .vscan f => Sys2Proof.Machine.execVscan f s
  | .vballot f => Sys2Proof.Machine.execVballot f s
  | .vrdl f => Sys2Proof.Machine.execVrdl f s
  | .vwrl f => Sys2Proof.Machine.execVwrl f s
  | .vsort f => Sys2Proof.Machine.execVsort f s
  | .vqin f => Sys2Proof.Machine.execVqin f s
  | .vld f => Sys2Proof.Machine.execVld f s
  | .vldc f => Sys2Proof.Machine.execVldc f s
  | .vst f => Sys2Proof.Machine.execVst f s
  | .vatom f => Sys2Proof.Machine.execVatom f s
  | .vpref f => Sys2Proof.Machine.execVpref f s
  | .lld f => Sys2Proof.Machine.execLld f s
  | .lst f => Sys2Proof.Machine.execLst f s
  | .latom f => Sys2Proof.Machine.execLatom f s
  | .vstq f => Sys2Proof.Machine.execVstq f s
  | .esav f => Sys2Proof.Machine.execEsav f s
  | .elod f => Sys2Proof.Machine.execElod f s
  | .eclr f => Sys2Proof.Machine.execEclr f s
  | .lbra f => Sys2Proof.Machine.execLbra f s
  | .ljmp f => Sys2Proof.Machine.execLjmp f s
  | .ljtab f => Sys2Proof.Machine.execLjtab f s
  | .lpad f => Sys2Proof.Machine.execLpad f s
  | .ljoin f => Sys2Proof.Machine.execLjoin f s
  | .regang f => Sys2Proof.Machine.execRegang f s
  | .lend f => Sys2Proof.Machine.execLend f s
  | .phint f => Sys2Proof.Machine.execPhint f s
  | .lnop f => Sys2Proof.Machine.execLnop f s
  | .sideBufferRelease g => Sys2Proof.Machine.execSideBufferRelease g s
  | .residency die => Sys2Proof.Machine.execResidency die s
  | .quantumExpiry g => Sys2Proof.Machine.execQuantumExpiry g s
  | .pretmoExpiry g => Sys2Proof.Machine.execPretmoExpiry g s
  | .saveCompletion g => Sys2Proof.Machine.execSaveCompletion g s
  | .matrixOperation core => Sys2Proof.Machine.execMatrixOperation core s
  | .matrixCompletion core => Sys2Proof.Machine.execMatrixCompletion core s
  | .copy w0 w1 w2 w3 w4 => Sys2Proof.Machine.execCopy w0 w1 w2 w3 w4 s
  | .bag w0 w1 w2 w3 w4 w5 w6 => Sys2Proof.Machine.execBag w0 w1 w2 w3 w4 w5 w6 s
  | .upd w0 w1 w2 w3 w4 w5 w6 => Sys2Proof.Machine.execUpd w0 w1 w2 w3 w4 w5 w6 s
  | .ngemv w0 w1 w2 w3 w4 w5 w6 => Sys2Proof.Machine.execNgemv w0 w1 w2 w3 w4 w5 w6 s
  | .srch w0 w1 w2 w3 w4 w5 => Sys2Proof.Machine.execSrch w0 w1 w2 w3 w4 w5 s
  | .engineAcceptance id => Sys2Proof.Machine.execEngineAcceptance id s
  | .copyCompletion id => Sys2Proof.Machine.execCopyCompletion id s
  | .gatherCompletion id => Sys2Proof.Machine.execGatherCompletion id s
  | .ngemvCompletion id => Sys2Proof.Machine.execNgemvCompletion id s
  | .broadcast id stack => Sys2Proof.Machine.execBroadcast id stack s
  | .expand id => Sys2Proof.Machine.execExpand id s
  | .visit id n => Sys2Proof.Machine.execVisit id n s
  | .reply id n => Sys2Proof.Machine.execReply id n s
  | .endOfExpansion id => Sys2Proof.Machine.execEndOfExpansion id s
  | .directoryQuery die gpn => Sys2Proof.Machine.execDirectoryQuery die gpn s
  | .copyUnit gpn => Sys2Proof.Machine.execCopyUnit gpn s
  | .switch gpn => Sys2Proof.Machine.execSwitch gpn s
  | .invalidation gpn pkg => Sys2Proof.Machine.execInvalidation gpn pkg s
  | .acknowledge gpn pkg => Sys2Proof.Machine.execAcknowledge gpn pkg s
  | .relay die gpn => Sys2Proof.Machine.execRelay die gpn s
  | .redirect n => Sys2Proof.Machine.execRedirect n s
  | .mcast w0 w1 w2 w3 w4 w5 w6 => Sys2Proof.Machine.execMcast w0 w1 w2 w3 w4 w5 w6 s
  | .allred w0 w1 w2 w3 w4 => Sys2Proof.Machine.execAllred w0 w1 w2 w3 w4 s
  | .redscat w0 w1 w2 w3 w4 => Sys2Proof.Machine.execRedscat w0 w1 w2 w3 w4 s
  | .allgath w0 w1 w2 w3 w4 => Sys2Proof.Machine.execAllgath w0 w1 w2 w3 w4 s
  | .bcast w0 w1 w2 w3 w4 => Sys2Proof.Machine.execBcast w0 w1 w2 w3 w4 s
  | .cbar w0 w1 w2 w3 w4 => Sys2Proof.Machine.execCbar w0 w1 w2 w3 w4 s
  | .topkmerge w0 w1 w2 w3 w4 => Sys2Proof.Machine.execTopkmerge w0 w1 w2 w3 w4 s
  | .collectiveCompletion id => Sys2Proof.Machine.execCollectiveCompletion id s
  | .nop e => Sys2Proof.Machine.execNop e s
  | .fetchfence e => Sys2Proof.Machine.execFetchfence e s
  | .ib e => Sys2Proof.Machine.execIb e s
  | .pred e => Sys2Proof.Machine.execPred e s
  | .loop e => Sys2Proof.Machine.execLoop e s
  | .waitmem e => Sys2Proof.Machine.execWaitmem e s
  | .waitmemReread qid => Sys2Proof.Machine.execWaitmemReread qid s
  | .writemem e => Sys2Proof.Machine.execWritemem e s
  | .signal e => Sys2Proof.Machine.execSignal e s
  | .feed e => Sys2Proof.Machine.execFeed e s
  | .feedRoom qid => Sys2Proof.Machine.execFeedRoom qid s
  | .launch e0 e1 => Sys2Proof.Machine.execLaunch e0 e1 s
  | .tlbinv e => Sys2Proof.Machine.execTlbinv e s
  | .tlbinvCompletion n => Sys2Proof.Machine.execTlbinvCompletion n s
  | .pgattr e => Sys2Proof.Machine.execPgattr e s
  | .pgattrTransition n => Sys2Proof.Machine.execPgattrTransition n s
  | .asidBind e => Sys2Proof.Machine.execAsidBind e s
  | .asidRetire e => Sys2Proof.Machine.execAsidRetire e s
  | .resume e => Sys2Proof.Machine.execResume e s
  | .resumeCmd e => Sys2Proof.Machine.execResumeCmd e s
  | .tailWrite qid t => Sys2Proof.Machine.execTailWrite qid t s
  | .qcbStateRun qid => Sys2Proof.Machine.execQcbStateRun qid s
  | .wpopReread qid => Sys2Proof.Machine.execWpopReread qid s
  | .tdetSecondSample g => Sys2Proof.Machine.execTdetSecondSample g s
  | .faultQueueHead vf h => Sys2Proof.Machine.execFaultQueueHead vf h s
  | .windowEnd stack => Sys2Proof.Machine.execWindowEnd stack s
  | .go => Sys2Proof.Machine.execGo s
  | .fego => Sys2Proof.Machine.execFego s
  | .rst => Sys2Proof.Machine.execRst s
  | .raddr v => Sys2Proof.Machine.execRaddr v s
  | .reportDone => Sys2Proof.Machine.execReportDone s
  | .plimit v => Sys2Proof.Machine.execPlimit v s
  | .killctx v => Sys2Proof.Machine.execKillctx v s
  | .hostResume v => Sys2Proof.Machine.execHostResume v s
  | .corersv n v => Sys2Proof.Machine.execCorersv n v s
  | .slicersv n v => Sys2Proof.Machine.execSlicersv n v s
  | .registerWrite addr v => Sys2Proof.Machine.execRegisterWrite addr v s
  | .inboundRequest r => Sys2Proof.Machine.execInboundRequest r s
  | .translationProbe pkg addr => Sys2Proof.Machine.execTranslationProbe pkg addr s
  | .nack id reason => Sys2Proof.Machine.execNack id reason s
  | .storeAcknowledgement id => Sys2Proof.Machine.execStoreAcknowledgement id s
  | .remoteTimeout id => Sys2Proof.Machine.execRemoteTimeout id s
  | .planeFailure plane => Sys2Proof.Machine.execPlaneFailure plane s
  | .planeRemap failed target => Sys2Proof.Machine.execPlaneRemap failed target s
  | .mcastFlit src addr data => Sys2Proof.Machine.execMcastFlit src addr data s
  | .mcastReport id peer ok => Sys2Proof.Machine.execMcastReport id peer ok s
  | .collectiveChunk id off final data => Sys2Proof.Machine.execCollectiveChunk id off final data s
  | .abort id => Sys2Proof.Machine.execAbort id s
  | .scrub addr => Sys2Proof.Machine.execScrub addr s
  | .powerUp => Sys2Proof.Machine.execPowerUp s
  | .linkTrained => Sys2Proof.Machine.execLinkTrained s
  | .hostStore addr data => Sys2Proof.Machine.execHostStore addr data s
  | .throttle on cycles => Sys2Proof.Machine.execThrottle on cycles s
  | .softError at_ => Sys2Proof.Machine.execSoftError at_ s
  | .remoteResponse id data poisoned => Sys2Proof.Machine.execRemoteResponse id data poisoned s

end Sys2Proof.Machine
end

