-- ==== Sys2Proof/Machine/Late.lean ====
section
/-! DEFINITION. Accesses that are performed after later ones of their group (R51, R52, R59, log 64): a load, or an atomic
that is relaxed or a release, may be passed before it is performed. It is performed no later than the first instruction that R52
orders after it, that accesses the same unit, or that names its destination. -/

namespace Sys2Proof.Machine

/-! ### The word at SPC (R90, R149, R161) -/

/-- The words at SPC: one, or the two of an SLIT pair. An error names the word that faults. -/
def strandWords (s : State) : Except (MemFault × Dword) (Nat × Nat) :=
  match fetchScalar s s.spc 7 with
  | .error e => .error (e, s.spc)
  | .ok w =>
    if !isSlit w then .ok (w, 0)
    else match fetchScalar s (s.spc + 4) 8 with
      | .error e => .error (e, s.spc + 4)
      | .ok x => .ok (w, x)

/-! ### What an instruction is for the order (R51) -/

/-- The rows and columns of R51 and R52; `free` accesses nothing, and `wait` comes after every earlier access. -/
inductive OrderOp where
  | ld | ldc | st | at | aq | cmd | wt | free | wait
  deriving DecidableEq, Repr

/-- An atomic as R51 sorts it. At a scope that others within the package do not share an acquire counts as an atomic (R52). -/
def atomOp (r sc : Nat) : OrderOp := if hasRel r then .wait else if hasAcq r && decide (3 ≤ sc) then .aq else .at

/-- The column of an instruction. -/
def orderOp : Instr → OrderOp
  | .sld _ _ _ _ | .vld _ => .ld
  | .vldc _ => .ldc
  | .sst _ _ _ _ | .vst _ => .st
  | .satom _ _ _ _ r sc => atomOp r.toNat sc.toNat
  | .vatom f => atomOp (w2Ord f.w2) (w2Scope f.w2)
  | .sqout _ _ | .vqin _ => .cmd
  | .sbarWait _ _ _ => .wt
  | .sadd _ _ _ | .ssub _ _ _ | .smul _ _ _ | .smulh _ _ _ | .sdiv _ _ _ | .srem _ _ _ | .sand _ _ _ | .sor _ _ _
  | .sxor _ _ _ | .sshl _ _ _ | .sshr _ _ _ | .ssra _ _ _ | .smin _ _ _ | .smax _ _ _ | .sminu _ _ _ | .smaxu _ _ _
  | .sslt _ _ _ | .ssltu _ _ _ | .sseq _ _ _ | .sclz _ _ | .spopc _ _ | .ssel _ _ _ _ | .saddi _ _ _ | .sandi _ _ _
  | .sori _ _ _ | .sxori _ _ _ | .sshli _ _ _ | .sshri _ _ _ | .ssrai _ _ _ | .sbeq _ _ _ | .sbne _ _ _ | .sblt _ _ _
  | .sbge _ _ _ | .sbltu _ _ _ | .sbgeu _ _ _ | .sjmp _ | .snop => .free
  | .vadd _ | .vsub _ | .vmul _ | .vmulh _ | .vmad _ | .vmin _ | .vmax _ | .vabs _ | .vand _ | .vor _ | .vxor _ | .vnot _
  | .vshl _ | .vshr _ | .vsra _ | .vclz _ | .vpopc _ | .vbfe _ | .vbfi _ | .vsel _ | .vmov _ | .vfadd _ | .vfsub _
  | .vfmul _ | .vfma _ | .vfmin _ | .vfmax _ | .vcmp _ | .vfcmp _ | .pand _ | .por _ | .pxor _ | .pnot _ | .pset _
  | .pmov _ | .lnop _ | .phint _ => .free
  | _ => .wait

/-- R52: an operation may be performed before an earlier one of a kind, of another unit. -/
def mayPass : LateKind → OrderOp → Bool
  | .ld, o => o == .ld || o == .ldc || o == .aq || o == .cmd || o == .wt || o == .free
  | .ldc, o => o == .ld || o == .cmd || o == .wt || o == .free
  | .at, o => o != .wait

/-! ### The units that it accesses, and the registers that it names -/

/-- An access of this package's memory under coherence. -/
def latePlain (s : State) (a : Acc) : Bool := a.pkg == s.pkg && !a.reg && !a.needDir && a.coh != 2

/-- The units of a lane access, where all are such. -/
def laneUnits (x : Except State Env) (disp : LaneWord → Int) (need : Need) : Option (List Nat) :=
  match x with
  | .error _ => none
  | .ok e => match laneAccesses e (disp e.f) (e.ty.bits / 8) need 0 with
    | .error _ => none
    | .ok xs => if xs.all (fun x => latePlain e.s0 x.acc) then some (xs.map (fun x => x.acc.loc / 8)) else none

/-- The unit of a strand's access. -/
def strandUnit (s : State) (va : Dword) (n : Nat) (need : Need) : Option (List Nat) :=
  match groupAccess s va n need with
  | .ok a => if latePlain s a then some [a.loc / 8] else none
  | .error _ => none

/-- The units that an instruction accesses; none where it is not an access of such memory alone. -/
def unitsOf (s : State) : Instr → Option (List Nat)
  | .sld _ a z o => strandUnit s (s.reg a + o.signExtend 64) (sizeOf3 z) needR
  | .sst _ a z o => strandUnit s (s.reg a + o.signExtend 64) (sizeOf3 z) needW
  | .satom _ a _ _ _ _ => strandUnit s (s.reg a) 8 needRW
  | .vld f => laneUnits (envT s (.vld f) f memTy rBase (rTy .n32) rNo) (fun f => w2Imm f.w2) needR
  | .vldc f => laneUnits (envT s (.vldc f) f memTy rBase (rTy .n32) rNo) (fun f => w2Imm f.w2) needR
  | .vst f => laneUnits (envT s (.vst f) f memTy rBase (rTy .n32) rT) (fun f => w2Imm f.w2) needW
  | .vatom f => laneUnits (envT s (.vatom f) f (atomTy f) rBase (rTy .n32) rT) (fun f => w2Disp f.w2) needRW
  | _ => some []

/-- A scalar word names a register, in one of its register fields. -/
def wordNames (w r : Nat) : Bool := r != 0 && (bits w 25 20 == r || bits w 19 14 == r || bits w 13 8 == r)

/-- A lane word names a vector register, or one of its pair. -/
def laneNames (f : LaneWord) (r : Nat) : Bool :=
  let near (n : Nat) : Bool := decide (n ≤ r + 1) && decide (r ≤ n + 1)
  let sel (x : BitVec 10) : Bool := match Sel.ofNat x.toNat with
    | .vreg n => near n
    | _ => false
  near f.dst.toNat || sel f.opA || sel f.opB || sel f.opC

/-- R51, R52: the instruction must wait for an access of its group that is not performed yet. `names` says whether it names
the destination. -/
def waitsFor (s : State) (i : Instr) (names : Nat → Bool) (x : Late) : Bool :=
  !mayPass x.kind (orderOp i) || names x.dst || (match unitsOf s i with
    | some us => us.any x.units.contains
    | none => true)

/-- Accesses of a group that are not performed yet. -/
def lateOf (s : State) (g : Nat) : List Late := s.late.filter (fun x => x.grp == g)
def strandHeld (s : State) (i : Instr) (w : Nat) : Bool :=
  (lateOf s s.cur.grp).any (fun x => waitsFor s i (fun r => !x.lane && wordNames w r) x)
def laneHeld (s : State) (i : Instr) (f : LaneWord) : Bool :=
  (lateOf s s.cur.grp).any (fun x => waitsFor s i (fun r => x.lane && laneNames f r) x)

/-! ### Passing an access -/

/-- What such an access is: its kind, its destination and, for a release, the scope of its pub. -/
def lateKind : Instr → Option (LateKind × Nat × Option Nat)
  | .sld d _ _ _ => some (.ld, d.toNat, none)
  | .satom d _ _ _ r sc =>
    if hasAcq r.toNat then none else some (.at, d.toNat, if hasRel r.toNat then some sc.toNat else none)
  | .vld f => some (.ld, f.dst.toNat, none)
  | .vldc f => some (.ldc, f.dst.toNat, none)
  | .vatom f =>
    if hasAcq (w2Ord f.w2) then none
    else some (.at, f.dst.toNat, if hasRel (w2Ord f.w2) then some (w2Scope f.w2) else none)
  | _ => none

/-- The instruction runs to its end in a state: the strand, or the fragment, goes on behind it. -/
def endsAt (lane : Bool) (s t : State) : Bool :=
  let g := t.group s.cur.grp
  g.run == .resident && g.inh == s.grp.inh &&
  (if lane then (mapGet default g.frags s.cur.frag).pc == s.frag.pc + 1 else g.st.spc == s.next)
def completes (lane : Bool) (s : State) (i : Instr) : Bool :=
  match exec i s with
  | .next t => endsAt lane s t
  | _ => false

/-- Pass an access. A release makes its pub first (R43). -/
def passBy (lane : Bool) (s : State) (i : Instr) : State :=
  match lateKind i, unitsOf s i with
  | some (k, d, rel), some (u :: us) =>
    if !completes lane s i then s
    else
      let x : Late := ⟨s.cur.grp, s.cur.frag, lane, k, u :: us, d, i, s.grp⟩
      let s1 := match rel with
        | some sc => pub s s.cur.grp sc
        | none => s
      let s2 : State := { s1 with late := s1.late ++ [x] }
      if lane then s2.nextLane else s2.advance
  | _, _ => s

/-- Operands of a lane word that the pipe or a queue holds, and a result that goes to a latch. -/
def laneLoose (f : LaneWord) : Bool :=
  let held (x : BitVec 10) : Bool := match Sel.ofNat x.toNat with
    | .latch _ | .queue _ => true
    | _ => false
  f.nowb || f.lat != 0 || held f.opA || held f.opB || held f.opC

/-- A strand passes its next instruction, no block being outstanding. -/
def passStrand (s : State) (w x : Nat) : State :=
  match decodeScalar w x with
  | some i => if !s.grp.blocks.isEmpty || !s.grp.side.isEmpty || strandHeld s i w then s else passBy false s i
  | none => s

/-- A fragment passes its next instruction. -/
def passLane (s : State) (w : Nat) : State :=
  match decodeLane w with
  | some i => if laneLoose (laneFields w) || laneHeld s i (laneFields w) then s else passBy true s i
  | none => s

/-! ### Performing it -/

/-- The state in which a passed access is performed: its registers are those that it had. -/
def lateState (s : State) (x : Late) : State :=
  let g := s.group x.grp
  { s with cur := { s.cur with grp := x.grp, frag := x.frag } }.setGroup x.grp { x.snap with
    seen := g.seen
    touched := g.touched
    refStamp := g.refStamp
    codeRef := g.codeRef
    engw := g.engw
    vis := g.vis
    fences := g.fences }

/-- The group once the access has written its destination. -/
def lateGroup (x : Late) (now done : Group) : Group :=
  let g := { now with
    seen := done.seen
    touched := done.touched }
  if x.lane then
    let rs := (List.range 128).map (fun k => 64 * x.dst + k)
    let new := (done.blocks.headD default).wrote.take
      ((done.blocks.headD default).wrote.length - (x.snap.blocks.headD default).wrote.length)
    { g with
      vregs := rs.foldl (fun m k => if mapGet 0 done.vregs k != mapGet 0 x.snap.vregs k then mapSet 0 m k (mapGet 0 done.vregs k)
        else m) g.vregs
      blocks := match g.blocks with
        | b :: rest => { b with wrote := new ++ b.wrote } :: rest
        | [] => [] }
  else { g with st := g.st.set (BitVec.ofNat 6 x.dst) (done.st.get (BitVec.ofNat 6 x.dst)) }

/-- The access can be performed as its instruction says. -/
def canLand (s : State) (x : Late) : Bool :=
  let g := s.group x.grp
  g.run == .resident && g.inh == x.snap.inh && completes x.lane (lateState s x) x.instr

/-- A passed access is performed. -/
def land (s : State) (x : Late) : State :=
  if !canLand s x then s
  else match exec x.instr (lateState s x) with
    | .next t =>
      { t with
        cur := s.cur
        late := s.late.erase x }.setGroup x.grp (lateGroup x (s.group x.grp) (t.group x.grp))
    | _ => s

/-- A step may not take from a passed access what it needs: it is performed first. -/
def keepLate (s t : State) : State :=
  match s.late.find? (fun x => t.late.contains x && canLand s x && !canLand t x) with
  | some x => land { s with tick := s.tick + 1 } x
  | none => t

end Sys2Proof.Machine
end

