-- ==== Sys2Proof/Machine/Agents.lean ====
section
/-! DEFINITION. The agents: which one moves at a step (log 1), and what it is about to execute. A strand fetches at its
SPC (R86, R90, R152), a pipe chooses a fragment (R136-R140), the front end takes a queue's next entry (R401-R405), an
endpoint takes a command (R146). -/

namespace Sys2Proof.Machine

/-- What an agent does in its step: execute an instruction in a state, or leave the state alone or changed. -/
inductive Fetch where
  | run (i : Instr) (s : State)
  | stop (s : State)
  deriving DecidableEq, Repr

/-! ### Time and the choice of the agent (log 1) -/

/-- A step that comes from outside the module: the host leaves HRTH as it is (R371). -/
def outside (s : State) : Agent → Agent
  | .event (.registerWrite a v) => .event (.registerWrite a (if isHrth a then regGet s a else v))
  | a => a

/-- The agent that moves: the head of the agenda, else one chosen freely. -/
def nextAgent (s : State) : Agent :=
  match s.agenda with
  | a :: _ => a
  | [] => outside s (Config.freeAgent s.tick)

/-- R173: the clock after some cycles; it never decreases. -/
def clockAfter (c : Dword) (n : Nat) : Dword := BitVec.ofNat 64 (min (c.toNat + n) (2 ^ 64 - 1))

/-- A step begins: the tick advances, CLOCK counts (R173), and the management core posts a notification that an
uncorrectable error has left behind (R451). -/
def beginStep (s : State) : State :=
  let s : State := { s with
    tick := s.tick + 1
    agenda := s.agenda.tail
    clock := if s.caps = 0 then s.clock else clockAfter s.clock (Config.freeCycles s.tick) }
  match s.ueNotes with
  | 0 => s
  | n + 1 => notify { s with ueNotes := n } 64

/-! ### The strand (R90, R149, R161) -/

/-- What a fetch of code leaves in the translation caches. -/
def noteFetch (s : State) (va : Dword) (need : Need) : State :=
  match groupAccess s va 4 need with
  | .ok a => noteAccess s va a
  | .error _ => s

/-- The state in which a group's strand moves. -/
def onStrand (s : State) (g : Nat) : State := { s with cur := { s.cur with grp := g } }

/-- A word that is no instruction raises ILLEGAL_INSN (R9, R151). -/
def fetchStrand (s : State) (g : Nat) : Fetch :=
  let s := onStrand s g
  if decide (s.groups.length ≤ g) || s.grp.run != .resident then .stop s
  else match strandWords s with
    | .error (e, va) => .stop (strandFault s e va 3)
    | .ok (w, x) =>
      let s := noteFetch s s.spc needXS
      match decodeScalar w x with
      | some i => if strandHeld s i w then .stop s else .run i s
      | none => .stop (trapCode s 0x01)

/-- The strand passes its next instruction before that is performed (R51, R52). -/
def passFetch (s : State) (g : Nat) : State :=
  let s := onStrand s g
  if decide (s.groups.length ≤ g) || s.grp.run != .resident then s
  else match strandWords s with
    | .error _ => s
    | .ok (w, x) => passStrand (noteFetch s s.spc needXS) w x

/-! ### The pipes (R136-R140) -/

/-- The opcodes whose accesses and pushes wait for the side buffer (R133): VQIN, loads, stores and atomics, VSTQ, ESAV
and ELOD. -/
def heldOps : List Nat := [0xC8, 0xE0, 0xE1, 0xE2, 0xE3, 0xE5, 0xE6, 0xE7, 0x100, 0x101, 0x102]

/-- A step of the fragment's instruction that another package has not answered. -/
def awaitsRemote (s : State) : Bool :=
  let k := (laneKey s 0).toNat % 2 ^ 57
  s.remote.any (fun r => r.grp == s.cur.grp && bit r.pc.toNat 63 && r.pc.toNat % 2 ^ 57 == k && !r.op.isStore &&
    (r.state == .held || r.state == .sent))

/-- R205: a VQIN finds room, or has nothing to push, or traps. -/
def vqinReady (s : State) (f : LaneWord) : Bool :=
  let g := s.grp
  let q := f.dst.toNat % 16
  kindOf g q == 0 || (activeLanes s f).isEmpty || (!g.vqinOn q && g.pushRoom q 1)

/-- The instruction leaves the state as it is: it blocks. -/
def blocks (i : Instr) (s : State) : Bool :=
  match exec i s with
  | .next t => t == s
  | _ => false

/-- R138: a decoded instruction has what it needs, or traps. -/
def operandsReady (s : State) (w : Nat) (i : Instr) : Bool :=
  let f := laneFields w
  let op := w / 2 ^ 23 % 512
  if popsAtHand s (popsOf (specOf i) f) then
    !(heldOps.contains op && blockHeld s.grp) && !awaitsRemote s && (op != 0xC8 || vqinReady s f)
  else !blocks i s

/-- R138: the operands of a lane instruction are at hand, and nothing that it does would block. An instruction that
traps is ready. A VQIN that has begun needs room alone. -/
def instrReady (s : State) : Bool :=
  match s.grp.vqin.find? (fun p => p.1 == s.cur.frag) with
  | some p => s.grp.pushRoom p.2.1 1
  | none =>
    if (s.launchOf s.grp).lcount ≤ s.frag.pc.toNat then true
    else match fetchLane s s.frag.pc.toNat with
      | .error _ => true
      | .ok w => match decodeLane w with
        | none => true
        | some i => !laneHeld s i (laneFields w) && operandsReady s w i

/-- The state in which a fragment moves. -/
def onFrag (s : State) (g i : Nat) : State := { s with cur := { s.cur with grp := g, frag := i } }

/-- R138. A DRAIN leaves the group ready, and a handler holds its lane work (R254) but for a push under way. -/
def fragReady (s : State) (g i : Nat) : Bool :=
  let x := s.group g
  let f := mapGet default x.frags i
  x.run == .resident && !waitHolds s g && !x.blocks.isEmpty && f.smask != 0 && f.wait == 0 &&
  (!x.inh || x.vqin.any (fun p => p.1 == i)) && instrReady (onFrag s g i)

/-- The ready fragments of a group. -/
def readyOf (s : State) (g : Nat) : List Nat := (List.range 16).filter (fragReady s g)

/-- The ready fragments of a pipe, lower slot first, then lower split-table index. -/
def readyOn (s : State) (p : Nat) : List (Nat × Nat) :=
  let gs := (List.range s.groups.length).filter (fun g => (s.group g).run == .resident && pipeOf (s.group g) == p)
  (gs.mergeSort (fun a b => decide ((s.group a).slot ≤ (s.group b).slot))).flatMap
    (fun g => (readyOf s g).map (fun i => (g, i)))

def fragAge (s : State) (x : Nat × Nat) : Nat := (mapGet default (s.group x.1).frags x.2).age.toNat
def fragSpin (s : State) (x : Nat × Nat) : Nat := (mapGet default (s.group x.1).frags x.2).spin.toNat

/-- The greatest AGE, the earlier on a tie. -/
def oldest (s : State) : List (Nat × Nat) → Option (Nat × Nat)
  | [] => none
  | x :: xs => match oldest s xs with
    | some y => if fragAge s x < fragAge s y then some y else some x
    | none => some x

def setFragOf (s : State) (x : Nat × Nat) (f : Frag → Frag) : State :=
  let g := s.group x.1
  s.setGroup x.1 { g with frags := mapSet default g.frags x.2 (f (mapGet default g.frags x.2)) }

/-- A ready sibling of a fragment. -/
def hasSibling (rs : List (Nat × Nat)) (x : Nat × Nat) : Bool := rs.any (fun y => y.1 == x.1 && y.2 != x.2)

/-- R140: fragments of a pipe that have spun too long are left out of a selection in which a sibling is ready. -/
def spunOut (s : State) (p : Nat) (rs : List (Nat × Nat)) : List (Nat × Nat) :=
  let gs := (List.range s.groups.length).filter (fun g => (s.group g).run == .resident && pipeOf (s.group g) == p)
  (gs.flatMap (fun g => (List.range 16).map (fun i => (g, i)))).filter (fun x =>
    decide (2 ^ 16 ≤ fragSpin s x) && hasSibling rs x)

/-- R139: every ready fragment that is not chosen ages. -/
def ageOthers (s : State) (rs : List (Nat × Nat)) (x : Option (Nat × Nat)) : State :=
  (rs.filter (fun y => some y != x)).foldl (fun s y => setFragOf s y (fun f =>
    { f with age := if f.age = 0xFFFF then f.age else f.age + 1 })) s

/-- R139, R140: the selection of a pipe without a hold: what it chooses, if anything, and the state that it leaves. -/
def select139 (s : State) (p : Nat) (rs : List (Nat × Nat)) : Option (Nat × Nat) × State :=
  let out := spunOut s p rs
  let x := oldest s (rs.filter (fun x => !out.contains x))
  let s1 := out.foldl (fun s y => setFragOf s y (fun f => { f with spin := 0 })) s
  let s2 := ageOthers s1 rs x
  (x, match x with
    | some y => setFragOf s2 y (fun f => { f with
        age := 0
        spin := if hasSibling rs y then f.spin + 1 else 0 })
    | none => s2)

def setPipe (s : State) (p hold owner : Nat) : State :=
  { s with pipes := mapSet default s.pipes p { mapGet default s.pipes p with hold := hold, owner := owner } }

/-- R137: the choice of a pipe: the held group's, or that of R139, which may start a hold. A hold ends at a selection in
which its group has no ready fragment. -/
def choose (s : State) (p : Nat) : Option (Nat × Nat) × State :=
  let x := mapGet default s.pipes p
  let free : Option (Nat × Nat) × State :=
    let r := select139 s p (readyOn s p)
    match r.1 with
    | some y => (some y, setPipe (if x.owner == y.1 then r.2 else losePipe r.2 p) p 4 y.1)
    | none => (none, if x.hold = 0 then r.2 else setPipe r.2 p 0 x.owner)
  if x.hold = 0 || 4 ≤ x.hold then free
  else match oldest s ((readyOn s p).filter (fun y => y.1 == x.owner)) with
    | some y => (some y, setPipe s p (x.hold - 1) x.owner)
    | none => free

/-- A pipe issues: outside its code a fragment finds no instruction (R101, R119). The lanes of a word that is no
instruction are those that its fields would name (log 72). -/
def fetchPipe (s : State) (core k : Nat) : Fetch :=
  let p := 4 * core + k % 4
  match choose s p with
  | (none, s1) => .stop s1
  | (some x, s1) =>
    let s := onFrag s1 x.1 x.2
    let pc := s.frag.pc.toNat
    if (s.launchOf s.grp).lcount ≤ pc then .stop (laneTrapAll s default 0x01)
    else match fetchLane s pc with
      | .error (e, va) => .stop (laneFault s default e (wholeLane s default) 4 va)
      | .ok w =>
        let s := noteFetch s (laneAddr s pc) needXL
        match decodeLane w with
        | some i => .run i s
        | none => .stop (laneTrapAll s (laneFields w) 0x01)

/-- The pipe's choice passes its next instruction before that is performed (R51, R52). -/
def passPipe (s : State) (core k : Nat) : State :=
  match choose s (4 * core + k % 4) with
  | (none, _) => s
  | (some x, s1) =>
    let t := onFrag s1 x.1 x.2
    let pc := t.frag.pc.toNat
    if (t.launchOf t.grp).lcount ≤ pc then s
    else match fetchLane t pc with
      | .error _ => s
      | .ok w =>
        let u := passLane (noteFetch t (laneAddr t pc) needXL) w
        if u.late.length = s.late.length then s else u

/-! ### The front end (R401-R405, R320) -/

/-- The entry at HEAD can be consumed (R401). -/
def headHeld (s : State) (q : Nat) : Bool :=
  let i := qcbImage s q
  qcbHead i != qcbTail i && (bit (unitOf s (ringAddr i (qcbHead i) / 8)).toNat 63 ||
    (heldEntry s q (.ring (qcbHead i))).isSome)

/-- R402: the queue is ready. -/
def queueServed (s : State) (q : Nat) : Bool :=
  let i := qcbImage s q
  stage s == 6 && decide (q < 2 ^ 20) && qcbOk s q && qcbState i == 1 && (qcbKind i == 1 || qcbKind i == 3) &&
  !(s.queue q).waiting && !(s.queue q).parked && (!(s.queue q).frames.isEmpty || headHeld s q)

/-- R402: lanes give up the queues that are not ready, and those of which they have taken 64 packets. -/
def settleLanes (s : State) : State :=
  let ls := s.lanes.filter (fun l => queueServed s l.queue && decide (l.count < 64))
  { s with
    lanes := ls
    laneStep := s.laneStep.filter (fun q => ls.any (fun l => l.queue == q)) }

/-- A packet is well formed, as far as its entries show (R405). -/
def packetOk (s : State) (q : Nat) (e : Entry) : Bool :=
  match packetType e with
  | 0x00 | 0x01 => nopOk e
  | 0x02 => ibOk e
  | 0x03 => predOk e
  | 0x04 => loopOk e
  | 0x05 => waitmemOk e
  | 0x06 => writememOk e
  | 0x07 => signalOk e
  | 0x08 => feedOk e
  | 0x09 => match fetchEntry s q 1 with
    | .entry f => launchOk e f (qcbPrio (qcbImage s q))
    | .outside => false
    | _ => true
  | _ => false

/-- R402: the place of an entry's kind in the order of a step. -/
def entryRank (s : State) (q : Nat) (e : Entry) : Nat :=
  if qcbKind (qcbImage s q) == 3 then 0
  else if !packetOk s q e then 1
  else if packetType e == 0 then 11 else packetType e + 1

/-- The rank of the entry that a lane holds for its queue. Entries that a PRED passes over have none. -/
def laneRank (s : State) (q : Nat) : Option Nat :=
  if (s.queue q).skip != 0 then none
  else ((entryPlace s q 0).bind (heldEntry s q)).map (entryRank s q)

/-- R402: the queues that execute in a step: those whose entries' kind stands first. -/
def rankedFirst (s : State) : List Nat :=
  let rs := s.lanes.filterMap (fun l => (laneRank s l.queue).map (fun k => (l.queue, k)))
  (rs.filter (fun p => rs.all (fun r => decide (p.2 ≤ r.2)))).map Prod.fst

/-- The step under way, or the next one. -/
def stepQueues (s : State) : List Nat := if s.laneStep.isEmpty then rankedFirst s else s.laneStep

/-- The lane of a queue that executes in a step takes its turn. -/
def takeTurn (s : State) (q : Nat) : State := { s with laneStep := (stepQueues s).erase q }

/-- R402: a free lane takes the ready queue of highest PRIO, in turn by id. -/
def takeQueue (s : State) : State :=
  let s := settleLanes s
  let rs := (knownQueues s).filter (fun q => queueServed s q && !s.lanes.any (fun l => l.queue == q))
  let prio (q : Nat) : Nat := qcbPrio (qcbImage s q)
  let first := rs.filter (fun q => rs.all (fun r => decide (prio q ≤ prio r)))
  let turn (q : Nat) : Nat := (q + 2 ^ 20 - mapGet 0 s.laneNext (prio q)) % 2 ^ 20
  match first.find? (fun q => first.all (fun r => decide (turn q ≤ turn r))) with
  | some q => if 32 ≤ s.lanes.length then s else { s with
      lanes := s.lanes ++ [⟨q, 0⟩]
      laneNext := mapSet 0 s.laneNext (prio q) ((q + 1) % 2 ^ 20) }
  | none => s

/-! ### Fetch-ahead (R407) -/

/-- An address lies in a buffer that the queue executes, or that an IB names which it has fetched. -/
def bufferKnown (s : State) (q va : Nat) : Bool :=
  let within (a n : Nat) : Bool := decide (a ≤ va) && decide (va < a + 64 * n)
  va % 64 == 0 &&
  ((s.queue q).frames.any (fun f => match f with
    | .ib next left => within next left
    | .loop _ _ _ _ => false) ||
   (s.queue q).ahead.any (fun p => packetType p.2 == 0x02 && ibOk p.2 && within p.2.d1.toNat p.2.d2.toNat))

/-- The front end fetches an entry ahead: up to 4 KiB, from the ring below TAIL, or from a buffer. A fetch that does not
succeed leaves nothing. -/
def fetchEarly (s : State) (q : Nat) (ring : Bool) (at_ : Nat) : State :=
  let p : Place := if ring then .ring at_ else .buffer at_
  let known := if ring then decide (at_ < 2 ^ 32) && decide (m32 (at_ + 2 ^ 32 - qcbHead (qcbImage s q)) < 64) else bufferKnown s q at_
  if !queueServed s q || 64 ≤ (s.queue q).ahead.length || !known then s
  else match fetchPlace s q p with
    | .entry e => keepEntry s q p e
    | _ => s

/-- An entry that the front end holds is dropped. -/
def dropEarly (s : State) (q n : Nat) : State := s.setQueue q { s.queue q with ahead := (s.queue q).ahead.eraseIdx n }

/-- A packet whose entry is `e`; a LAUNCH takes the entry after it too, and may not cross the end of its buffer or
loop range. -/
def fetchPacket (s : State) (q : Nat) (e : Entry) : Fetch :=
  let go (e1 : Entry) : Fetch := match decodePacket e e1 with
    | some i => .run i s
    | none => .stop (queueFault s q 0x01 0)
  if packetType e == 0x09 then
    match fetchEntry s q 1 with
    | .entry e1 => go e1
    | .stop t => .stop t
    | .notYet => .stop s
    | .outside => .stop (queueFault s q 0x01 0)
  else go default

/-- Fetch an entry and keep it. -/
def fetchKeep (s : State) (q : Nat) (p : Place) : Fetch :=
  match fetchPlace s q p with
  | .entry e => .stop (keepEntry (dropRemote (dropRemote s 0) 1) q p e)
  | .stop t => .stop t
  | _ => .stop s

/-- The place of the entry that the queue has to fetch before it executes: the first, or a LAUNCH's second. -/
def missing (s : State) (q : Nat) : Option Place :=
  match entryPlace s q 0 with
  | none => none
  | some p => match heldEntry s q p with
    | none => some p
    | some e =>
      if packetType e == 0x09 && qcbKind (qcbImage s q) != 3 && (s.queue q).skip == 0 then
        (entryPlace s q 1).filter (fun p1 => (heldEntry s q p1).isNone)
      else none

/-- R402: a lane fetches the entry that its queue is to execute, and executes it in the step in which its kind stands
first. -/
def fetchFront (s : State) (q : Nat) : Fetch :=
  let s := settleLanes (onQueue s q)
  if !s.lanes.any (fun l => l.queue == q) then .stop s
  else match missing s q with
  | some p => fetchKeep s q p
  | none => match (entryPlace s q 0).bind (heldEntry s q) with
    | none => .stop s
    | some e =>
      if (s.queue q).skip == 0 && !(stepQueues s).contains q then .stop { s with laneStep := stepQueues s }
      else
      let s := if (s.queue q).skip == 0 then takeTurn s q else s
      if qcbKind (qcbImage s q) == 3 then
        match decodeRequest e with
        | some i => .run i s
        | none => match badRequest e s with
          | .next t => .stop t
          | _ => .stop s
      else match (s.queue q).skip with
        | 0 => fetchPacket s q e
        | n + 1 => .stop (passOver (s.setQueue q { s.queue q with skip := n }) q 1)

/-! ### Engine endpoints (R146, R322, R323) -/

/-- R146, R322, R323: the endpoint accepts a further command of the register: there is room for the status word of each
that it has accepted. -/
def acceptsMore (s : State) (g q : Nat) : Bool :=
  let x := s.group g
  let same (c : Cmd) : Bool := c.eng == kindOf x q && c.unit == qbindUnit x q
  decide ((mapGet [] x.popq q).length + (s.cmds.filter (fun c => c.grp == g && c.qreg == q)).length < 80) &&
  !s.cmds.any (fun c => same c && c.state == .waiting) &&
  decide ((s.cmds.filter (fun c => same c && (match c.state with
    | .deferred _ => true
    | _ => false))).length < 32)

def fetchEngine (s : State) (g q : Nat) : Fetch :=
  let s : State := { s with cur := { s.cur with grp := g, qreg := q } }
  let x := s.grp
  match mapGet [] x.pushq q with
  | [] => .stop s
  | w :: ws =>
    if decide (s.groups.length ≤ g) || x.run != .resident || kindOf x q == 0 || !acceptsMore s g q then .stop s
    else if !(engineOps (kindOf x q)).contains (cmdOpc w) then
      match submit s [w] (fun s _ => s) with
      | .next t => .stop t
      | _ => .stop s
    else
      let n := (cmdLength (cmdOpc w)).getD 0
      if (w :: ws).length < n then .stop s
      else match decodeCommand ((w :: ws).take n) with
        | some i => .run i s
        | none => .stop s

/-! ### Steps of the machine that no word encodes -/

/-- The instructions that are steps of the machine. -/
def isEvent : Instr → Bool
  | .sideBufferRelease _ | .residency _ | .quantumExpiry _ | .pretmoExpiry _ | .saveCompletion _ | .matrixOperation _
  | .matrixCompletion _ | .engineAcceptance _ | .copyCompletion _ | .gatherCompletion _ | .ngemvCompletion _
  | .broadcast _ _ | .expand _ | .visit _ _ | .reply _ _ | .endOfExpansion _ | .directoryQuery _ _ | .copyUnit _
  | .switch _ | .invalidation _ _ | .acknowledge _ _ | .relay _ _ | .redirect _ | .collectiveCompletion _
  | .waitmemReread _ | .feedRoom _ | .tlbinvCompletion _ | .pgattrTransition _ | .tailWrite _ _ | .qcbStateRun _
  | .wpopReread _ | .tdetSecondSample _ | .faultQueueHead _ _ | .windowEnd _ | .go | .fego | .rst | .raddr _
  | .reportDone | .plimit _ | .killctx _ | .hostResume _ | .corersv _ _ | .slicersv _ _ | .registerWrite _ _
  | .inboundRequest _ | .translationProbe _ _ | .nack _ _ | .storeAcknowledgement _ | .remoteTimeout _
  | .planeFailure _ | .planeRemap _ _ | .mcastFlit _ _ _ | .mcastReport _ _ _ | .collectiveChunk _ _ _ _
  | .abort _
  | .scrub _ | .powerUp | .linkTrained | .hostStore _ _ | .throttle _ _ | .softError _ | .remoteResponse _ _ _ => true
  | _ => false

/-- The address of a counter of a stack (R371). -/
def stackReg (stack off : Nat) : Nat := 0x3F0000200000 + 0x100 * stack + off
def addReg (s : State) (a n : Nat) : State := regSet s a (regGet s a + BitVec.ofNat 64 n)

/-- R370: an activation of a row (bank, row) of a stack is counted, and the row captured where its count reaches HRTH
and its pseudo-channel has a slot free. Bank and row numbers are the implementation's; a bank's pseudo-channel is
its number modulo 64. -/
def activate (s : State) (stack bank row : Nat) : State :=
  let key := 2 ^ 40 * stack + 2 ^ 20 * bank + row
  if !bit s.caps.toNat 2 || decide (24 ≤ stack) || decide (2 ^ 20 ≤ bank) || decide (2 ^ 20 ≤ row) ||
      s.captured.contains (stack, key) then s
  else
    let n := mapGet 0 s.rowHits key + 1
    let s := { s with rowHits := mapSet 0 s.rowHits key n }
    if n != (regGet s (stackReg stack 0x30)).toNat % 2 ^ 32 then s
    else if 64 ≤ (s.captured.filter (fun p => p.1 == stack && p.2 / 2 ^ 20 % 64 == bank % 64)).length then
      addReg s (stackReg stack 0x18) 1
    else addReg { s with captured := (stack, key) :: s.captured } (stackReg stack 0x10) 1

/-! ### The cache layer and the write queues (R367, R368, R371) -/

/-- An access of a line reaches the cache layer of its stack: a hit, or a miss that allocates the line and, where the
layer holds its 2^24 lines, drops the one that has not been used for longest. -/
def cacheTouch (s : State) (line : Nat) (write : Bool) : State :=
  let stack (l : Nat) : Nat := l / 2 ^ 29
  let rest := s.cacheLines.filter (fun l => l.1 != line)
  if !bit s.caps.toNat 2 then s
  else match s.cacheLines.find? (fun l => l.1 == line) with
    | some l => addReg { s with cacheLines := (line, l.2 || write) :: rest } (stackReg (stack line) 0) 1
    | none =>
      let mine := rest.filter (fun l => stack l.1 == stack line)
      let kept := match mine.getLast? with
        | some l => if mine.length < 2 ^ 24 then rest else rest.erase l
        | none => rest
      addReg { s with cacheLines := (line, write) :: kept } (stackReg (stack line) 8) 1

/-- The write queues without the writes to a block. -/
def mergeBlock (s : State) (block : Nat) : State :=
  { s with writeQueue := s.writeQueue.filter (fun w => w.1 != block) }

/-- R368: a read of bytes of a block reaches a base die. It is forwarded where the newest queued write that it overlaps enables
every byte of it; where it overlaps writes in any other way, they merge first. -/
def baseRead (s : State) (block m : Nat) : State :=
  let st := block / 2 ^ 30
  let s1 := cacheTouch s (block / 2) false
  match (s.writeQueue.filter (fun w => w.1 == block && w.2 &&& m != 0)).getLast? with
  | none => s1
  | some w =>
    if w.2 &&& m == m then addReg s1 (stackReg st 0x20) 1 else addReg (mergeBlock s1 block) (stackReg st 0x28) 1

/-- The pseudo-channel of a block, with its stack. -/
def channel (block : Nat) : Nat × Nat := (block / 2 ^ 30, Config.channelOf block % 64)

/-- R368: a write reaches a base die. It takes an entry of its pseudo-channel's queue; a full queue's oldest merges. -/
def baseWrite (s : State) (block m : Nat) : State :=
  let mine := s.writeQueue.filter (fun w => channel w.1 == channel block)
  let kept := match mine with
    | w :: _ => if mine.length < 32 then s.writeQueue else s.writeQueue.erase w
    | [] => s.writeQueue
  cacheTouch { s with writeQueue := kept ++ [(block, m)] } (block / 2) true

/-- A read of HBM that no instruction orders: `n` bytes of one block. -/
def freeRead (s : State) (loc n : Nat) : State :=
  if hbmBacked loc && decide (0 < n) && decide (loc % 64 + n ≤ 64) then baseRead s (loc / 64) (byteEnables loc n) else s

/-- The accesses of a block arrive in their order. -/
def execBaseOp (s : State) (n : Nat) : State :=
  match s.baseOps[n]? with
  | some o =>
    if (s.baseOps.take n).any (fun x => x.block == o.block) then s
    else
      let t : State := { s with baseOps := s.baseOps.eraseIdx n }
      if o.write then baseWrite t o.block o.mask else baseRead t o.block o.mask
  | none => s

/-- A cache keeps an access back: a read is served there; a write goes out with the next one of its block. -/
def keepBaseOp (s : State) (n : Nat) : State :=
  match s.baseOps[n]? with
  | some o =>
    let rest := s.baseOps.eraseIdx n
    if o.sure then s
    else if !o.write then { s with baseOps := rest }
    else match (rest.drop n).find? (fun x => x.block == o.block && x.write && !x.sure) with
      | some x =>
        let y : BaseOp := { x with mask := x.mask ||| o.mask }
        { s with baseOps := rest.take n ++ (rest.drop n).map (fun z => if z == x then y else z) }
      | none => s
  | none => s

/-- The oldest queued write to a block merges into the array. -/
def baseMerge (s : State) (block : Nat) : State :=
  match s.writeQueue.find? (fun w => w.1 == block) with
  | some w => { s with writeQueue := s.writeQueue.erase w }
  | none => s

/-! ### Losses of lines and translations -/

/-- R32, R52: an L1 loses a line, whose dirty bytes it writes back; and some of the stores that wait for the line on a
hardware-coherent page are performed. -/
def evictLine (s : State) (core line : Nat) : State :=
  let s1 := performDirty s (fun d => d.core == core && d.unit / 16 == line && (!d.hc || s.free (6000 + d.stamp) % 2 == 0))
  { s1 with cpLines := s1.cpLines.filter (fun x => !(x.core == core && x.line == line)) }

/-- A walk cache loses an entry; and what was heard of a page of another package's directory is asked again (R332). -/
def dropWalk (s : State) (die n : Nat) : State :=
  { s with
    walks := s.walks.filter (fun w => !(w.die == die && w.pre == n))
    badGpns := s.badGpns.filter (fun p => p.2 != n) }

/-- What the moving agent is about to do. -/
def fetchAgent (s : State) : Agent → Fetch
  | .strand g => fetchStrand s g
  | .pipe c p => fetchPipe s c p
  | .passStrand g => .stop (passFetch s g)
  | .passPipe c p => .stop (passPipe s c p)
  | .land n => .stop (match s.late[n]? with
    | some x => land s x
    | none => s)
  | .front q => fetchFront s q
  | .frontTake => .stop (if stage s == 6 then takeQueue s else s)
  | .fetchAhead q r a => .stop (fetchEarly (onQueue s q) q r a)
  | .dropAhead q n => .stop (dropEarly s q n)
  | .engine g q => fetchEngine s g q
  | .chunkWaits id off f d => .stop (chunkArrives s (chunkOf id off f d))
  | .chunkNext d => .stop (nextChunk s d)
  | .event i => if isEvent i then .run i s else .stop s
  | .evict c l => .stop (evictLine s c l)
  | .qcbWriteback q => .stop (writebackQcb s q)
  | .qcbFill q => .stop (if stage s == 6 && decide (q < 2 ^ 20) then qcbPut s q (qcbImage s q) else s)
  | .tlbDrop c n => .stop { s with tlb := s.tlb.filter (fun t => !(t.core == c && t.vpn == n)) }
  | .walkDrop d n => .stop (dropWalk s d n)
  | .rowActivate st b r => .stop (liveOr s (activate s st b r))
  | .baseRead l n => .stop (liveOr s (freeRead s l n))
  | .baseOp n => .stop (liveOr s (execBaseOp s n))
  | .baseKeep n => .stop (liveOr s (keepBaseOp s n))
  | .baseMerge b => .stop (liveOr s (baseMerge s b))
  | .cacheDrop l => .stop (liveOr s { s with cacheLines := s.cacheLines.filter (fun x => x.1 != l) })
  | .measure => .stop (regSet s (mgmtBase + 0x5008) (Config.freeWord s.tick 61 &&& maskBits 31 0))
  | .corrected n => .stop (liveOr s (addReg s (mgmtBase + 0x5018) n))

/-! ### A program placed from outside (log 14) -/

/-- The launch that `State.withFetchWord` places: one privileged team of one group, ASID 1, lane code at 4 MiB. -/
def placedLaunch : Launch := { (default : Launch) with
  asid := 1
  priv := true
  ltag := 1
  gx := 1
  gy := 1
  gz := 1
  started := [0]
  sentry := 0x400000
  lbase := 0x400000
  lstore := 4096
  vregs := 32
  width := 16
  teamSize := 1
  lcount := 4
  gbase := 0x1000000
  gcount := 1
  tbase := 0x2000000
  tcount := 1 }

/-- Its team, as the `li`th launch's. -/
def placedTeam (li : Nat) : Team := { (default : Team) with launch := li }

/-- Its group, resident on core 0 with its strand at 4 MiB. -/
def placedGroup (li : Nat) : Group := { (default : Group) with
  launch := li
  run := .resident
  st := ⟨0x400000, [], 0, [], []⟩ }

/-- The same group with a block that starts at lane instruction 0. -/
def placedBlock (li : Nat) : Group := { placedGroup li with
  blocks := [{ (default : Block) with ckpt := ⟨0x400004, [], 0, [], []⟩ }]
  frags := [(0, firstFrag 16 0 0)]
  act := 2 ^ 16 - 1 }

/-- Tables that map the first GiB of ASID 1 to itself, and the words of code at 4 MiB. -/
def placedMem (m : Memory) (w : Nat) : Memory :=
  memWrite (memWrite (memWrite (memWrite m 0x10000 8 0x11001) 0x11000 8 0x12001) 0x12000 8 0xF9) 0x400000 12 w

/-- Lay out an instruction, and let its group's strand, or pipe 0 for lane code, move next. -/
def placeCode (s : State) (lane : Bool) (w : Nat) : State :=
  let li := s.launches.length
  { s with
    mem := placedMem s.mem w
    regs := mapSet 0 s.regs (regBase / 8 + 1) (BitVec.ofNat 64 (2 ^ 62 + 0x10000))
    launches := s.launches ++ [placedLaunch]
    teams := s.teams ++ [placedTeam li]
    groups := s.groups ++ [if lane then placedBlock li else placedGroup li]
    late := []
    agenda := [if lane then .pipe 0 0 else .strand s.groups.length] }

end Sys2Proof.Machine
end

