-- ==== Sys2Proof/Machine/Step.lean ====
section
/-! DEFINITION. One step of the module: the agent that moves, and what it executes (log 1). -/

namespace Sys2Proof.Machine

/-- The agent's own step. -/
def agentStep (s : State) : Host.Outcome State Fault Refusal :=
  match fetchAgent (beginStep s) (nextAgent s) with
  | .run i t => exec i t
  | .stop t => .next t

/-- One step. An access that has been passed and could no longer be performed behind it is performed instead (R51). -/
def step (s : State) : Host.Outcome State Fault Refusal :=
  if s.late.isEmpty then agentStep s
  else match agentStep s with
    | .next t => .next (keepLate s t)
    | r => r

/-- A state in which the very next step runs the instruction whose bits are given: it stands for the load of a
program from outside (log 14). -/
def State.withFetchWord (s : State) (nbits w : Nat) : State := placeCode s (nbits == 96) w

end Sys2Proof.Machine
end

