-- ==== Sys2Proof/Safety.lean ====
section
/-! DEFINITION. What counts as a safe run: the conditions under which an instruction acts, what it leaves alone, and the
invariant that every step keeps. -/

namespace Sys2Proof.Machine

/-! ### When an instruction acts -/

/-- A strand instruction over the registers named can act: its group exists, and no register is pending (R150). -/
structure Free (s : State) (rs : List (BitVec 6)) : Prop where
  live : s.cur.grp < s.groups.length
  ready : s.stalls rs = false

/-- A serialising strand instruction can act: everything before it has committed (R132). -/
structure Committed (s : State) : Prop where
  live : s.cur.grp < s.groups.length
  quiet : s.grp.quiet = true

/-- The state in which the record of a trap is stored: the answers of other packages' directories that the group has
found unusable are forgotten (R332), and a lane trap has rolled the strand back (R135, R254). -/
def trapState (s : State) (r : Trap) : State :=
  let s0 := forgetBad s s.cur.grp
  if r.source = 1 then rollbackGroup s0 s0.cur.grp else s0

/-- The trap as its record has it: the SPC of a lane trap is the strand's after the rollback. -/
def reported (s : State) (r : Trap) : Trap :=
  if r.source = 1 then { r with spc := (trapState s r).spc } else r

/-- A trap `r` of the moving group is delivered to its handler: the group is outside its handler, TRAPVEC and TRAPREC name
one, and the record is stored, which leaves the state `s'` (R254). -/
structure Delivered (s : State) (r : Trap) (s' : State) : Prop where
  live : s'.cur.grp < s'.groups.length
  outside : s.grp.inh = false
  vector : bits s.grp.trapvec.toNat 53 2 ≠ 0
  record : bits s.grp.traprec.toNat 53 7 ≠ 0
  tested : recordOk (trapState s r) s.grp.recAddr = true
  here : recordDir s s.grp.recAddr = none ∧ recordDir (trapState s r) s.grp.recAddr = none
  stored : storeDwords (trapState s r) s.grp.recAddr ((reported s r).dwords (trapState s r).grp.st) = some s'

/-- The bytes of memory after a store of the low `size` bytes of a value at a location, lowest first (R7); every other
byte is as it was. -/
def Stores (m m' : Memory) (loc size : Nat) (v : Dword) : Prop :=
  ∀ a, memGet m' a = if loc ≤ a ∧ a < loc + size then BitVec.ofNat 8 (v.toNat / 256 ^ (a - loc)) else memGet m a

/-- An access that goes to memory of this package by the plainest way: no register, no page of the migration directory,
no page that moves. -/
structure Plain (s : State) (x : Acc) : Prop where
  package : x.pkg = s.pkg
  memory : x.reg = false
  fixed : x.gpn = none
  known : x.needDir = false
  placed : x.loc < migBase
  still : dualTarget s (x.loc / 8) = none

/-! ### Frames -/

/-- Nothing has changed but the moving group. -/
structure GroupOnly (s t : State) : Prop where
  rest : t = s.setGrp t.grp
  bytes : ∀ a, memGet t.mem a = memGet s.mem a

/-- Nothing has changed but SPC, the strand registers named, and the marks of the registers that the strand has written
behind an outstanding block (R150). -/
structure StrandFrame (ds : List (BitVec 6)) (s t : State) : Prop where
  rest : t = s.setGrp { s.grp with st := { s.grp.st with
    spc := t.spc
    regs := t.grp.st.regs
    later := t.grp.st.later } }
  marks : t.grp.st.later.length = s.grp.st.later.length
  regs : ∀ r, r ∉ ds → t.reg r = s.reg r
  bytes : ∀ a, memGet t.mem a = memGet s.mem a

/-- A lane instruction has changed nothing of its group but what is named by the arguments: fragments, vector registers,
predicates, FPFLAGS and queue words, with those that it had popped while it waited (R183). The latches of its pipe may
change. -/
structure LaneFrame (s t : State) : Prop where
  rest : { t with groups := s.groups, pipes := s.pipes } = s
  others : ∀ i, i ≠ s.cur.grp → t.group i = s.group i
  group : { t.grp with
      frags := s.grp.frags
      vregs := s.grp.vregs
      preds := s.grp.preds
      fpflags := s.grp.fpflags
      popq := s.grp.popq
      taken := s.grp.taken } = s.grp
  frags : ∀ i, i ≠ s.cur.frag → mapGet default t.grp.frags i = mapGet default s.grp.frags i
  bytes : ∀ a, memGet t.mem a = memGet s.mem a

/-! ### The invariant -/

/-- Memory keeps its canonical form; CAPS is 0 or tells the part (R3); every older value of a unit, and every store that
waits, was stamped no later than now (R36), and no write was published later than now. -/
structure Inv (s : State) : Prop where
  memory : s.mem.wf = true
  caps : s.caps = 0 ∨ s.caps = capsOf s.variant
  history : ∀ h ∈ s.hist, h.stamp ≤ s.ord ∧ h.shut ≤ s.ord
  stores : ∀ d ∈ s.dirty, d.stamp ≤ s.ord

end Sys2Proof.Machine
end

