-- ==== Sys2Proof/Certificates/Slice0/Obligations.lean ====
section
/-! DEFINITION. The statements for the provers, in the order of the specification's files. Tables of results come first in
each part: they say, from the rules, what an instruction writes. -/

namespace Sys2Proof.Claims

open Sys2Proof.Machine

/-! ### Encoding and decoding -/

/-- SADD s3, s1, s2 and SSEL s3, s1, s2, s9 (R153), SBNE s5, s0, back 4 words (R158), SRET s63 (R160), SJTAB s4 (R164),
SPAD with label 0x2A (R164). -/
def sampleWords : List (Nat × Instr) :=
  [(0x04304200, .sadd 3 1 2), (0x04304249, .ssel 3 1 2 9), (0x34503FFC, .sbne 5 0 0x3FFC), (0x501FC000, .sret 63),
   (0x5021003F, .sjtab 4 63), (0x5030002A, .spad 0x2A)]

/-! ### Strand results -/

/-- R153: what a register instruction writes: its destination, the registers it reads, and the value. -/
def aluResult : Instr → Option (BitVec 6 × List (BitVec 6) × (State → Dword))
  | .sadd d a b => some (d, [a, b], fun s => BitVec.ofNat 64 ((s.reg a).toNat + (s.reg b).toNat))
  | .ssub d a b => some (d, [a, b], fun s => BitVec.ofInt 64 ((s.reg a).toInt - (s.reg b).toInt))
  | .smul d a b => some (d, [a, b], fun s => BitVec.ofInt 64 ((s.reg a).toInt * (s.reg b).toInt))
  | .smulh d a b => some (d, [a, b], fun s => BitVec.ofInt 64 ((s.reg a).toInt * (s.reg b).toInt / 2 ^ 64))
  | .sand d a b => some (d, [a, b], fun s => BitVec.ofNat 64 ((s.reg a).toNat &&& (s.reg b).toNat))
  | .sor d a b => some (d, [a, b], fun s => BitVec.ofNat 64 ((s.reg a).toNat ||| (s.reg b).toNat))
  | .sxor d a b => some (d, [a, b], fun s => BitVec.ofNat 64 ((s.reg a).toNat ^^^ (s.reg b).toNat))
  | .sshl d a b => some (d, [a, b], fun s => BitVec.ofNat 64 ((s.reg a).toNat * 2 ^ ((s.reg b).toNat % 64)))
  | .sshr d a b => some (d, [a, b], fun s => BitVec.ofNat 64 ((s.reg a).toNat / 2 ^ ((s.reg b).toNat % 64)))
  | .ssra d a b => some (d, [a, b], fun s => BitVec.ofInt 64 ((s.reg a).toInt / 2 ^ ((s.reg b).toNat % 64)))
  | .smin d a b => some (d, [a, b], fun s => BitVec.ofInt 64 (min (s.reg a).toInt (s.reg b).toInt))
  | .smax d a b => some (d, [a, b], fun s => BitVec.ofInt 64 (max (s.reg a).toInt (s.reg b).toInt))
  | .sminu d a b => some (d, [a, b], fun s => BitVec.ofNat 64 (min (s.reg a).toNat (s.reg b).toNat))
  | .smaxu d a b => some (d, [a, b], fun s => BitVec.ofNat 64 (max (s.reg a).toNat (s.reg b).toNat))
  | .sslt d a b => some (d, [a, b], fun s => if (s.reg a).toInt < (s.reg b).toInt then 1 else 0)
  | .ssltu d a b => some (d, [a, b], fun s => if (s.reg a).toNat < (s.reg b).toNat then 1 else 0)
  | .sseq d a b => some (d, [a, b], fun s => if s.reg a = s.reg b then 1 else 0)
  | .sclz d a => some (d, [a], fun s =>
      BitVec.ofNat 64 ((List.range 64).takeWhile (fun i => !(s.reg a).getLsbD (63 - i))).length)
  | .spopc d a => some (d, [a], fun s => BitVec.ofNat 64 ((List.range 64).countP (fun i => (s.reg a).getLsbD i)))
  | .ssel d a b c => some (d, [a, b, c], fun s => if s.reg c ≠ 0 then s.reg a else s.reg b)
  | _ => none

/-- R155-R157: what an immediate instruction writes, and the bytes of its words: 8 for an SLIT pair, whose immediate
has the SLIT's 26 bits above the follower's 14. -/
def immResult : Instr → Option (BitVec 6 × BitVec 6 × Dword × (State → Dword))
  | .saddi d a i => some (d, a, 4, fun s => BitVec.ofInt 64 ((s.reg a).toInt + i.toInt))
  | .sandi d a i => some (d, a, 4, fun s => s.reg a &&& BitVec.ofInt 64 i.toInt)
  | .sori d a i => some (d, a, 4, fun s => s.reg a ||| BitVec.ofInt 64 i.toInt)
  | .sxori d a i => some (d, a, 4, fun s => s.reg a ^^^ BitVec.ofInt 64 i.toInt)
  | .sshli d a n => some (d, a, 4, fun s => BitVec.ofNat 64 ((s.reg a).toNat * 2 ^ n.toNat))
  | .sshri d a n => some (d, a, 4, fun s => BitVec.ofNat 64 ((s.reg a).toNat / 2 ^ n.toNat))
  | .ssrai d a n => some (d, a, 4, fun s => BitVec.ofInt 64 ((s.reg a).toInt / 2 ^ n.toNat))
  | .slit l (.addi d a i) => some (d, a, 8, fun s => BitVec.ofInt 64 ((s.reg a).toInt + (l ++ i).toInt))
  | .slit l (.andi d a i) => some (d, a, 8, fun s => s.reg a &&& BitVec.ofInt 64 (l ++ i).toInt)
  | .slit l (.ori d a i) => some (d, a, 8, fun s => s.reg a ||| BitVec.ofInt 64 (l ++ i).toInt)
  | .slit l (.xori d a i) => some (d, a, 8, fun s => s.reg a ^^^ BitVec.ofInt 64 (l ++ i).toInt)
  | _ => none

/-- R158: when a conditional branch is taken. -/
def taken : BranchCond → Dword → Dword → Bool
  | .eq, x, y => decide (x = y)
  | .ne, x, y => decide (x ≠ y)
  | .lt, x, y => decide (x.toInt < y.toInt)
  | .ge, x, y => decide (y.toInt ≤ x.toInt)
  | .ltu, x, y => decide (x.toNat < y.toNat)
  | .geu, x, y => decide (y.toNat ≤ x.toNat)

/-- R158: a branch's condition, operands, word offset and bytes. -/
def branchParts : Instr → Option (BranchCond × BitVec 6 × BitVec 6 × Int × Dword)
  | .sbeq a b o => some (.eq, a, b, o.toInt, 4)
  | .sbne a b o => some (.ne, a, b, o.toInt, 4)
  | .sblt a b o => some (.lt, a, b, o.toInt, 4)
  | .sbge a b o => some (.ge, a, b, o.toInt, 4)
  | .sbltu a b o => some (.ltu, a, b, o.toInt, 4)
  | .sbgeu a b o => some (.geu, a, b, o.toInt, 4)
  | .slit l (.branch c a b o) => some (c, a, b, (l ++ o).toInt, 8)
  | _ => none

/-- What the transfers and the instructions that only advance write: a link register with its value, and the next
SPC. -/
def jumpResult : Instr → Option (List (BitVec 6) × List (BitVec 6) × (State → Dword))
  | .sjmp o => some ([], [], fun s => s.spc + 4 + BitVec.ofInt 64 (4 * o.toInt))
  | .scall d o => some ([d], [], fun s => s.spc + 4 + BitVec.ofInt 64 (4 * o.toInt))
  | .snop => some ([], [], fun s => s.spc + 4)
  | .spad _ => some ([], [], fun s => s.spc + 4)
  | .spref _ a _ => some ([], [a], fun s => s.spc + 4)
  | .slit _ (.pref _ a _) => some ([], [a], fun s => s.spc + 8)
  | _ => none

end Sys2Proof.Claims

open Sys2Proof Sys2Proof.Machine Sys2Proof.Claims

/-! ## Encoding (R88-R105) -/

/-- The words that the specification writes out for R153, R158, R160 and R164 decode to what they stand for. -/
def Obligations.SampleWordsDecode : Prop :=
  ∀ p ∈ sampleWords, decodeScalar p.1 0 = some p.2

/-- R88-R95: every well-formed scalar instruction, with every operand at every value its fields allow, is what its encoded
words decode to. R101: no two scalar words decode to one instruction, so no bit of a word is ignored; and what decodes is
well formed but for an SLIT whose follower takes no literal. -/
def Obligations.ScalarEncoding : Prop :=
  (∀ (i : Instr) (w : Nat), i.wellFormed = true → encodeScalar i = some w →
     decodeScalar (w % 2 ^ 32) (w / 2 ^ 32) = some i) ∧
  (∀ (w x : Nat) (i : Instr), w < 2 ^ 32 → x < 2 ^ 32 → decodeScalar w x = some i →
     (i.wellFormed = true ∨ ∃ l u, i = .slit l (.other u)) ∧
     encodeScalar i = some (if isSlit w then w + x * 2 ^ 32 else w))

/-- R96-R101: the same for lane instructions: what is encoded decodes to itself, and no other 96 bits decode to it. R352,
R378, R431, R436: a command is what its OPC names, with as many words as that has. R404, R405: a packet is what its TYPE
names, LAUNCH with the entry after it. R320: a translation request is what its OP names. -/
def Obligations.LaneDecodeEncode : Prop :=
  (∀ (i : Instr) (r : LaneSpec) (f : LaneWord), laneSpec i = some (r, f) → i.wellFormed = true →
    decodeLane (encodeLane r.op f) = some i) ∧
  (∀ (w : Nat) (i : Instr), w < 2 ^ 96 → decodeLane w = some i →
    ∃ r f, laneSpec i = some (r, f) ∧ i.wellFormed = true ∧ encodeLane r.op f = w) ∧
  (∀ w a b c d e f : Dword, let k := w.toNat / 2 ^ 56
    (k = 0x01 → decodeCommand [w, a, b, c, d] = some (.copy w a b c d)) ∧
    (k = 0x10 → decodeCommand [w, a, b, c, d, e, f] = some (.bag w a b c d e f)) ∧
    (k = 0x11 → decodeCommand [w, a, b, c, d, e, f] = some (.upd w a b c d e f)) ∧
    (k = 0x20 → decodeCommand [w, a, b, c, d, e, f] = some (.ngemv w a b c d e f)) ∧
    (k = 0x30 → decodeCommand [w, a, b, c, d, e] = some (.srch w a b c d e)) ∧
    (k = 0x40 → decodeCommand [w, a, b, c, d] = some (.allred w a b c d)) ∧
    (k = 0x41 → decodeCommand [w, a, b, c, d] = some (.redscat w a b c d)) ∧
    (k = 0x42 → decodeCommand [w, a, b, c, d] = some (.allgath w a b c d)) ∧
    (k = 0x43 → decodeCommand [w, a, b, c, d] = some (.bcast w a b c d)) ∧
    (k = 0x44 → decodeCommand [w, a, b, c, d] = some (.cbar w a b c d)) ∧
    (k = 0x45 → decodeCommand [w, a, b, c, d, e, f] = some (.mcast w a b c d e f)) ∧
    (k = 0x46 → decodeCommand [w, a, b, c, d] = some (.topkmerge w a b c d))) ∧
  (∀ (ws : List Dword) (i : Instr), cmdLength (cmdOpc (ws.headD 0)) = some ws.length → decodeCommand ws = some i →
    encodeWords i = some ws) ∧
  (∀ (ws : List Dword), cmdLength (cmdOpc (ws.headD 0)) = none → decodeCommand ws = none) ∧
  (∀ e f : Entry, let k := e.d0.toNat / 2 ^ 48 % 2 ^ 8
    decodePacket e f = match k with
      | 0x00 => some (.nop e)
      | 0x01 => some (.fetchfence e)
      | 0x02 => some (.ib e)
      | 0x03 => some (.pred e)
      | 0x04 => some (.loop e)
      | 0x05 => some (.waitmem e)
      | 0x06 => some (.writemem e)
      | 0x07 => some (.signal e)
      | 0x08 => some (.feed e)
      | 0x09 => some (.launch e f)
      | _ => none) ∧
  (∀ e : Entry, let k := e.d0.toNat % 2 ^ 8
    decodeRequest e = match k with
      | 1 => some (.tlbinv e)
      | 2 => some (.pgattr e)
      | 3 => some (.asidBind e)
      | 4 => some (.asidRetire e)
      | 5 => some (.resume e)
      | 6 => some (.resumeCmd e)
      | _ => none)

/-! ## Strand instructions (R149-R179) -/

/-- R153, R149: each register instruction writes its result, moves SPC to the next word and changes nothing else; a write to
s0 is discarded. R154: SDIV and SREM truncate toward zero, and −2^63 by −1 gives −2^63 and 0. -/
def Obligations.ScalarArithmetic : Prop :=
  (∀ (i : Instr) (d : BitVec 6) (srcs : List (BitVec 6)) (v : State → Dword) (s : State),
     aluResult i = some (d, srcs, v) → Free s (d :: srcs) →
     ∃ t, exec i s = .next t ∧ t.reg d = (if d = 0 then 0 else v s) ∧ t.spc = s.spc + 4 ∧ StrandFrame [d] s t) ∧
  (∀ (d a b : BitVec 6) (s : State), Free s [d, a, b] → s.reg b ≠ 0 →
     (∃ t, exec (.sdiv d a b) s = .next t ∧
       t.reg d = (if d = 0 then 0 else BitVec.ofInt 64 ((s.reg a).toInt.tdiv (s.reg b).toInt)) ∧
       t.spc = s.spc + 4 ∧ StrandFrame [d] s t) ∧
     (∃ t, exec (.srem d a b) s = .next t ∧
       t.reg d = (if d = 0 then 0 else BitVec.ofInt 64 ((s.reg a).toInt.tmod (s.reg b).toInt)) ∧
       t.spc = s.spc + 4 ∧ StrandFrame [d] s t))

/-- R155-R157: each immediate instruction, alone or after SLIT, writes its result and moves SPC past its words. R156: the
words of the shifts, that no instruction has imm14<13:12> = 3, and that the shifts take no literal. -/
def Obligations.ScalarImmediates : Prop :=
  (∀ (i : Instr) (d a : BitVec 6) (n : Dword) (v : State → Dword) (s : State),
    immResult i = some (d, a, n, v) → Free s [d, a] →
    ∃ t, exec i s = .next t ∧ t.reg d = (if d = 0 then 0 else v s) ∧ t.spc = s.spc + n ∧ StrandFrame [d] s t) ∧
  (∀ (d a n : BitVec 6), let w := 0x18000000 + d.toNat * 2 ^ 20 + a.toNat * 2 ^ 14 + n.toNat
    decodeScalar w 0 = some (.sshli d a n) ∧ decodeScalar (w + 2 ^ 12) 0 = some (.sshri d a n) ∧
    decodeScalar (w + 2 * 2 ^ 12) 0 = some (.ssrai d a n) ∧ decodeScalar (w + 3 * 2 ^ 12) 0 = none ∧
    ∀ (l : BitVec 26) (k : Nat), k < 3 →
      ∃ u, decodeScalar (0x1C000000 + l.toNat) (w + k * 2 ^ 12) = some (.slit l (.other u)))

/-- R158: a branch goes by its word offset from the next word when its condition holds, and to the next word when it does
not; it writes no register. R159, R162, R174, R230: SJMP and SCALL go by their offset, SCALL leaving the address of the
next word in d, by the words that R159 gives them and without a literal; SNOP, SPAD and SPREF
only advance. -/
def Obligations.ScalarTransfers : Prop :=
  (∀ (i : Instr) (c : BranchCond) (a b : BitVec 6) (o : Int) (n : Dword) (s : State),
     branchParts i = some (c, a, b, o, n) → Free s [a, b] →
     ∃ t, exec i s = .next t ∧ StrandFrame [] s t ∧
       t.spc = s.spc + n + (if taken c (s.reg a) (s.reg b) then BitVec.ofInt 64 (4 * o) else 0)) ∧
  (∀ (i : Instr) (ds srcs : List (BitVec 6)) (p : State → Dword) (s : State),
     jumpResult i = some (ds, srcs, p) → Free s (ds ++ srcs) →
     ∃ t, exec i s = .next t ∧ t.spc = p s ∧ StrandFrame ds s t ∧
       ∀ d ∈ ds, t.reg d = if d = 0 then 0 else s.spc + 4) ∧
  (∀ (d : BitVec 6) (o : BitVec 20) (l : BitVec 26),
     decodeScalar (0x48000000 + o.toNat) 0 = some (.sjmp o) ∧
     decodeScalar (0x4C000000 + d.toNat * 2 ^ 20 + o.toNat) 0 = some (.scall d o) ∧
     (d ≠ 0 → decodeScalar (0x48000000 + d.toNat * 2 ^ 20 + o.toNat) 0 = none) ∧
     (∃ u, decodeScalar (0x1C000000 + l.toNat) (0x48000000 + o.toNat) = some (.slit l (.other u))) ∧
     ∃ u, decodeScalar (0x1C000000 + l.toNat) (0x4C000000 + d.toNat * 2 ^ 20 + o.toNat) = some (.slit l (.other u)))

namespace Sys2Proof.Claims

open Sys2Proof.Machine

/-- The trap that a strand instruction reports outside run-ahead (R151, R253). -/
def strandReport (s : State) (code : Nat) (addr info : Dword) : Trap :=
  { code := code, addr := addr, info := info, spc := s.spc, fmt := s.grp.st.fmt }

/-- R80: the values of FMT. -/
structure FmtLegal (v : Dword) : Prop where
  high : v.toNat < 2 ^ 32
  low : v.toNat % 2 ^ 7 = 0
  a : v.toNat / 2 ^ 27 ≤ 16
  b : v.toNat / 2 ^ 22 % 2 ^ 5 ≤ 16
  rnd : v.toNat / 2 ^ 13 % 2 ^ 3 ≤ 4

/-- R227: how each size code of R94 extends the bytes loaded. -/
def extended (z : BitVec 3) (n : Nat) : Dword :=
  match z.toNat with
  | 0 => (BitVec.ofNat 8 n).signExtend 64
  | 1 => (BitVec.ofNat 8 n).setWidth 64
  | 2 => (BitVec.ofNat 16 n).signExtend 64
  | 3 => (BitVec.ofNat 16 n).setWidth 64
  | 4 => (BitVec.ofNat 32 n).signExtend 64
  | 5 => (BitVec.ofNat 32 n).setWidth 64
  | _ => BitVec.ofNat 64 n

/-- R94: the bytes of a size code. -/
def sizeBytes (z : BitVec 3) : Nat := if z.toNat < 2 then 1 else if z.toNat < 4 then 2 else if z.toNat < 6 then 4 else 8

/-- R229: what an atomic stores over an old value, by its operation; CAS compares with `e`. -/
def atomicStores (op : BitVec 3) (old v e : Dword) : Option Dword :=
  match op.toNat with
  | 0 => some (BitVec.ofNat 64 (old.toNat + v.toNat))
  | 1 => some (BitVec.ofNat 64 (old.toNat &&& v.toNat))
  | 2 => some (BitVec.ofNat 64 (old.toNat ||| v.toNat))
  | 3 => some (BitVec.ofNat 64 (old.toNat ^^^ v.toNat))
  | 4 => some (BitVec.ofInt 64 (min old.toInt v.toInt))
  | 5 => some (BitVec.ofInt 64 (max old.toInt v.toInt))
  | 6 => some v
  | _ => if old = e then some v else none

/-- R253: the record, dword by dword. -/
structure RecordHolds (ws : List Dword) (r : Trap) (st : Strand) : Prop where
  length : ws.length = 16
  head : (ws.getD 0 0).toNat = r.code + 2 ^ 8 * r.source + 2 ^ 16 * r.cause + 2 ^ 24 * r.lane + 2 ^ 32 * r.slice +
    2 ^ 40 * r.frag + 2 ^ 48 * r.lmask
  spc : ws.getD 1 0 = r.spc
  lane : (ws.getD 2 0).toNat = r.xflags + 2 ^ 32 * r.lpc
  parts : ws.getD 3 0 = r.addr ∧ ws.getD 4 0 = r.dpc ∧ ws.getD 5 0 = r.fmt ∧ ws.getD 6 0 = r.info
  reserved : ∀ i, 7 ≤ i → i < 12 → ws.getD i 0 = 0
  saved : ws.getD 12 0 = st.get 60 ∧ ws.getD 13 0 = st.get 61 ∧ ws.getD 14 0 = st.get 62 ∧ ws.getD 15 0 = st.get 63

/-! ### Accesses of lanes -/

/-- R214: the address of a lane: base, offset scaled, displacement. -/
def laneVa (s : State) (e : Env) (disp : Int) (l : Nat) : Dword :=
  laneBase s e.f.opA.toNat l + BitVec.ofInt 64
    ((if e.f.w2.getLsbD 27 then (BitVec.ofNat 32 (e.b l)).toInt else ((e.b l % 2 ^ 32 : Nat) : Int)) *
      2 ^ (e.f.w2.toNat / 2 ^ 30) + disp)
/-- The displacement of a load or store, and of an atomic. -/
def dispOf (w : Word) : Int := (w.setWidth 24).toInt
def dispAtom (w : Word) : Int := (w.setWidth 15).toInt

/-- Checks of a memory instruction that is not held behind the side buffer (R133). -/
def LaneChecked (s : State) (i : Instr) (f : LaneWord) (types : Ty → Bool) (ra rb rc : Ty → Read) (e : Env) : Prop :=
  s.cur.grp < s.groups.length ∧ envT s i f types ra rb rc = .ok e ∧ blockHeld s.grp = false

/-- R220: the memory instructions of a lane: how they read their data operand, what they need of the page, their access
kind in a fault record, and their displacement. -/
def laneMemory : Instr → Option (LaneWord × (Ty → Bool) × (Ty → Read) × Need × Nat × Int)
  | .vld f => some (f, memTy, rNo, needR, 0, dispOf f.w2)
  | .vldc f => some (f, memTy, rNo, needR, 0, dispOf f.w2)
  | .vst f => some (f, memTy, rT, needW, 1, dispOf f.w2)
  | .vatom f => some (f, atomTy f, rT, needRW, 2, dispAtom f.w2)
  | _ => none

/-- R222: those of the local store. -/
def localMemory : Instr → Option (LaneWord × (Ty → Bool) × (Ty → Read) × Int)
  | .lld f => some (f, memTy, rNo, dispOf f.w2)
  | .lst f => some (f, memTy, rT, dispOf f.w2)
  | .latom f => some (f, atomTy f, rT, dispAtom f.w2)
  | _ => none

/-- R220: the lane whose failing access a memory instruction reports: no lane meets an earlier condition, and no lower one
the same. -/
structure FirstFault (s : State) (e : Env) (disp : Int) (need : Need) (l : Nat) (x : MemFault) : Prop where
  active : l ∈ e.act
  fails : groupAccess s (laneVa s e disp l) (e.ty.bits / 8) need = .error x
  first : ∀ k ∈ e.act, ∀ y, groupAccess s (laneVa s e disp k) (e.ty.bits / 8) need = .error y →
    x.cond < y.cond ∨ x.cond = y.cond ∧ l ≤ k

end Sys2Proof.Claims

/-- R160, R163, R164: SRET, by its word, goes to its register whatever stands there; SCALLR and SJTAB, alone or after SLIT,
go to the pad that they name, SCALLR leaving the next word's address in s63. Their target's word must be SPAD with their
label. -/
def Obligations.ComputedTransfers : Prop :=
  (∀ a : BitVec 6, decodeScalar (0x50100000 + a.toNat * 2 ^ 14) 0 = some (.sret a)) ∧
  decodeScalar 0x501FC000 0 = some (.sret 63) ∧
  (∀ (a : BitVec 6) (s : State), Free s [a] → (s.reg a).toNat % 4 = 0 → (s.reg a).toNat < 2 ^ 54 →
    ∃ t, exec (.sret a) s = .next t ∧ t.spc = s.reg a ∧ StrandFrame [] s t) ∧
  (∀ (a : BitVec 6) (l : BitVec 12) (s : State), Free s [a, 63] → (s.reg a).toNat % 4 = 0 → (s.reg a).toNat < 2 ^ 54 →
    fetchScalar s (s.reg a) 3 = .ok (0x50300000 + l.toNat) →
    ∃ t, exec (.scallr a l) s = .next t ∧ t.spc = s.reg a ∧ t.reg 63 = s.spc + 4 ∧ StrandFrame [63] s t) ∧
  (∀ (i : Instr) (a : BitVec 6) (o : Int) (n : Dword) (s : State) (bound e : Nat),
    (∃ f, i = .sjtab a f ∧ n = 4 ∧ o = f.toInt) ∨ (∃ l f, i = .slit l (.jtab a f) ∧ n = 8 ∧ o = (l ++ f).toInt) →
    let tab := s.spc + n + BitVec.ofInt 64 (4 * o)
    let target := tab + BitVec.ofInt 64 (4 * (BitVec.ofNat 20 (e / 2 ^ 12)).toInt)
    Free s [a] → fetchScalar s tab 1 = .ok bound → (s.reg a).toNat < bound →
    fetchScalar s (tab + 4 * (s.reg a + 1)) 2 = .ok e → target.toNat % 4 = 0 → target.toNat < 2 ^ 54 →
    fetchScalar s target 3 = .ok (0x50300000 + e % 2 ^ 12) →
    ∃ t, exec i s = .next t ∧ t.spc = target ∧ StrandFrame [] s t)

/-- The traps of strand instructions outside run-ahead: division by zero (R154), computed addresses (R161), landing (R162),
jump tables (R164), formats and axes (R80, R239), unbound queues (R168), privilege (R170, R178, R336), LRUN in a handler
(R165, R254), an SLIT whose follower takes no literal (R90), SRFT outside a handler (R255). STRAP and SBKPT trap with
their codes, STRAP with its cause, and the SPC of their record is the next word (R176). That a trap of a computed transfer
reports the target in ADDR, and of a queue register the register in INFO alone, is the model's reading (log 56). -/
def Obligations.StrandTraps : Prop :=
  (∀ (s : State), s.grp.ahead = false →
     (∀ d a b, Free s [d, a, b] → s.reg b = 0 →
       exec (.sdiv d a b) s = .next (deliver s (strandReport s 0x12 0 0)) ∧
       exec (.srem d a b) s = .next (deliver s (strandReport s 0x12 0 0))) ∧
     (∀ a, Free s [a] → (s.reg a).toNat % 4 ≠ 0 →
       exec (.sret a) s = .next (deliver s (strandReport s 0x05 (s.reg a) 0))) ∧
     (∀ a, Free s [a] → (s.reg a).toNat % 4 = 0 → 2 ^ 54 ≤ (s.reg a).toNat →
       exec (.sret a) s = .next (deliver s (strandReport s 0x07 (s.reg a) 0))) ∧
     (∀ a l w, Free s [a, 63] → (s.reg a).toNat % 4 = 0 → (s.reg a).toNat < 2 ^ 54 →
       fetchScalar s (s.reg a) 3 = .ok w → w ≠ 0x50300000 + l.toNat →
       exec (.scallr a l) s = .next (deliver s (strandReport s 0x03 0 0))) ∧
     (∀ a o bound, Free s [a] → fetchScalar s (s.spc + 4 + 4 * o.signExtend 64) 1 = .ok bound → bound ≤ (s.reg a).toNat →
       exec (.sjtab a o) s = .next (deliver s (strandReport s 0x04 0 0))) ∧
     (∀ a, Free s [a] → ¬ FmtLegal (s.reg a) → exec (.sfmt a) s = .next (deliver s (strandReport s 0x02 0 0))) ∧
     (∀ n a, Free s [a] → axisOk (s.reg a) = false →
       exec (.saxis n a) s = .next (deliver s (strandReport s 0x02 0 0))) ∧
     (∀ a n, Free s [a] → (mapGet 0 s.grp.qbind n.toNat).toNat % 16 = 0 →
       exec (.sqout a n) s = .next (deliver s (strandReport s 0x0D 0 (BitVec.ofNat 64 n.toNat)))) ∧
     (∀ d n, Committed s → (mapGet 0 s.grp.qbind n.toNat).toNat % 16 = 0 →
       exec (.sqin d n) s = .next (deliver s (strandReport s 0x0D 0 (BitVec.ofNat 64 n.toNat)))) ∧
     (∀ a, Committed s → (s.launchOf s.grp).priv = false →
       exec (.ssetr a 0x18) s = .next (deliver s (strandReport s 0x18 0 0)) ∧
       exec .shalt s = .next (deliver s (strandReport s 0x18 0 0)) ∧
       ∀ d b, exec (.pgmig d a b) s = .next (deliver s (strandReport s 0x18 0 0))) ∧
     (∀ l, s.grp.inh = true → exec (.lrun l) s = .next (deliver s (strandReport s 0x01 0 0))) ∧
     (∀ l w, exec (.slit l (.other w)) s = .next (deliver s (strandReport s 0x01 0 0))) ∧
     (Committed s → s.grp.inh = false → exec .srft s = .next (deliver s (strandReport s 0x01 0 0)))) ∧
  (∀ (s : State) (c : BitVec 8), Committed s → s.grp.ahead = false → s.spc + 4 ≠ 0 →
     exec (.strap c) s = .next (deliver s { code := 0x16, cause := c.toNat, spc := s.spc + 4, fmt := s.grp.st.fmt }) ∧
     exec .sbkpt s = .next (deliver s { code := 0x17, spc := s.spc + 4, fmt := s.grp.st.fmt }))

/-- R252-R254: a trap that is delivered, of the strand or of a lane, stores its record; s60 holds the record's address and
s61 the code, SPC is TRAPVEC's address, the group is in its handler, and nothing else of it changes. A lane trap first rolls
the strand back (R135): it returns behind the oldest block's LRUN, the stores and pushes held behind a block and the early
loads are discarded, and so is every later block. The record holds code, source, cause, lane, slice, fragment and the
slice's active lanes, then SPC, XFLAGS and LPC, ADDR, DPC, FMT, INFO, and s60 to s63 as they were; a lane trap reports the
trapping instruction's lane, slice, fragment, PC and copy of FMT. R220, R222, R258: of the lanes of a memory instruction whose
accesses fail, the lowest with the first condition is reported: an address with high bits set, or without permission, with
PAGE_PROTECTION, a misaligned one with MISALIGNED, a local one out of range with LOCAL_RANGE; a page that is not present
parks the group. What a trap has asked other packages' directories is forgotten with it (log 36). -/
def Obligations.TrapDelivery : Prop :=
  (∀ (s s' : State) (r : Trap), Delivered s r s' →
    let t := deliver s r
    let g := s'.grp
    t.spc = BitVec.ofNat 64 (bits s.grp.trapvec.toNat 53 2 * 4) ∧
    t.reg 60 = BitVec.ofNat 64 (bits s.grp.traprec.toNat 53 7 * 128) ∧
    t.reg 61 = BitVec.ofNat 64 r.code ∧
    (∀ q, q ≠ 60 → q ≠ 61 → t.reg q = (trapState s r).reg q) ∧
    t.grp = { g with
      st := { g.st with
        spc := t.spc
        regs := t.grp.st.regs
        later := t.grp.st.later }
      inh := true
      dsrc := r.source
      dfrag := r.frag
      dlpc := r.lpc } ∧
    (∀ i, i ≠ s'.cur.grp → t.group i = s'.group i) ∧
    (∀ a, memGet t.mem a = memGet s'.mem a)) ∧
  (∀ (s : State) (r : Trap), s.cur.grp < s.groups.length →
    (r.source ≠ 1 → reported s r = r ∧ (trapState s r).groups = s.groups) ∧
    (∀ b bs, r.source = 1 → s.grp.inh = false → s.grp.blocks = b :: bs →
      reported s r = { r with spc := b.ckpt.spc } ∧
      (trapState s r).grp = { s.grp with
        st := b.ckpt
        blocks := [{ b with late := 0 }]
        side := s.grp.side.filter (fun e => e.behind == 0)
        slds := [] })) ∧
  (∀ (r : Trap) (st : Strand), r.code < 2 ^ 8 → r.source < 2 ^ 8 → r.cause < 2 ^ 8 → r.lane < 2 ^ 8 → r.slice < 2 ^ 8 →
    r.frag < 2 ^ 8 → r.lmask < 2 ^ 4 → r.xflags < 2 ^ 6 → r.lpc < 2 ^ 26 → RecordHolds (r.dwords st) r st) ∧
  (∀ (s : State) (f : LaneWord) (code l : Nat), let r := laneReport s f code l
    r.code = code ∧ r.source = 1 ∧ r.cause = 0 ∧ r.lane = l ∧ r.slice = l / 4 ∧ r.frag = s.cur.frag ∧
    (∀ j, r.lmask.testBit j = (decide (j < 4) && laneActive s f (4 * (l / 4) + j))) ∧ r.lpc = s.frag.pc.toNat ∧
    r.fmt.toNat = s.frag.fmtc.toNat * 2 ^ 7) ∧
  (∀ (i : Instr) (f : LaneWord) (types : Ty → Bool) (rc : Ty → Read) (need : Need) (acc : Nat) (disp : Int) (s : State)
     (e : Env) (l : Nat) (x : MemFault),
    laneMemory i = some (f, types, rc, need, acc, disp) → LaneChecked s i f types rBase (rTy .n32) rc e →
    FirstFault s e disp need l x → x.bad = false →
    exec i s = .next (if x.cond = 3 then park s (laneVa s e disp l) s.frag.pc.toNat x.level acc
      else deliver s { laneReport s f x.code l with addr := laneVa s e disp l })) ∧
  (∀ (s : State) (va : Dword) (size : Nat) (need : Need) (x : MemFault), groupAccess s va size need = .error x →
    (2 ^ 54 ≤ va.toNat → x.cond = 1 ∧ x.code = 0x07) ∧
    (va.toNat < 2 ^ 54 → va.toNat % size ≠ 0 → x.cond = 2 ∧ x.code = 0x05)) ∧
  (∀ (s : State) (va : Dword) (lpc level acc : Nat), s.cur.grp < s.groups.length → s.grp.inh = false →
    let t := park s va lpc level acc
    t.grp.run = .saving ∧ (∀ d ∈ t.dirty, ¬ (d.grp = s.cur.grp ∧ d.cp = false)) ∧
    (∀ b bs, s.grp.blocks = b :: bs → t.grp.st = b.ckpt) ∧
    ∃ job p, t.grp.save = some job ∧ job.st = 1 ∧ job.full = true ∧ job.post = some p ∧ p.kind = 0 ∧ p.code = 0x06 ∧
      p.va = va ∧ p.lpc = lpc ∧ p.level = level ∧ p.acc = acc) ∧
  (∀ (i : Instr) (f : LaneWord) (types : Ty → Bool) (rc : Ty → Read) (disp : Int) (s : State) (e : Env) (l : Nat),
    localMemory i = some (f, types, rc, disp) → LaneChecked s i f types (rTy .n32) (rTy .n32) rc e →
    let la (k : Nat) : Nat :=
      ((((e.a k % 2 ^ 32 + e.b k % 2 ^ 32 * 2 ^ (f.w2.toNat / 2 ^ 30) : Nat) : Int) + disp) % 2 ^ 32).toNat
    let out (k : Nat) : Bool := (localPlace s s.grp (la k)).isNone
    (e.act.find? out = some l → exec i s = .next (deliver s { laneReport s f 0x08 l with addr := BitVec.ofNat 64 (la l) })) ∧
    ((∀ k ∈ e.act, out k = false) → e.act.find? (fun k => la k % (e.ty.bits / 8) != 0) = some l →
      exec i s = .next (deliver s { laneReport s f 0x05 l with addr := BitVec.ofNat 64 (la l) })) ∧
    ∀ k, 2 ^ 21 ≤ la k → out k = true)

/-- R165, R166: LRUN enqueues a block that starts at its lane and captures the strand's registers, FMT and axes, and goes
on; where two blocks are outstanding it waits. LWAIT goes on once none is outstanding, and waits until then. -/
def Obligations.LaneBlockLaunch : Prop :=
  ∀ (s : State), s.cur.grp < s.groups.length →
    (∀ l, s.grp.inh = false → s.grp.blocks.length < 2 →
      ∃ t b, exec (.lrun l) s = .next t ∧ t.spc = s.spc + 4 ∧ t.grp.blocks = s.grp.blocks ++ [b] ∧
        b.start = l.toNat ∧ b.scal = s.grp.st.regs ∧ b.fmt = s.grp.st.fmt ∧ b.axis = s.grp.st.axis ∧
        t.grp.st.regs = s.grp.st.regs ∧ ∀ a, memGet t.mem a = memGet s.mem a) ∧
    (∀ l, s.grp.inh = false → 2 ≤ s.grp.blocks.length → exec (.lrun l) s = .next s) ∧
    (s.grp.quiet = true → ∃ t, exec .lwait s = .next t ∧ t.spc = s.spc + 4 ∧ StrandFrame [] s t) ∧
    (s.grp.quiet = false → exec .lwait s = .next s)

/-- R167, R239: SFMT writes FMT from a register or replaces its formats A and B; SAXIS writes an axis. -/
def Obligations.FormatAndAxes : Prop :=
  (∀ (a : BitVec 6) (s : State), Free s [a] → FmtLegal (s.reg a) →
    exec (.sfmt a) s = .next (s.setGrp { s.grp with st := { s.grp.st with
      fmt := s.reg a
      spc := s.spc + 4 } })) ∧
  (∀ (a b : BitVec 5) (s : State), s.cur.grp < s.groups.length → FmtLegal s.grp.st.fmt → a.toNat ≤ 16 → b.toNat ≤ 16 →
    ∃ v : Dword, exec (.sfmtAb a b) s = .next (s.setGrp { s.grp with st := { s.grp.st with
      fmt := v
      spc := s.spc + 4 } }) ∧
      v.toNat = a.toNat * 2 ^ 27 + b.toNat * 2 ^ 22 + s.grp.st.fmt.toNat % 2 ^ 22) ∧
  (∀ (n : BitVec 2) (a : BitVec 6) (s : State), Free s [a] → axisOk (s.reg a) = true →
    exec (.saxis n a) s = .next (s.setGrp { s.grp with st := { s.grp.st with
      axis := mapSet 0 s.grp.st.axis n.toNat (s.reg a)
      spc := s.spc + 4 } }))

/-- R168, R133, R205: SQIN takes the oldest word of a bound queue register, and waits while there is none; SQOUT appends a
word where the buffer has room, waits where it has none or a VQIN is part-way through its words there, and takes a
side-buffer entry under run-ahead. -/
def Obligations.QueueRegisters : Prop :=
  ∀ (s : State) (n : BitVec 4), (mapGet 0 s.grp.qbind n.toNat).toNat % 16 ≠ 0 →
    (∀ d v vs, Committed s → mapGet [] s.grp.popq n.toNat = v :: vs →
      ∃ t, exec (.sqin d n) s = .next t ∧ t.reg d = (if d = 0 then 0 else v) ∧ t.spc = s.spc + 4 ∧
        mapGet [] t.grp.popq n.toNat = vs ∧ (∀ r, r ≠ d → t.reg r = s.reg r) ∧
        (∀ k, k ≠ n.toNat → mapGet [] t.grp.popq k = mapGet [] s.grp.popq k) ∧ GroupOnly s t) ∧
    (∀ d, Committed s → mapGet [] s.grp.popq n.toNat = [] → exec (.sqin d n) s = .next s) ∧
    (∀ a, Free s [a] → s.grp.behind = 0 → s.grp.side = [] → s.grp.vqinOn n.toNat = false →
      (mapGet [] s.grp.pushq n.toNat).length < 16 →
      ∃ t, exec (.sqout a n) s = .next t ∧ t.spc = s.spc + 4 ∧
        mapGet [] t.grp.pushq n.toNat = mapGet [] s.grp.pushq n.toNat ++ [s.reg a] ∧ (∀ r, t.reg r = s.reg r) ∧
        (∀ k, k ≠ n.toNat → mapGet [] t.grp.pushq k = mapGet [] s.grp.pushq k) ∧ GroupOnly s t) ∧
    (∀ a, Free s [a] → s.grp.behind = 0 → s.grp.side = [] →
      (16 ≤ (mapGet [] s.grp.pushq n.toNat).length ∨ s.grp.vqinOn n.toNat = true) →
      exec (.sqout a n) s = .next s) ∧
    (∀ a, Free s [a] → s.grp.behind ≠ 0 → s.grp.side.length < 16 →
      ∃ t e, exec (.sqout a n) s = .next t ∧ t.spc = s.spc + 4 ∧ t.grp.side = s.grp.side ++ [e] ∧
        e.isPush = true ∧ e.q = n.toNat ∧ e.data = s.reg a ∧ e.behind = s.grp.behind ∧ GroupOnly s t)

/-- R227, R40, R132, R133: SLD of this package's memory writes, extended, what one of the choices that an ordinary load has
returns, and leaves memory alone where no store to its bytes waits; a load of a CACHED page that the newest buffered store
to its bytes covers takes that store's bytes, and one that it covers in part waits. A load of any other page, or of the
register region, waits for what runs before it. -/
def Obligations.ScalarLoad : Prop :=
  ∀ (d a : BitVec 6) (z : BitVec 3) (o : BitVec 11) (s : State) (x : Acc),
    let va := s.reg a + BitVec.ofInt 64 o.toInt
    let m := unitMask (x.loc % 8) (sizeBytes z)
    Free s [d, a] → groupAccess s va (sizeBytes z) needR = .ok x →
    (Plain s x → (x.home = 0 ∨ s.grp.quiet = true) →
      buffered s.grp x.key (sizeBytes z) = none →
      let s1 := noteAccess s va x
      (∀ c ∈ loadChoices s1 s.cur.grp (x.loc / 8) x.coh m, poisonedBy s1 x (sizeBytes z) c = false) →
      ∃ t, ∃ c ∈ loadChoices s1 s.cur.grp (x.loc / 8) x.coh m,
        exec (.sld d a z o) s = .next t ∧ t.spc = s.spc + 4 ∧
        t.reg d = (if d = 0 then 0
          else extended z ((takeChoice s1 s.cur.grp (x.loc / 8) m c).1.toNat / 2 ^ (8 * (x.loc % 8)))) ∧
        (∀ r, r ≠ d → t.reg r = s.reg r) ∧
        (waitingStores s s.cur.grp (x.loc / 8) x.coh m = [] → ∀ b, memGet t.mem b = memGet s.mem b)) ∧
    ((x.home ≠ 0 ∨ x.reg = true) → s.grp.quiet = false → exec (.sld d a z o) s = .next s) ∧
    (∀ e, x.home = 0 → x.reg = false → buffered s.grp x.key (sizeBytes z) = some e →
      ¬ (e.loc ≤ x.key ∧ x.key + sizeBytes z ≤ e.loc + e.size) → exec (.sld d a z o) s = .next s) ∧
    (∀ e, x.home = 0 → x.reg = false → buffered s.grp x.key (sizeBytes z) = some e → e.loc ≤ x.key →
      x.key + sizeBytes z ≤ e.loc + e.size →
      ∃ t, exec (.sld d a z o) s = .next t ∧ t.spc = s.spc + 4 ∧
        t.reg d = (if d = 0 then 0 else extended z (e.data.toNat / 2 ^ (8 * (x.key - e.loc)))) ∧
        (∀ r, r ≠ d → t.reg r = s.reg r) ∧ GroupOnly s t)

/-- R227, R32, R52, R133: SST outside run-ahead leaves the low bytes of s(d) as a store that waits: for its line on a page
with hardware coherence, in the core's L1 on the others; every byte of memory is as it was, unless the L1 makes room.
Under run-ahead it takes a side-buffer entry. -/
def Obligations.ScalarStore : Prop :=
  ∀ (d a : BitVec 6) (z : BitVec 3) (o : BitVec 11) (s : State) (x : Acc),
    let va := s.reg a + BitVec.ofInt 64 o.toInt
    Free s [d, a] → groupAccess s va (sizeBytes z) needW = .ok x → Plain s x →
    (s.grp.behind = 0 → s.grp.side = [] →
      ∃ t w, exec (.sst d a z o) s = .next t ∧ t.spc = s.spc + 4 ∧ (∀ r, t.reg r = s.reg r) ∧ w ∈ t.dirty ∧
        w.core = s.grp.core ∧ w.unit = x.loc / 8 ∧ w.grp = s.cur.grp ∧ w.hc = (x.coh == 0) ∧ w.cp = (x.coh == 2) ∧
        w.mask = unitMask (x.loc % 8) (sizeBytes z) ∧ w.val = s.reg d <<< (8 * (x.loc % 8)) ∧
        (x.coh = 0 ∨ l1Full s s.grp.core (x.loc / 8) = false → ∀ b, memGet t.mem b = memGet s.mem b)) ∧
    (s.grp.behind ≠ 0 → s.grp.side.length < 16 →
      ∃ t e, exec (.sst d a z o) s = .next t ∧ t.spc = s.spc + 4 ∧ t.grp.side = s.grp.side ++ [e] ∧
        e.isPush = false ∧ e.loc = x.key ∧ e.size = sizeBytes z ∧ e.data = s.reg d ∧ e.behind = s.grp.behind ∧
        GroupOnly s t)

/-- R229, R42: an SATOM of any order of this package's memory writes into d the value it finds, which the group's own stores
have reached, moves SPC to the next word and changes no other strand register, of its group or of another, and no vector
register, predicate or FPFLAGS. A relaxed one of memory with hardware coherence stores the new value, and changes no other
byte; a CAS that fails stores nothing. A release waits for the acknowledgements of its scope (R43). That the value is read
and stored in the step of the instruction is the model's choice (log 64). -/
def Obligations.ScalarAtomic : Prop :=
  ∀ (d a b : BitVec 6) (op : BitVec 3) (r : BitVec 2) (sc : BitVec 3) (s : State) (x : Acc),
    Committed s → groupAccess s (s.reg a) 8 needRW = .ok x → Plain s x → poisonedFor s s.cur.grp x = false →
    ((hasRel r.toNat = true → pubReady s s.cur.grp sc.toNat = true) →
      ∃ t, exec (.satom d a b op r sc) s = .next t ∧ t.spc = s.spc + 4 ∧ (∀ q, q ≠ d → t.reg q = s.reg q) ∧
        (t.reg d = (if d = 0 then 0 else
          let s1 := noteAccess (if hasRel r.toNat then pub s s.cur.grp sc.toNat else s) (s.reg a) x
          atomicRead (atomicPrepare s1 s1.cur.grp x) s1.cur.grp x)) ∧
        t.grp.vregs = s.grp.vregs ∧ t.grp.preds = s.grp.preds ∧ t.grp.fpflags = s.grp.fpflags ∧
        ∀ g, g ≠ s.cur.grp → (t.group g).st = (s.group g).st) ∧
    (hasRel r.toNat = true → pubReady s s.cur.grp sc.toNat = false →
      ∃ t, exec (.satom d a b op r sc) s = .next t ∧ t.spc = s.spc ∧ ∀ q, t.reg q = s.reg q) ∧
    (r = 0 → x.coh = 0 →
      let s1 := atomicPrepare (noteAccess s (s.reg a) x) s.cur.grp x
      ∃ t, exec (.satom d a b op r sc) s = .next t ∧ t.spc = s.spc + 4 ∧
        t.reg d = (if d = 0 then 0 else unitOf s1 (x.loc / 8)) ∧ (∀ q, q ≠ d → t.reg q = s.reg q) ∧
        match atomicStores op (unitOf s1 (x.loc / 8)) (s.reg b) (s.reg d) with
        | some v => Stores s1.mem t.mem x.loc 8 v
        | none => ∀ k, memGet t.mem k = memGet s1.mem k)

namespace Sys2Proof.Claims

open Sys2Proof.Machine

/-! ### Lane results -/

/-- A lane instruction that computes a register image and flags in each active lane: its word, the types it takes, how
it reads its operands, and the image with the flags. -/
structure LaneOp where
  word : LaneWord
  types : Ty → Bool
  ra : Ty → Read
  rb : Ty → Read
  rc : Ty → Read
  value : Env → Nat → Nat × FpFlags

/-- The instruction passes the checks of R101, R102, R183 and R185 with these operands. -/
def LaneOp.Passes (o : LaneOp) (i : Instr) (s : State) (e : Env) : Prop :=
  s.cur.grp < s.groups.length ∧ envT s i o.word o.types o.ra o.rb o.rc = .ok e

/-- Results by lane, as dst and lat say (R97, R184): the registers and latches written, the registers kept, the
predicates, the words popped and the next PC. -/
structure LaneRegs (s t : State) (e : Env) (lanes : List Nat) (v : Nat → Nat) : Prop where
  low : e.f.nowb = false → ∀ l ∈ lanes, t.grp.vlane e.f.dst.toNat l = v l % 2 ^ 32
  high : e.f.nowb = false → e.ty.bits = 64 → ∀ l ∈ lanes, t.grp.vlane (e.f.dst.toNat + 1) l = v l / 2 ^ 32 % 2 ^ 32
  latch : e.f.lat ≠ 0 ∨ e.f.nowb = true → ∀ l ∈ lanes, latchLane t e.f.lat.toNat l = v l % 2 ^ 32
  odd : e.f.lat ≠ 0 ∨ e.f.nowb = true → e.ty.bits = 64 → ∀ l ∈ lanes,
    latchLane t (e.f.lat.toNat + 1) l = v l / 2 ^ 32 % 2 ^ 32
  kept : ∀ r l, l < 64 → ¬ (e.f.nowb = false ∧ l ∈ lanes ∧
    (r = e.f.dst.toNat ∨ e.ty.bits = 64 ∧ r = e.f.dst.toNat + 1)) → t.grp.vlane r l = s.grp.vlane r l
  preds : t.grp.preds = s.grp.preds
  popped : t.grp.popq = e.s.grp.popq
  next : t.frag = { s.frag with pc := s.frag.pc + 1 }

/-- The flags of an instruction: what any active lane raises. -/
def raised (e : Env) (fl : Nat → FpFlags) : FpFlags := e.act.foldl (fun m l => m ||| fl l) 0

/-- The exact value of an integer operand. -/
def ia (e : Env) (l : Nat) : Int := readInt e.ty (e.a l)
def ib (e : Env) (l : Nat) : Int := readInt e.ty (e.b l)
def ic (e : Env) (l : Nat) : Int := readInt e.ty (e.c l)
/-- The bits of an operand. -/
def ba (e : Env) (l : Nat) : BitVec e.ty.bits := BitVec.ofNat e.ty.bits (e.a l)
def bb (e : Env) (l : Nat) : BitVec e.ty.bits := BitVec.ofNat e.ty.bits (e.b l)
/-- An n32 operand. -/
def amount (v : Nat) : Nat := v % 2 ^ 32

def exact2 (f : LaneWord) (op : Int → Int → Int) : Option LaneOp :=
  some ⟨f, Ty.isInt, rT, rT, rNo, fun e l => intResult e.ty e.sat (op (ia e l) (ib e l))⟩
def ofBits (f : LaneWord) (rb : Ty → Read) (op : (e : Env) → Nat → BitVec e.ty.bits) : Option LaneOp :=
  some ⟨f, Ty.isIntB, rT, rb, rNo, fun e l => (intImage e.ty ((op e l).toNat : Int), 0)⟩

/-- The mask of `k` bits from bit `p` on. -/
def fieldMask (n p k : Nat) : BitVec n := BitVec.ofNat n (2 ^ k - 1) <<< p
/-- R188: the length of a field that starts at p, cut at N. -/
def cutLen (n p len : Nat) : Nat := if n ≤ p then 0 else min len (n - p)
/-- The old bits of dst. -/
def oldDst (e : Env) (l : Nat) : Nat :=
  e.s.grp.vlane e.f.dst.toNat l + (if e.ty.bits = 64 then e.s.grp.vlane (e.f.dst.toNat + 1) l * 2 ^ 32 else 0)

/-- R186-R188, R198, R200: integer, bit, select, move and broadcast instructions. -/
def intLane : Instr → Option LaneOp
  | .vadd f => exact2 f (fun x y => x + y)
  | .vsub f => exact2 f (fun x y => x - y)
  | .vmul f => exact2 f (fun x y => x * y)
  | .vmin f => exact2 f (fun x y => if x ≤ y then x else y)
  | .vmax f => exact2 f (fun x y => if x ≤ y then y else x)
  | .vmulh f => some ⟨f, Ty.isInt, rT, rT, rNo, fun e l => (intImage e.ty (ia e l * ib e l / 2 ^ e.ty.bits), 0)⟩
  | .vmad f => some ⟨f, Ty.isInt, rT, rT, rT, fun e l => intResult e.ty e.sat (ia e l * ib e l + ic e l)⟩
  | .vabs f => some ⟨f, fun t => t.isInt && t.isSigned, rT, rNo, rNo, fun e l => intResult e.ty e.sat |ia e l|⟩
  | .vand f => ofBits f rT (fun e l => ba e l &&& bb e l)
  | .vor f => ofBits f rT (fun e l => ba e l ||| bb e l)
  | .vxor f => ofBits f rT (fun e l => ba e l ^^^ bb e l)
  | .vnot f => ofBits f rNo (fun e l => ~~~ ba e l)
  | .vshl f => ofBits f rT (fun e l => ba e l <<< amount (e.b l))
  | .vshr f => ofBits f rT (fun e l => ba e l >>> amount (e.b l))
  | .vsra f => ofBits f rT (fun e l => (ba e l).sshiftRight (amount (e.b l)))
  | .vclz f => ofBits f rNo (fun e l => BitVec.ofNat e.ty.bits
      ((List.range e.ty.bits).takeWhile (fun i => !(ba e l).getLsbD (e.ty.bits - 1 - i))).length)
  | .vpopc f => ofBits f rNo (fun e l => BitVec.ofNat e.ty.bits
      ((List.range e.ty.bits).countP (fun i => (ba e l).getLsbD i)))
  | .vbfe f => some ⟨f, fun t => t.isInt && decide (32 ≤ t.bits), rT, rT, rT, fun e l =>
      let k := cutLen e.ty.bits (amount (e.b l)) (amount (e.c l))
      let v := BitVec.ofNat k ((ba e l >>> amount (e.b l)).toNat)
      (intImage e.ty (if e.ty.isSigned then v.toInt else v.toNat), 0)⟩
  | .vbfi f => some ⟨f, fun t => t == .n32 || t == .n64 || t == .b32, rT, rT, rT, fun e l =>
      let p := amount (e.b l)
      let m := fieldMask e.ty.bits p (cutLen e.ty.bits p (amount (e.c l)))
      (((BitVec.ofNat e.ty.bits (oldDst e l) &&& ~~~ m) ||| (ba e l <<< p &&& m)).toNat, 0)⟩
  | .vsel f => some ⟨f, anyTy, rT, rT, rT, fun e l =>
      (moveImage e.ty (if e.c l % 2 ^ e.ty.bits ≠ 0 then e.a l else e.b l), 0)⟩
  | .vmov f => some ⟨f, anyTy, rT, rNo, rNo, fun e l => (moveImage e.ty (e.a l), 0)⟩
  | .pmov f => some ⟨f, fun _ => true, rNo, rNo, rNo, fun e l =>
      (if e.s.grp.pred (f.opA.toNat % 8) l then 1 else 0, 0)⟩
  | .vshuf f => some ⟨f, anyTy, rT, rTy .n32, rNo, fun e l =>
      (moveImage e.ty (if amount (e.b l) % e.s.width ∈ e.s.frag.lanes then e.a (amount (e.b l) % e.s.width) else 0), 0)⟩
  | .vbcast f => some ⟨f, anyTy, rT, rUni, rNo, fun e l =>
      (moveImage e.ty (if amount (e.b l) % e.s.width ∈ e.s.frag.lanes then e.a (amount (e.b l) % e.s.width) else 0), 0)⟩
  | _ => none

/-- The canonical image of an exact result in a type (R64, R66), with the flags of both. -/
def rounded (e : Env) (t : Ty) (x : XVal × FpFlags) : Nat × FpFlags :=
  ((roundTo t e.mode e.sat e.nanprop x.1).1, x.2 ||| (roundTo t e.mode e.sat e.nanprop x.1).2)

def float1 (f : LaneWord) (op : XVal → XVal × FpFlags) : Option LaneOp :=
  some ⟨f, Ty.isArith, rT, rNo, rNo, fun e l => rounded e e.ty (op (readFloat e.ty (e.a l)))⟩
def float2 (f : LaneWord) (op : Env → XVal → XVal → XVal × FpFlags) : Option LaneOp :=
  some ⟨f, Ty.isArith, rT, rT, rNo, fun e l => rounded e e.ty (op e (readFloat e.ty (e.a l)) (readFloat e.ty (e.b l)))⟩

/-- R189-R196: floating-point and conversion instructions: the exact result, rounded once. -/
def floatLane (s : State) : Instr → Option LaneOp
  | .vfadd f => float2 f (fun e x y => xadd e.mode x y)
  | .vfsub f => float2 f (fun e x y =>
      let r := xadd e.mode x y.neg
      (if x.isNaN || y.isNaN then firstNaN [x, y] else r.1, r.2))
  | .vfmul f => float2 f (fun _ x y => xmul x y)
  | .vfma f => some ⟨f, Ty.isArith, rT, rT, rT, fun e l =>
      rounded e e.ty (xfma e.mode (readFloat e.ty (e.a l)) (readFloat e.ty (e.b l)) (readFloat e.ty (e.c l)))⟩
  | .vfmin f => float2 f (fun _ x y => xminmax false x y)
  | .vfmax f => float2 f (fun _ x y => xminmax true x y)
  | .vfrcp f => float1 f xrcp
  | .vfrsq f => float1 f xrsq
  | .vfsqrt f => float1 f xsqrtOf
  | .vfexp2 f => float1 f xexp2Of
  | .vflog2 f => float1 f xlog2Of
  | .vfclass f => some ⟨f, Ty.isArith, rT, rNo, rNo, fun e l => (fclass e.ty (e.a l), 0)⟩
  | .vcvt f =>
      let src := (resolveTy s.pathFmt (f.opB.toNat % 32)).getD .b32
      some ⟨f, fun t => (t.isInt || t.isFloat) && (src.isInt || src.isFloat), rTy src, rNo, rNo,
        fun e l => convert e.ty src e.mode e.sat e.nanprop (e.a l)⟩
  | .vqnt f => some ⟨f, Ty.isBlock, rTy .f32, rTy .b32, rNo, fun e l =>
      let x := readFloat .f32 (e.a l)
      let r := quantise e.ty e.mode x (e.b l) e.zp
      (r.1, r.2 ||| if x.isSig then flagIV else 0)⟩
  | .vdqnt f => some ⟨f, Ty.isBlock, rCodes, rTy .b32, rNo, fun e l =>
      let x := blockValue e.ty (e.a l) (e.b l) e.zp
      ((roundTo .f32 .rne e.sat false x.1).1, x.2 ||| (roundTo .f32 .rne e.sat false x.1).2)⟩
  | .vtsdot f => some ⟨f, fun t => t == .ts8, rCodes, rCodes, rTy .f32, fun e l =>
      let b (k : Nat) : XVal :=
        let x := readFloat .bf16 (e.braw l / 2 ^ (16 * k))
        if e.f.negB then x.neg else x
      rounded e .f32 (tsdot e.mode (e.a l) (b 0) (b 1) (readFloat .f32 (e.c l)))⟩
  | .vzdot f => some ⟨f, fun t => t == .zb4 || t == .zb8, rCodes, rCodes, rTy .f32, fun e l =>
      let b (k : Nat) : XVal :=
        let x := readFloat .bf16 (e.braw l / 2 ^ (16 * k))
        if e.f.negB then x.neg else x
      rounded e .f32 (zdot e.ty e.mode e.zp (e.a l) (b 0) (b 1) (readFloat .f32 (e.c l)))⟩
  | _ => none

/-! ### Numbers -/

/-- The number that a finite value is. -/
def val (x : XVal) : ℚ := (x.num : ℚ) / x.den

/-- R65: `m` is the integer to which a mode rounds a number. -/
def RoundsTo (mode : Mode) (x : ℚ) (m : ℤ) : Prop :=
  match mode with
  | .rne => |x - m| < 1 / 2 ∨ |x - m| = 1 / 2 ∧ m % 2 = 0
  | .rtz => |x - m| < 1 ∧ |(m : ℚ)| ≤ |x|
  | .rdn => m ≤ x ∧ x < m + 1
  | .rup => x ≤ m ∧ m - 1 < x
  | .rna => |x - m| < 1 / 2 ∨ |x - m| = 1 / 2 ∧ |x| < |(m : ℚ)|

/-- R73: a term of a ts8 code, and the sum of its two. -/
def ts8Part (n : Nat) : ℚ := if n % 8 = 7 then 0 else (if n / 8 % 2 = 1 then -1 else 1) / 2 ^ (n % 8)
def ts8Number (q : Nat) : ℚ := ts8Part (q / 16 % 16) + ts8Part (q % 16)

/-- R76: the zero point that a block's word gives. -/
def zeroPoint (t : Ty) (b : Nat) (zp : Bool) : ℕ := if zp then b / 2 ^ 8 % 2 ^ t.bits else 0

/-- R197, R198: what a predicate instruction with operands gives in a lane, with flags. -/
def predLane : Instr → Option LaneOp
  | .vcmp f => some ⟨f, Ty.isInt, rT, rT, rNo, fun e l => (Bool.toNat (match f.rnd.toNat with
      | 0 => decide (ia e l = ib e l)
      | 1 => decide (ia e l ≠ ib e l)
      | 2 => decide (ia e l < ib e l)
      | 3 => decide (ia e l ≤ ib e l)
      | 4 => decide (ia e l > ib e l)
      | _ => decide (ia e l ≥ ib e l)), 0)⟩
  | .vfcmp f => some ⟨f, Ty.isArith, rT, rT, rNo, fun e l =>
      let x := readFloat e.ty (e.a l)
      let y := readFloat e.ty (e.b l)
      let un := x.isNaN || y.isNaN
      let loud := f.rnd.toNat = 2 ∨ f.rnd.toNat = 3 ∨ f.rnd.toNat = 4 ∨ f.rnd.toNat = 5
      (Bool.toNat (match f.rnd.toNat with
        | 0 => xeq x y
        | 1 => !xeq x y
        | 2 => xlt x y
        | 3 => xlt x y || xeq x y
        | 4 => xlt y x
        | 5 => xlt y x || xeq x y
        | 6 => un
        | _ => !un), if (x.isSig || y.isSig) ∨ (un ∧ loud) then flagIV else 0)⟩
  | .pset f => some ⟨f, Ty.isIntB, rT, rNo, rNo, fun e l => (Bool.toNat (decide (e.a l % 2 ^ e.ty.bits ≠ 0)), 0)⟩
  | _ => none

/-- R198: what a predicate instruction without operands gives in a lane. -/
def predOnly (s : State) : Instr → Option (LaneWord × (Nat → Bool))
  | .pand f => some (f, fun l => s.grp.pred (f.opA.toNat % 8) l && s.grp.pred (f.opB.toNat % 8) l)
  | .por f => some (f, fun l => s.grp.pred (f.opA.toNat % 8) l || s.grp.pred (f.opB.toNat % 8) l)
  | .pxor f => some (f, fun l => Bool.xor (s.grp.pred (f.opA.toNat % 8) l) (s.grp.pred (f.opB.toNat % 8) l))
  | .pnot f => some (f, fun l => !s.grp.pred (f.opA.toNat % 8) l)
  | .pfirst f => some (f, fun l => (activeLanes s f).find? (fun k => s.grp.pred (f.opA.toNat % 8) k) == some l)
  | _ => none

/-- R181, R197, R198: the predicate that an instruction writes in its active lanes; p0 stays true, and every other
predicate and lane is as it was. -/
structure PredWrites (s t : State) (p : Nat) (lanes : List Nat) (v : Nat → Bool) : Prop where
  written : p ≠ 0 → ∀ l ∈ lanes, t.grp.pred p l = v l
  kept : ∀ q l, l < 64 → ¬ (q = p ∧ l ∈ lanes) → t.grp.pred q l = s.grp.pred q l
  always : ∀ l, t.grp.pred 0 l = true
  vregs : t.grp.vregs = s.grp.vregs
  next : t.frag = { s.frag with pc := s.frag.pc + 1 }
  frame : LaneFrame s t

/-- R202, R150: a lane instruction that writes a scalar register of the strand and moves on: the register's pending mark
of the running block is released, a value that the strand has written since then stays, and nothing else is changed but
the checkpoints, FPFLAGS and the words popped. -/
structure ScalarWrite (s t : State) (r : BitVec 6) (v : Dword) : Prop where
  value : t.reg r = if r = 0 then 0 else if bit (s.grp.st.later.headD 0) r.toNat then s.reg r else v
  others : ∀ q, q ≠ r → t.reg q = s.reg q
  spc : t.spc = s.spc
  mark : ∀ b bs, s.grp.blocks = b :: bs → ∃ c cs, t.grp.blocks = c :: cs ∧
    ∀ k, k < 64 → bit c.pending k = (bit b.pending k && k != r.toNat)
  next : t.frag = { s.frag with pc := s.frag.pc + 1 }
  rest : { t with groups := s.groups } = s
  apart : ∀ i, i ≠ s.cur.grp → t.group i = s.group i
  group : { t.grp with
      st := s.grp.st
      blocks := s.grp.blocks
      side := s.grp.side
      slds := s.grp.slds
      frags := s.grp.frags
      fpflags := s.grp.fpflags
      popq := s.grp.popq } = s.grp
  bytes : ∀ a, memGet t.mem a = memGet s.mem a

end Sys2Proof.Claims

/-! ## Lane instructions (R180-R247) -/

/-- R61, R65-R67, R69: an integer result is the exact one modulo 2^N, or under saturation the nearest value of the type, with SAT
where that is another; the image is the value extended to 32 bits, or 64 for a 64-bit type. R190: the sum and the product
of finite operands are exact before rounding; a NaN operand gives the first NaN made quiet, and a signaling one raises
IV; ∞ − ∞ and 0 × ∞ are invalid. A finite number rounds to the float type's unit in the last place by the mode, inexact
exactly where that changes it; a float rounds to an integer and is clamped, with IV, to the type. The reciprocal is exact
before that rounding; the root is exact or lies between the two multiples of 2^−256 around it; 2^x of an integer and the
logarithm of its result are exact; zeros and negative numbers give R190's results. R193-R196: a code of a block is its
scaled value; quantising rounds the quotient and clamps; the dot products are the exact sums. -/
def Obligations.ExactArithmetic : Prop :=
  (∀ (t : Ty) (sat : Bool) (v : Int), t.isInt = true →
     let r := intResult t sat v
     let x := readInt t r.1
     t.lo ≤ x ∧ x ≤ t.hi ∧
     (sat = false → (x - v) % 2 ^ t.bits = 0 ∧ r.2 = 0) ∧
     (sat = true → x = max t.lo (min t.hi v) ∧ r.2 = if t.lo ≤ v ∧ v ≤ t.hi then 0 else flagSAT) ∧
     (t.bits ≤ 32 → r.1 < 2 ^ 32 ∧ ((BitVec.ofNat 32 r.1).toInt - x) % 2 ^ 32 = 0) ∧
     (t.bits = 64 → r.1 < 2 ^ 64)) ∧
  (∀ (m : Mode) (a b : XVal),
     (∀ p q n k d e, a = .fin p n d → b = .fin q k e → 0 < d → 0 < e →
       let r := (xadd m a b).1
       r.isNaN = false ∧ r.isInf = false ∧ 0 < r.den ∧ r.num * (d * e) = (a.num * e + b.num * d) * r.den ∧
       (xadd m a b).2 = 0 ∧ (xmul a b).2 = 0 ∧
       (xmul a b).1.num * (d * e) = a.num * b.num * (xmul a b).1.den ∧ (xmul a b).1.sign = Bool.xor p q) ∧
     (a.isNaN = true ∨ b.isNaN = true →
       (xadd m a b).1 = firstNaN [a, b] ∧ (xmul a b).1 = firstNaN [a, b] ∧ (firstNaN [a, b]).isSig = false ∧
       (xadd m a b).2 = (if a.isSig ∨ b.isSig then flagIV else 0) ∧
       (xmul a b).2 = if a.isSig ∨ b.isSig then flagIV else 0) ∧
     (∀ p, xadd m (.inf p) (.inf (!p)) = (.nan none false, flagIV) ∧
       xmul (.inf p) (.fin false 0 1) = (.nan none false, flagIV))) ∧
  (∀ (t : Ty) (mode : Mode) (sat np p : Bool) (n d : Nat), t.isFloat = true → 0 < n → 0 < d →
     let x := val (.fin p n d)
     let r := roundTo t mode sat np (.fin p n d)
     r.2 &&& (flagOF ||| flagSAT) = 0 →
     ∃ m e : ℤ, (2 : ℚ) ^ e ≤ |x| ∧ |x| < 2 ^ (e + 1) ∧
       let u : ℚ := 2 ^ (max e (1 - (t.fmt.bias : ℤ)) - t.fmt.mb)
       RoundsTo mode (x / u) m ∧ val (readFloat t r.1) = m * u ∧ (r.2 &&& flagNX ≠ 0 ↔ (m : ℚ) * u ≠ x)) ∧
  (∀ (t : Ty) (mode : Mode) (p : Bool) (n d : Nat), t.isInt = true → 0 < d →
     let r := floatToInt t mode (.fin p n d)
     ∃ m : ℤ, RoundsTo mode (val (.fin p n d)) m ∧ readInt t r.1 = max t.lo (min t.hi m) ∧
       (r.2 &&& flagIV ≠ 0 ↔ m < t.lo ∨ t.hi < m)) ∧
  (∀ (p : Bool) (n d : Nat), 0 < n → 0 < d →
     (xrcp (.fin p n d)).2 = 0 ∧ val (xrcp (.fin p n d)).1 * val (.fin p n d) = 1 ∧
     xrsq (.fin false n d) = (xsqrt d n, 0) ∧ xsqrtOf (.fin false n d) = (xsqrt n d, 0) ∧
     (∃ k : ℕ, (k : ℚ) ^ 2 ≤ (n : ℚ) / d * 4 ^ 256 ∧ (n : ℚ) / d * 4 ^ 256 < (k + 1) ^ 2 ∧
       val (xsqrt n d) * 2 ^ 256 = if (k : ℚ) ^ 2 = (n : ℚ) / d * 4 ^ 256 then (k : ℚ) else k + 1 / 2) ∧
     xrcp (.fin p 0 d) = (.inf p, flagDZ) ∧ xrsq (.fin p 0 d) = (.inf p, flagDZ) ∧ xsqrtOf (.fin p 0 d) = (.fin p 0 1, 0) ∧
     xlog2Of (.fin p 0 d) = (.inf true, flagDZ) ∧ xrsq (.fin true n d) = (.nan none false, flagIV) ∧
     xsqrtOf (.fin true n d) = (.nan none false, flagIV) ∧ xlog2Of (.fin true n d) = (.nan none false, flagIV)) ∧
  (∀ k : ℤ, |k| ≤ 1024 → val (xexp2Of (XVal.ofInt k)).1 = 2 ^ k ∧
     val (xlog2Of (XVal.scale (.fin false 1 1) k)).1 = k) ∧
  (∀ (t : Ty) (q b : Nat) (zp : Bool), (t = .mx4 ∨ t = .ts8 → b % 256 ≠ 255 →
       val (blockValue t q b zp).1 = (if t = .mx4 then val (readFloat .mx4 q) else ts8Number q) * 2 ^ ((b % 256 : ℤ) - 127)) ∧
     (t = .zb4 ∨ t = .zb8 → ∀ p n d, 0 < d → readFloat .f16 (b / 2 ^ 16) = .fin p n d →
       val (blockValue t q b zp).1 = ((q % 2 ^ t.bits : ℕ) - (zeroPoint t b zp : ℚ)) * val (.fin p n d) ∧
       (n ≠ 0 → ∀ (mode : Mode) (p' : Bool) (n' d' : Nat), 0 < d' → ∃ m : ℤ,
         RoundsTo mode (val (.fin p' n' d') / val (.fin p n d)) m ∧
         ((quantise t mode (.fin p' n' d') b zp).1 : ℤ) = max 0 (min (2 ^ t.bits - 1) (m + zeroPoint t b zp))))) ∧
  (∀ (mode : Mode) (a : Nat) (zp p0 p1 pc : Bool) (n0 d0 n1 d1 nc dc : Nat), 0 < d0 → 0 < d1 → 0 < dc →
     let b0 : XVal := .fin p0 n0 d0
     let b1 : XVal := .fin p1 n1 d1
     let c : XVal := .fin pc nc dc
     (a / 2 ^ 16 % 256 ≠ 255 → let w : ℚ := 2 ^ ((a / 2 ^ 16 % 256 : ℤ) - 127)
       val (tsdot mode a b0 b1 c).1 = val c + ts8Number (a % 256) * w * val b0 + ts8Number (a / 256 % 256) * w * val b1) ∧
     ∀ t, t = .zb4 ∨ t = .zb8 →
       let z : ℚ := if zp then (a / 2 ^ 16 % 2 ^ t.bits : ℕ) else 0
       val (zdot t mode zp a b0 b1 c).1 = val c + ((a % 2 ^ t.bits : ℕ) - z) * val b0 +
         ((a / 2 ^ t.bits % 2 ^ t.bits : ℕ) - z) * val b1)

/-- R186-R188, R198, R200: integer, bit, select, move and broadcast instructions write their result in the active lanes,
set SAT where a lane saturated, move to the next instruction and change nothing else. -/
def Obligations.LaneIntegers : Prop :=
  ∀ (i : Instr) (o : LaneOp) (s : State) (e : Env), intLane i = some o → o.Passes i s e →
    ∃ t, exec i s = .next t ∧ LaneFrame s t ∧ LaneRegs s t e e.act (fun l => (o.value e l).1) ∧
      t.grp.fpflags = s.grp.fpflags ||| (raised e (fun l => (o.value e l).2)).setWidth 64

/-- R189-R196, R68, R69: floating-point and conversion instructions that raise no enabled exception write the rounded result
in the active lanes, set the flags raised, move to the next instruction and change nothing else. Where a lane raises an
enabled one, the flags of every active lane are set and FP_EXCEPTION is taken at the lowest such lane; nothing else is
written. That SAT, which has no enable, is among the flags set and reported then is the model's choice (log 80), as is the
NaN that an operation without a NaN operand writes under NANPROP (log 81). What the results are is `ExactArithmetic`'s. -/
def Obligations.LaneFloats : Prop :=
  (∀ (i : Instr) (o : LaneOp) (s : State) (e : Env), floatLane s i = some o → o.Passes i s e →
     (∀ l ∈ e.act, (o.value e l).2 &&& enables e.fmt = 0) →
     ∃ t, exec i s = .next t ∧ LaneFrame s t ∧ LaneRegs s t e e.act (fun l => (o.value e l).1) ∧
       t.grp.fpflags = s.grp.fpflags ||| (raised e (fun l => (o.value e l).2)).setWidth 64) ∧
  (∀ (i : Instr) (o : LaneOp) (s : State) (e : Env) (l : Nat), floatLane s i = some o → o.Passes i s e →
     e.act.find? (fun k => (o.value e k).2 &&& enables e.fmt != 0) = some l →
     let fl := raised e (fun k => (o.value e k).2)
     let s1 := s.setGrp { s.grp with fpflags := s.grp.fpflags ||| fl.setWidth 64 }
     exec i s = .next (deliver s1 { laneReport s o.word 0x11 l with xflags := fl.toNat }))

/-- R197, R198, R181: compares and predicate instructions write their predicate in the active lanes and nothing else. -/
def Obligations.LanePredicates : Prop :=
  (∀ (i : Instr) (o : LaneOp) (s : State) (e : Env), predLane i = some o → o.Passes i s e →
    (∀ l ∈ e.act, (o.value e l).2 &&& enables e.fmt = 0) →
    ∃ t, exec i s = .next t ∧ PredWrites s t (o.word.dst.toNat % 8) e.act (fun l => (o.value e l).1 == 1) ∧
      t.grp.popq = e.s.grp.popq ∧
      t.grp.fpflags = s.grp.fpflags ||| (raised e (fun l => (o.value e l).2)).setWidth 64) ∧
  (∀ (i : Instr) (f : LaneWord) (v : Nat → Bool) (s : State), predOnly s i = some (f, v) →
    s.cur.grp < s.groups.length →
    ∃ t, exec i s = .next t ∧ PredWrites s t (f.dst.toNat % 8) (activeLanes s f) v ∧
      t.grp.popq = s.grp.popq ∧ t.grp.fpflags = s.grp.fpflags)

/-- R201, R82, R204: VSCAN writes the tree scan in the active lanes; VSORT writes the active lanes' values in order of
value, or of totalOrder for floats, downward where its bit says so. The tree reduction of integers without saturation is
the sum, minimum, maximum, AND, OR or XOR of the active lanes' values, whatever the width, for the lanes that do not
contribute supply the identity. -/
def Obligations.ScansSortsReductions : Prop :=
  ((∀ (f : LaneWord) (s : State) (e : Env), s.cur.grp < s.groups.length →
     envT s (.vscan f) f (redTy f) rT rNo rNo = .ok e →
     let r := treeScan e (f.opC.toNat % 8) (Nat.log2 s.width) 1 (redInputs e (f.opC.toNat % 8))
     r.2 &&& enables e.fmt = 0 →
     ∃ t, exec (.vscan f) s = .next t ∧ LaneFrame s t ∧
       LaneRegs s t e e.act (fun l => moveImage e.ty ((r.1.getD l none).getD (redEmpty e.ty (f.opC.toNat % 8)))) ∧
       t.grp.fpflags = s.grp.fpflags ||| r.2.setWidth 64) ∧
   (∀ (f : LaneWord) (s : State) (e : Env), s.cur.grp < s.groups.length →
     envT s (.vsort f) f (fun t => t.isIntB || t.isArith) rT rNo rNo = .ok e →
     ∃ t, ∃ vs : List Nat, exec (.vsort f) s = .next t ∧ vs.Perm (e.act.map e.a) ∧
       (f.opC.toNat % 2 = 0 → vs.Pairwise (fun x y => sortKey e.ty x ≤ sortKey e.ty y)) ∧
       (f.opC.toNat % 2 = 1 → vs.Pairwise (fun x y => sortKey e.ty y ≤ sortKey e.ty x)) ∧
       LaneFrame s t ∧ LaneRegs s t e e.act (fun l => moveImage e.ty (vs.getD (e.act.idxOf l) 0)) ∧
       t.grp.fpflags = s.grp.fpflags)) ∧
  (∀ (e : Env) (k : Nat), e.ty.isInt = true → e.sat = false → e.s.width = 2 ^ k → (∀ l ∈ e.act, l < 2 ^ k) → e.act.Nodup →
     let xs := e.act.map (fun l => readInt e.ty (e.a l))
     let bs := e.act.map (fun l => e.a l % 2 ^ e.ty.bits)
     let r (op : Nat) : Nat := ((treeReduce e op k (redInputs e op)).1.getD 0)
     r 0 = wrapNat e.ty.bits xs.sum ∧
     readInt e.ty (r 1) = xs.foldl min e.ty.hi ∧ readInt e.ty (r 2) = xs.foldl max e.ty.lo ∧
     r 3 = bs.foldl (fun x y => x &&& y) (2 ^ e.ty.bits - 1) ∧ r 4 = bs.foldl (fun x y => x ||| y) 0 ∧
     r 5 = bs.foldl (fun x y => x ^^^ y) 0)

/-- R200-R203, R205: VRED, VBALLOT and VRDL write a scalar register of the strand; VWRL writes one lane; VQIN pushes the
active lanes' words, in order, where the buffer has room for all of them. -/
def Obligations.LaneToScalar : Prop :=
  (∀ (f : LaneWord) (s : State) (e : Env), s.cur.grp < s.groups.length →
    envT s (.vred f) f (redTy f) rT rNo rNo = .ok e →
    let r := treeReduce e (f.opC.toNat % 8) (Nat.log2 s.width) (redInputs e (f.opC.toNat % 8))
    let v := r.1.getD (redEmpty e.ty (f.opC.toNat % 8))
    r.2 &&& enables e.fmt = 0 →
    ∃ t, exec (.vred f) s = .next t ∧ ScalarWrite s t (f.dst.setWidth 6) (BitVec.ofNat 64 (image64 e.ty v)) ∧
      t.grp.popq = e.s.grp.popq ∧ t.grp.fpflags = s.grp.fpflags ||| r.2.setWidth 64) ∧
  (∀ (f : LaneWord) (s : State), s.cur.grp < s.groups.length →
    ∃ t, ∃ v : Dword, exec (.vballot f) s = .next t ∧ ScalarWrite s t (f.dst.setWidth 6) v ∧
      (∀ l, l < 64 → v.getLsbD l = decide (l ∈ activeLanes s f ∧ s.grp.pred (f.opA.toNat % 8) l = true)) ∧
      t.grp.popq = s.grp.popq ∧ t.grp.fpflags = s.grp.fpflags) ∧
  (∀ (f : LaneWord) (s : State) (e : Env), s.cur.grp < s.groups.length →
    envT s (.vrdl f) f anyTy rT rUni rNo = .ok e →
    let j := amount (e.b 0) % s.width
    ∃ t, exec (.vrdl f) s = .next t ∧
      ScalarWrite s t (f.dst.setWidth 6) (BitVec.ofNat 64 (image64 e.ty (if j ∈ s.frag.lanes then e.a j else 0))) ∧
      t.grp.popq = e.s.grp.popq ∧ t.grp.fpflags = s.grp.fpflags) ∧
  (∀ (f : LaneWord) (s : State) (e : Env), s.cur.grp < s.groups.length →
    envT s (.vwrl f) f anyTy rT rUni rNo = .ok e →
    let j := amount (e.b 0) % s.width
    ∃ t, exec (.vwrl f) s = .next t ∧ LaneFrame s t ∧ t.grp.fpflags = s.grp.fpflags ∧
      LaneRegs s t e (if j ∈ e.act then [j] else []) (fun l => moveImage e.ty (e.a l))) ∧
  (∀ (f : LaneWord) (s : State) (e : Env), s.cur.grp < s.groups.length →
    envT s (.vqin f) f anyTy rT rNo rNo = .ok e → kindOf s.grp (f.dst.toNat % 16) ≠ 0 → blockHeld s.grp = false →
    (∀ p ∈ s.grp.vqin, p.1 ≠ s.cur.frag ∧ p.2.1 ≠ f.dst.toNat % 16) →
    (mapGet [] s.grp.pushq (f.dst.toNat % 16)).length + e.act.length ≤ 16 →
    ∃ t, exec (.vqin f) s = .next t ∧ t.frag = { s.frag with pc := s.frag.pc + 1 } ∧
      mapGet [] t.grp.pushq (f.dst.toNat % 16) = mapGet [] s.grp.pushq (f.dst.toNat % 16) ++
        e.act.map (fun l => BitVec.ofNat 64 (image64 e.ty (e.a l))) ∧
      (∀ q, q ≠ f.dst.toNat % 16 → mapGet [] t.grp.pushq q = mapGet [] s.grp.pushq q) ∧
      t.grp.popq = e.s.grp.popq ∧ t.grp.vregs = s.grp.vregs ∧ t.grp.preds = s.grp.preds ∧ t.grp.st = s.grp.st ∧
      GroupOnly s t)

namespace Sys2Proof.Claims

open Sys2Proof.Machine

/-! ### Lane memory -/

/-- Stores by lane in ascending order: the value of a byte after stores (location, bytes, value), the last one standing. -/
def lastByte (xs : List (Nat × Nat × Nat)) (a : Nat) (b : Byte) : Byte :=
  xs.foldl (fun b x => if x.1 ≤ a ∧ a < x.1 + x.2.1 then BitVec.ofNat 8 (x.2.2 / 256 ^ (a - x.1)) else b) b

/-- R224: atomics (location, operand, expected value) one after the other: the memory left and the old values. -/
def atomRun (t : Ty) (op : Nat) : Memory → List (Nat × Nat × Nat) → Memory × List Nat
  | m, [] => (m, [])
  | m, (loc, v, ex) :: xs =>
    let old := memRead m loc (t.bits / 8)
    let m' := match atomNew t op old v ex with
      | some n => memWrite m loc (t.bits / 8) n
      | none => m
    ((atomRun t op m' xs).1, old :: (atomRun t op m' xs).2)

/-- A lane access has changed nothing but its vector registers, latches, the fragment, the words popped, what its group
has seen and touched, of the stores that wait too, what its core has cached of translations and core-private lines, and
what goes to the base dies. -/
structure AccessFrame (s t : State) : Prop where
  rest : { t with
      groups := s.groups
      pipes := s.pipes
      tlb := s.tlb
      walks := s.walks
      dirty := s.dirty
      cpLines := s.cpLines
      baseOps := s.baseOps
      remote := s.remote } = s
  stores : t.dirty.map (fun d => { d with readers := [] }) = s.dirty.map (fun d => { d with readers := [] })
  others : ∀ i, i ≠ s.cur.grp → t.group i = s.group i
  group : { t.grp with
      frags := s.grp.frags
      vregs := s.grp.vregs
      resid := s.grp.resid
      abind := s.grp.abind
      popq := s.grp.popq
      taken := s.grp.taken
      touched := s.grp.touched
      seen := s.grp.seen } = s.grp
  bytes : ∀ a, memGet t.mem a = memGet s.mem a

/-- A lane store leaves the registers, the predicates and the strand of its group as they were, and moves on. -/
structure StoreFrame (s t : State) (e : Env) : Prop where
  vregs : t.grp.vregs = s.grp.vregs
  preds : t.grp.preds = s.grp.preds
  strand : t.grp.st = s.grp.st
  act : t.grp.act = s.grp.act
  popped : t.grp.popq = e.s.grp.popq
  next : t.frag = { s.frag with pc := s.frag.pc + 1 }

/-- Every access of the lanes is plain, and no value that an ordinary load, or a coherent one, may take of it is marked
uncorrectable. -/
def PlainLoads (s : State) (xs : List LaneAcc) (size : Nat) : Prop := ∀ x ∈ xs, Plain s x.acc ∧
  ∀ c ∈ loadChoices s s.cur.grp (x.acc.loc / 8) x.acc.coh (unitMask (x.acc.loc % 8) size), poisonedBy s x.acc size c = false
def PlainCoherent (s : State) (xs : List LaneAcc) (size : Nat) : Prop := ∀ x ∈ xs, Plain s x.acc ∧
  ∀ c ∈ coherentChoices s s.cur.grp x.acc (unitMask (x.acc.loc % 8) size), poisonedBy s x.acc size c = false

/-- Every access of the lanes is plain, of memory that is not marked uncorrectable for an atomic. -/
def PlainLanes (s : State) (xs : List LaneAcc) : Prop := ∀ x ∈ xs, Plain s x.acc ∧ poisonedFor s s.cur.grp x.acc = false

/-- Every store that waits for bytes that the lanes load covers all of them, so that the loads perform none. -/
def WholeLanes (s : State) (xs : List LaneAcc) (size : Nat) : Prop := ∀ x ∈ xs,
  ∀ d ∈ waitingStores s s.cur.grp (x.acc.loc / 8) x.acc.coh (unitMask (x.acc.loc % 8) size),
    d.mask &&& unitMask (x.acc.loc % 8) size = unitMask (x.acc.loc % 8) size

/-- A byte under stores that wait. -/
def shown (ws : List Dirty) (a : Nat) (b : Byte) : Byte :=
  ws.foldl (fun b w => if w.unit = a / 8 ∧ w.mask.getLsbD (8 * (a % 8)) = true then
    BitVec.ofNat 8 (w.val.toNat / 256 ^ (a % 8)) else b) b

/-- R32, R52: stores (location, bytes, value), in their order, have been left to wait, for their lines (`hc`) or in the
core's L1; memory is as it was. -/
structure StoresWait (s t : State) (hc : Bool) (xs : List (Nat × Nat × Nat)) : Prop where
  bytes : ∀ a, memGet t.mem a = memGet s.mem a
  waits : ∃ ws, t.dirty = s.dirty ++ ws ∧ (∀ w ∈ ws, w.hc = hc ∧ w.grp = s.cur.grp ∧ w.core = s.grp.core) ∧
    ∀ a b, shown ws a b = lastByte xs a b

/-- R242: the element that a lane's target is, from the base. -/
def elemNo (e : Env) (l : Nat) : Int :=
  (if e.f.w2.getLsbD 27 then (BitVec.ofNat 32 (e.b l)).toInt else ((e.b l % 2 ^ 32 : Nat) : Int)) *
    2 ^ (e.f.w2.toNat / 2 ^ 30) + dispOf e.f.w2
/-- R242: the byte that holds it, which bits of that byte it has, and a code in them. -/
def codeTarget (s : State) (e : Env) (t : Ty) (l : Nat) : Dword :=
  laneBase s e.f.opA.toNat l + BitVec.ofInt 64 (if t = .mx4 ∨ t = .zb4 then elemNo e l / 2 else elemNo e l)
def codeMask (e : Env) (t : Ty) (l : Nat) : Byte :=
  if t = .mx4 ∨ t = .zb4 then (if elemNo e l % 2 = 1 then 0xF0 else 0x0F) else 0xFF
def codeByte (e : Env) (t : Ty) (l q : Nat) : Byte :=
  BitVec.ofNat 8 (if (t = .mx4 ∨ t = .zb4) ∧ elemNo e l % 2 = 1 then 16 * q else q)

/-- R241, R243: the conversion of a lane with a carry: code, residue and flags. -/
def converted (s : State) (e : Env) (a : Dword) (t : Ty) (l c : Nat) : Nat × Nat × FpFlags :=
  let c1 := if axisReset a = true ∧ elemNo e l % (axisBlock a : Int) = 0 then 0 else c
  stippleStep (xadd .rne (readFloat .f32 (e.c l)) (readFloat .f32 c1)).1 t (s.grp.vlane (axisMreg a) l) (axisZp a)
    (axisClamp a)
/-- R243, LANE mode: each lane takes the residue that the one before it left. -/
def chained (s : State) (e : Env) (a : Dword) (t : Ty) : List Nat → Nat → List (Nat × Nat × Nat × FpFlags)
  | [], _ => []
  | l :: ls, c => (l, converted s e a t l c) :: chained s e a t ls (converted s e a t l c).2.1
/-- R243: the conversions of the active lanes, by mode. -/
def conversions (s : State) (e : Env) (n : Nat) (a : Dword) (t : Ty) : List (Nat × Nat × Nat × FpFlags) :=
  if axisLane a = true then chained s e a t e.act (residue s.grp n (s.width - 1))
  else e.act.map (fun l => (l, converted s e a t l (residue s.grp n l)))

/-- The flags of all conversions. -/
def flagsOf (rs : List (Nat × Nat × Nat × FpFlags)) : FpFlags := rs.foldl (fun m r => m ||| r.2.2.2) 0

/-- R246: the lanes that form addresses, and the lane whose residue goes with one. -/
def axisLanes (e : Env) (a : Dword) : List Nat := if axisLane a = true then e.act.take 1 else e.act
def carrier (s : State) (a : Dword) (l : Nat) : Nat := if axisLane a = true then s.width - 1 else l

/-- R240: the axis is bound to the fragment's slices; the other bindings are as they were. -/
structure Binds (s t : State) (n : Nat) : Prop where
  own : t.grp.abind.toNat / 2 ^ (16 * n) % 2 ^ 16 = s.frag.smask.toNat
  others : ∀ m, m < 4 → m ≠ n →
    t.grp.abind.toNat / 2 ^ (16 * m) % 2 ^ 16 = s.grp.abind.toNat / 2 ^ (16 * m) % 2 ^ 16

/-- A byte under stores of some of its bits: what is written (location, bits, value), in order. -/
def shownBits (ws : List Dirty) (a : Nat) (b : Byte) : Byte :=
  ws.foldl (fun b w => if w.unit = a / 8 then
    let m := BitVec.ofNat 8 (w.mask.toNat / 256 ^ (a % 8))
    (b &&& ~~~ m) ||| (BitVec.ofNat 8 (w.val.toNat / 256 ^ (a % 8)) &&& m) else b) b
/-- Stores of some bits of bytes have been left to wait, as `StoresWait` says of whole ones. -/
structure MaskedWait (s t : State) (hc : Bool) (xs : List (Nat × Byte × Byte)) : Prop where
  bytes : ∀ a, memGet t.mem a = memGet s.mem a
  waits : ∃ ws, t.dirty = s.dirty ++ ws ∧ (∀ w ∈ ws, w.hc = hc ∧ w.grp = s.cur.grp ∧ w.core = s.grp.core) ∧
    ∀ a b, shownBits ws a b = xs.foldl (fun b x => if x.1 = a then (b &&& ~~~ x.2.1) ||| (x.2.2 &&& x.2.1) else b) b

/-- The instructions of the stipple store with the operands that they read. -/
def stipple : Instr → Option (LaneWord × (Ty → Read) × (Ty → Read) × (Ty → Read))
  | .vstq f => some (f, rBase, rTy .n32, rTy .f32)
  | .esav f => some (f, rBase, rTy .n32, rNo)
  | .elod f => some (f, rBase, rTy .n32, rNo)
  | .eclr f => some (f, rNo, rNo, rNo)
  | _ => none

/-- R207: the word offset of a lane branch or jump, from the next instruction. -/
def laneJump (s : State) (f : LaneWord) : BitVec 26 := s.frag.pc + 1 + (f.w2.setWidth 24).signExtend 26

/-- Lane control has changed nothing but fragments, stacks and active masks; no stack has passed what the hardware holds. -/
structure ControlFrame (s t : State) : Prop where
  rest : { t with groups := s.groups } = s
  others : ∀ i, i ≠ s.cur.grp → t.group i = s.group i
  group : { t.grp with
      frags := s.grp.frags
      recon := s.grp.recon
      spilled := s.grp.spilled
      act := s.grp.act } = s.grp
  bytes : ∀ a, memGet t.mem a = memGet s.mem a

/-- Nothing has changed but the PC of the fragment that moves. -/
structure PcOnly (s t : State) (pc : BitVec 26) : Prop where
  rest : t = s.setGrp { s.grp with frags := t.grp.frags }
  pc : t.frag = { s.frag with pc := pc }
  others : ∀ i, i ≠ s.cur.frag → mapGet default t.grp.frags i = mapGet default s.grp.frags i
  bytes : ∀ a, memGet t.mem a = memGet s.mem a

end Sys2Proof.Claims

/-- R214, R216, R40: VLD writes in each active lane the element at its address, from one of the values that an ordinary
load may return; VLDC takes one that a coherent load may, which is the newest value where the group has no store waiting
there and every write is published; where no store that waits is shown in part, neither changes memory. VPREF only moves
on. -/
def Obligations.LaneLoads : Prop :=
  (∀ (f : LaneWord) (s : State) (e : Env) (xs : List LaneAcc),
    LaneChecked s (.vld f) f memTy rBase (rTy .n32) rNo e →
    laneAccesses e (w2Imm f.w2) (e.ty.bits / 8) needR 0 = .ok xs → PlainLoads s xs (e.ty.bits / 8) →
    ∃ t v, exec (.vld f) s = .next t ∧ LaneRegs s t e e.act v ∧ xs.map LaneAcc.lane = e.act ∧
      (∀ x ∈ xs, x.va = laneVa s e (dispOf f.w2) x.lane) ∧
      (WholeLanes s xs (e.ty.bits / 8) → AccessFrame s t ∧ ∀ x ∈ xs,
        ∃ u ∈ loadValues s s.cur.grp (x.acc.loc / 8) x.acc.coh (unitMask (x.acc.loc % 8) (e.ty.bits / 8)),
          v x.lane = moveImage e.ty (u.toNat / 2 ^ (8 * (x.acc.loc % 8)) % 2 ^ e.ty.bits))) ∧
  (∀ (f : LaneWord) (s : State) (e : Env) (xs : List LaneAcc),
    LaneChecked s (.vldc f) f memTy rBase (rTy .n32) rNo e →
    laneAccesses e (w2Imm f.w2) (e.ty.bits / 8) needR 0 = .ok xs → PlainCoherent s xs (e.ty.bits / 8) →
    ∃ t v, exec (.vldc f) s = .next t ∧ LaneRegs s t e e.act v ∧ xs.map LaneAcc.lane = e.act ∧
      (∀ x ∈ xs, x.va = laneVa s e (dispOf f.w2) x.lane) ∧
      (WholeLanes s xs (e.ty.bits / 8) → AccessFrame s t ∧ ∀ x ∈ xs,
        let m := unitMask (x.acc.loc % 8) (e.ty.bits / 8)
        (∃ u ∈ (coherentChoices s s.cur.grp x.acc m).map Choice.val,
          v x.lane = moveImage e.ty (u.toNat / 2 ^ (8 * (x.acc.loc % 8)) % 2 ^ e.ty.bits)) ∧
        (x.acc.coh ≠ 2 → (∀ d ∈ waitingStores s s.cur.grp (x.acc.loc / 8) x.acc.coh m, d.grp ≠ s.cur.grp) →
          (∀ h ∈ unitHist s (x.acc.loc / 8), h.shut ≠ 0) →
          v x.lane = moveImage e.ty ((unitOf s (x.acc.loc / 8)).toNat / 2 ^ (8 * (x.acc.loc % 8)) % 2 ^ e.ty.bits)))) ∧
  (∀ (f : LaneWord) (s : State) (e : Env), s.cur.grp < s.groups.length →
    envT s (.vpref f) f (fun _ => true) rBase (rTy .n32) rNo = .ok e →
    ∃ t, exec (.vpref f) s = .next t ∧ LaneFrame s t ∧ StoreFrame s t e ∧ t.grp.fpflags = s.grp.fpflags)

/-- R216, R218, R32, R52: VST completes for every active lane whose element may be written, and leaves the elements as
stores that wait, in ascending order of lane: for their lines on pages with hardware coherence, in the core's L1, while it
has room, on the others. -/
def Obligations.LaneStores : Prop :=
  (∀ (f : LaneWord) (s : State) (e : Env), LaneChecked s (.vst f) f memTy rBase (rTy .n32) rT e →
    (∀ l ∈ e.act, ∃ a, groupAccess s (laneVa s e (dispOf f.w2) l) (e.ty.bits / 8) needW = .ok a ∧ Plain s a) →
    ∃ t, exec (.vst f) s = .next t ∧ StoreFrame s t e) ∧
  (∀ (f : LaneWord) (s : State) (e : Env) (xs : List LaneAcc),
    LaneChecked s (.vst f) f memTy rBase (rTy .n32) rT e →
    laneAccesses e (w2Imm f.w2) (e.ty.bits / 8) needW 1 = .ok xs → (∀ x ∈ xs, Plain s x.acc) →
    let ws := xs.map (fun x => (x.acc.loc, e.ty.bits / 8, e.c x.lane))
    ∃ t, exec (.vst f) s = .next t ∧ StoreFrame s t e ∧ xs.map LaneAcc.lane = e.act ∧
      (∀ x ∈ xs, x.va = laneVa s e (dispOf f.w2) x.lane) ∧
      ((∀ x ∈ xs, x.acc.coh = 0) → StoresWait s t true ws) ∧
      ((∀ x ∈ xs, x.acc.coh ≠ 0) →
        (s.dirty.filter (fun d => d.core == s.grp.core && !d.hc)).length + xs.length ≤ 16 → StoresWait s t false ws))

/-- R223, R224: a relaxed VATOM of memory with hardware coherence performs the active lanes' atomics in ascending order
of lane, each on what the ones before it, and the group's own stores to the units, left, and writes the old values. That
memory holds the new values in the step of the instruction is the model's choice (log 64). Orders other than relaxed, and
pages that are software-coherent or core-private, are left out here. -/
def Obligations.LaneAtomics : Prop :=
  ∀ (f : LaneWord) (s : State) (e : Env) (xs : List LaneAcc),
    LaneChecked s (.vatom f) f (atomTy f) rBase (rTy .n32) rT e → f.w2.toNat / 2 ^ 18 % 4 = 0 →
    laneAccesses e (w2Disp f.w2) (e.ty.bits / 8) needRW 2 = .ok xs → PlainLanes s xs → (∀ x ∈ xs, x.acc.coh = 0) →
    let own := performDirty s (fun d => !d.cp && d.hc && d.grp == s.cur.grp &&
      xs.any (fun x => x.acc.loc / 8 == d.unit))
    let r := atomRun e.ty (f.w2.toNat / 2 ^ 20 % 16) own.mem (xs.map (fun x =>
      (x.acc.loc, e.c x.lane % 2 ^ e.ty.bits, atomExp e x.lane % 2 ^ e.ty.bits)))
    ∃ t v, exec (.vatom f) s = .next t ∧ LaneRegs s t e e.act v ∧ xs.map LaneAcc.lane = e.act ∧
      (∀ x ∈ xs, x.va = laneVa s e (dispAtom f.w2) x.lane) ∧ (∀ a, memGet t.mem a = memGet r.1 a) ∧
      xs.map (fun x => v x.lane) = r.2.map (moveImage e.ty) ∧ t.grp.st = s.grp.st

/-- R222, R29, R50: LLD, LST and a relaxed LATOM read and write the team's local store, lane by lane in ascending order,
and leave memory alone; where an engine's write there is not yet visible, a lane may read a value from before it. -/
def Obligations.LocalStore : Prop :=
  (∀ (f : LaneWord) (s : State) (e : Env) (xs : List (Nat × Nat × Nat)),
    LaneChecked s (.lld f) f memTy (rTy .n32) (rTy .n32) rNo e →
    localAccesses e (w2Imm f.w2) (e.ty.bits / 8) = .ok xs → (∀ x ∈ xs, localBad s s.grp x.2 = false) →
    ∃ t v, exec (.lld f) s = .next t ∧ LaneRegs s t e e.act v ∧ AccessFrame s t ∧ t.grp.resid = s.grp.resid ∧
      xs.map Prod.fst = e.act ∧ ∀ x ∈ xs,
        (∃ u ∈ localValues s s.grp x.2, v x.1 = moveImage e.ty (u.1.toNat / 2 ^ (8 * (x.2.2 % 8)) % 2 ^ e.ty.bits)) ∧
        ((∀ h ∈ unitHist s (localName s s.grp x.2), h.shut ≠ 0) →
          v x.1 = moveImage e.ty (memRead (localMem s s.grp x.2.1) x.2.2 (e.ty.bits / 8)))) ∧
  (∀ (f : LaneWord) (s : State) (e : Env) (xs : List (Nat × Nat × Nat)),
    LaneChecked s (.lst f) f memTy (rTy .n32) (rTy .n32) rT e → s.teamOf s.grp < s.teams.length →
    localAccesses e (w2Imm f.w2) (e.ty.bits / 8) = .ok xs →
    ∃ t, exec (.lst f) s = .next t ∧ StoreFrame s t e ∧ xs.map Prod.fst = e.act ∧
      (∀ w a, w < 2 → memGet (localMem t t.grp w) a = lastByte ((xs.filter (fun x => x.2.1 == w)).map
        (fun x => (x.2.2, e.ty.bits / 8, e.c x.1))) a (memGet (localMem s s.grp w) a)) ∧
      ∀ a, memGet t.mem a = memGet s.mem a) ∧
  (∀ (f : LaneWord) (s : State) (e : Env) (xs : List (Nat × Nat × Nat)) (w : Nat),
    LaneChecked s (.latom f) f (atomTy f) (rTy .n32) (rTy .n32) rT e → s.teamOf s.grp < s.teams.length →
    f.w2.toNat / 2 ^ 18 % 4 = 0 → localAccesses e (w2Disp f.w2) (e.ty.bits / 8) = .ok xs →
    (∀ x ∈ xs, localBad s s.grp x.2 = false ∧ x.2.1 = w) →
    let r := atomRun e.ty (f.w2.toNat / 2 ^ 20 % 16) (localMem s s.grp w) (xs.map (fun x =>
      (x.2.2, e.c x.1 % 2 ^ e.ty.bits, atomExp e x.1 % 2 ^ e.ty.bits)))
    ∃ t v, exec (.latom f) s = .next t ∧ LaneRegs s t e e.act v ∧ xs.map Prod.fst = e.act ∧
      ((∀ x ∈ xs, ∀ h ∈ unitHist s (localName s s.grp x.2), h.shut ≠ 0) →
        (∀ a, memGet (localMem t t.grp w) a = memGet r.1 a) ∧ xs.map (fun x => v x.1) = r.2.map (moveImage e.ty)) ∧
      ∀ a, memGet t.mem a = memGet s.mem a)

/-- R238-R246: the stipple store, in both modes of the axis. ECLR clears the residues of the active lanes, and the carry in
LANE mode; ESAV stores residues and ELOD loads them, of each active lane, or of lane W − 1 at the lowest active lane's
address in LANE mode; VSTQ converts the active lanes, each with its own residue or in LANE mode with the one that the lane
below left, stores their codes, a 4-bit one into its half of a byte, and leaves the new residues; an enabled flag is trapped
instead. The stores wait for their lines, or in the core's L1. Each binds its axis to the fragment's slices and leaves the
other axes' bindings; where slices outside the fragment hold the axis it traps with STIPPLE_ORDER. The residue that a
conversion leaves is that of `stippleStep`, in which a zero has the sign that the subtraction gives: the model's reading
(log 57). -/
def Obligations.StippleStore : Prop :=
  (∀ (f : LaneWord) (s : State) (e : Env), s.cur.grp < s.groups.length → s.width ≤ 64 →
    envT s (.eclr f) f (fun _ => true) rNo rNo rNo = .ok e → bindOk s (f.dst.toNat % 4) = true →
    ∃ t, exec (.eclr f) s = .next t ∧ AccessFrame s t ∧ t.frag = { s.frag with pc := s.frag.pc + 1 } ∧
      t.grp.vregs = s.grp.vregs ∧ (∀ l ∈ e.act, residue t.grp (f.dst.toNat % 4) l = 0) ∧
      (axisLane (axisOf e).2 = true → e.act ≠ [] → residue t.grp (f.dst.toNat % 4) (s.width - 1) = 0) ∧
      (∀ n l, l < 64 → ¬ (n = f.dst.toNat % 4 ∧ (l ∈ e.act ∨ axisLane (axisOf e).2 = true ∧ l = s.width - 1)) →
        residue t.grp n l = residue s.grp n l) ∧ Binds s t (f.dst.toNat % 4)) ∧
  (∀ (f : LaneWord) (s : State) (e : Env) (xs : List LaneAcc),
    LaneChecked s (.esav f) f (fun _ => true) rBase (rTy .n32) rNo e → bindOk s (f.dst.toNat % 4) = true →
    let n := f.dst.toNat % 4
    let a := (axisOf e).2
    laneAccesses { e with act := axisLanes e a } (w2Imm f.w2) 4 needW 1 = .ok xs → (∀ x ∈ xs, Plain s x.acc) →
    let ws := xs.map (fun x => (x.acc.loc, 4, residue s.grp n (carrier s a x.lane)))
    ∃ t, exec (.esav f) s = .next t ∧ StoreFrame s t e ∧ t.grp.resid = s.grp.resid ∧ Binds s t n ∧
      xs.map LaneAcc.lane = axisLanes e a ∧ (∀ x ∈ xs, x.va = laneVa s e (dispOf f.w2) x.lane) ∧
      ((∀ x ∈ xs, x.acc.coh = 0) → StoresWait s t true ws) ∧
      ((∀ x ∈ xs, x.acc.coh ≠ 0) →
        (s.dirty.filter (fun d => d.core == s.grp.core && !d.hc)).length + xs.length ≤ 16 → StoresWait s t false ws)) ∧
  (∀ (f : LaneWord) (s : State) (e : Env) (xs : List LaneAcc),
    LaneChecked s (.elod f) f (fun _ => true) rBase (rTy .n32) rNo e → bindOk s (f.dst.toNat % 4) = true →
    let n := f.dst.toNat % 4
    let a := (axisOf e).2
    laneAccesses { e with act := axisLanes e a } (w2Imm f.w2) 4 needR 0 = .ok xs → PlainLoads s xs 4 →
    ∃ t, exec (.elod f) s = .next t ∧ StoreFrame s t e ∧ Binds s t n ∧ xs.map LaneAcc.lane = axisLanes e a ∧
      (∀ x ∈ xs, x.va = laneVa s e (dispOf f.w2) x.lane) ∧
      (∀ k l, l < 64 → s.width ≤ 64 → ¬ (k = n ∧ l ∈ xs.map (fun x => carrier s a x.lane)) →
        residue t.grp k l = residue s.grp k l) ∧
      (WholeLanes s xs 4 → AccessFrame s t ∧ ∀ x ∈ xs,
        ∃ u ∈ loadValues s s.cur.grp (x.acc.loc / 8) x.acc.coh (unitMask (x.acc.loc % 8) 4),
          residue t.grp n (carrier s a x.lane) = u.toNat / 2 ^ (8 * (x.acc.loc % 8)) % 2 ^ 32)) ∧
  (∀ (f : LaneWord) (s : State) (e : Env) (t : Ty) (x : Nat → Acc),
    LaneChecked s (.vstq f) f (fun _ => true) rBase (rTy .n32) (rTy .f32) e →
    let n := f.dst.toNat % 4
    let a := (axisOf e).2
    let rs := conversions s e n a t
    bindOk s n = true → axisType a = some t → bits a.toNat 15 11 ≠ 0 → axisMreg a < s.nvreg →
    (∀ l ∈ e.act, groupAccess s (codeTarget s e t l) 1 needW = .ok (x l) ∧ Plain s (x l)) →
    ((∀ r ∈ rs, r.2.2.2 &&& enables e.fmt = 0) →
      ∃ u, exec (.vstq f) s = .next u ∧ StoreFrame s u e ∧ Binds s u n ∧
        u.grp.fpflags = s.grp.fpflags ||| (flagsOf rs).setWidth 64 ∧
        (∀ r ∈ rs, residue u.grp n r.1 = r.2.2.1 % 2 ^ 32) ∧
        (∀ r, axisLane a = true → rs.getLast? = some r → residue u.grp n (s.width - 1) = r.2.2.1 % 2 ^ 32) ∧
        (∀ k l, l < 64 → s.width ≤ 64 → ¬ (k = n ∧ (l ∈ e.act ∨ axisLane a = true ∧ l = s.width - 1)) →
          residue u.grp k l = residue s.grp k l) ∧
        (let ws := rs.map (fun r => ((x r.1).loc, codeMask e t r.1, codeByte e t r.1 r.2.1))
         ((∀ l ∈ e.act, (x l).coh = 0) → MaskedWait s u true ws) ∧
         ((∀ l ∈ e.act, (x l).coh ≠ 0) →
           (s.dirty.filter (fun d => d.core == s.grp.core && !d.hc)).length + e.act.length ≤ 16 →
           MaskedWait s u false ws))) ∧
    (∀ r, rs.find? (fun r => r.2.2.2 &&& enables e.fmt != 0) = some r →
      let fl := flagsOf rs
      exec (.vstq f) s = .next (deliver (s.setGrp { s.grp with fpflags := s.grp.fpflags ||| fl.setWidth 64 })
        { laneReport s f 0x11 r.1 with xflags := fl.toNat }))) ∧
  (∀ (i : Instr) (f : LaneWord) (ra rb rc : Ty → Read) (s : State) (e : Env), stipple i = some (f, ra, rb, rc) →
    LaneChecked s i f (fun _ => true) ra rb rc e →
    (∀ l, i = .vstq l → ∃ t, axisType (axisOf e).2 = some t ∧ bits (axisOf e).2.toNat 15 11 ≠ 0 ∧
      axisMreg (axisOf e).2 < s.nvreg) →
    bindOk s (f.dst.toNat % 4) = false →
    exec i s = .next (deliver s { laneReport s f 0x10 (wholeLane s f) with addr := 0 })) ∧
  (∀ (f : LaneWord) (s : State) (e : Env), LaneChecked s (.vstq f) f (fun _ => true) rBase (rTy .n32) (rTy .f32) e →
    bits (axisOf e).2.toNat 15 11 = 0 ∨ s.nvreg ≤ axisMreg (axisOf e).2 →
    exec (.vstq f) s = .next (deliver s { laneReport s f 0x02 (wholeLane s f) with addr := 0 })) ∧
  ∀ (s : State) (n : Nat), n < 4 → (bindOk s n = true ↔
    ∀ k, k < 16 → s.grp.abind.getLsbD (16 * n + k) = true → s.frag.smask.getLsbD k = true)

/-- R207, R127: LBRA goes to its target where every active lane of every slice takes it, on where none does; a slice
whose lanes disagree runs the lanes that take it first, with PATH above RESUME on its stack, and memory is left alone
where both entries fit into the hardware (R129). -/
def Obligations.LaneBranch : Prop :=
  ∀ (f : LaneWord) (s : State), s.cur.grp < s.groups.length → s.frag.smask ≠ 0 →
    (∀ sl ∈ s.frag.slices, (s.grp.stackAt sl).length ≤ 62) →
    let off := ((f.opA ++ f.opB ++ f.opC).extractLsb' 6 24)
    let j := if off = 0 then (0x3FFFFFF : BitVec 26) else s.frag.pc + 1 + off.signExtend 26
    ((∀ sl ∈ s.frag.slices, (∃ i, i < 4 ∧ laneActive s f (4 * sl + i) = true) ∧
        ∀ i, i < 4 → bit s.grp.act (4 * sl + i) = true → laneActive s f (4 * sl + i) = true) →
      ∃ t, exec (.lbra f) s = .next t ∧ ControlFrame s t ∧ t.grp.recon = s.grp.recon ∧ t.grp.act = s.grp.act ∧
        t.frag = { s.frag with
          pc := laneJump s f
          wait := 0 }) ∧
    ((∀ l ∈ s.frag.lanes, laneActive s f l = false) →
      ∃ t, exec (.lbra f) s = .next t ∧ ControlFrame s t ∧ t.grp.recon = s.grp.recon ∧ t.grp.act = s.grp.act ∧
        t.frag = { s.frag with
          pc := s.frag.pc + 1
          wait := 0 }) ∧
    (∀ sl i k, s.frag.slices = [sl] → i < 4 → k < 4 → laneActive s f (4 * sl + i) = true →
      laneActive s f (4 * sl + k) = false → bit s.grp.act (4 * sl + k) = true →
      ∃ t, ∃ nt : BitVec 16, exec (.lbra f) s = .next t ∧
        (mapGet 0 s.grp.spilled sl ≤ (s.grp.stackAt sl).length →
          (s.grp.stackAt sl).length + 2 ≤ mapGet 0 s.grp.spilled sl + 8 → ControlFrame s t) ∧
        t.frag = { s.frag with
          pc := laneJump s f
          wait := 0 } ∧
        t.grp.stackAt sl = ⟨1, nt, s.frag.pc + 1, j, s.frag.fmtc⟩ ::
          ⟨2, BitVec.ofNat 16 (s.grp.actOf sl), 0, j, s.frag.fmtc⟩ :: s.grp.stackAt sl ∧
        (∀ n, n < 4 → bit t.grp.act (4 * sl + n) = laneActive s f (4 * sl + n)) ∧
        ∀ n, n < 4 → nt.getLsbD n = (bit s.grp.act (4 * sl + n) && !laneActive s f (4 * sl + n)))

/-- R208-R210, R212, R213: the words of LJMP, LPAD and LNOP; LJMP goes by its offset, LPAD and LNOP on, and neither the
stacks, the split entries, JOIN nor the latches and holds change; LJTAB goes to the pad of the entry that every active lane
names; PHINT goes on, and where a save is requested and the group is fully ganged the group begins its save with the
maps given. -/
def Obligations.LaneJumps : Prop :=
  (∀ (o : BitVec 24) (l : BitVec 12),
    (∃ f : LaneWord, decodeLane (0x121 * 2 ^ 23 + o.toNat * 2 ^ 64) = some (.ljmp f) ∧ f.w2 = o.setWidth 32) ∧
    (∃ f : LaneWord, decodeLane (0x123 * 2 ^ 23 + l.toNat * 2 ^ 64) = some (.lpad f) ∧ f.w2 = l.setWidth 32) ∧
    ∃ f : LaneWord, decodeLane 0x94000000 = some (.lnop f)) ∧
  (∀ (f : LaneWord) (s : State), s.cur.grp < s.groups.length →
    (∃ t, exec (.ljmp f) s = .next t ∧ PcOnly s t (laneJump s f)) ∧
    (∃ t, exec (.lpad f) s = .next t ∧ PcOnly s t (s.frag.pc + 1)) ∧
    (∃ t, exec (.lnop f) s = .next t ∧ PcOnly s t (s.frag.pc + 1))) ∧
  (∀ (f : LaneWord) (s : State) (e : Env) (k bound w : Nat), s.cur.grp < s.groups.length →
    envT s (.ljtab f) f (fun _ => true) (rTy .n32) rNo rNo = .ok e →
    let tab := laneJump s f
    let target := tab + (BitVec.ofNat 20 (w / 2 ^ 12)).signExtend 26
    s.frag.smask ≠ 0 → (∀ sl ∈ s.frag.slices, (s.grp.stackAt sl).length ≤ 64 ∧ ∃ l ∈ e.act, l / 4 = sl) →
    (∀ l ∈ e.act, amount (e.a l) = k) → k < bound →
    fetchLaneWord s (laneAddr s tab.toNat) 20 = .ok bound →
    fetchLaneWord s (laneAddr s tab.toNat + BitVec.ofNat 64 (4 * (k + 1))) (20 + (k + 1)) = .ok w →
    target.toNat < (s.launchOf s.grp).lcount → fetchLane s target.toNat = .ok (0x123 * 2 ^ 23 + w % 2 ^ 12 * 2 ^ 64) →
    ∃ t, exec (.ljtab f) s = .next t ∧ t.frag = { s.frag with
        pc := target
        wait := 0 } ∧ t.grp.recon = s.grp.recon ∧ t.grp.act = s.grp.act ∧ t.grp.popq = e.s.grp.popq ∧
      t.grp.vregs = s.grp.vregs ∧ GroupOnly s t) ∧
  (∀ (f : LaneWord) (s : State), s.cur.grp < s.groups.length →
    let m : Dword := f.opA ++ f.opB ++ f.opC ++ BitVec.ofBool f.sat ++ BitVec.ofBool f.negB ++ f.w2
    mapsOk (s.launchOf s.grp) m f.dst.toNat = true →
    (s.grp.saveReq = none → ∃ t, exec (.phint f) s = .next t ∧ ControlFrame s t ∧
      t.frag = { s.frag with pc := s.frag.pc + 1 }) ∧
    (∀ u, s.grp.saveReq = some u → fullyGanged s = true →
      ∃ t, exec (.phint f) s = .next t ∧ t.grp.run = .saving ∧ t.grp.saveReq = none ∧
        t.grp.save = some ⟨2, false, m, f.dst.toNat, true, none, []⟩))

/-- R127, R128, R130: a fragment with nothing to join passes LJOIN; a slice that matches RESUME takes back its mask, and one
that matches PATH runs the other lanes, under the entry's copy of FMT. A lone fragment passes REGANG, and at LEND ends the block: the next one
starts. -/
def Obligations.JoinPoints : Prop :=
  ∀ (f : LaneWord) (s : State), s.cur.grp < s.groups.length → s.frag.smask ≠ 0 →
    ((∀ sl ∈ s.frag.slices, s.grp.stackAt sl = []) →
      ∃ t, exec (.ljoin f) s = .next t ∧ ControlFrame s t ∧ t.frag = { s.frag with pc := s.frag.pc + 1 } ∧
        t.grp.recon = s.grp.recon ∧ t.grp.act = s.grp.act) ∧
    (∀ sl m p c, s.frag.slices = [sl] → s.grp.stackAt sl = [⟨2, m, p, s.frag.pc, c⟩] →
      ∃ t, exec (.ljoin f) s = .next t ∧ ControlFrame s t ∧ t.frag = { s.frag with pc := s.frag.pc + 1 } ∧
        t.grp.stackAt sl = [] ∧ t.grp.actOf sl = m.toNat % 16) ∧
    (∀ sl m p c st, s.frag.slices = [sl] → s.grp.stackAt sl = ⟨1, m, p, s.frag.pc, c⟩ :: st → st.length < 64 →
      p ≠ s.frag.pc → s.cur.frag < 16 →
      ∃ t, exec (.ljoin f) s = .next t ∧ ControlFrame s t ∧ t.frag = { s.frag with
          pc := p
          fmtc := c
          wait := 0 } ∧ t.grp.stackAt sl = st ∧ t.grp.actOf sl = m.toNat % 16) ∧
    (s.grp.live = [s.cur.frag] → (∀ sl ∈ s.frag.slices, s.grp.stackAt sl = []) →
      ∃ t, exec (.regang f) s = .next t ∧ ControlFrame s t ∧ t.frag = { s.frag with
          pc := s.frag.pc + 1
          join := 0x3FFFFFF
          spin := 0
          wait := 0 } ∧ t.grp.act = s.grp.act) ∧
    (∀ b bs, s.grp.live = [s.cur.frag] → s.grp.recon = [] → s.grp.side = [] → s.grp.slds = [] →
      s.grp.blocks = b :: bs →
      ∃ t, exec (.lend f) s = .next t ∧ t.grp.blocks.map Block.start = bs.map Block.start ∧
        t.grp.st = s.grp.st.blockOver ∧
        t.grp.frags = (match bs with
          | [] => []
          | c :: _ => [(0, firstFrag s.width c.start c.fmt)]) ∧
        ∀ a, memGet t.mem a = memGet s.mem a)

namespace Sys2Proof.Claims

open Sys2Proof.Machine

/-! ### Serialising instructions -/

/-- R37: after a pub of the moving group no store of it on a page that is not core-private still waits, and every other
store does that none of these comes behind. -/
structure Published (s t : State) : Prop where
  out : ∀ d ∈ t.dirty, ¬ (d.grp = s.cur.grp ∧ d.cp = false)
  kept : ∀ d ∈ s.dirty, ¬ (d.grp = s.cur.grp ∧ d.cp = false) →
    (∀ e ∈ s.dirty, e.grp = s.cur.grp → e.cp = false → e.after d = false) → d ∈ t.dirty
  only : ∀ d ∈ t.dirty, d ∈ s.dirty

/-- R37, R40: after a ref of the moving group its core's L1 keeps no store but core-private ones, and no ordinary load of
it goes behind what is published at this point. -/
structure Refreshed (s t : State) : Prop where
  out : ∀ d ∈ t.dirty, ¬ (d.core = s.grp.core ∧ d.cp = false ∧ d.hc = false)
  stamp : t.grp.refStamp = t.ord
  later : s.ord < t.ord

/-- The strand has moved on to the next word with its registers as they were. -/
structure Passed (s t : State) : Prop where
  spc : t.spc = s.spc + 4
  regs : ∀ r, t.reg r = s.reg r

/-- R232: no deferred remote fault waits to be reported. -/
def NoDeferred (s : State) : Prop := s.grp.deferred = []

/-- The comparison codes of SWAITC and WAITMEM (R94, R293). -/
def compareCode (c : Nat) : BranchCond :=
  match c with
  | 0 => .eq
  | 1 => .ne
  | 2 => .lt
  | 3 => .ge
  | 4 => .ltu
  | _ => .geu

/-- A comparison of words or dwords. -/
def compares (c : Nat) (dword : Bool) (x y : Dword) : Bool :=
  if dword then taken (compareCode c) x y
  else taken (compareCode c) ((x.setWidth 32).signExtend 64) ((y.setWidth 32).signExtend 64)

/-- The barrier that an SBAR names, for an issuer that may use it (R290). -/
structure BarrierOpen (s : State) (p i : Nat) : Prop where
  committed : Committed s
  awake : s.grp.wait = .none
  pair : p = 1 → (s.launchOf s.grp).pair = true
  valid : (s.barrier (barKey s.grp p i)).valid = true
  owned : ownsBarrier s s.grp (s.barrier (barKey s.grp p i)) = true

/-- R289, R48: the barrier `k` after one arrival of class LANE. A waiter that an earlier completion has woken still finds
that phase's writes. -/
def arrived (s : State) (k : Nat) : Barrier :=
  let b := s.barrier k
  if b.cnt + 1 = b.exp then { b with
    ph := !b.ph
    cnt := 0
    lpath := maskSet b.pacc 0 true
    pacc := 0
    waiters := 0
    partner := 0
    last := if wokenOn s k then b.writes ++ b.last else b.writes
    writes := [] }
  else { b with
    pacc := maskSet b.pacc 0 true
    cnt := b.cnt + 1 }

/-- A handle of a place of this package that the moving group holds (R298), at its slice and index. -/
structure Held (s : State) (h : Dword) (sl i : Nat) : Prop where
  committed : Committed s
  near : handleRemote s h = false
  held : heldPlace s h.toNat = true
  slice : sl = handleSlice h.toNat
  index : i = handleIdx h.toNat

/-- R37: the acknowledgements that a pub of the moving group at a scope waits for have come. -/
def PubDone (s : State) (scope : Nat) : Prop := pubReady (pub s s.cur.grp scope) s.cur.grp scope = true

/-- R301: the grant of a place has passed from `i` to the next one, `q`, which was not abandoned. -/
structure PassedOn (s t : State) (sl i q : Nat) : Prop where
  freed : (t.place sl i).kind = 0
  granted : (t.place sl q).st = 1
  head : (t.place sl (s.place sl i).hdr).next = q

end Sys2Proof.Claims

/-! ## Phases, fences, synchronisation (R37-R47, R231, R286-R302) -/

/-- R231, R37, R40, R152, R232: PHASE.pub publishes, PHASE.ref refreshes, PHASE does both, and each then moves on; a pub
waits for the acknowledgements that it needs; scope grp orders no data access, and bounds the group's own code fetches. -/
def Obligations.Phases : Prop :=
  ∀ (s : State) (sc : BitVec 3), Committed s → NoDeferred s →
    let ready := pubReady (pub s s.cur.grp sc.toNat) s.cur.grp sc.toNat
    let own := (s.setGrp { s.grp with codeRef := mapSet 0 s.grp.codeRef 0 s.ord }).advance
    (sc = 0 → exec (.phase sc) s = .next own ∧ exec (.phasePub sc) s = .next s.advance ∧
      exec (.phaseRef sc) s = .next own) ∧
    (sc ≠ 0 → ready = true → ∃ t, exec (.phasePub sc) s = .next t ∧ Published s t ∧ Passed s t) ∧
    (sc ≠ 0 → ∃ t, exec (.phaseRef sc) s = .next t ∧ Refreshed s t ∧ Passed s t) ∧
    (sc ≠ 0 → ready = true →
      ∃ t, exec (.phase sc) s = .next t ∧ Refreshed s t ∧ Passed s t ∧
        ∀ d ∈ t.dirty, ¬ (d.grp = s.cur.grp ∧ d.cp = false)) ∧
    (sc ≠ 0 → ready = false → ∃ t, exec (.phasePub sc) s = .next t ∧ Published s t ∧ t.spc = s.spc)

/-- R40: after a ref an ordinary load of memory with hardware coherence, whose writes are published and none of whose bytes
the group has itself a store waiting for, returns the newest value. R37: publishing performs a store that waits: the bits
that it wrote stand in memory. -/
def Obligations.Visibility : Prop :=
  (∀ (s t : State) (sc : BitVec 3), Inv s → Committed s → NoDeferred s → sc ≠ 0 → exec (.phaseRef sc) s = .next t →
     ∀ u m, (∀ h ∈ unitHist t u, h.shut ≠ 0) → waitingStores t t.cur.grp u 0 m = [] →
       ∀ v ∈ loadValues t t.cur.grp u 0 m, v = unitOf t u) ∧
  (∀ (s t : State) (sc : BitVec 3) (d : Dirty), Committed s → NoDeferred s → s.migrations = [] → sc ≠ 0 →
     d ∈ s.dirty → d.grp = s.cur.grp → d.cp = false → (∀ x ∈ s.dirty, x ≠ d → x.unit ≠ d.unit) →
     (∀ x ∈ s.dirty, 8 * x.unit < migBase) → exec (.phasePub sc) s = .next t →
     unitOf t d.unit = (unitOf s d.unit &&& ~~~ d.mask) ||| (d.val &&& d.mask))

/-- R45, R47, R231: XFENCE moves on once the commands of its classes are complete, and DRAIN once those of its core are as
well; both wait until then. With LANE and another class XFENCE publishes as well; LANE alone orders nothing. A DRAIN of a
class but LANE alone orders LANE too. -/
def Obligations.Fences : Prop :=
  ∀ (s : State) (m : BitVec 7), Committed s → (m.getLsbD 5 = true → NoDeferred s) →
    (fenceReady s s.cur.grp m.toNat = true →
      ∃ t, exec (.xfence m) s = .next t ∧ Passed s t ∧ (m.getLsbD 0 = true → m ≠ 1 → Published s t) ∧
        (m = 1 → t = s.advance)) ∧
    (fenceReady s s.cur.grp m.toNat = false → exec (.xfence m) s = .next s) ∧
    (m = 0 → ∃ t, exec (.drain m) s = .next t ∧ Passed s t ∧ t.dirty = s.dirty) ∧
    (s.grp.wait = .none → coreBusy s s.grp.core m.toNat s.nextId = false → fenceReady s s.cur.grp m.toNat = true →
      ∃ t, exec (.drain m) s = .next t ∧ Passed s t ∧ (m ≠ 0 → m ≠ 1 → Published s t)) ∧
    (m ≠ 0 → s.grp.wait = .none →
      (coreBusy s s.grp.core m.toNat s.nextId = true ∨ fenceReady s s.cur.grp m.toNat = false) →
      exec (.drain m) s = .next (s.setGrp { s.grp with wait := .drain s.nextId }))

/-- R289: SBAR.INIT makes the barrier the team's with its count and no arrivals; ARRIVE counts, and the last arrival flips
the phase; WAIT goes on once the phase differs from the group's token, and waits before; ARRIVE-AND-WAIT of the last
arrival goes on. R290: naming the partner outside a pair team, a barrier that is not valid or belongs to another team, or an
INIT of one on which a group waits, traps with BARRIER_INVALID and the barrier in INFO; a count out of range, with
ILLEGAL_OPERAND. -/
def Obligations.Barriers : Prop :=
  ∀ (s : State) (p : BitVec 1) (i : BitVec 6),
    let k := barKey s.grp p.toNat i.toNat
    let b := s.barrier k
    let tok (t : State) : Bool := bit t.grp.wtok (64 * p.toNat + i.toNat)
    (∀ a, Committed s → (p = 1 → (s.launchOf s.grp).pair = true) → 1 ≤ (s.reg a).toNat → (s.reg a).toNat ≤ 65535 →
      (b.valid = true → ownsBarrier s s.grp b = true) → (∀ j, j < s.groups.length → waitsOn s j k = false) →
      ∃ t, exec (.sbarInit a p i) s = .next t ∧ Passed s t ∧ tok t = b.ph ∧ GroupOnly s { t with barriers := s.barriers } ∧
        t.barrier k = { b with
          valid := true
          exp := (s.reg a).toNat
          cnt := 0
          pacc := 0
          writes := []
          asid := (s.launchOf s.grp).asid
          ltag := (s.launchOf s.grp).ltag
          team := s.grp.team } ∧ ∀ j, j ≠ k → t.barrier j = s.barrier j) ∧
    (BarrierOpen s p.toNat i.toNat →
      ∃ t, exec (.sbarArrive p i) s = .next t ∧ Passed s t ∧ Published s t ∧ tok t = b.ph ∧ t.barrier k = arrived s k ∧
        ∀ j, j ≠ k → t.barrier j = s.barrier j) ∧
    (∀ m, BarrierOpen s p.toNat i.toNat → b.ph ≠ tok s →
      ∃ t, exec (.sbarWait m p i) s = .next t ∧ Passed s t ∧ Refreshed s t ∧ tok t = b.ph ∧ t.barrier k = b) ∧
    (∀ m, BarrierOpen s p.toNat i.toNat → b.ph = tok s →
      ∃ t, exec (.sbarWait m p i) s = .next t ∧ t.spc = s.spc ∧ t.grp.wait = .barrier (p.toNat == 1) i.toNat false ∧
        (p = 0 → bit (t.barrier k).waiters s.grp.slot = true) ∧ (p = 1 → bit (t.barrier k).partner s.grp.slot = true)) ∧
    (∀ m, BarrierOpen s p.toNat i.toNat → b.cnt + 1 = b.exp →
      ∃ t, exec (.sbarArw m p i) s = .next t ∧ Passed s t ∧ Refreshed s t ∧ tok t = !b.ph ∧ t.barrier k = arrived s k) ∧
    (∀ m, BarrierOpen s p.toNat i.toNat → b.cnt + 1 ≠ b.exp →
      ∃ t, exec (.sbarArw m p i) s = .next t ∧ t.spc = s.spc ∧ t.grp.wait = .barrier (p.toNat == 1) i.toNat false ∧
        (t.barrier k).cnt = b.cnt + 1) ∧
    (Committed s → s.grp.wait = .none → s.grp.ahead = false →
      let other : Nat := if s.grp.core % 2 = 0 then s.grp.core + 1 else s.grp.core - 1
      let invalid := Host.Outcome.next (deliver s (strandReport s 0x15 0
        (BitVec.ofNat 64 ((if p = 1 then other else s.grp.core) % 48 * 64 + i.toNat))))
      let partner : Prop := p = 1 ∧ (s.launchOf s.grp).pair = false
      let foreign : Prop := b.valid = true ∧ ownsBarrier s s.grp b = false
      (partner ∨ b.valid = false ∨ foreign → exec (.sbarArrive p i) s = invalid ∧
        ∀ m, exec (.sbarWait m p i) s = invalid ∧ exec (.sbarArw m p i) s = invalid) ∧
      ∀ a, let counts : Prop := 1 ≤ (s.reg a).toNat ∧ (s.reg a).toNat ≤ 65535
        (partner → exec (.sbarInit a p i) s = invalid) ∧
        (¬ partner → ¬ counts → exec (.sbarInit a p i) s = .next (deliver s (strandReport s 0x02 0 0))) ∧
        (¬ partner → counts → foreign ∨ (∃ j, j < s.groups.length ∧ waitsOn s j k = true) →
          exec (.sbarInit a p i) s = invalid))

/-- R293-R296: SWAITC on a word that satisfies its comparison answers 0 and refreshes; one that does not waits at a monitor,
or answers 2 where the slice has none free; a waiter that was woken answers 1. The word is the newest one, where its writes
are published and no store of the group waits for it. The monitor holds the comparison, its value as the register has it, the
scope and the waiter (R294). -/
def Obligations.Monitors : Prop :=
  ∀ (d a b : BitVec 6) (c : BitVec 3) (z : BitVec 2) (sc : BitVec 3) (s : State) (x : Acc), Committed s →
    let size := if z = 1 then 8 else 4
    let u := (coherentUnit (noteAccess s (s.reg a) x) s.cur.grp x size 9).1
    let v := u.toNat / 2 ^ (8 * (x.loc % 8)) % 2 ^ (8 * size)
    let holds := compares c.toNat (z == 1) (BitVec.ofNat 64 v) (s.reg b)
    let full := 4096 ≤ (s.monitors.filter (fun m => m.slice == x.slice)).length
    let none_ := waitingStores s s.cur.grp (x.loc / 8) 0 (unitMask (x.loc % 8) size) = []
    (s.grp.wait = .none → groupAccess s (s.reg a) size needR = .ok x → Plain s x → x.home ≠ 1 → x.coh = 0 →
      (∀ c ∈ coherentChoices (noteAccess s (s.reg a) x) s.cur.grp x (unitMask (x.loc % 8) size),
        poisonedBy (noteAccess s (s.reg a) x) x size c = false) →
      (none_ → (∀ h ∈ unitHist s (x.loc / 8), h.shut ≠ 0) → u = unitOf s (x.loc / 8)) ∧
      (holds = true → ∃ t, exec (.swaitc d a b c z sc) s = .next t ∧ t.spc = s.spc + 4 ∧ t.reg d = 0 ∧
        (∀ r, r ≠ d → t.reg r = s.reg r) ∧ t.monitors.length ≤ s.monitors.length ∧
        (sc ≠ 0 → t.grp.refStamp = t.ord)) ∧
      (holds = false → ¬ full → ∃ t m, exec (.swaitc d a b c z sc) s = .next t ∧ t.spc = s.spc ∧
        t.grp.wait = .monitor x.loc false ∧ m ∈ t.monitors ∧ m.addr = x.loc ∧ m.cmp = c.toNat ∧
        m.dword = (z == 1) ∧ m.value = s.reg b ∧ m.scope = sc.toNat ∧ m.who = .group s.cur.grp ∧ m.slice = x.slice ∧
        m.asid = (s.launchOf s.grp).asid ∧ m.ltag = (s.launchOf s.grp).ltag ∧ m.team = s.grp.team ∧ m.gid = s.grp.gid ∧
        (none_ → t.monitors = s.monitors ++ [m] ∧ ∀ k, memGet t.mem k = memGet s.mem k)) ∧
      (holds = false → full → none_ → ∃ t, exec (.swaitc d a b c z sc) s = .next t ∧ t.spc = s.spc + 4 ∧
        t.reg d = (if d = 0 then 0 else 2) ∧ (∀ r, r ≠ d → t.reg r = s.reg r) ∧ t.monitors = s.monitors)) ∧
    (∀ l, s.grp.wait = .monitor l true → ∃ t, exec (.swaitc d a b c z sc) s = .next t ∧ t.spc = s.spc + 4 ∧
      t.reg d = (if d = 0 then 0 else 1) ∧ (∀ r, r ≠ d → t.reg r = s.reg r) ∧ t.grp.wait = .none)

/-- R299: XACQ of a free object makes a queue for it with one granted place and answers 1; of a held one, it appends a
place and answers its handle; with too few free records it answers 2. R300, R301, R298: XWAIT goes on with 1 once its
place is granted and waits before; XGIVE hands a place to a group of the team; XABAN of a queued place abandons it, and
of a granted one passes the grant on, as XREL does; XSWAP answers 0 where it exchanges two queued places and 3 where it
may not; a handle that the issuer does not hold traps. -/
def Obligations.Places : Prop :=
  (∀ (d a : BitVec 6) (sc : BitVec 3) (s : State) (x : Acc), Committed s → objectAccess s (s.reg a) = .ok x →
     x.pkg = s.pkg →
     (headerOf s x.slice (x.loc / 128) = none → 2 ≤ freeCount s x.slice →
       ∃ t h p, exec (.xacq d a sc) s = .next t ∧ t.spc = s.spc + 4 ∧ t.reg d = (if d = 0 then 0 else 1) ∧ p ≠ h ∧
         (s.place x.slice h).kind = 0 ∧ (s.place x.slice p).kind = 0 ∧ (t.place x.slice h).kind = 1 ∧
         (t.place x.slice h).obj = x.loc / 128 ∧ (t.place x.slice h).next = p ∧ (t.place x.slice h).tail = p ∧
         (t.place x.slice p).kind = 2 ∧ (t.place x.slice p).st = 1 ∧ (t.place x.slice p).holder = some s.cur.grp) ∧
     (headerOf s x.slice (x.loc / 128) = none → freeCount s x.slice < 2 →
       ∃ t, exec (.xacq d a sc) s = .next t ∧ t.spc = s.spc + 4 ∧ t.reg d = (if d = 0 then 0 else 2) ∧
         t.places = s.places) ∧
     (∀ h, headerOf s x.slice (x.loc / 128) = some h → (s.place x.slice h).kind = 1 → 1 ≤ freeCount s x.slice →
       ∃ t p, exec (.xacq d a sc) s = .next t ∧ t.spc = s.spc + 4 ∧
         t.reg d = (if d = 0 then 0 else handleOf t x.slice p) ∧ (s.place x.slice p).kind = 0 ∧
         (t.place x.slice h).tail = p ∧ (t.place x.slice p).kind = 2 ∧ (t.place x.slice p).st = 0 ∧
         (t.place x.slice p).holder = some s.cur.grp)) ∧
  ((∀ (d a : BitVec 6) (sc : BitVec 3) (s : State) (sl i : Nat), Held s (s.reg a) sl i →
     ((s.place sl i).st ≠ 0 → ∃ t, exec (.xwait d a sc) s = .next t ∧ t.spc = s.spc + 4 ∧
       t.reg d = (if d = 0 then 0 else 1) ∧ (t.place sl i).scope = sc.toNat ∧ t.grp.wait = .none ∧
       (sc ≠ 0 → t.grp.refStamp = t.ord)) ∧
     ((s.place sl i).st = 0 → ∃ t, exec (.xwait d a sc) s = .next t ∧ t.spc = s.spc ∧ t.grp.wait = .place (s.reg a) ∧
       (t.place sl i).waiting = true)) ∧
   (∀ (a b : BitVec 6) (s : State) (sl i j : Nat), Held s (s.reg a) sl i → (s.reg b).toNat < 32 →
     (s.reg b).toNat < (s.launchOf s.grp).teamSize → memberGroup s s.grp (s.reg b).toNat = some j →
     (s.group j).run ≠ .ended → ((s.place sl i).st = 1 → PubDone s (s.place sl i).scope) →
     ∃ t, exec (.xgive a b) s = .next t ∧ Passed s t ∧ (t.place sl i).holder = some j ∧
       (t.place sl i).st = (s.place sl i).st) ∧
   (∀ (a : BitVec 6) (s : State) (sl i : Nat), Held s (s.reg a) sl i → (s.place sl i).st ≠ 1 →
     ∃ t, exec (.xaban a) s = .next t ∧ Passed s t ∧ (t.place sl i).st = 2 ∧ (t.place sl i).holder = none) ∧
   (∀ (a : BitVec 6) (s : State) (sl i q : Nat), Held s (s.reg a) sl i → (s.place sl i).st = 1 →
     PubDone s (s.place sl i).scope → (s.place sl i).next = q → q ≠ 0xFFFF → q ≠ i →
     (s.place sl i).hdr ≠ i → (s.place sl i).hdr ≠ q → (s.place sl q).st ≠ 2 →
     ∃ t, exec (.xaban a) s = .next t ∧ Passed s t ∧ PassedOn s t sl i q) ∧
   (∀ (a : BitVec 6) (sc : BitVec 3) (s : State) (x : Acc) (h i q : Nat), Committed s →
     objectAccess s (s.reg a) = .ok x → x.pkg = s.pkg → headerOf s x.slice (x.loc / 128) = some h →
     i = (s.place x.slice h).next → (s.place x.slice i).st = 1 → (s.place x.slice i).holder = some s.cur.grp →
     (s.place x.slice i).hdr = h → PubDone (noteAccess s (s.reg a) x) sc.toNat → (s.place x.slice i).next = q → q ≠ 0xFFFF →
     q ≠ i → h ≠ i → h ≠ q → (s.place x.slice q).st ≠ 2 →
     ∃ t, exec (.xrel a sc) s = .next t ∧ Passed s t ∧ PassedOn s t x.slice i q) ∧
   (∀ (d a b : BitVec 6) (s : State) (sl i : Nat), Held s (s.reg a) sl i →
     let j := handleIdx (s.reg b).toNat
     let h := (s.place sl i).hdr
     let c (t : State) : List Nat := placeChain t sl 65536 (t.place sl h).next
     let ok := (s.place sl i).st = 0 ∧ livePlace s (s.reg b).toNat = true ∧ handleSlice (s.reg b).toNat = sl ∧
       (s.place sl j).st = 0 ∧ (s.place sl j).hdr = h ∧ j ∈ placeChain s sl 65536 (s.place sl i).next
     ∃ t, exec (.xswap d a b) s = .next t ∧ t.spc = s.spc + 4 ∧ (∀ r, r ≠ d → t.reg r = s.reg r) ∧
       (¬ ok → t.reg d = (if d = 0 then 0 else 3) ∧ t.places = s.places) ∧
       (ok → t.reg d = 0 ∧ ((c s).Nodup → i ∈ c s → h ∉ c s → h ≠ i → h ≠ j → (s.place sl h).next ≠ i →
         (s.place sl h).next ≠ j →
         c t = (c s).map (fun y => if y = i then j else if y = j then i else y)))) ∧
   (∀ (d a : BitVec 6) (sc : BitVec 3) (s : State), Committed s → handleRemote s (s.reg a) = false →
     heldPlace s (s.reg a).toNat = false →
     exec (.xwait d a sc) s = .next (deliver s { code := 0x14, spc := s.spc, fmt := s.grp.st.fmt, info := s.reg a }) ∧
     exec (.xaban a) s = .next (deliver s { code := 0x14, spc := s.spc, fmt := s.grp.st.fmt, info := s.reg a })))

/-- R413-R415: WPOP of a queue with an entry consumes it: HEAD and RECV advance, and the group starts anew at the entry's pad
with its eight arguments; of one without it sleeps. WPOST appends 64 bytes as a record with V set and answers 0; with no
room it answers 2, and 3 where the queue does not run. -/
def Obligations.WorkQueues : Prop :=
  (∀ (a : BitVec 6) (s : State),
     let q := (s.reg a).toNat
     let i := qcbImage s q
     let e (k : Nat) : Dword := unitOf s (ringAddr i (qcbHead i) / 8 + k)
     Committed s → s.grp.inh = false → s.grp.wait = .none → s.dirty = [] → workTest s (s.reg a) = none →
     pubReady s s.cur.grp 5 = true →
     (headReady s i = true → (∀ k, k < 8 → poisoned s (ringAddr i (qcbHead i) + 8 * k) = false) → s.migrations = [] →
       (s.qcache.find? (fun p => p.1 == q)).isSome = true → (e 0).toNat % 4 = 0 → (e 0).toNat < 2 ^ 54 →
       fetchScalar s (e 0) 3 = .ok (0x50300000 + qcbLabel i) →
       ∃ t, exec (.wpop a) s = .next t ∧ t.spc = e 0 ∧ qcbHead (qcbImage t q) = (qcbHead i + 1) % 2 ^ 32 ∧
         (∀ k : Nat, k < 8 → t.reg (BitVec.ofNat 6 (k + 1)) =
           BitVec.ofNat 64 ((e (2 + k / 2)).toNat / 2 ^ (32 * (k % 2)) % 2 ^ 32)) ∧
         (∀ r : BitVec 6, 8 < r.toNat → t.reg r = s.reg r) ∧ t.grp.fpflags = 0 ∧ t.grp.qbind = [] ∧ t.grp.gang = 0 ∧
         t.grp.mconf = 0 ∧ t.grp.wtok = 0 ∧ t.grp.resid = [] ∧ t.grp.st.fmt = (s.launchOf s.grp).fmt ∧
         t.grp.st.axis = (s.launchOf s.grp).axis ∧ t.grp.wait = .none) ∧
     (headReady s i = false → ∃ t, exec (.wpop a) s = .next t ∧ t.spc = s.spc ∧ t.grp.wait = .wpop q false ∧
       s.cur.grp ∈ sleepersOf t q ∧ (∀ r, t.reg r = s.reg r))) ∧
  (∀ (d a b : BitVec 6) (s : State) (x : Acc),
     let q := (s.reg a).toNat
     let i := qcbImage s q
     let at_ := ringAddr i (qcbTail i) / 8
     Committed s → s.dirty = [] → s.migrations = [] → workTest s (s.reg a) = none → (s.reg b).toNat % 64 = 0 →
     groupAccess s (s.reg b) 1 needR = .ok x → Plain s x → x.coh = 0 →
     (∀ k, k < 8 → poisoned s (x.loc + 8 * k) = false ∧ ∀ h ∈ unitHist s (x.loc / 8 + k), h.shut ≠ 0) →
     pubReady s s.cur.grp 3 = true → (s.qcache.find? (fun p => p.1 == q)).isSome = true →
     (qcbState i = 1 → hasRoom i 1 = true →
       ∃ t, exec (.wpost d a b) s = .next t ∧ t.spc = s.spc + 4 ∧ t.reg d = 0 ∧ (∀ r, r ≠ d → t.reg r = s.reg r) ∧
         qcbTail (qcbImage t q) = (qcbTail i + 1) % 2 ^ 32 ∧
         ∀ k, k < 8 → unitOf t (at_ + k) = unitOf s (x.loc / 8 + k) ||| (if k = 1 then BitVec.ofNat 64 (2 ^ 63) else 0)) ∧
     (qcbState i = 1 → hasRoom i 1 = false →
       ∃ t, exec (.wpost d a b) s = .next t ∧ t.spc = s.spc + 4 ∧ t.reg d = (if d = 0 then 0 else 2) ∧
         ∀ k, memGet t.mem k = memGet s.mem k) ∧
     (qcbState i ≠ 1 → ∃ t, exec (.wpost d a b) s = .next t ∧ t.spc = s.spc + 4 ∧
       t.reg d = (if d = 0 then 0 else 3) ∧ ∀ k, memGet t.mem k = memGet s.mem k))

/-- R416, R414: TDET takes a first sample and waits; the second sample settles whether the domain is quiet in both with
equal counts; TDET then answers. A work queue's home die that finds its head entry valid wakes the oldest sleeper. -/
def Obligations.TerminationDetection : Prop :=
  (∀ (d a : BitVec 6) (s : State), Committed s → (s.reg a).toNat < 2 ^ 8 →
    (s.grp.tdet = none → ∃ t, exec (.tdet d a) s = .next t ∧ t.spc = s.spc ∧
      t.grp.tdet = some ⟨(s.reg a).toNat, sampleDomain s (tdetKey s s.grp (s.reg a).toNat) s.cur.grp, none⟩) ∧
    (∀ x r, s.grp.tdet = some x → x.result = some r → ∃ t, exec (.tdet d a) s = .next t ∧ t.spc = s.spc + 4 ∧
      t.reg d = (if d = 0 then 0 else if r = true then 1 else 0) ∧ (∀ q, q ≠ d → t.reg q = s.reg q) ∧
      t.grp.tdet = none)) ∧
  (∀ (g : Nat) (s : State) (x : Tdet), g < s.groups.length → (s.group g).tdet = some x →
    let y := sampleDomain s (tdetKey s (s.group g) x.tdom) g
    ∃ t r, exec (.tdetSecondSample g) s = .next t ∧ (t.group g).tdet = some { x with result := some r } ∧
      (r = true ↔ x.first.quiet = true ∧ y.quiet = true ∧ x.first.sent = x.first.recv ∧ y.sent = x.first.sent ∧
        y.recv = x.first.recv)) ∧
  (∀ (q g : Nat) (gs : List Nat) (s : State), g < s.groups.length →
    qcbHead (qcbImage s q) ≠ qcbTail (qcbImage s q) →
    (unitOf s (ringAddr (qcbImage s q) (qcbHead (qcbImage s q)) / 8 + 1)).getLsbD 63 = true →
    qcbBase (qcbImage s q) % 64 = 0 → (sleepersOf s q).filter (asleep s q) = g :: gs →
    ∃ t, exec (.wpopReread q) s = .next t ∧ (t.group g).wait = .wpop q true ∧ ∀ i, i ≠ g → t.group i = s.group i)

namespace Sys2Proof.Claims

open Sys2Proof.Machine

/-! ### Special registers and the matrix engine -/

/-- R170, R171: the group that SSETR of a value leaves, where the register is writable and the value is legal. -/
def written (s : State) (r : Nat) (v : Dword) : Option Group :=
  let g := s.grp
  match r with
  | 0x09 => if fmtOk v then some { g with st := { g.st with fmt := v } } else none
  | 0x0A => if axisOk v then some { g with st := { g.st with axis := mapSet 0 g.st.axis 0 v } } else none
  | 0x0B => if axisOk v then some { g with st := { g.st with axis := mapSet 0 g.st.axis 1 v } } else none
  | 0x0C => if axisOk v then some { g with st := { g.st with axis := mapSet 0 g.st.axis 2 v } } else none
  | 0x0D => if axisOk v then some { g with st := { g.st with axis := mapSet 0 g.st.axis 3 v } } else none
  | 0x10 => if v.toNat < 2 then some { g with fpmode := v } else none
  | 0x11 => if v.toNat < 2 ^ 6 then some { g with fpflags := g.fpflags &&& ~~~ v } else none
  | 0x12 => if v.toNat < 2 ^ 54 ∧ v.toNat % 4 = 0 then some { g with trapvec := v } else none
  | 0x13 => if v.toNat < 2 ^ 54 ∧ v.toNat % 128 = 0 then some { g with traprec := v } else none
  | 0x18 => if v.toNat < 2 ^ 32 then some { g with pretmo := v } else none
  | r => if 0x20 ≤ r ∧ r < 0x30 ∧ qbindOk v.toNat = true ∧ unitPresent s v.toNat = true ∧
      mapGet [] g.pushq (r - 0x20) = [] then some { g with qbind := mapSet 0 g.qbind (r - 0x20) v } else none

/-- The matrix instruction has appended an operation to the queue of its core and moved on. -/
structure Queued (s t : State) (o : MOp) : Prop where
  passed : Passed s t
  mops : t.mops = s.mops ++ [o]
  bytes : ∀ a, memGet t.mem a = memGet s.mem a
  core : o.core = s.grp.core
  issuer : o.grp = s.cur.grp
  members : o.members = [s.cur.grp]
  waits : o.started = false ∧ o.gated = false

/-- R274: what a configuration says of an operand. -/
structure OperandKind where
  ty : Nat
  blk : Nat
  zp : Bool
  deriving DecidableEq, Repr

/-- R274: type codes 17 and 18 stand for FMT.A and FMT.B, with no block-size code or zero-point bit beside them. -/
def Resolves (fmt code blk : Nat) (zp : Bool) (x : OperandKind) : Prop :=
  if code = 17 then blk = 0 ∧ zp = false ∧ x = ⟨fmt / 2 ^ 27 % 2 ^ 5, fmt / 2 ^ 20 % 2 ^ 2, fmt.testBit 17⟩
  else if code = 18 then blk = 0 ∧ zp = false ∧ x = ⟨fmt / 2 ^ 22 % 2 ^ 5, fmt / 2 ^ 18 % 2 ^ 2, fmt.testBit 16⟩
  else x = ⟨code, blk, zp⟩

/-- R274: an operand that MCFG takes, for a K. -/
def OperandLegal (x : OperandKind) (k : Nat) : Prop :=
  (x.ty ∈ [9, 11, 12] ∧ x.blk = 0 ∧ x.zp = false) ∨ (x.ty ∈ [13, 14] ∧ x.blk = 2 ∧ x.zp = false ∧ 32 ∣ k) ∨
    (x.ty ∈ [15, 16] ∧ 8 * 2 ^ x.blk ∣ k)

/-- R274: a value that MCFG takes under a value of FMT, and its operands. -/
structure ConfigLegal (fmt c : Nat) (x y : OperandKind) : Prop where
  reserved : c / 2 ^ 40 % 2 ^ 8 = 0 ∧ c / 2 ^ 17 % 2 ^ 7 = 0 ∧ c / 2 ^ 11 % 2 ^ 5 = 0 ∧ c / 2 ^ 6 % 2 ^ 2 = 0
  shape : c / 2 ^ 4 % 2 ^ 2 ≠ 3 ∧ c / 2 ^ 2 % 2 ^ 2 ≠ 3 ∧ c % 2 ^ 2 ≠ 3
  a : Resolves fmt (c / 2 ^ 35 % 2 ^ 5) (c / 2 ^ 28 % 2 ^ 2) (c.testBit 25) x
  b : Resolves fmt (c / 2 ^ 30 % 2 ^ 5) (c / 2 ^ 26 % 2 ^ 2) (c.testBit 24) y
  legal : OperandLegal x (16 * 2 ^ (c % 2 ^ 2)) ∧ OperandLegal y (16 * 2 ^ (c % 2 ^ 2))

/-- R280: a value that MGANG takes: its members are groups of the team on the issuer's core, the issuer among them. -/
structure GangLegal (s : State) (v : Nat) : Prop where
  reserved : v / 2 ^ 35 = 0 ∧ v / 2 ^ 30 % 2 ^ 2 = 0
  count : v / 2 ^ 32 % 2 ^ 3 ≠ 1 ∧ v / 2 ^ 32 % 2 ^ 3 ≠ 7
  rest : ∀ i, v / 2 ^ 32 % 2 ^ 3 ≤ i → i < 6 → v / 2 ^ (5 * i) % 2 ^ 5 = 0
  distinct : ∀ i j, i < j → j < v / 2 ^ 32 % 2 ^ 3 → v / 2 ^ (5 * i) % 2 ^ 5 ≠ v / 2 ^ (5 * j) % 2 ^ 5
  inTeam : ∀ i, i < v / 2 ^ 32 % 2 ^ 3 → v / 2 ^ (5 * i) % 2 ^ 5 < (s.launchOf s.grp).teamSize
  own : v / 2 ^ 32 % 2 ^ 3 ≠ 0 → ∃ i, i < v / 2 ^ 32 % 2 ^ 3 ∧ v / 2 ^ (5 * i) % 2 ^ 5 = s.grp.gid
  core : ∀ i j, i < v / 2 ^ 32 % 2 ^ 3 → memberGroup s s.grp (v / 2 ^ (5 * i) % 2 ^ 5) = some j →
    (s.group j).core = s.grp.core

/-- The bytes of the local store at a local address, as a number. -/
def localNat (s : State) (g : Group) (la size : Nat) : Nat :=
  match localPlace s g la with
  | some p => memRead (localMem s g p.1) p.2 size
  | none => 0

/-- R282: the code of element `n` of a row in the local store; two 4-bit codes share a byte, the even one low. -/
def storedCode (t : Ty) (s : State) (g : Group) (la n : Nat) : Nat :=
  if t.bits = 4 then localNat s g (la + n / 2) 1 / 16 ^ (n % 2) % 16
  else localNat s g (la + n * (t.bits / 8)) (t.bits / 8)

/-- R283: an MST whose team's local store is on its core, with its output, its scale array and its residues apart, and with
nothing in that store that is not yet visible to the engine. -/
structure Storing (s : State) (o : MOp) (t : Ty) : Prop where
  kind : o.kind = .mst
  output : mstConfig o.conf.toNat o.b.toNat = some t
  shape : cfgM o.conf.toNat ≤ 64 ∧ cfgN o.conf.toNat ≤ 64
  aligned : mstMisaligned o.a.toNat o.b.toNat t = none
  inside : ∀ r ∈ mstRanges o.conf.toNat o.a.toNat o.b.toNat t, firstBadLocal s (s.group o.grp) r.1 r.2 = none
  apart : (mstRanges o.conf.toNat o.a.toNat o.b.toNat t).Pairwise (fun x y => x.1 + x.2 ≤ y.1 ∨ y.1 + y.2 ≤ x.1)
  team : s.teamOf (s.group o.grp) < s.teams.length
  resident : (s.team (s.teamOf (s.group o.grp))).ended = false ∧ (s.team (s.teamOf (s.group o.grp))).out = false
  settled : ∀ p, ∀ h ∈ unitHist s (localName s (s.group o.grp) p), o.reader.bound h = true

/-- The tests of R277 pass. -/
def MmaLegal (s : State) (a b : Dword) (bm : Option Nat) : Prop :=
  mmaConfigBad s.grp.mconf.toNat a.toNat b.toNat bm = false ∧
  mmaMisaligned s.grp.mconf.toNat a.toNat b.toNat = none ∧
  ∀ r ∈ readRanges s.grp.mconf.toNat a.toNat b.toNat bm, firstBadLocal s s.grp r.1 r.2 = none

/-- R276, R74: an element of the tile after an operation: runs of eight products along K, rounded one run at a time; the
runs of a skipped block are not formed. A product is that of each term of the one element and each term of the other: a
ts8 element has two, any other one. -/
def runs (k : Nat) (skip : Nat → Bool) (acc : Nat) (x y : Nat → List XVal) : Nat :=
  (List.range (k / 8)).foldl (fun acc kb => if skip kb then acc
    else (accum8 false acc ((List.range 8).flatMap (fun j => (x (8 * kb + j)).flatMap (fun u =>
      (y (8 * kb + j)).map (fun v => (u, v)))))).1) acc

end Sys2Proof.Claims

/-! ## System, matrix and page instructions (R170-R179, R253-R285, R336, R337) -/

/-- R170, R171, R148: SGETR reads any special register of the group, FPFLAGS once the outstanding blocks are done. SSETR
writes a writable register with a legal value, privileged for PRETMO; FPFLAGS is cleared by ones. A value out of range,
or a register that is only read, traps with ILLEGAL_OPERAND. SSETR of QBINDn waits for the pushes through it, and to an endpoint
that the part lacks traps with UNIT_ABSENT (R4). That SGETR of FPFLAGS waits for outstanding blocks only outside a handler is
the model's choice (log 86). -/
def Obligations.SpecialRegisters : Prop :=
  (∀ (d : BitVec 6) (r : BitVec 8) (s : State), Free s [d] →
     (specialOk r = true → (r = 0x11 → s.grp.ahead = false) →
       ∃ t, exec (.sgetr d r) s = .next t ∧ t.reg d = (if d = 0 then 0 else specialReg s s.grp r.toNat) ∧
         t.spc = s.spc + 4 ∧ StrandFrame [d] s t) ∧
     (r = 0x11 → s.grp.ahead = true → exec (.sgetr d r) s = .next s) ∧
     (s.grp.ahead = false → specialOk r = false → exec (.sgetr d r) s = .next (deliver s (strandReport s 0x01 0 0))) ∧
     specialReg s s.grp 0x00 = BitVec.ofNat 64 s.grp.gid ∧ specialReg s s.grp 0x03 = BitVec.ofNat 64 s.grp.team ∧
     specialReg s s.grp 0x09 = s.grp.st.fmt ∧ specialReg s s.grp 0x0E = s.grp.gang ∧
     specialReg s s.grp 0x0F = s.grp.mcfggen ∧ specialReg s s.grp 0x10 = s.grp.fpmode ∧
     specialReg s s.grp 0x11 = s.grp.fpflags ∧ specialReg s s.grp 0x12 = s.grp.trapvec ∧
     specialReg s s.grp 0x13 = s.grp.traprec ∧ specialReg s s.grp 0x14 = s.clock ∧ specialReg s s.grp 0x15 = s.caps ∧
     specialReg s s.grp 0x18 = s.grp.pretmo ∧
     (∀ n, n < 4 → specialReg s s.grp (0x0A + n) = mapGet 0 s.grp.st.axis n) ∧
     (∀ n, n < 16 → specialReg s s.grp (0x20 + n) = mapGet 0 s.grp.qbind n) ∧
     let l := s.launchOf s.grp
     (∀ x y z, x < l.gx → y < l.gy → s.grp.team = x + l.gx * (y + l.gy * z) →
       specialReg s s.grp 0x01 = BitVec.ofNat 64 (z * 2 ^ 42 + y * 2 ^ 21 + x)) ∧
     specialReg s s.grp 0x02 = BitVec.ofNat 64 (l.gx * l.gy * l.gz * l.teamSize) ∧
     specialReg s s.grp 0x04 = BitVec.ofNat 64 l.teamSize ∧ specialReg s s.grp 0x05 = BitVec.ofNat 64 l.width ∧
     specialReg s s.grp 0x06 = BitVec.ofNat 64 (s.grp.core % 48) ∧
     specialReg s s.grp 0x07 = BitVec.ofNat 64 (s.grp.core / 48) ∧ specialReg s s.grp 0x08 = BitVec.ofNat 64 s.pkg ∧
     specialReg s s.grp 0x16 = BitVec.ofNat 64 l.asid ∧ specialReg s s.grp 0x17 = BitVec.ofNat 64 l.vf) ∧
  (∀ (a : BitVec 6) (r : BitVec 8) (s : State), Committed s →
     (∀ g, written s r.toNat (s.reg a) = some g → (r = 0x18 → (s.launchOf s.grp).priv = true) →
       exec (.ssetr a r) s = .next (s.setGrp { g with st := { g.st with spc := s.spc + 4 } })) ∧
     (r.toNat < 0x20 → specialOk r = true → written s r.toNat (s.reg a) = none →
       (r = 0x18 → (s.launchOf s.grp).priv = true) →
       exec (.ssetr a r) s = .next (deliver s (strandReport s 0x02 0 0))) ∧
     (specialOk r = false → exec (.ssetr a r) s = .next (deliver s (strandReport s 0x01 0 0))) ∧
     (0x20 ≤ r.toNat → r.toNat < 0x30 →
       let v := (s.reg a).toNat
       let kind := v % 2 ^ 4
       let unit_ := v / 2 ^ 8 % 2 ^ 5
       let legal : Prop := v < 2 ^ 13 ∧ v / 2 ^ 4 % 2 ^ 4 = 0 ∧ kind ≤ 5 ∧ unit_ ≤ 23 ∧ (kind = 1 → unit_ = 0)
       let absent : Prop := (kind = 4 ∧ s.caps.getLsbD 0 = false) ∨ (kind = 5 ∧ s.caps.getLsbD 1 = false)
       (¬ legal → exec (.ssetr a r) s = .next (deliver s (strandReport s 0x02 0 0))) ∧
       (legal → absent → exec (.ssetr a r) s = .next (deliver s (strandReport s 0x0C 0 0))) ∧
       (legal → ¬ absent → mapGet [] s.grp.pushq (r.toNat - 0x20) ≠ [] → exec (.ssetr a r) s = .next s) ∧
       (legal → ¬ absent → mapGet [] s.grp.pushq (r.toNat - 0x20) = [] →
         exec (.ssetr a r) s = .next (s.setGrp { s.grp with
           qbind := mapSet 0 s.grp.qbind (r.toNat - 0x20) (s.reg a)
           st := { s.grp.st with spc := s.spc + 4 } }))))

/-- R175, R178, R284: SEND and SHALT first perform MWAIT: they wait for the group's matrix work, and for what a fence of LANE
and MATRIX waits for. SEND then publishes and ends its group once its pushes are done; SHALT of a privileged group begins the
save of its whole context, with the next word as its SPC. -/
def Obligations.GroupEnds : Prop :=
  ∀ (s : State), Committed s →
    let settled : Prop := matrixBusy s s.cur.grp = false ∧ fenceReady s s.cur.grp 3 = true
    (settled → (∀ p ∈ s.grp.pushq, p.2 = []) → PubDone (fenceEffect s s.cur.grp 3) 5 →
      ∃ t, exec .send s = .next t ∧ (t.group s.cur.grp).run = .ended ∧
        ∀ d ∈ t.dirty, ¬ (d.grp = s.cur.grp ∧ d.cp = false)) ∧
    ((s.launchOf s.grp).priv = true → settled →
      ∃ t, exec .shalt s = .next t ∧ t.grp.run = .saving ∧ t.spc = s.spc + 4 ∧
        t.grp.save = some ⟨3, true, 0, 0, false, none, []⟩ ∧ ∀ d ∈ t.dirty, ¬ (d.grp = s.cur.grp ∧ d.cp = false)) ∧
    (¬ settled → exec .send s = .next s ∧ ((s.launchOf s.grp).priv = true → exec .shalt s = .next s))

/-- R255: SRFT takes SPC, s60 to s63 and FMT from its record and leaves the handler; after a lane trap FMT goes to the
fragment that trapped, which moves on where the record's bit 52 says so. A record with reserved bits set, with an SPC that is
no word's address or with an illegal FMT is fatal (R257): the group saves its whole context with STATE 4 and a record of
ILLEGAL_OPERAND, and posts one of kind TRAP. -/
def Obligations.TrapReturn : Prop :=
  ∀ (s s1 : State) (r : List Dword) (spc fmt : Dword),
    Committed s → s.grp.inh = true → readRecord s s.grp.recAddr 16 = .ok r s1 → r.length = 16 →
    r[1]? = some spc → r[5]? = some fmt →
    ((∀ i, i < 16 → (r.getD i 0) &&& (recordReserved.getD i 0) = 0) → spc.toNat % 4 = 0 → spc.toNat < 2 ^ 54 →
      FmtLegal fmt →
      ∃ t, exec .srft s = .next t ∧ t.spc = spc ∧ t.grp.inh = false ∧ t.reg 60 = r.getD 12 0 ∧
        t.reg 61 = r.getD 13 0 ∧ t.reg 62 = r.getD 14 0 ∧ t.reg 63 = r.getD 15 0 ∧
        (∀ q : BitVec 6, q.toNat < 60 → t.reg q = s.reg q) ∧
        (s.grp.dsrc ≠ 1 → t.grp.st.fmt = fmt ∧ t.grp.frags = s.grp.frags) ∧
        (s.grp.dsrc = 1 → t.grp.st.fmt = s.grp.st.fmt ∧
          mapGet default t.grp.frags s.grp.dfrag = { mapGet default s.grp.frags s.grp.dfrag with
            fmtc := BitVec.ofNat 25 (fmt.toNat / 2 ^ 7)
            pc := if (r.getD 0 0).getLsbD 52 then BitVec.ofNat 26 (s.grp.dlpc + 1)
              else (mapGet default s.grp.frags s.grp.dfrag).pc }) ∧
        ∀ a, memGet t.mem a = memGet s1.mem a) ∧
    ((∃ i, i < 16 ∧ (r.getD i 0) &&& (recordReserved.getD i 0) ≠ 0) ∨ spc.toNat % 4 ≠ 0 ∨ 2 ^ 54 ≤ spc.toNat ∨
        ¬ FmtLegal fmt →
      ∃ t job p, exec .srft s = .next t ∧ t.grp.run = .saving ∧ t.grp.save = some job ∧ job.st = 4 ∧ job.full = true ∧
        (job.fatal.getD 0 0).toNat % 2 ^ 8 = 0x02 ∧ job.post = some p ∧ p.kind = 3 ∧ p.code = 0x02 ∧
        p.asid = (s.launchOf s.grp).asid ∧ p.team = s.grp.team ∧ p.gid = s.grp.gid)

/-- R274, R280: MCFG writes the resolved configuration and counts it, and MGANG the gang; a value that is illegal by the
lists of these rules traps, with MATRIX_CONFIG or ILLEGAL_OPERAND. -/
def Obligations.MatrixConfiguration : Prop :=
  ∀ (a : BitVec 6) (s : State), Committed s →
    let c := (s.reg a).toNat
    (∀ x y, ConfigLegal s.grp.st.fmt.toNat c x y → ∃ v : Dword,
      exec (.mcfg a) s = .next (s.setGrp { s.grp with
        mconf := v
        mcfggen := s.grp.mcfggen + 1
        st := { s.grp.st with spc := s.spc + 4 } }) ∧
      v.toNat % 2 ^ 24 = c % 2 ^ 24 ∧ v.toNat / 2 ^ 40 = c / 2 ^ 40 ∧
      v.toNat / 2 ^ 35 % 2 ^ 5 = x.ty ∧ v.toNat / 2 ^ 28 % 2 ^ 2 = x.blk ∧ v.getLsbD 25 = x.zp ∧
      v.toNat / 2 ^ 30 % 2 ^ 5 = y.ty ∧ v.toNat / 2 ^ 26 % 2 ^ 2 = y.blk ∧ v.getLsbD 24 = y.zp) ∧
    ((∀ x y, ¬ ConfigLegal s.grp.st.fmt.toNat c x y) →
      exec (.mcfg a) s = .next (deliver s (strandReport s 0x0F 0 0))) ∧
    (GangLegal s c → exec (.mgang a) s = .next (s.setGrp { s.grp with
      gang := s.reg a
      st := { s.grp.st with spc := s.spc + 4 } })) ∧
    (¬ GangLegal s c → exec (.mgang a) s = .next (deliver s (strandReport s 0x02 0 0)))

/-- R272, R276-R284: a matrix instruction that passes its tests joins the queue of its core with a snapshot of its
configuration, and waits where the queue is full; MWAIT goes on once the group's matrix work is complete. R280: the first
arrival at a rendezvous records its operation and goes on; one that differs traps. -/
def Obligations.MatrixIssue : Prop :=
  (∀ (s : State), Committed s →
     let c := s.grp.mconf
     (mqFull s s.grp.core = false → teamGated s s.grp = false →
       (∀ a b, MmaLegal s (s.reg a) (s.reg b) none → gangCnt s.grp.gang.toNat = 0 →
         ∃ t o, exec (.mma a b) s = .next t ∧ Queued s t o ∧ o.kind = .mma ∧ o.tile = cfgTile c.toNat ∧ o.a = s.reg a ∧
           o.b = s.reg b ∧ o.conf = c) ∧
       (∀ d a b, MmaLegal s (s.reg a) (s.reg b) (some (s.reg d).toNat) → gangCnt s.grp.gang.toNat = 0 →
         ∃ t o, exec (.mmas d a b) s = .next t ∧ Queued s t o ∧ o.kind = .mmas ∧ o.tile = cfgTile c.toNat ∧
           o.a = s.reg a ∧ o.b = s.reg b ∧ o.bitmap = s.reg d ∧ o.conf = c) ∧
       (∀ x, ∃ t o, exec (.mzero x) s = .next t ∧ Queued s t o ∧ o.kind = .mzero ∧ o.tile = x.toNat) ∧
       (∀ a x, (s.reg a).toNat % 128 = 0 → firstBadLocal s s.grp (s.reg a).toNat 16384 = none →
         ∃ t o, exec (.mlda a x) s = .next t ∧ Queued s t o ∧ o.kind = .mlda ∧ o.tile = x.toNat ∧ o.a = s.reg a) ∧
       (∀ a b x ot, mstConfig c.toNat (s.reg b).toNat = some ot → mstMisaligned (s.reg a).toNat (s.reg b).toNat ot = none →
         (∀ r ∈ mstRanges c.toNat (s.reg a).toNat (s.reg b).toNat ot, firstBadLocal s s.grp r.1 r.2 = none) →
         ∃ t o, exec (.mst a b x) s = .next t ∧ Queued s t o ∧ o.kind = .mst ∧ o.tile = x.toNat ∧ o.a = s.reg a ∧
           o.b = s.reg b ∧ o.bitmap = s.grp.st.fmt ∧ o.conf = c)) ∧
     (mqFull s s.grp.core = true → ∀ x, exec (.mzero x) s = .next s) ∧
     (∀ a b, (c = 0 → exec (.mma a b) s = .next (deliver s (strandReport s 0x0F 0 0)))) ∧
     (∀ a x, (s.reg a).toNat % 128 ≠ 0 → exec (.mlda a x) s = .next (deliver s (strandReport s 0x05 (s.reg a) 0))) ∧
     (matrixBusy s s.cur.grp = false → fenceReady s s.cur.grp 3 = true → ∃ t, exec .mwait s = .next t ∧ Passed s t) ∧
     (matrixBusy s s.cur.grp = true → exec .mwait s = .next s)) ∧
  (∀ (a b : BitVec 6) (s : State), Committed s → MmaLegal s (s.reg a) (s.reg b) none → gangCnt s.grp.gang.toNat ≠ 0 →
     (∀ r ∈ s.rendezvous, s.cur.grp ∉ r.arrived) →
     let same (r : Rendezvous) : Prop := r.core = s.grp.core ∧ r.launch = s.grp.launch ∧ r.team = s.grp.team ∧
       r.gang = gangSet s.grp.gang.toNat
     ((∀ r ∈ s.rendezvous, ¬ same r) → (s.rendezvous.filter (fun r => r.core == s.grp.core)).length < 8 →
       ∃ t r, exec (.mma a b) s = .next t ∧ Passed s t ∧ t.rendezvous = s.rendezvous ++ [r] ∧ same r ∧
         r.arrived = [s.cur.grp] ∧ r.a = s.reg a ∧ r.b = s.reg b ∧ r.conf = s.grp.mconf ∧ t.mops = s.mops) ∧
     (∀ r, s.rendezvous = [r] → same r → r.a ≠ s.reg a →
       exec (.mma a b) s = .next (deliver s (strandReport s 0x0E 0 0))))

/-- R272, R276, R279, R281: the engine starts the oldest operation; at its completion the operation leaves the queue. MZERO
clears its tile, MLDA loads it, MMA adds to each element of the configured shape its products in runs of eight and leaves
the others; MMAS forms no product of an 8×8 block of B whose bit is 0, and takes a packed B in bit order (R278). MST writes the
elements of the shape to the local store (R282, R283): rounded to a type without blocks, in blocks whose scales it chooses, in
the blocks whose zb metadata it finds, or stippled with a carry for each row. That an operation reads and writes in the one
step of its completion is the model's choice (log 18), and that launches of one ASID are one context its reading (log 31). -/
def Obligations.MatrixEngine : Prop :=
  (∀ (core : Nat) (s : State) (o : MOp),
    (mopsOf s core).find? (fun o => !o.started && !o.gated) = some o →
    ∃ t, exec (.matrixOperation core) s = .next t ∧ (∀ x ∈ t.mops, x.id = o.id → x.started = true) ∧
      t.mops.length = s.mops.length ∧ t.tiles = s.tiles) ∧
  (∀ (core : Nat) (s : State) (o : MOp) (os : List MOp),
    (mopsOf s core).filter (fun o => !o.gated) = o :: os → o.started = true →
    let g := s.group o.grp
    let k := tileKey core o.tile
    let tag := mapGet default s.tileTags k
    let c := o.conf.toNat
    tag.owned = true → sameContext s tag.launch g.launch = true →
    (o.kind ≠ .mst →
      ∃ t, exec (.matrixCompletion core) s = .next t ∧ (∀ x ∈ t.mops, x.id ≠ o.id) ∧
        mapGet default t.tileTags k = ⟨true, g.launch, g.team⟩ ∧
        (o.kind = .mzero → ∀ m n, m < 64 → n < 64 → tileAt t k m n = 0) ∧
        (o.kind = .mlda → ∀ m n, m < 64 → n < 64 → tileAt t k m n =
          storeNat s o.reader g (o.a.toNat + 256 * m + 4 * n) 4) ∧
        (o.kind = .mma → ∀ m n, m < 64 → n < 64 → tileAt t k m n =
          if m < cfgM c ∧ n < cfgN c ∧ cfgM c ≤ 64 ∧ cfgN c ≤ 64 then
            runs (cfgK c) (fun _ => false) (tileAt s k m n) (elemTerms s o.reader g (operandA c o.a.toNat) none m)
              (elemTerms s o.reader g (operandB c o.b.toNat) none n) % 2 ^ 32
          else if cfgM c ≤ 64 ∧ cfgN c ≤ 64 then tileAt s k m n else tileAt t k m n) ∧
        (o.kind = .mmas → cfgM c ≤ 64 → cfgN c ≤ 64 → ∀ m n, m < 64 → n < 64 → tileAt t k m n =
          if m < cfgM c ∧ n < cfgN c then
            runs (cfgK c) (fun kb => !o.bitmap.getLsbD (8 * kb + n / 8)) (tileAt s k m n)
              (elemTerms s o.reader g (operandA c o.a.toNat) none m)
              (elemTerms s o.reader g (operandB c o.b.toNat) (if c.testBit 16 then some o.bitmap.toNat else none) n)
              % 2 ^ 32
          else tileAt s k m n)) ∧
    (∀ ot, Storing s o ot →
      let d := o.b.toNat
      let mb := d / 2 ^ 22 % 2 ^ 21
      let row (m : Nat) : Nat := o.a.toNat + m *
        (if d / 2 ^ 14 % 2 ^ 8 = 0 then cfgN c * ot.bits / 8 else 16 * (d / 2 ^ 14 % 2 ^ 8))
      let mode := Mode.ofCode (o.bitmap.toNat / 2 ^ 13 % 2 ^ 3) 6
      let x (m n : Nat) : XVal := readFloat .f32 (tileAt s k m n)
      let block := if ot = .mx4 ∨ ot = .ts8 then 32 else 8 * 2 ^ (d / 2 ^ 12 % 2 ^ 2)
      let width := if ot = .mx4 ∨ ot = .ts8 then 1 else 4
      let scale (m n : Nat) : Nat := mb + (m * (cfgN c / block) + n / block) * width
      let code (u : State) (m n : Nat) : Nat := storedCode ot u g (row m) n
      ∃ t, exec (.matrixCompletion core) s = .next t ∧ (∀ x ∈ t.mops, x.id ≠ o.id) ∧ t.tiles = s.tiles ∧
        (∀ a, memGet t.mem a = memGet s.mem a) ∧
        (ot.isBlock = false → ∀ m n, m < cfgM c → n < cfgN c → code t m n =
          (roundTo ot mode (d.testBit 6 || o.bitmap.getLsbD 12) false (x m n)).1 % 2 ^ ot.bits) ∧
        (ot = .mx4 ∨ ot = .ts8 → d.testBit 7 = false → ∀ m j, m < cfgM c → j < cfgN c / 32 →
          let b := blockConvert ot mode ((List.range 32).map (fun i => x m (32 * j + i)))
          localNat t g (scale m (32 * j)) 1 = b.1 % 2 ^ 8 ∧
            ∀ i, i < 32 → code t m (32 * j + i) = b.2.1.getD i 0 % 2 ^ ot.bits) ∧
        (ot = .zb4 ∨ ot = .zb8 → d.testBit 7 = false → ∀ m n, m < cfgM c → n < cfgN c → code t m n =
          (quantise ot mode (x m n) (localNat s g (scale m n) 4) (d.testBit 11)).1 % 2 ^ ot.bits) ∧
        (d.testBit 7 = true → ∀ m, m < cfgM c → ∃ r : Nat → Nat, r 0 = localNat s g (d / 2 ^ 43 + 4 * m) 4 ∧
          localNat t g (d / 2 ^ 43 + 4 * m) 4 = r (cfgN c) % 2 ^ 32 ∧
          ∀ n, n < cfgN c →
            let y := stippleStep
              (xadd .rne (x m n) (readFloat .f32 (if d.testBit 8 = true ∧ n % block = 0 then 0 else r n))).1 ot
              (localNat s g (scale m n) width) (d.testBit 11) (d / 2 ^ 9 % 2 ^ 2)
            code t m n = y.1 % 2 ^ ot.bits ∧ r (n + 1) = y.2.1))) ∧
  (∀ (o : Operand) (bm n k : Nat), let w := o.ty.bits
    elemLocal o none n k = (o.base + n * o.stride + k * w / 8, decide (k % 2 = 1)) ∧
    elemLocal o (some bm) n k = (o.base + ((List.range (k / 8 * 8 + n / 8)).filter bm.testBit).length * (8 * w) +
      (n % 8 * 8 + k % 8) * w / 8, decide (k % 2 = 1)))

/-- R336, R337: PGQRY answers the frame of a page that does not migrate, and the directory's words of one that does; PGMIG
of a page starts its migration and answers 0, or answers 1 where the target is no new frame. -/
def Obligations.PagePlacement : Prop :=
  ∀ (s : State) (a : BitVec 6) (x : Acc), Committed s → groupAccess s (s.reg a) 1 needR = .ok x →
    (∀ d, x.gpn = none → ∃ t, exec (.pgqry d a) s = .next t ∧ t.spc = s.spc + 4 ∧ (∀ r, r ≠ d → t.reg r = s.reg r) ∧
      t.reg d = (if d = 0 then 0 else BitVec.ofNat 64 (pteFrame x.leaf * 4096)) ∧ ∀ k, memGet t.mem k = memGet s.mem k) ∧
    (∀ d n, x.gpn = some n → gpnPkg n = s.pkg → ∃ t, exec (.pgqry d a) s = .next t ∧ t.spc = s.spc + 4 ∧
      t.reg d = (if d = 0 then 0 else queryValue (dirBits s n)) ∧ ∀ k, memGet t.mem k = memGet s.mem k) ∧
    (∀ d b n, (s.launchOf s.grp).priv = true → x.gpn = some n → gpnPkg n = s.pkg → frameOk s (s.reg b).toNat = true →
      let e := dirBits s n
      let h := homeOf (s.reg b).toNat
      (dirState e = 2 ∨ h = dirHome e ∨ h = dirOld0 e ∨ h = dirOld1 e →
        ∃ t, exec (.pgmig d a b) s = .next t ∧ t.spc = s.spc + 4 ∧
        t.reg d = (if d = 0 then 0 else 1) ∧ t.migrations = s.migrations ∧ ∀ k, memGet t.mem k = memGet s.mem k) ∧
      (dirState e ≠ 2 → h ≠ dirHome e → h ≠ dirOld0 e → h ≠ dirOld1 e → dirPins e = 0 → s.probes = [] →
        s.migrations = [] →
        ∃ t m, exec (.pgmig d a b) s = .next t ∧ t.spc = s.spc + 4 ∧ t.reg d = 0 ∧ t.migrations = [m] ∧ m.gpn = n ∧
          m.src = homeDpa (dirHome e) ∧ m.target = (s.reg b).toNat ∧ m.copied = [] ∧ dirState (dirBits t n) = 2 ∧
          dirTarget (dirBits t n) = h % 2 ^ 39 ∧ dirHome (dirBits t n) = dirHome e))

namespace Sys2Proof.Claims

open Sys2Proof.Machine

/-! ### The front end -/

/-- No write of the front end for a queue is on its way to another package, nor the second write of a page that moves
there (R403, R339). -/
structure FrontSettled (s : State) (q : Nat) : Prop where
  own : ∀ r ∈ s.remote, ¬ (r.grp = frontGroup q ∧ r.op.isStore = true)
  window : ∀ r ∈ s.remote, ¬ (r.grp = migGroup ∧ r.pc = Writer.inside.key ∧ r.state.open = true)

/-- The front end moves on a queue: what earlier packets wrote to other packages is acknowledged, and a packet with W
finds no incomplete launch of the queue. -/
structure FrontMoves (s : State) (e : Entry) : Prop where
  identity : s.cur.grp = frontGroup s.cur.queue
  settled : FrontSettled s s.cur.queue
  earlier : bit e.d0.toNat 62 = true → (s.queue s.cur.queue).launches = []

/-- A packet's entry, and whether its fields are within their limits (R404, R405, R409, R413). -/
def packetForm (prio : Nat) : Instr → Option (Entry × Bool)
  | .nop e | .fetchfence e => some (e, headerOk e 0 && argsZero e 1)
  | .ib e => some (e, ibOk e)
  | .loop e => some (e, loopOk e)
  | .pred e => some (e, predOk e)
  | .waitmem e => some (e, waitmemOk e)
  | .writemem e => some (e, writememOk e)
  | .signal e => some (e, signalOk e)
  | .feed e => some (e, feedOk e)
  | .launch e f => some (e, launchOk e f prio)
  | _ => none

/-- The entry cache holds a control block, or has room for it in its set (R397). -/
def BlockRoom (s : State) (q : Nat) : Prop :=
  (s.qcache.find? (fun p => p.1 == q)).isSome = true ∨ (qcbWays s q).length < 8

/-- A control block whose change leaves the rest of memory alone: the entry cache holds it, or has room for it in its set, and
the queue's ring is not in the table's place of the block (R397). -/
def BlockHeld (s : State) (q : Nat) : Prop :=
  let base := dpaLocal (qcbBase (qcbImage s q))
  (s.qcache.find? (fun p => p.1 == q)).isSome = true ∨
    ((qcbWays s q).length < 8 ∧
      (base + 64 * qcbN (qcbImage s q) ≤ qcbHome s q ∨ qcbHome s q + 64 ≤ base))

/-- A packet that translates addresses. -/
def usesContext : Instr → Bool
  | .nop _ | .fetchfence _ | .loop _ => false
  | _ => true

/-- The kernel descriptor `d` of a launch that R409 accepts; an empty grid reads none. -/
def LaunchKernel (s : State) (e : Entry) (d : Nat) : Prop :=
  let q := s.cur.queue
  let c := ctxOf s q
  (launchTeams e = 0 ∧ d = 0) ∨
  (launchTeams e ≠ 0 ∧ (∃ bs, frontBytes s q e.d1.toNat 128 = .ok bs ∧ d = natOfBytes bs) ∧ kdOk d = true ∧
    e.d1.toNat % 128 = 0 ∧ (∀ i, i < 3 → bit (kdNeed d) i = true → bit s.caps.toNat i = true) ∧
    (∃ core, core < 1152 ∧ teamFits s d core = true) ∧ kdTeam d ≤ ctxGcount c ∧ ctxTcount c ≠ 0)

/-- R409 step 3: the launch has no completion address, or one that translates and can be pinned. -/
def LaunchTarget (s : State) (e : Entry) : Prop :=
  e.d6 = 0 ∨ ∃ a, frontAccess s s.cur.queue e.d6.toNat needW = .ok a ∧ pinMoving s (pinOf 0 e.d6.toNat a) = false ∧
    pinRoom s 0 [pinOf 0 e.d6.toNat a] = true

/-! ### Translation requests -/

/-- A request whose record is in order (R320, R321). -/
structure RequestMoves (s : State) (e : Entry) : Prop where
  identity : s.cur.grp = frontGroup s.cur.queue
  place : caddrOk s (reqCaddr e) = true
  fields : reqReservedOk e = true
  asid : reqAsid e ≠ 0

end Sys2Proof.Claims

/-! ## The front end and its requests (R317-R331, R397-R416) -/

/-- R401-R407, R413: a malformed packet faults its queue with 0x01, and a broken context record with 0x02; W waits for the
queue's launches, and the queue leaves its lane. NOP and FETCHFENCE pass, and FETCHFENCE forgets every entry fetched ahead; IB
and LOOP open their ranges, PRED skips where its comparison fails, WAITMEM passes where it holds and otherwise leaves a
monitor, WRITEMEM and SIGNAL store their word, and pass once the write is complete: at once in this package, after its answer
in another. FEED appends its records with V set, advances TAIL, counts them in SENT and wakes a sleeper for each. A packet that
passes clears V of its entry and advances HEAD. -/
def Obligations.FrontPackets : Prop :=
  (∀ (s : State), s.cur.grp = frontGroup s.cur.queue →
    let q := s.cur.queue
    let prio := qcbPrio (qcbImage s q)
    (∀ i e, packetForm prio i = some (e, false) → exec i s = .next (queueFault s q 0x01 0)) ∧
    (∀ i e, packetForm prio i = some (e, true) → bit e.d0.toNat 62 = true → (s.queue q).launches ≠ [] →
      FrontSettled s q → ∃ t, exec i s = .next t ∧ (∀ l ∈ t.lanes, l.queue ≠ q) ∧ (t.queue q).parked = true ∧
        (t.queue q).frames = (s.queue q).frames ∧ t.qcache = s.qcache ∧ t.mem = s.mem) ∧
    (∀ i e, packetForm prio i = some (e, true) → usesContext i = true → FrontMoves s e → ctxOk s (ctxOf s q) = false →
      exec i s = .next (queueFault s q 0x02 0))) ∧
  (∀ (s : State) (e : Entry), FrontMoves s e →
    let q := s.cur.queue
    (headerOk e 0 = true → argsZero e 1 = true → exec (.nop e) s = .next (passed s q 1) ∧
      exec (.fetchfence e) s = .next (passed (s.setQueue q { s.queue q with ahead := [] }) q 1)) ∧
    (loopOk e = true → (s.queue q).frames = [] → ∃ t, exec (.loop e) s = .next t ∧
      (t.queue q).frames = [.loop ((qcbHead (qcbImage s q) + 1) % 2 ^ 32) (loopLen e) (loopCount e) 0]) ∧
    (ctxOk s (ctxOf s q) = true →
      (ibOk e = true → ((s.queue q).frames.filter QFrame.isIb).length < 2 → ∃ t, exec (.ib e) s = .next t ∧
        (t.queue q).frames = .ib e.d1.toNat e.d2.toNat :: (s.queue q).frames ∧ t.mem = s.mem) ∧
      (predOk e = true → ∀ bs, frontBytes s q e.d1.toNat 8 = .ok bs → ∃ t, exec (.pred e) s = .next t ∧
        if compareWord (cmpOf e) true (BitVec.ofNat 64 (natOfBytes bs) &&& e.d2) e.d3 = true then t = passed s q 1
        else (t.queue q).skip = bits (entryArg e) 15 8) ∧
      (waitmemOk e = true → ∀ bs, frontBytes s q e.d1.toNat 8 = .ok bs →
        let holds := compareWord (cmpOf e) true (BitVec.ofNat 64 (natOfBytes bs) &&& e.d2) e.d3
        (holds = true → exec (.waitmem e) s =
          .next (passed { s with monitors := s.monitors.filter (fun m => m.who != .queue q) } q 1)) ∧
        (holds = false → ∀ a, frontAccess s q e.d1.toNat needR = .ok a → a.pkg = s.pkg → a.reg = false →
          (s.monitors.filter (fun m => m.slice == a.slice)).length < 4096 →
          ∃ t m, exec (.waitmem e) s = .next t ∧ (t.queue q).waiting = true ∧ m ∈ t.monitors ∧ m.who = .queue q ∧
            m.addr = a.loc ∧ m.dword = true ∧ m.mask = e.d2 ∧ m.value = e.d3 ∧ m.cmp = cmpOf e)) ∧
      (writememOk e = true → (s.queue q).posted = false → ∀ a, frontAccess s q e.d1.toNat needW = .ok a →
        (a.pkg = s.pkg → a.reg = false → a.loc < migBase → dualTarget s (a.loc / 8) = none →
          ∃ u, exec (.writemem e) s = .next (passed u q 1) ∧
            Stores s.mem u.mem a.loc (if bit (entryArg e) 4 then 8 else 4) e.d2) ∧
        (a.pkg ≠ s.pkg → ∃ t, exec (.writemem e) s = .next t ∧ (t.queue q).posted = true ∧ t.qcache = s.qcache ∧
          t.mem = s.mem ∧ ∃ r ∈ t.remote, r.grp = frontGroup q ∧ r.addr = a.dpa ∧
            r.op = .store (if bit (entryArg e) 4 then 8 else 4) e.d2)) ∧
      (writememOk e = true → (s.queue q).posted = true → exec (.writemem e) s = .next (passed s q 1)) ∧
      (signalOk e = true → (s.queue q).posted = true → exec (.signal e) s = .next (signalDone s q e)) ∧
      (signalOk e = true → (s.queue q).posted = false → ∀ a, frontAccess s q e.d1.toNat needRW = .ok a → a.pkg = s.pkg → a.reg = false →
        a.loc < migBase → dualTarget s (a.loc / 8) = none → poisoned s a.loc = false →
        ∃ u, exec (.signal e) s = .next (signalDone u q e) ∧
          Stores s.mem u.mem a.loc 8 (if bit (entryArg e) 4 then e.d2 else unitOf s (a.loc / 8) + e.d2)) ∧
      (feedOk e = true →
        let f := feedQid e
        let n := e.d2.toNat
        isWork f (qcbImage s f) = true → qcbOk s f = true → qcbState (qcbImage s f) = 1 →
        ctxAsid (ctxOf s f) = ctxAsid (ctxOf s q) → 1 ≤ n → n ≤ qcbN (qcbImage s f) →
        (hasRoom (qcbImage s f) n = true → ∀ bs, frontBytes s q e.d1.toNat (64 * n) = .ok bs →
          exec (.feed e) s = .next (passed (appendRecords s f (recordsOf n bs)) q 1)) ∧
        (hasRoom (qcbImage s f) n = false → exec (.feed e) s = .next (waitQueue s q))))) ∧
  (∀ (s : State) (q : Nat) (e : Entry), (s.queue q).waiting = true → fetchEntry (onQueue s q) q 0 = .entry e →
    (packetType e = 0x05 → waitmemOk e = true →
      ∃ t, exec (.waitmemReread q) s = .next t ∧ exec (.waitmem e) (onQueue s q) = .next t) ∧
    (packetType e = 0x08 → feedOk e = true →
      ∃ t, exec (.feedRoom q) s = .next t ∧ exec (.feed e) (onQueue s q) = .next t)) ∧
  (∀ (s : State) (q : Nat), (s.queue q).frames = [] →
    let t := passed s q 1
    let a := ringAddr (qcbImage s q) (qcbHead (qcbImage s q))
    qcbHead (qcbImage t q) = (qcbHead (qcbImage s q) + 1) % 2 ^ 32 ∧ (t.queue q).waiting = false ∧
    (t.queue q).posted = false ∧
    (BlockHeld s q → (unitOf t (a / 8)).getLsbD 63 = false ∧
      (dualTarget s (a / 8) = none → ∀ b, b / 8 ≠ a / 8 → memGet t.mem b = memGet s.mem b))) ∧
  (∀ (s : State) (f : Nat) (rs : List (List Dword)),
    let i := qcbImage s f
    let t := appendRecords s f rs
    let woken := ((sleepersOf s f).filter (asleep s f)).take rs.length
    BlockHeld s f → s.migrations = [] → rs.length ≤ qcbN i → qcbBase i % 64 = 0 →
    (∀ j r, rs[j]? = some r → ∀ k, k < 8 → unitOf t (ringAddr i (qcbTail i + j) / 8 + k) =
      r.getD k 0 ||| (if k = 1 then BitVec.ofNat 64 (2 ^ 63) else 0)) ∧
    qcbTail (qcbImage t f) = (qcbTail i + rs.length) % 2 ^ 32 ∧ qcbHead (qcbImage t f) = qcbHead i ∧
    mapGet 0 t.sent (queueDom t f) = mapGet 0 s.sent (queueDom t f) + BitVec.ofNat 32 rs.length ∧
    (∀ g ∈ woken, (t.group g).wait = .wpop f true) ∧
    ∀ g, asleep s f g = true → g ∉ woken → asleep t f g = true)

/-- R408-R411: a LAUNCH whose checks pass is kept with its grid, arguments, placement, kernel and a tag that no incomplete
launch of its ASID has, and its queue goes on. A broken kernel descriptor faults the queue with 0x02, and one that needs
what CAPS lacks with 0x0C. -/
def Obligations.LaunchPacket : Prop :=
  ∀ (e f : Entry) (s : State),
    let q := s.cur.queue
    let c := ctxOf s q
    FrontMoves s e → launchOk e f (qcbPrio (qcbImage s q)) = true → ctxOk s c = true → LaunchTarget s e →
    (∀ d tag, LaunchKernel s e d → pickLtag s (ctxAsid c) 65535 (s.free 50) = some tag →
      ∃ t l, exec (.launch e f) s = .next t ∧ t.launches.length = s.launches.length + 1 ∧
        t.launches[s.launches.length]? = some l ∧ l.queue = q ∧ l.asid = ctxAsid c ∧ l.vf = ctxVf c ∧
        l.priv = ctxPriv c ∧ l.maint = ctxMaint c ∧ l.ltag = tag ∧ tag ≠ 0 ∧
        (∀ x ∈ s.launches, x.asid = l.asid → x.ltag = tag → x.done = true ∨ x.killed = true) ∧
        l.prio = qcbPrio (qcbImage s q) ∧ l.urgent = bit e.d0.toNat 61 ∧ l.gx = launchGx e ∧ l.gy = launchGy e ∧
        l.gz = launchGz e ∧ l.caddr = e.d6.toNat ∧ l.cval = e.d7 ∧ l.args.length = 8 ∧
        (∀ k, k < 8 → l.args[k]? = some (BitVec.ofNat 32
          (((entryArgs f)[k / 2]?.getD 0).toNat / 2 ^ (32 * (k % 2))))) ∧
        l.sentry = kdSentry d ∧ l.lbase = kdLbase d ∧ l.fmt = kdFmt d ∧ l.fpmode = kdFpmode d ∧ l.width = kdWidth d ∧
        l.vregs = kdVregs d ∧ l.lstore = kdLstore d ∧ l.teamSize = kdTeam d ∧ l.pair = kdPair d ∧
        (launchTeams e ≠ 0 → l.started = [] ∧ l.done = false ∧ s.launches.length ∈ (t.queue q).launches)) ∧
    (∀ bs, launchTeams e ≠ 0 → frontBytes s q e.d1.toNat 128 = .ok bs → kdOk (natOfBytes bs) = false →
      exec (.launch e f) s = .next (queueFault s q 0x02 0)) ∧
    (∀ bs i, launchTeams e ≠ 0 → frontBytes s q e.d1.toNat 128 = .ok bs → kdOk (natOfBytes bs) = true →
      e.d1.toNat % 128 = 0 → i < 3 → bit (kdNeed (natOfBytes bs)) i = true → bit s.caps.toNat i = false →
      exec (.launch e f) s = .next (queueFault s q 0x0C 0))

/-- R317-R323, R326, R331, R34: a translation request ends with CVAL and its status at CADDR: 1 for an ASID in the wrong
state, 2 for a bad record, 3 for no such group or command. TLBINV removes the ASID's translations of its range at once
and ends when no earlier command pins one there; ASID_BIND writes the ASID's entry and ASID_RETIRE sets its STATE to 0; RESUME
makes a parked group eligible and RESUME_CMD a deferred command wait; PGATTR ends with what its transition gives, which
rewrites the leaf and removes its translations, with 4 where there is no leaf, and faults its queue with a FORMAT record where
the walk meets a malformed entry (R313). TLBINV also ends the use of leaves that an earlier PGATTR has replaced. That a faulted
PGATTR completes with no status is the model's choice (log 77). -/
def Obligations.TranslationRequests : Prop :=
  (∀ (s : State) (e : Entry) (st : Nat),
    let u := dpaLocal (reqCaddr e) / 8
    dualTarget s u = none → dualTarget s (u + 1) = none →
    let t := completeRequest s e st
    unitOf t u = e.d6 ∧ unitOf t (u + 1) = BitVec.ofNat 64 st ∧
    ∀ b, b / 8 ≠ u → b / 8 ≠ u + 1 → memGet t.mem b = memGet s.mem b) ∧
  (∀ (s : State) (e : Entry), RequestMoves s e →
    let q := s.cur.queue
    let a := reqAsid e
    let bad (i : Instr) (st : Nat) : Prop := exec i s = .next (finishRequest s q e st)
    (asidBound s a = false → reqArg1 e < 2 ^ 48 → reqArg2 e < 32 → reqArg3 e = 0 → bad (.resume e) 1) ∧
    (rootOk s (reqArg1 e) = true → reqArg2 e < 64 → reqArg3 e = 0 →
      (asidState s a ≠ 0 → bad (.asidBind e) 1) ∧
      (asidState s a = 0 → ∃ u, exec (.asidBind e) s = .next (finishRequest u q e 0) ∧ asidBound u a = true ∧
        asidVf u a = reqArg2 e ∧ asidRoot u a = dpaLocal (reqArg1 e))) ∧
    (rootOk s (reqArg1 e) = false → bad (.asidBind e) 2) ∧
    (asidBound s a = true →
      (tlbinvOk e = true → ∃ t, exec (.tlbinv e) s = .next t ∧ t.pendInv = s.pendInv ++ [⟨q, e, s.nextId, false, [], 0⟩] ∧
        ∀ x, x ∈ t.tlb ↔ x ∈ s.tlb ∧ ¬ ((x.asid = a ∨ (bit (reqArg3 e) 0 = true ∧ pteG x.leaf.toNat = true)) ∧
          meets (x.vpn * 4096 / 2 ^ (12 + 9 * x.level) * 2 ^ (12 + 9 * x.level)) (2 ^ (12 + 9 * x.level)) (reqArg1 e)
            (reqArg2 e) = true)) ∧
      (tlbinvOk e = false → bad (.tlbinv e) 2) ∧
      (reqArg1 e = 0 → reqArg2 e = 0 → reqArg3 e = 0 →
        (asidBusy s a = true → bad (.asidRetire e) 1) ∧
        (asidBusy s a = false → ∃ u, exec (.asidRetire e) s = .next (finishRequest u q e 0) ∧ asidState u a = 0 ∧
          asidVf u a = asidVf s a ∧ asidRoot u a = asidRoot s a ∧ ∀ x ∈ u.tlb, x.asid ≠ a)) ∧
      (reqArg1 e < 2 ^ 48 → reqArg2 e < 32 → reqArg3 e = 0 →
        (parkedGroup s e = none → bad (.resume e) 3) ∧
        (∀ g, parkedGroup s e = some g → ∃ u, exec (.resume e) s = .next (finishRequest u q e 0) ∧
          (u.group g).eligible = true ∧ ∀ i, i ≠ g → u.group i = s.group i)) ∧
      (reqArg1 e < 2 ^ 22 → bit (reqArg1 e) 6 = false → reqArg2 e = 0 → reqArg3 e = 0 →
        (deferredCmd s e = none → bad (.resumeCmd e) 3) ∧
        (∀ c, deferredCmd s e = some c → ∃ u, exec (.resumeCmd e) s = .next (finishRequest u q e 0) ∧
          { c with state := .waiting, stamp := s.ord } ∈ u.cmds)) ∧
      (reqArg1 e % 4096 = 0 → reqArg3 e = 0 →
        (leafOf s a (reqArg1 e) = none → leafBad s a (reqArg1 e) = false → bad (.pgattr e) 4) ∧
        (leafOf s a (reqArg1 e) = none → leafBad s a (reqArg1 e) = true → exec (.pgattr e) s =
          .next (queueFault (postFault s { kind := 7, code := 0x07, va := e.d5, asid := a, vf := asidVf s a }) q 0x07 e.d5)) ∧
        (∀ u st, tryAttr s e none = .over u st → exec (.pgattr e) s = .next (finishRequest u q e st)) ∧
        (∀ u, tryAttr s e none = .wait u → ∃ t, exec (.pgattr e) s = .next t ∧
          t.pendAttr = u.pendAttr ++ [⟨q, e, u.nextId, false, [], u.ord⟩]) ∧
        (∀ u kept, tryAttr s e none = .sent u kept → ∃ t, exec (.pgattr e) s = .next t ∧
          t.pendAttr = u.pendAttr ++ [⟨q, e, u.nextId, true, kept, u.ord⟩])))) ∧
  (∀ (s : State) (n : Nat) (r : PendReq), s.pendInv[n]? = some r →
    let mixed (t : State) : Prop := mixLines t (reqAsid r.entry) (reqArg1 r.entry) (reqArg2 r.entry) ≠ []
    (tlbinvReady s r = false → exec (.tlbinvCompletion n) s = .next s) ∧
    (tlbinvReady s r = true → ¬ mixed s → ∃ u, exec (.tlbinvCompletion n) s = .next (completeRequest u r.entry 0) ∧
      u.pendInv = s.pendInv.eraseIdx n ∧ ∀ x ∈ u.tlb, ¬ (x.asid = reqAsid r.entry ∧
        meets (x.vpn * 4096 / 2 ^ (12 + 9 * x.level) * 2 ^ (12 + 9 * x.level)) (2 ^ (12 + 9 * x.level)) (reqArg1 r.entry)
          (reqArg2 r.entry) = true)) ∧
    ∀ t, exec (.tlbinvCompletion n) s = .next t → t.pendInv.length < s.pendInv.length → ¬ mixed t) ∧
  (∀ (s : State) (n : Nat) (r : PendReq) (u : State) (st : Nat), s.pendAttr[n]? = some r →
    tryAttr { s with cur := { s.cur with queue := r.queue, grp := frontGroup r.queue } } r.entry
      (if r.sent then some r else none) = .over u st →
    ∃ v, exec (.pgattrTransition n) s = .next (completeRequest v r.entry st) ∧ v.pendAttr = u.pendAttr.eraseIdx n ∧
      v.mem = u.mem ∧ v.tlb = u.tlb) ∧
  (∀ (s u : State) (e : Entry) (r : Option PendReq) (addr level old : Nat), tryAttr s e r = .over u 0 →
    leafOf s (reqAsid e) (reqArg1 e) = some (addr, level, old) →
    (pteCT old = false → unitOf u (addr / 8) = BitVec.ofNat 64 (reqArg2 e)) ∧ ∀ x ∈ u.tlb, ¬ (x.asid = reqAsid e ∧
      meets (x.vpn * 4096 / 2 ^ (12 + 9 * x.level) * 2 ^ (12 + 9 * x.level)) (2 ^ (12 + 9 * x.level)) (reqArg1 e)
        (attrSize level old) = true))

namespace Sys2Proof.Claims

open Sys2Proof.Machine

/-! ### Engines -/

/-- R351-R379, R431, R436: an engine command: its endpoint kind, its words, and what the engine begins with. -/
def commandForm : Instr → Option (Nat × List Dword × (State → Cmd → State))
  | .copy a b c d e => some (1, [a, b, c, d, e], copyStart)
  | .bag a b c d e f g => some (2, [a, b, c, d, e, f, g], bagStart)
  | .upd a b c d e f g => some (2, [a, b, c, d, e, f, g], updStart)
  | .ngemv a b c d e f g => some (4, [a, b, c, d, e, f, g], ngemvStart)
  | .srch a b c d e f => some (5, [a, b, c, d, e, f], srchStart)
  | .allred a b c d e => some (3, [a, b, c, d, e], collStart)
  | .redscat a b c d e => some (3, [a, b, c, d, e], collStart)
  | .allgath a b c d e => some (3, [a, b, c, d, e], collStart)
  | .bcast a b c d e => some (3, [a, b, c, d, e], collStart)
  | .cbar a b c d e => some (3, [a, b, c, d, e], collStart)
  | .topkmerge a b c d e => some (3, [a, b, c, d, e], collStart)
  | .mcast a b c d e f g => some (3, [a, b, c, d, e, f, g], mcastStart)
  | _ => none

/-- R146, R354: the engine has taken a command's words from the queue register and keeps the command. -/
structure Accepted (s t : State) (kind : Nat) (ws : List Dword) (c : Cmd) : Prop where
  command : c.id = s.nextId ∧ c.eng = kind ∧ c.grp = s.cur.grp ∧ c.qreg = s.cur.qreg ∧ c.words = ws
  begins : c.state = .waiting ∧ c.trans = [] ∧ c.wrote = [] ∧ c.stamp = s.ord
  kept : t.cmds = s.cmds ++ [c]
  taken : mapGet [] t.grp.pushq s.cur.qreg = (mapGet [] s.grp.pushq s.cur.qreg).drop ws.length
  rest : { t with
    groups := s.groups
    cmds := s.cmds
    nextId := s.nextId } = s

/-- The command that runs or is in its last phase under an identity. -/
structure Runs (s : State) (id : Nat) (c : Cmd) : Prop where
  found : cmdOf s id = some c
  running : c.state = .running

/-- R84, R363: the pooled value of a bag's row elements, in order: the sum, the mean or the maximum, each sum rounded to
f32; of no rows, 0 or −∞. -/
def pooled (pool : Nat) : List Nat → Nat
  | [] => if pool = 2 then 0xFF800000 else 0
  | v :: vs =>
    let sum := vs.foldl (fun a x => f32Round (xadd .rne (f32Val a) (f32Val x)).1) v
    if pool = 2 then vs.foldl (fun a x => f32Round (xminmax true (f32Val a) (f32Val x)).1) v
    else if pool = 1 then f32Round (xdiv (f32Val sum) (.fin false (vs.length + 1) 1)) else sum

/-- Bytes of which none is marked uncorrectable. -/
def Sound (bs : Marked) : Prop := ∀ b ∈ bs, b.2 = false

/-- R365, R366: the weight of column j of row r, as the terms of its products: an element of the row, with its block's scale
or metadata where the type has blocks; of a sparse W the next packed element of its granule where the bitmap has a 1, and
nothing elsewhere. -/
def ngemvWeight (s : State) (c : Cmd) (r j : Nat) : List XVal :=
  let t := nTy (nWt c)
  let row := cmdRead s c (nW c + nRsw c * r) (nRowLen c)
  let side := cmdRead s c (nS c) (nSlen c)
  if nSpz c = true then
    let bm := bytesAt side (8 * (r * (nCols c / 64) + j / 64)) 8
    if bm.testBit (j % 64) then
      [readFloat t (bytesAt row ((j / 64 * 64 + ((List.range (j % 64)).filter bm.testBit).length) * t.bits / 8) (t.bits / 8))]
    else []
  else
    let b := bytesAt row (j * t.bits / 8) ((t.bits + 7) / 8)
    let q := if t.bits = 4 then b / 16 ^ (j % 2) % 16 else b
    if nBlock c = true then
      let width := if t = .mx4 ∨ t = .ts8 then 1 else 4
      let scale := bytesAt side ((r * (nCols c / nBs c) + j / nBs c) * width) width
      if t = .ts8 then ts8Terms q scale else [(blockValue t q scale (nZp c)).1]
    else [readFloat t q]

/-- R366: row r of an NGEMV: columns in runs of eight onto the row's accumulator, rounded to YT. -/
def ngemvValue (s : State) (c : Cmd) (r : Nat) : Nat :=
  let x (j : Nat) : List XVal := [readFloat (nTy (nXt c))
    (bytesAt (cmdRead s c (nX c) (nXlen c)) ((nTy (nXt c)).bits / 8 * j) ((nTy (nXt c)).bits / 8))]
  let acc := if nAcc c then bytesAt (cmdRead s c (nY c) (nYlen c)) (4 * r) 4 else 0
  let a := runs (nCols c) (fun _ => false) acc (ngemvWeight s c r) x
  if nTy (nYt c) = .f32 then a else (roundTo (nTy (nYt c)) .rne false false (f32Val a)).1

/-- A state that differs by what it has noted of reads on their way to the base dies alone (R367). -/
def OnlyNoted (s t : State) : Prop := t = { s with baseOps := t.baseOps }

/-- R359, R360: element i of a granule whose packed elements of w bytes begin at `at_`: the next one where the bitmap has a 1,
else 0. -/
def sparseElem (src : Marked) (w bm at_ i : Nat) : Nat :=
  if bm.testBit i then bytesAt src (at_ + w * ((List.range i).filter bm.testBit).length) w else 0

/-- R364: the combined gradient of element e of row u: the gradients of the records of that row, in order, each sum rounded
to f32. -/
def gradient (c : Cmd) (gb : Marked) (is : List Nat) (u e : Nat) : Nat :=
  match ((List.range is.length).filter (fun r => is[r]? = some u)).map (fun r => bytesAt gb (4 * (gD c * r + e)) 4) with
  | [] => 0
  | g :: gs => gs.foldl (fun a x => f32Round (xadd .rne (f32Val a) (f32Val x)).1) g

/-- R364: the rows that an UPD names lie in memory of this package, sound and away from migrations, no two of their elements at
one place. -/
structure UpdPlaces (s : State) (c : Cmd) (is : List Nat) : Prop where
  plain : ∀ u ∈ is, ∀ e, e < gD c → let a := cmdAcc s c (gTbase c + gRs c * u + 4 * e)
    a.pkg = s.pkg ∧ a.reg = false ∧ a.needDir = false ∧ a.loc < migBase ∧ a.loc % 4 = 0 ∧ poisoned s a.loc = false ∧
      dualTarget s (a.loc / 8) = none
  ready : ∀ u ∈ is, (linesOf [gRow c u]).any (fun p => (cmdAcc s c p.1).needDir) = false
  apart : ∀ u ∈ is, ∀ v ∈ is, ∀ d e, d < gD c → e < gD c →
    (cmdAcc s c (gTbase c + gRs c * u + 4 * d)).loc = (cmdAcc s c (gTbase c + gRs c * v + 4 * e)).loc → u = v ∧ d = e

/-- R436, R437: a chunk comes of the operation that a member performs: OPC, the items word without COMM, and COUNT agree. -/
def Comes (c : Cmd) (opc : BitVec 8) (items : Dword) (count : Word) : Prop :=
  opc.toNat = c.opc ∧ items.toNat % 2 ^ 58 = c.word 1 % 2 ^ 58 ∧ count.toNat = c.word 4 % 2 ^ 32

/-- R439: the pairs of a member's own list and its children's, without fillers. -/
def offered (x : Coll) (src : List Byte) : List Pair :=
  (pairsOf src ++ (partsAt x 0).flatMap (fun p => pairsOf (dwordBytes p))).filter (fun p => !isFiller p)

/-- R437-R440: what a member writes where every chunk is there, as (offset, bytes): its own source and the final chunks, or
sums, or the least pairs. -/
structure CollWritten (s : State) (c : Cmd) (x : Coll) (src : List Byte) (ws : List (Nat × List Byte)) : Prop where
  barrier : c.opc = 0x44 → ws = []
  gather : c.opc = 0x42 → ws.head? = some (coRank s c * coBlock c, src)
  sends : c.opc = 0x43 → isRoot s c = true → ws = [(0, src)]
  final : c.opc = 0x42 ∨ (c.opc = 0x43 ∧ isRoot s c = false) → ∀ o ∈ chunkOffs s c, ∀ n d, chunkLen s c o = some n →
    x.finals.find? (fun p => p.1 == o) = some (o, d) → (o, (dwordBytes d).take n) ∈ ws
  sum : c.opc = 0x40 ∨ c.opc = 0x41 → (coTy c).isInt = true → coRop c = 0 → 1 < coN s c → ∀ o ∈ chunkOffs s c, ∀ n,
    chunkLen s c o = some n → x.finals.find? (fun p => p.1 == o) = none →
    ∃ bs, (o, bs) ∈ ws ∧ ∀ i, i < n / coEs c →
      elemAt (coEs c) bs i = wrapNat (coTy c).bits (((src.drop (o + if c.opc = 0x41 then coRank s c * coBlock c else 0)) ::
        (partsAt x o).map dwordBytes).map (fun b => readInt (coTy c) (elemAt (coEs c) b i))).sum
  least : c.opc = 0x46 → (isRoot s c = false → ws = []) ∧
    (isRoot s c = true → ∃ m, ws = [(0, resultBytes (coK c) m)] ∧ m.length ≤ coK c ∧
      m.Pairwise (fun p q => pairLt p q = true) ∧ (∀ p ∈ m, p ∈ offered x src) ∧
      ∀ p ∈ offered x src, (∃ q ∈ m, pairLt p q = false ∧ pairLt q p = false) ∨
        (m.length = coK c ∧ ∀ q ∈ m, pairLt q p = true))

/-- A message of a search that its command's engine can take. -/
structure SearchMoves (s : State) (id : Nat) (h : Search) (c : Cmd) : Prop where
  search : searchOf s id = some h
  command : Runs s id c

/-! ### Migration -/

/-- The only migration under way is of this page, between two frames of this package that stand apart from the page's
directory entry. -/
structure Migrates (s : State) (gpn : Nat) (m : Migration) : Prop where
  only : s.migrations = [m]
  page : m.gpn = gpn ∧ gpnPkg gpn = s.pkg
  here : dpaPkg m.src = s.pkg ∧ dpaPkg m.target = s.pkg
  aligned : m.src % 4096 = 0 ∧ m.target % 4096 = 0
  moved : dpaLocal m.src ≠ dpaLocal m.target
  apart : ∀ f, f = dpaLocal m.src ∨ f = dpaLocal m.target → f + 4096 ≤ dirEntry s gpn ∨ dirEntry s gpn + 256 ≤ f
  source : homeDpa (dirHome (dirBits s gpn)) = m.src

end Sys2Proof.Claims

/-! ## Engines (R322-R325, R351-R390, R430-R442) -/

/-- R146, R322-R324, R352-R354: an engine takes a command's words and begins it; a reserved bit of the header fails it with
0x01. Translation pins the leaves of its ranges, each set's for itself, and goes on, waits where the table has no room or a
page moves, parks the command where an entry is absent, and fails it with 0x07 where an access is refused. A waiting command begins again. A command that completes leaves its status word
where it is asked for or where it failed, once it is the oldest of its register. -/
def Obligations.EngineCommands : Prop :=
  (∀ (i : Instr) (kind : Nat) (ws : List Dword) (start : State → Cmd → State) (s : State),
    commandForm i = some (kind, ws, start) → s.cur.grp < s.groups.length → kindOf s.grp s.cur.qreg = kind →
    (kind = 1 → ∀ c ∈ s.cmds, c.gated = false) → cmdOpc (ws.headD 0) ∈ engineOps kind →
    ∃ u c, Accepted s u kind ws c ∧
      exec i s = .next (if (ws.headD 0).toNat / 2 ^ 34 % 2 ^ 6 = 0 ∧ (ws.headD 0).toNat / 2 ^ 18 % 2 ^ 14 = 0 ∧
        (ws.headD 0).toNat / 2 ^ 6 % 2 ^ 6 = 0 then start u c else failCmd u c 0x01)) ∧
  (∀ (s : State) (c : Cmd) (sets : List (List Range)) (k : State → Cmd → State), (∃ x ∈ s.cmds, x.id = c.id) →
    (∀ ps, trySets s c sets [] = .pins ps →
      (roomFor s ps = true → ∃ u c', translateCmd s c sets k = k u c' ∧ c' ∈ u.cmds ∧ c'.trans = c.trans ++ ps ∧
        { c' with
          trans := c.trans
          accepted := c.accepted } = c) ∧
      (roomFor s ps = false → { c with state := .waiting, trans := [] } ∈ (translateCmd s c sets k).cmds)) ∧
    (trySets s c sets [] = .moving → { c with state := .waiting, trans := [] } ∈ (translateCmd s c sets k).cmds) ∧
    (∀ va l a, trySets s c sets [] = .absent va l a →
      ∃ j, { c with state := .deferred j, trans := [] } ∈ (translateCmd s c sets k).cmds) ∧
    (∀ va a b, trySets s c sets [] = .fails va a b → ∃ u, translateCmd s c sets k = failCmd u c 0x07)) ∧
  (∀ (id : Nat) (s : State) (c : Cmd), cmdOf s id = some c → c.state = .waiting →
    (s.cmds.find? (fun x => x.sameEngine c && x.state == .waiting)).map Cmd.id = some id →
    exec (.engineAcceptance id) s = .next (startCmd s { c with stamp := s.ord })) ∧
  (∀ (s : State) (c : Cmd) (code count : Nat), c.grp < s.groups.length → firstCmd s c.grp c.qreg = some c →
    (∀ x ∈ s.cmds, x.id = c.id → x = c) →
    let t := completeCmd s c code count
    let q (u : State) : List Dword := mapGet [] (u.group c.grp).popq c.qreg
    (∀ x ∈ t.cmds, x.id ≠ c.id) ∧
    ((c.word 0).testBit 33 = true ∨ code ≠ 0 → ∃ ws, q t = q s ++
      BitVec.ofNat 64 (c.word 0 / 2 ^ 56 % 2 ^ 8 * 2 ^ 56 + c.word 0 / 2 ^ 40 % 2 ^ 16 * 2 ^ 40 + code % 2 ^ 8 * 2 ^ 32 +
        count % 2 ^ 32) :: ws) ∧
    ((c.word 0).testBit 33 = false → code = 0 → ∃ ws, q t = q s ++ ws))

/-- R353-R366, R431-R442: a running command makes its writes and completes; one whose writes to other packages are not yet
acknowledged looks at them again. A copy between memory and the local store writes the bytes that it reads, DQF the bf16
values of mx4 codes, EXPAND the elements of sparse granules at their places, PACK a map of the granules that are not empty and
these granules; BAG writes the pooled rows of each bag, UPD adds each row's combined gradient to its elements and publishes them
(R42), and NGEMV writes its rows' products in runs of eight, of a sparse W those of the present weights. A collective writes what
every chunk is there for: its own block and the others', the root's data, the sums, or the least distinct pairs; the members'
integer sum is the same in any order. The origin of a multicast counts its peers' reports and completes with the last. A chunk
of the member's own operation is kept; one of a different operation fails it with 0x0E and no write (R437); a channel of low
priority has its turn after 15 of high priority (R435). Another member's abort fails it with 0x09, and a kill breaks the
communicator with 0x1A; DST then holds its old or its final value in each unit (R441, R442). That a command reads and writes
in the one step of its completion is the model's choice (log 15), that COUNT stays with CODE 0x19 its reading (log 44), and so is
how unlike operations are told of (log 46). -/
def Obligations.EngineCompletions : Prop :=
  (∀ (id : Nat) (s : State) (c : Cmd), Runs s id c →
    (c.eng = 1 → copyTurn s c = true → exec (.copyCompletion id) s = .next (copyRun s c)) ∧
    (c.eng = 2 → exec (.gatherCompletion id) s = .next (if c.opc = 0x10 then bagRun s c else updRun s c)) ∧
    (c.eng = 4 → exec (.ngemvCompletion id) s = .next (ngemvRun s c)) ∧
    (cmdIsComm c = true → exec (.collectiveCompletion id) s = .next (collFinish s c))) ∧
  (∀ (id : Nat) (s : State) (c : Cmd), cmdOf s id = some c → c.state = .writing →
    (∀ r ∈ s.remote, r.grp ≠ cmdGroup c.id ∧ ¬ (r.grp = migGroup ∧ r.pc = c.writer.key ∧ r.state.open = true)) →
    (c.eng = 1 → copyTurn s c = true → exec (.copyCompletion id) s = .next (completeCmd s c c.code c.count)) ∧
    (c.eng = 2 → exec (.gatherCompletion id) s = .next (completeCmd s c c.code c.count)) ∧
    (c.eng = 4 → exec (.ngemvCompletion id) s = .next (completeCmd s c c.code c.count)) ∧
    (cmdIsComm c = true → exec (.collectiveCompletion id) s = .next (completeCmd s c c.code c.count))) ∧
  (∀ (s : State) (c : Cmd), cpDqf c = false → cpSpz c = 0 → cpDir c = 0 ∨ cpDir c = 1 →
    (cpDir c = 0 → cmdReady s c [(cpSrc c, cpLen c), (cpAux c, 0)] = .go) → (cpDir c = 1 → cmdReady s c [(cpAux c, 0)] = .go) →
    let bs := if cpDir c = 1 then readLocal s c.reader (s.group c.grp) (cpSrc c) (cpLen c) else cmdRead s c (cpSrc c) (cpLen c)
    bs.length = cpLen c → ∃ u c', copyRun s c = finishWrites u c' (if bs.any Prod.snd then 0x19 else 0) (cpLen c) ∧
      (u, c') = cpWrite s c 0 bs) ∧
  (∀ (s : State) (c : Cmd), cpDir c = 0 ∨ cpDir c = 2 → cmdReady s c [(cpSrc c, cpLen c), (cpAux c, cpAuxLen c)] = .go →
    let src := cmdRead s c (cpSrc c) (cpLen c)
    let aux := cmdRead s c (cpAux c) (cpAuxLen c)
    let w := cpWidth c
    let n := cpLen c / (64 * w)
    let bm (g : Nat) : Nat := bytesAt aux (8 * g) 8
    src.length = cpLen c → Sound src → Sound aux →
    ∃ out u c', copyRun s c = finishWrites u c' 0 out.length ∧ (u, c') = cpWrite s c 0 out ∧ Sound out ∧
      (cpDqf c = true → out.length = 4 * cpLen c ∧ ∀ j, j < 2 * cpLen c →
        let q := bytesAt src (j / 2) 1 / 16 ^ (j % 2) % 16
        let e := bytesAt aux (j / 32) 1
        bytesAt out (2 * j) 2 = if e = 255 then 0x7FC0
          else (roundTo .bf16 .rne false false ((readFloat .mx4 q).scale ((e : Int) - 127))).1) ∧
      (cpDqf c = false → cpSpz c = 1 → cpLen c = 64 * w * n → out.length = cpLen c ∧ ∀ g i, g < n → i < 64 →
        bytesAt out ((64 * g + i) * w) w = sparseElem src w (bm g) (64 * w * g) i) ∧
      (cpDqf c = false → cpSpz c = 2 → cpLen c = 64 * w * n → n ≤ 64 →
        let gs := (List.range n).filter (fun g => bm g ≠ 0)
        out.length = 16 + 64 * w * gs.length ∧ (∀ g, (bytesAt out 0 8).testBit g = (decide (g < n) && bm g != 0)) ∧
        bytesAt out 8 8 = 0 ∧ ∀ j g i, gs[j]? = some g → i < 64 →
          bytesAt out (16 + (64 * j + i) * w) w = sparseElem src w (bm g) (64 * w * g) i)) ∧
  (∀ (s : State) (c : Cmd),
    let ib := cmdRead s c (gIbase c) (4 * gNi c)
    let ob := cmdRead s c (gObase c) (4 * gNb c)
    let is := (List.range (gNi c)).map (fun i => bytesAt ib (4 * i) 4)
    let os := (List.range (gNb c)).map (fun i => bytesAt ob (4 * i) 4)
    let row (u : Nat) : Marked := cmdRead s c (gRow c u).1 (gRow c u).2
    let bag (b : Nat) : List Nat := (is.drop (os[b]?.getD 0)).take (os[b + 1]?.getD (gNi c) - os[b]?.getD 0)
    let elem (e u : Nat) : Nat := f32Round (readFloat (gTy c) (bytesAt (row u) (gSize c * e) (gSize c)))
    cmdReady s c [(gIbase c, 4 * gNi c), (gObase c, 4 * gNb c)] = .go → (∀ i ∈ is, i < gNr c) →
    offsetsOk os (gNi c) = true → cmdReady s c ((distinct is).map (gRow c)) = .go → Sound ib → Sound ob →
    (∀ u ∈ is, Sound (row u)) →
    ∃ n u c', bagRun s c = finishWrites u c' 0 is.dedup.length ∧ OnlyNoted s n ∧ (u, c') = cmdWrite n c (gDbase c)
      ((List.range (gNb c)).flatMap (fun b => (List.range (gD c)).flatMap (fun e =>
        bytesOf 4 (pooled (gPool c) ((bag b).map (elem e))))))) ∧
  (∀ (s : State) (c : Cmd),
    let ib := cmdRead s c (gIbase c) (4 * gNi c)
    let gb := cmdRead s c (gObase c) (4 * gD c * gNi c)
    let is := (List.range (gNi c)).map (fun i => bytesAt ib (4 * i) 4)
    let loc (u e : Nat) : Nat := (cmdAcc s c (gTbase c + gRs c * u + 4 * e)).loc
    cmdReady s c [(gIbase c, 4 * gNi c), (gObase c, 4 * gD c * gNi c)] = .go →
    ((∃ i ∈ is, gNr c ≤ i) → updRun s c = failCmd s c 0x02) ∧
    ((∀ i ∈ is, i < gNr c) → Sound ib → Sound gb → UpdPlaces s c is → gSize c = 4 →
      ∃ t c', updRun s c = finishWrites t c' 0 is.dedup.length ∧ (∀ h ∈ t.hist, s.ord < h.stamp → h.shut ≠ 0) ∧
        (∀ u ∈ is, ∀ e, e < gD c → memAt t (loc u e) 4 =
          f32Round (xadd .rne (f32Val (memAt s (loc u e) 4)) (f32Val (gradient c gb is u e))).1) ∧
        ∀ a, (∀ u ∈ is, ∀ e, e < gD c → ¬ (loc u e ≤ a ∧ a < loc u e + 4)) → memGet t.mem a = memGet s.mem a)) ∧
  (∀ (s : State) (c : Cmd), nWt c ∈ [9, 11, 13, 14, 15, 16] → (nSpz c = true → nWt c = 9 ∨ nWt c = 11) →
    let rows := (List.range (nRows c)).map (fun r => (nW c + nRsw c * r, nRowLen c))
    cmdReady s c (rows ++ [(nS c, nSlen c), (nX c, nXlen c)] ++ (if nAcc c then [(nY c, nYlen c)] else [])) = .go →
    (∀ r ∈ rows, Sound (cmdRead s c r.1 r.2)) → Sound (cmdRead s c (nX c) (nXlen c)) → Sound (cmdRead s c (nS c) (nSlen c)) →
    (nAcc c = true → Sound (cmdRead s c (nY c) (nYlen c))) → nCols c % 8 = 0 →
    ∃ n u c', ngemvRun s c = finishWrites u c' 0 (nRows c) ∧ OnlyNoted s n ∧ (u, c') = cmdWrite n c (nY c)
      ((List.range (nRows c)).flatMap (fun r => bytesOf ((nTy (nYt c)).bits / 8) (ngemvValue s c r)))) ∧
  (∀ (s : State) (c : Cmd) (k : Nat) (xs : List Nat), coRop c = 0 → (coTy c).isInt = true → xs ≠ [] →
    (∀ x ∈ xs, x < 2 ^ (coTy c).bits) →
    combineAll s c k xs.length xs = wrapNat (coTy c).bits (xs.map (readInt (coTy c))).sum) ∧
  (∀ (s : State) (c : Cmd) (x : Coll), collOf s c.id = some x → (∀ o ∈ chunkOffs s c, chunkDone s c x o = true) →
    collTurn s c = true → cmdReady s c [(coSrc c, coSrcLen s c)] = .go →
    let src := cmdRead s c (coSrc c) (coSrcLen s c)
    src.length = coSrcLen s c → Sound src → ∃ u c' ws n, collFinish s c = finishWrites u c' 0 n ∧
      (u, c') = writePairs s c ws ∧ CollWritten s c x (src.map Prod.fst) ws ∧
      (c.opc = 0x46 → n = if isRoot s c = true then coK c else 0)) ∧
  (∀ (id peer : Nat) (ok : Bool) (s : State) (c : Cmd) (m : Mcast), cmdOf s id = some c →
    s.mcasts.find? (fun m => m.cmd == id) = some m → peer ∈ m.peers →
    let c' := { c with count := c.count + if ok then 1 else 0 }
    (m.peers.erase peer = [] → ∃ u, exec (.mcastReport id peer ok) s =
      .next (completeCmd u c' (if m.failed = true ∨ ok = false then 0x09 else c.code) c'.count)) ∧
    (m.peers.erase peer ≠ [] → ∃ t, exec (.mcastReport id peer ok) s = .next t ∧ c' ∈ t.cmds ∧
      (⟨id, m.peers.erase peer, m.failed || !ok⟩ : Mcast) ∈ t.mcasts)) ∧
  (∀ (id off : Nat) (final : Bool) (opc : BitVec 8) (items : Dword) (count : Word) (data : List Dword) (s : State) (c : Cmd)
     (x : Coll), Runs s id c → collOf s id = some x → collTurn s c = true → s.chunks = [] →
    let i : Instr := .collectiveChunk id off final ⟨opc, items, count, data⟩
    let fits := ∃ n, chunkLen s c off = some n ∧ (n + 7) / 8 = data.length
    (Comes c opc items count → fits → chunkDone s c x off = false →
      (final = false → (partsAt x off).length < partsNeeded s c) →
      ∃ t y, exec i s = .next t ∧ collOf t id = some y ∧
        ((y.finals = x.finals ++ [(off, data)] ∧ y.parts = x.parts) ∨
         (y.parts = x.parts ++ [(off, data)] ∧ y.finals = x.finals))) ∧
    (Comes c opc items count → ¬ fits → ∃ t, exec i s = .next t ∧ collOf t id = some x) ∧
    (¬ Comes c opc items count → ∃ u, exec i s = .next (collFail u c 0x0E) ∧ u.mem = s.mem ∧ u.cmds = s.cmds ∧
      u.colls = s.colls)) ∧
  (∀ (s : State) (die : Nat) (k : Chunk) (a : Arbiter), arbitrate s die = some (k, a) →
    let n := (mapGet default s.arbiters die).run
    let waits (h : Bool) : Prop := ∃ j ∈ s.chunks, chunkReady s die j = true ∧ commHigh s (chunkComm s j) = h
    k ∈ s.chunks ∧ chunkReady s die k = true ∧
    (commHigh s (chunkComm s k) = false → waits true → 15 ≤ n) ∧
    (commHigh s (chunkComm s k) = true → waits false → n < 15)) ∧
  (∀ (s : State) (c : Cmd) (x : Coll) (code : Nat), c.state = .running → collOf s c.id = some x →
    let src := (cmdRead s c (coSrc c) (coSrcLen s c)).map Prod.fst
    ∃ u c' ws, collFail s c code = finishWrites u c' code 0 ∧ (u, c') = writePairs s c ws ∧ (code = 0x0E → ws = []) ∧
      ∀ p ∈ ws, ∃ q ∈ knownWrites s c x src, q.1 ≤ p.1 ∧ p.2 = (q.2.drop (p.1 - q.1)).take p.2.length) ∧
  (∀ (id : Nat) (s : State) (c : Cmd), Runs s id c → cmdIsComm c = true →
    (id < 2 ^ 40 → exec (.abort id) s = .next (collFail s c 0x09)) ∧
    exec (.abort (2 ^ 41 + id)) s = .next (collFail s c 0x0E)) ∧
  (∀ (k : Nat) (s : State), k < 64 →
    let ours := s.cmds.filter (fun c => cmdIsComm c && cmdComm c == k)
    (ours = [] → ∃ t, exec (.abort (2 ^ 40 + k)) s = .next t ∧ (regGet t (commAddr k + 8)).getLsbD 62 = true) ∧
    (∀ c, ours = [c] → ∃ t, exec (.abort (2 ^ 40 + k)) s = .next (collFail t c 0x1A) ∧
      (regGet t (commAddr k + 8)).getLsbD 62 = true ∧ t.cmds = s.cmds))

/-- R382-R386: a search's messages. Each one that its running command holds completes: BROADCAST and REPLY at once, EXPAND
and VISIT once the query has reached their stack, END at once. The query reaches a stack; a VISIT is answered with the
distance of a visible node, or with none; an EXPAND visits each neighbour that a range holds and ends with their count, 0
for a node that is not visible; replies and the count are kept until they are all there, and are then merged. The result
area holds the nearest ids and distances, then fillers. -/
def Obligations.SearchMessages : Prop :=
  (∀ (id : Nat) (s : State) (h : Search) (c : Cmd), searchOf s id = some h → cmdOf s id = some c → c.state = .running →
    (∀ st, .broadcast st ∈ h.msgs → ∃ t, exec (.broadcast id st) s = .next t ∧ searchOf t id = some { h with
      msgs := h.msgs.erase (.broadcast st)
      queryAt := st :: h.queryAt }) ∧
    (∀ n, .expand n ∈ h.msgs → (∀ x, .expand x ∈ h.msgs → hasQuery h x = true) →
      ∃ t h' k, exec (.expand id) s = .next t ∧
      searchOf t id = some h' ∧ h'.msgs.getLast? = some (.endOf k)) ∧
    (∀ n, .visit n ∈ h.msgs → hasQuery h n = true → ∃ t h' d, exec (.visit id n) s = .next t ∧
      searchOf t id = some h' ∧ h'.msgs = h.msgs.erase (.visit n) ++ [.reply n d]) ∧
    (∀ n d, (∀ x, .reply n x ∈ h.msgs ↔ x = d) → h.expected ≠ some (h.got.length + 1) →
      ∃ t, exec (.reply id n) s = .next t ∧ searchOf t id = some { h with
        msgs := h.msgs.erase (.reply n d)
        got := h.got ++ [(n, d)] }) ∧
    (∀ k, (∀ x, .endOf x ∈ h.msgs ↔ x = k) → k ≠ h.got.length → ∃ t, exec (.endOfExpansion id) s = .next t ∧
      searchOf t id = some { h with
        msgs := h.msgs.erase (.endOf k)
        expected := some k })) ∧
  (∀ (id : Nat) (s : State) (h : Search) (c : Cmd), SearchMoves s id h c →
    (∀ st, .broadcast st ∈ h.msgs → ∃ t, exec (.broadcast id st) s = .next t ∧
      searchOf t id = some { h with
        msgs := h.msgs.erase (.broadcast st)
        queryAt := st :: h.queryAt }) ∧
    (∀ n, .visit n ∈ h.msgs → hasQuery h n = true →
      let bs := (readNode s c h n).getD []
      ∃ t d, exec (.visit id n) s = .next t ∧ searchOf t id = some { h with
          msgs := h.msgs.erase (.visit n) ++ [.reply n d]
          poisoned := h.poisoned || bs.any Prod.snd } ∧ (d = none ↔ visible bs n (shSnap c) = false)) ∧
    (∀ n, .visit n ∈ h.msgs → hasQuery h n = false → exec (.visit id n) s = .next s) ∧
    (∀ n, h.msgs.findSome? (fun m => match m with
        | .expand n => some n
        | _ => none) = some n → hasQuery h n = true →
      let bs := (readNode s c h n).getD []
      (visible bs n (shSnap c) = false → ∃ t, exec (.expand id) s = .next t ∧ searchOf t id = some { h with
          msgs := h.msgs.erase (.expand n) ++ [.endOf 0]
          poisoned := h.poisoned || bs.any Prod.snd }) ∧
      (visible bs n (shSnap c) = true → ∃ t h', exec (.expand id) s = .next t ∧ searchOf t id = some h' ∧
        h'.msgs.getLast? = some (.endOf ((neighbours bs (shSnap c)).filter (fun x =>
          x != n && (Desc.find h.desc x).isSome)).dedup.length) ∧
        ∀ x ∈ neighbours bs (shSnap c), x ≠ n → (Desc.find h.desc x).isSome = true →
          .visit x ∈ h'.msgs ∨ ∃ d, .reply x d ∈ h'.msgs)) ∧
    (∀ n d, h.msgs.find? (fun m => match m with
        | .reply x _ => x == n
        | _ => false) = some (.reply n d) →
      exec (.reply id n) s = .next (gathered s c { h with
        msgs := h.msgs.erase (.reply n d)
        got := h.got ++ [(n, d)] })) ∧
    (∀ k, h.msgs.findSome? (fun m => match m with
        | .endOf k => some k
        | _ => none) = some k →
      exec (.endOfExpansion id) s = .next (gathered s c { h with
        msgs := h.msgs.erase (.endOf k)
        expected := some k })) ∧
    (∀ k, h.expected = some k → k ≠ h.got.length → searchOf (gathered s c h) id = some h)) ∧
  (∀ (k : Nat) (ps : List (Word × Nat)) (i : Nat), i < k → (∀ p ∈ ps, p.2 < 2 ^ 32) →
    natOfBytes (((resultBytes k ps).drop (8 * i)).take 8) = match ps[i]? with
      | some p => p.2 * 2 ^ 32 + p.1.toNat
      | none => 0xFFFFFFFF7F800000)

/-! ## Live page migration (R332-R345) -/

/-- R333-R345: the steps of a migration. A query of a die fills its owner cache and notes the package; a relayed request
leaves a REDIRECT, and a REDIRECT renews an older entry once no request through the older home is outstanding, or fills a
missing one; a copy unit copies its 64 bytes, and a write of a unit that is copied goes to both frames; the switch makes
the target the home with the next EPOCH, once no request to either frame is outstanding, and leaves both frames' bytes;
invalidation empties the owner caches; acknowledgements, this package's once its owner caches are empty and no request to the
older home is outstanding, free the stub once nothing that it relayed is incomplete. The set of an owner-cache entry is the
model's `Config.ownerSet` (log 36), that a relay and its REDIRECT are one step its reading (log 40), and that a page keeps one
name while its frame changes its own way to hold the bytes (log 58). -/
def Obligations.PageMigration : Prop :=
  (∀ (die gpn : Nat) (s : State), die < 24 → gpnPkg gpn = s.pkg → gpnOk s gpn = true →
    (∀ o ∈ s.owners, ¬ (o.die = die ∧ o.gpn = gpn)) →
    let a := dirEntry s gpn + 128 + s.pkg / 8
    let mine := s.owners.filter (fun o => o.die == die && Config.ownerSet o.gpn % 1024 == Config.ownerSet gpn % 1024)
    dualTarget s (a / 8) = none →
    ∃ t, exec (.directoryQuery die gpn) s = .next t ∧
      t.owners = ⟨die, gpn, dirHome (dirBits s gpn), dirEpoch (dirBits s gpn)⟩ ::
        (match mine[7]? with
         | some o => s.owners.erase o
         | none => s.owners) ∧
      (memGet t.mem a).getLsbD (s.pkg % 8) = true ∧ ∀ b, b ≠ a → memGet t.mem b = memGet s.mem b) ∧
  (∀ (die gpn : Nat) (o : Owner) (s : State), gpnPkg gpn = s.pkg → gpnOk s gpn = true →
    s.owners.find? (fun o => o.die == die && o.gpn == gpn) = some o → o.home ≠ dirHome (dirBits s gpn) →
    ∃ t, exec (.relay die gpn) s = .next t ∧ o ∈ t.owners ∧ (∀ x ∈ t.owners, x ∈ s.owners) ∧
      (⟨die, gpn, dirHome (dirBits s gpn), dirEpoch (dirBits s gpn)⟩ : RedirectMsg) ∈ t.redirects) ∧
  (∀ (n : Nat) (r : RedirectMsg) (s : State), s.redirects[n]? = some r →
    (ownerOf s r.die r.gpn = none →
      (olderOut s r.gpn r.home = true → exec (.redirect n) s = .next s) ∧
      (olderOut s r.gpn r.home = false → ∃ t, exec (.redirect n) s = .next t ∧ t.redirects = s.redirects.eraseIdx n ∧
        ownerOf t r.die r.gpn = some ⟨r.die, r.gpn, r.home, r.epoch⟩)) ∧
    (∀ o, ownerOf s r.die r.gpn = some o →
      let d := (r.epoch + 256 - o.epoch % 256) % 256
      (d = 0 ∨ 127 < d → exec (.redirect n) s = .next { s with redirects := s.redirects.eraseIdx n }) ∧
      (1 ≤ d → d ≤ 127 → homeBusy s o.home = true → exec (.redirect n) s = .next s) ∧
      (1 ≤ d → d ≤ 127 → homeBusy s o.home = false → ∃ t, exec (.redirect n) s = .next t ∧
        t.redirects = s.redirects.eraseIdx n ∧
        ownerOf t r.die r.gpn = some { o with home := r.home, epoch := r.epoch }))) ∧
  (∀ (gpn : Nat) (m : Migration) (s : State), Migrates s gpn m → m.copied.length < 64 →
    (m.copied = [] → dirNstub (dirBits s gpn) < 2) →
    let n := m.copied.length
    ∃ t, exec (.copyUnit gpn) s = .next t ∧ t.migrations = [{ m with copied := m.copied ++ [n] }] ∧
      (∀ i, i < 64 → memGet t.mem (dpaLocal m.target + 64 * n + i) = memGet s.mem (dpaLocal m.src + 64 * n + i)) ∧
      ∀ b, ¬ (dpaLocal m.target + 64 * n ≤ b ∧ b < dpaLocal m.target + 64 * n + 64) → memGet t.mem b = memGet s.mem b) ∧
  (∀ (gpn i : Nat) (m : Migration) (mask v : Dword) (s : State), Migrates s gpn m → i < 512 → i / 8 ∈ m.copied →
    let t := performUnit s (migLoc gpn (8 * i) / 8) mask v
    let at_ (d : Nat) : Nat := dpaLocal d / 8 + i
    unitOf t (at_ m.src) = blend (unitOf s (at_ m.src)) mask v ∧
    unitOf t (at_ m.target) = blend (unitOf s (at_ m.target)) mask v) ∧
  (∀ (gpn : Nat) (m : Migration) (s : State), Migrates s gpn m → m.copied.length = 64 → stubRoom s m = true →
    copySettled s m = true →
    let e := dirBits s gpn
    ∃ t, exec (.switch gpn) s = .next t ∧ t.migrations = [] ∧
      (let e' := dirBits t gpn
       dirHome e' = dirTarget e ∧ dirEpoch e' = (dirEpoch e + 1) % 256 ∧ dirState e' = 1 ∧ dirPins e' = dirPins e ∧
       ((∀ x ∈ s.stubs, x.gpn ≠ gpn) → sharersOf s gpn ≠ [] → dirNstub e < 3 →
         dirNstub e' = dirNstub e + 1 ∧ dirOld0 e' = dirHome e)) ∧
      (∀ b f, b < 4096 → f = m.src ∨ f = m.target → memGet t.mem (dpaLocal f + b) = memGet s.mem (dpaLocal f + b)) ∧
      (homeDpa (dirTarget e) = m.target → ∀ b, b < 4096 → backing t (migLoc gpn b) = dpaLocal m.target + b)) ∧
  (∀ (gpn : Nat) (s : State),
    gpnPkg gpn ≠ s.pkg ∨ (∃ x ∈ s.stubs, x.gpn = gpn ∧ s.pkg ∈ x.waiting ∧ x.dropped = false) →
    ∃ t, exec (.invalidation gpn s.pkg) s = .next t ∧ (∀ o ∈ t.owners, o.gpn ≠ gpn) ∧
      (∀ o ∈ s.owners, o.gpn ≠ gpn → o ∈ t.owners) ∧ t.mem = s.mem ∧
      ∀ x, s.stubs = [x] → x.gpn = gpn → s.pkg ∈ x.waiting → t.stubs = [{ x with dropped := true }]) ∧
  (∀ (gpn pkg : Nat) (x : Stub) (s : State), s.stubs = [x] → x.gpn = gpn → pkg ∈ x.waiting →
    ((pkg = s.pkg → homeBusy s x.old = false ∧ x.dropped = true) →
      ∃ t, exec (.acknowledge gpn pkg) s = .next t ∧
        t.stubs = if x.waiting.filter (fun p => p != pkg) = [] ∧ x.relay = 0 then []
          else [{ x with waiting := x.waiting.filter (fun p => p != pkg) }]) ∧
    (pkg = s.pkg → homeBusy s x.old = true ∨ x.dropped = false → exec (.acknowledge gpn pkg) s = .next s))

namespace Sys2Proof.Claims

open Sys2Proof.Machine

/-- A store that a group posted to another package. -/
structure PostedStore (s : State) (id : Nat) (r : RemReq) : Prop where
  found : remoteReq s id = some r
  store : r.op.isStore = true
  sent : r.state = .sent
  group : r.grp < s.groups.length ∧ r.grp < 2 ^ 40
  lives : (s.group r.grp).run ≠ .ended

/-- A module that works, in which no page of the directory moves and no old frame is left. -/
structure Still (s : State) : Prop where
  lives : stopped s = false
  fixed : s.stubs = [] ∧ s.migrations = []

/-- R427, R428: an inbound request that its windows let pass, to memory of this package: a page of the directory that stands
there stands apart from its directory entry. -/
structure Inbounds (s : State) (src addr n : Nat) (r w a : Bool) : Prop where
  still : Still s
  nonempty : 0 < n
  line : addr % 128 + n ≤ 128
  address : addr < 2 ^ 46
  passes : inboundReason s src addr n r w a = none
  apart : ∀ n, pageAt s addr = some n → dirEntry s n / 4096 ≠ addr / 4096

/-- R432: a flit of a multicast under way, in its place. -/
structure Flit (s : State) (c : Chain) (dst : Nat) (data : List Byte) : Prop where
  still : Still s
  known : s.chains.find? (fun x => x.src == c.src && x.id == c.id) = some c
  nonempty : 0 < data.length
  page : (dst + c.got) % 4096 + data.length ≤ 4096
  range : c.got + data.length ≤ c.len ∧ dst + c.len ≤ 2 ^ 46
  memory : ∀ b, dst + c.got ≤ b → b < dst + c.got + data.length → isMemory s.variant b = true
  apart : ∀ n, pageAt s (dst + c.got) = some n → dirEntry s n / 4096 ≠ (dst + c.got) / 4096

/-- R225: the atomics of a line packet, one after the other, on a memory. -/
def atomicsOver (t : Ty) (op addr : Nat) : List (Nat × Dword × Dword) → Memory → Memory
  | [], m => m
  | p :: ps, m => atomicsOver t op addr ps
    (match atomNew t op (memRead m (addr + p.1) (t.bits / 8)) (p.2.1.toNat % 2 ^ t.bits) (p.2.2.toNat % 2 ^ t.bits) with
    | some x => memWrite m (addr + p.1) (t.bits / 8) x
    | none => m)

/-- Memory reads as before but for a run of bytes. -/
def Overwrites (m m' : Memory) (addr : Nat) (bs : List Byte) : Prop :=
  ∀ b, memGet m' b = if addr ≤ b ∧ b < addr + bs.length then bs.getD (b - addr) 0 else memGet m b

/-- R302, R298: a place of this package that a group of another one holds. -/
structure FarHeld (s : State) (src who : Nat) (h : Dword) : Prop where
  lives : stopped s = false
  held : heldBy s h.toNat (farHolder src who) = true

/-- R410: the group as a launch starts it. -/
structure StartsAs (l : Launch) (li team gid : Nat) (g : Group) : Prop where
  identity : g.launch = li ∧ g.team = team ∧ g.gid = gid ∧ g.run = .resident
  strand : g.st.spc = l.sentry ∧ g.st.fmt = l.fmt ∧ g.st.axis = l.axis
  args : ∀ k, k < 8 → g.st.get (BitVec.ofNat 6 (k + 1)) = ((l.args[k]?.getD 0).setWidth 64)
  others : ∀ q : BitVec 6, q = 0 ∨ 9 ≤ q.toNat → g.st.get q = 0
  special : g.fpmode = l.fpmode ∧ g.fpflags = 0 ∧ g.trapvec = 0 ∧ g.traprec = 0 ∧ g.inh = false ∧ g.blocks = []

/-- Each byte of a range is memory that a host store reaches (R443, R446). -/
def HostReaches (s : State) (addr n : Nat) : Prop :=
  ∀ b, addr ≤ b → b < addr + n → regWindow b = false ∧ isMemory s.variant b = true ∧
    (hbmBacked b = true → regionLive s = true) ∧ (hostWindow b = false → stopped s = false)

/-- A step may not take from a passed access what it needs (R51, log 64): what becomes of a step's result. -/
def withLate (s : State) (r : Result) : Result :=
  if s.late = [] then r
  else match r with
    | .next t => .next (keepLate s t)
    | x => x

end Sys2Proof.Claims

/-! ## Queues, fabric, residency (R121-R145, R259-R266, R397-R400, R423-R433) -/

/-- R398, R400, R330, R414: a tail write that advances TAIL by 1 to 2^31 − 1 sets it, counts SENT of a WORK queue's domain and
wakes as many sleepers, and faults the queue with 0x02 where more entries are outstanding than the ring holds; any other is
ignored. Writing RUN clears the fault, drops the ring entries that were fetched ahead and wakes the sleepers. The driver's HEAD
is kept. Memory is left alone where the entry cache needs to write no other block back (R397). -/
def Obligations.QueueEvents : Prop :=
  ∀ (s : State), regionLive s = true →
    (∀ (q : Nat) (t : Word), q < 2 ^ 20 →
      let i := qcbImage s q
      let d := (t.toNat + 2 ^ 32 - qcbTail i) % 2 ^ 32
      (d = 0 ∨ 2 ^ 31 ≤ d → exec (.tailWrite q t) s = .next s) ∧
      (1 ≤ d → d < 2 ^ 31 → (t.toNat + 2 ^ 32 - qcbHead i) % 2 ^ 32 ≤ qcbN i →
        ∃ u, exec (.tailWrite q t) s = .next u ∧ qcbTail (qcbImage u q) = t.toNat ∧ qcbHead (qcbImage u q) = qcbHead i ∧
          qcbState (qcbImage u q) = qcbState i ∧
          (BlockRoom s q → u.mem = s.mem ∧ (isWork q i = true →
            mapGet 0 u.sent (queueDom s q) = mapGet 0 s.sent (queueDom s q) + BitVec.ofNat 32 d ∧
            ∀ g ∈ ((sleepersOf s q).filter (asleep s q)).take d, g < s.groups.length → (u.group g).wait = .wpop q true))) ∧
      (1 ≤ d → d < 2 ^ 31 → qcbN i < (t.toNat + 2 ^ 32 - qcbHead i) % 2 ^ 32 →
        ∃ u, exec (.tailWrite q t) s = .next u ∧ qcbTail (qcbImage u q) = t.toNat ∧ qcbState (qcbImage u q) = 2 ∧
          bits (qcbImage u q) 255 248 = 0x02)) ∧
    (∀ q, q < 2 ^ 20 → ∃ u, exec (.qcbStateRun q) s = .next u ∧ qcbState (qcbImage u q) = 1 ∧
      bits (qcbImage u q) 255 248 = 0 ∧ bits (qcbImage u q) 319 256 = 0 ∧
      qcbHead (qcbImage u q) = qcbHead (qcbImage s q) ∧ qcbTail (qcbImage u q) = qcbTail (qcbImage s q) ∧
      (∀ p ∈ (u.queue q).ahead, 2 ^ 64 ≤ p.1) ∧ (u.queue q).waiting = false ∧ (u.queue q).parked = false ∧
      (BlockRoom s q → u.mem = s.mem ∧ (isWork q (qcbImage s q) = true → ∀ g ∈ sleepersOf s q, g < s.groups.length →
        asleep s q g = true → (u.group g).wait = .wpop q true))) ∧
    (∀ (vf : Nat) (h : Dword), vf < 64 → (∀ x ∈ s.held, x.vf ≠ vf) →
      ∃ u, exec (.faultQueueHead vf h) s = .next u ∧ fqHead u vf = h.toNat % 2048 ∧ fqTail u vf = fqTail s vf ∧
        u.mem = s.mem)

/-- R423-R433: requests of other packages that the windows let pass are performed, and the others leave a record or are
counted: reads, writes of bytes and of bits, marks, atomics and line packets of them (R225, R245), monitors with their waiter
(R293, R294), place steps (R300, R301), pins and probes (R226, R322), a migration (R336), stubs and REDIRECTs (R340, R341), and the
flits of a multicast, none of which is written once its range has failed the check (R432). What comes back to an issuer settles
its request: a response gives its data, a NACK or a time-out fails it, and of a group's posted store it leaves a deferred fault.
A plane that fails holds its requests until its map entries are renamed and PLSTAT shows it unusable; with no plane left they
time out. The model's own choices here: the form of an answer (log 42), the die whose owner cache takes a directory's answer
(log 36), the bytes of a page with a far frame at its home slice (log 58), place steps without a window (log 73) and the
clock of a held request (log 49). -/
def Obligations.FabricEvents : Prop :=
  (∀ (s : State) (src : BitVec 10) (addr : Nat),
    let sr := src.toNat
    let loc := (inboundLoc s addr).2
    (∀ n, Inbounds s sr addr n true false false →
      exec (.inboundRequest ⟨src, addr, .read n⟩) s = .next s) ∧
    (∀ bs : List Byte, Inbounds s sr addr bs.length false true false →
      (∃ t, exec (.inboundRequest ⟨src, addr, .write bs⟩) s = .next t ∧ Overwrites s.mem t.mem addr bs) ∧
      (∀ ms : List Byte, ms.length = bs.length → ∃ t, exec (.inboundRequest ⟨src, addr, .masked bs ms⟩) s = .next t ∧
        ∀ b, memGet t.mem b = if addr ≤ b ∧ b < addr + bs.length
          then (memGet s.mem b &&& ~~~ (ms.getD (b - addr) 0)) ||| (bs.getD (b - addr) 0 &&& ms.getD (b - addr) 0)
          else memGet s.mem b) ∧
      (∀ id, (∀ c ∈ s.chains, ¬ (c.src = sr ∧ c.id = id)) →
        ∃ t, exec (.mcastFlit src ⟨id, addr, bs.length, 0⟩ bs) s = .next t ∧ Overwrites s.mem t.mem addr bs)) ∧
    (addr % 8 = 0 → Inbounds s sr addr 8 false true false →
      ∃ t, exec (.inboundRequest ⟨src, addr, .mark⟩) s = .next t ∧ addr / 8 ∈ t.poison ∧ t.mem = s.mem) ∧
    (∀ (ty : BitVec 5) (op : BitVec 4) (t : Ty), Ty.ofCode ty.toNat = some t →
      t ∈ [Ty.i32, .i64, .n32, .n64, .b32, .f32] → op.toNat ≤ 7 →
      (∀ v e : Dword, addr % (t.bits / 8) = 0 → poisoned s addr = false → Inbounds s sr addr (t.bits / 8) false false true →
        ∃ u, exec (.inboundRequest ⟨src, addr, .atomic ty op v e⟩) s = .next u ∧
          match atomNew t op.toNat (memRead s.mem addr (t.bits / 8)) (v.toNat % 2 ^ t.bits) (e.toNat % 2 ^ t.bits) with
          | some x => Stores s.mem u.mem addr (t.bits / 8) (BitVec.ofNat 64 x)
          | none => ∀ b, memGet u.mem b = memGet s.mem b) ∧
      (∀ ps, addr % 128 = 0 → Inbounds s sr addr 128 false false true → (∀ i, i < 128 → poisoned s (addr + i) = false) →
        (∀ p ∈ ps, p.1 % (t.bits / 8) = 0 ∧ p.1 < 128) → probeOf s sr addr ∉ s.probes →
        ∃ u, exec (.inboundRequest ⟨src, addr, .lineAtomic ty op ps⟩) s = .next u ∧
          ∀ b, memGet u.mem b = memGet (atomicsOver t op.toNat addr ps s.mem) b)) ∧
    (∀ (cmp : Nat) (dw : Bool) (v : Dword) (sc asid ltag team gid : Nat), cmp ≤ 5 → addr % (if dw then 8 else 4) = 0 →
      Inbounds s sr addr (if dw then 8 else 4) true false false → poisoned s loc = false →
      let m : Monitor := ⟨sliceOf loc (locPage s loc), .remote sr, cmp, dw, sc, asid, ltag, team, gid, loc, allOnes64, v⟩
      (compares cmp dw (BitVec.ofNat 64 (memAt s loc (if dw then 8 else 4))) v = true →
        exec (.inboundRequest ⟨src, addr, .monitor cmp dw v sc asid ltag team gid⟩) s = .next s) ∧
      (compares cmp dw (BitVec.ofNat 64 (memAt s loc (if dw then 8 else 4))) v = false →
        (s.monitors.filter (fun x => x.slice == m.slice)).length < 4096 →
        exec (.inboundRequest ⟨src, addr, .monitor cmp dw v sc asid ltag team gid⟩) s =
          .next { s with monitors := s.monitors ++ [m] })) ∧
    (stopped s = false → addr < 2 ^ 46 → (∀ i, i < 256 → windowSrc (windowHi s i) sr = false) →
      (∀ n, 0 < n → addr % 128 + n ≤ 128 → ∃ t, exec (.inboundRequest ⟨src, addr, .read n⟩) s = .next t ∧ t.mem = s.mem ∧
        regGet t 0x3F0000500018 = regGet s 0x3F0000500018 + 1) ∧
      (∀ id len data, (∀ c ∈ s.chains, ¬ (c.src = sr ∧ c.id = id)) → 0 < data.length → addr % 4096 + data.length ≤ 4096 →
        data.length < len → addr + len ≤ 2 ^ 46 → ∃ t, exec (.mcastFlit src ⟨id, addr, len, 0⟩ data) s = .next t ∧ t.mem = s.mem ∧
        regGet t 0x3F0000500018 = regGet s 0x3F0000500018 + 1 ∧ ⟨sr, id, len, data.length, false⟩ ∈ t.chains)) ∧
    (∀ (c : Chain) (data : List Byte), c.src = sr → Flit s c addr data →
      ∃ t, exec (.mcastFlit src ⟨c.id, addr, c.len, c.got⟩ data) s = .next t ∧
        (c.ok = true → Overwrites s.mem t.mem (addr + c.got) data) ∧ (c.ok = false → t.mem = s.mem) ∧
        (c.got + data.length < c.len → { c with got := c.got + data.length } ∈ t.chains) ∧
        (c.got + data.length = c.len → ∀ x ∈ t.chains, ¬ (x.src = sr ∧ x.id = c.id))) ∧
    (let p := probeOf s sr addr
     Still s → inboundAddr s addr = true → inboundReason s sr (inboundLoc s addr).1 1 true true true = none →
      ((p.mig = false ∨ (gpnPkg p.page = s.pkg ∧ gpnOk s p.page = true ∧ gpnMoving s p.page = false)) → keyRoom s p.die [(p.page, p.mig)] = true →
        ∃ t, exec (.translationProbe src addr) s = .next t ∧ t.probes = s.probes ++ [p] ∧
          (p.mig = false → t.mem = s.mem) ∧
          (p.mig = true → dirPins (dirBits t p.page) = (dirPins (dirBits s p.page) + 1) % 2 ^ 16)) ∧
      ((p.mig = true ∧ gpnMoving s p.page = true) ∨ keyRoom s p.die [(p.page, p.mig)] = false →
        exec (.translationProbe src addr) s = .next s) ∧
      (p ∈ s.probes → ∃ t, exec (.inboundRequest ⟨src, addr, .unprobe⟩) s = .next t ∧ t.probes = s.probes.erase p))) ∧
  (∀ (s : State) (src : BitVec 10) (addr sc who to_ : Nat) (h second : Dword),
    let step (op : Nat) : Result := exec (.inboundRequest ⟨src, addr, .place op sc who to_ h second⟩) s
    let sl := handleSlice h.toNat
    let i := handleIdx h.toNat
    let r := s.place sl i
    (stopped s = false → heldBy s h.toNat (farHolder src.toNat who) = false → ∀ op, op ∈ [1, 2, 3, 4] → step op = .next s) ∧
    (FarHeld s src.toNat who h →
      (r.st = 0 → ∃ t, step 1 = .next t ∧ t.place sl i = { r with waiting := true, want := some sc }) ∧
      (r.st ≠ 0 → ∃ t, step 1 = .next t ∧ t.place sl i = { r with scope := sc, waiting := false, want := none }) ∧
      (r.st = 0 → (∃ t, step 2 = .next t ∧ t.place sl i = { r with holder := some (farHolder src.toNat to_) }) ∧
        ∃ t, step 4 = .next t ∧ t.place sl i = { r with st := 2, holder := none, waiting := false, want := none }) ∧
      (r.st = 1 → step 2 = .next s ∧ step 4 = .next s ∧ step 12 = .next (releasePlace s sl i) ∧
        ∃ t, step 10 = .next t ∧ t.place sl i = { r with holder := some (farHolder src.toNat to_) }) ∧
      step 3 = .next (swapAt s sl i second.toNat).2) ∧
    (stopped s = false → step 6 = .next (dropHeld s (farHolder src.toNat who))) ∧
    (addr % 128 = 0 → Inbounds s src.toNat addr 128 true true false →
      let loc := (inboundLoc s addr).2
      step 0 = .next (acquireAt s (sliceOf loc (locPage s loc)) (loc / 128) (farHolder src.toNat who) sc).2)) ∧
  (∀ (s : State) (src : BitVec 10) (addr gpn : Nat), stopped s = false →
    (s.migrations = [] → gpnPkg gpn = s.pkg → gpnOk s gpn = true →
      (∀ up, (up = true → gpnMoving s gpn = false) → ∃ t, exec (.inboundRequest ⟨src, addr, .pin gpn up⟩) s = .next t ∧
        dirPins (dirBits t gpn) = (if up then (dirPins (dirBits s gpn) + 1) % 2 ^ 16 else dirPins (dirBits s gpn) - 1)) ∧
      (gpnMoving s gpn = true → exec (.inboundRequest ⟨src, addr, .pin gpn true⟩) s = .next s)) ∧
    (∀ target, exec (.inboundRequest ⟨src, addr, .migrate gpn target⟩) s = .next
      (if gpnPkg gpn = s.pkg ∧ gpnOk s gpn = true ∧ frameOk s target = true then (migrateStep s gpn target).2 else s)) ∧
    (∀ old home epoch ps, gpnPkg gpn = src.toNat → src.toNat ≠ s.pkg → bits old 38 29 = s.pkg → epoch < 256 → home < 2 ^ 39 →
      s.stubs = [] → exec (.inboundRequest ⟨src, addr, .stub gpn old home epoch ps⟩) s =
        .next { s with stubs := if ps = [] then [] else [⟨gpn, old, home, epoch, ps, 0, false⟩] }) ∧
    (∀ die home epoch, gpnPkg gpn ≠ s.pkg → die < 24 → epoch < 256 → home < 2 ^ 39 →
      exec (.inboundRequest ⟨src, addr, .redirect die gpn home epoch⟩) s =
        .next { s with redirects := s.redirects ++ [⟨die, gpn, home, epoch⟩] })) ∧
  (∀ (s : State) (id : Nat) (r : RemReq),
    (PostedStore s id r →
      (∀ reason, 1 ≤ reason → reason ≤ 3 → ∃ t x, exec (.nack id reason) s = .next t ∧ (∀ q ∈ t.remote, q.id ≠ id) ∧
        (t.group r.grp).deferred = (s.group r.grp).deferred ++ [x] ∧ x.code = 0x0B ∧ x.addr = r.va) ∧
      (∃ t x, exec (.remoteTimeout id) s = .next t ∧ (∀ q ∈ t.remote, q.id ≠ id) ∧
        (t.group r.grp).deferred = (s.group r.grp).deferred ++ [x] ∧ x.code = 0x0A ∧ x.addr = r.va) ∧
      (∃ t, exec (.storeAcknowledgement id) s = .next t ∧ (∀ q ∈ t.remote, q.id ≠ id) ∧ t.groups = s.groups)) ∧
    (remoteReq s id = some r → r.op.isStore = false → r.state = .sent → r.grp ≠ endGroupId → r.grp < relayGroup →
      (∀ reason, 1 ≤ reason → reason ≤ 3 → ∃ t, exec (.nack id reason) s = .next t ∧
        if r.op.pinned = true then t = s else remoteReq t id = some { r with state := .nacked reason }) ∧
      (∃ t, exec (.remoteTimeout id) s = .next t ∧ remoteReq t id = some { r with state := .timedOut }) ∧
      (∀ data bad, answerLen r.op ≤ data.length → (∀ gpn, r.op ≠ .directory gpn) → (∀ loc, r.op ≠ .line loc) →
        ∃ t, exec (.remoteResponse id data bad) s = .next t ∧ remoteReq t id = some { r with state := .answered data bad }) ∧
      (∀ data bad gpn, r.op = .directory gpn → 6 ≤ data.length →
        let home := natOfBytes (data.take 5) % 2 ^ 39
        ∃ t, exec (.remoteResponse id data bad) s = .next t ∧ (∀ q ∈ t.remote, q.id ≠ id) ∧
          (bad ≠ 0 → (r.grp, gpn) ∈ t.badGpns ∧ t.owners = s.owners) ∧
          (bad = 0 → ownerOf s (ownerDie s r) gpn = none → olderOut (dropReq s id) gpn home = false →
            ⟨ownerDie s r, gpn, home, natOfBytes ((data.drop 5).take 1)⟩ ∈ t.owners) ∧
          (bad = 0 → olderOut (dropReq s id) gpn home = true → t.owners = s.owners)) ∧
      (∀ data bad loc, r.op = .line loc → 128 ≤ data.length → loc % 128 = 0 → migBase ≤ loc →
        farHome s (migPage loc) = true → loc / 128 ∉ s.migLines →
        ∃ t, exec (.remoteResponse id data bad) s = .next t ∧ (∀ q ∈ t.remote, q.id ≠ id) ∧ loc / 128 ∈ t.migLines ∧
          Overwrites s.mem t.mem loc (data.take 128))) ∧
    (∀ old ob cmp dw v data bad, remoteReq s id = some r → r.state = .answered old ob → r.op = .monitor cmp dw v →
      r.grp < s.groups.length → r.grp < endGroupId → answerHead old = 3 → data ≠ [] → answerHead data = 1 →
      ∃ t, exec (.remoteResponse id data bad) s = .next t ∧ remoteReq t id = some { r with state := .answered data bad } ∧
        t.group r.grp = wakeMonitor (s.group r.grp))) ∧
  (∀ (s : State) (p t : BitVec 3), stopped s = false →
    (planeUsable s p.toNat = true → p.toNat ∉ s.draining →
      exec (.planeFailure p) s = .next { s with draining := p.toNat :: s.draining }) ∧
    (p.toNat ∈ s.draining → planeUsable s p.toNat = true → t ≠ p → planeUsable s t.toNat = true →
      (t.toNat ∉ s.draining ∨ ∀ k, k < 8 → k ≠ p.toNat → planeUsable s k = true → k ∈ s.draining) →
      ∃ u, exec (.planeRemap p t) s = .next u ∧ planeUsable u p.toNat = false ∧
        (∀ k, k < 8 → k ≠ p.toNat → planeUsable u k = planeUsable s k) ∧
        bits (plStat u) 15 8 = (bits (plStat s) 15 8 + 1) % 2 ^ 8 ∧ p.toNat ∉ u.draining ∧
        (∀ k, k < 8 → let m := (regGet s planeMapAddr).toNat
          bits (regGet u planeMapAddr).toNat (4 * k + 2) (4 * k) =
            if bits m (4 * k + 2) (4 * k) = p.toNat then t.toNat else bits m (4 * k + 2) (4 * k)) ∧
        ∀ r ∈ u.remote, r.state = .held → planeOf u r.grp r.addr ∈ u.draining) ∧
    (p.toNat ∈ s.draining → planeUsable s p.toNat = true → (∀ k, k < 8 → k ≠ p.toNat → planeUsable s k = false) →
      ∃ u, exec (.planeRemap p t) s = .next u ∧ (∀ k, k < 8 → planeUsable u k = false) ∧ u.remote = s.remote ∧
        ∀ id r, remoteReq u id = some r → r.state = .held → r.op.isStore = false →
          ∃ v, exec (.remoteTimeout id) u = .next v ∧ remoteReq v id = some { r with state := .timedOut }))

/-- R142-R144, R259-R262, R410: the first waiter that fits becomes resident: a team's groups start as its launch says. A
group whose quantum has passed may be taken; a forced save begins, and its completion leaves the group away in the state
that its save asked for. A side-buffer push that waits for room leaves once there is some. -/
def Obligations.ResidencyAndSaves : Prop :=
  (∀ (die core : Nat) (s : State) (w : Waiting) (ws : List Waiting), die < 24 → stage s = 6 → s.claims = [] →
    waitingSave s die = none →
    waiters s die = w :: ws → w.grp = none → framesFor s w = true →
    (placesFor s w die).find? (fun c => fitsAt s [] w c []) = some core →
    let l := s.launch w.launch
    ∃ t, exec (.residency die) s = .next t ∧ t.groups.length = s.groups.length + l.teamSize ∧
      (t.launch w.launch).started = l.started ++ [w.team] ∧
      ∀ k, k < l.teamSize → StartsAs l w.launch w.team k (t.group (s.groups.length + k))) ∧
  (∀ (g : Nat) (s : State), g < s.groups.length →
    ((s.group g).run = .resident → exec (.quantumExpiry g) s = .next (s.setGroup g { s.group g with quantum := true })) ∧
    ((s.group g).run = .resident → (s.group g).saveReq ≠ none → inFlight s g = false →
      ∃ t, exec (.pretmoExpiry g) s = .next t ∧ (t.group g).run = .saving ∧ (t.group g).saveReq = none ∧
        (t.group g).save = some ⟨2, true, 0, 0, true, none, []⟩) ∧
    (∀ job, (s.group g).run = .saving → (s.group g).save = some job → pubReady s g 5 = true →
      ∃ t, exec (.saveCompletion g) s = .next t ∧ (t.group g).run = .away ∧ (t.group g).state = job.st ∧
        (t.group g).save = none) ∧
    (∀ e, (s.group g).run = .resident → (s.group g).side = [e] → e.behind = 0 → e.isPush = true →
      (s.group g).pushRoom e.q 1 = true → (s.group g).vqinOn e.q = false →
      ∃ t, exec (.sideBufferRelease g) s = .next t ∧ (t.group g).side = [] ∧
        mapGet [] (t.group g).pushq e.q = mapGet [] (s.group g).pushq e.q ++ [e.data] ∧ t.mem = s.mem))

/-! ## Bring-up and management (R443-R452) -/

/-- R446-R449: power-up and RST leave STAGE 0 with CAPS 0, nothing but what the host holds in memory; link training gives
STAGE 1, GO and the ROM the stages after it or STAGE 0xFF with the failure; CAPS appear at STAGE 5 and FEGO starts the
front end. RADDR starts a report at STAGE 6 and is refused at every other stage. The model's own choices here: memory that reads 0
(log 2, log 50), one step for each stage of the ROM (log 50), a refusal also at STAGE 0xFF (log 51), and how the identity key
follows from the PUF (log 74). -/
def Obligations.BringUp : Prop :=
  ∀ (s : State),
    (∀ i, i = Instr.powerUp ∨ i = Instr.rst → ∃ t, exec i s = .next t ∧ stage t = 0 ∧ t.caps = 0 ∧ t.groups = [] ∧
      t.cmds = [] ∧ t.launches = [] ∧ t.pkg = s.pkg ∧ t.variant = s.variant ∧
      ∀ a, memGet t.mem a = if hostWindow a then memGet s.mem a else 0) ∧
    (stage s = 0 → ∃ t, exec .linkTrained s = .next t ∧ stage t = 1 ∧ t.mem = s.mem) ∧
    (stage s ≠ 0 → exec .linkTrained s = .next s) ∧
    (stage s = 1 → ∃ t, exec .go s = .next t ∧ stage t = 2 ∧ regGet t ctlAddr = 1) ∧
    (stage s = 2 → ∀ ds, verifyAll s = .ok ds → ∃ t, exec .go s = .next t ∧ stage t = 3 ∧ t.digests = ds ∧
      regGet t ctlAddr = 0) ∧
    (stage s = 2 → ∀ e, verifyAll s = .error e → ∃ t, exec .go s = .next t ∧ stage t = 0xFF ∧
      bits (regGet t stageAddr).toNat 15 8 = e % 2 ^ 8) ∧
    (stage s = 3 → (∀ d, d < 24 → activeMap (Config.selfTest s.tick d) ≠ none) → ∃ t, exec .go s = .next t ∧
      stage t = 4 ∧ t.barriers = [] ∧ t.monitors = [] ∧ t.places = [] ∧ t.tiles = []) ∧
    (stage s = 3 → (∃ d, d < 24 ∧ activeMap (Config.selfTest s.tick d) = none) → ∃ t, exec .go s = .next t ∧
      stage t = 0xFF ∧ bits (regGet t stageAddr).toNat 15 8 = 4) ∧
    (stage s = 4 → ∀ key, Config.puf s.tick = some key → ∃ t, exec .go s = .next t ∧ stage t = 5 ∧
      t.caps = capsOf s.variant ∧ t.clock = 0 ∧ t.identKey = key % (sm2N - 2) + 1 ∧
      ∀ i, i < 8 → (regGet t (mgmtBase + 0x2000 + 8 * i)).toNat =
        natOfBytes (((sm2Public t.identKey).drop (8 * i)).take 8)) ∧
    (stage s = 4 → Config.puf s.tick = none → ∃ t, exec .go s = .next t ∧ stage t = 0xFF ∧
      bits (regGet t stageAddr).toNat 15 8 = 5) ∧
    (stage s = 5 → ∃ t, exec .fego s = .next t ∧ stage t = 6) ∧ (stage s ≠ 5 → exec .fego s = .next s) ∧
    (∀ v, astat s ≠ 1 → stage s = 6 → ∃ t, exec (.raddr v) s = .next t ∧ astat t = 1 ∧ t.mem = s.mem) ∧
    (∀ v, astat s ≠ 1 → stage s ≠ 6 → ∃ t, exec (.raddr v) s = .next t ∧ astat t = 3 ∧ t.mem = s.mem) ∧
    (∀ v, astat s = 1 → exec (.raddr v) s = .next s) ∧
    (∀ r, s.report = some r → ∃ t, exec .reportDone s = .next t ∧ astat t = 2 ∧ t.report = none)

/-- R8, R370, R443-R452: a register write changes the bits that software may write and no others; PLIMIT clamps,
reservations past their limits are ignored, KILLCTX ends the groups and commands of a bound ASID, a resume answers in
HRSTAT, host stores reach memory byte by byte and HBM only from STAGE 5 on, throttling is counted, soft errors mark
units and fire monitors, a scrub is counted, and a window's end releases the captured rows of its stack. A module whose boot has
failed does none of the last, and takes no store but to the host window (R446). The model's own choices here: host stores to the
second tier before STAGE 5 (log 52), registers that the specification does not assign (log 21), and the rows that a window's
end releases (log 54). -/
def Obligations.HostAndManagement : Prop :=
  (∀ (addr : Nat) (v : Dword) (s : State),
    let a := addr / 8 * 8
    (regWindow a = true → regionLive s = true ∨ isMgmt a = true → inQcbWindow a = false → commOf a = none →
      dirIgnored a v s = false → ∃ t, exec (.registerWrite addr v) s = .next t ∧
        regGet t a = blend (regGet s a) (regMask s a) v ∧ (∀ b, b / 8 ≠ a / 8 → regGet t b = regGet s b) ∧
        t.mem = s.mem) ∧
    (regWindow a = false ∨ (regionLive s = false ∧ isMgmt a = false) → exec (.registerWrite addr v) s = .next s)) ∧
  (∀ (v : Dword) (s : State), ∃ t, exec (.plimit v) s = .next t ∧ t.mem = s.mem ∧
    (regGet t (mgmtBase + 0x5000)).toNat = min 7500 (max 1000 (v.toNat % 2 ^ 16))) ∧
  (∀ (n : Nat) (v : Dword) (s : State),
    (regionLive s = true → n < 1152 → v.toNat ≤ 8 →
      (coreLoad s n []).store - coreRsv s n + v.toNat * 2 ^ 16 ≤ 2 ^ 20 →
      ∃ t, exec (.corersv n v) s = .next t ∧ coreRsv t n = v.toNat * 2 ^ 16 ∧ t.mem = s.mem) ∧
    (1152 ≤ n ∨ 8 < v.toNat → exec (.corersv n v) s = .next s) ∧
    (regionLive s = true → n < 576 → v.toNat ≤ 512 →
      ∃ t, exec (.slicersv n v) s = .next t ∧ regGet t (sliceRsvAddr + 8 * n) = v ∧ t.mem = s.mem) ∧
    (576 ≤ n ∨ 512 < v.toNat → exec (.slicersv n v) s = .next s)) ∧
  (∀ (v : Dword) (s : State), let asid := v.toNat % 2 ^ 16
    regionLive s = true → asidBound s asid = true → ∃ t, exec (.killctx v) s = .next t ∧
      (∀ g, g < s.groups.length → (s.launchOf (s.group g)).asid = asid → (t.group g).run = .ended) ∧
      ∀ c ∈ t.cmds, (s.launchOf (s.group c.grp)).asid ≠ asid) ∧
  (∀ (v : Dword) (s : State), let hr (t : State) : Nat := (regGet t (mgmtBase + 0x6010)).toNat
    (identGroup s = none → ∃ t, exec (.hostResume v) s = .next t ∧ hr t = 3 ∧ t.groups = s.groups) ∧
    (∀ g, identGroup s = some g →
      let ok := (s.group g).run = .away ∧ (s.group g).eligible = false ∧
        ((s.group g).state = 3 ∨ (s.group g).state = 4) ∧ headerAccepted s (s.group g) = true
      (ok → ∃ t, exec (.hostResume v) s = .next t ∧ hr t = 1 ∧ (t.group g).eligible = true) ∧
      (¬ ok → ∃ t, exec (.hostResume v) s = .next t ∧ hr t = 2 ∧ t.groups = s.groups))) ∧
  (∀ (addr : Nat) (data : List Byte) (s : State),
    (HostReaches s addr data.length → s.migrations = [] → ∃ t, exec (.hostStore addr data) s = .next t ∧
      ∀ b, memGet t.mem b = if addr ≤ b ∧ b < addr + data.length then data.getD (b - addr) 0 else memGet s.mem b) ∧
    ((∀ b, addr ≤ b → b < addr + data.length → regWindow b = false ∧ hbmBacked b = true) → regionLive s = false →
      exec (.hostStore addr data) s = .next s) ∧
    ((∀ b, addr ≤ b → b < addr + data.length → regWindow b = false ∧ hostWindow b = false) → stopped s = true →
      exec (.hostStore addr data) s = .next s)) ∧
  (∀ (on : Bool) (n : Dword) (s : State),
    (stopped s = false → ∃ t, exec (.throttle on n) s = .next t ∧
      regGet t (mgmtBase + 0x5010) = regGet s (mgmtBase + 0x5010) + n) ∧
    (stopped s = true → exec (.throttle on n) s = .next s)) ∧
  (∀ (a : Nat) (s : State), onPart s (dpaLocal a) = true →
    (∃ t, exec (.softError (.memory a)) s = .next t ∧ dpaLocal a / 8 ∈ t.poison ∧ t.mem = s.mem) ∧
    (stopped s = false → ∃ t, exec (.scrub a) s = .next t ∧ dpaLocal a / 8 ∈ t.poison ∧ t.mem = s.mem ∧
      regGet t (mgmtBase + 0x5020) = regGet s (mgmtBase + 0x5020) + 1 ∧ t.ueNotes = s.ueNotes + 1) ∧
    (stopped s = true → exec (.scrub a) s = .next s)) ∧
  (∀ (a : Nat) (s : State), exec (.softError (.cacheLine a false)) s = .next s ∧
    ((dpaLocal a / 128, true) ∈ s.cacheLines → ∃ t, exec (.softError (.cacheLine a true)) s = .next t ∧
      (∀ i, i < 16 → dpaLocal a / 128 * 16 + i ∈ t.poison) ∧ t.mem = s.mem)) ∧
  (∀ (d k : Nat) (s : State), ∃ t, exec (.softError (.monitors d k)) s = .next t ∧
    (∀ m ∈ t.monitors, m.slice ≠ 24 * d + k) ∧ ∀ m ∈ s.monitors, m.slice ≠ 24 * d + k → m ∈ t.monitors) ∧
  (∀ (stack : Nat) (s : State),
    (stopped s = false → ∃ t, exec (.windowEnd stack) s = .next t ∧ (∀ p ∈ t.captured, p.1 ≠ stack) ∧
      (∀ p ∈ t.rowHits, p.1 / 2 ^ 40 ≠ stack) ∧ (∀ p ∈ s.captured, p.1 ≠ stack → p ∈ t.captured) ∧ t.mem = s.mem) ∧
    (stopped s = true → exec (.windowEnd stack) s = .next s))

/-! ## The whole machine -/

/-- What right after reset is as the specification says (R3, R371, R424, R445, R446): CAPS 0 and STAGE 0, HRTH of each stack
8,192, PLANEMAP, PLSTAT, FTMO and PLIMIT at their values, TEMP and PWR 0, and no group, launch, command or valid barrier. -/
def Obligations.ResetState : Prop :=
  let s := State.reset
  s.caps = 0 ∧ stage s = 0 ∧ (∀ n, n < 24 → regGet s (0x3F0000200030 + 0x100 * n) = 8192) ∧
  regGet s 0x3F0000500000 = 0x76543210 ∧ regGet s 0x3F0000500008 = 0xFF ∧ regGet s 0x3F0000500010 = 2000 ∧
  regGet s 0x3F0000605000 = 7500 ∧ regGet s 0x3F0000605008 = 0 ∧ s.groups = [] ∧ s.launches = [] ∧ s.cmds = [] ∧ s.barriers = [] ∧ s.places = [] ∧
  s.monitors = [] ∧ s.mem.wf = true

/-- The invariant of `StepKeepsInvariant` holds after reset. -/
def Obligations.InvariantAtReset : Prop := Inv State.reset

/-- R3, R27, R36: every step keeps memory in its canonical form, CAPS at 0 or at the part's value, and the stamps of older
values, of their publication and of stores that wait no later than now. -/
def Obligations.StepKeepsInvariant : Prop := ∀ (s t : State), Inv s → step s = .next t → Inv t

/-- R86, R90, R136-R140, R146, R402: a step runs what the moving agent has fetched: the instruction at SPC of a strand, that
of the fragment that a pipe selects, the packet or request whose entry a lane of the front end holds, in the step in which its
kind stands first, a command's words at an endpoint, or an event. A lane that lacks the entry fetches it. A strand word that is
no instruction traps with ILLEGAL_INSN. An access that the group has passed is performed in a step of its own, and before a step
after which it could not be (R51, log 64). -/
def Obligations.StepRunsDecoded : Prop :=
  ∀ (s : State) (as : List Agent), let s0 := beginStep s
    (∀ (g w x : Nat), s.agenda = .strand g :: as → g < s0.groups.length → (s0.group g).run = .resident →
      let s1 := onStrand s0 g
      let s2 := noteFetch s1 s1.spc needXS
      strandWords s1 = .ok (w, x) →
      (∀ i, decodeScalar w x = some i → strandHeld s2 i w = false → step s = withLate s (exec i s2)) ∧
      (decodeScalar w x = none → step s = withLate s (.next (trapCode s2 0x01)))) ∧
    (∀ (core k g f w : Nat) (u : State) (i : Instr), s.agenda = .pipe core k :: as →
      choose s0 (4 * core + k % 4) = (some (g, f), u) →
      let s1 := onFrag u g f
      s1.frag.pc.toNat < (s1.launchOf s1.grp).lcount → fetchLane s1 s1.frag.pc.toNat = .ok w → decodeLane w = some i →
      step s = withLate s (exec i (noteFetch s1 (laneAddr s1 s1.frag.pc.toNat) needXL))) ∧
    (∀ (q : Nat) (e : Entry), s.agenda = .front q :: as →
      let s1 := settleLanes (onQueue s0 q)
      let s2 := takeTurn s1 q
      let kind := qcbKind (qcbImage s2 q)
      (∃ l ∈ s1.lanes, l.queue = q) →
      (∀ p, missing s1 q = some p → fetchPlace s1 q p = .entry e →
        step s = withLate s (.next (keepEntry (dropRemote (dropRemote s1 0) 1) q p e))) ∧
      (missing s1 q = none → (entryPlace s1 q 0).bind (heldEntry s1 q) = some e → (s1.queue q).skip = 0 →
        (q ∉ stepQueues s1 → step s = withLate s (.next { s1 with laneStep := stepQueues s1 })) ∧
        (q ∈ stepQueues s1 → ∀ i,
          (kind = 3 → decodeRequest e = some i → step s = withLate s (exec i s2)) ∧
          (kind ≠ 3 → packetType e ≠ 0x09 → decodePacket e default = some i → step s = withLate s (exec i s2)) ∧
          (∀ f, kind ≠ 3 → packetType e = 0x09 → fetchEntry s2 q 1 = .entry f → decodePacket e f = some i →
            step s = withLate s (exec i s2))))) ∧
    (∀ (g q n : Nat) (w : Dword) (i : Instr), s.agenda = .engine g q :: as → g < s0.groups.length →
      let s1 : State := { s0 with cur := { s0.cur with grp := g, qreg := q } }
      let ws := mapGet [] s1.grp.pushq q
      s1.grp.run = .resident → kindOf s1.grp q ≠ 0 → acceptsMore s1 g q = true → ws.head? = some w →
      cmdOpc w ∈ engineOps (kindOf s1.grp q) → cmdLength (cmdOpc w) = some n → n ≤ ws.length →
      decodeCommand (ws.take n) = some i → step s = withLate s (exec i s1)) ∧
    (∀ i, s.agenda = .event i :: as → isEvent i = true → step s = withLate s (exec i s0)) ∧
    (∀ n x, s.agenda = .land n :: as → s0.late[n]? = some x → step s = withLate s (.next (land s0 x)))
end

