-- ==== Sys2Proof/Laws/Maps.lean ====
section
/-! SUPPORT. The laws of sparse maps and of memory: a read after a write, what a write leaves alone, and that every
operation keeps the canonical form. -/

namespace Sys2Proof.Machine

variable {α : Type} (d v : α) (m : SMap α) (k j : Nat)

/-! ### Reading after writing -/

@[simp] theorem mapGet_nil : mapGet d [] k = d := rfl

theorem mapGet_mapErase_same : mapGet d (mapErase m k) k = d := by
  induction m with
  | nil => rfl
  | cons p m ih =>
    obtain ⟨i, w⟩ := p
    by_cases h : k = i <;> simp [mapErase, mapGet, h, ih] at ih ⊢
    exact h ▸ ih

theorem mapGet_mapErase_other (h : j ≠ k) : mapGet d (mapErase m k) j = mapGet d m j := by
  induction m with
  | nil => rfl
  | cons p m ih =>
    obtain ⟨i, w⟩ := p
    by_cases hk : k = i
    · subst hk; simp [mapErase, mapGet, h, ih]
    · simp [mapErase, mapGet, hk, ih]

theorem mapGet_mapInsert_same (he : ∀ p ∈ m, p.1 ≠ k) :
    mapGet d (mapInsert m k v) k = v := by
  induction m with
  | nil => simp [mapInsert, mapGet]
  | cons p m ih =>
    obtain ⟨i, w⟩ := p
    have hi : k ≠ i := fun e => he (i, w) (by simp) e.symm
    by_cases hlt : k < i
    · simp [mapInsert, mapGet, hlt]
    · simp [mapInsert, mapGet, hlt, hi, ih (fun q hq => he q (by simp [hq]))]

theorem mapErase_keys : ∀ p ∈ mapErase m k, p.1 ≠ k := by
  induction m with
  | nil => simp [mapErase]
  | cons p m ih =>
    obtain ⟨i, w⟩ := p
    by_cases hk : k = i
    · subst hk; simpa [mapErase] using ih
    · intro q hq
      simp only [mapErase, hk, if_false, List.mem_cons] at hq
      rcases hq with rfl | hq
      · exact fun e => hk e.symm
      · exact ih q hq

theorem mapGet_mapInsert_other (h : j ≠ k) : mapGet d (mapInsert m k v) j = mapGet d m j := by
  induction m with
  | nil => simp [mapInsert, mapGet, h]
  | cons p m ih =>
    obtain ⟨i, w⟩ := p
    by_cases hlt : k < i <;> simp [mapInsert, mapGet, hlt, h, ih]

/-- A key reads what was last written to it. -/
@[simp] theorem mapGet_mapSet_same [DecidableEq α] : mapGet d (mapSet d m k v) k = v := by
  unfold mapSet
  split
  · next h => rw [mapGet_mapErase_same, h]
  · exact mapGet_mapInsert_same d v _ k (mapErase_keys m k)

/-- A write to another key changes nothing. -/
@[simp] theorem mapGet_mapSet_other [DecidableEq α] (h : j ≠ k) : mapGet d (mapSet d m k v) j = mapGet d m j := by
  unfold mapSet
  split
  · exact mapGet_mapErase_other d m k j h
  · rw [mapGet_mapInsert_other _ _ _ _ _ h, mapGet_mapErase_other _ _ _ _ h]

/-! ### The canonical form -/

theorem mapWf_weaken [DecidableEq α] {lo hi : Nat} (h : mapWf d hi m = true) (hle : lo ≤ hi) : mapWf d lo m = true := by
  cases m with
  | nil => rfl
  | cons p m =>
    obtain ⟨i, w⟩ := p
    simp only [mapWf, Bool.and_eq_true, decide_eq_true_eq] at h ⊢
    exact ⟨⟨by omega, h.1.2⟩, h.2⟩

theorem mapWf_mapErase [DecidableEq α] {lo : Nat} (h : mapWf d lo m = true) : mapWf d lo (mapErase m k) = true := by
  induction m generalizing lo with
  | nil => rfl
  | cons p m ih =>
    obtain ⟨i, w⟩ := p
    simp only [mapWf, Bool.and_eq_true, decide_eq_true_eq] at h
    by_cases hk : k = i
    · subst hk; simpa [mapErase] using ih (mapWf_weaken d m h.2 (by omega))
    · simp only [mapErase, hk, if_false, mapWf, Bool.and_eq_true, decide_eq_true_eq]
      exact ⟨h.1, ih h.2⟩

theorem mapWf_mapInsert [DecidableEq α] {lo : Nat} (h : mapWf d lo m = true) (hlo : lo ≤ k) (hv : v ≠ d)
    (he : ∀ p ∈ m, p.1 ≠ k) : mapWf d lo (mapInsert m k v) = true := by
  induction m generalizing lo with
  | nil => simp [mapInsert, mapWf, hlo, hv]
  | cons p m ih =>
    obtain ⟨i, w⟩ := p
    simp only [mapWf, Bool.and_eq_true, decide_eq_true_eq] at h
    by_cases hlt : k < i
    · simp only [mapInsert, hlt, if_true, mapWf, Bool.and_eq_true, decide_eq_true_eq]
      exact ⟨⟨hlo, by simpa using hv⟩, ⟨by omega, h.1.2⟩, h.2⟩
    · have hne : i ≠ k := he (i, w) (by simp)
      simp only [mapInsert, hlt, if_false, mapWf, Bool.and_eq_true, decide_eq_true_eq]
      exact ⟨h.1, ih h.2 (by omega) (fun q hq => he q (by simp [hq]))⟩

/-- Every write keeps the canonical form. -/
theorem mapWf_mapSet [DecidableEq α] (h : mapWf d 0 m = true) : mapWf d 0 (mapSet d m k v) = true := by
  unfold mapSet
  split
  · exact mapWf_mapErase d m k h
  · next hv => exact mapWf_mapInsert d v _ k (mapWf_mapErase d m k h) (Nat.zero_le k) hv (mapErase_keys m k)

/-! ### Memory -/

@[simp] theorem memGet_memSet_same (m : Memory) (a : Nat) (v : Byte) : memGet (memSet m a v) a = v :=
  mapGet_mapSet_same 0 v m a

@[simp] theorem memGet_memSet_other (m : Memory) (a b : Nat) (v : Byte) (h : b ≠ a) :
    memGet (memSet m a v) b = memGet m b :=
  mapGet_mapSet_other 0 v m a b h

theorem memSet_wf (m : Memory) (a : Nat) (v : Byte) (h : m.wf = true) : Memory.wf (memSet m a v) = true :=
  mapWf_mapSet 0 v m a h

theorem memWrite_wf (n : Nat) : ∀ (m : Memory) (a v : Nat), m.wf = true → Memory.wf (memWrite m a n v) = true := by
  induction n with
  | zero => exact fun _ _ _ h => h
  | succ n ih => exact fun m a v h => ih _ _ _ (memSet_wf m a _ h)

/-- A write leaves every byte outside its range alone. -/
theorem memGet_memWrite_outside (n : Nat) : ∀ (m : Memory) (a v b : Nat), b < a ∨ a + n ≤ b →
    memGet (memWrite m a n v) b = memGet m b := by
  induction n with
  | zero => exact fun _ _ _ _ _ => rfl
  | succ n ih =>
    intro m a v b h
    rw [memWrite, ih _ _ _ _ (by omega), memGet_memSet_other _ _ _ _ (by omega)]

/-- A read returns what was written there. -/
theorem memRead_memWrite_same (n : Nat) : ∀ (m : Memory) (a v : Nat),
    memRead (memWrite m a n v) a n = v % 256 ^ n := by
  induction n with
  | zero => intro m a v; simp [memRead, Nat.mod_one]
  | succ n ih =>
    intro m a v
    rw [memWrite, memRead, memGet_memWrite_outside n _ (a + 1) _ a (by omega), memGet_memSet_same, ih]
    have h := Nat.mod_mul (a := 256) (b := 256 ^ n) (x := v)
    rw [pow_succ, mul_comm (256 ^ n) 256, h]
    simp

/-- A read outside the range of a write sees what was there. -/
theorem memRead_memWrite_outside (k : Nat) : ∀ (m : Memory) (a b n v : Nat), b + k ≤ a ∨ a + n ≤ b →
    memRead (memWrite m a n v) b k = memRead m b k := by
  induction k with
  | zero => exact fun _ _ _ _ _ _ => rfl
  | succ k ih =>
    intro m a b n v h
    rw [memRead, memRead, memGet_memWrite_outside n _ _ _ _ (by omega), ih _ _ _ _ _ (by omega)]

theorem memRead_lt (n : Nat) : ∀ (m : Memory) (a : Nat), memRead m a n < 256 ^ n := by
  induction n with
  | zero => intro m a; simp [memRead]
  | succ n ih =>
    intro m a
    have h1 := (memGet m a).isLt
    have h2 := ih m (a + 1)
    rw [memRead, pow_succ]
    omega

theorem listSet_length (xs : List α) (i : Nat) (x : α) : (listSet xs i x).length = xs.length := by
  induction xs generalizing i with
  | nil => rfl
  | cons y ys ih => cases i <;> simp [listSet, ih]

@[simp] theorem listSet_get_same (xs : List α) (i : Nat) (x : α) (h : i < xs.length) :
    (listSet xs i x)[i]? = some x := by
  induction xs generalizing i with
  | nil => simp at h
  | cons y ys ih => cases i with
    | zero => rfl
    | succ i => simpa [listSet] using ih i (by simpa using h)

@[simp] theorem listSet_get_other (xs : List α) (i j : Nat) (x : α) (h : j ≠ i) :
    (listSet xs i x)[j]? = xs[j]? := by
  induction xs generalizing i j with
  | nil => rfl
  | cons y ys ih => cases i with
    | zero => cases j with
      | zero => exact absurd rfl h
      | succ j => rfl
    | succ i => cases j with
      | zero => rfl
      | succ j => simpa [listSet] using ih i j (by omega)

theorem listSet_self (xs : List α) (i : Nat) (x : α) (h : xs[i]? = some x) : listSet xs i x = xs := by
  induction xs generalizing i with
  | nil => rfl
  | cons y ys ih => cases i with
    | zero => simp at h; simp [listSet, h]
    | succ i => simp [listSet, ih i (by simpa using h)]

@[simp] theorem listSet_twice (xs : List α) (i : Nat) (x y : α) : listSet (listSet xs i x) i y = listSet xs i y := by
  induction xs generalizing i with
  | nil => rfl
  | cons z zs ih => cases i <;> simp [listSet, ih]

end Sys2Proof.Machine
end

