-- ==== Sys2Proof/Laws/State.lean ====
section
/-! SUPPORT. One lemma for each field of State under each update, true by rfl; then what the changed field reads as. -/

namespace Sys2Proof.Machine

/-! ### s.setGroup g x changes only `groups` -/

@[simp] theorem State.setGroup_tick (s : State) (g : Nat) (x : Group) : (s.setGroup g x).tick = s.tick := rfl
@[simp] theorem State.setGroup_agenda (s : State) (g : Nat) (x : Group) : (s.setGroup g x).agenda = s.agenda := rfl
@[simp] theorem State.setGroup_cur (s : State) (g : Nat) (x : Group) : (s.setGroup g x).cur = s.cur := rfl
@[simp] theorem State.setGroup_clock (s : State) (g : Nat) (x : Group) : (s.setGroup g x).clock = s.clock := rfl
@[simp] theorem State.setGroup_caps (s : State) (g : Nat) (x : Group) : (s.setGroup g x).caps = s.caps := rfl
@[simp] theorem State.setGroup_pkg (s : State) (g : Nat) (x : Group) : (s.setGroup g x).pkg = s.pkg := rfl
@[simp] theorem State.setGroup_variant (s : State) (g : Nat) (x : Group) : (s.setGroup g x).variant = s.variant := rfl
@[simp] theorem State.setGroup_mem (s : State) (g : Nat) (x : Group) : (s.setGroup g x).mem = s.mem := rfl
@[simp] theorem State.setGroup_ord (s : State) (g : Nat) (x : Group) : (s.setGroup g x).ord = s.ord := rfl
@[simp] theorem State.setGroup_hist (s : State) (g : Nat) (x : Group) : (s.setGroup g x).hist = s.hist := rfl
@[simp] theorem State.setGroup_poison (s : State) (g : Nat) (x : Group) : (s.setGroup g x).poison = s.poison := rfl
@[simp] theorem State.setGroup_dirty (s : State) (g : Nat) (x : Group) : (s.setGroup g x).dirty = s.dirty := rfl
@[simp] theorem State.setGroup_cpLines (s : State) (g : Nat) (x : Group) : (s.setGroup g x).cpLines = s.cpLines := rfl
@[simp] theorem State.setGroup_regs (s : State) (g : Nat) (x : Group) : (s.setGroup g x).regs = s.regs := rfl
@[simp] theorem State.setGroup_tlb (s : State) (g : Nat) (x : Group) : (s.setGroup g x).tlb = s.tlb := rfl
@[simp] theorem State.setGroup_walks (s : State) (g : Nat) (x : Group) : (s.setGroup g x).walks = s.walks := rfl
@[simp] theorem State.setGroup_late (s : State) (g : Nat) (x : Group) : (s.setGroup g x).late = s.late := rfl
@[simp] theorem State.setGroup_teams (s : State) (g : Nat) (x : Group) : (s.setGroup g x).teams = s.teams := rfl
@[simp] theorem State.setGroup_launches (s : State) (g : Nat) (x : Group) : (s.setGroup g x).launches = s.launches := rfl
@[simp] theorem State.setGroup_pipes (s : State) (g : Nat) (x : Group) : (s.setGroup g x).pipes = s.pipes := rfl
@[simp] theorem State.setGroup_barriers (s : State) (g : Nat) (x : Group) : (s.setGroup g x).barriers = s.barriers := rfl
@[simp] theorem State.setGroup_monitors (s : State) (g : Nat) (x : Group) : (s.setGroup g x).monitors = s.monitors := rfl
@[simp] theorem State.setGroup_places (s : State) (g : Nat) (x : Group) : (s.setGroup g x).places = s.places := rfl
@[simp] theorem State.setGroup_tiles (s : State) (g : Nat) (x : Group) : (s.setGroup g x).tiles = s.tiles := rfl
@[simp] theorem State.setGroup_tileTags (s : State) (g : Nat) (x : Group) : (s.setGroup g x).tileTags = s.tileTags := rfl
@[simp] theorem State.setGroup_tileOuts (s : State) (g : Nat) (x : Group) : (s.setGroup g x).tileOuts = s.tileOuts := rfl
@[simp] theorem State.setGroup_mops (s : State) (g : Nat) (x : Group) : (s.setGroup g x).mops = s.mops := rfl
@[simp] theorem State.setGroup_rendezvous (s : State) (g : Nat) (x : Group) : (s.setGroup g x).rendezvous = s.rendezvous := rfl
@[simp] theorem State.setGroup_cmds (s : State) (g : Nat) (x : Group) : (s.setGroup g x).cmds = s.cmds := rfl
@[simp] theorem State.setGroup_searches (s : State) (g : Nat) (x : Group) : (s.setGroup g x).searches = s.searches := rfl
@[simp] theorem State.setGroup_migrations (s : State) (g : Nat) (x : Group) : (s.setGroup g x).migrations = s.migrations := rfl
@[simp] theorem State.setGroup_owners (s : State) (g : Nat) (x : Group) : (s.setGroup g x).owners = s.owners := rfl
@[simp] theorem State.setGroup_badGpns (s : State) (g : Nat) (x : Group) : (s.setGroup g x).badGpns = s.badGpns := rfl
@[simp] theorem State.setGroup_migLines (s : State) (g : Nat) (x : Group) : (s.setGroup g x).migLines = s.migLines := rfl
@[simp] theorem State.setGroup_stubs (s : State) (g : Nat) (x : Group) : (s.setGroup g x).stubs = s.stubs := rfl
@[simp] theorem State.setGroup_redirects (s : State) (g : Nat) (x : Group) : (s.setGroup g x).redirects = s.redirects := rfl
@[simp] theorem State.setGroup_remote (s : State) (g : Nat) (x : Group) : (s.setGroup g x).remote = s.remote := rfl
@[simp] theorem State.setGroup_mcasts (s : State) (g : Nat) (x : Group) : (s.setGroup g x).mcasts = s.mcasts := rfl
@[simp] theorem State.setGroup_colls (s : State) (g : Nat) (x : Group) : (s.setGroup g x).colls = s.colls := rfl
@[simp] theorem State.setGroup_chunks (s : State) (g : Nat) (x : Group) : (s.setGroup g x).chunks = s.chunks := rfl
@[simp] theorem State.setGroup_arbiters (s : State) (g : Nat) (x : Group) : (s.setGroup g x).arbiters = s.arbiters := rfl
@[simp] theorem State.setGroup_chains (s : State) (g : Nat) (x : Group) : (s.setGroup g x).chains = s.chains := rfl
@[simp] theorem State.setGroup_probes (s : State) (g : Nat) (x : Group) : (s.setGroup g x).probes = s.probes := rfl
@[simp] theorem State.setGroup_draining (s : State) (g : Nat) (x : Group) : (s.setGroup g x).draining = s.draining := rfl
@[simp] theorem State.setGroup_qcache (s : State) (g : Nat) (x : Group) : (s.setGroup g x).qcache = s.qcache := rfl
@[simp] theorem State.setGroup_queues (s : State) (g : Nat) (x : Group) : (s.setGroup g x).queues = s.queues := rfl
@[simp] theorem State.setGroup_lanes (s : State) (g : Nat) (x : Group) : (s.setGroup g x).lanes = s.lanes := rfl
@[simp] theorem State.setGroup_laneStep (s : State) (g : Nat) (x : Group) : (s.setGroup g x).laneStep = s.laneStep := rfl
@[simp] theorem State.setGroup_laneNext (s : State) (g : Nat) (x : Group) : (s.setGroup g x).laneNext = s.laneNext := rfl
@[simp] theorem State.setGroup_sleepers (s : State) (g : Nat) (x : Group) : (s.setGroup g x).sleepers = s.sleepers := rfl
@[simp] theorem State.setGroup_sent (s : State) (g : Nat) (x : Group) : (s.setGroup g x).sent = s.sent := rfl
@[simp] theorem State.setGroup_recv (s : State) (g : Nat) (x : Group) : (s.setGroup g x).recv = s.recv := rfl
@[simp] theorem State.setGroup_pendInv (s : State) (g : Nat) (x : Group) : (s.setGroup g x).pendInv = s.pendInv := rfl
@[simp] theorem State.setGroup_pendAttr (s : State) (g : Nat) (x : Group) : (s.setGroup g x).pendAttr = s.pendAttr := rfl
@[simp] theorem State.setGroup_mixes (s : State) (g : Nat) (x : Group) : (s.setGroup g x).mixes = s.mixes := rfl
@[simp] theorem State.setGroup_seq (s : State) (g : Nat) (x : Group) : (s.setGroup g x).seq = s.seq := rfl
@[simp] theorem State.setGroup_held (s : State) (g : Nat) (x : Group) : (s.setGroup g x).held = s.held := rfl
@[simp] theorem State.setGroup_notes (s : State) (g : Nat) (x : Group) : (s.setGroup g x).notes = s.notes := rfl
@[simp] theorem State.setGroup_rowHits (s : State) (g : Nat) (x : Group) : (s.setGroup g x).rowHits = s.rowHits := rfl
@[simp] theorem State.setGroup_captured (s : State) (g : Nat) (x : Group) : (s.setGroup g x).captured = s.captured := rfl
@[simp] theorem State.setGroup_cacheLines (s : State) (g : Nat) (x : Group) : (s.setGroup g x).cacheLines = s.cacheLines := rfl
@[simp] theorem State.setGroup_baseOps (s : State) (g : Nat) (x : Group) : (s.setGroup g x).baseOps = s.baseOps := rfl
@[simp] theorem State.setGroup_writeQueue (s : State) (g : Nat) (x : Group) : (s.setGroup g x).writeQueue = s.writeQueue := rfl
@[simp] theorem State.setGroup_identKey (s : State) (g : Nat) (x : Group) : (s.setGroup g x).identKey = s.identKey := rfl
@[simp] theorem State.setGroup_digests (s : State) (g : Nat) (x : Group) : (s.setGroup g x).digests = s.digests := rfl
@[simp] theorem State.setGroup_report (s : State) (g : Nat) (x : Group) : (s.setGroup g x).report = s.report := rfl
@[simp] theorem State.setGroup_ueNotes (s : State) (g : Nat) (x : Group) : (s.setGroup g x).ueNotes = s.ueNotes := rfl
@[simp] theorem State.setGroup_claims (s : State) (g : Nat) (x : Group) : (s.setGroup g x).claims = s.claims := rfl
@[simp] theorem State.setGroup_nextId (s : State) (g : Nat) (x : Group) : (s.setGroup g x).nextId = s.nextId := rfl

/-! ### s.setGrp x changes only `groups` -/

@[simp] theorem State.setGrp_tick (s : State) (x : Group) : (s.setGrp x).tick = s.tick := rfl
@[simp] theorem State.setGrp_agenda (s : State) (x : Group) : (s.setGrp x).agenda = s.agenda := rfl
@[simp] theorem State.setGrp_cur (s : State) (x : Group) : (s.setGrp x).cur = s.cur := rfl
@[simp] theorem State.setGrp_clock (s : State) (x : Group) : (s.setGrp x).clock = s.clock := rfl
@[simp] theorem State.setGrp_caps (s : State) (x : Group) : (s.setGrp x).caps = s.caps := rfl
@[simp] theorem State.setGrp_pkg (s : State) (x : Group) : (s.setGrp x).pkg = s.pkg := rfl
@[simp] theorem State.setGrp_variant (s : State) (x : Group) : (s.setGrp x).variant = s.variant := rfl
@[simp] theorem State.setGrp_mem (s : State) (x : Group) : (s.setGrp x).mem = s.mem := rfl
@[simp] theorem State.setGrp_ord (s : State) (x : Group) : (s.setGrp x).ord = s.ord := rfl
@[simp] theorem State.setGrp_hist (s : State) (x : Group) : (s.setGrp x).hist = s.hist := rfl
@[simp] theorem State.setGrp_poison (s : State) (x : Group) : (s.setGrp x).poison = s.poison := rfl
@[simp] theorem State.setGrp_dirty (s : State) (x : Group) : (s.setGrp x).dirty = s.dirty := rfl
@[simp] theorem State.setGrp_cpLines (s : State) (x : Group) : (s.setGrp x).cpLines = s.cpLines := rfl
@[simp] theorem State.setGrp_regs (s : State) (x : Group) : (s.setGrp x).regs = s.regs := rfl
@[simp] theorem State.setGrp_tlb (s : State) (x : Group) : (s.setGrp x).tlb = s.tlb := rfl
@[simp] theorem State.setGrp_walks (s : State) (x : Group) : (s.setGrp x).walks = s.walks := rfl
@[simp] theorem State.setGrp_late (s : State) (x : Group) : (s.setGrp x).late = s.late := rfl
@[simp] theorem State.setGrp_teams (s : State) (x : Group) : (s.setGrp x).teams = s.teams := rfl
@[simp] theorem State.setGrp_launches (s : State) (x : Group) : (s.setGrp x).launches = s.launches := rfl
@[simp] theorem State.setGrp_pipes (s : State) (x : Group) : (s.setGrp x).pipes = s.pipes := rfl
@[simp] theorem State.setGrp_barriers (s : State) (x : Group) : (s.setGrp x).barriers = s.barriers := rfl
@[simp] theorem State.setGrp_monitors (s : State) (x : Group) : (s.setGrp x).monitors = s.monitors := rfl
@[simp] theorem State.setGrp_places (s : State) (x : Group) : (s.setGrp x).places = s.places := rfl
@[simp] theorem State.setGrp_tiles (s : State) (x : Group) : (s.setGrp x).tiles = s.tiles := rfl
@[simp] theorem State.setGrp_tileTags (s : State) (x : Group) : (s.setGrp x).tileTags = s.tileTags := rfl
@[simp] theorem State.setGrp_tileOuts (s : State) (x : Group) : (s.setGrp x).tileOuts = s.tileOuts := rfl
@[simp] theorem State.setGrp_mops (s : State) (x : Group) : (s.setGrp x).mops = s.mops := rfl
@[simp] theorem State.setGrp_rendezvous (s : State) (x : Group) : (s.setGrp x).rendezvous = s.rendezvous := rfl
@[simp] theorem State.setGrp_cmds (s : State) (x : Group) : (s.setGrp x).cmds = s.cmds := rfl
@[simp] theorem State.setGrp_searches (s : State) (x : Group) : (s.setGrp x).searches = s.searches := rfl
@[simp] theorem State.setGrp_migrations (s : State) (x : Group) : (s.setGrp x).migrations = s.migrations := rfl
@[simp] theorem State.setGrp_owners (s : State) (x : Group) : (s.setGrp x).owners = s.owners := rfl
@[simp] theorem State.setGrp_badGpns (s : State) (x : Group) : (s.setGrp x).badGpns = s.badGpns := rfl
@[simp] theorem State.setGrp_migLines (s : State) (x : Group) : (s.setGrp x).migLines = s.migLines := rfl
@[simp] theorem State.setGrp_stubs (s : State) (x : Group) : (s.setGrp x).stubs = s.stubs := rfl
@[simp] theorem State.setGrp_redirects (s : State) (x : Group) : (s.setGrp x).redirects = s.redirects := rfl
@[simp] theorem State.setGrp_remote (s : State) (x : Group) : (s.setGrp x).remote = s.remote := rfl
@[simp] theorem State.setGrp_mcasts (s : State) (x : Group) : (s.setGrp x).mcasts = s.mcasts := rfl
@[simp] theorem State.setGrp_colls (s : State) (x : Group) : (s.setGrp x).colls = s.colls := rfl
@[simp] theorem State.setGrp_chunks (s : State) (x : Group) : (s.setGrp x).chunks = s.chunks := rfl
@[simp] theorem State.setGrp_arbiters (s : State) (x : Group) : (s.setGrp x).arbiters = s.arbiters := rfl
@[simp] theorem State.setGrp_chains (s : State) (x : Group) : (s.setGrp x).chains = s.chains := rfl
@[simp] theorem State.setGrp_probes (s : State) (x : Group) : (s.setGrp x).probes = s.probes := rfl
@[simp] theorem State.setGrp_draining (s : State) (x : Group) : (s.setGrp x).draining = s.draining := rfl
@[simp] theorem State.setGrp_qcache (s : State) (x : Group) : (s.setGrp x).qcache = s.qcache := rfl
@[simp] theorem State.setGrp_queues (s : State) (x : Group) : (s.setGrp x).queues = s.queues := rfl
@[simp] theorem State.setGrp_lanes (s : State) (x : Group) : (s.setGrp x).lanes = s.lanes := rfl
@[simp] theorem State.setGrp_laneStep (s : State) (x : Group) : (s.setGrp x).laneStep = s.laneStep := rfl
@[simp] theorem State.setGrp_laneNext (s : State) (x : Group) : (s.setGrp x).laneNext = s.laneNext := rfl
@[simp] theorem State.setGrp_sleepers (s : State) (x : Group) : (s.setGrp x).sleepers = s.sleepers := rfl
@[simp] theorem State.setGrp_sent (s : State) (x : Group) : (s.setGrp x).sent = s.sent := rfl
@[simp] theorem State.setGrp_recv (s : State) (x : Group) : (s.setGrp x).recv = s.recv := rfl
@[simp] theorem State.setGrp_pendInv (s : State) (x : Group) : (s.setGrp x).pendInv = s.pendInv := rfl
@[simp] theorem State.setGrp_pendAttr (s : State) (x : Group) : (s.setGrp x).pendAttr = s.pendAttr := rfl
@[simp] theorem State.setGrp_mixes (s : State) (x : Group) : (s.setGrp x).mixes = s.mixes := rfl
@[simp] theorem State.setGrp_seq (s : State) (x : Group) : (s.setGrp x).seq = s.seq := rfl
@[simp] theorem State.setGrp_held (s : State) (x : Group) : (s.setGrp x).held = s.held := rfl
@[simp] theorem State.setGrp_notes (s : State) (x : Group) : (s.setGrp x).notes = s.notes := rfl
@[simp] theorem State.setGrp_rowHits (s : State) (x : Group) : (s.setGrp x).rowHits = s.rowHits := rfl
@[simp] theorem State.setGrp_captured (s : State) (x : Group) : (s.setGrp x).captured = s.captured := rfl
@[simp] theorem State.setGrp_cacheLines (s : State) (x : Group) : (s.setGrp x).cacheLines = s.cacheLines := rfl
@[simp] theorem State.setGrp_baseOps (s : State) (x : Group) : (s.setGrp x).baseOps = s.baseOps := rfl
@[simp] theorem State.setGrp_writeQueue (s : State) (x : Group) : (s.setGrp x).writeQueue = s.writeQueue := rfl
@[simp] theorem State.setGrp_identKey (s : State) (x : Group) : (s.setGrp x).identKey = s.identKey := rfl
@[simp] theorem State.setGrp_digests (s : State) (x : Group) : (s.setGrp x).digests = s.digests := rfl
@[simp] theorem State.setGrp_report (s : State) (x : Group) : (s.setGrp x).report = s.report := rfl
@[simp] theorem State.setGrp_ueNotes (s : State) (x : Group) : (s.setGrp x).ueNotes = s.ueNotes := rfl
@[simp] theorem State.setGrp_claims (s : State) (x : Group) : (s.setGrp x).claims = s.claims := rfl
@[simp] theorem State.setGrp_nextId (s : State) (x : Group) : (s.setGrp x).nextId = s.nextId := rfl

/-! ### s.setReg r v changes only `groups` -/

@[simp] theorem State.setReg_tick (s : State) (r : BitVec 6) (v : Dword) : (s.setReg r v).tick = s.tick := rfl
@[simp] theorem State.setReg_agenda (s : State) (r : BitVec 6) (v : Dword) : (s.setReg r v).agenda = s.agenda := rfl
@[simp] theorem State.setReg_cur (s : State) (r : BitVec 6) (v : Dword) : (s.setReg r v).cur = s.cur := rfl
@[simp] theorem State.setReg_clock (s : State) (r : BitVec 6) (v : Dword) : (s.setReg r v).clock = s.clock := rfl
@[simp] theorem State.setReg_caps (s : State) (r : BitVec 6) (v : Dword) : (s.setReg r v).caps = s.caps := rfl
@[simp] theorem State.setReg_pkg (s : State) (r : BitVec 6) (v : Dword) : (s.setReg r v).pkg = s.pkg := rfl
@[simp] theorem State.setReg_variant (s : State) (r : BitVec 6) (v : Dword) : (s.setReg r v).variant = s.variant := rfl
@[simp] theorem State.setReg_mem (s : State) (r : BitVec 6) (v : Dword) : (s.setReg r v).mem = s.mem := rfl
@[simp] theorem State.setReg_ord (s : State) (r : BitVec 6) (v : Dword) : (s.setReg r v).ord = s.ord := rfl
@[simp] theorem State.setReg_hist (s : State) (r : BitVec 6) (v : Dword) : (s.setReg r v).hist = s.hist := rfl
@[simp] theorem State.setReg_poison (s : State) (r : BitVec 6) (v : Dword) : (s.setReg r v).poison = s.poison := rfl
@[simp] theorem State.setReg_dirty (s : State) (r : BitVec 6) (v : Dword) : (s.setReg r v).dirty = s.dirty := rfl
@[simp] theorem State.setReg_cpLines (s : State) (r : BitVec 6) (v : Dword) : (s.setReg r v).cpLines = s.cpLines := rfl
@[simp] theorem State.setReg_regs (s : State) (r : BitVec 6) (v : Dword) : (s.setReg r v).regs = s.regs := rfl
@[simp] theorem State.setReg_tlb (s : State) (r : BitVec 6) (v : Dword) : (s.setReg r v).tlb = s.tlb := rfl
@[simp] theorem State.setReg_walks (s : State) (r : BitVec 6) (v : Dword) : (s.setReg r v).walks = s.walks := rfl
@[simp] theorem State.setReg_late (s : State) (r : BitVec 6) (v : Dword) : (s.setReg r v).late = s.late := rfl
@[simp] theorem State.setReg_teams (s : State) (r : BitVec 6) (v : Dword) : (s.setReg r v).teams = s.teams := rfl
@[simp] theorem State.setReg_launches (s : State) (r : BitVec 6) (v : Dword) : (s.setReg r v).launches = s.launches := rfl
@[simp] theorem State.setReg_pipes (s : State) (r : BitVec 6) (v : Dword) : (s.setReg r v).pipes = s.pipes := rfl
@[simp] theorem State.setReg_barriers (s : State) (r : BitVec 6) (v : Dword) : (s.setReg r v).barriers = s.barriers := rfl
@[simp] theorem State.setReg_monitors (s : State) (r : BitVec 6) (v : Dword) : (s.setReg r v).monitors = s.monitors := rfl
@[simp] theorem State.setReg_places (s : State) (r : BitVec 6) (v : Dword) : (s.setReg r v).places = s.places := rfl
@[simp] theorem State.setReg_tiles (s : State) (r : BitVec 6) (v : Dword) : (s.setReg r v).tiles = s.tiles := rfl
@[simp] theorem State.setReg_tileTags (s : State) (r : BitVec 6) (v : Dword) : (s.setReg r v).tileTags = s.tileTags := rfl
@[simp] theorem State.setReg_tileOuts (s : State) (r : BitVec 6) (v : Dword) : (s.setReg r v).tileOuts = s.tileOuts := rfl
@[simp] theorem State.setReg_mops (s : State) (r : BitVec 6) (v : Dword) : (s.setReg r v).mops = s.mops := rfl
@[simp] theorem State.setReg_rendezvous (s : State) (r : BitVec 6) (v : Dword) : (s.setReg r v).rendezvous = s.rendezvous := rfl
@[simp] theorem State.setReg_cmds (s : State) (r : BitVec 6) (v : Dword) : (s.setReg r v).cmds = s.cmds := rfl
@[simp] theorem State.setReg_searches (s : State) (r : BitVec 6) (v : Dword) : (s.setReg r v).searches = s.searches := rfl
@[simp] theorem State.setReg_migrations (s : State) (r : BitVec 6) (v : Dword) : (s.setReg r v).migrations = s.migrations := rfl
@[simp] theorem State.setReg_owners (s : State) (r : BitVec 6) (v : Dword) : (s.setReg r v).owners = s.owners := rfl
@[simp] theorem State.setReg_badGpns (s : State) (r : BitVec 6) (v : Dword) : (s.setReg r v).badGpns = s.badGpns := rfl
@[simp] theorem State.setReg_migLines (s : State) (r : BitVec 6) (v : Dword) : (s.setReg r v).migLines = s.migLines := rfl
@[simp] theorem State.setReg_stubs (s : State) (r : BitVec 6) (v : Dword) : (s.setReg r v).stubs = s.stubs := rfl
@[simp] theorem State.setReg_redirects (s : State) (r : BitVec 6) (v : Dword) : (s.setReg r v).redirects = s.redirects := rfl
@[simp] theorem State.setReg_remote (s : State) (r : BitVec 6) (v : Dword) : (s.setReg r v).remote = s.remote := rfl
@[simp] theorem State.setReg_mcasts (s : State) (r : BitVec 6) (v : Dword) : (s.setReg r v).mcasts = s.mcasts := rfl
@[simp] theorem State.setReg_colls (s : State) (r : BitVec 6) (v : Dword) : (s.setReg r v).colls = s.colls := rfl
@[simp] theorem State.setReg_chunks (s : State) (r : BitVec 6) (v : Dword) : (s.setReg r v).chunks = s.chunks := rfl
@[simp] theorem State.setReg_arbiters (s : State) (r : BitVec 6) (v : Dword) : (s.setReg r v).arbiters = s.arbiters := rfl
@[simp] theorem State.setReg_chains (s : State) (r : BitVec 6) (v : Dword) : (s.setReg r v).chains = s.chains := rfl
@[simp] theorem State.setReg_probes (s : State) (r : BitVec 6) (v : Dword) : (s.setReg r v).probes = s.probes := rfl
@[simp] theorem State.setReg_draining (s : State) (r : BitVec 6) (v : Dword) : (s.setReg r v).draining = s.draining := rfl
@[simp] theorem State.setReg_qcache (s : State) (r : BitVec 6) (v : Dword) : (s.setReg r v).qcache = s.qcache := rfl
@[simp] theorem State.setReg_queues (s : State) (r : BitVec 6) (v : Dword) : (s.setReg r v).queues = s.queues := rfl
@[simp] theorem State.setReg_lanes (s : State) (r : BitVec 6) (v : Dword) : (s.setReg r v).lanes = s.lanes := rfl
@[simp] theorem State.setReg_laneStep (s : State) (r : BitVec 6) (v : Dword) : (s.setReg r v).laneStep = s.laneStep := rfl
@[simp] theorem State.setReg_laneNext (s : State) (r : BitVec 6) (v : Dword) : (s.setReg r v).laneNext = s.laneNext := rfl
@[simp] theorem State.setReg_sleepers (s : State) (r : BitVec 6) (v : Dword) : (s.setReg r v).sleepers = s.sleepers := rfl
@[simp] theorem State.setReg_sent (s : State) (r : BitVec 6) (v : Dword) : (s.setReg r v).sent = s.sent := rfl
@[simp] theorem State.setReg_recv (s : State) (r : BitVec 6) (v : Dword) : (s.setReg r v).recv = s.recv := rfl
@[simp] theorem State.setReg_pendInv (s : State) (r : BitVec 6) (v : Dword) : (s.setReg r v).pendInv = s.pendInv := rfl
@[simp] theorem State.setReg_pendAttr (s : State) (r : BitVec 6) (v : Dword) : (s.setReg r v).pendAttr = s.pendAttr := rfl
@[simp] theorem State.setReg_mixes (s : State) (r : BitVec 6) (v : Dword) : (s.setReg r v).mixes = s.mixes := rfl
@[simp] theorem State.setReg_seq (s : State) (r : BitVec 6) (v : Dword) : (s.setReg r v).seq = s.seq := rfl
@[simp] theorem State.setReg_held (s : State) (r : BitVec 6) (v : Dword) : (s.setReg r v).held = s.held := rfl
@[simp] theorem State.setReg_notes (s : State) (r : BitVec 6) (v : Dword) : (s.setReg r v).notes = s.notes := rfl
@[simp] theorem State.setReg_rowHits (s : State) (r : BitVec 6) (v : Dword) : (s.setReg r v).rowHits = s.rowHits := rfl
@[simp] theorem State.setReg_captured (s : State) (r : BitVec 6) (v : Dword) : (s.setReg r v).captured = s.captured := rfl
@[simp] theorem State.setReg_cacheLines (s : State) (r : BitVec 6) (v : Dword) : (s.setReg r v).cacheLines = s.cacheLines := rfl
@[simp] theorem State.setReg_baseOps (s : State) (r : BitVec 6) (v : Dword) : (s.setReg r v).baseOps = s.baseOps := rfl
@[simp] theorem State.setReg_writeQueue (s : State) (r : BitVec 6) (v : Dword) : (s.setReg r v).writeQueue = s.writeQueue := rfl
@[simp] theorem State.setReg_identKey (s : State) (r : BitVec 6) (v : Dword) : (s.setReg r v).identKey = s.identKey := rfl
@[simp] theorem State.setReg_digests (s : State) (r : BitVec 6) (v : Dword) : (s.setReg r v).digests = s.digests := rfl
@[simp] theorem State.setReg_report (s : State) (r : BitVec 6) (v : Dword) : (s.setReg r v).report = s.report := rfl
@[simp] theorem State.setReg_ueNotes (s : State) (r : BitVec 6) (v : Dword) : (s.setReg r v).ueNotes = s.ueNotes := rfl
@[simp] theorem State.setReg_claims (s : State) (r : BitVec 6) (v : Dword) : (s.setReg r v).claims = s.claims := rfl
@[simp] theorem State.setReg_nextId (s : State) (r : BitVec 6) (v : Dword) : (s.setReg r v).nextId = s.nextId := rfl

/-! ### s.setSpc v changes only `groups` -/

@[simp] theorem State.setSpc_tick (s : State) (v : Dword) : (s.setSpc v).tick = s.tick := rfl
@[simp] theorem State.setSpc_agenda (s : State) (v : Dword) : (s.setSpc v).agenda = s.agenda := rfl
@[simp] theorem State.setSpc_cur (s : State) (v : Dword) : (s.setSpc v).cur = s.cur := rfl
@[simp] theorem State.setSpc_clock (s : State) (v : Dword) : (s.setSpc v).clock = s.clock := rfl
@[simp] theorem State.setSpc_caps (s : State) (v : Dword) : (s.setSpc v).caps = s.caps := rfl
@[simp] theorem State.setSpc_pkg (s : State) (v : Dword) : (s.setSpc v).pkg = s.pkg := rfl
@[simp] theorem State.setSpc_variant (s : State) (v : Dword) : (s.setSpc v).variant = s.variant := rfl
@[simp] theorem State.setSpc_mem (s : State) (v : Dword) : (s.setSpc v).mem = s.mem := rfl
@[simp] theorem State.setSpc_ord (s : State) (v : Dword) : (s.setSpc v).ord = s.ord := rfl
@[simp] theorem State.setSpc_hist (s : State) (v : Dword) : (s.setSpc v).hist = s.hist := rfl
@[simp] theorem State.setSpc_poison (s : State) (v : Dword) : (s.setSpc v).poison = s.poison := rfl
@[simp] theorem State.setSpc_dirty (s : State) (v : Dword) : (s.setSpc v).dirty = s.dirty := rfl
@[simp] theorem State.setSpc_cpLines (s : State) (v : Dword) : (s.setSpc v).cpLines = s.cpLines := rfl
@[simp] theorem State.setSpc_regs (s : State) (v : Dword) : (s.setSpc v).regs = s.regs := rfl
@[simp] theorem State.setSpc_tlb (s : State) (v : Dword) : (s.setSpc v).tlb = s.tlb := rfl
@[simp] theorem State.setSpc_walks (s : State) (v : Dword) : (s.setSpc v).walks = s.walks := rfl
@[simp] theorem State.setSpc_late (s : State) (v : Dword) : (s.setSpc v).late = s.late := rfl
@[simp] theorem State.setSpc_teams (s : State) (v : Dword) : (s.setSpc v).teams = s.teams := rfl
@[simp] theorem State.setSpc_launches (s : State) (v : Dword) : (s.setSpc v).launches = s.launches := rfl
@[simp] theorem State.setSpc_pipes (s : State) (v : Dword) : (s.setSpc v).pipes = s.pipes := rfl
@[simp] theorem State.setSpc_barriers (s : State) (v : Dword) : (s.setSpc v).barriers = s.barriers := rfl
@[simp] theorem State.setSpc_monitors (s : State) (v : Dword) : (s.setSpc v).monitors = s.monitors := rfl
@[simp] theorem State.setSpc_places (s : State) (v : Dword) : (s.setSpc v).places = s.places := rfl
@[simp] theorem State.setSpc_tiles (s : State) (v : Dword) : (s.setSpc v).tiles = s.tiles := rfl
@[simp] theorem State.setSpc_tileTags (s : State) (v : Dword) : (s.setSpc v).tileTags = s.tileTags := rfl
@[simp] theorem State.setSpc_tileOuts (s : State) (v : Dword) : (s.setSpc v).tileOuts = s.tileOuts := rfl
@[simp] theorem State.setSpc_mops (s : State) (v : Dword) : (s.setSpc v).mops = s.mops := rfl
@[simp] theorem State.setSpc_rendezvous (s : State) (v : Dword) : (s.setSpc v).rendezvous = s.rendezvous := rfl
@[simp] theorem State.setSpc_cmds (s : State) (v : Dword) : (s.setSpc v).cmds = s.cmds := rfl
@[simp] theorem State.setSpc_searches (s : State) (v : Dword) : (s.setSpc v).searches = s.searches := rfl
@[simp] theorem State.setSpc_migrations (s : State) (v : Dword) : (s.setSpc v).migrations = s.migrations := rfl
@[simp] theorem State.setSpc_owners (s : State) (v : Dword) : (s.setSpc v).owners = s.owners := rfl
@[simp] theorem State.setSpc_badGpns (s : State) (v : Dword) : (s.setSpc v).badGpns = s.badGpns := rfl
@[simp] theorem State.setSpc_migLines (s : State) (v : Dword) : (s.setSpc v).migLines = s.migLines := rfl
@[simp] theorem State.setSpc_stubs (s : State) (v : Dword) : (s.setSpc v).stubs = s.stubs := rfl
@[simp] theorem State.setSpc_redirects (s : State) (v : Dword) : (s.setSpc v).redirects = s.redirects := rfl
@[simp] theorem State.setSpc_remote (s : State) (v : Dword) : (s.setSpc v).remote = s.remote := rfl
@[simp] theorem State.setSpc_mcasts (s : State) (v : Dword) : (s.setSpc v).mcasts = s.mcasts := rfl
@[simp] theorem State.setSpc_colls (s : State) (v : Dword) : (s.setSpc v).colls = s.colls := rfl
@[simp] theorem State.setSpc_chunks (s : State) (v : Dword) : (s.setSpc v).chunks = s.chunks := rfl
@[simp] theorem State.setSpc_arbiters (s : State) (v : Dword) : (s.setSpc v).arbiters = s.arbiters := rfl
@[simp] theorem State.setSpc_chains (s : State) (v : Dword) : (s.setSpc v).chains = s.chains := rfl
@[simp] theorem State.setSpc_probes (s : State) (v : Dword) : (s.setSpc v).probes = s.probes := rfl
@[simp] theorem State.setSpc_draining (s : State) (v : Dword) : (s.setSpc v).draining = s.draining := rfl
@[simp] theorem State.setSpc_qcache (s : State) (v : Dword) : (s.setSpc v).qcache = s.qcache := rfl
@[simp] theorem State.setSpc_queues (s : State) (v : Dword) : (s.setSpc v).queues = s.queues := rfl
@[simp] theorem State.setSpc_lanes (s : State) (v : Dword) : (s.setSpc v).lanes = s.lanes := rfl
@[simp] theorem State.setSpc_laneStep (s : State) (v : Dword) : (s.setSpc v).laneStep = s.laneStep := rfl
@[simp] theorem State.setSpc_laneNext (s : State) (v : Dword) : (s.setSpc v).laneNext = s.laneNext := rfl
@[simp] theorem State.setSpc_sleepers (s : State) (v : Dword) : (s.setSpc v).sleepers = s.sleepers := rfl
@[simp] theorem State.setSpc_sent (s : State) (v : Dword) : (s.setSpc v).sent = s.sent := rfl
@[simp] theorem State.setSpc_recv (s : State) (v : Dword) : (s.setSpc v).recv = s.recv := rfl
@[simp] theorem State.setSpc_pendInv (s : State) (v : Dword) : (s.setSpc v).pendInv = s.pendInv := rfl
@[simp] theorem State.setSpc_pendAttr (s : State) (v : Dword) : (s.setSpc v).pendAttr = s.pendAttr := rfl
@[simp] theorem State.setSpc_mixes (s : State) (v : Dword) : (s.setSpc v).mixes = s.mixes := rfl
@[simp] theorem State.setSpc_seq (s : State) (v : Dword) : (s.setSpc v).seq = s.seq := rfl
@[simp] theorem State.setSpc_held (s : State) (v : Dword) : (s.setSpc v).held = s.held := rfl
@[simp] theorem State.setSpc_notes (s : State) (v : Dword) : (s.setSpc v).notes = s.notes := rfl
@[simp] theorem State.setSpc_rowHits (s : State) (v : Dword) : (s.setSpc v).rowHits = s.rowHits := rfl
@[simp] theorem State.setSpc_captured (s : State) (v : Dword) : (s.setSpc v).captured = s.captured := rfl
@[simp] theorem State.setSpc_cacheLines (s : State) (v : Dword) : (s.setSpc v).cacheLines = s.cacheLines := rfl
@[simp] theorem State.setSpc_baseOps (s : State) (v : Dword) : (s.setSpc v).baseOps = s.baseOps := rfl
@[simp] theorem State.setSpc_writeQueue (s : State) (v : Dword) : (s.setSpc v).writeQueue = s.writeQueue := rfl
@[simp] theorem State.setSpc_identKey (s : State) (v : Dword) : (s.setSpc v).identKey = s.identKey := rfl
@[simp] theorem State.setSpc_digests (s : State) (v : Dword) : (s.setSpc v).digests = s.digests := rfl
@[simp] theorem State.setSpc_report (s : State) (v : Dword) : (s.setSpc v).report = s.report := rfl
@[simp] theorem State.setSpc_ueNotes (s : State) (v : Dword) : (s.setSpc v).ueNotes = s.ueNotes := rfl
@[simp] theorem State.setSpc_claims (s : State) (v : Dword) : (s.setSpc v).claims = s.claims := rfl
@[simp] theorem State.setSpc_nextId (s : State) (v : Dword) : (s.setSpc v).nextId = s.nextId := rfl

/-! ### s.wb r v changes only `groups` -/

@[simp] theorem State.wb_tick (s : State) (r : BitVec 6) (v : Dword) : (s.wb r v).tick = s.tick := rfl
@[simp] theorem State.wb_agenda (s : State) (r : BitVec 6) (v : Dword) : (s.wb r v).agenda = s.agenda := rfl
@[simp] theorem State.wb_cur (s : State) (r : BitVec 6) (v : Dword) : (s.wb r v).cur = s.cur := rfl
@[simp] theorem State.wb_clock (s : State) (r : BitVec 6) (v : Dword) : (s.wb r v).clock = s.clock := rfl
@[simp] theorem State.wb_caps (s : State) (r : BitVec 6) (v : Dword) : (s.wb r v).caps = s.caps := rfl
@[simp] theorem State.wb_pkg (s : State) (r : BitVec 6) (v : Dword) : (s.wb r v).pkg = s.pkg := rfl
@[simp] theorem State.wb_variant (s : State) (r : BitVec 6) (v : Dword) : (s.wb r v).variant = s.variant := rfl
@[simp] theorem State.wb_mem (s : State) (r : BitVec 6) (v : Dword) : (s.wb r v).mem = s.mem := rfl
@[simp] theorem State.wb_ord (s : State) (r : BitVec 6) (v : Dword) : (s.wb r v).ord = s.ord := rfl
@[simp] theorem State.wb_hist (s : State) (r : BitVec 6) (v : Dword) : (s.wb r v).hist = s.hist := rfl
@[simp] theorem State.wb_poison (s : State) (r : BitVec 6) (v : Dword) : (s.wb r v).poison = s.poison := rfl
@[simp] theorem State.wb_dirty (s : State) (r : BitVec 6) (v : Dword) : (s.wb r v).dirty = s.dirty := rfl
@[simp] theorem State.wb_cpLines (s : State) (r : BitVec 6) (v : Dword) : (s.wb r v).cpLines = s.cpLines := rfl
@[simp] theorem State.wb_regs (s : State) (r : BitVec 6) (v : Dword) : (s.wb r v).regs = s.regs := rfl
@[simp] theorem State.wb_tlb (s : State) (r : BitVec 6) (v : Dword) : (s.wb r v).tlb = s.tlb := rfl
@[simp] theorem State.wb_walks (s : State) (r : BitVec 6) (v : Dword) : (s.wb r v).walks = s.walks := rfl
@[simp] theorem State.wb_late (s : State) (r : BitVec 6) (v : Dword) : (s.wb r v).late = s.late := rfl
@[simp] theorem State.wb_teams (s : State) (r : BitVec 6) (v : Dword) : (s.wb r v).teams = s.teams := rfl
@[simp] theorem State.wb_launches (s : State) (r : BitVec 6) (v : Dword) : (s.wb r v).launches = s.launches := rfl
@[simp] theorem State.wb_pipes (s : State) (r : BitVec 6) (v : Dword) : (s.wb r v).pipes = s.pipes := rfl
@[simp] theorem State.wb_barriers (s : State) (r : BitVec 6) (v : Dword) : (s.wb r v).barriers = s.barriers := rfl
@[simp] theorem State.wb_monitors (s : State) (r : BitVec 6) (v : Dword) : (s.wb r v).monitors = s.monitors := rfl
@[simp] theorem State.wb_places (s : State) (r : BitVec 6) (v : Dword) : (s.wb r v).places = s.places := rfl
@[simp] theorem State.wb_tiles (s : State) (r : BitVec 6) (v : Dword) : (s.wb r v).tiles = s.tiles := rfl
@[simp] theorem State.wb_tileTags (s : State) (r : BitVec 6) (v : Dword) : (s.wb r v).tileTags = s.tileTags := rfl
@[simp] theorem State.wb_tileOuts (s : State) (r : BitVec 6) (v : Dword) : (s.wb r v).tileOuts = s.tileOuts := rfl
@[simp] theorem State.wb_mops (s : State) (r : BitVec 6) (v : Dword) : (s.wb r v).mops = s.mops := rfl
@[simp] theorem State.wb_rendezvous (s : State) (r : BitVec 6) (v : Dword) : (s.wb r v).rendezvous = s.rendezvous := rfl
@[simp] theorem State.wb_cmds (s : State) (r : BitVec 6) (v : Dword) : (s.wb r v).cmds = s.cmds := rfl
@[simp] theorem State.wb_searches (s : State) (r : BitVec 6) (v : Dword) : (s.wb r v).searches = s.searches := rfl
@[simp] theorem State.wb_migrations (s : State) (r : BitVec 6) (v : Dword) : (s.wb r v).migrations = s.migrations := rfl
@[simp] theorem State.wb_owners (s : State) (r : BitVec 6) (v : Dword) : (s.wb r v).owners = s.owners := rfl
@[simp] theorem State.wb_badGpns (s : State) (r : BitVec 6) (v : Dword) : (s.wb r v).badGpns = s.badGpns := rfl
@[simp] theorem State.wb_migLines (s : State) (r : BitVec 6) (v : Dword) : (s.wb r v).migLines = s.migLines := rfl
@[simp] theorem State.wb_stubs (s : State) (r : BitVec 6) (v : Dword) : (s.wb r v).stubs = s.stubs := rfl
@[simp] theorem State.wb_redirects (s : State) (r : BitVec 6) (v : Dword) : (s.wb r v).redirects = s.redirects := rfl
@[simp] theorem State.wb_remote (s : State) (r : BitVec 6) (v : Dword) : (s.wb r v).remote = s.remote := rfl
@[simp] theorem State.wb_mcasts (s : State) (r : BitVec 6) (v : Dword) : (s.wb r v).mcasts = s.mcasts := rfl
@[simp] theorem State.wb_colls (s : State) (r : BitVec 6) (v : Dword) : (s.wb r v).colls = s.colls := rfl
@[simp] theorem State.wb_chunks (s : State) (r : BitVec 6) (v : Dword) : (s.wb r v).chunks = s.chunks := rfl
@[simp] theorem State.wb_arbiters (s : State) (r : BitVec 6) (v : Dword) : (s.wb r v).arbiters = s.arbiters := rfl
@[simp] theorem State.wb_chains (s : State) (r : BitVec 6) (v : Dword) : (s.wb r v).chains = s.chains := rfl
@[simp] theorem State.wb_probes (s : State) (r : BitVec 6) (v : Dword) : (s.wb r v).probes = s.probes := rfl
@[simp] theorem State.wb_draining (s : State) (r : BitVec 6) (v : Dword) : (s.wb r v).draining = s.draining := rfl
@[simp] theorem State.wb_qcache (s : State) (r : BitVec 6) (v : Dword) : (s.wb r v).qcache = s.qcache := rfl
@[simp] theorem State.wb_queues (s : State) (r : BitVec 6) (v : Dword) : (s.wb r v).queues = s.queues := rfl
@[simp] theorem State.wb_lanes (s : State) (r : BitVec 6) (v : Dword) : (s.wb r v).lanes = s.lanes := rfl
@[simp] theorem State.wb_laneStep (s : State) (r : BitVec 6) (v : Dword) : (s.wb r v).laneStep = s.laneStep := rfl
@[simp] theorem State.wb_laneNext (s : State) (r : BitVec 6) (v : Dword) : (s.wb r v).laneNext = s.laneNext := rfl
@[simp] theorem State.wb_sleepers (s : State) (r : BitVec 6) (v : Dword) : (s.wb r v).sleepers = s.sleepers := rfl
@[simp] theorem State.wb_sent (s : State) (r : BitVec 6) (v : Dword) : (s.wb r v).sent = s.sent := rfl
@[simp] theorem State.wb_recv (s : State) (r : BitVec 6) (v : Dword) : (s.wb r v).recv = s.recv := rfl
@[simp] theorem State.wb_pendInv (s : State) (r : BitVec 6) (v : Dword) : (s.wb r v).pendInv = s.pendInv := rfl
@[simp] theorem State.wb_pendAttr (s : State) (r : BitVec 6) (v : Dword) : (s.wb r v).pendAttr = s.pendAttr := rfl
@[simp] theorem State.wb_mixes (s : State) (r : BitVec 6) (v : Dword) : (s.wb r v).mixes = s.mixes := rfl
@[simp] theorem State.wb_seq (s : State) (r : BitVec 6) (v : Dword) : (s.wb r v).seq = s.seq := rfl
@[simp] theorem State.wb_held (s : State) (r : BitVec 6) (v : Dword) : (s.wb r v).held = s.held := rfl
@[simp] theorem State.wb_notes (s : State) (r : BitVec 6) (v : Dword) : (s.wb r v).notes = s.notes := rfl
@[simp] theorem State.wb_rowHits (s : State) (r : BitVec 6) (v : Dword) : (s.wb r v).rowHits = s.rowHits := rfl
@[simp] theorem State.wb_captured (s : State) (r : BitVec 6) (v : Dword) : (s.wb r v).captured = s.captured := rfl
@[simp] theorem State.wb_cacheLines (s : State) (r : BitVec 6) (v : Dword) : (s.wb r v).cacheLines = s.cacheLines := rfl
@[simp] theorem State.wb_baseOps (s : State) (r : BitVec 6) (v : Dword) : (s.wb r v).baseOps = s.baseOps := rfl
@[simp] theorem State.wb_writeQueue (s : State) (r : BitVec 6) (v : Dword) : (s.wb r v).writeQueue = s.writeQueue := rfl
@[simp] theorem State.wb_identKey (s : State) (r : BitVec 6) (v : Dword) : (s.wb r v).identKey = s.identKey := rfl
@[simp] theorem State.wb_digests (s : State) (r : BitVec 6) (v : Dword) : (s.wb r v).digests = s.digests := rfl
@[simp] theorem State.wb_report (s : State) (r : BitVec 6) (v : Dword) : (s.wb r v).report = s.report := rfl
@[simp] theorem State.wb_ueNotes (s : State) (r : BitVec 6) (v : Dword) : (s.wb r v).ueNotes = s.ueNotes := rfl
@[simp] theorem State.wb_claims (s : State) (r : BitVec 6) (v : Dword) : (s.wb r v).claims = s.claims := rfl
@[simp] theorem State.wb_nextId (s : State) (r : BitVec 6) (v : Dword) : (s.wb r v).nextId = s.nextId := rfl

/-! ### s.advance changes only `groups` -/

@[simp] theorem State.advance_tick (s : State) : (s.advance).tick = s.tick := rfl
@[simp] theorem State.advance_agenda (s : State) : (s.advance).agenda = s.agenda := rfl
@[simp] theorem State.advance_cur (s : State) : (s.advance).cur = s.cur := rfl
@[simp] theorem State.advance_clock (s : State) : (s.advance).clock = s.clock := rfl
@[simp] theorem State.advance_caps (s : State) : (s.advance).caps = s.caps := rfl
@[simp] theorem State.advance_pkg (s : State) : (s.advance).pkg = s.pkg := rfl
@[simp] theorem State.advance_variant (s : State) : (s.advance).variant = s.variant := rfl
@[simp] theorem State.advance_mem (s : State) : (s.advance).mem = s.mem := rfl
@[simp] theorem State.advance_ord (s : State) : (s.advance).ord = s.ord := rfl
@[simp] theorem State.advance_hist (s : State) : (s.advance).hist = s.hist := rfl
@[simp] theorem State.advance_poison (s : State) : (s.advance).poison = s.poison := rfl
@[simp] theorem State.advance_dirty (s : State) : (s.advance).dirty = s.dirty := rfl
@[simp] theorem State.advance_cpLines (s : State) : (s.advance).cpLines = s.cpLines := rfl
@[simp] theorem State.advance_regs (s : State) : (s.advance).regs = s.regs := rfl
@[simp] theorem State.advance_tlb (s : State) : (s.advance).tlb = s.tlb := rfl
@[simp] theorem State.advance_walks (s : State) : (s.advance).walks = s.walks := rfl
@[simp] theorem State.advance_late (s : State) : (s.advance).late = s.late := rfl
@[simp] theorem State.advance_teams (s : State) : (s.advance).teams = s.teams := rfl
@[simp] theorem State.advance_launches (s : State) : (s.advance).launches = s.launches := rfl
@[simp] theorem State.advance_pipes (s : State) : (s.advance).pipes = s.pipes := rfl
@[simp] theorem State.advance_barriers (s : State) : (s.advance).barriers = s.barriers := rfl
@[simp] theorem State.advance_monitors (s : State) : (s.advance).monitors = s.monitors := rfl
@[simp] theorem State.advance_places (s : State) : (s.advance).places = s.places := rfl
@[simp] theorem State.advance_tiles (s : State) : (s.advance).tiles = s.tiles := rfl
@[simp] theorem State.advance_tileTags (s : State) : (s.advance).tileTags = s.tileTags := rfl
@[simp] theorem State.advance_tileOuts (s : State) : (s.advance).tileOuts = s.tileOuts := rfl
@[simp] theorem State.advance_mops (s : State) : (s.advance).mops = s.mops := rfl
@[simp] theorem State.advance_rendezvous (s : State) : (s.advance).rendezvous = s.rendezvous := rfl
@[simp] theorem State.advance_cmds (s : State) : (s.advance).cmds = s.cmds := rfl
@[simp] theorem State.advance_searches (s : State) : (s.advance).searches = s.searches := rfl
@[simp] theorem State.advance_migrations (s : State) : (s.advance).migrations = s.migrations := rfl
@[simp] theorem State.advance_owners (s : State) : (s.advance).owners = s.owners := rfl
@[simp] theorem State.advance_badGpns (s : State) : (s.advance).badGpns = s.badGpns := rfl
@[simp] theorem State.advance_migLines (s : State) : (s.advance).migLines = s.migLines := rfl
@[simp] theorem State.advance_stubs (s : State) : (s.advance).stubs = s.stubs := rfl
@[simp] theorem State.advance_redirects (s : State) : (s.advance).redirects = s.redirects := rfl
@[simp] theorem State.advance_remote (s : State) : (s.advance).remote = s.remote := rfl
@[simp] theorem State.advance_mcasts (s : State) : (s.advance).mcasts = s.mcasts := rfl
@[simp] theorem State.advance_colls (s : State) : (s.advance).colls = s.colls := rfl
@[simp] theorem State.advance_chunks (s : State) : (s.advance).chunks = s.chunks := rfl
@[simp] theorem State.advance_arbiters (s : State) : (s.advance).arbiters = s.arbiters := rfl
@[simp] theorem State.advance_chains (s : State) : (s.advance).chains = s.chains := rfl
@[simp] theorem State.advance_probes (s : State) : (s.advance).probes = s.probes := rfl
@[simp] theorem State.advance_draining (s : State) : (s.advance).draining = s.draining := rfl
@[simp] theorem State.advance_qcache (s : State) : (s.advance).qcache = s.qcache := rfl
@[simp] theorem State.advance_queues (s : State) : (s.advance).queues = s.queues := rfl
@[simp] theorem State.advance_lanes (s : State) : (s.advance).lanes = s.lanes := rfl
@[simp] theorem State.advance_laneStep (s : State) : (s.advance).laneStep = s.laneStep := rfl
@[simp] theorem State.advance_laneNext (s : State) : (s.advance).laneNext = s.laneNext := rfl
@[simp] theorem State.advance_sleepers (s : State) : (s.advance).sleepers = s.sleepers := rfl
@[simp] theorem State.advance_sent (s : State) : (s.advance).sent = s.sent := rfl
@[simp] theorem State.advance_recv (s : State) : (s.advance).recv = s.recv := rfl
@[simp] theorem State.advance_pendInv (s : State) : (s.advance).pendInv = s.pendInv := rfl
@[simp] theorem State.advance_pendAttr (s : State) : (s.advance).pendAttr = s.pendAttr := rfl
@[simp] theorem State.advance_mixes (s : State) : (s.advance).mixes = s.mixes := rfl
@[simp] theorem State.advance_seq (s : State) : (s.advance).seq = s.seq := rfl
@[simp] theorem State.advance_held (s : State) : (s.advance).held = s.held := rfl
@[simp] theorem State.advance_notes (s : State) : (s.advance).notes = s.notes := rfl
@[simp] theorem State.advance_rowHits (s : State) : (s.advance).rowHits = s.rowHits := rfl
@[simp] theorem State.advance_captured (s : State) : (s.advance).captured = s.captured := rfl
@[simp] theorem State.advance_cacheLines (s : State) : (s.advance).cacheLines = s.cacheLines := rfl
@[simp] theorem State.advance_baseOps (s : State) : (s.advance).baseOps = s.baseOps := rfl
@[simp] theorem State.advance_writeQueue (s : State) : (s.advance).writeQueue = s.writeQueue := rfl
@[simp] theorem State.advance_identKey (s : State) : (s.advance).identKey = s.identKey := rfl
@[simp] theorem State.advance_digests (s : State) : (s.advance).digests = s.digests := rfl
@[simp] theorem State.advance_report (s : State) : (s.advance).report = s.report := rfl
@[simp] theorem State.advance_ueNotes (s : State) : (s.advance).ueNotes = s.ueNotes := rfl
@[simp] theorem State.advance_claims (s : State) : (s.advance).claims = s.claims := rfl
@[simp] theorem State.advance_nextId (s : State) : (s.advance).nextId = s.nextId := rfl

/-! ### s.setFmt v changes only `groups` -/

@[simp] theorem State.setFmt_tick (s : State) (v : Dword) : (s.setFmt v).tick = s.tick := rfl
@[simp] theorem State.setFmt_agenda (s : State) (v : Dword) : (s.setFmt v).agenda = s.agenda := rfl
@[simp] theorem State.setFmt_cur (s : State) (v : Dword) : (s.setFmt v).cur = s.cur := rfl
@[simp] theorem State.setFmt_clock (s : State) (v : Dword) : (s.setFmt v).clock = s.clock := rfl
@[simp] theorem State.setFmt_caps (s : State) (v : Dword) : (s.setFmt v).caps = s.caps := rfl
@[simp] theorem State.setFmt_pkg (s : State) (v : Dword) : (s.setFmt v).pkg = s.pkg := rfl
@[simp] theorem State.setFmt_variant (s : State) (v : Dword) : (s.setFmt v).variant = s.variant := rfl
@[simp] theorem State.setFmt_mem (s : State) (v : Dword) : (s.setFmt v).mem = s.mem := rfl
@[simp] theorem State.setFmt_ord (s : State) (v : Dword) : (s.setFmt v).ord = s.ord := rfl
@[simp] theorem State.setFmt_hist (s : State) (v : Dword) : (s.setFmt v).hist = s.hist := rfl
@[simp] theorem State.setFmt_poison (s : State) (v : Dword) : (s.setFmt v).poison = s.poison := rfl
@[simp] theorem State.setFmt_dirty (s : State) (v : Dword) : (s.setFmt v).dirty = s.dirty := rfl
@[simp] theorem State.setFmt_cpLines (s : State) (v : Dword) : (s.setFmt v).cpLines = s.cpLines := rfl
@[simp] theorem State.setFmt_regs (s : State) (v : Dword) : (s.setFmt v).regs = s.regs := rfl
@[simp] theorem State.setFmt_tlb (s : State) (v : Dword) : (s.setFmt v).tlb = s.tlb := rfl
@[simp] theorem State.setFmt_walks (s : State) (v : Dword) : (s.setFmt v).walks = s.walks := rfl
@[simp] theorem State.setFmt_late (s : State) (v : Dword) : (s.setFmt v).late = s.late := rfl
@[simp] theorem State.setFmt_teams (s : State) (v : Dword) : (s.setFmt v).teams = s.teams := rfl
@[simp] theorem State.setFmt_launches (s : State) (v : Dword) : (s.setFmt v).launches = s.launches := rfl
@[simp] theorem State.setFmt_pipes (s : State) (v : Dword) : (s.setFmt v).pipes = s.pipes := rfl
@[simp] theorem State.setFmt_barriers (s : State) (v : Dword) : (s.setFmt v).barriers = s.barriers := rfl
@[simp] theorem State.setFmt_monitors (s : State) (v : Dword) : (s.setFmt v).monitors = s.monitors := rfl
@[simp] theorem State.setFmt_places (s : State) (v : Dword) : (s.setFmt v).places = s.places := rfl
@[simp] theorem State.setFmt_tiles (s : State) (v : Dword) : (s.setFmt v).tiles = s.tiles := rfl
@[simp] theorem State.setFmt_tileTags (s : State) (v : Dword) : (s.setFmt v).tileTags = s.tileTags := rfl
@[simp] theorem State.setFmt_tileOuts (s : State) (v : Dword) : (s.setFmt v).tileOuts = s.tileOuts := rfl
@[simp] theorem State.setFmt_mops (s : State) (v : Dword) : (s.setFmt v).mops = s.mops := rfl
@[simp] theorem State.setFmt_rendezvous (s : State) (v : Dword) : (s.setFmt v).rendezvous = s.rendezvous := rfl
@[simp] theorem State.setFmt_cmds (s : State) (v : Dword) : (s.setFmt v).cmds = s.cmds := rfl
@[simp] theorem State.setFmt_searches (s : State) (v : Dword) : (s.setFmt v).searches = s.searches := rfl
@[simp] theorem State.setFmt_migrations (s : State) (v : Dword) : (s.setFmt v).migrations = s.migrations := rfl
@[simp] theorem State.setFmt_owners (s : State) (v : Dword) : (s.setFmt v).owners = s.owners := rfl
@[simp] theorem State.setFmt_badGpns (s : State) (v : Dword) : (s.setFmt v).badGpns = s.badGpns := rfl
@[simp] theorem State.setFmt_migLines (s : State) (v : Dword) : (s.setFmt v).migLines = s.migLines := rfl
@[simp] theorem State.setFmt_stubs (s : State) (v : Dword) : (s.setFmt v).stubs = s.stubs := rfl
@[simp] theorem State.setFmt_redirects (s : State) (v : Dword) : (s.setFmt v).redirects = s.redirects := rfl
@[simp] theorem State.setFmt_remote (s : State) (v : Dword) : (s.setFmt v).remote = s.remote := rfl
@[simp] theorem State.setFmt_mcasts (s : State) (v : Dword) : (s.setFmt v).mcasts = s.mcasts := rfl
@[simp] theorem State.setFmt_colls (s : State) (v : Dword) : (s.setFmt v).colls = s.colls := rfl
@[simp] theorem State.setFmt_chunks (s : State) (v : Dword) : (s.setFmt v).chunks = s.chunks := rfl
@[simp] theorem State.setFmt_arbiters (s : State) (v : Dword) : (s.setFmt v).arbiters = s.arbiters := rfl
@[simp] theorem State.setFmt_chains (s : State) (v : Dword) : (s.setFmt v).chains = s.chains := rfl
@[simp] theorem State.setFmt_probes (s : State) (v : Dword) : (s.setFmt v).probes = s.probes := rfl
@[simp] theorem State.setFmt_draining (s : State) (v : Dword) : (s.setFmt v).draining = s.draining := rfl
@[simp] theorem State.setFmt_qcache (s : State) (v : Dword) : (s.setFmt v).qcache = s.qcache := rfl
@[simp] theorem State.setFmt_queues (s : State) (v : Dword) : (s.setFmt v).queues = s.queues := rfl
@[simp] theorem State.setFmt_lanes (s : State) (v : Dword) : (s.setFmt v).lanes = s.lanes := rfl
@[simp] theorem State.setFmt_laneStep (s : State) (v : Dword) : (s.setFmt v).laneStep = s.laneStep := rfl
@[simp] theorem State.setFmt_laneNext (s : State) (v : Dword) : (s.setFmt v).laneNext = s.laneNext := rfl
@[simp] theorem State.setFmt_sleepers (s : State) (v : Dword) : (s.setFmt v).sleepers = s.sleepers := rfl
@[simp] theorem State.setFmt_sent (s : State) (v : Dword) : (s.setFmt v).sent = s.sent := rfl
@[simp] theorem State.setFmt_recv (s : State) (v : Dword) : (s.setFmt v).recv = s.recv := rfl
@[simp] theorem State.setFmt_pendInv (s : State) (v : Dword) : (s.setFmt v).pendInv = s.pendInv := rfl
@[simp] theorem State.setFmt_pendAttr (s : State) (v : Dword) : (s.setFmt v).pendAttr = s.pendAttr := rfl
@[simp] theorem State.setFmt_mixes (s : State) (v : Dword) : (s.setFmt v).mixes = s.mixes := rfl
@[simp] theorem State.setFmt_seq (s : State) (v : Dword) : (s.setFmt v).seq = s.seq := rfl
@[simp] theorem State.setFmt_held (s : State) (v : Dword) : (s.setFmt v).held = s.held := rfl
@[simp] theorem State.setFmt_notes (s : State) (v : Dword) : (s.setFmt v).notes = s.notes := rfl
@[simp] theorem State.setFmt_rowHits (s : State) (v : Dword) : (s.setFmt v).rowHits = s.rowHits := rfl
@[simp] theorem State.setFmt_captured (s : State) (v : Dword) : (s.setFmt v).captured = s.captured := rfl
@[simp] theorem State.setFmt_cacheLines (s : State) (v : Dword) : (s.setFmt v).cacheLines = s.cacheLines := rfl
@[simp] theorem State.setFmt_baseOps (s : State) (v : Dword) : (s.setFmt v).baseOps = s.baseOps := rfl
@[simp] theorem State.setFmt_writeQueue (s : State) (v : Dword) : (s.setFmt v).writeQueue = s.writeQueue := rfl
@[simp] theorem State.setFmt_identKey (s : State) (v : Dword) : (s.setFmt v).identKey = s.identKey := rfl
@[simp] theorem State.setFmt_digests (s : State) (v : Dword) : (s.setFmt v).digests = s.digests := rfl
@[simp] theorem State.setFmt_report (s : State) (v : Dword) : (s.setFmt v).report = s.report := rfl
@[simp] theorem State.setFmt_ueNotes (s : State) (v : Dword) : (s.setFmt v).ueNotes = s.ueNotes := rfl
@[simp] theorem State.setFmt_claims (s : State) (v : Dword) : (s.setFmt v).claims = s.claims := rfl
@[simp] theorem State.setFmt_nextId (s : State) (v : Dword) : (s.setFmt v).nextId = s.nextId := rfl

/-! ### s.setAxis n v changes only `groups` -/

@[simp] theorem State.setAxis_tick (s : State) (n : Nat) (v : Dword) : (s.setAxis n v).tick = s.tick := rfl
@[simp] theorem State.setAxis_agenda (s : State) (n : Nat) (v : Dword) : (s.setAxis n v).agenda = s.agenda := rfl
@[simp] theorem State.setAxis_cur (s : State) (n : Nat) (v : Dword) : (s.setAxis n v).cur = s.cur := rfl
@[simp] theorem State.setAxis_clock (s : State) (n : Nat) (v : Dword) : (s.setAxis n v).clock = s.clock := rfl
@[simp] theorem State.setAxis_caps (s : State) (n : Nat) (v : Dword) : (s.setAxis n v).caps = s.caps := rfl
@[simp] theorem State.setAxis_pkg (s : State) (n : Nat) (v : Dword) : (s.setAxis n v).pkg = s.pkg := rfl
@[simp] theorem State.setAxis_variant (s : State) (n : Nat) (v : Dword) : (s.setAxis n v).variant = s.variant := rfl
@[simp] theorem State.setAxis_mem (s : State) (n : Nat) (v : Dword) : (s.setAxis n v).mem = s.mem := rfl
@[simp] theorem State.setAxis_ord (s : State) (n : Nat) (v : Dword) : (s.setAxis n v).ord = s.ord := rfl
@[simp] theorem State.setAxis_hist (s : State) (n : Nat) (v : Dword) : (s.setAxis n v).hist = s.hist := rfl
@[simp] theorem State.setAxis_poison (s : State) (n : Nat) (v : Dword) : (s.setAxis n v).poison = s.poison := rfl
@[simp] theorem State.setAxis_dirty (s : State) (n : Nat) (v : Dword) : (s.setAxis n v).dirty = s.dirty := rfl
@[simp] theorem State.setAxis_cpLines (s : State) (n : Nat) (v : Dword) : (s.setAxis n v).cpLines = s.cpLines := rfl
@[simp] theorem State.setAxis_regs (s : State) (n : Nat) (v : Dword) : (s.setAxis n v).regs = s.regs := rfl
@[simp] theorem State.setAxis_tlb (s : State) (n : Nat) (v : Dword) : (s.setAxis n v).tlb = s.tlb := rfl
@[simp] theorem State.setAxis_walks (s : State) (n : Nat) (v : Dword) : (s.setAxis n v).walks = s.walks := rfl
@[simp] theorem State.setAxis_late (s : State) (n : Nat) (v : Dword) : (s.setAxis n v).late = s.late := rfl
@[simp] theorem State.setAxis_teams (s : State) (n : Nat) (v : Dword) : (s.setAxis n v).teams = s.teams := rfl
@[simp] theorem State.setAxis_launches (s : State) (n : Nat) (v : Dword) : (s.setAxis n v).launches = s.launches := rfl
@[simp] theorem State.setAxis_pipes (s : State) (n : Nat) (v : Dword) : (s.setAxis n v).pipes = s.pipes := rfl
@[simp] theorem State.setAxis_barriers (s : State) (n : Nat) (v : Dword) : (s.setAxis n v).barriers = s.barriers := rfl
@[simp] theorem State.setAxis_monitors (s : State) (n : Nat) (v : Dword) : (s.setAxis n v).monitors = s.monitors := rfl
@[simp] theorem State.setAxis_places (s : State) (n : Nat) (v : Dword) : (s.setAxis n v).places = s.places := rfl
@[simp] theorem State.setAxis_tiles (s : State) (n : Nat) (v : Dword) : (s.setAxis n v).tiles = s.tiles := rfl
@[simp] theorem State.setAxis_tileTags (s : State) (n : Nat) (v : Dword) : (s.setAxis n v).tileTags = s.tileTags := rfl
@[simp] theorem State.setAxis_tileOuts (s : State) (n : Nat) (v : Dword) : (s.setAxis n v).tileOuts = s.tileOuts := rfl
@[simp] theorem State.setAxis_mops (s : State) (n : Nat) (v : Dword) : (s.setAxis n v).mops = s.mops := rfl
@[simp] theorem State.setAxis_rendezvous (s : State) (n : Nat) (v : Dword) : (s.setAxis n v).rendezvous = s.rendezvous := rfl
@[simp] theorem State.setAxis_cmds (s : State) (n : Nat) (v : Dword) : (s.setAxis n v).cmds = s.cmds := rfl
@[simp] theorem State.setAxis_searches (s : State) (n : Nat) (v : Dword) : (s.setAxis n v).searches = s.searches := rfl
@[simp] theorem State.setAxis_migrations (s : State) (n : Nat) (v : Dword) : (s.setAxis n v).migrations = s.migrations := rfl
@[simp] theorem State.setAxis_owners (s : State) (n : Nat) (v : Dword) : (s.setAxis n v).owners = s.owners := rfl
@[simp] theorem State.setAxis_badGpns (s : State) (n : Nat) (v : Dword) : (s.setAxis n v).badGpns = s.badGpns := rfl
@[simp] theorem State.setAxis_migLines (s : State) (n : Nat) (v : Dword) : (s.setAxis n v).migLines = s.migLines := rfl
@[simp] theorem State.setAxis_stubs (s : State) (n : Nat) (v : Dword) : (s.setAxis n v).stubs = s.stubs := rfl
@[simp] theorem State.setAxis_redirects (s : State) (n : Nat) (v : Dword) : (s.setAxis n v).redirects = s.redirects := rfl
@[simp] theorem State.setAxis_remote (s : State) (n : Nat) (v : Dword) : (s.setAxis n v).remote = s.remote := rfl
@[simp] theorem State.setAxis_mcasts (s : State) (n : Nat) (v : Dword) : (s.setAxis n v).mcasts = s.mcasts := rfl
@[simp] theorem State.setAxis_colls (s : State) (n : Nat) (v : Dword) : (s.setAxis n v).colls = s.colls := rfl
@[simp] theorem State.setAxis_chunks (s : State) (n : Nat) (v : Dword) : (s.setAxis n v).chunks = s.chunks := rfl
@[simp] theorem State.setAxis_arbiters (s : State) (n : Nat) (v : Dword) : (s.setAxis n v).arbiters = s.arbiters := rfl
@[simp] theorem State.setAxis_chains (s : State) (n : Nat) (v : Dword) : (s.setAxis n v).chains = s.chains := rfl
@[simp] theorem State.setAxis_probes (s : State) (n : Nat) (v : Dword) : (s.setAxis n v).probes = s.probes := rfl
@[simp] theorem State.setAxis_draining (s : State) (n : Nat) (v : Dword) : (s.setAxis n v).draining = s.draining := rfl
@[simp] theorem State.setAxis_qcache (s : State) (n : Nat) (v : Dword) : (s.setAxis n v).qcache = s.qcache := rfl
@[simp] theorem State.setAxis_queues (s : State) (n : Nat) (v : Dword) : (s.setAxis n v).queues = s.queues := rfl
@[simp] theorem State.setAxis_lanes (s : State) (n : Nat) (v : Dword) : (s.setAxis n v).lanes = s.lanes := rfl
@[simp] theorem State.setAxis_laneStep (s : State) (n : Nat) (v : Dword) : (s.setAxis n v).laneStep = s.laneStep := rfl
@[simp] theorem State.setAxis_laneNext (s : State) (n : Nat) (v : Dword) : (s.setAxis n v).laneNext = s.laneNext := rfl
@[simp] theorem State.setAxis_sleepers (s : State) (n : Nat) (v : Dword) : (s.setAxis n v).sleepers = s.sleepers := rfl
@[simp] theorem State.setAxis_sent (s : State) (n : Nat) (v : Dword) : (s.setAxis n v).sent = s.sent := rfl
@[simp] theorem State.setAxis_recv (s : State) (n : Nat) (v : Dword) : (s.setAxis n v).recv = s.recv := rfl
@[simp] theorem State.setAxis_pendInv (s : State) (n : Nat) (v : Dword) : (s.setAxis n v).pendInv = s.pendInv := rfl
@[simp] theorem State.setAxis_pendAttr (s : State) (n : Nat) (v : Dword) : (s.setAxis n v).pendAttr = s.pendAttr := rfl
@[simp] theorem State.setAxis_mixes (s : State) (n : Nat) (v : Dword) : (s.setAxis n v).mixes = s.mixes := rfl
@[simp] theorem State.setAxis_seq (s : State) (n : Nat) (v : Dword) : (s.setAxis n v).seq = s.seq := rfl
@[simp] theorem State.setAxis_held (s : State) (n : Nat) (v : Dword) : (s.setAxis n v).held = s.held := rfl
@[simp] theorem State.setAxis_notes (s : State) (n : Nat) (v : Dword) : (s.setAxis n v).notes = s.notes := rfl
@[simp] theorem State.setAxis_rowHits (s : State) (n : Nat) (v : Dword) : (s.setAxis n v).rowHits = s.rowHits := rfl
@[simp] theorem State.setAxis_captured (s : State) (n : Nat) (v : Dword) : (s.setAxis n v).captured = s.captured := rfl
@[simp] theorem State.setAxis_cacheLines (s : State) (n : Nat) (v : Dword) : (s.setAxis n v).cacheLines = s.cacheLines := rfl
@[simp] theorem State.setAxis_baseOps (s : State) (n : Nat) (v : Dword) : (s.setAxis n v).baseOps = s.baseOps := rfl
@[simp] theorem State.setAxis_writeQueue (s : State) (n : Nat) (v : Dword) : (s.setAxis n v).writeQueue = s.writeQueue := rfl
@[simp] theorem State.setAxis_identKey (s : State) (n : Nat) (v : Dword) : (s.setAxis n v).identKey = s.identKey := rfl
@[simp] theorem State.setAxis_digests (s : State) (n : Nat) (v : Dword) : (s.setAxis n v).digests = s.digests := rfl
@[simp] theorem State.setAxis_report (s : State) (n : Nat) (v : Dword) : (s.setAxis n v).report = s.report := rfl
@[simp] theorem State.setAxis_ueNotes (s : State) (n : Nat) (v : Dword) : (s.setAxis n v).ueNotes = s.ueNotes := rfl
@[simp] theorem State.setAxis_claims (s : State) (n : Nat) (v : Dword) : (s.setAxis n v).claims = s.claims := rfl
@[simp] theorem State.setAxis_nextId (s : State) (n : Nat) (v : Dword) : (s.setAxis n v).nextId = s.nextId := rfl

/-! ### s.setFrag f changes only `groups` -/

@[simp] theorem State.setFrag_tick (s : State) (f : Frag) : (s.setFrag f).tick = s.tick := rfl
@[simp] theorem State.setFrag_agenda (s : State) (f : Frag) : (s.setFrag f).agenda = s.agenda := rfl
@[simp] theorem State.setFrag_cur (s : State) (f : Frag) : (s.setFrag f).cur = s.cur := rfl
@[simp] theorem State.setFrag_clock (s : State) (f : Frag) : (s.setFrag f).clock = s.clock := rfl
@[simp] theorem State.setFrag_caps (s : State) (f : Frag) : (s.setFrag f).caps = s.caps := rfl
@[simp] theorem State.setFrag_pkg (s : State) (f : Frag) : (s.setFrag f).pkg = s.pkg := rfl
@[simp] theorem State.setFrag_variant (s : State) (f : Frag) : (s.setFrag f).variant = s.variant := rfl
@[simp] theorem State.setFrag_mem (s : State) (f : Frag) : (s.setFrag f).mem = s.mem := rfl
@[simp] theorem State.setFrag_ord (s : State) (f : Frag) : (s.setFrag f).ord = s.ord := rfl
@[simp] theorem State.setFrag_hist (s : State) (f : Frag) : (s.setFrag f).hist = s.hist := rfl
@[simp] theorem State.setFrag_poison (s : State) (f : Frag) : (s.setFrag f).poison = s.poison := rfl
@[simp] theorem State.setFrag_dirty (s : State) (f : Frag) : (s.setFrag f).dirty = s.dirty := rfl
@[simp] theorem State.setFrag_cpLines (s : State) (f : Frag) : (s.setFrag f).cpLines = s.cpLines := rfl
@[simp] theorem State.setFrag_regs (s : State) (f : Frag) : (s.setFrag f).regs = s.regs := rfl
@[simp] theorem State.setFrag_tlb (s : State) (f : Frag) : (s.setFrag f).tlb = s.tlb := rfl
@[simp] theorem State.setFrag_walks (s : State) (f : Frag) : (s.setFrag f).walks = s.walks := rfl
@[simp] theorem State.setFrag_late (s : State) (f : Frag) : (s.setFrag f).late = s.late := rfl
@[simp] theorem State.setFrag_teams (s : State) (f : Frag) : (s.setFrag f).teams = s.teams := rfl
@[simp] theorem State.setFrag_launches (s : State) (f : Frag) : (s.setFrag f).launches = s.launches := rfl
@[simp] theorem State.setFrag_pipes (s : State) (f : Frag) : (s.setFrag f).pipes = s.pipes := rfl
@[simp] theorem State.setFrag_barriers (s : State) (f : Frag) : (s.setFrag f).barriers = s.barriers := rfl
@[simp] theorem State.setFrag_monitors (s : State) (f : Frag) : (s.setFrag f).monitors = s.monitors := rfl
@[simp] theorem State.setFrag_places (s : State) (f : Frag) : (s.setFrag f).places = s.places := rfl
@[simp] theorem State.setFrag_tiles (s : State) (f : Frag) : (s.setFrag f).tiles = s.tiles := rfl
@[simp] theorem State.setFrag_tileTags (s : State) (f : Frag) : (s.setFrag f).tileTags = s.tileTags := rfl
@[simp] theorem State.setFrag_tileOuts (s : State) (f : Frag) : (s.setFrag f).tileOuts = s.tileOuts := rfl
@[simp] theorem State.setFrag_mops (s : State) (f : Frag) : (s.setFrag f).mops = s.mops := rfl
@[simp] theorem State.setFrag_rendezvous (s : State) (f : Frag) : (s.setFrag f).rendezvous = s.rendezvous := rfl
@[simp] theorem State.setFrag_cmds (s : State) (f : Frag) : (s.setFrag f).cmds = s.cmds := rfl
@[simp] theorem State.setFrag_searches (s : State) (f : Frag) : (s.setFrag f).searches = s.searches := rfl
@[simp] theorem State.setFrag_migrations (s : State) (f : Frag) : (s.setFrag f).migrations = s.migrations := rfl
@[simp] theorem State.setFrag_owners (s : State) (f : Frag) : (s.setFrag f).owners = s.owners := rfl
@[simp] theorem State.setFrag_badGpns (s : State) (f : Frag) : (s.setFrag f).badGpns = s.badGpns := rfl
@[simp] theorem State.setFrag_migLines (s : State) (f : Frag) : (s.setFrag f).migLines = s.migLines := rfl
@[simp] theorem State.setFrag_stubs (s : State) (f : Frag) : (s.setFrag f).stubs = s.stubs := rfl
@[simp] theorem State.setFrag_redirects (s : State) (f : Frag) : (s.setFrag f).redirects = s.redirects := rfl
@[simp] theorem State.setFrag_remote (s : State) (f : Frag) : (s.setFrag f).remote = s.remote := rfl
@[simp] theorem State.setFrag_mcasts (s : State) (f : Frag) : (s.setFrag f).mcasts = s.mcasts := rfl
@[simp] theorem State.setFrag_colls (s : State) (f : Frag) : (s.setFrag f).colls = s.colls := rfl
@[simp] theorem State.setFrag_chunks (s : State) (f : Frag) : (s.setFrag f).chunks = s.chunks := rfl
@[simp] theorem State.setFrag_arbiters (s : State) (f : Frag) : (s.setFrag f).arbiters = s.arbiters := rfl
@[simp] theorem State.setFrag_chains (s : State) (f : Frag) : (s.setFrag f).chains = s.chains := rfl
@[simp] theorem State.setFrag_probes (s : State) (f : Frag) : (s.setFrag f).probes = s.probes := rfl
@[simp] theorem State.setFrag_draining (s : State) (f : Frag) : (s.setFrag f).draining = s.draining := rfl
@[simp] theorem State.setFrag_qcache (s : State) (f : Frag) : (s.setFrag f).qcache = s.qcache := rfl
@[simp] theorem State.setFrag_queues (s : State) (f : Frag) : (s.setFrag f).queues = s.queues := rfl
@[simp] theorem State.setFrag_lanes (s : State) (f : Frag) : (s.setFrag f).lanes = s.lanes := rfl
@[simp] theorem State.setFrag_laneStep (s : State) (f : Frag) : (s.setFrag f).laneStep = s.laneStep := rfl
@[simp] theorem State.setFrag_laneNext (s : State) (f : Frag) : (s.setFrag f).laneNext = s.laneNext := rfl
@[simp] theorem State.setFrag_sleepers (s : State) (f : Frag) : (s.setFrag f).sleepers = s.sleepers := rfl
@[simp] theorem State.setFrag_sent (s : State) (f : Frag) : (s.setFrag f).sent = s.sent := rfl
@[simp] theorem State.setFrag_recv (s : State) (f : Frag) : (s.setFrag f).recv = s.recv := rfl
@[simp] theorem State.setFrag_pendInv (s : State) (f : Frag) : (s.setFrag f).pendInv = s.pendInv := rfl
@[simp] theorem State.setFrag_pendAttr (s : State) (f : Frag) : (s.setFrag f).pendAttr = s.pendAttr := rfl
@[simp] theorem State.setFrag_mixes (s : State) (f : Frag) : (s.setFrag f).mixes = s.mixes := rfl
@[simp] theorem State.setFrag_seq (s : State) (f : Frag) : (s.setFrag f).seq = s.seq := rfl
@[simp] theorem State.setFrag_held (s : State) (f : Frag) : (s.setFrag f).held = s.held := rfl
@[simp] theorem State.setFrag_notes (s : State) (f : Frag) : (s.setFrag f).notes = s.notes := rfl
@[simp] theorem State.setFrag_rowHits (s : State) (f : Frag) : (s.setFrag f).rowHits = s.rowHits := rfl
@[simp] theorem State.setFrag_captured (s : State) (f : Frag) : (s.setFrag f).captured = s.captured := rfl
@[simp] theorem State.setFrag_cacheLines (s : State) (f : Frag) : (s.setFrag f).cacheLines = s.cacheLines := rfl
@[simp] theorem State.setFrag_baseOps (s : State) (f : Frag) : (s.setFrag f).baseOps = s.baseOps := rfl
@[simp] theorem State.setFrag_writeQueue (s : State) (f : Frag) : (s.setFrag f).writeQueue = s.writeQueue := rfl
@[simp] theorem State.setFrag_identKey (s : State) (f : Frag) : (s.setFrag f).identKey = s.identKey := rfl
@[simp] theorem State.setFrag_digests (s : State) (f : Frag) : (s.setFrag f).digests = s.digests := rfl
@[simp] theorem State.setFrag_report (s : State) (f : Frag) : (s.setFrag f).report = s.report := rfl
@[simp] theorem State.setFrag_ueNotes (s : State) (f : Frag) : (s.setFrag f).ueNotes = s.ueNotes := rfl
@[simp] theorem State.setFrag_claims (s : State) (f : Frag) : (s.setFrag f).claims = s.claims := rfl
@[simp] theorem State.setFrag_nextId (s : State) (f : Frag) : (s.setFrag f).nextId = s.nextId := rfl

/-! ### s.nextLane changes only `groups` -/

@[simp] theorem State.nextLane_tick (s : State) : (s.nextLane).tick = s.tick := rfl
@[simp] theorem State.nextLane_agenda (s : State) : (s.nextLane).agenda = s.agenda := rfl
@[simp] theorem State.nextLane_cur (s : State) : (s.nextLane).cur = s.cur := rfl
@[simp] theorem State.nextLane_clock (s : State) : (s.nextLane).clock = s.clock := rfl
@[simp] theorem State.nextLane_caps (s : State) : (s.nextLane).caps = s.caps := rfl
@[simp] theorem State.nextLane_pkg (s : State) : (s.nextLane).pkg = s.pkg := rfl
@[simp] theorem State.nextLane_variant (s : State) : (s.nextLane).variant = s.variant := rfl
@[simp] theorem State.nextLane_mem (s : State) : (s.nextLane).mem = s.mem := rfl
@[simp] theorem State.nextLane_ord (s : State) : (s.nextLane).ord = s.ord := rfl
@[simp] theorem State.nextLane_hist (s : State) : (s.nextLane).hist = s.hist := rfl
@[simp] theorem State.nextLane_poison (s : State) : (s.nextLane).poison = s.poison := rfl
@[simp] theorem State.nextLane_dirty (s : State) : (s.nextLane).dirty = s.dirty := rfl
@[simp] theorem State.nextLane_cpLines (s : State) : (s.nextLane).cpLines = s.cpLines := rfl
@[simp] theorem State.nextLane_regs (s : State) : (s.nextLane).regs = s.regs := rfl
@[simp] theorem State.nextLane_tlb (s : State) : (s.nextLane).tlb = s.tlb := rfl
@[simp] theorem State.nextLane_walks (s : State) : (s.nextLane).walks = s.walks := rfl
@[simp] theorem State.nextLane_late (s : State) : (s.nextLane).late = s.late := rfl
@[simp] theorem State.nextLane_teams (s : State) : (s.nextLane).teams = s.teams := rfl
@[simp] theorem State.nextLane_launches (s : State) : (s.nextLane).launches = s.launches := rfl
@[simp] theorem State.nextLane_pipes (s : State) : (s.nextLane).pipes = s.pipes := rfl
@[simp] theorem State.nextLane_barriers (s : State) : (s.nextLane).barriers = s.barriers := rfl
@[simp] theorem State.nextLane_monitors (s : State) : (s.nextLane).monitors = s.monitors := rfl
@[simp] theorem State.nextLane_places (s : State) : (s.nextLane).places = s.places := rfl
@[simp] theorem State.nextLane_tiles (s : State) : (s.nextLane).tiles = s.tiles := rfl
@[simp] theorem State.nextLane_tileTags (s : State) : (s.nextLane).tileTags = s.tileTags := rfl
@[simp] theorem State.nextLane_tileOuts (s : State) : (s.nextLane).tileOuts = s.tileOuts := rfl
@[simp] theorem State.nextLane_mops (s : State) : (s.nextLane).mops = s.mops := rfl
@[simp] theorem State.nextLane_rendezvous (s : State) : (s.nextLane).rendezvous = s.rendezvous := rfl
@[simp] theorem State.nextLane_cmds (s : State) : (s.nextLane).cmds = s.cmds := rfl
@[simp] theorem State.nextLane_searches (s : State) : (s.nextLane).searches = s.searches := rfl
@[simp] theorem State.nextLane_migrations (s : State) : (s.nextLane).migrations = s.migrations := rfl
@[simp] theorem State.nextLane_owners (s : State) : (s.nextLane).owners = s.owners := rfl
@[simp] theorem State.nextLane_badGpns (s : State) : (s.nextLane).badGpns = s.badGpns := rfl
@[simp] theorem State.nextLane_migLines (s : State) : (s.nextLane).migLines = s.migLines := rfl
@[simp] theorem State.nextLane_stubs (s : State) : (s.nextLane).stubs = s.stubs := rfl
@[simp] theorem State.nextLane_redirects (s : State) : (s.nextLane).redirects = s.redirects := rfl
@[simp] theorem State.nextLane_remote (s : State) : (s.nextLane).remote = s.remote := rfl
@[simp] theorem State.nextLane_mcasts (s : State) : (s.nextLane).mcasts = s.mcasts := rfl
@[simp] theorem State.nextLane_colls (s : State) : (s.nextLane).colls = s.colls := rfl
@[simp] theorem State.nextLane_chunks (s : State) : (s.nextLane).chunks = s.chunks := rfl
@[simp] theorem State.nextLane_arbiters (s : State) : (s.nextLane).arbiters = s.arbiters := rfl
@[simp] theorem State.nextLane_chains (s : State) : (s.nextLane).chains = s.chains := rfl
@[simp] theorem State.nextLane_probes (s : State) : (s.nextLane).probes = s.probes := rfl
@[simp] theorem State.nextLane_draining (s : State) : (s.nextLane).draining = s.draining := rfl
@[simp] theorem State.nextLane_qcache (s : State) : (s.nextLane).qcache = s.qcache := rfl
@[simp] theorem State.nextLane_queues (s : State) : (s.nextLane).queues = s.queues := rfl
@[simp] theorem State.nextLane_lanes (s : State) : (s.nextLane).lanes = s.lanes := rfl
@[simp] theorem State.nextLane_laneStep (s : State) : (s.nextLane).laneStep = s.laneStep := rfl
@[simp] theorem State.nextLane_laneNext (s : State) : (s.nextLane).laneNext = s.laneNext := rfl
@[simp] theorem State.nextLane_sleepers (s : State) : (s.nextLane).sleepers = s.sleepers := rfl
@[simp] theorem State.nextLane_sent (s : State) : (s.nextLane).sent = s.sent := rfl
@[simp] theorem State.nextLane_recv (s : State) : (s.nextLane).recv = s.recv := rfl
@[simp] theorem State.nextLane_pendInv (s : State) : (s.nextLane).pendInv = s.pendInv := rfl
@[simp] theorem State.nextLane_pendAttr (s : State) : (s.nextLane).pendAttr = s.pendAttr := rfl
@[simp] theorem State.nextLane_mixes (s : State) : (s.nextLane).mixes = s.mixes := rfl
@[simp] theorem State.nextLane_seq (s : State) : (s.nextLane).seq = s.seq := rfl
@[simp] theorem State.nextLane_held (s : State) : (s.nextLane).held = s.held := rfl
@[simp] theorem State.nextLane_notes (s : State) : (s.nextLane).notes = s.notes := rfl
@[simp] theorem State.nextLane_rowHits (s : State) : (s.nextLane).rowHits = s.rowHits := rfl
@[simp] theorem State.nextLane_captured (s : State) : (s.nextLane).captured = s.captured := rfl
@[simp] theorem State.nextLane_cacheLines (s : State) : (s.nextLane).cacheLines = s.cacheLines := rfl
@[simp] theorem State.nextLane_baseOps (s : State) : (s.nextLane).baseOps = s.baseOps := rfl
@[simp] theorem State.nextLane_writeQueue (s : State) : (s.nextLane).writeQueue = s.writeQueue := rfl
@[simp] theorem State.nextLane_identKey (s : State) : (s.nextLane).identKey = s.identKey := rfl
@[simp] theorem State.nextLane_digests (s : State) : (s.nextLane).digests = s.digests := rfl
@[simp] theorem State.nextLane_report (s : State) : (s.nextLane).report = s.report := rfl
@[simp] theorem State.nextLane_ueNotes (s : State) : (s.nextLane).ueNotes = s.ueNotes := rfl
@[simp] theorem State.nextLane_claims (s : State) : (s.nextLane).claims = s.claims := rfl
@[simp] theorem State.nextLane_nextId (s : State) : (s.nextLane).nextId = s.nextId := rfl

/-! ### s.setTeam i t changes only `teams` -/

@[simp] theorem State.setTeam_tick (s : State) (i : Nat) (t : Team) : (s.setTeam i t).tick = s.tick := rfl
@[simp] theorem State.setTeam_agenda (s : State) (i : Nat) (t : Team) : (s.setTeam i t).agenda = s.agenda := rfl
@[simp] theorem State.setTeam_cur (s : State) (i : Nat) (t : Team) : (s.setTeam i t).cur = s.cur := rfl
@[simp] theorem State.setTeam_clock (s : State) (i : Nat) (t : Team) : (s.setTeam i t).clock = s.clock := rfl
@[simp] theorem State.setTeam_caps (s : State) (i : Nat) (t : Team) : (s.setTeam i t).caps = s.caps := rfl
@[simp] theorem State.setTeam_pkg (s : State) (i : Nat) (t : Team) : (s.setTeam i t).pkg = s.pkg := rfl
@[simp] theorem State.setTeam_variant (s : State) (i : Nat) (t : Team) : (s.setTeam i t).variant = s.variant := rfl
@[simp] theorem State.setTeam_mem (s : State) (i : Nat) (t : Team) : (s.setTeam i t).mem = s.mem := rfl
@[simp] theorem State.setTeam_ord (s : State) (i : Nat) (t : Team) : (s.setTeam i t).ord = s.ord := rfl
@[simp] theorem State.setTeam_hist (s : State) (i : Nat) (t : Team) : (s.setTeam i t).hist = s.hist := rfl
@[simp] theorem State.setTeam_poison (s : State) (i : Nat) (t : Team) : (s.setTeam i t).poison = s.poison := rfl
@[simp] theorem State.setTeam_dirty (s : State) (i : Nat) (t : Team) : (s.setTeam i t).dirty = s.dirty := rfl
@[simp] theorem State.setTeam_cpLines (s : State) (i : Nat) (t : Team) : (s.setTeam i t).cpLines = s.cpLines := rfl
@[simp] theorem State.setTeam_regs (s : State) (i : Nat) (t : Team) : (s.setTeam i t).regs = s.regs := rfl
@[simp] theorem State.setTeam_tlb (s : State) (i : Nat) (t : Team) : (s.setTeam i t).tlb = s.tlb := rfl
@[simp] theorem State.setTeam_walks (s : State) (i : Nat) (t : Team) : (s.setTeam i t).walks = s.walks := rfl
@[simp] theorem State.setTeam_late (s : State) (i : Nat) (t : Team) : (s.setTeam i t).late = s.late := rfl
@[simp] theorem State.setTeam_groups (s : State) (i : Nat) (t : Team) : (s.setTeam i t).groups = s.groups := rfl
@[simp] theorem State.setTeam_launches (s : State) (i : Nat) (t : Team) : (s.setTeam i t).launches = s.launches := rfl
@[simp] theorem State.setTeam_pipes (s : State) (i : Nat) (t : Team) : (s.setTeam i t).pipes = s.pipes := rfl
@[simp] theorem State.setTeam_barriers (s : State) (i : Nat) (t : Team) : (s.setTeam i t).barriers = s.barriers := rfl
@[simp] theorem State.setTeam_monitors (s : State) (i : Nat) (t : Team) : (s.setTeam i t).monitors = s.monitors := rfl
@[simp] theorem State.setTeam_places (s : State) (i : Nat) (t : Team) : (s.setTeam i t).places = s.places := rfl
@[simp] theorem State.setTeam_tiles (s : State) (i : Nat) (t : Team) : (s.setTeam i t).tiles = s.tiles := rfl
@[simp] theorem State.setTeam_tileTags (s : State) (i : Nat) (t : Team) : (s.setTeam i t).tileTags = s.tileTags := rfl
@[simp] theorem State.setTeam_tileOuts (s : State) (i : Nat) (t : Team) : (s.setTeam i t).tileOuts = s.tileOuts := rfl
@[simp] theorem State.setTeam_mops (s : State) (i : Nat) (t : Team) : (s.setTeam i t).mops = s.mops := rfl
@[simp] theorem State.setTeam_rendezvous (s : State) (i : Nat) (t : Team) : (s.setTeam i t).rendezvous = s.rendezvous := rfl
@[simp] theorem State.setTeam_cmds (s : State) (i : Nat) (t : Team) : (s.setTeam i t).cmds = s.cmds := rfl
@[simp] theorem State.setTeam_searches (s : State) (i : Nat) (t : Team) : (s.setTeam i t).searches = s.searches := rfl
@[simp] theorem State.setTeam_migrations (s : State) (i : Nat) (t : Team) : (s.setTeam i t).migrations = s.migrations := rfl
@[simp] theorem State.setTeam_owners (s : State) (i : Nat) (t : Team) : (s.setTeam i t).owners = s.owners := rfl
@[simp] theorem State.setTeam_badGpns (s : State) (i : Nat) (t : Team) : (s.setTeam i t).badGpns = s.badGpns := rfl
@[simp] theorem State.setTeam_migLines (s : State) (i : Nat) (t : Team) : (s.setTeam i t).migLines = s.migLines := rfl
@[simp] theorem State.setTeam_stubs (s : State) (i : Nat) (t : Team) : (s.setTeam i t).stubs = s.stubs := rfl
@[simp] theorem State.setTeam_redirects (s : State) (i : Nat) (t : Team) : (s.setTeam i t).redirects = s.redirects := rfl
@[simp] theorem State.setTeam_remote (s : State) (i : Nat) (t : Team) : (s.setTeam i t).remote = s.remote := rfl
@[simp] theorem State.setTeam_mcasts (s : State) (i : Nat) (t : Team) : (s.setTeam i t).mcasts = s.mcasts := rfl
@[simp] theorem State.setTeam_colls (s : State) (i : Nat) (t : Team) : (s.setTeam i t).colls = s.colls := rfl
@[simp] theorem State.setTeam_chunks (s : State) (i : Nat) (t : Team) : (s.setTeam i t).chunks = s.chunks := rfl
@[simp] theorem State.setTeam_arbiters (s : State) (i : Nat) (t : Team) : (s.setTeam i t).arbiters = s.arbiters := rfl
@[simp] theorem State.setTeam_chains (s : State) (i : Nat) (t : Team) : (s.setTeam i t).chains = s.chains := rfl
@[simp] theorem State.setTeam_probes (s : State) (i : Nat) (t : Team) : (s.setTeam i t).probes = s.probes := rfl
@[simp] theorem State.setTeam_draining (s : State) (i : Nat) (t : Team) : (s.setTeam i t).draining = s.draining := rfl
@[simp] theorem State.setTeam_qcache (s : State) (i : Nat) (t : Team) : (s.setTeam i t).qcache = s.qcache := rfl
@[simp] theorem State.setTeam_queues (s : State) (i : Nat) (t : Team) : (s.setTeam i t).queues = s.queues := rfl
@[simp] theorem State.setTeam_lanes (s : State) (i : Nat) (t : Team) : (s.setTeam i t).lanes = s.lanes := rfl
@[simp] theorem State.setTeam_laneStep (s : State) (i : Nat) (t : Team) : (s.setTeam i t).laneStep = s.laneStep := rfl
@[simp] theorem State.setTeam_laneNext (s : State) (i : Nat) (t : Team) : (s.setTeam i t).laneNext = s.laneNext := rfl
@[simp] theorem State.setTeam_sleepers (s : State) (i : Nat) (t : Team) : (s.setTeam i t).sleepers = s.sleepers := rfl
@[simp] theorem State.setTeam_sent (s : State) (i : Nat) (t : Team) : (s.setTeam i t).sent = s.sent := rfl
@[simp] theorem State.setTeam_recv (s : State) (i : Nat) (t : Team) : (s.setTeam i t).recv = s.recv := rfl
@[simp] theorem State.setTeam_pendInv (s : State) (i : Nat) (t : Team) : (s.setTeam i t).pendInv = s.pendInv := rfl
@[simp] theorem State.setTeam_pendAttr (s : State) (i : Nat) (t : Team) : (s.setTeam i t).pendAttr = s.pendAttr := rfl
@[simp] theorem State.setTeam_mixes (s : State) (i : Nat) (t : Team) : (s.setTeam i t).mixes = s.mixes := rfl
@[simp] theorem State.setTeam_seq (s : State) (i : Nat) (t : Team) : (s.setTeam i t).seq = s.seq := rfl
@[simp] theorem State.setTeam_held (s : State) (i : Nat) (t : Team) : (s.setTeam i t).held = s.held := rfl
@[simp] theorem State.setTeam_notes (s : State) (i : Nat) (t : Team) : (s.setTeam i t).notes = s.notes := rfl
@[simp] theorem State.setTeam_rowHits (s : State) (i : Nat) (t : Team) : (s.setTeam i t).rowHits = s.rowHits := rfl
@[simp] theorem State.setTeam_captured (s : State) (i : Nat) (t : Team) : (s.setTeam i t).captured = s.captured := rfl
@[simp] theorem State.setTeam_cacheLines (s : State) (i : Nat) (t : Team) : (s.setTeam i t).cacheLines = s.cacheLines := rfl
@[simp] theorem State.setTeam_baseOps (s : State) (i : Nat) (t : Team) : (s.setTeam i t).baseOps = s.baseOps := rfl
@[simp] theorem State.setTeam_writeQueue (s : State) (i : Nat) (t : Team) : (s.setTeam i t).writeQueue = s.writeQueue := rfl
@[simp] theorem State.setTeam_identKey (s : State) (i : Nat) (t : Team) : (s.setTeam i t).identKey = s.identKey := rfl
@[simp] theorem State.setTeam_digests (s : State) (i : Nat) (t : Team) : (s.setTeam i t).digests = s.digests := rfl
@[simp] theorem State.setTeam_report (s : State) (i : Nat) (t : Team) : (s.setTeam i t).report = s.report := rfl
@[simp] theorem State.setTeam_ueNotes (s : State) (i : Nat) (t : Team) : (s.setTeam i t).ueNotes = s.ueNotes := rfl
@[simp] theorem State.setTeam_claims (s : State) (i : Nat) (t : Team) : (s.setTeam i t).claims = s.claims := rfl
@[simp] theorem State.setTeam_nextId (s : State) (i : Nat) (t : Team) : (s.setTeam i t).nextId = s.nextId := rfl

/-! ### s.setLaunch i l changes only `launches` -/

@[simp] theorem State.setLaunch_tick (s : State) (i : Nat) (l : Launch) : (s.setLaunch i l).tick = s.tick := rfl
@[simp] theorem State.setLaunch_agenda (s : State) (i : Nat) (l : Launch) : (s.setLaunch i l).agenda = s.agenda := rfl
@[simp] theorem State.setLaunch_cur (s : State) (i : Nat) (l : Launch) : (s.setLaunch i l).cur = s.cur := rfl
@[simp] theorem State.setLaunch_clock (s : State) (i : Nat) (l : Launch) : (s.setLaunch i l).clock = s.clock := rfl
@[simp] theorem State.setLaunch_caps (s : State) (i : Nat) (l : Launch) : (s.setLaunch i l).caps = s.caps := rfl
@[simp] theorem State.setLaunch_pkg (s : State) (i : Nat) (l : Launch) : (s.setLaunch i l).pkg = s.pkg := rfl
@[simp] theorem State.setLaunch_variant (s : State) (i : Nat) (l : Launch) : (s.setLaunch i l).variant = s.variant := rfl
@[simp] theorem State.setLaunch_mem (s : State) (i : Nat) (l : Launch) : (s.setLaunch i l).mem = s.mem := rfl
@[simp] theorem State.setLaunch_ord (s : State) (i : Nat) (l : Launch) : (s.setLaunch i l).ord = s.ord := rfl
@[simp] theorem State.setLaunch_hist (s : State) (i : Nat) (l : Launch) : (s.setLaunch i l).hist = s.hist := rfl
@[simp] theorem State.setLaunch_poison (s : State) (i : Nat) (l : Launch) : (s.setLaunch i l).poison = s.poison := rfl
@[simp] theorem State.setLaunch_dirty (s : State) (i : Nat) (l : Launch) : (s.setLaunch i l).dirty = s.dirty := rfl
@[simp] theorem State.setLaunch_cpLines (s : State) (i : Nat) (l : Launch) : (s.setLaunch i l).cpLines = s.cpLines := rfl
@[simp] theorem State.setLaunch_regs (s : State) (i : Nat) (l : Launch) : (s.setLaunch i l).regs = s.regs := rfl
@[simp] theorem State.setLaunch_tlb (s : State) (i : Nat) (l : Launch) : (s.setLaunch i l).tlb = s.tlb := rfl
@[simp] theorem State.setLaunch_walks (s : State) (i : Nat) (l : Launch) : (s.setLaunch i l).walks = s.walks := rfl
@[simp] theorem State.setLaunch_late (s : State) (i : Nat) (l : Launch) : (s.setLaunch i l).late = s.late := rfl
@[simp] theorem State.setLaunch_groups (s : State) (i : Nat) (l : Launch) : (s.setLaunch i l).groups = s.groups := rfl
@[simp] theorem State.setLaunch_teams (s : State) (i : Nat) (l : Launch) : (s.setLaunch i l).teams = s.teams := rfl
@[simp] theorem State.setLaunch_pipes (s : State) (i : Nat) (l : Launch) : (s.setLaunch i l).pipes = s.pipes := rfl
@[simp] theorem State.setLaunch_barriers (s : State) (i : Nat) (l : Launch) : (s.setLaunch i l).barriers = s.barriers := rfl
@[simp] theorem State.setLaunch_monitors (s : State) (i : Nat) (l : Launch) : (s.setLaunch i l).monitors = s.monitors := rfl
@[simp] theorem State.setLaunch_places (s : State) (i : Nat) (l : Launch) : (s.setLaunch i l).places = s.places := rfl
@[simp] theorem State.setLaunch_tiles (s : State) (i : Nat) (l : Launch) : (s.setLaunch i l).tiles = s.tiles := rfl
@[simp] theorem State.setLaunch_tileTags (s : State) (i : Nat) (l : Launch) : (s.setLaunch i l).tileTags = s.tileTags := rfl
@[simp] theorem State.setLaunch_tileOuts (s : State) (i : Nat) (l : Launch) : (s.setLaunch i l).tileOuts = s.tileOuts := rfl
@[simp] theorem State.setLaunch_mops (s : State) (i : Nat) (l : Launch) : (s.setLaunch i l).mops = s.mops := rfl
@[simp] theorem State.setLaunch_rendezvous (s : State) (i : Nat) (l : Launch) : (s.setLaunch i l).rendezvous = s.rendezvous := rfl
@[simp] theorem State.setLaunch_cmds (s : State) (i : Nat) (l : Launch) : (s.setLaunch i l).cmds = s.cmds := rfl
@[simp] theorem State.setLaunch_searches (s : State) (i : Nat) (l : Launch) : (s.setLaunch i l).searches = s.searches := rfl
@[simp] theorem State.setLaunch_migrations (s : State) (i : Nat) (l : Launch) : (s.setLaunch i l).migrations = s.migrations := rfl
@[simp] theorem State.setLaunch_owners (s : State) (i : Nat) (l : Launch) : (s.setLaunch i l).owners = s.owners := rfl
@[simp] theorem State.setLaunch_badGpns (s : State) (i : Nat) (l : Launch) : (s.setLaunch i l).badGpns = s.badGpns := rfl
@[simp] theorem State.setLaunch_migLines (s : State) (i : Nat) (l : Launch) : (s.setLaunch i l).migLines = s.migLines := rfl
@[simp] theorem State.setLaunch_stubs (s : State) (i : Nat) (l : Launch) : (s.setLaunch i l).stubs = s.stubs := rfl
@[simp] theorem State.setLaunch_redirects (s : State) (i : Nat) (l : Launch) : (s.setLaunch i l).redirects = s.redirects := rfl
@[simp] theorem State.setLaunch_remote (s : State) (i : Nat) (l : Launch) : (s.setLaunch i l).remote = s.remote := rfl
@[simp] theorem State.setLaunch_mcasts (s : State) (i : Nat) (l : Launch) : (s.setLaunch i l).mcasts = s.mcasts := rfl
@[simp] theorem State.setLaunch_colls (s : State) (i : Nat) (l : Launch) : (s.setLaunch i l).colls = s.colls := rfl
@[simp] theorem State.setLaunch_chunks (s : State) (i : Nat) (l : Launch) : (s.setLaunch i l).chunks = s.chunks := rfl
@[simp] theorem State.setLaunch_arbiters (s : State) (i : Nat) (l : Launch) : (s.setLaunch i l).arbiters = s.arbiters := rfl
@[simp] theorem State.setLaunch_chains (s : State) (i : Nat) (l : Launch) : (s.setLaunch i l).chains = s.chains := rfl
@[simp] theorem State.setLaunch_probes (s : State) (i : Nat) (l : Launch) : (s.setLaunch i l).probes = s.probes := rfl
@[simp] theorem State.setLaunch_draining (s : State) (i : Nat) (l : Launch) : (s.setLaunch i l).draining = s.draining := rfl
@[simp] theorem State.setLaunch_qcache (s : State) (i : Nat) (l : Launch) : (s.setLaunch i l).qcache = s.qcache := rfl
@[simp] theorem State.setLaunch_queues (s : State) (i : Nat) (l : Launch) : (s.setLaunch i l).queues = s.queues := rfl
@[simp] theorem State.setLaunch_lanes (s : State) (i : Nat) (l : Launch) : (s.setLaunch i l).lanes = s.lanes := rfl
@[simp] theorem State.setLaunch_laneStep (s : State) (i : Nat) (l : Launch) : (s.setLaunch i l).laneStep = s.laneStep := rfl
@[simp] theorem State.setLaunch_laneNext (s : State) (i : Nat) (l : Launch) : (s.setLaunch i l).laneNext = s.laneNext := rfl
@[simp] theorem State.setLaunch_sleepers (s : State) (i : Nat) (l : Launch) : (s.setLaunch i l).sleepers = s.sleepers := rfl
@[simp] theorem State.setLaunch_sent (s : State) (i : Nat) (l : Launch) : (s.setLaunch i l).sent = s.sent := rfl
@[simp] theorem State.setLaunch_recv (s : State) (i : Nat) (l : Launch) : (s.setLaunch i l).recv = s.recv := rfl
@[simp] theorem State.setLaunch_pendInv (s : State) (i : Nat) (l : Launch) : (s.setLaunch i l).pendInv = s.pendInv := rfl
@[simp] theorem State.setLaunch_pendAttr (s : State) (i : Nat) (l : Launch) : (s.setLaunch i l).pendAttr = s.pendAttr := rfl
@[simp] theorem State.setLaunch_mixes (s : State) (i : Nat) (l : Launch) : (s.setLaunch i l).mixes = s.mixes := rfl
@[simp] theorem State.setLaunch_seq (s : State) (i : Nat) (l : Launch) : (s.setLaunch i l).seq = s.seq := rfl
@[simp] theorem State.setLaunch_held (s : State) (i : Nat) (l : Launch) : (s.setLaunch i l).held = s.held := rfl
@[simp] theorem State.setLaunch_notes (s : State) (i : Nat) (l : Launch) : (s.setLaunch i l).notes = s.notes := rfl
@[simp] theorem State.setLaunch_rowHits (s : State) (i : Nat) (l : Launch) : (s.setLaunch i l).rowHits = s.rowHits := rfl
@[simp] theorem State.setLaunch_captured (s : State) (i : Nat) (l : Launch) : (s.setLaunch i l).captured = s.captured := rfl
@[simp] theorem State.setLaunch_cacheLines (s : State) (i : Nat) (l : Launch) : (s.setLaunch i l).cacheLines = s.cacheLines := rfl
@[simp] theorem State.setLaunch_baseOps (s : State) (i : Nat) (l : Launch) : (s.setLaunch i l).baseOps = s.baseOps := rfl
@[simp] theorem State.setLaunch_writeQueue (s : State) (i : Nat) (l : Launch) : (s.setLaunch i l).writeQueue = s.writeQueue := rfl
@[simp] theorem State.setLaunch_identKey (s : State) (i : Nat) (l : Launch) : (s.setLaunch i l).identKey = s.identKey := rfl
@[simp] theorem State.setLaunch_digests (s : State) (i : Nat) (l : Launch) : (s.setLaunch i l).digests = s.digests := rfl
@[simp] theorem State.setLaunch_report (s : State) (i : Nat) (l : Launch) : (s.setLaunch i l).report = s.report := rfl
@[simp] theorem State.setLaunch_ueNotes (s : State) (i : Nat) (l : Launch) : (s.setLaunch i l).ueNotes = s.ueNotes := rfl
@[simp] theorem State.setLaunch_claims (s : State) (i : Nat) (l : Launch) : (s.setLaunch i l).claims = s.claims := rfl
@[simp] theorem State.setLaunch_nextId (s : State) (i : Nat) (l : Launch) : (s.setLaunch i l).nextId = s.nextId := rfl

/-! ### s.setQueue q r changes only `queues` -/

@[simp] theorem State.setQueue_tick (s : State) (q : Nat) (r : QRun) : (s.setQueue q r).tick = s.tick := rfl
@[simp] theorem State.setQueue_agenda (s : State) (q : Nat) (r : QRun) : (s.setQueue q r).agenda = s.agenda := rfl
@[simp] theorem State.setQueue_cur (s : State) (q : Nat) (r : QRun) : (s.setQueue q r).cur = s.cur := rfl
@[simp] theorem State.setQueue_clock (s : State) (q : Nat) (r : QRun) : (s.setQueue q r).clock = s.clock := rfl
@[simp] theorem State.setQueue_caps (s : State) (q : Nat) (r : QRun) : (s.setQueue q r).caps = s.caps := rfl
@[simp] theorem State.setQueue_pkg (s : State) (q : Nat) (r : QRun) : (s.setQueue q r).pkg = s.pkg := rfl
@[simp] theorem State.setQueue_variant (s : State) (q : Nat) (r : QRun) : (s.setQueue q r).variant = s.variant := rfl
@[simp] theorem State.setQueue_mem (s : State) (q : Nat) (r : QRun) : (s.setQueue q r).mem = s.mem := rfl
@[simp] theorem State.setQueue_ord (s : State) (q : Nat) (r : QRun) : (s.setQueue q r).ord = s.ord := rfl
@[simp] theorem State.setQueue_hist (s : State) (q : Nat) (r : QRun) : (s.setQueue q r).hist = s.hist := rfl
@[simp] theorem State.setQueue_poison (s : State) (q : Nat) (r : QRun) : (s.setQueue q r).poison = s.poison := rfl
@[simp] theorem State.setQueue_dirty (s : State) (q : Nat) (r : QRun) : (s.setQueue q r).dirty = s.dirty := rfl
@[simp] theorem State.setQueue_cpLines (s : State) (q : Nat) (r : QRun) : (s.setQueue q r).cpLines = s.cpLines := rfl
@[simp] theorem State.setQueue_regs (s : State) (q : Nat) (r : QRun) : (s.setQueue q r).regs = s.regs := rfl
@[simp] theorem State.setQueue_tlb (s : State) (q : Nat) (r : QRun) : (s.setQueue q r).tlb = s.tlb := rfl
@[simp] theorem State.setQueue_walks (s : State) (q : Nat) (r : QRun) : (s.setQueue q r).walks = s.walks := rfl
@[simp] theorem State.setQueue_late (s : State) (q : Nat) (r : QRun) : (s.setQueue q r).late = s.late := rfl
@[simp] theorem State.setQueue_groups (s : State) (q : Nat) (r : QRun) : (s.setQueue q r).groups = s.groups := rfl
@[simp] theorem State.setQueue_teams (s : State) (q : Nat) (r : QRun) : (s.setQueue q r).teams = s.teams := rfl
@[simp] theorem State.setQueue_launches (s : State) (q : Nat) (r : QRun) : (s.setQueue q r).launches = s.launches := rfl
@[simp] theorem State.setQueue_pipes (s : State) (q : Nat) (r : QRun) : (s.setQueue q r).pipes = s.pipes := rfl
@[simp] theorem State.setQueue_barriers (s : State) (q : Nat) (r : QRun) : (s.setQueue q r).barriers = s.barriers := rfl
@[simp] theorem State.setQueue_monitors (s : State) (q : Nat) (r : QRun) : (s.setQueue q r).monitors = s.monitors := rfl
@[simp] theorem State.setQueue_places (s : State) (q : Nat) (r : QRun) : (s.setQueue q r).places = s.places := rfl
@[simp] theorem State.setQueue_tiles (s : State) (q : Nat) (r : QRun) : (s.setQueue q r).tiles = s.tiles := rfl
@[simp] theorem State.setQueue_tileTags (s : State) (q : Nat) (r : QRun) : (s.setQueue q r).tileTags = s.tileTags := rfl
@[simp] theorem State.setQueue_tileOuts (s : State) (q : Nat) (r : QRun) : (s.setQueue q r).tileOuts = s.tileOuts := rfl
@[simp] theorem State.setQueue_mops (s : State) (q : Nat) (r : QRun) : (s.setQueue q r).mops = s.mops := rfl
@[simp] theorem State.setQueue_rendezvous (s : State) (q : Nat) (r : QRun) : (s.setQueue q r).rendezvous = s.rendezvous := rfl
@[simp] theorem State.setQueue_cmds (s : State) (q : Nat) (r : QRun) : (s.setQueue q r).cmds = s.cmds := rfl
@[simp] theorem State.setQueue_searches (s : State) (q : Nat) (r : QRun) : (s.setQueue q r).searches = s.searches := rfl
@[simp] theorem State.setQueue_migrations (s : State) (q : Nat) (r : QRun) : (s.setQueue q r).migrations = s.migrations := rfl
@[simp] theorem State.setQueue_owners (s : State) (q : Nat) (r : QRun) : (s.setQueue q r).owners = s.owners := rfl
@[simp] theorem State.setQueue_badGpns (s : State) (q : Nat) (r : QRun) : (s.setQueue q r).badGpns = s.badGpns := rfl
@[simp] theorem State.setQueue_migLines (s : State) (q : Nat) (r : QRun) : (s.setQueue q r).migLines = s.migLines := rfl
@[simp] theorem State.setQueue_stubs (s : State) (q : Nat) (r : QRun) : (s.setQueue q r).stubs = s.stubs := rfl
@[simp] theorem State.setQueue_redirects (s : State) (q : Nat) (r : QRun) : (s.setQueue q r).redirects = s.redirects := rfl
@[simp] theorem State.setQueue_remote (s : State) (q : Nat) (r : QRun) : (s.setQueue q r).remote = s.remote := rfl
@[simp] theorem State.setQueue_mcasts (s : State) (q : Nat) (r : QRun) : (s.setQueue q r).mcasts = s.mcasts := rfl
@[simp] theorem State.setQueue_colls (s : State) (q : Nat) (r : QRun) : (s.setQueue q r).colls = s.colls := rfl
@[simp] theorem State.setQueue_chunks (s : State) (q : Nat) (r : QRun) : (s.setQueue q r).chunks = s.chunks := rfl
@[simp] theorem State.setQueue_arbiters (s : State) (q : Nat) (r : QRun) : (s.setQueue q r).arbiters = s.arbiters := rfl
@[simp] theorem State.setQueue_chains (s : State) (q : Nat) (r : QRun) : (s.setQueue q r).chains = s.chains := rfl
@[simp] theorem State.setQueue_probes (s : State) (q : Nat) (r : QRun) : (s.setQueue q r).probes = s.probes := rfl
@[simp] theorem State.setQueue_draining (s : State) (q : Nat) (r : QRun) : (s.setQueue q r).draining = s.draining := rfl
@[simp] theorem State.setQueue_qcache (s : State) (q : Nat) (r : QRun) : (s.setQueue q r).qcache = s.qcache := rfl
@[simp] theorem State.setQueue_lanes (s : State) (q : Nat) (r : QRun) : (s.setQueue q r).lanes = s.lanes := rfl
@[simp] theorem State.setQueue_laneStep (s : State) (q : Nat) (r : QRun) : (s.setQueue q r).laneStep = s.laneStep := rfl
@[simp] theorem State.setQueue_laneNext (s : State) (q : Nat) (r : QRun) : (s.setQueue q r).laneNext = s.laneNext := rfl
@[simp] theorem State.setQueue_sleepers (s : State) (q : Nat) (r : QRun) : (s.setQueue q r).sleepers = s.sleepers := rfl
@[simp] theorem State.setQueue_sent (s : State) (q : Nat) (r : QRun) : (s.setQueue q r).sent = s.sent := rfl
@[simp] theorem State.setQueue_recv (s : State) (q : Nat) (r : QRun) : (s.setQueue q r).recv = s.recv := rfl
@[simp] theorem State.setQueue_pendInv (s : State) (q : Nat) (r : QRun) : (s.setQueue q r).pendInv = s.pendInv := rfl
@[simp] theorem State.setQueue_pendAttr (s : State) (q : Nat) (r : QRun) : (s.setQueue q r).pendAttr = s.pendAttr := rfl
@[simp] theorem State.setQueue_mixes (s : State) (q : Nat) (r : QRun) : (s.setQueue q r).mixes = s.mixes := rfl
@[simp] theorem State.setQueue_seq (s : State) (q : Nat) (r : QRun) : (s.setQueue q r).seq = s.seq := rfl
@[simp] theorem State.setQueue_held (s : State) (q : Nat) (r : QRun) : (s.setQueue q r).held = s.held := rfl
@[simp] theorem State.setQueue_notes (s : State) (q : Nat) (r : QRun) : (s.setQueue q r).notes = s.notes := rfl
@[simp] theorem State.setQueue_rowHits (s : State) (q : Nat) (r : QRun) : (s.setQueue q r).rowHits = s.rowHits := rfl
@[simp] theorem State.setQueue_captured (s : State) (q : Nat) (r : QRun) : (s.setQueue q r).captured = s.captured := rfl
@[simp] theorem State.setQueue_cacheLines (s : State) (q : Nat) (r : QRun) : (s.setQueue q r).cacheLines = s.cacheLines := rfl
@[simp] theorem State.setQueue_baseOps (s : State) (q : Nat) (r : QRun) : (s.setQueue q r).baseOps = s.baseOps := rfl
@[simp] theorem State.setQueue_writeQueue (s : State) (q : Nat) (r : QRun) : (s.setQueue q r).writeQueue = s.writeQueue := rfl
@[simp] theorem State.setQueue_identKey (s : State) (q : Nat) (r : QRun) : (s.setQueue q r).identKey = s.identKey := rfl
@[simp] theorem State.setQueue_digests (s : State) (q : Nat) (r : QRun) : (s.setQueue q r).digests = s.digests := rfl
@[simp] theorem State.setQueue_report (s : State) (q : Nat) (r : QRun) : (s.setQueue q r).report = s.report := rfl
@[simp] theorem State.setQueue_ueNotes (s : State) (q : Nat) (r : QRun) : (s.setQueue q r).ueNotes = s.ueNotes := rfl
@[simp] theorem State.setQueue_claims (s : State) (q : Nat) (r : QRun) : (s.setQueue q r).claims = s.claims := rfl
@[simp] theorem State.setQueue_nextId (s : State) (q : Nat) (r : QRun) : (s.setQueue q r).nextId = s.nextId := rfl

/-! ### s.setBarrier k b changes only `barriers` -/

@[simp] theorem State.setBarrier_tick (s : State) (k : Nat) (b : Barrier) : (s.setBarrier k b).tick = s.tick := rfl
@[simp] theorem State.setBarrier_agenda (s : State) (k : Nat) (b : Barrier) : (s.setBarrier k b).agenda = s.agenda := rfl
@[simp] theorem State.setBarrier_cur (s : State) (k : Nat) (b : Barrier) : (s.setBarrier k b).cur = s.cur := rfl
@[simp] theorem State.setBarrier_clock (s : State) (k : Nat) (b : Barrier) : (s.setBarrier k b).clock = s.clock := rfl
@[simp] theorem State.setBarrier_caps (s : State) (k : Nat) (b : Barrier) : (s.setBarrier k b).caps = s.caps := rfl
@[simp] theorem State.setBarrier_pkg (s : State) (k : Nat) (b : Barrier) : (s.setBarrier k b).pkg = s.pkg := rfl
@[simp] theorem State.setBarrier_variant (s : State) (k : Nat) (b : Barrier) : (s.setBarrier k b).variant = s.variant := rfl
@[simp] theorem State.setBarrier_mem (s : State) (k : Nat) (b : Barrier) : (s.setBarrier k b).mem = s.mem := rfl
@[simp] theorem State.setBarrier_ord (s : State) (k : Nat) (b : Barrier) : (s.setBarrier k b).ord = s.ord := rfl
@[simp] theorem State.setBarrier_hist (s : State) (k : Nat) (b : Barrier) : (s.setBarrier k b).hist = s.hist := rfl
@[simp] theorem State.setBarrier_poison (s : State) (k : Nat) (b : Barrier) : (s.setBarrier k b).poison = s.poison := rfl
@[simp] theorem State.setBarrier_dirty (s : State) (k : Nat) (b : Barrier) : (s.setBarrier k b).dirty = s.dirty := rfl
@[simp] theorem State.setBarrier_cpLines (s : State) (k : Nat) (b : Barrier) : (s.setBarrier k b).cpLines = s.cpLines := rfl
@[simp] theorem State.setBarrier_regs (s : State) (k : Nat) (b : Barrier) : (s.setBarrier k b).regs = s.regs := rfl
@[simp] theorem State.setBarrier_tlb (s : State) (k : Nat) (b : Barrier) : (s.setBarrier k b).tlb = s.tlb := rfl
@[simp] theorem State.setBarrier_walks (s : State) (k : Nat) (b : Barrier) : (s.setBarrier k b).walks = s.walks := rfl
@[simp] theorem State.setBarrier_late (s : State) (k : Nat) (b : Barrier) : (s.setBarrier k b).late = s.late := rfl
@[simp] theorem State.setBarrier_groups (s : State) (k : Nat) (b : Barrier) : (s.setBarrier k b).groups = s.groups := rfl
@[simp] theorem State.setBarrier_teams (s : State) (k : Nat) (b : Barrier) : (s.setBarrier k b).teams = s.teams := rfl
@[simp] theorem State.setBarrier_launches (s : State) (k : Nat) (b : Barrier) : (s.setBarrier k b).launches = s.launches := rfl
@[simp] theorem State.setBarrier_pipes (s : State) (k : Nat) (b : Barrier) : (s.setBarrier k b).pipes = s.pipes := rfl
@[simp] theorem State.setBarrier_monitors (s : State) (k : Nat) (b : Barrier) : (s.setBarrier k b).monitors = s.monitors := rfl
@[simp] theorem State.setBarrier_places (s : State) (k : Nat) (b : Barrier) : (s.setBarrier k b).places = s.places := rfl
@[simp] theorem State.setBarrier_tiles (s : State) (k : Nat) (b : Barrier) : (s.setBarrier k b).tiles = s.tiles := rfl
@[simp] theorem State.setBarrier_tileTags (s : State) (k : Nat) (b : Barrier) : (s.setBarrier k b).tileTags = s.tileTags := rfl
@[simp] theorem State.setBarrier_tileOuts (s : State) (k : Nat) (b : Barrier) : (s.setBarrier k b).tileOuts = s.tileOuts := rfl
@[simp] theorem State.setBarrier_mops (s : State) (k : Nat) (b : Barrier) : (s.setBarrier k b).mops = s.mops := rfl
@[simp] theorem State.setBarrier_rendezvous (s : State) (k : Nat) (b : Barrier) : (s.setBarrier k b).rendezvous = s.rendezvous := rfl
@[simp] theorem State.setBarrier_cmds (s : State) (k : Nat) (b : Barrier) : (s.setBarrier k b).cmds = s.cmds := rfl
@[simp] theorem State.setBarrier_searches (s : State) (k : Nat) (b : Barrier) : (s.setBarrier k b).searches = s.searches := rfl
@[simp] theorem State.setBarrier_migrations (s : State) (k : Nat) (b : Barrier) : (s.setBarrier k b).migrations = s.migrations := rfl
@[simp] theorem State.setBarrier_owners (s : State) (k : Nat) (b : Barrier) : (s.setBarrier k b).owners = s.owners := rfl
@[simp] theorem State.setBarrier_badGpns (s : State) (k : Nat) (b : Barrier) : (s.setBarrier k b).badGpns = s.badGpns := rfl
@[simp] theorem State.setBarrier_migLines (s : State) (k : Nat) (b : Barrier) : (s.setBarrier k b).migLines = s.migLines := rfl
@[simp] theorem State.setBarrier_stubs (s : State) (k : Nat) (b : Barrier) : (s.setBarrier k b).stubs = s.stubs := rfl
@[simp] theorem State.setBarrier_redirects (s : State) (k : Nat) (b : Barrier) : (s.setBarrier k b).redirects = s.redirects := rfl
@[simp] theorem State.setBarrier_remote (s : State) (k : Nat) (b : Barrier) : (s.setBarrier k b).remote = s.remote := rfl
@[simp] theorem State.setBarrier_mcasts (s : State) (k : Nat) (b : Barrier) : (s.setBarrier k b).mcasts = s.mcasts := rfl
@[simp] theorem State.setBarrier_colls (s : State) (k : Nat) (b : Barrier) : (s.setBarrier k b).colls = s.colls := rfl
@[simp] theorem State.setBarrier_chunks (s : State) (k : Nat) (b : Barrier) : (s.setBarrier k b).chunks = s.chunks := rfl
@[simp] theorem State.setBarrier_arbiters (s : State) (k : Nat) (b : Barrier) : (s.setBarrier k b).arbiters = s.arbiters := rfl
@[simp] theorem State.setBarrier_chains (s : State) (k : Nat) (b : Barrier) : (s.setBarrier k b).chains = s.chains := rfl
@[simp] theorem State.setBarrier_probes (s : State) (k : Nat) (b : Barrier) : (s.setBarrier k b).probes = s.probes := rfl
@[simp] theorem State.setBarrier_draining (s : State) (k : Nat) (b : Barrier) : (s.setBarrier k b).draining = s.draining := rfl
@[simp] theorem State.setBarrier_qcache (s : State) (k : Nat) (b : Barrier) : (s.setBarrier k b).qcache = s.qcache := rfl
@[simp] theorem State.setBarrier_queues (s : State) (k : Nat) (b : Barrier) : (s.setBarrier k b).queues = s.queues := rfl
@[simp] theorem State.setBarrier_lanes (s : State) (k : Nat) (b : Barrier) : (s.setBarrier k b).lanes = s.lanes := rfl
@[simp] theorem State.setBarrier_laneStep (s : State) (k : Nat) (b : Barrier) : (s.setBarrier k b).laneStep = s.laneStep := rfl
@[simp] theorem State.setBarrier_laneNext (s : State) (k : Nat) (b : Barrier) : (s.setBarrier k b).laneNext = s.laneNext := rfl
@[simp] theorem State.setBarrier_sleepers (s : State) (k : Nat) (b : Barrier) : (s.setBarrier k b).sleepers = s.sleepers := rfl
@[simp] theorem State.setBarrier_sent (s : State) (k : Nat) (b : Barrier) : (s.setBarrier k b).sent = s.sent := rfl
@[simp] theorem State.setBarrier_recv (s : State) (k : Nat) (b : Barrier) : (s.setBarrier k b).recv = s.recv := rfl
@[simp] theorem State.setBarrier_pendInv (s : State) (k : Nat) (b : Barrier) : (s.setBarrier k b).pendInv = s.pendInv := rfl
@[simp] theorem State.setBarrier_pendAttr (s : State) (k : Nat) (b : Barrier) : (s.setBarrier k b).pendAttr = s.pendAttr := rfl
@[simp] theorem State.setBarrier_mixes (s : State) (k : Nat) (b : Barrier) : (s.setBarrier k b).mixes = s.mixes := rfl
@[simp] theorem State.setBarrier_seq (s : State) (k : Nat) (b : Barrier) : (s.setBarrier k b).seq = s.seq := rfl
@[simp] theorem State.setBarrier_held (s : State) (k : Nat) (b : Barrier) : (s.setBarrier k b).held = s.held := rfl
@[simp] theorem State.setBarrier_notes (s : State) (k : Nat) (b : Barrier) : (s.setBarrier k b).notes = s.notes := rfl
@[simp] theorem State.setBarrier_rowHits (s : State) (k : Nat) (b : Barrier) : (s.setBarrier k b).rowHits = s.rowHits := rfl
@[simp] theorem State.setBarrier_captured (s : State) (k : Nat) (b : Barrier) : (s.setBarrier k b).captured = s.captured := rfl
@[simp] theorem State.setBarrier_cacheLines (s : State) (k : Nat) (b : Barrier) : (s.setBarrier k b).cacheLines = s.cacheLines := rfl
@[simp] theorem State.setBarrier_baseOps (s : State) (k : Nat) (b : Barrier) : (s.setBarrier k b).baseOps = s.baseOps := rfl
@[simp] theorem State.setBarrier_writeQueue (s : State) (k : Nat) (b : Barrier) : (s.setBarrier k b).writeQueue = s.writeQueue := rfl
@[simp] theorem State.setBarrier_identKey (s : State) (k : Nat) (b : Barrier) : (s.setBarrier k b).identKey = s.identKey := rfl
@[simp] theorem State.setBarrier_digests (s : State) (k : Nat) (b : Barrier) : (s.setBarrier k b).digests = s.digests := rfl
@[simp] theorem State.setBarrier_report (s : State) (k : Nat) (b : Barrier) : (s.setBarrier k b).report = s.report := rfl
@[simp] theorem State.setBarrier_ueNotes (s : State) (k : Nat) (b : Barrier) : (s.setBarrier k b).ueNotes = s.ueNotes := rfl
@[simp] theorem State.setBarrier_claims (s : State) (k : Nat) (b : Barrier) : (s.setBarrier k b).claims = s.claims := rfl
@[simp] theorem State.setBarrier_nextId (s : State) (k : Nat) (b : Barrier) : (s.setBarrier k b).nextId = s.nextId := rfl

/-! ### s.setPlace sl i r changes only `places` -/

@[simp] theorem State.setPlace_tick (s : State) (sl i : Nat) (r : PlaceRec) : (s.setPlace sl i r).tick = s.tick := rfl
@[simp] theorem State.setPlace_agenda (s : State) (sl i : Nat) (r : PlaceRec) : (s.setPlace sl i r).agenda = s.agenda := rfl
@[simp] theorem State.setPlace_cur (s : State) (sl i : Nat) (r : PlaceRec) : (s.setPlace sl i r).cur = s.cur := rfl
@[simp] theorem State.setPlace_clock (s : State) (sl i : Nat) (r : PlaceRec) : (s.setPlace sl i r).clock = s.clock := rfl
@[simp] theorem State.setPlace_caps (s : State) (sl i : Nat) (r : PlaceRec) : (s.setPlace sl i r).caps = s.caps := rfl
@[simp] theorem State.setPlace_pkg (s : State) (sl i : Nat) (r : PlaceRec) : (s.setPlace sl i r).pkg = s.pkg := rfl
@[simp] theorem State.setPlace_variant (s : State) (sl i : Nat) (r : PlaceRec) : (s.setPlace sl i r).variant = s.variant := rfl
@[simp] theorem State.setPlace_mem (s : State) (sl i : Nat) (r : PlaceRec) : (s.setPlace sl i r).mem = s.mem := rfl
@[simp] theorem State.setPlace_ord (s : State) (sl i : Nat) (r : PlaceRec) : (s.setPlace sl i r).ord = s.ord := rfl
@[simp] theorem State.setPlace_hist (s : State) (sl i : Nat) (r : PlaceRec) : (s.setPlace sl i r).hist = s.hist := rfl
@[simp] theorem State.setPlace_poison (s : State) (sl i : Nat) (r : PlaceRec) : (s.setPlace sl i r).poison = s.poison := rfl
@[simp] theorem State.setPlace_dirty (s : State) (sl i : Nat) (r : PlaceRec) : (s.setPlace sl i r).dirty = s.dirty := rfl
@[simp] theorem State.setPlace_cpLines (s : State) (sl i : Nat) (r : PlaceRec) : (s.setPlace sl i r).cpLines = s.cpLines := rfl
@[simp] theorem State.setPlace_regs (s : State) (sl i : Nat) (r : PlaceRec) : (s.setPlace sl i r).regs = s.regs := rfl
@[simp] theorem State.setPlace_tlb (s : State) (sl i : Nat) (r : PlaceRec) : (s.setPlace sl i r).tlb = s.tlb := rfl
@[simp] theorem State.setPlace_walks (s : State) (sl i : Nat) (r : PlaceRec) : (s.setPlace sl i r).walks = s.walks := rfl
@[simp] theorem State.setPlace_late (s : State) (sl i : Nat) (r : PlaceRec) : (s.setPlace sl i r).late = s.late := rfl
@[simp] theorem State.setPlace_groups (s : State) (sl i : Nat) (r : PlaceRec) : (s.setPlace sl i r).groups = s.groups := rfl
@[simp] theorem State.setPlace_teams (s : State) (sl i : Nat) (r : PlaceRec) : (s.setPlace sl i r).teams = s.teams := rfl
@[simp] theorem State.setPlace_launches (s : State) (sl i : Nat) (r : PlaceRec) : (s.setPlace sl i r).launches = s.launches := rfl
@[simp] theorem State.setPlace_pipes (s : State) (sl i : Nat) (r : PlaceRec) : (s.setPlace sl i r).pipes = s.pipes := rfl
@[simp] theorem State.setPlace_barriers (s : State) (sl i : Nat) (r : PlaceRec) : (s.setPlace sl i r).barriers = s.barriers := rfl
@[simp] theorem State.setPlace_monitors (s : State) (sl i : Nat) (r : PlaceRec) : (s.setPlace sl i r).monitors = s.monitors := rfl
@[simp] theorem State.setPlace_tiles (s : State) (sl i : Nat) (r : PlaceRec) : (s.setPlace sl i r).tiles = s.tiles := rfl
@[simp] theorem State.setPlace_tileTags (s : State) (sl i : Nat) (r : PlaceRec) : (s.setPlace sl i r).tileTags = s.tileTags := rfl
@[simp] theorem State.setPlace_tileOuts (s : State) (sl i : Nat) (r : PlaceRec) : (s.setPlace sl i r).tileOuts = s.tileOuts := rfl
@[simp] theorem State.setPlace_mops (s : State) (sl i : Nat) (r : PlaceRec) : (s.setPlace sl i r).mops = s.mops := rfl
@[simp] theorem State.setPlace_rendezvous (s : State) (sl i : Nat) (r : PlaceRec) : (s.setPlace sl i r).rendezvous = s.rendezvous := rfl
@[simp] theorem State.setPlace_cmds (s : State) (sl i : Nat) (r : PlaceRec) : (s.setPlace sl i r).cmds = s.cmds := rfl
@[simp] theorem State.setPlace_searches (s : State) (sl i : Nat) (r : PlaceRec) : (s.setPlace sl i r).searches = s.searches := rfl
@[simp] theorem State.setPlace_migrations (s : State) (sl i : Nat) (r : PlaceRec) : (s.setPlace sl i r).migrations = s.migrations := rfl
@[simp] theorem State.setPlace_owners (s : State) (sl i : Nat) (r : PlaceRec) : (s.setPlace sl i r).owners = s.owners := rfl
@[simp] theorem State.setPlace_badGpns (s : State) (sl i : Nat) (r : PlaceRec) : (s.setPlace sl i r).badGpns = s.badGpns := rfl
@[simp] theorem State.setPlace_migLines (s : State) (sl i : Nat) (r : PlaceRec) : (s.setPlace sl i r).migLines = s.migLines := rfl
@[simp] theorem State.setPlace_stubs (s : State) (sl i : Nat) (r : PlaceRec) : (s.setPlace sl i r).stubs = s.stubs := rfl
@[simp] theorem State.setPlace_redirects (s : State) (sl i : Nat) (r : PlaceRec) : (s.setPlace sl i r).redirects = s.redirects := rfl
@[simp] theorem State.setPlace_remote (s : State) (sl i : Nat) (r : PlaceRec) : (s.setPlace sl i r).remote = s.remote := rfl
@[simp] theorem State.setPlace_mcasts (s : State) (sl i : Nat) (r : PlaceRec) : (s.setPlace sl i r).mcasts = s.mcasts := rfl
@[simp] theorem State.setPlace_colls (s : State) (sl i : Nat) (r : PlaceRec) : (s.setPlace sl i r).colls = s.colls := rfl
@[simp] theorem State.setPlace_chunks (s : State) (sl i : Nat) (r : PlaceRec) : (s.setPlace sl i r).chunks = s.chunks := rfl
@[simp] theorem State.setPlace_arbiters (s : State) (sl i : Nat) (r : PlaceRec) : (s.setPlace sl i r).arbiters = s.arbiters := rfl
@[simp] theorem State.setPlace_chains (s : State) (sl i : Nat) (r : PlaceRec) : (s.setPlace sl i r).chains = s.chains := rfl
@[simp] theorem State.setPlace_probes (s : State) (sl i : Nat) (r : PlaceRec) : (s.setPlace sl i r).probes = s.probes := rfl
@[simp] theorem State.setPlace_draining (s : State) (sl i : Nat) (r : PlaceRec) : (s.setPlace sl i r).draining = s.draining := rfl
@[simp] theorem State.setPlace_qcache (s : State) (sl i : Nat) (r : PlaceRec) : (s.setPlace sl i r).qcache = s.qcache := rfl
@[simp] theorem State.setPlace_queues (s : State) (sl i : Nat) (r : PlaceRec) : (s.setPlace sl i r).queues = s.queues := rfl
@[simp] theorem State.setPlace_lanes (s : State) (sl i : Nat) (r : PlaceRec) : (s.setPlace sl i r).lanes = s.lanes := rfl
@[simp] theorem State.setPlace_laneStep (s : State) (sl i : Nat) (r : PlaceRec) : (s.setPlace sl i r).laneStep = s.laneStep := rfl
@[simp] theorem State.setPlace_laneNext (s : State) (sl i : Nat) (r : PlaceRec) : (s.setPlace sl i r).laneNext = s.laneNext := rfl
@[simp] theorem State.setPlace_sleepers (s : State) (sl i : Nat) (r : PlaceRec) : (s.setPlace sl i r).sleepers = s.sleepers := rfl
@[simp] theorem State.setPlace_sent (s : State) (sl i : Nat) (r : PlaceRec) : (s.setPlace sl i r).sent = s.sent := rfl
@[simp] theorem State.setPlace_recv (s : State) (sl i : Nat) (r : PlaceRec) : (s.setPlace sl i r).recv = s.recv := rfl
@[simp] theorem State.setPlace_pendInv (s : State) (sl i : Nat) (r : PlaceRec) : (s.setPlace sl i r).pendInv = s.pendInv := rfl
@[simp] theorem State.setPlace_pendAttr (s : State) (sl i : Nat) (r : PlaceRec) : (s.setPlace sl i r).pendAttr = s.pendAttr := rfl
@[simp] theorem State.setPlace_mixes (s : State) (sl i : Nat) (r : PlaceRec) : (s.setPlace sl i r).mixes = s.mixes := rfl
@[simp] theorem State.setPlace_seq (s : State) (sl i : Nat) (r : PlaceRec) : (s.setPlace sl i r).seq = s.seq := rfl
@[simp] theorem State.setPlace_held (s : State) (sl i : Nat) (r : PlaceRec) : (s.setPlace sl i r).held = s.held := rfl
@[simp] theorem State.setPlace_notes (s : State) (sl i : Nat) (r : PlaceRec) : (s.setPlace sl i r).notes = s.notes := rfl
@[simp] theorem State.setPlace_rowHits (s : State) (sl i : Nat) (r : PlaceRec) : (s.setPlace sl i r).rowHits = s.rowHits := rfl
@[simp] theorem State.setPlace_captured (s : State) (sl i : Nat) (r : PlaceRec) : (s.setPlace sl i r).captured = s.captured := rfl
@[simp] theorem State.setPlace_cacheLines (s : State) (sl i : Nat) (r : PlaceRec) : (s.setPlace sl i r).cacheLines = s.cacheLines := rfl
@[simp] theorem State.setPlace_baseOps (s : State) (sl i : Nat) (r : PlaceRec) : (s.setPlace sl i r).baseOps = s.baseOps := rfl
@[simp] theorem State.setPlace_writeQueue (s : State) (sl i : Nat) (r : PlaceRec) : (s.setPlace sl i r).writeQueue = s.writeQueue := rfl
@[simp] theorem State.setPlace_identKey (s : State) (sl i : Nat) (r : PlaceRec) : (s.setPlace sl i r).identKey = s.identKey := rfl
@[simp] theorem State.setPlace_digests (s : State) (sl i : Nat) (r : PlaceRec) : (s.setPlace sl i r).digests = s.digests := rfl
@[simp] theorem State.setPlace_report (s : State) (sl i : Nat) (r : PlaceRec) : (s.setPlace sl i r).report = s.report := rfl
@[simp] theorem State.setPlace_ueNotes (s : State) (sl i : Nat) (r : PlaceRec) : (s.setPlace sl i r).ueNotes = s.ueNotes := rfl
@[simp] theorem State.setPlace_claims (s : State) (sl i : Nat) (r : PlaceRec) : (s.setPlace sl i r).claims = s.claims := rfl
@[simp] theorem State.setPlace_nextId (s : State) (sl i : Nat) (r : PlaceRec) : (s.setPlace sl i r).nextId = s.nextId := rfl

/-! ### regSet s a v changes only `regs` -/

@[simp] theorem regSet_tick (s : State) (a : Nat) (v : Dword) : (regSet s a v).tick = s.tick := rfl
@[simp] theorem regSet_agenda (s : State) (a : Nat) (v : Dword) : (regSet s a v).agenda = s.agenda := rfl
@[simp] theorem regSet_cur (s : State) (a : Nat) (v : Dword) : (regSet s a v).cur = s.cur := rfl
@[simp] theorem regSet_clock (s : State) (a : Nat) (v : Dword) : (regSet s a v).clock = s.clock := rfl
@[simp] theorem regSet_caps (s : State) (a : Nat) (v : Dword) : (regSet s a v).caps = s.caps := rfl
@[simp] theorem regSet_pkg (s : State) (a : Nat) (v : Dword) : (regSet s a v).pkg = s.pkg := rfl
@[simp] theorem regSet_variant (s : State) (a : Nat) (v : Dword) : (regSet s a v).variant = s.variant := rfl
@[simp] theorem regSet_mem (s : State) (a : Nat) (v : Dword) : (regSet s a v).mem = s.mem := rfl
@[simp] theorem regSet_ord (s : State) (a : Nat) (v : Dword) : (regSet s a v).ord = s.ord := rfl
@[simp] theorem regSet_hist (s : State) (a : Nat) (v : Dword) : (regSet s a v).hist = s.hist := rfl
@[simp] theorem regSet_poison (s : State) (a : Nat) (v : Dword) : (regSet s a v).poison = s.poison := rfl
@[simp] theorem regSet_dirty (s : State) (a : Nat) (v : Dword) : (regSet s a v).dirty = s.dirty := rfl
@[simp] theorem regSet_cpLines (s : State) (a : Nat) (v : Dword) : (regSet s a v).cpLines = s.cpLines := rfl
@[simp] theorem regSet_tlb (s : State) (a : Nat) (v : Dword) : (regSet s a v).tlb = s.tlb := rfl
@[simp] theorem regSet_walks (s : State) (a : Nat) (v : Dword) : (regSet s a v).walks = s.walks := rfl
@[simp] theorem regSet_late (s : State) (a : Nat) (v : Dword) : (regSet s a v).late = s.late := rfl
@[simp] theorem regSet_groups (s : State) (a : Nat) (v : Dword) : (regSet s a v).groups = s.groups := rfl
@[simp] theorem regSet_teams (s : State) (a : Nat) (v : Dword) : (regSet s a v).teams = s.teams := rfl
@[simp] theorem regSet_launches (s : State) (a : Nat) (v : Dword) : (regSet s a v).launches = s.launches := rfl
@[simp] theorem regSet_pipes (s : State) (a : Nat) (v : Dword) : (regSet s a v).pipes = s.pipes := rfl
@[simp] theorem regSet_barriers (s : State) (a : Nat) (v : Dword) : (regSet s a v).barriers = s.barriers := rfl
@[simp] theorem regSet_monitors (s : State) (a : Nat) (v : Dword) : (regSet s a v).monitors = s.monitors := rfl
@[simp] theorem regSet_places (s : State) (a : Nat) (v : Dword) : (regSet s a v).places = s.places := rfl
@[simp] theorem regSet_tiles (s : State) (a : Nat) (v : Dword) : (regSet s a v).tiles = s.tiles := rfl
@[simp] theorem regSet_tileTags (s : State) (a : Nat) (v : Dword) : (regSet s a v).tileTags = s.tileTags := rfl
@[simp] theorem regSet_tileOuts (s : State) (a : Nat) (v : Dword) : (regSet s a v).tileOuts = s.tileOuts := rfl
@[simp] theorem regSet_mops (s : State) (a : Nat) (v : Dword) : (regSet s a v).mops = s.mops := rfl
@[simp] theorem regSet_rendezvous (s : State) (a : Nat) (v : Dword) : (regSet s a v).rendezvous = s.rendezvous := rfl
@[simp] theorem regSet_cmds (s : State) (a : Nat) (v : Dword) : (regSet s a v).cmds = s.cmds := rfl
@[simp] theorem regSet_searches (s : State) (a : Nat) (v : Dword) : (regSet s a v).searches = s.searches := rfl
@[simp] theorem regSet_migrations (s : State) (a : Nat) (v : Dword) : (regSet s a v).migrations = s.migrations := rfl
@[simp] theorem regSet_owners (s : State) (a : Nat) (v : Dword) : (regSet s a v).owners = s.owners := rfl
@[simp] theorem regSet_badGpns (s : State) (a : Nat) (v : Dword) : (regSet s a v).badGpns = s.badGpns := rfl
@[simp] theorem regSet_migLines (s : State) (a : Nat) (v : Dword) : (regSet s a v).migLines = s.migLines := rfl
@[simp] theorem regSet_stubs (s : State) (a : Nat) (v : Dword) : (regSet s a v).stubs = s.stubs := rfl
@[simp] theorem regSet_redirects (s : State) (a : Nat) (v : Dword) : (regSet s a v).redirects = s.redirects := rfl
@[simp] theorem regSet_remote (s : State) (a : Nat) (v : Dword) : (regSet s a v).remote = s.remote := rfl
@[simp] theorem regSet_mcasts (s : State) (a : Nat) (v : Dword) : (regSet s a v).mcasts = s.mcasts := rfl
@[simp] theorem regSet_colls (s : State) (a : Nat) (v : Dword) : (regSet s a v).colls = s.colls := rfl
@[simp] theorem regSet_chunks (s : State) (a : Nat) (v : Dword) : (regSet s a v).chunks = s.chunks := rfl
@[simp] theorem regSet_arbiters (s : State) (a : Nat) (v : Dword) : (regSet s a v).arbiters = s.arbiters := rfl
@[simp] theorem regSet_chains (s : State) (a : Nat) (v : Dword) : (regSet s a v).chains = s.chains := rfl
@[simp] theorem regSet_probes (s : State) (a : Nat) (v : Dword) : (regSet s a v).probes = s.probes := rfl
@[simp] theorem regSet_draining (s : State) (a : Nat) (v : Dword) : (regSet s a v).draining = s.draining := rfl
@[simp] theorem regSet_qcache (s : State) (a : Nat) (v : Dword) : (regSet s a v).qcache = s.qcache := rfl
@[simp] theorem regSet_queues (s : State) (a : Nat) (v : Dword) : (regSet s a v).queues = s.queues := rfl
@[simp] theorem regSet_lanes (s : State) (a : Nat) (v : Dword) : (regSet s a v).lanes = s.lanes := rfl
@[simp] theorem regSet_laneStep (s : State) (a : Nat) (v : Dword) : (regSet s a v).laneStep = s.laneStep := rfl
@[simp] theorem regSet_laneNext (s : State) (a : Nat) (v : Dword) : (regSet s a v).laneNext = s.laneNext := rfl
@[simp] theorem regSet_sleepers (s : State) (a : Nat) (v : Dword) : (regSet s a v).sleepers = s.sleepers := rfl
@[simp] theorem regSet_sent (s : State) (a : Nat) (v : Dword) : (regSet s a v).sent = s.sent := rfl
@[simp] theorem regSet_recv (s : State) (a : Nat) (v : Dword) : (regSet s a v).recv = s.recv := rfl
@[simp] theorem regSet_pendInv (s : State) (a : Nat) (v : Dword) : (regSet s a v).pendInv = s.pendInv := rfl
@[simp] theorem regSet_pendAttr (s : State) (a : Nat) (v : Dword) : (regSet s a v).pendAttr = s.pendAttr := rfl
@[simp] theorem regSet_mixes (s : State) (a : Nat) (v : Dword) : (regSet s a v).mixes = s.mixes := rfl
@[simp] theorem regSet_seq (s : State) (a : Nat) (v : Dword) : (regSet s a v).seq = s.seq := rfl
@[simp] theorem regSet_held (s : State) (a : Nat) (v : Dword) : (regSet s a v).held = s.held := rfl
@[simp] theorem regSet_notes (s : State) (a : Nat) (v : Dword) : (regSet s a v).notes = s.notes := rfl
@[simp] theorem regSet_rowHits (s : State) (a : Nat) (v : Dword) : (regSet s a v).rowHits = s.rowHits := rfl
@[simp] theorem regSet_captured (s : State) (a : Nat) (v : Dword) : (regSet s a v).captured = s.captured := rfl
@[simp] theorem regSet_cacheLines (s : State) (a : Nat) (v : Dword) : (regSet s a v).cacheLines = s.cacheLines := rfl
@[simp] theorem regSet_baseOps (s : State) (a : Nat) (v : Dword) : (regSet s a v).baseOps = s.baseOps := rfl
@[simp] theorem regSet_writeQueue (s : State) (a : Nat) (v : Dword) : (regSet s a v).writeQueue = s.writeQueue := rfl
@[simp] theorem regSet_identKey (s : State) (a : Nat) (v : Dword) : (regSet s a v).identKey = s.identKey := rfl
@[simp] theorem regSet_digests (s : State) (a : Nat) (v : Dword) : (regSet s a v).digests = s.digests := rfl
@[simp] theorem regSet_report (s : State) (a : Nat) (v : Dword) : (regSet s a v).report = s.report := rfl
@[simp] theorem regSet_ueNotes (s : State) (a : Nat) (v : Dword) : (regSet s a v).ueNotes = s.ueNotes := rfl
@[simp] theorem regSet_claims (s : State) (a : Nat) (v : Dword) : (regSet s a v).claims = s.claims := rfl
@[simp] theorem regSet_nextId (s : State) (a : Nat) (v : Dword) : (regSet s a v).nextId = s.nextId := rfl
/-! ### Reading back -/

@[simp] theorem State.group_setGroup_same (s : State) (g : Nat) (x : Group) (h : g < s.groups.length) :
    (s.setGroup g x).group g = x := by
  simp [State.group, State.setGroup, listSet_get_same _ _ _ h]

@[simp] theorem State.group_setGroup_other (s : State) (g i : Nat) (x : Group) (h : i ≠ g) :
    (s.setGroup g x).group i = s.group i := by
  simp [State.group, State.setGroup, listSet_get_other _ _ _ _ h]

@[simp] theorem State.setGroup_length (s : State) (g : Nat) (x : Group) :
    (s.setGroup g x).groups.length = s.groups.length := listSet_length _ _ _

@[simp] theorem State.setGrp_length (s : State) (x : Group) : (s.setGrp x).groups.length = s.groups.length :=
  listSet_length _ _ _

@[simp] theorem State.setGroup_twice (s : State) (g : Nat) (x y : Group) :
    (s.setGroup g x).setGroup g y = s.setGroup g y := by
  simp [State.setGroup]

@[simp] theorem State.setGrp_twice (s : State) (x y : Group) : (s.setGrp x).setGrp y = s.setGrp y := by
  simp [State.setGrp]

/-- Writing back what a group holds changes nothing. -/
theorem State.setGroup_self (s : State) (g : Nat) : s.setGroup g (s.group g) = s := by
  by_cases h : g < s.groups.length
  · have : s.groups[g]? = some (s.group g) := by simp [State.group, h]
    simp [State.setGroup, listSet_self _ _ _ this]
  · have hl : ∀ (xs : List Group) (i : Nat) (x : Group), xs.length ≤ i → listSet xs i x = xs := by
      intro xs
      induction xs with
      | nil => exact fun _ _ _ => rfl
      | cons y ys ih =>
        intro i x hx
        cases i with
        | zero => simp at hx
        | succ i => simp [listSet, ih i x (by simpa using hx)]
    simp [State.setGroup, hl _ _ _ (Nat.le_of_not_lt h)]

@[simp] theorem State.setGrp_self (s : State) : s.setGrp s.grp = s := State.setGroup_self s s.cur.grp

@[simp] theorem State.grp_setGrp (s : State) (x : Group) (h : s.cur.grp < s.groups.length) : (s.setGrp x).grp = x :=
  State.group_setGroup_same s _ x h

@[simp] theorem Strand.get_zero (t : Strand) : t.get 0 = 0 := rfl

/-- A register reads what was written; register 0 reads 0 (R149). -/
theorem Strand.get_set_same (t : Strand) (r : BitVec 6) (v : Dword) :
    (t.set r v).get r = if r = 0 then 0 else v := by
  by_cases h : r = 0
  · subst h; rfl
  · simp only [Strand.get, Strand.set, if_neg h, mapGet_mapSet_same]

@[simp] theorem Strand.get_set_other (t : Strand) (r q : BitVec 6) (v : Dword) (h : q ≠ r) :
    (t.set r v).get q = t.get q := by
  by_cases hr : r = 0
  · simp [Strand.set, hr]
  · have : q.toNat ≠ r.toNat := fun e => h (BitVec.eq_of_toNat_eq e)
    simp only [Strand.get, Strand.set, if_neg hr, mapGet_mapSet_other _ _ _ _ _ this]

@[simp] theorem Strand.set_spc (t : Strand) (r : BitVec 6) (v : Dword) : (t.set r v).spc = t.spc := by
  unfold Strand.set; split <;> rfl
@[simp] theorem Strand.set_fmt (t : Strand) (r : BitVec 6) (v : Dword) : (t.set r v).fmt = t.fmt := by
  unfold Strand.set; split <;> rfl
@[simp] theorem Strand.set_axis (t : Strand) (r : BitVec 6) (v : Dword) : (t.set r v).axis = t.axis := by
  unfold Strand.set; split <;> rfl

/-- Reading an aligned device register after a write. -/
theorem regGet_regSet_same (s : State) (a : Nat) (v : Dword) : regGet (regSet s a v) a = v := by
  simp [regGet, regSet]

theorem regGet_regSet_other (s : State) (a b : Nat) (v : Dword) (h : b / 8 ≠ a / 8) :
    regGet (regSet s a v) b = regGet s b := by
  simp [regGet, regSet, h]

end Sys2Proof.Machine
end

