-- ==== Sys2Proof/Tests/Slice0.lean ====
section
/-! SUPPORT. Tests: the encoding rules refuse what is ill formed, the words of the specification's tables decode to what
they stand for, single steps do what their rules say, and the hypotheses of each statement are met by a state. The
expected values are written out from the specification, whose rule each test names. -/

namespace Sys2Proof.Tests

open Sys2Proof.Machine Sys2Proof.Claims

set_option Elab.async false

/-! ### Words, from the layouts of R88 and R96 -/

/-- SR: major, d, a, b, fn. -/
def sr (major d a b fn : Nat) : Nat := major * 2 ^ 26 + d * 2 ^ 20 + a * 2 ^ 14 + b * 2 ^ 8 + fn
/-- SI, SB and SX: major, two register fields, 14 bits. -/
def si (major d a i : Nat) : Nat := major * 2 ^ 26 + d * 2 ^ 20 + a * 2 ^ 14 + i
/-- L96: word0 from op9, dst, pred, type5 and rnd3, with word1 from opA, opB, opC, then word2. -/
def l96 (op dst pred ty rnd a b c w2 : Nat) : Nat :=
  op * 2 ^ 23 + dst * 2 ^ 15 + pred * 2 ^ 9 + ty * 2 ^ 3 + rnd + (a * 2 ^ 22 + b * 2 ^ 12 + c * 2 ^ 2) * 2 ^ 32 + w2 * 2 ^ 64
/-- The fields of the same word. -/
def lf (dst : BitVec 8) (pred : BitVec 3) (ty : BitVec 5) (rnd : BitVec 3) (a b c : BitVec 10) (w2 : BitVec 32) : LaneWord :=
  ⟨dst, false, 0, pred, false, ty, rnd, a, b, c, false, false, w2⟩

/-- R91, R93: the register and immediate instructions. -/
def aluWords : List (Nat × Instr) :=
  [(sr 1 3 1 2 0x00, Instr.sadd 3 1 2), (sr 1 3 1 2 0x01, Instr.ssub 3 1 2), (sr 1 3 1 2 0x02, Instr.smul 3 1 2),
   (sr 1 3 1 2 0x03, Instr.smulh 3 1 2), (sr 1 3 1 2 0x04, Instr.sdiv 3 1 2), (sr 1 3 1 2 0x05, Instr.srem 3 1 2),
   (sr 1 3 1 2 0x08, Instr.sand 3 1 2), (sr 1 3 1 2 0x09, Instr.sor 3 1 2), (sr 1 3 1 2 0x0A, Instr.sxor 3 1 2),
   (sr 1 3 1 2 0x0C, Instr.sshl 3 1 2), (sr 1 3 1 2 0x0D, Instr.sshr 3 1 2), (sr 1 3 1 2 0x0E, Instr.ssra 3 1 2),
   (sr 1 3 1 2 0x10, Instr.smin 3 1 2), (sr 1 3 1 2 0x11, Instr.smax 3 1 2), (sr 1 3 1 2 0x12, Instr.sminu 3 1 2),
   (sr 1 3 1 2 0x13, Instr.smaxu 3 1 2), (sr 1 3 1 2 0x14, Instr.sslt 3 1 2), (sr 1 3 1 2 0x15, Instr.ssltu 3 1 2),
   (sr 1 3 1 2 0x16, Instr.sseq 3 1 2), (sr 1 3 1 0 0x1C, Instr.sclz 3 1), (sr 1 3 1 0 0x1D, Instr.spopc 3 1),
   (sr 1 3 1 2 0x7F, Instr.ssel 3 1 2 63)] ++
  [(0x08A0BFFD, Instr.saddi 10 2 0x3FFD), (si 3 3 1 0x2001, Instr.sandi 3 1 0x2001), (si 4 3 1 0x2001, Instr.sori 3 1 0x2001),
   (si 5 3 1 0x2001, Instr.sxori 3 1 0x2001), (si 6 3 1 63, Instr.sshli 3 1 63), (si 6 3 1 (4096 + 63), Instr.sshri 3 1 63),
   (si 6 3 1 (8192 + 63), Instr.ssrai 3 1 63)]

/-- R90-R94: transfers, memory, blocks, queues and synchronisation. -/
def flowWords : List (Nat × Instr) :=
  [(si 0x0C 5 6 0x2000, Instr.sbeq 5 6 0x2000), (si 0x0D 5 6 0x1FFF, Instr.sbne 5 6 0x1FFF), (si 0x0E 5 6 1, Instr.sblt 5 6 1),
   (si 0x0F 5 6 1, Instr.sbge 5 6 1), (si 0x10 5 6 1, Instr.sbltu 5 6 1), (si 0x11 5 6 1, Instr.sbgeu 5 6 1),
   (0x480FFFFF, Instr.sjmp 0xFFFFF), (0x4FF80000, Instr.scall 63 0x80000), (si 0x14 0 7 0xFFF, Instr.scallr 7 0xFFF),
   (si 0x14 1 7 0, Instr.sret 7), (si 0x14 2 7 0x3FFF, Instr.sjtab 7 0x3FFF), (si 0x14 3 0 0x800, Instr.spad 0x800),
   (0x57FFFFFF, Instr.lrun 0x3FFFFFF), (0x58000000, Instr.lwait), (si 0x17 0 7 0, Instr.sfmt 7), (0x5C1001A9, Instr.sfmtAb 13 9),
   (si 0x18 3 7 0, Instr.saxis 3 7), (sr 0x19 5 0 2 0, Instr.sqin 5 2), (sr 0x19 0 7 2 1, Instr.sqout 7 2)] ++
  [(si 8 3 1 (2048 * 6 + 0x7FF), Instr.sld 3 1 6 0x7FF), (si 9 3 1 (2048 * 5 + 0x400), Instr.sst 3 1 5 0x400),
   (sr 0x0A 3 1 2 (32 * 7 + 8 * 3 + 5), Instr.satom 3 1 2 7 3 5), (si 0x0B 3 1 0x2000, Instr.spref 3 1 0x2000)] ++
  [(si 0x1A 0 7 (64 + 63), Instr.sbarInit 7 1 63), (si 0x1A 1 0 63, Instr.sbarArrive 0 63),
   (si 0x1A 2 0 (127 * 128 + 5), Instr.sbarWait 127 0 5), (si 0x1A 3 0 (128 + 64 + 5), Instr.sbarArw 1 1 5),
   (sr 0x1B 3 1 2 (32 * 5 + 8 + 4), Instr.swaitc 3 1 2 5 1 4), (si 0x1C 0 0 5, Instr.phase 5), (si 0x1C 1 0 1, Instr.phasePub 1),
   (si 0x1C 2 0 2, Instr.phaseRef 2), (si 0x1D 0 0 127, Instr.xfence 127), (si 0x1E 0 0 64, Instr.drain 64), (si 0x1F 3 1 0, Instr.tdet 3 1),
   (sr 0x20 3 1 0 0x50, Instr.xacq 3 1 5), (sr 0x20 3 1 0 0x21, Instr.xwait 3 1 2), (sr 0x20 0 1 2 2, Instr.xgive 1 2),
   (sr 0x20 3 1 2 3, Instr.xswap 3 1 2), (sr 0x20 0 1 0 4, Instr.xaban 1), (sr 0x20 0 1 0 0x15, Instr.xrel 1 1),
   (sr 0x21 0 1 0 0, Instr.wpop 1), (sr 0x21 3 1 2 1, Instr.wpost 3 1 2)]

/-- R91, R92, R95: matrix, page, special-register and system instructions. -/
def systemWords : List (Nat × Instr) :=
  [(sr 0x22 0 1 0 0x00, Instr.mcfg 1), (sr 0x22 0 1 0 0x10, Instr.mgang 1), (sr 0x22 0 1 2 0x20, Instr.mma 1 2),
   (sr 0x22 3 1 2 0x30, Instr.mmas 3 1 2), (sr 0x22 0 0 0 0x47, Instr.mzero 7), (sr 0x22 0 1 0 0x57, Instr.mlda 1 7),
   (sr 0x22 0 1 2 0x61, Instr.mst 1 2 1), (sr 0x22 0 0 0 0x70, Instr.mwait), (sr 0x23 3 1 2 0, Instr.pgmig 3 1 2),
   (sr 0x23 3 1 0 1, Instr.pgqry 3 1), (si 0x24 3 0 0x2F, Instr.sgetr 3 0x2F), (si 0x25 0 1 0x18, Instr.ssetr 1 0x18),
   (0x00000000, Instr.snop), (0x00100000, Instr.shalt), (0x00200000, Instr.send), (0x003000FF, Instr.strap 255), (0x00400000, Instr.srft),
   (0x00500000, Instr.sbkpt)]

theorem test_alu_words : aluWords.all (fun p => decodeScalar p.1 0 == some p.2) = true := by decide +kernel
theorem test_flow_words : flowWords.all (fun p => decodeScalar p.1 0 == some p.2) = true := by decide +kernel
theorem test_system_words : systemWords.all (fun p => decodeScalar p.1 0 == some p.2) = true := by decide +kernel

/-- R90: the worked pair SADDI s10, s0, 0x1_0000_4005, and an SLIT before a follower that takes no literal. -/
theorem test_slit_words : decodeScalar 0x1C040001 0x08A00005 = some (Instr.slit 0x40001 (.addi 10 0 5)) ∧
    decodeScalar 0x1C000001 (si 0x14 2 7 0x3FFF) = some (Instr.slit 1 (.jtab 7 0x3FFF)) ∧
    decodeScalar 0x1C000001 0x1C000001 = some (Instr.slit 1 (.other 0x1C000001)) := by decide +kernel

/-- R101: unassigned majors and codes, reserved fields, scopes 6 and 7, and the fill word are no instructions. -/
def noWords : List Nat :=
  [0x98000000, 0xFFFFFFFF, sr 1 3 1 2 0x06, sr 1 3 1 2 0x80, sr 1 3 1 1 0x1C, si 6 3 1 (3 * 4096), si 6 3 1 64,
   si 8 3 1 (7 * 2048), sr 0x0A 3 1 2 6, si 0x0B 4 1 0, 0x48100000, si 0x14 4 1 0, si 0x14 0 1 0x1000, si 0x14 1 1 1,
   si 0x14 3 1 0, 0x58000001, si 0x17 0 1 1, si 0x17 1 0 0x400, si 0x17 2 0 0, si 0x18 4 1 0, sr 0x19 5 0 16 0,
   sr 0x19 5 0 2 2, si 0x1A 0 1 128, si 0x1A 1 1 0, si 0x1A 4 0 0, sr 0x1B 3 1 2 (6 * 32), sr 0x1B 3 1 2 (2 * 8),
   si 0x1C 3 0 0, si 0x1C 0 0 6, si 0x1D 0 0 128, si 0x1F 3 1 1, sr 0x20 3 1 0 0x60, sr 0x20 0 1 0 0x14, sr 0x20 3 1 2 6,
   sr 0x21 1 1 0 0, sr 0x22 0 1 0 0x01, sr 0x22 0 0 0 0x48, sr 0x22 0 0 0 0x80, sr 0x23 3 1 1 1, si 0x24 3 0 0x19,
   si 0x25 0 1 0x30, si 0 6 0 0, si 0 0 0 1, si 0 3 0 256]

theorem test_no_words : noWords.all (fun w => decodeScalar w 0 == none) = true := by decide +kernel

/-- R100: integer, floating-point, conversion and predicate instructions, with i32, f32, ns4, ts8 and zb8. -/
def laneWords : List (Nat × Instr) :=
  ([(0x000, Instr.vadd), (0x001, Instr.vsub), (0x002, Instr.vmul), (0x003, Instr.vmulh), (0x005, Instr.vmin), (0x006, Instr.vmax), (0x008, Instr.vand),
    (0x009, Instr.vor), (0x00A, Instr.vxor), (0x00C, Instr.vshl), (0x00D, Instr.vshr), (0x00E, Instr.vsra), (0x0C0, Instr.vshuf), (0x0C1, Instr.vbcast),
    (0x0C6, Instr.vwrl)] : List (Nat × (LaneWord → Instr))).map
    (fun p => (l96 p.1 200 5 4 0 1 0x3FF 0 0x80000001, p.2 (lf 200 5 4 0 1 0x3FF 0 0x80000001))) ++
  ([(0x007, Instr.vabs), (0x00B, Instr.vnot), (0x00F, Instr.vclz), (0x010, Instr.vpopc), (0x014, Instr.vmov)] : List (Nat × (LaneWord → Instr))).map
    (fun p => (l96 p.1 200 5 4 0 0x110 0 0 0, p.2 (lf 200 5 4 0 0x110 0 0 0))) ++
  ([(0x004, Instr.vmad), (0x011, Instr.vbfe), (0x013, Instr.vsel)] : List (Nat × (LaneWord → Instr))).map
    (fun p => (l96 p.1 200 5 4 0 1 2 3 0, p.2 (lf 200 5 4 0 1 2 3 0))) ++
  [(l96 0x012 200 5 5 0 1 2 3 0, Instr.vbfi (lf 200 5 5 0 1 2 3 0))] ++
  ([(0x040, Instr.vfadd), (0x041, Instr.vfsub), (0x042, Instr.vfmul)] : List (Nat × (LaneWord → Instr))).map
    (fun p => (l96 p.1 4 3 10 1 2 3 0 0, p.2 (lf 4 3 10 1 2 3 0 0))) ++
  ([(0x044, Instr.vfmin), (0x045, Instr.vfmax)] : List (Nat × (LaneWord → Instr))).map
    (fun p => (l96 p.1 4 3 10 0 2 3 0 0, p.2 (lf 4 3 10 0 2 3 0 0))) ++
  ([(0x046, Instr.vfrcp), (0x047, Instr.vfrsq), (0x048, Instr.vfsqrt), (0x049, Instr.vfexp2), (0x04A, Instr.vflog2)] :
    List (Nat × (LaneWord → Instr))).map (fun p => (l96 p.1 4 3 10 4 2 0 0 0, p.2 (lf 4 3 10 4 2 0 0 0))) ++
  [(l96 0x043 4 3 10 6 2 3 1 0, Instr.vfma (lf 4 3 10 6 2 3 1 0)), (l96 0x04B 4 3 10 0 2 0 0 0, Instr.vfclass (lf 4 3 10 0 2 0 0 0)),
   (l96 0x080 4 3 10 1 2 17 0 0, Instr.vcvt (lf 4 3 10 1 2 17 0 0)), (l96 0x081 4 3 13 1 2 3 0 0, Instr.vqnt (lf 4 3 13 1 2 3 0 0)),
   (l96 0x082 4 3 15 0 2 3 0 0, Instr.vdqnt (lf 4 3 15 0 2 3 0 0)), (l96 0x083 4 3 14 1 2 3 1 0, Instr.vtsdot (lf 4 3 14 1 2 3 1 0)),
   (l96 0x084 4 3 16 1 2 3 1 0, Instr.vzdot (lf 4 3 16 1 2 3 1 0)), (l96 0x0A0 7 3 4 5 2 3 0 0, Instr.vcmp (lf 7 3 4 5 2 3 0 0)),
   (l96 0x0A1 7 3 10 7 2 3 0 0, Instr.vfcmp (lf 7 3 10 7 2 3 0 0)), (l96 0x0A2 7 3 0 0 6 7 0 0, Instr.pand (lf 7 3 0 0 6 7 0 0)),
   (l96 0x0A3 7 3 0 0 6 7 0 0, Instr.por (lf 7 3 0 0 6 7 0 0)), (l96 0x0A4 7 3 0 0 6 7 0 0, Instr.pxor (lf 7 3 0 0 6 7 0 0)),
   (l96 0x0A5 7 3 0 0 6 0 0 0, Instr.pnot (lf 7 3 0 0 6 0 0 0)), (l96 0x0A6 7 3 31 0 2 0 0 0, Instr.pset (lf 7 3 31 0 2 0 0 0)),
   (l96 0x0A7 7 3 0 0 6 0 0 0, Instr.pfirst (lf 7 3 0 0 6 0 0 0)), (l96 0x0A8 4 3 0 0 6 0 0 0, Instr.pmov (lf 4 3 0 0 6 0 0 0))]

/-- R99, R100: cross-lane, memory, stipple and control instructions. -/
def laneMoreWords : List (Nat × Instr) :=
  [(l96 0x0C2 63 3 10 1 2 0 5 0, Instr.vred (lf 63 3 10 1 2 0 5 0)), (l96 0x0C3 4 3 10 1 2 0 2 0, Instr.vscan (lf 4 3 10 1 2 0 2 0)),
   (l96 0x0C4 63 3 0 0 7 0 0 0, Instr.vballot (lf 63 3 0 0 7 0 0 0)), (l96 0x0C5 63 3 10 0 2 3 0 0, Instr.vrdl (lf 63 3 10 0 2 3 0 0)),
   (l96 0x0C7 4 3 10 0 2 0 1 0, Instr.vsort (lf 4 3 10 0 2 0 1 0)), (l96 0x0C8 15 3 10 0 2 0 0 0, Instr.vqin (lf 15 3 10 0 2 0 0 0)),
   (l96 0x0E0 8 0 10 0 0x124 1 0 0x80000040, Instr.vld (lf 8 0 10 0 0x124 1 0 0x80000040)),
   (l96 0x0E1 0 0 10 0 0x124 1 2 0xF8FFFFFF, Instr.vst (lf 0 0 10 0 0x124 1 2 0xF8FFFFFF)),
   (l96 0x0E2 8 0 10 0 0x124 1 0 0x80000040, Instr.vldc (lf 8 0 10 0 0x124 1 0 0x80000040)),
   (l96 0x0E3 8 0 10 0 0x124 1 2 0x007EFFFF, Instr.vatom (lf 8 0 10 0 0x124 1 2 0x007EFFFF)),
   (l96 0x0E4 0 0 0 0 0x124 1 0 0x40, Instr.vpref (lf 0 0 0 0 0x124 1 0 0x40)),
   (l96 0x0E5 8 0 10 0 3 1 0 0x80000040, Instr.lld (lf 8 0 10 0 3 1 0 0x80000040)),
   (l96 0x0E6 0 0 10 0 3 1 2 0x80000040, Instr.lst (lf 0 0 10 0 3 1 2 0x80000040)),
   (l96 0x0E7 8 0 10 0 3 1 2 0x007A8000, Instr.latom (lf 8 0 10 0 3 1 2 0x007A8000)),
   (l96 0x100 3 0 0 0 0x124 1 2 0x40, Instr.vstq (lf 3 0 0 0 0x124 1 2 0x40)),
   (l96 0x101 3 0 0 0 0x124 1 0 0x40, Instr.esav (lf 3 0 0 0 0x124 1 0 0x40)),
   (l96 0x102 3 0 0 0 0x124 1 0 0x40, Instr.elod (lf 3 0 0 0 0x124 1 0 0x40)),
   (l96 0x103 3 0 0 0 0 0 0 0, Instr.eclr (lf 3 0 0 0 0 0 0 0)),
   (l96 0x120 0 5 0 0 0x3FF 0x3FF 0x3C0 0xFFFFFF, Instr.lbra (lf 0 5 0 0 0x3FF 0x3FF 0x3C0 0xFFFFFF)),
   (l96 0x121 0 0 0 0 0 0 0 0xFFFFFF, Instr.ljmp (lf 0 0 0 0 0 0 0 0xFFFFFF)),
   (l96 0x122 0 0 0 0 2 0 0 5, Instr.ljtab (lf 0 0 0 0 2 0 0 5)), (l96 0x123 0 0 0 0 0 0 0 0xFFF, Instr.lpad (lf 0 0 0 0 0 0 0 0xFFF)),
   (l96 0x124 0 0 0 0 0 0 0 0, Instr.ljoin (lf 0 0 0 0 0 0 0 0)), (l96 0x125 0 0 0 0 0 0 0 0, Instr.regang (lf 0 0 0 0 0 0 0 0)),
   (l96 0x126 0 0 0 0 0 0 0 0, Instr.lend (lf 0 0 0 0 0 0 0 0)),
   (l96 0x127 255 0 0 0 1 2 3 9, Instr.phint (lf 255 0 0 0 1 2 3 9)), (0x94000000, Instr.lnop (lf 0 0 0 0 0 0 0 0))]

theorem test_lane_words : laneWords.all (fun p => decodeLane p.1 == some p.2) = true := by decide +kernel
theorem test_lane_more_words : laneMoreWords.all (fun p => decodeLane p.1 == some p.2) = true := by decide +kernel

/-- The worked encoding of VFADD.f32 v4, v2, v3, pred=!p3, lat=2, rnd=rtz: 0x20022751, 0x00803000, 0. R101: rnd3 set in
a VLD, and the fill word, are no instructions. -/
theorem test_worked_lane_word : decodeLane (0x20022751 + 0x00803000 * 2 ^ 32) =
      some (Instr.vfadd ⟨4, false, 2, 3, true, 10, 1, 2, 3, 0, false, false, 0⟩) ∧
    decodeLane (l96 0x0E0 8 0 10 1 0x124 1 0 0) = none ∧ decodeLane (2 ^ 96 - 1) = none := by decide +kernel

/-- R352, R404, R320: commands by OPC, packets by TYPE, requests by OP. -/
theorem test_commands_packets_requests :
    (let w (k : Nat) : Dword := BitVec.ofNat 64 (k * 2 ^ 56)
     let c (k n : Nat) : Option Instr := decodeCommand (w k :: (List.range n).map (fun i => BitVec.ofNat 64 i))
     c 0x01 4 = some (Instr.copy (w 0x01) 0 1 2 3) ∧ c 0x10 6 = some (Instr.bag (w 0x10) 0 1 2 3 4 5) ∧
     c 0x11 6 = some (Instr.upd (w 0x11) 0 1 2 3 4 5) ∧ c 0x20 6 = some (Instr.ngemv (w 0x20) 0 1 2 3 4 5) ∧
     c 0x30 5 = some (Instr.srch (w 0x30) 0 1 2 3 4) ∧ c 0x40 4 = some (Instr.allred (w 0x40) 0 1 2 3) ∧
     c 0x41 4 = some (Instr.redscat (w 0x41) 0 1 2 3) ∧ c 0x42 4 = some (Instr.allgath (w 0x42) 0 1 2 3) ∧
     c 0x43 4 = some (Instr.bcast (w 0x43) 0 1 2 3) ∧ c 0x44 4 = some (Instr.cbar (w 0x44) 0 1 2 3) ∧
     c 0x45 6 = some (Instr.mcast (w 0x45) 0 1 2 3 4 5) ∧ c 0x46 4 = some (Instr.topkmerge (w 0x46) 0 1 2 3) ∧ c 0x47 6 = none) ∧
    (let e (k : Nat) : Entry := ⟨BitVec.ofNat 64 (2 ^ 63 + k * 2 ^ 48), 1, 2, 3, 4, 5, 6, 7⟩
     let p (k : Nat) : Option Instr := decodePacket (e k) default
     p 0 = some (Instr.nop (e 0)) ∧ p 1 = some (Instr.fetchfence (e 1)) ∧ p 2 = some (Instr.ib (e 2)) ∧ p 3 = some (Instr.pred (e 3)) ∧
     p 4 = some (Instr.loop (e 4)) ∧ p 5 = some (Instr.waitmem (e 5)) ∧ p 6 = some (Instr.writemem (e 6)) ∧ p 7 = some (Instr.signal (e 7)) ∧
     p 8 = some (Instr.feed (e 8)) ∧ p 9 = some (Instr.launch (e 9) default) ∧ p 10 = none) ∧
    (let e (k : Nat) : Entry := ⟨BitVec.ofNat 64 (2 ^ 63 + k), 1, 2, 3, 4, 5, 6, 7⟩
     let r (k : Nat) : Option Instr := decodeRequest (e k)
     r 1 = some (Instr.tlbinv (e 1)) ∧ r 2 = some (Instr.pgattr (e 2)) ∧ r 3 = some (Instr.asidBind (e 3)) ∧
     r 4 = some (Instr.asidRetire (e 4)) ∧ r 5 = some (Instr.resume (e 5)) ∧ r 6 = some (Instr.resumeCmd (e 6)) ∧ r 7 = none) := by
  decide +kernel

/-! ### Ill-formed instructions, one for each rule that WellFormed states -/

/-- Lane instructions with one field out of its range. -/
def illLanes : List Instr :=
  [Instr.vcmp (lf 8 0 4 0 1 2 0 0), Instr.vred (lf 64 0 4 0 1 0 0 0), Instr.vqin (lf 16 0 4 0 1 0 0 0), Instr.eclr (lf 4 0 0 0 0 0 0 0),
   Instr.vst (lf 1 0 4 0 1 2 3 0), Instr.vadd (lf 1 0 10 0 1 2 0 0), Instr.vabs (lf 1 0 5 0 1 0 0 0), Instr.vbfi (lf 1 0 4 0 1 2 3 0),
   Instr.vbfe (lf 1 0 3 0 1 2 3 0), Instr.vmov (lf 1 0 13 0 1 0 0 0), Instr.vfadd (lf 1 0 11 0 1 2 0 0), Instr.vcvt (lf 1 0 31 0 1 0 0 0),
   Instr.vqnt (lf 1 0 12 0 1 2 0 0), Instr.vtsdot (lf 1 0 15 0 1 2 3 0), Instr.vzdot (lf 1 0 14 0 1 2 3 0), Instr.vscan (lf 1 0 11 0 1 0 0 0),
   Instr.vld (lf 1 0 15 0 1 2 0 0), Instr.vatom (lf 1 0 8 0 1 2 3 0), Instr.eclr (lf 0 0 4 0 0 0 0 0), Instr.vand (lf 1 0 10 0 1 2 0 0),
   Instr.eclr (lf 0 0 0 0 1 0 0 0), Instr.pand (lf 1 0 0 0 8 0 0 0), Instr.vabs (lf 1 0 4 0 1 2 0 0), Instr.vcvt (lf 1 0 4 0 1 13 0 0),
   Instr.vadd (lf 1 0 4 0 1 2 3 0), Instr.vred (lf 1 0 4 0 1 0 6 0), Instr.vsort (lf 1 0 4 0 1 0 2 0), Instr.vadd (lf 1 0 4 1 1 2 0 0)] ++
  [Instr.vfadd (lf 1 0 10 5 1 2 0 0), Instr.vfadd (lf 1 0 10 7 1 2 0 0), Instr.vcmp (lf 1 0 4 6 1 2 0 0), Instr.pand (lf 1 0 0 0 1 2 0 1),
   Instr.vld (lf 1 0 4 0 1 2 0 0x01000000), Instr.vatom (lf 1 0 4 0 1 2 3 0x00800000), Instr.vatom (lf 1 0 4 0 1 2 3 0x00030000),
   Instr.lld (lf 1 0 4 0 1 2 0 0x08000000), Instr.latom (lf 1 0 4 0 1 2 3 0x08000000), Instr.latom (lf 1 0 4 0 1 2 3 0x00030000),
   Instr.ljmp (lf 0 0 0 0 0 0 0 0x01000000), Instr.lpad (lf 0 0 0 0 0 0 0 0x1000), Instr.lend (lf 0 1 0 0 0 0 0 0),
   Instr.vand { lf 1 0 4 0 1 2 0 0 with sat := true }, Instr.vabs { lf 1 0 4 0 1 0 0 0 with negB := true },
   Instr.vst { lf 0 0 4 0 1 2 3 0 with nowb := true }, Instr.vst { lf 0 0 4 0 1 2 3 0 with lat := 1 },
   Instr.vadd { lf 1 0 4 0 1 2 0 0 with pneg := true }, Instr.lbra (lf 0 0 0 0 0 0 1 0), Instr.lbra { lf 0 0 0 0 0 0 0 0 with sat := true }]

/-- Scalar instructions, commands, packets and requests with a code that is not theirs. -/
def illOthers : List Instr :=
  [Instr.slit 0 (.other 0), Instr.sld 1 1 7 0, Instr.sst 1 1 7 0, Instr.satom 1 1 1 0 0 6, Instr.swaitc 1 1 1 6 0 0, Instr.swaitc 1 1 1 0 2 0,
   Instr.swaitc 1 1 1 0 0 7, Instr.phase 6, Instr.phasePub 6, Instr.phaseRef 7, Instr.xacq 1 1 6, Instr.xwait 1 1 7, Instr.xrel 1 6, Instr.sgetr 1 0x19,
   Instr.ssetr 1 0x30, Instr.copy 0 0 0 0 0, Instr.bag 0 0 0 0 0 0 0, Instr.upd 0 0 0 0 0 0 0, Instr.ngemv 0 0 0 0 0 0 0, Instr.srch 0 0 0 0 0 0,
   Instr.allred 0 0 0 0 0, Instr.redscat 0 0 0 0 0, Instr.allgath 0 0 0 0 0, Instr.bcast 0 0 0 0 0, Instr.cbar 0 0 0 0 0, Instr.mcast 0 0 0 0 0 0 0,
   Instr.topkmerge 0 0 0 0 0] ++
  (let e : Entry := ⟨0x000A000000000000, 0, 0, 0, 0, 0, 0, 0⟩
   [Instr.nop e, Instr.fetchfence e, Instr.ib e, Instr.pred e, Instr.loop e, Instr.waitmem e, Instr.writemem e, Instr.signal e, Instr.feed e, Instr.launch e e, Instr.tlbinv e,
    Instr.pgattr e, Instr.asidBind e, Instr.asidRetire e, Instr.resume e, Instr.resumeCmd e])

theorem test_ill_lanes : illLanes.all (fun i => !i.wellFormed) = true := by decide +kernel
theorem test_ill_others : illOthers.all (fun i => !i.wellFormed) = true := by decide +kernel

/-- What the words above decode to is well formed, and encoding gives the words back. -/
theorem test_words_back : (aluWords ++ flowWords ++ systemWords).all
      (fun p => p.2.wellFormed && encodeScalar p.2 == some p.1) = true ∧
    (laneWords ++ laneMoreWords).all (fun p => p.2.wellFormed) = true := by decide +kernel

/-! ### States -/

theorem free_of {s : State} {rs : List (BitVec 6)} (h : (decide (s.cur.grp < s.groups.length) && !s.stalls rs) = true) :
    Free s rs := by
  simp only [Bool.and_eq_true, decide_eq_true_eq, Bool.not_eq_true'] at h
  exact ⟨h.1, h.2⟩

theorem committed_of {s : State} (h : (decide (s.cur.grp < s.groups.length) && s.grp.quiet) = true) : Committed s := by
  simp only [Bool.and_eq_true, decide_eq_true_eq] at h
  exact ⟨h.1, h.2⟩

/-- The conditions of a plain access, as one test. -/
def plainB (s : State) (x : Acc) : Bool :=
  x.pkg == s.pkg && !x.reg && x.gpn == none && !x.needDir && decide (x.loc < migBase) && dualTarget s (x.loc / 8) == none

theorem plain_of {s : State} {x : Acc} (h : plainB s x = true) : Plain s x := by
  simp only [plainB, Bool.and_eq_true, beq_iff_eq, Bool.not_eq_true', decide_eq_true_eq] at h
  exact ⟨h.1.1.1.1.1, h.1.1.1.1.2, h.1.1.1.2, h.1.1.2, h.1.2, h.2⟩

/-- The value of a computation that answers one. -/
def okOr {ε α : Type} (d : α) : Except ε α → α
  | .ok x => x
  | .error _ => d

theorem ok_of {ε α : Type} (d : α) {x : Except ε α} (h : x.isOk = true) : x = .ok (okOr d x) := by
  cases x <;> simp_all [okOr, Except.isOk, Except.toBool]

/-- A privileged group on core 0, its strand at 4 MiB, over a map of the first GiB onto itself. -/
def base : State := { State.reset.withFetchWord 32 0 with agenda := [] }
/-- The same with a block of 16 lanes that stands at its first instruction. -/
def lane : State := { State.reset.withFetchWord 96 0 with agenda := [] }
/-- A state with its moving group changed. -/
def edit (s : State) (f : Group → Group) : State := s.setGrp (f s.grp)
/-- A state with these strand registers. -/
def withRegs (s : State) (rs : SMap Dword) : State := edit s (fun g => { g with st := { g.st with regs := rs } })
/-- A state with these bytes of memory, as a value of some size. -/
def poke (s : State) (a n v : Nat) : State := { s with mem := memWrite s.mem a n v }
/-- The access of a strand at an address. -/
def acc (s : State) (va : Dword) (n : Nat) (need : Need) : Acc := okOr default (groupAccess s va n need)

/-! ### The hypotheses of the statements about the encoding and the strand -/

theorem test_hyp_encoding :
    ((Instr.ssel 63 63 63 63).wellFormed = true ∧ encodeScalar (.ssel 63 63 63 63) = some (sr 1 63 63 63 0x7F)) ∧
    (si 0x14 3 0 0xFFF < 2 ^ 32 ∧ decodeScalar (si 0x14 3 0 0xFFF) 0 = some (.spad 0xFFF)) ∧
    (0x1FFFFFFF < 2 ^ 32 ∧ 0xFFFFFFFF < 2 ^ 32 ∧
      decodeScalar 0x1FFFFFFF 0xFFFFFFFF = some (.slit 0x3FFFFFF (.other 0xFFFFFFFF))) ∧
    (∃ r, laneSpec (.vadd (lf 255 7 18 0 0x3FF 0x3FF 0 0xFFFFFFFF)) = some (r, lf 255 7 18 0 0x3FF 0x3FF 0 0xFFFFFFFF) ∧
      (Instr.vadd (lf 255 7 18 0 0x3FF 0x3FF 0 0xFFFFFFFF)).wellFormed = true) ∧
    (2 ^ 96 - 2 ^ 94 < 2 ^ 96 ∧ l96 0x127 255 0 0 0 1 2 3 9 < 2 ^ 96 ∧
      decodeLane (l96 0x127 255 0 0 0 1 2 3 9) = some (.phint (lf 255 0 0 0 1 2 3 9))) ∧
    (let w : Dword := 0x46FFFFFFFFFFFFFF
     w.toNat / 2 ^ 56 = 0x46 ∧ cmdLength (cmdOpc ([w, 0, 0, 0, 0].headD 0)) = some 5 ∧
     decodeCommand [w, 0, 0, 0, 0] = some (.topkmerge w 0 0 0 0)) ∧
    cmdLength (cmdOpc (([0x4700000000000000] : List Dword).headD 0)) = none :=
  ⟨by decide +kernel, by decide +kernel, by decide +kernel, ⟨_, rfl, by decide +kernel⟩, by decide +kernel, by decide +kernel,
   by decide +kernel⟩

theorem test_hyp_arithmetic :
    ((∃ v, aluResult (.sadd 63 1 2) = some (63, [1, 2], v)) ∧ Free base [63, 1, 2]) ∧
    ((∃ v, aluResult (.ssel 0 1 2 3) = some (0, [1, 2, 3], v)) ∧ Free base [0, 1, 2, 3]) ∧
    (let s := withRegs base [(1, 0x8000000000000000), (2, 0xFFFFFFFFFFFFFFFF)]
     Free s [0, 1, 2] ∧ s.reg 2 ≠ 0) ∧
    ((∃ v, immResult (.saddi 63 1 0x2000) = some (63, 1, 4, v)) ∧
     (∃ v, immResult (.slit 0x2000000 (.addi 0 63 0x3FFF)) = some (0, 63, 8, v)) ∧ Free base [63, 1] ∧ Free base [0, 63]) :=
  ⟨⟨⟨_, rfl⟩, free_of (by decide +kernel)⟩, ⟨⟨_, rfl⟩, free_of (by decide +kernel)⟩,
   ⟨free_of (by decide +kernel), by decide +kernel⟩,
   ⟨_, rfl⟩, ⟨_, rfl⟩, free_of (by decide +kernel), free_of (by decide +kernel)⟩

theorem test_hyp_transfers :
    branchParts (.sbltu 63 0 0x2000) = some (.ltu, 63, 0, -8192, 4) ∧ Free base [63, 0] ∧
    branchParts (.slit 0x2000000 (.branch .ge 1 2 0)) = some (.ge, 1, 2, -2 ^ 39, 8) ∧
    (∃ p, jumpResult (.scall 0 0x80000) = some ([0], [], p)) ∧ (∃ p, jumpResult (.spref 3 63 0x2000) = some ([], [63], p)) ∧
    Free base [0] ∧ Free base [63] ∧ Free base [] ∧
    (withRegs base [(1, 0x3FFFFFFFFFFFFC)]).reg 1 = 2 ^ 54 - 4 ∧ Free (withRegs base [(1, 0x3FFFFFFFFFFFFC)]) [1] ∧
    ((2 ^ 54 - 4 : Dword)).toNat % 4 = 0 :=
  ⟨by decide +kernel, free_of (by decide +kernel), by decide +kernel, ⟨_, rfl⟩, ⟨_, rfl⟩, free_of (by decide +kernel),
   free_of (by decide +kernel), free_of (by decide +kernel), by decide +kernel, free_of (by decide +kernel), by decide +kernel⟩

/-- A pad with label 0xFFF at 0x400100, and a jump table of one entry at 0x400008 that names it. -/
def padded : State := withRegs (poke (poke base 0x400100 4 0x50300FFF) 0x400008 8 (1 + (0x3E * 2 ^ 12 + 0xFFF) * 2 ^ 32))
  [(1, 0x400100), (2, 0)]

theorem test_hyp_computed :
    (Free padded [1, 63] ∧ (padded.reg 1).toNat % 4 = 0 ∧ (padded.reg 1).toNat < 2 ^ 54 ∧
      fetchScalar padded (padded.reg 1) 3 = .ok (0x50300000 + 0xFFF)) ∧
    (let e := 0x3E * 2 ^ 12 + 0xFFF
     let tab := padded.spc + 4 + BitVec.ofInt 64 (4 * 1)
     let target := tab + BitVec.ofInt 64 (4 * (BitVec.ofNat 20 (e / 2 ^ 12)).toInt)
     Free padded [2] ∧ fetchScalar padded tab 1 = .ok 1 ∧ (padded.reg 2).toNat < 1 ∧
     fetchScalar padded (tab + 4 * (padded.reg 2 + 1)) 2 = .ok e ∧ target.toNat % 4 = 0 ∧ target.toNat < 2 ^ 54 ∧
     fetchScalar padded target 3 = .ok (0x50300000 + e % 2 ^ 12)) :=
  ⟨⟨free_of (by decide +kernel), by decide +kernel⟩, free_of (by decide +kernel), by decide +kernel⟩

/-- The group in its handler, with TRAPVEC and TRAPREC; and a group of a context that is not privileged. -/
def vectored : State := { edit base (fun g => { g with trapvec := 0x400100, traprec := 0x500000 }) with
  tlb := [⟨0, 1, 0x500, 0xF9, 2⟩] }
def handler : State := edit vectored (fun g => { g with inh := true })
def user : State := { base with launches := [{ placedLaunch with priv := false }] }

/-- The traps of the strand, clause by clause. -/
theorem test_hyp_traps :
    let s := withRegs padded [(1, 2), (2, 2 ^ 54), (3, 0x400100), (4, 1), (5, 0x22000000000), (6, 0x100000000), (7, 2 ^ 63)]
    s.grp.ahead = false ∧ Free s [0, 63, 8] ∧ s.reg 8 = 0 ∧ Free s [1] ∧ (s.reg 1).toNat % 4 ≠ 0 ∧
    Free s [2] ∧ (s.reg 2).toNat % 4 = 0 ∧ 2 ^ 54 ≤ (s.reg 2).toNat ∧
    Free s [3, 63] ∧ (s.reg 3).toNat % 4 = 0 ∧ (s.reg 3).toNat < 2 ^ 54 ∧
    fetchScalar s (s.reg 3) 3 = .ok 0x50300FFF ∧ 0x50300FFF ≠ 0x50300000 + (0xFFE : BitVec 12).toNat ∧
    Free s [4] ∧ fetchScalar s (s.spc + 4 + 4 * (1 : BitVec 14).signExtend 64) 1 = .ok 1 ∧ 1 ≤ (s.reg 4).toNat ∧
    Free s [6] ∧ ¬ FmtLegal (s.reg 6) ∧ Free s [7] ∧ axisOk (s.reg 7) = false ∧
    (mapGet 0 s.grp.qbind 15).toNat % 16 = 0 ∧ Committed s ∧ s.grp.inh = false ∧ s.spc + 4 ≠ 0 ∧
    Committed user ∧ user.grp.ahead = false ∧ (user.launchOf user.grp).priv = false ∧
    handler.grp.inh = true ∧ handler.grp.ahead = false :=
  ⟨by decide +kernel, free_of (by decide +kernel), by decide +kernel, free_of (by decide +kernel), by decide +kernel,
   free_of (by decide +kernel), by decide +kernel, by decide +kernel, free_of (by decide +kernel), by decide +kernel,
   by decide +kernel, by decide +kernel, by decide +kernel, free_of (by decide +kernel), by decide +kernel,
   by decide +kernel, free_of (by decide +kernel), fun h => absurd h.high (by decide +kernel), free_of (by decide +kernel),
   by decide +kernel, by decide +kernel, committed_of (by decide +kernel), by decide +kernel, by decide +kernel,
   committed_of (by decide +kernel), by decide +kernel⟩

theorem some_of {α : Type} (d : α) {x : Option α} (h : x.isSome = true) : x = some (x.getD d) := by
  cases x <;> simp_all

/-- Traps of the strand and of a lane with the largest fields, and what storing the record of one leaves. -/
def report : Trap := { code := 0xFF, spc := 0x400000 }
def laneTrap : Trap := { code := 0xFF, source := 1, cause := 0xFF, lane := 63, slice := 15, frag := 15, lmask := 15, xflags := 0x3F, lpc := 0x3FFFFFF }
def stored (s : State) (r : Trap) : State :=
  (storeDwords (trapState s r) s.grp.recAddr ((reported s r).dwords (trapState s r).grp.st)).getD s

theorem delivered_of {s : State} {r : Trap} (h : (decide ((stored s r).cur.grp < (stored s r).groups.length) && !s.grp.inh &&
    bits s.grp.trapvec.toNat 53 2 != 0 && bits s.grp.traprec.toNat 53 7 != 0 && recordOk (trapState s r) s.grp.recAddr &&
    recordDir s s.grp.recAddr == none && recordDir (trapState s r) s.grp.recAddr == none &&
    (storeDwords (trapState s r) s.grp.recAddr ((reported s r).dwords (trapState s r).grp.st)).isSome) = true) :
    Delivered s r (stored s r) := by
  simp only [Bool.and_eq_true, decide_eq_true_eq, Bool.not_eq_true', bne_iff_ne, beq_iff_eq] at h
  obtain ⟨⟨⟨⟨⟨⟨⟨h1, h2⟩, h3⟩, h4⟩, h5⟩, h6⟩, h7⟩, h8⟩ := h
  exact ⟨h1, h2, h3, h4, h5, ⟨h6, h7⟩, some_of s h8⟩

/-- The lane group with a handler, and a store behind its block. -/
def vectoredLane : State := { edit lane (fun g => { g with
    trapvec := 0x400100
    traprec := 0x500000
    side := [{ (default : SideEntry) with behind := 1 }] }) with tlb := vectored.tlb }

theorem test_hyp_delivery : Delivered vectored report (stored vectored report) ∧ report.source ≠ 1 ∧
    Delivered vectoredLane laneTrap (stored vectoredLane laneTrap) ∧ laneTrap.source = 1 ∧
    (∃ b bs, vectoredLane.grp.blocks = b :: bs) ∧ vectoredLane.grp.inh = false ∧
    (laneTrap.code < 2 ^ 8 ∧ laneTrap.source < 2 ^ 8 ∧ laneTrap.cause < 2 ^ 8 ∧ laneTrap.lane < 2 ^ 8 ∧
      laneTrap.slice < 2 ^ 8 ∧ laneTrap.frag < 2 ^ 8 ∧ laneTrap.lmask < 2 ^ 4 ∧ laneTrap.xflags < 2 ^ 6 ∧
      laneTrap.lpc < 2 ^ 26) ∧
    (lane.cur.grp < lane.groups.length ∧ lane.grp.inh = false ∧ ∃ b bs, lane.grp.blocks = b :: bs) :=
  ⟨delivered_of (by decide +kernel), by decide, delivered_of (by decide +kernel), by decide, ⟨_, _, rfl⟩, by decide +kernel,
   by decide, by decide +kernel, by decide +kernel, _, _, rfl⟩

/-- The lane group with this many words pushed to q15, words to pop from it, and side-buffer entries. -/
def queued (s : State) (push pop side : Nat) : State := edit s (fun g => { g with
  qbind := [(15, 1)]
  pushq := [(15, List.replicate push 5)]
  popq := if pop = 0 then [] else [(15, List.replicate pop 7)]
  side := List.replicate side default })

/-- Two outstanding blocks. -/
def twoBlocks : State := edit lane (fun g => { g with blocks := g.blocks ++ [{ (default : Block) with seq := 1 }] })

theorem test_hyp_blocks :
    base.cur.grp < base.groups.length ∧ base.grp.inh = false ∧ base.grp.blocks.length < 2 ∧ base.grp.quiet = true ∧
    lane.cur.grp < lane.groups.length ∧ lane.grp.blocks.length = 1 ∧ lane.grp.quiet = false ∧ lane.grp.inh = false ∧
    twoBlocks.cur.grp < twoBlocks.groups.length ∧ twoBlocks.grp.inh = false ∧ 2 ≤ twoBlocks.grp.blocks.length := by
  decide +kernel

theorem test_hyp_formats :
    (let s := withRegs base [(63, BitVec.ofNat 64 (16 * 2 ^ 27 + 16 * 2 ^ 22 + 4 * 2 ^ 13 + 63 * 2 ^ 16))]
     Free s [63] ∧ FmtLegal (s.reg 63)) ∧
    (base.cur.grp < base.groups.length ∧ FmtLegal base.grp.st.fmt ∧ (16 : BitVec 5).toNat ≤ 16) ∧
    (Free base [1] ∧ axisOk (base.reg 1) = true) :=
  ⟨⟨free_of (by decide +kernel), ⟨by decide +kernel, by decide +kernel, by decide +kernel, by decide +kernel, by decide +kernel⟩⟩,
   ⟨by decide +kernel, ⟨by decide +kernel, by decide +kernel, by decide +kernel, by decide +kernel, by decide +kernel⟩, by decide⟩,
   free_of (by decide +kernel), by decide +kernel⟩

theorem test_hyp_queues :
    (mapGet 0 (queued base 15 1 0).grp.qbind 15).toNat % 16 ≠ 0 ∧ Committed (queued base 15 1 0) ∧
    mapGet [] (queued base 15 1 0).grp.popq 15 = [7] ∧
    Committed (queued base 0 0 0) ∧ mapGet [] (queued base 0 0 0).grp.popq 15 = [] ∧
    Free (queued base 15 1 0) [63] ∧ (queued base 15 1 0).grp.behind = 0 ∧ (queued base 15 1 0).grp.side = [] ∧
    (mapGet [] (queued base 15 1 0).grp.pushq 15).length < 16 ∧
    Free (queued base 16 0 0) [0] ∧ (queued base 16 0 0).grp.behind = 0 ∧ (queued base 16 0 0).grp.side = [] ∧
    16 ≤ (mapGet [] (queued base 16 0 0).grp.pushq 15).length ∧
    (queued base 15 1 0).grp.vqinOn 15 = false ∧
    (let s := edit (queued base 1 0 0) (fun g => { g with vqin := [(0, 15, [3])] })
     Free s [0] ∧ s.grp.behind = 0 ∧ s.grp.side = [] ∧ s.grp.vqinOn 15 = true) ∧
    Free (queued lane 0 0 15) [0] ∧ (queued lane 0 0 15).grp.behind ≠ 0 ∧ (queued lane 0 0 15).grp.side.length < 16 ∧
    (mapGet 0 (queued lane 0 0 15).grp.qbind 15).toNat % 16 ≠ 0 :=
  ⟨by decide +kernel, committed_of (by decide +kernel), by decide +kernel, committed_of (by decide +kernel),
   by decide +kernel, free_of (by decide +kernel), by decide +kernel, by decide +kernel, by decide +kernel,
   free_of (by decide +kernel), by decide +kernel, by decide +kernel, by decide +kernel, by decide +kernel,
   ⟨free_of (by decide +kernel), by decide +kernel⟩, free_of (by decide +kernel),
   by decide +kernel, by decide +kernel, by decide +kernel⟩

/-- Registers that address 0x500000 by displacement −1, the same byte in the second GiB, and 0x500008 there. -/
def addressed (s : State) : State := withRegs (poke s 0x12008 8 0x01000000000000F9)
  [(1, 0x500001), (2, 0x40500001), (3, 0x500000)]
/-- An entry of the side buffer that holds a store of 8 bytes at an access's place. -/
def holding (s : State) : State := edit (addressed s) (fun g => { g with
  side := [{ (default : SideEntry) with
    behind := 1
    loc := (acc (addressed s) 0x500000 8 needR).key
    size := 8 }] })

/-- The value of every choice of a load is good. -/
def goodLoad (s : State) (va : Dword) (x : Acc) (n : Nat) : Prop :=
  ∀ c ∈ loadChoices (noteAccess s va x) s.cur.grp (x.loc / 8) x.coh (unitMask (x.loc % 8) n),
    poisonedBy (noteAccess s va x) x n c = false

theorem test_hyp_scalar_load :
    (let s := addressed base
     let x := acc s (s.reg 1 + BitVec.ofInt 64 (0x7FF : BitVec 11).toInt) (sizeBytes 6) needR
     Free s [63, 1] ∧ groupAccess s (s.reg 1 + BitVec.ofInt 64 (0x7FF : BitVec 11).toInt) (sizeBytes 6) needR = .ok x ∧
     Plain s x ∧ (x.home = 0 ∨ s.grp.quiet = true) ∧
     goodLoad s (s.reg 1 + BitVec.ofInt 64 (0x7FF : BitVec 11).toInt) x (sizeBytes 6) ∧
     buffered s.grp x.key (sizeBytes 6) = none ∧
     waitingStores s s.cur.grp (x.loc / 8) x.coh (unitMask (x.loc % 8) (sizeBytes 6)) = []) ∧
    (let s := holding lane
     let x := acc s (s.reg 3 + BitVec.ofInt 64 (7 : BitVec 11).toInt) (sizeBytes 0) needR
     Free s [0, 3] ∧ groupAccess s (s.reg 3 + BitVec.ofInt 64 (7 : BitVec 11).toInt) (sizeBytes 0) needR = .ok x ∧
     x.home = 0 ∧ x.reg = false ∧
     ∃ e, buffered s.grp x.key (sizeBytes 0) = some e ∧ e.loc ≤ x.key ∧ x.key + sizeBytes 0 ≤ e.loc + e.size ∧
       e.behind ≠ 0) ∧
    (let s := edit (holding lane) (fun g => { g with side := g.side.map (fun e => { e with size := 1 }) })
     let x := acc s (s.reg 3) (sizeBytes 6) needR
     Free s [0, 3] ∧ groupAccess s (s.reg 3 + BitVec.ofInt 64 (0 : BitVec 11).toInt) (sizeBytes 6) needR = .ok x ∧
     x.home = 0 ∧ x.reg = false ∧
     ∃ e, buffered s.grp x.key (sizeBytes 6) = some e ∧ ¬ (e.loc ≤ x.key ∧ x.key + sizeBytes 6 ≤ e.loc + e.size)) ∧
    (let s := withRegs (poke lane 0x12010 8 0xCF9) [(3, 0x80000000)]
     let x := acc s (s.reg 3) (sizeBytes 6) needR
     Free s [0, 3] ∧ groupAccess s (s.reg 3 + BitVec.ofInt 64 (0 : BitVec 11).toInt) (sizeBytes 6) needR = .ok x ∧
     x.home ≠ 0 ∧ s.grp.quiet = false) :=
  ⟨⟨free_of (by decide +kernel), ok_of _ (by decide +kernel), plain_of (by decide +kernel), by decide +kernel,
    by unfold goodLoad; decide +kernel, by decide +kernel⟩,
   ⟨free_of (by decide +kernel), ok_of _ (by decide +kernel), by decide +kernel, by decide +kernel, _,
    some_of default (by decide +kernel), by decide +kernel⟩,
   ⟨free_of (by decide +kernel), ok_of _ (by decide +kernel), by decide +kernel, by decide +kernel, _,
    some_of default (by decide +kernel), by decide +kernel⟩,
   free_of (by decide +kernel), ok_of _ (by decide +kernel), by decide +kernel⟩

theorem test_hyp_scalar_store :
    (let s := addressed base
     let x := acc s (s.reg 1 + BitVec.ofInt 64 (0x7FF : BitVec 11).toInt) (sizeBytes 6) needW
     Free s [63, 1] ∧ groupAccess s (s.reg 1 + BitVec.ofInt 64 (0x7FF : BitVec 11).toInt) (sizeBytes 6) needW = .ok x ∧
     Plain s x ∧ s.grp.behind = 0 ∧ s.grp.side = [] ∧ x.coh = 0) ∧
    (let s := addressed base
     let x := acc s (s.reg 2 + BitVec.ofInt 64 (0x7FF : BitVec 11).toInt) (sizeBytes 4) needW
     Free s [63, 2] ∧ groupAccess s (s.reg 2 + BitVec.ofInt 64 (0x7FF : BitVec 11).toInt) (sizeBytes 4) needW = .ok x ∧
     Plain s x ∧ s.grp.behind = 0 ∧ s.grp.side = [] ∧ x.coh ≠ 0 ∧ l1Full s s.grp.core (x.loc / 8) = false) ∧
    (let s := edit (addressed lane) (fun g => { g with side := List.replicate 15 default })
     let x := acc s (s.reg 3 + BitVec.ofInt 64 (0 : BitVec 11).toInt) (sizeBytes 6) needW
     Free s [0, 3] ∧ groupAccess s (s.reg 3 + BitVec.ofInt 64 (0 : BitVec 11).toInt) (sizeBytes 6) needW = .ok x ∧
     Plain s x ∧ s.grp.behind ≠ 0 ∧ s.grp.side.length < 16) :=
  ⟨⟨free_of (by decide +kernel), ok_of _ (by decide +kernel), plain_of (by decide +kernel), by decide +kernel⟩,
   ⟨free_of (by decide +kernel), ok_of _ (by decide +kernel), plain_of (by decide +kernel), by decide +kernel⟩,
   free_of (by decide +kernel), ok_of _ (by decide +kernel), plain_of (by decide +kernel), by decide +kernel⟩

/-- A remote store of group 0 that is not acknowledged. -/
def posted : RemReq := ⟨9, 0, 0x400000, 0x500000, 2 ^ 46, .store 8 5, .sent, none⟩

theorem test_hyp_scalar_atomic :
    (let s := addressed base
     let x := acc s (s.reg 3) 8 needRW
     Committed s ∧ groupAccess s (s.reg 3) 8 needRW = .ok x ∧ Plain s x ∧ poisonedFor s s.cur.grp x = false ∧ x.coh = 0 ∧
       hasRel (3 : BitVec 2).toNat = true ∧ pubReady s s.cur.grp (5 : BitVec 3).toNat = true) ∧
    (let s : State := { addressed base with remote := [posted] }
     let x := acc s (s.reg 3) 8 needRW
     Committed s ∧ groupAccess s (s.reg 3) 8 needRW = .ok x ∧ Plain s x ∧ poisonedFor s s.cur.grp x = false ∧
       hasRel (3 : BitVec 2).toNat = true ∧ pubReady s s.cur.grp (5 : BitVec 3).toNat = false) :=
  ⟨⟨committed_of (by decide +kernel), ok_of _ (by decide +kernel), plain_of (by decide +kernel), by decide +kernel⟩,
   committed_of (by decide +kernel), ok_of _ (by decide +kernel), plain_of (by decide +kernel), by decide +kernel⟩

/-! ### The hypotheses of the statements about lanes -/

def env0 : Env :=
  ⟨lane, lane, default, .i32, [], [], [], fun _ => 0, fun _ => 0, fun _ => 0, fun _ => 0, 0, .rne, false, false, false⟩
/-- What a lane instruction reads. -/
def envOf (s : State) (i : Instr) (f : LaneWord) (types : Ty → Bool) (ra rb rc : Ty → Read) : Env :=
  okOr env0 (envT s i f types ra rb rc)
def envOp (o : LaneOp) (i : Instr) (s : State) : Env := envOf s i o.word o.types o.ra o.rb o.rc

/-- The lane group with s1 and s2 captured as addresses, every floating-point trap enabled or not, and p1 true in lane 0. -/
def laneOf (fmtc : BitVec 25) : State := edit (poke lane 0x12008 8 0x01000000000000F9) (fun g => { g with
  blocks := [{ (default : Block) with
    scal := [(1, 0x500000), (2, 0x40500000)]
    axis := [(0, 0x2C00)]
    ckpt := ⟨0x400004, [], 0, [], []⟩ }]
  frags := [(0, { firstFrag 16 0 0 with fmtc := fmtc })]
  preds := [(1, 1)] })

theorem fin_of {x : XVal} (h : (match x with
    | .fin _ n d => decide (0 < d ∧ n ≠ 0)
    | _ => false) = true) : ∃ p n d, x = .fin p n d ∧ 0 < d ∧ n ≠ 0 := by
  cases x <;> simp_all

theorem test_hyp_exact : Ty.isInt .i8 = true ∧ Ty.isInt .n64 = true ∧ (0 : Nat) < 1 ∧
    (XVal.nan none true).isNaN = true ∧ (XVal.inf true).isNaN = false ∧
    (Ty.isFloat .f32 = true ∧ (0 : Nat) < 3 ∧ (roundTo .f32 .rup true true (.fin true 1 3)).2 &&& (flagOF ||| flagSAT) = 0) ∧
    |(-1024 : ℤ)| ≤ 1024 ∧ 254 % 256 ≠ 255 ∧ (254 * 2 ^ 16 / 2 ^ 16 % 256 ≠ 255) ∧
    ∃ p n d, readFloat .f16 (0x3C000000 / 2 ^ 16) = .fin p n d ∧ 0 < d ∧ n ≠ 0 :=
  ⟨by decide +kernel, by decide +kernel, by decide, by decide +kernel, by decide +kernel, by decide +kernel, by decide, by decide,
   by decide, fin_of (by decide +kernel)⟩

theorem test_hyp_integers :
    (∃ o, intLane (.vbfi (lf 255 0 5 0 31 0x170 0x1BF 0)) = some o ∧
      o.Passes (.vbfi (lf 255 0 5 0 31 0x170 0x1BF 0)) lane (envOp o (.vbfi (lf 255 0 5 0 31 0x170 0x1BF 0)) lane)) ∧
    (∃ o, intLane (.vadd (lf 254 0 6 0 0 0x180 0 0)) = some o ∧
      o.Passes (.vadd (lf 254 0 6 0 0 0x180 0 0)) lane (envOp o (.vadd (lf 254 0 6 0 0 0x180 0 0)) lane)) :=
  ⟨⟨_, rfl, by decide +kernel, ok_of env0 (by decide +kernel)⟩, _, rfl, by decide +kernel, ok_of env0 (by decide +kernel)⟩

theorem test_hyp_floats :
    (∃ o, floatLane (laneOf 0) (.vfrcp (lf 255 0 10 0 0x1C0 0 0 0)) = some o ∧
      o.Passes (.vfrcp (lf 255 0 10 0 0x1C0 0 0 0)) (laneOf 0) (envOp o (.vfrcp (lf 255 0 10 0 0x1C0 0 0 0)) (laneOf 0)) ∧
      ∀ l ∈ (envOp o (.vfrcp (lf 255 0 10 0 0x1C0 0 0 0)) (laneOf 0)).act,
        (o.value (envOp o (.vfrcp (lf 255 0 10 0 0x1C0 0 0 0)) (laneOf 0)) l).2 &&&
          enables (envOp o (.vfrcp (lf 255 0 10 0 0x1C0 0 0 0)) (laneOf 0)).fmt = 0) ∧
    (∃ o, floatLane (laneOf 31) (.vfrcp (lf 255 0 10 0 0x1C0 0 0 0)) = some o ∧
      o.Passes (.vfrcp (lf 255 0 10 0 0x1C0 0 0 0)) (laneOf 31) (envOp o (.vfrcp (lf 255 0 10 0 0x1C0 0 0 0)) (laneOf 31)) ∧
      (envOp o (.vfrcp (lf 255 0 10 0 0x1C0 0 0 0)) (laneOf 31)).act.find?
        (fun k => (o.value (envOp o (.vfrcp (lf 255 0 10 0 0x1C0 0 0 0)) (laneOf 31)) k).2 &&&
          enables (envOp o (.vfrcp (lf 255 0 10 0 0x1C0 0 0 0)) (laneOf 31)).fmt != 0) = some 0) :=
  ⟨⟨_, rfl, ⟨by decide +kernel, ok_of env0 (by decide +kernel)⟩, by decide +kernel⟩,
   _, rfl, ⟨by decide +kernel, ok_of env0 (by decide +kernel)⟩, by decide +kernel⟩

theorem test_hyp_predicates :
    (∃ o, predLane (.vcmp (lf 0 0 4 5 0x170 0x190 0 0)) = some o ∧
      o.Passes (.vcmp (lf 0 0 4 5 0x170 0x190 0 0)) lane (envOp o (.vcmp (lf 0 0 4 5 0x170 0x190 0 0)) lane) ∧
      ∀ l ∈ (envOp o (.vcmp (lf 0 0 4 5 0x170 0x190 0 0)) lane).act,
        (o.value (envOp o (.vcmp (lf 0 0 4 5 0x170 0x190 0 0)) lane) l).2 &&&
          enables (envOp o (.vcmp (lf 0 0 4 5 0x170 0x190 0 0)) lane).fmt = 0) ∧
    (∃ v, predOnly lane (.pfirst (lf 7 0 0 0 7 0 0 0)) = some (lf 7 0 0 0 7 0 0 0, v)) ∧
    lane.cur.grp < lane.groups.length :=
  ⟨⟨_, rfl, ⟨by decide +kernel, ok_of env0 (by decide +kernel)⟩, by decide +kernel⟩, ⟨_, rfl⟩, by decide +kernel⟩

theorem test_hyp_scans :
    (let f := lf 255 0 10 4 0x1C7 0 0 0
     let e := envOf lane (.vscan f) f (redTy f) rT rNo rNo
     envT lane (.vscan f) f (redTy f) rT rNo rNo = .ok e ∧
     (treeScan e (f.opC.toNat % 8) (Nat.log2 lane.width) 1 (redInputs e (f.opC.toNat % 8))).2 &&& enables e.fmt = 0) ∧
    (let f := lf 254 1 6 0 0x170 0 1 0
     let e := envOf (laneOf 0) (.vsort f) f (fun t => t.isIntB || t.isArith) rT rNo rNo
     envT (laneOf 0) (.vsort f) f (fun t => t.isIntB || t.isArith) rT rNo rNo = .ok e ∧ e.act = [0]) ∧
    (let f := lf 255 0 4 0 0x170 0 0 0
     let e := envOf lane (.vred f) f (redTy f) rT rNo rNo
     e.ty.isInt = true ∧ e.sat = false ∧ e.s.width = 2 ^ 4 ∧ (∀ l ∈ e.act, l < 2 ^ 4) ∧ e.act.Nodup ∧ e.act.length = 16) :=
  ⟨⟨ok_of env0 (by decide +kernel), by decide +kernel⟩, ⟨ok_of env0 (by decide +kernel), by decide +kernel⟩, by decide +kernel⟩

theorem test_hyp_to_scalar :
    (let f := lf 0 0 4 0 0x170 0 0 0
     let e := envOf lane (.vred f) f (redTy f) rT rNo rNo
     envT lane (.vred f) f (redTy f) rT rNo rNo = .ok e ∧
     (treeReduce e 0 (Nat.log2 lane.width) (redInputs e 0)).2 &&& enables e.fmt = 0) ∧
    (let f := lf 63 0 4 0 0x170 0x1BF 0 0
     envT lane (.vrdl f) f anyTy rT rUni rNo = .ok (envOf lane (.vrdl f) f anyTy rT rUni rNo)) ∧
    (let f := lf 255 0 4 0 0x170 0x180 0 0
     envT lane (.vwrl f) f anyTy rT rUni rNo = .ok (envOf lane (.vwrl f) f anyTy rT rUni rNo)) ∧
    (let s := edit (queued (laneOf 0) 15 0 0) (fun g => { g with vqin := [(1, 14, [3])] })
     let f := lf 15 1 4 0 0x170 0 0 0
     let e := envOf s (.vqin f) f anyTy rT rNo rNo
     envT s (.vqin f) f anyTy rT rNo rNo = .ok e ∧ kindOf s.grp 15 ≠ 0 ∧ blockHeld s.grp = false ∧
     (∀ p ∈ s.grp.vqin, p.1 ≠ s.cur.frag ∧ p.2.1 ≠ f.dst.toNat % 16) ∧
     (mapGet [] s.grp.pushq 15).length + e.act.length ≤ 16) := by
  refine ⟨⟨ok_of env0 (by decide +kernel), by decide +kernel⟩, ok_of env0 (by decide +kernel),
    ok_of env0 (by decide +kernel), ok_of env0 (by decide +kernel), by decide +kernel⟩

/-- The accesses of the lanes, as one test. -/
def plainLanesB (s : State) (xs : List LaneAcc) : Bool := xs.all (fun x => plainB s x.acc && !poisonedFor s s.cur.grp x.acc)

theorem plain_lanes_of {s : State} {xs : List LaneAcc} (h : plainLanesB s xs = true) : PlainLanes s xs := by
  intro x hx
  have := List.all_eq_true.mp h x hx
  simp only [Bool.and_eq_true, Bool.not_eq_true'] at this
  exact ⟨plain_of this.1, this.2⟩

/-- Plain accesses, whose loads, ordinary or coherent, find no value that is marked. -/
def plainLoadsB (s : State) (xs : List LaneAcc) (n : Nat) : Bool := xs.all (fun x => plainB s x.acc &&
  (loadChoices s s.cur.grp (x.acc.loc / 8) x.acc.coh (unitMask (x.acc.loc % 8) n)).all (fun c => !poisonedBy s x.acc n c))
def plainCoherentB (s : State) (xs : List LaneAcc) (n : Nat) : Bool := xs.all (fun x => plainB s x.acc &&
  (coherentChoices s s.cur.grp x.acc (unitMask (x.acc.loc % 8) n)).all (fun c => !poisonedBy s x.acc n c))

theorem plain_loads_of {s : State} {xs : List LaneAcc} {n : Nat} (h : plainLoadsB s xs n = true) : PlainLoads s xs n := by
  intro x hx
  have := List.all_eq_true.mp h x hx
  simp only [Bool.and_eq_true, List.all_eq_true, Bool.not_eq_true'] at this
  exact ⟨plain_of this.1, this.2⟩

theorem plain_coherent_of {s : State} {xs : List LaneAcc} {n : Nat} (h : plainCoherentB s xs n = true) :
    PlainCoherent s xs n := by
  intro x hx
  have := List.all_eq_true.mp h x hx
  simp only [Bool.and_eq_true, List.all_eq_true, Bool.not_eq_true'] at this
  exact ⟨plain_of this.1, this.2⟩

theorem plain_all_of {s : State} {xs : List LaneAcc} (h : xs.all (fun x => plainB s x.acc) = true) :
    ∀ x ∈ xs, Plain s x.acc := fun x hx => plain_of (List.all_eq_true.mp h x hx)

theorem checked_of {s : State} {i : Instr} {f : LaneWord} {types : Ty → Bool} {ra rb rc : Ty → Read}
    (h : (decide (s.cur.grp < s.groups.length) && !blockHeld s.grp && (envT s i f types ra rb rc).isOk) = true) :
    LaneChecked s i f types ra rb rc (envOf s i f types ra rb rc) := by
  simp only [Bool.and_eq_true, decide_eq_true_eq, Bool.not_eq_true'] at h
  exact ⟨h.1.1, ok_of env0 h.2, h.1.2⟩

/-- A load or store of f32 in lane l at s(k) + 4l − 4, by displacement −4. -/
def memWord (dst : BitVec 8) (k : BitVec 10) (c : BitVec 10) : LaneWord := lf dst 0 10 0 (0x110 + k) 0x170 c 0x80FFFFFC
/-- An atomic addition of n32 there, or with another operation. -/
def atomWord (op : BitVec 32) (k : BitVec 10) (c : BitVec 10) : LaneWord :=
  lf 255 0 5 0 (0x110 + k) 0x170 c (0x80007FFC + op <<< 20)
def accs (e : Env) (disp : Int) (n : Nat) (need : Need) (k : Nat) : List LaneAcc := okOr [] (laneAccesses e disp n need k)
/-- The lane group with s1 and s2 a word above their pages' places. -/
def laneMem : State := edit (laneOf 0) (fun g => { g with
  blocks := [{ (default : Block) with
    scal := [(1, 0x500004), (2, 0x40500004)]
    axis := [(0, 0x5C00)]
    ckpt := ⟨0x400004, [], 0, [], []⟩ }] })

theorem test_hyp_loads :
    (let f := memWord 255 1 0
     let e := envOf laneMem (.vld f) f memTy rBase (rTy .n32) rNo
     LaneChecked laneMem (.vld f) f memTy rBase (rTy .n32) rNo e ∧
     laneAccesses e (w2Imm f.w2) (e.ty.bits / 8) needR 0 = .ok (accs e (w2Imm f.w2) (e.ty.bits / 8) needR 0) ∧
     PlainLoads laneMem (accs e (w2Imm f.w2) (e.ty.bits / 8) needR 0) (e.ty.bits / 8) ∧ e.act.length = 16 ∧
     WholeLanes laneMem (accs e (w2Imm f.w2) (e.ty.bits / 8) needR 0) (e.ty.bits / 8)) ∧
    (let f := memWord 0 1 0
     let e := envOf laneMem (.vldc f) f memTy rBase (rTy .n32) rNo
     LaneChecked laneMem (.vldc f) f memTy rBase (rTy .n32) rNo e ∧
     laneAccesses e (w2Imm f.w2) (e.ty.bits / 8) needR 0 = .ok (accs e (w2Imm f.w2) (e.ty.bits / 8) needR 0) ∧
     PlainCoherent laneMem (accs e (w2Imm f.w2) (e.ty.bits / 8) needR 0) (e.ty.bits / 8) ∧
     WholeLanes laneMem (accs e (w2Imm f.w2) (e.ty.bits / 8) needR 0) (e.ty.bits / 8) ∧
     ∀ x ∈ accs e (w2Imm f.w2) (e.ty.bits / 8) needR 0, waitingStores laneMem laneMem.cur.grp (x.acc.loc / 8) x.acc.coh
       (unitMask (x.acc.loc % 8) (e.ty.bits / 8)) = [] ∧ x.acc.coh ≠ 2 ∧ ∀ h ∈ unitHist laneMem (x.acc.loc / 8), h.shut ≠ 0) ∧
    (let f := lf 0 0 0 0 0x111 0x170 0 0x30000000
     envT laneMem (.vpref f) f (fun _ => true) rBase (rTy .n32) rNo =
       .ok (envOf laneMem (.vpref f) f (fun _ => true) rBase (rTy .n32) rNo)) :=
  ⟨⟨checked_of (by decide +kernel), ok_of _ (by decide +kernel), plain_loads_of (by decide +kernel), by decide +kernel,
    by unfold WholeLanes; decide +kernel⟩,
   ⟨checked_of (by decide +kernel), ok_of _ (by decide +kernel), plain_coherent_of (by decide +kernel),
    by unfold WholeLanes; decide +kernel, by decide +kernel⟩, ok_of env0 (by decide +kernel)⟩

/-- Pages with hardware coherence, and pages without. -/
theorem test_hyp_stores :
    (let f := memWord 0 1 0x1C1
     let e := envOf laneMem (.vst f) f memTy rBase (rTy .n32) rT
     let xs := accs e (w2Imm f.w2) (e.ty.bits / 8) needW 1
     LaneChecked laneMem (.vst f) f memTy rBase (rTy .n32) rT e ∧
     laneAccesses e (w2Imm f.w2) (e.ty.bits / 8) needW 1 = .ok xs ∧ (∀ x ∈ xs, Plain laneMem x.acc) ∧ (∀ x ∈ xs, x.acc.coh = 0) ∧
     ∀ l ∈ e.act, (groupAccess laneMem (laneVa laneMem e (dispOf f.w2) l) (e.ty.bits / 8) needW).isOk = true ∧
       plainB laneMem (acc laneMem (laneVa laneMem e (dispOf f.w2) l) (e.ty.bits / 8) needW) = true) ∧
    (let f := memWord 0 2 0x1C1
     let e := envOf laneMem (.vst f) f memTy rBase (rTy .n32) rT
     let xs := accs e (w2Imm f.w2) (e.ty.bits / 8) needW 1
     LaneChecked laneMem (.vst f) f memTy rBase (rTy .n32) rT e ∧
     laneAccesses e (w2Imm f.w2) (e.ty.bits / 8) needW 1 = .ok xs ∧ (∀ x ∈ xs, Plain laneMem x.acc) ∧ (∀ x ∈ xs, x.acc.coh ≠ 0) ∧
     (laneMem.dirty.filter (fun d => d.core == laneMem.grp.core && !d.hc)).length + xs.length ≤ 16) :=
  ⟨⟨checked_of (by decide +kernel), ok_of _ (by decide +kernel), plain_all_of (by decide +kernel), by decide +kernel⟩,
   checked_of (by decide +kernel), ok_of _ (by decide +kernel), plain_all_of (by decide +kernel), by decide +kernel⟩

theorem test_hyp_atomics :
    let f := atomWord 7 1 0x191
    let e := envOf laneMem (.vatom f) f (atomTy f) rBase (rTy .n32) rT
    let xs := accs e (w2Disp f.w2) (e.ty.bits / 8) needRW 2
    LaneChecked laneMem (.vatom f) f (atomTy f) rBase (rTy .n32) rT e ∧ f.w2.toNat / 2 ^ 18 % 4 = 0 ∧
      laneAccesses e (w2Disp f.w2) (e.ty.bits / 8) needRW 2 = .ok xs ∧ PlainLanes laneMem xs ∧ ∀ x ∈ xs, x.acc.coh = 0 :=
  ⟨checked_of (by decide +kernel), by decide +kernel, ok_of _ (by decide +kernel), plain_lanes_of (by decide +kernel),
   by decide +kernel⟩

theorem test_hyp_local :
    (let f := lf 255 0 10 0 0x190 0x170 0 0x80000000
     let e := envOf laneMem (.lld f) f memTy (rTy .n32) (rTy .n32) rNo
     let xs := okOr [] (localAccesses e (w2Imm f.w2) (e.ty.bits / 8))
     LaneChecked laneMem (.lld f) f memTy (rTy .n32) (rTy .n32) rNo e ∧
     localAccesses e (w2Imm f.w2) (e.ty.bits / 8) = .ok xs ∧ xs.length = 16 ∧
     ∀ x ∈ xs, localBad laneMem laneMem.grp x.2 = false ∧
       ∀ h ∈ unitHist laneMem (localName laneMem laneMem.grp x.2), h.shut ≠ 0) ∧
    (let f := lf 0 0 10 0 0x190 0 0x1C1 0x00000FFC
     let e := envOf laneMem (.lst f) f memTy (rTy .n32) (rTy .n32) rT
     LaneChecked laneMem (.lst f) f memTy (rTy .n32) (rTy .n32) rT e ∧ laneMem.teamOf laneMem.grp < laneMem.teams.length ∧
     localAccesses e (w2Imm f.w2) (e.ty.bits / 8) = .ok (okOr [] (localAccesses e (w2Imm f.w2) (e.ty.bits / 8)))) ∧
    (let f := lf 255 0 5 0 0x190 0x170 0x191 0x80700000
     let e := envOf laneMem (.latom f) f (atomTy f) (rTy .n32) (rTy .n32) rT
     let xs := okOr [] (localAccesses e (w2Disp f.w2) (e.ty.bits / 8))
     LaneChecked laneMem (.latom f) f (atomTy f) (rTy .n32) (rTy .n32) rT e ∧ f.w2.toNat / 2 ^ 18 % 4 = 0 ∧
     localAccesses e (w2Disp f.w2) (e.ty.bits / 8) = .ok xs ∧ laneMem.teamOf laneMem.grp < laneMem.teams.length ∧
     ∀ x ∈ xs, localBad laneMem laneMem.grp x.2 = false ∧ x.2.1 = 0 ∧
       ∀ h ∈ unitHist laneMem (localName laneMem laneMem.grp x.2), h.shut ≠ 0) :=
  ⟨⟨checked_of (by decide +kernel), ok_of _ (by decide +kernel), by decide +kernel⟩,
   ⟨checked_of (by decide +kernel), by decide +kernel, ok_of _ (by decide +kernel)⟩,
   checked_of (by decide +kernel), by decide +kernel, ok_of _ (by decide +kernel), by decide +kernel⟩

/-- The lane group with axes 0 and 3 of this value, and these exception enables; MREG is v255, which holds zeros, so that a
conversion to zb4 finds no scale. -/
def stippleMem (axis : Dword) (fmtc : BitVec 25) : State := edit laneMem (fun g => { g with
  blocks := [{ (default : Block) with
    scal := [(1, 0x500004)]
    axis := [(0, axis), (3, axis)]
    ckpt := ⟨0x400004, [], 0, [], []⟩ }]
  frags := [(0, { firstFrag 16 0 0 with fmtc := fmtc })] })
/-- SEQ with type ts8; SEQ with type zb4 in blocks of 32, without a part; and the latter in LANE mode. -/
def seqAxis : Dword := 0xFF7400
def nibbleAxis : Dword := 0xFF7C00
def laneAxis : Dword := 0xFF7C10

/-- ESAV and ELOD of axis 3 can act. -/
def axisCase (axis : Dword) (lane1 : Bool) : Prop :=
  let s := stippleMem axis 0
  let f := lf 3 0 0 0 0x111 0x170 0 0x80FFFFFC
  let e := envOf s (.esav f) f (fun _ => true) rBase (rTy .n32) rNo
  let d := envOf s (.elod f) f (fun _ => true) rBase (rTy .n32) rNo
  let xs := accs { e with act := axisLanes e (axisOf e).2 } (w2Imm f.w2) 4 needW 1
  let ys := accs { d with act := axisLanes d (axisOf d).2 } (w2Imm f.w2) 4 needR 0
  LaneChecked s (.esav f) f (fun _ => true) rBase (rTy .n32) rNo e ∧ bindOk s 3 = true ∧ axisLane (axisOf e).2 = lane1 ∧
  laneAccesses { e with act := axisLanes e (axisOf e).2 } (w2Imm f.w2) 4 needW 1 = .ok xs ∧ (∀ x ∈ xs, Plain s x.acc) ∧
  (∀ x ∈ xs, x.acc.coh = 0) ∧ LaneChecked s (.elod f) f (fun _ => true) rBase (rTy .n32) rNo d ∧
  laneAccesses { d with act := axisLanes d (axisOf d).2 } (w2Imm f.w2) 4 needR 0 = .ok ys ∧ PlainLoads s ys 4 ∧
  WholeLanes s ys 4

theorem test_hyp_stipple :
    (let s := stippleMem laneAxis 0
     let f := lf 0 0 0 0 0 0 0 0
     let e := envOf s (.eclr f) f (fun _ => true) rNo rNo rNo
     envT s (.eclr f) f (fun _ => true) rNo rNo rNo = .ok e ∧ s.cur.grp < s.groups.length ∧ s.width ≤ 64 ∧ bindOk s 0 = true ∧
     e.act ≠ [] ∧ axisLane (axisOf e).2 = true) ∧
    axisCase seqAxis false ∧ axisCase laneAxis true :=
  ⟨⟨ok_of env0 (by decide +kernel), by decide +kernel⟩,
   ⟨checked_of (by decide +kernel), by decide +kernel, by decide +kernel, ok_of _ (by decide +kernel),
    plain_all_of (by decide +kernel), by decide +kernel, checked_of (by decide +kernel), ok_of _ (by decide +kernel),
    plain_loads_of (by decide +kernel), by unfold WholeLanes; decide +kernel⟩,
   checked_of (by decide +kernel), by decide +kernel, by decide +kernel, ok_of _ (by decide +kernel),
   plain_all_of (by decide +kernel), by decide +kernel, checked_of (by decide +kernel), ok_of _ (by decide +kernel),
   plain_loads_of (by decide +kernel), by unfold WholeLanes; decide +kernel⟩

/-- VSTQ of axis 3 at instruction s(1) + lane + 0xFF. -/
def vstqWord : LaneWord := lf 3 0 0 0 0x111 0x170 0x1C1 0xFF
def vstqEnv (s : State) : Env := envOf s (.vstq vstqWord) vstqWord (fun _ => true) rBase (rTy .n32) (rTy .f32)
/-- VSTQ can act with this type. -/
def vstqCase (s : State) (t : Ty) : Prop :=
  let e := vstqEnv s
  let a := (axisOf e).2
  LaneChecked s (.vstq vstqWord) vstqWord (fun _ => true) rBase (rTy .n32) (rTy .f32) e ∧
  bindOk s 3 = true ∧ axisType a = some t ∧ bits a.toNat 15 11 ≠ 0 ∧ axisMreg a < s.nvreg ∧
  ∀ l ∈ e.act, (groupAccess s (codeTarget s e t l) 1 needW).isOk = true ∧
    plainB s (acc s (codeTarget s e t l) 1 needW) = true ∧ (acc s (codeTarget s e t l) 1 needW).coh = 0

theorem test_hyp_vstq :
    (vstqCase (stippleMem seqAxis 0) .ts8 ∧ axisLane seqAxis = false ∧
      ∀ r ∈ conversions (stippleMem seqAxis 0) (vstqEnv (stippleMem seqAxis 0)) 3 seqAxis .ts8,
        r.2.2.2 &&& enables (vstqEnv (stippleMem seqAxis 0)).fmt = 0) ∧
    (vstqCase (stippleMem laneAxis 0) .zb4 ∧ axisLane laneAxis = true ∧
      ∀ r ∈ conversions (stippleMem laneAxis 0) (vstqEnv (stippleMem laneAxis 0)) 3 laneAxis .zb4,
        r.2.2.2 &&& enables (vstqEnv (stippleMem laneAxis 0)).fmt = 0) ∧
    (vstqCase (stippleMem nibbleAxis 31) .zb4 ∧
      ((conversions (stippleMem nibbleAxis 31) (vstqEnv (stippleMem nibbleAxis 31)) 3 nibbleAxis .zb4).find?
        (fun r => r.2.2.2 &&& enables (vstqEnv (stippleMem nibbleAxis 31)).fmt != 0)).isSome = true) ∧
    (let s := edit (stippleMem seqAxis 0) (fun g => { g with
       abind := 0x8000000000000000
       frags := [(0, { firstFrag 16 0 0 with smask := 1 })] })
     LaneChecked s (.vstq vstqWord) vstqWord (fun _ => true) rBase (rTy .n32) (rTy .f32) (vstqEnv s) ∧
     stipple (.vstq vstqWord) = some (vstqWord, rBase, rTy .n32, rTy .f32) ∧ bindOk s 3 = false ∧
     (axisOf (vstqEnv s)).2 = seqAxis ∧ axisType seqAxis = some .ts8 ∧ axisMreg seqAxis < s.nvreg) ∧
    (let s := stippleMem 0xFF0000 0
     LaneChecked s (.vstq vstqWord) vstqWord (fun _ => true) rBase (rTy .n32) (rTy .f32) (vstqEnv s) ∧
     bits (axisOf (vstqEnv s)).2.toNat 15 11 = 0) ∧
    (let s : State := { stippleMem seqAxis 0 with launches := [{ placedLaunch with vregs := 16 }] }
     LaneChecked s (.vstq vstqWord) vstqWord (fun _ => true) rBase (rTy .n32) (rTy .f32) (vstqEnv s) ∧
     s.nvreg ≤ axisMreg (axisOf (vstqEnv s)).2) :=
  ⟨⟨⟨checked_of (by decide +kernel), by decide +kernel⟩, by decide +kernel⟩,
   ⟨⟨checked_of (by decide +kernel), by decide +kernel⟩, by decide +kernel⟩,
   ⟨⟨checked_of (by decide +kernel), by decide +kernel⟩, by decide +kernel⟩,
   ⟨checked_of (by decide +kernel), rfl, by decide +kernel⟩,
   ⟨checked_of (by decide +kernel), by decide +kernel⟩, checked_of (by decide +kernel), by decide +kernel⟩

/-! ### Traps of lanes -/

/-- The lane group with s1 this address, and a third GiB that may only be read. -/
def reaching (va : Dword) : State := edit (poke laneMem 0x12010 8 0xE9) (fun g => { g with
  blocks := g.blocks.map (fun b => { b with scal := [(1, va)] }) })
/-- The fault of a lane's access. -/
def faultOf (s : State) (e : Env) (disp : Int) (need : Need) (l : Nat) : MemFault :=
  match groupAccess s (laneVa s e disp l) (e.ty.bits / 8) need with
  | .error x => x
  | .ok _ => default

theorem first_of {s : State} {e : Env} {disp : Int} {need : Need} {l : Nat}
    (h : (e.act.contains l && !(groupAccess s (laneVa s e disp l) (e.ty.bits / 8) need).isOk &&
      e.act.all (fun k => match groupAccess s (laneVa s e disp k) (e.ty.bits / 8) need with
        | .error y => decide ((faultOf s e disp need l).cond < y.cond ∨ (faultOf s e disp need l).cond = y.cond ∧ l ≤ k)
        | .ok _ => true)) = true) :
    FirstFault s e disp need l (faultOf s e disp need l) := by
  simp only [Bool.and_eq_true, List.contains_iff_mem, List.all_eq_true, Bool.not_eq_true'] at h
  refine ⟨h.1.1, ?_, fun k hk y hy => ?_⟩
  · have := h.1.2
    unfold faultOf
    split <;> simp_all [Except.isOk, Except.toBool]
  · have := h.2 k hk
    rw [hy] at this
    exact of_decide_eq_true this

/-- A store of f32 in lane l at s(1) + 4l − 4. -/
def storeWord : LaneWord := memWord 0 1 0x1C1
def storeEnv (s : State) : Env := envOf s (.vst storeWord) storeWord memTy rBase (rTy .n32) rT
/-- A store whose first failing lane is l, with this condition and code. -/
def failing (va : Dword) (l cond code : Nat) : Prop :=
  let s := reaching va
  let e := storeEnv s
  let x := faultOf s e (dispOf storeWord.w2) needW l
  laneMemory (.vst storeWord) = some (storeWord, memTy, rT, needW, 1, dispOf storeWord.w2) ∧
  LaneChecked s (.vst storeWord) storeWord memTy rBase (rTy .n32) rT e ∧ FirstFault s e (dispOf storeWord.w2) needW l x ∧
  x.bad = false ∧ x.cond = cond ∧ (x.code = code ∨ cond = 3)

/-- High bits set, a misaligned address, and at the last lane a page that may not be written (which the lanes before it
do not meet) and one that is not present. -/
theorem test_hyp_lane_traps :
    failing (2 ^ 54 + 4) 0 1 0x07 ∧ failing 0x500005 0 2 0x05 ∧ failing 0x7FFFFFC8 15 4 0x07 ∧ failing 0xBFFFFFC8 15 3 0 :=
  ⟨⟨rfl, checked_of (by decide +kernel), first_of (by decide +kernel), by decide +kernel⟩,
   ⟨rfl, checked_of (by decide +kernel), first_of (by decide +kernel), by decide +kernel⟩,
   ⟨rfl, checked_of (by decide +kernel), first_of (by decide +kernel), by decide +kernel⟩,
   rfl, checked_of (by decide +kernel), first_of (by decide +kernel), by decide +kernel⟩

theorem test_hyp_local_traps :
    (let f := lf 255 0 10 0 0x190 0x170 0 0x80000FFC
     let e := envOf laneMem (.lld f) f memTy (rTy .n32) (rTy .n32) rNo
     localMemory (.lld f) = some (f, memTy, rNo, dispOf f.w2) ∧
     LaneChecked laneMem (.lld f) f memTy (rTy .n32) (rTy .n32) rNo e ∧
     e.act.find? (fun k => (localPlace laneMem laneMem.grp (e.a k + 4 * e.b k + 4092)).isNone) = some 1) ∧
    (let f := lf 255 0 10 0 0x190 0x170 0 0x80000002
     let e := envOf laneMem (.lld f) f memTy (rTy .n32) (rTy .n32) rNo
     LaneChecked laneMem (.lld f) f memTy (rTy .n32) (rTy .n32) rNo e ∧
     (∀ k ∈ e.act, (localPlace laneMem laneMem.grp (e.a k + 4 * e.b k + 2)).isNone = false) ∧
     e.act.find? (fun k => (e.a k + 4 * e.b k + 2) % 4 != 0) = some 0) ∧
    ((2 ^ 54 ≤ (2 ^ 54 : Dword).toNat ∧ (groupAccess laneMem (2 ^ 54) 4 needR).isOk = false) ∧
     ((2 ^ 54 - 1 : Dword).toNat < 2 ^ 54 ∧ (2 ^ 54 - 1 : Dword).toNat % 4 ≠ 0 ∧
      (groupAccess laneMem (2 ^ 54 - 1) 4 needR).isOk = false)) :=
  ⟨⟨rfl, checked_of (by decide +kernel), by decide +kernel⟩, ⟨checked_of (by decide +kernel), by decide +kernel⟩,
   by decide +kernel⟩

/-- A lane group with one slice, whose lane 0 only has p1. -/
def oneSlice : State := edit (laneOf 0) (fun g => { g with frags := [(0, { firstFrag 16 0 0 with smask := 1 })] })
/-- The same with entries on slice 0's stack. -/
def stacked (es : List StackEntry) : State := edit oneSlice (fun g => { g with recon := [(0, es)] })

theorem test_hyp_branch :
    (let s := laneOf 0
     let f := lf 0 0 0 0 0 0 0 0xFFFFFF
     s.cur.grp < s.groups.length ∧ s.frag.smask ≠ 0 ∧ (∀ sl ∈ s.frag.slices, (s.grp.stackAt sl).length ≤ 62) ∧
     ∀ sl ∈ s.frag.slices, (∃ i, i < 4 ∧ laneActive s f (4 * sl + i) = true) ∧
       ∀ i, i < 4 → bit s.grp.act (4 * sl + i) = true → laneActive s f (4 * sl + i) = true) ∧
    (∀ l ∈ (laneOf 0).frag.lanes, laneActive (laneOf 0) (lf 0 7 0 0 0 0 0x40 1) l = false) ∧
    (let s := stacked (List.replicate 62 ⟨2, 15, 0, 9, 0⟩)
     let f := lf 0 1 0 0 0 0 0x40 1
     s.frag.slices = [0] ∧ (s.grp.stackAt 0).length = 62 ∧ laneActive s f 0 = true ∧ laneActive s f 3 = false ∧
     bit s.grp.act 3 = true) ∧
    (let s := stacked (List.replicate 6 ⟨2, 15, 0, 9, 0⟩)
     mapGet 0 s.grp.spilled 0 ≤ (s.grp.stackAt 0).length ∧ (s.grp.stackAt 0).length + 2 ≤ mapGet 0 s.grp.spilled 0 + 8) := by
  refine ⟨⟨by decide +kernel, by decide +kernel, by decide +kernel, fun sl h => ⟨⟨0, by decide, ?_⟩, ?_⟩⟩, by decide +kernel,
    by decide +kernel, by decide +kernel⟩ <;> (revert sl; decide +kernel)

/-- A lane jump table of two entries at instruction 1, whose second entry names the pad at instruction 3. -/
def laneTable : State := edit (poke (poke (poke (laneOf 0) 0x40000C 4 2) 0x400014 4 (2 * 2 ^ 12 + 0xFFF)) 0x400024 12
  (0x123 * 2 ^ 23 + 0xFFF * 2 ^ 64)) (fun g => { g with saveReq := some true })

theorem test_hyp_jumps :
    (let s := laneTable
     let f := lf 0 0 0 0 0x191 0 0 0
     let e := envOf s (.ljtab f) f (fun _ => true) (rTy .n32) rNo rNo
     let tab := laneJump s f
     let w := 2 * 2 ^ 12 + 0xFFF
     let target := tab + (BitVec.ofNat 20 (w / 2 ^ 12)).signExtend 26
     s.cur.grp < s.groups.length ∧ (envT s (.ljtab f) f (fun _ => true) (rTy .n32) rNo rNo).isOk = true ∧ s.frag.smask ≠ 0 ∧
     (∀ sl ∈ s.frag.slices, (s.grp.stackAt sl).length ≤ 64 ∧ 4 * sl ∈ e.act) ∧ (∀ l ∈ e.act, amount (e.a l) = 1) ∧
     fetchLaneWord s (laneAddr s tab.toNat) 20 = .ok 2 ∧
     fetchLaneWord s (laneAddr s tab.toNat + BitVec.ofNat 64 (4 * (1 + 1))) (20 + (1 + 1)) = .ok w ∧
     target.toNat < (s.launchOf s.grp).lcount ∧ fetchLane s target.toNat = .ok (0x123 * 2 ^ 23 + w % 2 ^ 12 * 2 ^ 64)) ∧
    (mapsOk (lane.launchOf lane.grp) 0xFFFFFFFFFFFFFFFF 1 = true ∧ lane.grp.saveReq = none) ∧
    (laneTable.grp.saveReq = some true ∧ fullyGanged laneTable = true ∧ mapsOk (laneTable.launchOf laneTable.grp) 0 0 = true) := by
  decide +kernel

theorem test_hyp_joins :
    (lane.cur.grp < lane.groups.length ∧ lane.frag.smask ≠ 0 ∧ ∀ sl ∈ lane.frag.slices, lane.grp.stackAt sl = []) ∧
    (let s := stacked [⟨2, 0xFFFF, 5, 0, 0⟩]
     s.frag.slices = [0] ∧ s.grp.stackAt 0 = [⟨2, 0xFFFF, 5, s.frag.pc, 0⟩]) ∧
    (let s := stacked (⟨1, 2, 0x3FFFFFF, 0, 0⟩ :: List.replicate 63 ⟨2, 15, 0, 9, 0⟩)
     s.frag.slices = [0] ∧ s.grp.stackAt 0 = ⟨1, 2, 0x3FFFFFF, s.frag.pc, 0⟩ :: List.replicate 63 ⟨2, 15, 0, 9, 0⟩ ∧
     (List.replicate 63 (⟨2, 15, 0, 9, 0⟩ : StackEntry)).length < 64 ∧ 0x3FFFFFF ≠ s.frag.pc ∧ s.cur.frag < 16) ∧
    (lane.grp.live = [lane.cur.frag] ∧ lane.grp.recon = [] ∧ lane.grp.side = [] ∧ lane.grp.slds = [] ∧
     lane.grp.blocks.length = 1 ∧ twoBlocks.grp.live = [twoBlocks.cur.frag] ∧ twoBlocks.grp.recon = [] ∧
     twoBlocks.grp.side = [] ∧ twoBlocks.grp.slds = [] ∧ twoBlocks.grp.blocks.length = 2) := by
  decide +kernel

/-! ### The hypotheses of the statements about synchronisation -/

/-- A copy command of group 0 that runs. -/
def copying : Cmd := { (default : Cmd) with
  id := 1
  eng := 1
  state := .running }

theorem test_hyp_phases :
    Committed base ∧ NoDeferred base ∧ pubReady base base.cur.grp 5 = true ∧ (5 : BitVec 3) ≠ 0 ∧
    Committed { base with remote := [posted] } ∧ NoDeferred { base with remote := [posted] } ∧
    pubReady { base with remote := [posted] } 0 4 = false :=
  ⟨committed_of (by decide +kernel), by unfold NoDeferred; decide +kernel, by decide +kernel, by decide,
   committed_of (by decide +kernel), by unfold NoDeferred; decide +kernel, by decide +kernel⟩

theorem next_of {o : Result} (h : (match o with
    | .next _ => true
    | _ => false) = true) : ∃ t, o = .next t := by
  cases o <;> simp_all

/-- A store of a byte kept in the L1 of core 0. -/
def keptStore : Dirty := ⟨0, 0x500000 / 8, 0xFF, 7, 0, 0, false, false, [], false⟩
def kept : State := { base with dirty := [keptStore] }

theorem test_hyp_visibility :
    (Inv base ∧ Committed base ∧ NoDeferred base ∧ (∃ t, exec (.phaseRef 1) base = .next t) ∧
      (∀ h ∈ unitHist base 0, h.shut ≠ 0) ∧ waitingStores base base.cur.grp 0 0 0xFF = [] ∧
      loadValues base base.cur.grp 0 0 0xFF ≠ []) ∧
    (Committed kept ∧ NoDeferred kept ∧ kept.migrations = [] ∧
      keptStore ∈ kept.dirty ∧ keptStore.grp = kept.cur.grp ∧ keptStore.cp = false ∧
      (∀ x ∈ kept.dirty, x ≠ keptStore → x.unit ≠ keptStore.unit) ∧ (∀ x ∈ kept.dirty, 8 * x.unit < migBase) ∧
      ∃ t, exec (.phasePub 1) kept = .next t) :=
  ⟨⟨⟨by decide +kernel, by decide +kernel, by decide +kernel, by decide +kernel⟩, committed_of (by decide +kernel),
    by unfold NoDeferred; decide +kernel, next_of (by decide +kernel), by decide +kernel⟩,
   committed_of (by decide +kernel), by unfold NoDeferred; decide +kernel, by decide +kernel, by decide +kernel,
   by decide +kernel, by decide +kernel, by decide +kernel, by decide +kernel, next_of (by decide +kernel)⟩

theorem test_hyp_fences :
    (Committed base ∧ NoDeferred base ∧ fenceReady base base.cur.grp 127 = true ∧ base.grp.wait = .none ∧
      coreBusy base base.grp.core 127 base.nextId = false) ∧
    (let s := { base with
       cmds := [copying]
       nextId := 2 }
     Committed s ∧ fenceReady s s.cur.grp (2 ^ kindClass 1) = false ∧ s.grp.wait = .none ∧
     coreBusy s s.grp.core (2 ^ kindClass 1) s.nextId = true) :=
  ⟨⟨committed_of (by decide +kernel), by unfold NoDeferred; decide +kernel, by decide +kernel⟩,
   committed_of (by decide +kernel), by decide +kernel⟩

/-- The group's team has barrier 63 with this count, arrivals, phase and token. -/
def barred (exp cnt : Nat) (ph : Bool) (pair : Bool) : State :=
  let g := base.grp
  { base with
    launches := [{ placedLaunch with pair := pair }]
    barriers := [(barKey g pair.toNat 63, { (default : Barrier) with
      valid := true
      ph := ph
      exp := exp
      cnt := cnt
      asid := 1
      ltag := 1 })] }

theorem open_of {exp cnt : Nat} {ph pair : Bool}
    (h : (let s := barred exp cnt ph pair
      decide (s.cur.grp < s.groups.length) && s.grp.quiet && s.grp.wait == .none && (s.launchOf s.grp).pair == pair &&
      (s.barrier (barKey s.grp pair.toNat 63)).valid && ownsBarrier s s.grp (s.barrier (barKey s.grp pair.toNat 63))) = true) :
    BarrierOpen (barred exp cnt ph pair) pair.toNat 63 := by
  simp only [Bool.and_eq_true, decide_eq_true_eq, beq_iff_eq] at h
  refine ⟨⟨h.1.1.1.1.1, h.1.1.1.1.2⟩, h.1.1.1.2, fun hp => ?_, h.1.2, h.2⟩
  rw [h.1.1.2]
  cases pair <;> simp_all

theorem test_hyp_barriers :
    (Committed (withRegs base [(1, 65535)]) ∧ 1 ≤ ((withRegs base [(1, 65535)]).reg 1).toNat ∧
      ((withRegs base [(1, 65535)]).reg 1).toNat ≤ 65535 ∧ ∀ j, j < (withRegs base [(1, 65535)]).groups.length →
        waitsOn (withRegs base [(1, 65535)]) j (barKey base.grp 0 63) = false) ∧
    (BarrierOpen (barred 1 0 false false) 0 63 ∧ BarrierOpen (barred 65535 0 true true) 1 63) ∧
    ((barred 65535 0 true true).barrier (barKey base.grp 1 63)).ph = true ∧ bit (barred 65535 0 true true).grp.wtok 127 = false ∧
    ((barred 1 0 false false).barrier (barKey base.grp 0 63)).ph = false ∧ bit (barred 1 0 false false).grp.wtok 63 = false ∧
    ((barred 1 0 false false).barrier (barKey base.grp 0 63)).cnt + 1 =
      ((barred 1 0 false false).barrier (barKey base.grp 0 63)).exp ∧
    ((barred 65535 0 true true).barrier (barKey base.grp 1 63)).cnt + 1 ≠
      ((barred 65535 0 true true).barrier (barKey base.grp 1 63)).exp :=
  ⟨⟨committed_of (by decide +kernel), by decide +kernel⟩,
   ⟨open_of (pair := false) (by decide +kernel), open_of (pair := true) (by decide +kernel)⟩, by decide +kernel⟩

/-- The traps: the partner's barrier outside a pair team, one that is not valid, one of another team, counts out of range, and
an INIT while a group waits. -/
theorem test_hyp_barrier_traps :
    (Committed base ∧ base.grp.wait = .none ∧ base.grp.ahead = false ∧ (base.launchOf base.grp).pair = false ∧
      (base.barrier (barKey base.grp 0 63)).valid = false) ∧
    (let s := { barred 1 0 false false with launches := [{ placedLaunch with ltag := 2 }] }
     (s.barrier (barKey s.grp 0 63)).valid = true ∧ ownsBarrier s s.grp (s.barrier (barKey s.grp 0 63)) = false ∧
     Committed s) ∧
    (let s := withRegs base [(1, 65536)]
     Committed s ∧ ¬ (s.reg 1).toNat ≤ 65535 ∧ ¬ 1 ≤ (s.reg 0).toNat) ∧
    (let s := withRegs (barred 1 0 false false) [(1, 65535)]
     let s := { s with groups := s.groups ++ [{ s.grp with wait := .barrier false 63 false }] }
     Committed s ∧ ∃ j, j < s.groups.length ∧ waitsOn s j (barKey s.grp 0 63) = true) :=
  ⟨⟨committed_of (by decide +kernel), by decide +kernel⟩, ⟨by decide +kernel, by decide +kernel, committed_of (by decide +kernel)⟩,
   ⟨committed_of (by decide +kernel), by decide +kernel⟩, committed_of (by decide +kernel), 1, by decide +kernel⟩

/-- A word of 7 at 0x500004, and 4096 monitors at its slice. -/
def watched : State := withRegs (poke base 0x500004 4 7) [(1, 0x500004), (2, 7), (3, 8)]
def fullWatch (n : Nat) : State := { watched with
  monitors := List.replicate n { (default : Monitor) with slice := (acc watched 0x500004 4 needR).slice } }

theorem full_watch (n : Nat) :
    ((fullWatch n).monitors.filter (fun m => m.slice == (acc watched 0x500004 4 needR).slice)).length = n := by
  simp only [fullWatch]
  rw [List.filter_eq_self.mpr (fun m h => by rw [List.eq_of_mem_replicate h]; simp), List.length_replicate]

theorem test_hyp_monitors :
    (let x := acc watched (watched.reg 1) 4 needR
     Committed watched ∧ watched.grp.wait = .none ∧ groupAccess watched (watched.reg 1) 4 needR = .ok x ∧ Plain watched x ∧
     let u := (coherentUnit (noteAccess watched (watched.reg 1) x) watched.cur.grp x 4 9).1
     x.home ≠ 1 ∧ x.coh = 0 ∧
     (∀ c ∈ coherentChoices (noteAccess watched (watched.reg 1) x) watched.cur.grp x (unitMask (x.loc % 8) 4),
       poisonedBy (noteAccess watched (watched.reg 1) x) x 4 c = false) ∧
     waitingStores watched watched.cur.grp (x.loc / 8) 0 (unitMask (x.loc % 8) 4) = [] ∧
     (∀ h ∈ unitHist watched (x.loc / 8), h.shut ≠ 0) ∧
     compares 0 false (BitVec.ofNat 64 (u.toNat / 2 ^ (8 * (x.loc % 8)) % 2 ^ (8 * 4))) (watched.reg 2) = true ∧
     compares 5 false (BitVec.ofNat 64 (u.toNat / 2 ^ (8 * (x.loc % 8)) % 2 ^ (8 * 4))) (watched.reg 3) = false ∧ ¬ 4096 ≤ (watched.monitors.filter (fun m => m.slice == x.slice)).length) ∧
    4096 ≤ ((fullWatch 4096).monitors.filter (fun m => m.slice == (acc watched 0x500004 4 needR).slice)).length ∧
    (let s := edit base (fun g => { g with wait := .monitor 0x500004 true })
     Committed s ∧ s.grp.wait = .monitor 0x500004 true) :=
  ⟨⟨committed_of (by decide +kernel), by decide +kernel, ok_of _ (by decide +kernel), plain_of (by decide +kernel),
    by decide +kernel⟩, (full_watch 4096).ge, committed_of (by decide +kernel), by decide +kernel⟩

/-- The base with a migration directory of one page, mapped at 0x80000000, whose home is the frame at 0x700000. -/
def mig : State := regSet (regSet (poke (poke (poke (poke base 0x12010 8 0x13001) 0x13000 8 0x14001) 0x14000 8
  0x10000000000000F9) 0x600000 26 (0x700 * 2 ^ 24 + 2 ^ 182)) dirBaseAddr 0x600000) dirLenAddr 1

/-- The object at the start of that page: a queue with header 0xFFFF and places 1 and 0xFFFE of group 0 in these
states, and registers that hold the object and the handles of both places. Its home slice is 0 (R334). -/
def placed (st st2 : Nat) : State :=
  withRegs { mig with places :=
    [(1, ⟨2, st, 0, 0xFFFE, 0, 0, 5, false, none, some 0, 0xFFFF⟩),
     (0xFFFE, ⟨2, st2, 0, 0xFFFF, 0, 0, 5, false, none, some 0, 0xFFFF⟩),
     (0xFFFF, ⟨1, 0, 0, 1, 0xFFFE, migLoc 0 0 / 128, 0, false, none, none, 0⟩)] }
    [(1, 0x80000000), (2, 1 <<< 28), (3, 0xFFFE <<< 28)]

theorem held_of {s : State} {h : Dword}
    (x : (decide (s.cur.grp < s.groups.length) && s.grp.quiet && !handleRemote s h && heldPlace s h.toNat) = true) :
    Held s h (handleSlice h.toNat) (handleIdx h.toNat) := by
  simp only [Bool.and_eq_true, decide_eq_true_eq, Bool.not_eq_true'] at x
  exact ⟨⟨x.1.1.1, x.1.1.2⟩, x.1.2, x.2, rfl, rfl⟩

theorem test_hyp_places_acquire :
    (let x := okOr default (objectAccess (placed 0 0) 0x80000000)
     Committed (placed 0 0) ∧ objectAccess (placed 0 0) ((placed 0 0).reg 1) = .ok x ∧ x.pkg = (placed 0 0).pkg ∧
     headerOf (placed 0 0) x.slice (x.loc / 128) = some 0xFFFF ∧ ((placed 0 0).place x.slice 0xFFFF).kind = 1 ∧
     1 ≤ freeCount (placed 0 0) x.slice) ∧
    (let s := withRegs mig [(1, 0x80000000)]
     let x := okOr default (objectAccess s 0x80000000)
     Committed s ∧ objectAccess s (s.reg 1) = .ok x ∧ x.pkg = s.pkg ∧ headerOf s x.slice (x.loc / 128) = none ∧
     2 ≤ freeCount s x.slice) :=
  ⟨⟨committed_of (by decide +kernel), ok_of _ (by decide +kernel), by decide +kernel⟩,
   committed_of (by decide +kernel), ok_of _ (by decide +kernel), by decide +kernel⟩

/-- A slice with one free record, and no header of the object. -/
theorem test_hyp_places_full : ∀ sl obj : Nat,
    let s : State := { base with
      places := (List.range 65535).map (fun i => (65536 * sl + i, ⟨2, 0, 0, 0xFFFF, 0, 0, 0, false, none, none, 0⟩)) }
    headerOf s sl obj = none ∧ freeCount s sl < 2 := by
  intro sl obj s
  have h : usedPlaces s sl = (List.range 65535).map (fun i => (i, ⟨2, 0, 0, 0xFFFF, 0, 0, 0, false, none, none, 0⟩)) := by
    simp only [usedPlaces, s, List.filter_map, List.map_map]
    have hf : (List.range 65535).filter ((fun p : Nat × PlaceRec => p.1 / 65536 == sl && p.2.kind != 0) ∘
        fun i => (65536 * sl + i, (⟨2, 0, 0, 0xFFFF, 0, 0, 0, false, none, none, 0⟩ : PlaceRec))) = List.range 65535 := by
      apply List.filter_eq_self.mpr
      intro i hi
      have := List.mem_range.mp hi
      have hd : (65536 * sl + i) / 65536 = sl := by omega
      simp [Function.comp, hd]
    rw [hf]
    apply List.map_congr_left
    intro i hi
    have := List.mem_range.mp hi
    have hm : (65536 * sl + i) % 65536 = i := by omega
    simp [Function.comp, hm]
  refine ⟨?_, ?_⟩
  · rw [headerOf, h]
    simp
  · rw [freeCount, h]
    simp

theorem test_hyp_places_held :
    (Held (placed 1 2) ((placed 1 2).reg 2) 0 1 ∧ ((placed 1 2).place 0 1).st ≠ 0) ∧
    (Held (placed 0 0) ((placed 0 0).reg 2) 0 1 ∧ ((placed 0 0).place 0 1).st = 0 ∧
      ((placed 0 0).place 0 1).st ≠ 1 ∧ ((placed 0 0).reg 0).toNat < (placed 0 0 |>.launchOf (placed 0 0).grp).teamSize ∧
      memberGroup (placed 0 0) (placed 0 0).grp 0 = some 0 ∧ ((placed 0 0).group 0).run ≠ .ended ∧
      ((placed 0 0).reg 0).toNat < 32) ∧
    (Held (placed 1 0) ((placed 1 0).reg 2) 0 1 ∧ ((placed 1 0).place 0 1).st = 1 ∧
      pubReady (pub (placed 1 0) 0 ((placed 1 0).place 0 1).scope) 0 ((placed 1 0).place 0 1).scope = true ∧
      ((placed 1 0).place 0 1).next = 0xFFFE ∧
      ((placed 1 0).place 0 1).hdr = 0xFFFF ∧ ((placed 1 0).place 0 0xFFFE).st ≠ 2) ∧
    (let s := placed 1 0
     let x := okOr default (objectAccess s 0x80000000)
     Committed s ∧ objectAccess s (s.reg 1) = .ok x ∧ x.pkg = s.pkg ∧ headerOf s x.slice (x.loc / 128) = some 0xFFFF ∧
     1 = (s.place x.slice 0xFFFF).next ∧ (s.place x.slice 1).st = 1 ∧ (s.place x.slice 1).holder = some s.cur.grp ∧
     (s.place x.slice 1).hdr = 0xFFFF ∧ (s.place x.slice 1).next = 0xFFFE ∧ (s.place x.slice 0xFFFE).st ≠ 2 ∧
     pubReady (pub (noteAccess s (s.reg 1) x) s.cur.grp 5) s.cur.grp 5 = true) ∧
    (let s := { placed 0 0 with places := [(1, ⟨2, 0, 0, 0xFFFE, 0, 0, 5, false, none, some 0, 0xFFFF⟩),
       (2, ⟨2, 1, 0, 1, 0, 0, 5, false, none, some 0, 0xFFFF⟩), (0xFFFE, ⟨2, 0, 0, 0xFFFF, 0, 0, 5, false, none, some 0, 0xFFFF⟩),
       (0xFFFF, ⟨1, 0, 0, 2, 0xFFFE, migLoc 0 0 / 128, 0, false, none, none, 0⟩)] }
     let c := placeChain s 0 65536 (s.place 0 0xFFFF).next
     Held s (s.reg 2) 0 1 ∧
     livePlace s (s.reg 3).toNat = true ∧ handleSlice (s.reg 3).toNat = 0 ∧ handleIdx (s.reg 3).toNat = 0xFFFE ∧
     (s.place 0 1).st = 0 ∧ (s.place 0 0xFFFE).st = 0 ∧ (s.place 0 0xFFFE).hdr = (s.place 0 1).hdr ∧
     0xFFFE ∈ placeChain s 0 65536 (s.place 0 1).next ∧ c.Nodup ∧ 1 ∈ c ∧ 0xFFFF ∉ c ∧ (s.place 0 0xFFFF).next = 2) ∧
    (handleRemote base (base.reg 5) = false ∧ heldPlace base (base.reg 5).toNat = false) :=
  ⟨⟨held_of (by decide +kernel), by decide +kernel⟩, ⟨held_of (by decide +kernel), by decide +kernel⟩,
   ⟨held_of (by decide +kernel), by decide +kernel⟩,
   ⟨committed_of (by decide +kernel), ok_of _ (by decide +kernel), by decide +kernel⟩,
   ⟨held_of (by decide +kernel), by decide +kernel⟩, by decide +kernel⟩

/-! ### The hypotheses of the statements about work queues, special registers and the matrix engine -/

/-- Work queue 0x10040 of 16 entries at 0x800000 with this STATE and TAIL, of the context at 0x900000, whose label is 0xFFF;
its first entry names the pad at 0x400100. -/
def work (st tail : Nat) : State := withRegs { poke (poke (poke base 0x400100 4 0x50300FFF) 0x900000 16 (2 ^ 64 + 2 ^ 8))
    0x800000 16 (0x400100 + 2 ^ 127) with
  qcache := [(0x10040, 0x800000 * 2 ^ 448 + 0x900000 * 2 ^ 384 + tail * 2 ^ 352 + 0xFFF * 2 ^ 220 + 4 * 2 ^ 216 +
    2 * 2 ^ 212 + st * 2 ^ 210)] } [(1, 0x10040), (2, 0x500000)]

theorem test_hyp_wpop :
    (let s := work 1 1
     let i := qcbImage s 0x10040
     (s.reg 1).toNat = 0x10040 ∧ Committed s ∧ s.grp.inh = false ∧ s.grp.wait = .none ∧ s.dirty = [] ∧
     (workTest s (s.reg 1)).isNone = true ∧ pubReady s s.cur.grp 5 = true ∧ headReady s i = true ∧
     (∀ k, k < 8 → poisoned s (ringAddr i (qcbHead i) + 8 * k) = false) ∧ s.migrations = [] ∧
     (s.qcache.find? (fun p => p.1 == 0x10040)).isSome = true ∧
     (unitOf s (ringAddr i (qcbHead i) / 8)).toNat % 4 = 0 ∧ (unitOf s (ringAddr i (qcbHead i) / 8)).toNat < 2 ^ 54 ∧
     fetchScalar s (unitOf s (ringAddr i (qcbHead i) / 8)) 3 = .ok (0x50300000 + qcbLabel i)) ∧
    (let s := work 1 0
     Committed s ∧ (workTest s (s.reg 1)).isNone = true ∧ s.grp.inh = false ∧ s.grp.wait = .none ∧ s.dirty = [] ∧
     pubReady s s.cur.grp 5 = true ∧ headReady s (qcbImage s 0x10040) = false) :=
  ⟨⟨by decide +kernel, committed_of (by decide +kernel), by decide +kernel⟩, committed_of (by decide +kernel),
   by decide +kernel⟩

/-- With the last entry free, with none free, and stopped. -/
theorem test_hyp_wpost :
    let cs (s : State) : Prop := s.dirty = [] ∧ s.migrations = [] ∧ (workTest s (s.reg 1)).isNone = true ∧
      (s.reg 2).toNat % 64 = 0 ∧ (groupAccess s (s.reg 2) 1 needR).isOk = true ∧ plainB s (acc s (s.reg 2) 1 needR) = true ∧
      (acc s (s.reg 2) 1 needR).coh = 0 ∧ (∀ k, k < 8 → poisoned s ((acc s (s.reg 2) 1 needR).loc + 8 * k) = false ∧
        ∀ h ∈ unitHist s ((acc s (s.reg 2) 1 needR).loc / 8 + k), h.shut ≠ 0) ∧ pubReady s s.cur.grp 3 = true ∧
      (s.qcache.find? (fun p => p.1 == 0x10040)).isSome = true
    (Committed (work 1 15) ∧ cs (work 1 15) ∧ qcbState (qcbImage (work 1 15) 0x10040) = 1 ∧
      hasRoom (qcbImage (work 1 15) 0x10040) 1 = true) ∧
    (Committed (work 1 16) ∧ cs (work 1 16) ∧ qcbState (qcbImage (work 1 16) 0x10040) = 1 ∧
      hasRoom (qcbImage (work 1 16) 0x10040) 1 = false) ∧
    (Committed (work 0 0) ∧ cs (work 0 0) ∧ qcbState (qcbImage (work 0 0) 0x10040) ≠ 1) := by
  refine ⟨⟨committed_of (by decide +kernel), ?_, by decide +kernel⟩, ⟨committed_of (by decide +kernel), ?_, by decide +kernel⟩,
    committed_of (by decide +kernel), ?_, by decide +kernel⟩ <;> decide +kernel

/-- A group asleep on the queue, and one with a sample. -/
def sleeping : State := { edit (work 1 1) (fun g => { g with
    wait := .wpop 0x10040 false
    tdet := some ⟨255, ⟨true, 0, 0⟩, none⟩ }) with sleepers := [(0x10040, [0])] }

theorem test_hyp_termination :
    (Committed (withRegs base [(63, 255)]) ∧ ((withRegs base [(63, 255)]).reg 63).toNat < 2 ^ 8 ∧
      (withRegs base [(63, 255)]).grp.tdet = none) ∧
    (let s := edit base (fun g => { g with tdet := some ⟨0, ⟨true, 0, 0⟩, some true⟩ })
     Committed s ∧ (s.reg 1).toNat < 2 ^ 8 ∧ s.grp.tdet = some ⟨0, ⟨true, 0, 0⟩, some true⟩) ∧
    (0 < sleeping.groups.length ∧ (sleeping.group 0).tdet = some ⟨255, ⟨true, 0, 0⟩, none⟩) ∧
    (let i := qcbImage sleeping 0x10040
     qcbHead i ≠ qcbTail i ∧ (unitOf sleeping (ringAddr i (qcbHead i) / 8 + 1)).getLsbD 63 = true ∧
     qcbBase i % 64 = 0 ∧ (sleepersOf sleeping 0x10040).filter (asleep sleeping 0x10040) = [0]) :=
  ⟨⟨committed_of (by decide +kernel), by decide +kernel⟩, ⟨committed_of (by decide +kernel), by decide +kernel⟩,
   by decide +kernel, by decide +kernel⟩

theorem test_hyp_special :
    (Free base [63] ∧ specialOk 0x2F = true ∧ base.grp.ahead = false ∧ lane.grp.ahead = true ∧ Free lane [0] ∧
      specialOk 0x19 = false ∧ specialOk 0x30 = false) ∧
    (let s := withRegs base [(1, 0x1700), (2, 0x3FFFFFFFFFFFFC), (3, 2), (4, 0x1702), (5, 0xFFFFFFFF)]
     Committed s ∧ (written s 0x2F (s.reg 4)).isSome = true ∧ (written s 0x12 (s.reg 2)).isSome = true ∧
     (written s 0x18 (s.reg 5)).isSome = true ∧ (s.launchOf s.grp).priv = true ∧ written s 0x10 (s.reg 3) = none ∧
     specialOk 0x10 = true ∧ written s 0x13 (s.reg 2) = none) ∧
    (let l := base.launchOf base.grp
     0 < l.gx ∧ 0 < l.gy ∧ base.grp.team = 0 + l.gx * (0 + l.gy * 0)) :=
  ⟨⟨free_of (by decide +kernel), by decide +kernel, by decide +kernel, by decide +kernel, free_of (by decide +kernel),
    by decide +kernel⟩, ⟨committed_of (by decide +kernel), by decide +kernel⟩, by decide +kernel⟩

/-- R171: a value of QBINDn is legal; its unit is absent. -/
abbrev bindLegal (v : Nat) : Prop :=
  v < 2 ^ 13 ∧ v / 2 ^ 4 % 2 ^ 4 = 0 ∧ v % 2 ^ 4 ≤ 5 ∧ v / 2 ^ 8 % 2 ^ 5 ≤ 23 ∧ (v % 2 ^ 4 = 1 → v / 2 ^ 8 % 2 ^ 5 = 0)
abbrev bindAbsent (s : State) (v : Nat) : Prop :=
  (v % 2 ^ 4 = 4 ∧ s.caps.getLsbD 0 = false) ∨ (v % 2 ^ 4 = 5 ∧ s.caps.getLsbD 1 = false)

theorem test_hyp_bind :
    (Committed base ∧ 0x20 ≤ (0x2F : BitVec 8).toNat ∧ (0x2F : BitVec 8).toNat < 0x30) ∧
    (¬ bindLegal 0x2000 ∧ ¬ bindLegal 0x12 ∧ ¬ bindLegal 6 ∧ ¬ bindLegal 0x1802 ∧ ¬ bindLegal 0x101) ∧
    (bindLegal 0x1704 ∧ bindAbsent { base with caps := 2 } 0x1704 ∧ bindLegal 5 ∧ bindAbsent { base with caps := 1 } 5) ∧
    (bindLegal 0x1702 ∧ ¬ bindAbsent base 0x1702 ∧ mapGet [] base.grp.pushq (0x2F - 0x20) = []) ∧
    (let s := edit base (fun g => { g with pushq := [(15, [5])] })
     Committed s ∧ ¬ bindAbsent s 0x1702 ∧ mapGet [] s.grp.pushq (0x2F - 0x20) ≠ []) := by
  refine ⟨⟨committed_of (by decide +kernel), by decide⟩, ?_, ?_, ?_, committed_of (by decide +kernel), ?_⟩ <;> decide +kernel

theorem test_hyp_ends : Committed base ∧ matrixBusy base base.cur.grp = false ∧ fenceReady base base.cur.grp 3 = true ∧
    (∀ p ∈ base.grp.pushq, p.2 = []) ∧ PubDone (fenceEffect base base.cur.grp 3) 5 ∧ (base.launchOf base.grp).priv = true ∧
    Committed { base with mops := [{ (default : MOp) with members := [0] }] } ∧
    matrixBusy { base with mops := [{ (default : MOp) with members := [0] }] } 0 = true :=
  ⟨committed_of (by decide +kernel), by decide +kernel, by decide +kernel, by decide +kernel,
   by unfold PubDone; decide +kernel, by decide +kernel, committed_of (by decide +kernel), by decide +kernel⟩

theorem record_of {x : RecordRead} {r : List Dword} (h : (match x with
    | .ok y _ => y == r
    | _ => false) = true) : ∃ s1, x = .ok r s1 := by
  cases x <;> simp_all

/-- A record with these first six dwords and zeros after them, and the handler of a strand or a lane trap. -/
def returning (ws : List Nat) (src : Nat) : State :=
  edit (ws.zipIdx.foldl (fun s w => poke s (0x500000 + 8 * w.2) 8 w.1) handler) (fun g => { g with dsrc := src })
def recordWords (ws : List Nat) : List Dword := ws.map (BitVec.ofNat 64) ++ List.replicate (16 - ws.length) 0

theorem returning_of {ws : List Nat} {src : Nat}
    (h : (let s := returning ws src
      decide (s.cur.grp < s.groups.length) && s.grp.quiet && s.grp.inh && (match readRecord s s.grp.recAddr 16 with
        | .ok y _ => y == recordWords ws
        | _ => false)) = true) :
    Committed (returning ws src) ∧ (returning ws src).grp.inh = true ∧
      ∃ s1, readRecord (returning ws src) (returning ws src).grp.recAddr 16 = .ok (recordWords ws) s1 := by
  simp only [Bool.and_eq_true, decide_eq_true_eq] at h
  exact ⟨⟨h.1.1.1, h.1.1.2⟩, h.1.2, record_of h.2⟩

/-- A record in order; and one with a reserved bit, with a misaligned SPC, with one past the address space, and with an
illegal FMT. -/
theorem test_hyp_return :
    ((∃ s1, readRecord (returning [2 ^ 52] 1) (returning [2 ^ 52] 1).grp.recAddr 16 = .ok (recordWords [2 ^ 52]) s1) ∧
      Committed (returning [2 ^ 52] 1) ∧ (returning [2 ^ 52] 1).grp.inh = true ∧ (returning [2 ^ 52] 1).grp.dsrc = 1 ∧
      (recordWords [2 ^ 52]).length = 16 ∧ (recordWords [2 ^ 52])[1]? = some 0 ∧ (recordWords [2 ^ 52])[5]? = some 0 ∧
      (∀ i, i < 16 → ((recordWords [2 ^ 52]).getD i 0) &&& (recordReserved.getD i 0) = 0) ∧ FmtLegal 0 ∧
      (returning [0] 0).grp.dsrc ≠ 1) ∧
    (∀ ws ∈ [[2 ^ 63], [0, 2], [0, 2 ^ 54], [0, 0, 0, 0, 0, 1]], Committed (returning ws 0) ∧ (returning ws 0).grp.inh = true ∧
      ∃ s1, readRecord (returning ws 0) (returning ws 0).grp.recAddr 16 = .ok (recordWords ws) s1) ∧
    (recordWords [2 ^ 63]).getD 0 0 &&& recordReserved.getD 0 0 ≠ 0 ∧ (2 : Dword).toNat % 4 ≠ 0 ∧
    2 ^ 54 ≤ (2 ^ 54 : Dword).toNat ∧ (recordWords [0, 2 ^ 54])[1]? = some (2 ^ 54) ∧ ¬ FmtLegal 1 ∧
    (recordWords [0, 0, 0, 0, 0, 1])[5]? = some 1 := by
  have h := returning_of (ws := [2 ^ 52]) (src := 1) (by decide +kernel)
  refine ⟨⟨h.2.2, h.1, h.2.1, by decide +kernel, by decide, by decide, by decide, by decide +kernel,
    ⟨by decide, by decide, by decide, by decide, by decide⟩, by decide +kernel⟩, ?_, by decide +kernel, by decide, by decide,
    by decide, fun h => absurd h.low (by decide), by decide⟩
  simp only [List.forall_mem_cons]
  exact ⟨returning_of (by decide +kernel), returning_of (by decide +kernel), returning_of (by decide +kernel),
    returning_of (by decide +kernel), by simp⟩

/-- The worked value of R274 under FMT 0; one that takes both operands from FMT; and a reserved bit. -/
theorem test_hyp_matrix_configuration :
    let s := withRegs base [(1, 0x5BC5000526), (2, 0), (3, 2 ^ 35), (4, 0xC0)]
    Committed s ∧ ConfigLegal s.grp.st.fmt.toNat (s.reg 1).toNat ⟨11, 0, false⟩ ⟨15, 1, true⟩ ∧
      ConfigLegal (13 * 2 ^ 27 + 16 * 2 ^ 22 + 2 * 2 ^ 20 + 3 * 2 ^ 18 + 2 ^ 16) (17 * 2 ^ 35 + 18 * 2 ^ 30 + 2) ⟨13, 2, false⟩
        ⟨16, 3, true⟩ ∧
      (∀ x y, ¬ ConfigLegal s.grp.st.fmt.toNat (s.reg 4).toNat x y) ∧ (s.reg 2).toNat = 0 ∧ GangLegal s 0 ∧
      ¬ GangLegal s (s.reg 3).toNat := by
  refine ⟨committed_of (by decide +kernel), ⟨by decide +kernel, by decide +kernel, ?_, ?_, ?_⟩,
    ⟨by decide +kernel, by decide +kernel, ?_, ?_, ?_⟩, fun x y h => absurd h.reserved (by decide +kernel),
    by decide +kernel, ⟨by decide, by decide, fun i _ _ => by simp, fun i j _ h => by simp at h, fun i h => by simp at h,
      fun h => by simp at h, fun i j h => by simp at h⟩, fun h => absurd h.reserved (by decide +kernel)⟩
  all_goals first
    | (unfold Resolves; decide +kernel)
    | (unfold OperandLegal; decide +kernel)

/-- Two groups of a team with 64 KiB of local store; the moving one has M = N = K = 16 of bf16 and this gang. -/
def matrix (gang : Dword) : State :=
  let g : Group := { base.grp with
    gang := gang
    mconf := BitVec.ofNat 64 (9 * 2 ^ 35 + 9 * 2 ^ 30 + 5 * 2 ^ 8)
    st := { base.grp.st with regs := [(1, 0), (2, 512), (3, 10), (4, 49152)] } }
  { base with
    launches := [{ placedLaunch with
      teamSize := 2
      lstore := 65536 }]
    groups := [g, { g with gid := 1 }] }

def legalB (s : State) (a b : Dword) (bm : Option Nat) : Bool :=
  !mmaConfigBad s.grp.mconf.toNat a.toNat b.toNat bm && (mmaMisaligned s.grp.mconf.toNat a.toNat b.toNat).isNone &&
  (readRanges s.grp.mconf.toNat a.toNat b.toNat bm).all (fun r => (firstBadLocal s s.grp r.1 r.2).isNone)

theorem legal_of {s : State} {a b : Dword} {bm : Option Nat} (h : legalB s a b bm = true) : MmaLegal s a b bm := by
  simp only [legalB, Bool.and_eq_true, Bool.not_eq_true', Option.isNone_iff_eq_none, List.all_eq_true] at h
  exact ⟨h.1.1, h.1.2, h.2⟩

/-- A gang of both groups, the second named first. -/
theorem test_hyp_gang : GangLegal (matrix 0) 0x200000001 := by
  refine ⟨by decide +kernel, by decide +kernel, ?_, ?_, ?_, fun _ => ⟨1, by decide +kernel⟩, ?_⟩
  · intro i h hi
    interval_cases i <;> simp_all
  · intro i j h hj
    have : j < 2 := hj
    interval_cases j
    · omega
    · interval_cases i
      decide +kernel
  · intro i hi
    have : i < 2 := hi
    interval_cases i <;> decide +kernel
  · intro i j hi h
    have h2 : i < 2 := hi
    interval_cases i
    · rw [show memberGroup (matrix 0) (matrix 0).grp (0x200000001 / 2 ^ (5 * 0) % 2 ^ 5) = some 1 by decide +kernel] at h
      cases h
      decide +kernel
    · rw [show memberGroup (matrix 0) (matrix 0).grp (0x200000001 / 2 ^ (5 * 1) % 2 ^ 5) = some 0 by decide +kernel] at h
      cases h
      decide +kernel

/-- Every latch of the gang's core taken but one, and sixteen operations queued. -/
theorem test_hyp_matrix_issue :
    (let s := matrix 0
     Committed s ∧ (mqFull s s.grp.core = false ∧ teamGated s s.grp = false) ∧ MmaLegal s (s.reg 1) (s.reg 2) none ∧
     MmaLegal s (s.reg 1) (s.reg 2) (some (s.reg 0).toNat) ∧ gangCnt s.grp.gang.toNat = 0 ∧ (s.reg 4).toNat % 128 = 0 ∧
     firstBadLocal s s.grp (s.reg 4).toNat 16384 = none ∧ mstConfig s.grp.mconf.toNat (s.reg 3).toNat = some .f32 ∧
     mstMisaligned (s.reg 4).toNat (s.reg 3).toNat .f32 = none ∧
     (∀ r ∈ mstRanges s.grp.mconf.toNat (s.reg 4).toNat (s.reg 3).toNat .f32, firstBadLocal s s.grp r.1 r.2 = none) ∧
     base.grp.mconf = 0 ∧ (s.reg 3).toNat % 128 ≠ 0 ∧ matrixBusy s s.cur.grp = false ∧ fenceReady s s.cur.grp 3 = true) ∧
    (let s := { base with mops := List.replicate 16 { (default : MOp) with members := [0] } }
     Committed s ∧ mqFull s s.grp.core = true ∧ matrixBusy s s.cur.grp = true) ∧
    (let s := { matrix 0x200000020 with
       rendezvous := List.replicate 7 ⟨0, 0, 1, 0, .mma, 0, 0, 0, 0, 0, [1]⟩ }
     Committed s ∧ MmaLegal s (s.reg 1) (s.reg 2) none ∧ gangCnt s.grp.gang.toNat ≠ 0 ∧
     (∀ r ∈ s.rendezvous, s.cur.grp ∉ r.arrived) ∧ (∀ r ∈ s.rendezvous, r.team ≠ s.grp.team) ∧
     (s.rendezvous.filter (fun r => r.core == s.grp.core)).length < 8) ∧
    (let s := matrix 0x200000020
     let r : Rendezvous := ⟨0, 0, 0, gangSet s.grp.gang.toNat, .mma, 7, 0, 0, 0, 0, [1]⟩
     r.core = s.grp.core ∧ r.launch = s.grp.launch ∧ r.team = s.grp.team ∧ r.a ≠ s.reg 1 ∧ s.cur.grp ∉ r.arrived) :=
  ⟨⟨committed_of (by decide +kernel), by decide +kernel, legal_of (by decide +kernel), legal_of (by decide +kernel),
    by decide +kernel⟩, ⟨committed_of (by decide +kernel), by decide +kernel⟩,
   ⟨committed_of (by decide +kernel), legal_of (by decide +kernel), by decide +kernel⟩, by decide +kernel⟩

/-- The engine of core 0 with one operation, on tile 5 of the same context. -/
theorem test_hyp_matrix_engine : ∀ k : MOpKind,
    let o : MOp := ⟨3, 0, 0, k, 5, 0, 512, 0, (matrix 0).grp.mconf, [0], false, false, 0, [], []⟩
    let s := { matrix 0 with
      mops := [o]
      tileTags := [(5, ⟨true, 0, 0⟩)] }
    let s2 := { s with mops := [{ o with started := true }] }
    (mopsOf s 0).find? (fun o => !o.started && !o.gated) = some o ∧
    (mopsOf s2 0).filter (fun o => !o.gated) = [{ o with started := true }] ∧
    (mapGet default s2.tileTags (tileKey 0 5)).owned = true ∧
    sameContext s2 (mapGet default s2.tileTags (tileKey 0 5)).launch (s2.group 0).launch = true := by
  intro k
  cases k <;> decide +kernel

/-- An MST of tile 5 with this descriptor and configuration. -/
def storing (d c : Nat) : MOp :=
  ⟨3, 0, 0, .mst, 5, 49152, BitVec.ofNat 64 d, 0, BitVec.ofNat 64 c, [0], true, false, 0, [], []⟩

theorem storing_of {o : MOp} {t : Ty} (h : (o.kind == .mst && mstConfig o.conf.toNat o.b.toNat == some t &&
      decide (cfgM o.conf.toNat ≤ 64 ∧ cfgN o.conf.toNat ≤ 64) && (mstMisaligned o.a.toNat o.b.toNat t).isNone &&
      (mstRanges o.conf.toNat o.a.toNat o.b.toNat t).all (fun r => (firstBadLocal (matrix 0) ((matrix 0).group o.grp) r.1 r.2).isNone) &&
      decide ((mstRanges o.conf.toNat o.a.toNat o.b.toNat t).Pairwise (fun x y => x.1 + x.2 ≤ y.1 ∨ y.1 + y.2 ≤ x.1)) &&
      decide ((matrix 0).teamOf ((matrix 0).group o.grp) < (matrix 0).teams.length) &&
      !((matrix 0).team ((matrix 0).teamOf ((matrix 0).group o.grp))).ended &&
      !((matrix 0).team ((matrix 0).teamOf ((matrix 0).group o.grp))).out) = true) : Storing (matrix 0) o t := by
  simp only [Bool.and_eq_true, decide_eq_true_eq, beq_iff_eq, Option.isNone_iff_eq_none, List.all_eq_true,
    Bool.not_eq_true'] at h
  obtain ⟨⟨⟨⟨⟨⟨⟨⟨h1, h2⟩, h3⟩, h4⟩, h5⟩, h6⟩, h7⟩, h8⟩, h9⟩ := h
  have e : (matrix 0).hist = [] := by decide +kernel
  exact ⟨h1, h2, h3, h4, h5, h6, h7, ⟨h8, h9⟩, fun p x hx => by rw [unitHist, e] at hx; simp at hx⟩

/-- To f32; to mx4 in blocks of 32; to zb4 in blocks of 16 with the metadata at 32 KiB; and to ts8 in stipple mode. -/
theorem test_hyp_mst :
    Storing (matrix 0) (storing 10 0x4840000500) .f32 ∧
    Storing (matrix 0) (storing (13 + 2 * 2 ^ 12 + 32768 * 2 ^ 22) 0x4840000504) .mx4 ∧
    Storing (matrix 0) (storing (15 + 2 ^ 12 + 32768 * 2 ^ 22) 0x4840000500) .zb4 ∧
    Storing (matrix 0) (storing (14 + 2 ^ 7 + 2 * 2 ^ 12 + 32768 * 2 ^ 22 + 40960 * 2 ^ 43) 0x4840000504) .ts8 :=
  ⟨storing_of (by decide +kernel), storing_of (by decide +kernel), storing_of (by decide +kernel), storing_of (by decide +kernel)⟩

/-- Registers for the page statements: the moving page, the ordinary one, the next frame of another home, and its own. -/
def paged : State := withRegs mig [(1, 0x80000FFF), (2, 0x500000), (3, 0x701000), (4, 0x700000)]

theorem test_hyp_pages :
    Committed paged ∧
    (groupAccess paged (paged.reg 2) 1 needR = .ok (acc paged (paged.reg 2) 1 needR) ∧
      (acc paged (paged.reg 2) 1 needR).gpn = none) ∧
    (groupAccess paged (paged.reg 1) 1 needR = .ok (acc paged (paged.reg 1) 1 needR) ∧
      (acc paged (paged.reg 1) 1 needR).gpn = some 0 ∧ gpnPkg 0 = paged.pkg ∧
      (paged.launchOf paged.grp).priv = true ∧ frameOk paged (paged.reg 3).toNat = true ∧
      frameOk paged (paged.reg 4).toNat = true ∧
      homeOf (paged.reg 4).toNat = dirHome (dirBits paged 0) ∧ dirState (dirBits paged 0) ≠ 2 ∧
      homeOf (paged.reg 3).toNat ≠ dirHome (dirBits paged 0) ∧ homeOf (paged.reg 3).toNat ≠ dirOld0 (dirBits paged 0) ∧
      homeOf (paged.reg 3).toNat ≠ dirOld1 (dirBits paged 0) ∧
      dirPins (dirBits paged 0) = 0 ∧ paged.probes = [] ∧ paged.migrations = []) ∧
    dirState (dirBits (poke paged 0x600000 26 (0x700 * 2 ^ 24 + 2 * 2 ^ 182)) 0) = 2 :=
  ⟨committed_of (by decide +kernel), ⟨ok_of _ (by decide +kernel), by decide +kernel⟩,
   ⟨ok_of _ (by decide +kernel), by decide +kernel⟩, by decide +kernel⟩

/-! ### The hypotheses of the statements about the front end -/

/-- Packet queue 0 and work queue 0x10040 of one context; the front end moves on queue 0 with one entry. -/
def front : State :=
  let s := work 1 0
  { poke s 0x900000 128 (2 ^ 928 + 2 ^ 848 + 2 ^ 64 + 2 ^ 8) with
    qcache := (0, 0xA00000 * 2 ^ 448 + 0x900000 * 2 ^ 384 + 2 ^ 352 + 4 * 2 ^ 216 + 2 ^ 212 + 2 ^ 210) :: s.qcache
    cur := ⟨2 ^ 40, 0, 0, 0⟩ }
/-- A packet of a type with its argument and dwords 1 to 3. -/
def pk (type arg : Nat) (d1 d2 d3 : Dword) : Entry :=
  ⟨BitVec.ofNat 64 (2 ^ 63 + type * 2 ^ 48 + arg), d1, d2, d3, 0, 0, 0, 0⟩
/-- The same with W. -/
def pw (type arg : Nat) (d1 d2 d3 : Dword) : Entry :=
  ⟨BitVec.ofNat 64 (2 ^ 63 + 2 ^ 62 + type * 2 ^ 48 + arg), d1, d2, d3, 0, 0, 0, 0⟩

theorem settled_of {s : State} {q : Nat} (h : s.remote.isEmpty = true) : FrontSettled s q :=
  ⟨fun r hr => by simp [List.isEmpty_iff.mp h] at hr, fun r hr => by simp [List.isEmpty_iff.mp h] at hr⟩

theorem moves_of {s : State} {e : Entry} (h : (s.cur.grp == frontGroup s.cur.queue && s.remote.isEmpty &&
    (s.queue s.cur.queue).launches == []) = true) : FrontMoves s e := by
  simp only [Bool.and_eq_true, beq_iff_eq] at h
  exact ⟨h.1.1, settled_of h.1.2, fun _ => h.2⟩

/-- Malformed packets, a packet with W behind a launch, and a context record with a reserved bit. -/
theorem test_hyp_packets_refused :
    front.cur.grp = frontGroup front.cur.queue ∧
    (packetForm 0 (.nop (pk 0 1 0 0 0)) = some (pk 0 1 0 0 0, false) ∧
     packetForm 0 (.loop (pk 4 0xFFFF 0 0 0)) = some (pk 4 0xFFFF 0 0 0, false) ∧
     packetForm 3 (.launch (pk 9 0 0 0 0) (pk 0 0 0 0 0)) = some (pk 9 0 0 0 0, false)) ∧
    (let s := front.setQueue 0 { (default : QRun) with launches := [0] }
     packetForm 0 (.nop (pw 0 0 0 0 0)) = some (pw 0 0 0 0 0, true) ∧ bit (pw 0 0 0 0 0).d0.toNat 62 = true ∧
     (s.queue 0).launches ≠ [] ∧ FrontSettled s 0) ∧
    (let s := poke front 0x900000 8 (2 ^ 10)
     packetForm 0 (.pred (pk 3 0xFF05 0 0 0)) = some (pk 3 0xFF05 0 0 0, true) ∧ usesContext (.pred (pk 3 0xFF05 0 0 0)) = true ∧
     FrontMoves s (pk 3 0xFF05 0 0 0) ∧ ctxOk s (ctxOf s 0) = false) :=
  ⟨by decide +kernel, by decide +kernel, ⟨by decide +kernel, by decide +kernel, by decide +kernel, settled_of (by decide +kernel)⟩,
   by decide +kernel, by decide +kernel, moves_of (by decide +kernel), by decide +kernel⟩

theorem test_hyp_packets_pass :
    (∀ e, FrontMoves front e) ∧ ctxOk front (ctxOf front 0) = true ∧ (front.queue 0).frames = [] ∧
    (front.queue 0).posted = false ∧
    (headerOk (pk 0 0 0 0 0) 0 = true ∧ argsZero (pk 1 0 0 0 0) 1 = true ∧ loopOk (pk 4 (63 * 2 ^ 16 + 0xFFFF) 0 0 0) = true) ∧
    (ibOk (pk 2 0 0x500000 65536 0) = true ∧ ((front.queue 0).frames.filter QFrame.isIb).length < 2) ∧
    (predOk (pk 3 0xFF05 0x500000 0 1) = true ∧ waitmemOk (pk 5 0 0x500000 0 1) = true ∧
     (frontBytes front 0 0x500000 8).isOk = true ∧
     compareWord (cmpOf (pk 5 0 0x500000 0 1)) true (BitVec.ofNat 64 (natOfBytes (okOr [] (frontBytes front 0 0x500000 8))) &&& 0) 1
       = false ∧
     compareWord (cmpOf (pk 5 4 0x500000 0 1)) true (BitVec.ofNat 64 (natOfBytes (okOr [] (frontBytes front 0 0x500000 8))) &&& 0) 1
       = true) ∧
    (∀ n ∈ [needR, needW, needRW], (frontAccess front 0 0x500000 n).isOk = true ∧
      (okOr default (frontAccess front 0 0x500000 n)).pkg = front.pkg ∧
      (okOr default (frontAccess front 0 0x500000 n)).reg = false ∧
      (okOr default (frontAccess front 0 0x500000 n)).needDir = false ∧
      (okOr default (frontAccess front 0 0x500000 n)).loc < migBase ∧
      dualTarget front ((okOr default (frontAccess front 0 0x500000 n)).loc / 8) = none ∧
      poisoned front (okOr default (frontAccess front 0 0x500000 n)).loc = false) ∧
    (writememOk (pk 6 0x15 0x500000 7 0) = true ∧ signalOk (pk 7 0x35 0x500000 7 0) = true ∧ front.monitors = []) ∧
    (let e := pk 8 0x10040 0x500000 16 0
     feedOk e = true ∧ isWork 0x10040 (qcbImage front 0x10040) = true ∧ qcbOk front 0x10040 = true ∧
     qcbState (qcbImage front 0x10040) = 1 ∧ ctxAsid (ctxOf front 0x10040) = ctxAsid (ctxOf front 0) ∧
     16 ≤ qcbN (qcbImage front 0x10040) ∧ hasRoom (qcbImage front 0x10040) 16 = true ∧
     (frontBytes front 0 0x500000 (64 * 1)).isOk = true ∧
     hasRoom (putBits (qcbImage front 0x10040) 383 352 1) 16 = false) := by
  refine ⟨fun e => moves_of ?_, ?_⟩ <;> decide +kernel

theorem held_block {s : State} {q : Nat} (h : (s.qcache.find? (fun p => p.1 == q)).isSome = true) : BlockHeld s q := .inl h

/-- A WRITEMEM to another package, and packets whose write there has been acknowledged; the block of a queue that the entry
cache holds, and one that it has room for, away from its ring; and a group asleep on a work queue. -/
theorem test_hyp_packets_apart :
    (let s := poke front 0x12010 8 (2 ^ 46 + 0xF9)
     (∀ e, FrontMoves s e) ∧ ctxOk s (ctxOf s 0) = true ∧ writememOk (pk 6 0x15 0x80000000 7 0) = true ∧
     (s.queue 0).posted = false ∧ (frontAccess s 0 0x80000000 needW).isOk = true ∧
     (okOr default (frontAccess s 0 0x80000000 needW)).pkg ≠ s.pkg) ∧
    (let s := front.setQueue 0 { (default : QRun) with posted := true }
     (∀ e, FrontMoves s e) ∧ ctxOk s (ctxOf s 0) = true ∧ (s.queue 0).posted = true) ∧
    BlockHeld front 0 ∧ BlockHeld front 0x10040 ∧ front.migrations = [] ∧ qcbBase (qcbImage front 0x10040) % 64 = 0 ∧
    BlockHeld { poke front (qcbHome front 0x10041) 64 (0x800000 * 2 ^ 448 + 4 * 2 ^ 216) with qcache := [] } 0x10041 ∧
    asleep sleeping 0x10040 0 = true ∧ sleepersOf sleeping 0x10040 = [0] ∧ BlockHeld sleeping 0x10040 := by
  refine ⟨⟨fun e => moves_of ?_, ?_⟩, ⟨fun e => moves_of ?_, ?_⟩, held_block ?_, held_block ?_, ?_, ?_, .inr ⟨?_, ?_⟩, ?_, ?_,
    held_block ?_⟩ <;> decide +kernel

/-- A queue that waits with the packet at its HEAD. -/
def waiting (e : Entry) : State :=
  (poke (poke front 0xA00000 8 e.d0.toNat) 0xA00008 16 (e.d1.toNat + e.d2.toNat * 2 ^ 64)).setQueue 0
    { (default : QRun) with waiting := true }

theorem entry_of {x : Fetched} {e : Entry} (h : (match x with
    | .entry y => y == e
    | _ => false) = true) : x = .entry e := by
  cases x <;> simp_all

theorem test_hyp_packets_wait :
    ((waiting (pk 5 0 0x500000 0 0)).queue 0).waiting = true ∧
    fetchEntry (onQueue (waiting (pk 5 0 0x500000 0 0)) 0) 0 0 = .entry (pk 5 0 0x500000 0 0) ∧
    packetType (pk 5 0 0x500000 0 0) = 0x05 ∧ waitmemOk (pk 5 0 0x500000 0 0) = true ∧
    fetchEntry (onQueue (waiting (pk 8 0x10040 0x500000 1 0)) 0) 0 0 = .entry (pk 8 0x10040 0x500000 1 0) ∧
    packetType (pk 8 0x10040 0x500000 1 0) = 0x08 ∧ feedOk (pk 8 0x10040 0x500000 1 0) = true ∧
    dualTarget front (ringAddr (qcbImage front 0) (qcbHead (qcbImage front 0)) / 8) = none := by
  refine ⟨?_, entry_of ?_, ?_, ?_, entry_of ?_, ?_, ?_, ?_⟩ <;> decide +kernel

/-- A descriptor of one group of 16 lanes with a given NEED, placed at 0xB00000; a launch of one team of it. -/
def kernelWord (need : Nat) : Nat :=
  0x400000 + 0x400000 * 2 ^ 64 + 4096 * 2 ^ 576 + 32 * 2 ^ 608 + 16 * 2 ^ 624 + 2 ^ 632 + need * 2 ^ 648
def launching (d : Nat) : State := { poke front 0xB00000 128 d with launches := [] }
def grid (n : Nat) (caddr : Dword) : Entry :=
  ⟨BitVec.ofNat 64 (2 ^ 63 + 2 ^ 61 + 9 * 2 ^ 48), 0xB00000, BitVec.ofNat 64 (n + 2 ^ 21 + 2 ^ 42), 0, 0, 0x5000000, caddr, 7⟩
def second : Entry := pk 10 0 1 2 3

theorem tag_free (d asid t : Nat) : (pickLtag (launching d) asid 65535 t).isSome = true := by
  rw [pickLtag.eq_def]
  simp [launching]

theorem test_hyp_launch :
    (let s := launching (kernelWord 0)
     FrontMoves s (grid 1 0x500000) ∧ launchOk (grid 1 0x500000) second (qcbPrio (qcbImage s 0)) = true ∧
     ctxOk s (ctxOf s 0) = true ∧ LaunchTarget s (grid 1 0x500000) ∧ LaunchKernel s (grid 1 0x500000) (kernelWord 0) ∧
     (pickLtag s (ctxAsid (ctxOf s 0)) 65535 (s.free 50)).isSome = true) ∧
    (launchOk (grid 0 0) second 0 = true ∧ LaunchKernel (launching 0) (grid 0 0) 0 ∧ LaunchTarget (launching 0) (grid 0 0)) ∧
    (let s := launching 0
     launchTeams (grid 1 0) ≠ 0 ∧ (frontBytes s 0 0xB00000 128).isOk = true ∧
     kdOk (natOfBytes (okOr [] (frontBytes s 0 0xB00000 128))) = false) ∧
    (let s := launching (kernelWord 4)
     (frontBytes s 0 0xB00000 128).isOk = true ∧ kdOk (natOfBytes (okOr [] (frontBytes s 0 0xB00000 128))) = true ∧
     (grid 1 0).d1.toNat % 128 = 0 ∧ bit (kdNeed (natOfBytes (okOr [] (frontBytes s 0 0xB00000 128)))) 2 = true ∧
     bit s.caps.toNat 2 = false) := by
  refine ⟨⟨moves_of ?_, ?_, ?_, .inr ⟨_, ok_of default ?_, ?_, ?_⟩, .inr ⟨?_, ⟨_, ok_of [] ?_, ?_⟩, ?_, ?_, ?_, ⟨0, ?_, ?_⟩, ?_⟩, tag_free _ _ _⟩,
    ⟨?_, .inl ⟨?_, rfl⟩, .inl rfl⟩, ?_, ?_⟩
  all_goals decide +kernel

/-! ### The hypotheses of the statements about translation requests -/

/-- The request ring of VF 0 moves; a request of an ASID with its arguments, completed at 0xC00000. -/
def ring (s : State) : State := { s with cur := ⟨2 ^ 40 + 0x10000, 0, 0x10000, 0⟩ }
def rq (op asid a1 a2 a3 : Nat) : Entry :=
  ⟨BitVec.ofNat 64 (2 ^ 63 + op), 0, BitVec.ofNat 64 (asid * 2 ^ 48), BitVec.ofNat 64 a3, BitVec.ofNat 64 a2,
   BitVec.ofNat 64 a1, 5, 0xC00000⟩

theorem request_of {s : State} {e : Entry} (h : (s.cur.grp == frontGroup s.cur.queue && caddrOk s (reqCaddr e) &&
    reqReservedOk e && reqAsid e != 0) = true) : RequestMoves s e := by
  simp only [Bool.and_eq_true, beq_iff_eq, bne_iff_ne] at h
  exact ⟨h.1.1.1, h.1.1.2, h.1.2, h.2⟩

theorem test_hyp_requests_asid :
    dualTarget base (dpaLocal (reqCaddr (rq 1 1 0 0 0)) / 8) = none ∧
    dualTarget base (dpaLocal (reqCaddr (rq 1 1 0 0 0)) / 8 + 1) = none ∧
    RequestMoves (ring base) (rq 3 65535 0x10000 63 0) ∧ RequestMoves (ring base) (rq 3 1 0x10000 63 0) ∧
    rootOk (ring base) 0x10000 = true ∧ rootOk (ring base) 0x10001 = false ∧ asidState (ring base) 1 ≠ 0 ∧
    asidState (ring base) 65535 = 0 ∧ asidBound (ring base) 65535 = false ∧ asidBound (ring base) 1 = true ∧
    reqAsid (rq 3 65535 0x10000 63 0) = 65535 ∧ reqArg2 (rq 3 65535 0x10000 63 0) = 63 ∧
    tlbinvOk (rq 1 1 (2 ^ 54 - 4096) 4096 1) = true ∧ tlbinvOk (rq 1 1 (2 ^ 54 - 4096) 8192 1) = false ∧
    asidBusy (ring base) 1 = true ∧ asidBusy (ring { base with
      groups := []
      launches := [] }) 1 = false ∧ asidBound (ring { base with
      groups := []
      launches := [] }) 1 = true :=
  ⟨by decide +kernel, by decide +kernel, request_of (by decide +kernel), request_of (by decide +kernel), by decide +kernel⟩

/-- What a PGATTR comes to. -/
theorem over_of {x : AttrAns} {st : Nat} (h : (match x with
    | .over _ k => k == st
    | _ => false) = true) : ∃ u, x = .over u st := by
  cases x <;> simp_all

theorem wait_of {x : AttrAns} (h : (match x with
    | .wait _ => true
    | _ => false) = true) : ∃ u, x = .wait u := by
  cases x <;> simp_all

theorem sent_of {x : AttrAns} (h : (match x with
    | .sent _ _ => true
    | _ => false) = true) : ∃ u kept, x = .sent u kept := by
  cases x <;> simp_all

/-- A parked group and a deferred command, and pages of a PGATTR: none, one that may change, one that moves. -/
theorem test_hyp_requests_rest :
    (parkedGroup (ring base) (rq 5 1 (2 ^ 32) 0 0) = none ∧ (let s := ring (edit base (fun g => { g with
        run := .away
        state := 1 }))
      parkedGroup s (rq 5 1 (2 ^ 32) 0 0) = some 0 ∧ reqArg1 (rq 5 1 (2 ^ 32) 0 0) < 2 ^ 48)) ∧
    (deferredCmd (ring base) (rq 6 1 (2 * 2 ^ 7 + 31) 0 0) = none ∧ (let s := ring { base with
        cmds := [{ copying with
          eng := 2
          state := .deferred 31 }] }
      (deferredCmd s (rq 6 1 (2 * 2 ^ 7 + 31) 0 0)).isSome = true ∧ bit (reqArg1 (rq 6 1 (2 * 2 ^ 7 + 31) 0 0)) 6 = false)) ∧
    (leafOf (ring base) 1 (2 ^ 54 - 4096) = none ∧ leafBad (ring base) 1 (2 ^ 54 - 4096) = false ∧
      (∃ u, tryAttr (ring base) (rq 2 1 0 0xF9 0) none = .over u 0) ∧
      (leafOf (ring base) 1 0).isSome = true ∧
      (∃ u, tryAttr (ring (poke mig 0x600000 26 (0x700 * 2 ^ 24 + 2 * 2 ^ 182))) (rq 2 1 0x80000000 0x10000000000000F9 0)
        none = .wait u) ∧ reqArg1 (rq 2 1 0x80000000 0x10000000000000F9 0) % 4096 = 0) ∧
    (let r : PendReq := ⟨0x10000, rq 1 1 0 0 0, 1, false, [], 0⟩
     let x : PendReq := ⟨0x10000, rq 2 1 0 0xF9 0, 1, true, [], 0⟩
     let s := { base with
        pendInv := [r]
        pendAttr := [x] }
     s.pendInv[0]? = some r ∧ tlbinvReady s r = true ∧ mixLines s (reqAsid r.entry) (reqArg1 r.entry) (reqArg2 r.entry) = [] ∧
     s.pendAttr[0]? = some x ∧
     ∃ u, tryAttr { s with cur := { s.cur with
        queue := 0x10000
        grp := frontGroup 0x10000 } } (rq 2 1 0 0xF9 0) (some x) = .over u 0) := by
  refine ⟨⟨?_, ?_⟩, ⟨?_, ?_⟩, ⟨?_, ?_, over_of ?_, ?_, wait_of ?_, ?_⟩, ?_, ?_, ?_, ?_, over_of ?_⟩ <;> decide +kernel

/-- A PGATTR whose walk meets a malformed entry, one whose copy goes to another package, and a TLBINV behind a command that
was accepted before it. -/
theorem test_hyp_requests_more :
    (let s := ring (poke base 0x11008 8 7)
     RequestMoves s (rq 2 1 (2 ^ 39) 0xF9 0) ∧ asidBound s 1 = true ∧ leafOf s 1 (2 ^ 39) = none ∧
     leafBad s 1 (2 ^ 39) = true) ∧
    (let s := ring (poke (poke (poke base 0x12010 8 0x13001) 0x13000 8 0x14001) 0x14000 8 0x5000F9)
     RequestMoves s (rq 2 1 0x80000000 (2 ^ 46 + 0x500CF9) 0) ∧
     ∃ u kept, tryAttr s (rq 2 1 0x80000000 (2 ^ 46 + 0x500CF9) 0) none = .sent u kept) ∧
    (let r : PendReq := ⟨0x10000, rq 1 1 0 4096 0, 1, false, [], 0⟩
     let s := { base with
        pendInv := [r]
        cmds := [{ copying with trans := [⟨0, 0x800, 0, 0xF9⟩] }] }
     s.pendInv[0]? = some r ∧ tlbinvReady s r = false) := by
  refine ⟨⟨request_of ?_, ?_⟩, ⟨request_of ?_, sent_of ?_⟩, ?_⟩ <;> decide +kernel

/-! ### The hypotheses of the statements about engines -/

/-- The strand's q3 bound to an endpoint kind, with the words of a command. -/
def bound (kind : Dword) : State := { edit base (fun g => { g with qbind := [(3, kind)] }) with
  cur := { base.cur with qreg := 3 } }
/-- Command word 0 of an opcode, and a pin of the first GiB. -/
def w0 (opc : Nat) : Dword := BitVec.ofNat 64 (opc * 2 ^ 56)
def gib : Pin := ⟨0, 0, 2, 0xF9⟩
/-- A command of group 0 on q3 that holds that pin. -/
def cmd (kind : Nat) (ws : List Dword) : Cmd := { (default : Cmd) with
  id := 1
  eng := kind
  qreg := 3
  words := ws
  state := .running
  trans := [gib] }
def running (c : Cmd) : State := { base with cmds := [c] }

theorem test_hyp_commands :
    ([Instr.copy (w0 1) 0 0 0 0, .bag (w0 0x10) 0 0 0 0 0 0, .upd (w0 0x11) 0 0 0 0 0 0, .ngemv (w0 0x20) 0 0 0 0 0 0,
      .srch (w0 0x30) 0 0 0 0 0, .allred (w0 0x40) 0 0 0 0, .redscat (w0 0x41) 0 0 0 0, .allgath (w0 0x42) 0 0 0 0,
      .bcast (w0 0x43) 0 0 0 0, .cbar (w0 0x44) 0 0 0 0, .topkmerge (w0 0x46) 0 0 0 0, .mcast (w0 0x45) 0 0 0 0 0 0].all
      (fun i => match commandForm i with
        | some (k, ws, _) => kindOf (bound (BitVec.ofNat 64 k)).grp 3 == k && (engineOps k).contains (cmdOpc (ws.headD 0))
        | none => false)) = true ∧
    (bound 1).cur.grp < (bound 1).groups.length ∧ (bound 1).cur.qreg = 3 ∧ ∀ c ∈ (bound 1).cmds, c.gated = false := by
  decide +kernel

theorem tried_of {x : Tried} {ps : List Pin} (h : (match x with
    | .pins qs => qs == ps
    | _ => false) = true) : x = .pins ps := by
  cases x <;> simp_all
theorem absent_of {x : Tried} (h : (match x with
    | .absent _ _ _ => true
    | _ => false) = true) : ∃ va l a, x = .absent va l a := by
  cases x <;> simp_all
theorem fails_of {x : Tried} (h : (match x with
    | .fails _ _ _ => true
    | _ => false) = true) : ∃ va a b, x = .fails va a b := by
  cases x <;> simp_all

/-- A command to be translated, and one that fills the page-lock table of die 0 with other pages. -/
def fresh : Cmd := { cmd 1 [] with
  state := .waiting
  trans := [] }
def filling (n : Nat) : Cmd := { cmd 1 [] with
  id := 2
  trans := (List.range n).map (fun i => ⟨0, 0, 0, BitVec.ofNat 64 ((i + 1) * 4096)⟩) }
def reach (va len : Nat) (need : Need) : List (List Range) := [[⟨0, va, len, need, 0, 0, none⟩]]

theorem filled (n : Nat) (h : n < 2 ^ 43) : ((pinsOf { base with cmds := [fresh, filling n] } 0 ++ [gib]).map Pin.key).dedup.length
    = n + 1 := by
  have hk : ∀ i, i < n → Pin.key ⟨0, 0, 0, BitVec.ofNat 64 ((i + 1) * 4096)⟩ = (i + 1, false) := by
    intro i hi
    have h1 : (i + 1) * 4096 < 2 ^ 64 := by omega
    have hb : pteMIG ((i + 1) * 4096) = false := by
      simp only [pteMIG, bit, beq_eq_false_iff_ne, ne_eq]
      omega
    have hf : pteFrame ((i + 1) * 4096) = i + 1 := by
      simp only [pteFrame, bits]
      omega
    simp only [Pin.key, BitVec.toNat_ofNat, Nat.mod_eq_of_lt h1, hb, hf]
  have hl : base.launches.flatMap (fun l => l.cpin.toList) = [] := by decide +kernel
  have hp : pinsOf { base with cmds := [fresh, filling n] } 0 = (filling n).trans := by
    simp only [pinsOf, hl]
    simp [fresh, filling]
  rw [hp]
  have hm : ((filling n).trans ++ [gib]).map Pin.key = (List.range n).map (fun i => (i + 1, false)) ++ [(0, false)] := by
    rw [List.map_append]
    congr 1
    simp only [filling, List.map_map]
    apply List.map_congr_left
    intro i hi
    exact hk i (List.mem_range.mp hi)
  rw [hm, List.dedup_eq_self.mpr]
  · simp
  · rw [List.nodup_append]
    refine ⟨List.Nodup.map (fun a b hab => by simpa using hab) List.nodup_range, by simp, ?_⟩
    intro a ha b hb
    simp only [List.mem_map, List.mem_singleton] at ha hb
    obtain ⟨i, -, rfl⟩ := ha
    subst hb
    simp

theorem moving_of {x : Tried} (h : (match x with
    | .moving => true
    | _ => false) = true) : x = .moving := by
  cases x <;> simp_all

/-- A leaf that two sets of a command name is pinned for each. -/
theorem test_hyp_translation :
    (let s := { base with cmds := [fresh] }
     (∃ x ∈ s.cmds, x.id = fresh.id) ∧
     trySets s fresh (reach 0x500000 4096 needR ++ reach 0x600000 1 needR) [] = .pins [gib, gib] ∧
     roomFor s [gib, gib] = true ∧
     (∃ va l a, trySets s fresh (reach (2 ^ 40) 1 needR) [] = .absent va l a) ∧
     ∃ va a b, trySets (poke s 0x12000 8 0xE9) fresh (reach 0x500000 1 needW) [] = .fails va a b) ∧
    (let s := { poke mig 0x600000 26 (0x700 * 2 ^ 24 + 2 * 2 ^ 182) with cmds := [fresh] }
     trySets s fresh (reach 0x80000000 1 needR) [] = .moving) ∧
    (let s := { base with cmds := [fresh, filling 16384] }
     trySets s fresh (reach 0x500000 4096 needR) [] = .pins [gib] ∧ roomFor s [gib] = false) := by
  refine ⟨⟨by decide +kernel, tried_of (by decide +kernel), by decide +kernel, absent_of (by decide +kernel),
    fails_of (by decide +kernel)⟩, moving_of (by decide +kernel), tried_of (by decide +kernel), ?_⟩
  · have h := filled 16384 (by decide)
    simp only [roomFor, List.map_cons, List.map_nil]
    have hd : ([gib.die] : List Nat).dedup = [0] := by decide +kernel
    have hf : [gib].filter (fun p => p.die == 0) = [gib] := by decide +kernel
    have hp : probeKeys { base with cmds := [fresh, filling 16384] } 0 = [] := by
      have : base.probes = [] := by decide +kernel
      simp [probeKeys, this]
    rw [hd]
    simp only [List.all_cons, List.all_nil, hf, pinRoom, keyRoom, hp, List.append_nil, ← List.map_append, h]
    decide

theorem test_hyp_acceptance :
    (let s := running { cmd 1 [] with state := .waiting }
     cmdOf s 1 = some { cmd 1 [] with state := .waiting } ∧
     (s.cmds.find? (fun x => x.sameEngine { cmd 1 [] with state := .waiting } && x.state == .waiting)).map Cmd.id = some 1) ∧
    (let s := running (cmd 1 [])
     (cmd 1 []).grp < s.groups.length ∧ firstCmd s (cmd 1 []).grp (cmd 1 []).qreg = some (cmd 1 []) ∧
     (∀ x ∈ s.cmds, x.id = (cmd 1 []).id → x = cmd 1 []) ∧ ((cmd 1 []).word 0).testBit 33 = false ∧
     ((cmd 1 [0x200000000]).word 0).testBit 33 = true) := by
  decide +kernel

theorem go_of {x : Ready} (h : (match x with
    | .go => true
    | _ => false) = true) : x = .go := by
  cases x <;> simp_all

/-- A copy of 128 bytes each way; a bag of one row; a product of one row of eight. -/
def copyCmd (dir : Nat) : Cmd :=
  cmd 1 [w0 1, if dir = 0 then 0x500000 else 0, if dir = 0 then 0 else 0x500000, BitVec.ofNat 64 (dir * 2 ^ 62 + 128), 0]
def bagCmd : Cmd := cmd 2 [w0 0x10, 0x500000, 0x510000, 0x520000, 0x530000, BitVec.ofNat 64 (2 * 2 ^ 32 + 4 * 2 ^ 16 + 1),
  BitVec.ofNat 64 (2 ^ 48 + 2 ^ 32 + 10 * 2 ^ 27)]
def gemvCmd (acc : Nat) : Cmd := cmd 4 [w0 0x20, 0x500000, 0, 0x510000, 0x520000, BitVec.ofNat 64 (16 * 2 ^ 32 + 2 ^ 16 + 8),
  BitVec.ofNat 64 (9 * 2 ^ 59 + 11 * 2 ^ 54 + 10 * 2 ^ 49 + acc * 2 ^ 45)]
/-- A barrier collective of communicator 0, which has two members. -/
def cbarCmd : Cmd := cmd 3 [w0 0x44, 0, 0, 0, 0]
def collected : State := regSet { running cbarCmd with colls := [⟨1, [], []⟩] } (commAddr 0 + 8) (BitVec.ofNat 64 (2 ^ 63 + 2 * 2 ^ 41))

theorem test_hyp_completions_run :
    (∀ c ∈ [copyCmd 0, bagCmd, gemvCmd 0, cbarCmd], Runs (running c) 1 c) ∧ copyTurn (running (copyCmd 0)) (copyCmd 0) = true ∧
    cmdIsComm cbarCmd = true ∧
    (∀ c ∈ [copyCmd 0, bagCmd, gemvCmd 0, cbarCmd], cmdOf (running { c with state := .writing }) 1 =
      some { c with state := .writing } ∧ ∀ r ∈ (running { c with state := .writing }).remote, r.grp ≠ cmdGroup 1) ∧
    copyTurn (running { copyCmd 0 with state := .writing }) { copyCmd 0 with state := .writing } = true ∧
    (∀ d ∈ [0, 1], cpDqf (copyCmd d) = false ∧ cpSpz (copyCmd d) = 0 ∧ cpDir (copyCmd d) = d) ∧
    cmdReady (running (copyCmd 0)) (copyCmd 0) [(0x500000, 128), (0, 0)] = .go ∧
    cmdReady (running (copyCmd 1)) (copyCmd 1) [(0, 0)] = .go ∧
    (readLocal (running (copyCmd 1)) (copyCmd 1).reader ((running (copyCmd 1)).group 0) 0 128).length = 128 ∧
    (cmdRead (running (copyCmd 0)) (copyCmd 0) 0x500000 128).length = 128 := by
  refine ⟨?_, by decide +kernel, by decide +kernel, by decide +kernel, by decide +kernel, by decide +kernel,
    go_of (by decide +kernel), go_of (by decide +kernel), by decide +kernel, by decide +kernel⟩
  intro c hc
  simp only [List.mem_cons, List.not_mem_nil, or_false] at hc
  obtain rfl | rfl | rfl | rfl := hc <;> exact ⟨by decide +kernel, by decide +kernel⟩

theorem test_hyp_completions_gather :
    (let s := running bagCmd
     let ib := cmdRead s bagCmd (gIbase bagCmd) (4 * gNi bagCmd)
     let ob := cmdRead s bagCmd (gObase bagCmd) (4 * gNb bagCmd)
     let is := (List.range (gNi bagCmd)).map (fun i => bytesAt ib (4 * i) 4)
     let os := (List.range (gNb bagCmd)).map (fun i => bytesAt ob (4 * i) 4)
     cmdReady s bagCmd [(gIbase bagCmd, 4 * gNi bagCmd), (gObase bagCmd, 4 * gNb bagCmd)] = .go ∧ is = [0] ∧
     (∀ i ∈ is, i < gNr bagCmd) ∧ offsetsOk os (gNi bagCmd) = true ∧ (∀ b ∈ ib, b.2 = false) ∧ (∀ b ∈ ob, b.2 = false) ∧
     ∀ u ∈ is, ∀ b ∈ cmdRead s bagCmd (gRow bagCmd u).1 (gRow bagCmd u).2, b.2 = false) ∧
    cmdReady (running bagCmd) bagCmd ((distinct [0]).map (gRow bagCmd)) = .go ∧
    (let c := gemvCmd 1
     let s := running c
     let rows := (List.range (nRows c)).map (fun r => (nW c + nRsw c * r, nRowLen c))
     nWt c = 9 ∧ nSpz c = false ∧
     cmdReady s c (rows ++ [(nS c, nSlen c), (nX c, nXlen c)] ++ (if nAcc c then [(nY c, nYlen c)] else [])) = .go ∧
     (∀ r ∈ rows, ∀ b ∈ cmdRead s c r.1 r.2, b.2 = false) ∧ (∀ b ∈ cmdRead s c (nX c) (nXlen c), b.2 = false) ∧
     (∀ b ∈ cmdRead s c (nY c) (nYlen c), b.2 = false) ∧ nAcc c = true ∧ nCols c % 8 = 0) := by
  have hd : distinct [0] = [0] := by simp [distinct]
  refine ⟨⟨go_of (by decide +kernel), by decide +kernel⟩, ?_, by decide +kernel, by decide +kernel, go_of (by decide +kernel),
    by decide +kernel⟩
  rw [hd]
  exact go_of (by decide +kernel)

/-- A DQF of 128 bytes, an EXPAND of a granule of dwords to memory, and a PACK of two granules of bytes. -/
def sparseCmd (w3 : Nat) : Cmd := cmd 1 [w0 1, 0x500000, 0, BitVec.ofNat 64 w3, 0x510000]
def dqfCmd : Cmd := sparseCmd (2 ^ 59 + 128)
def expandCmd : Cmd := sparseCmd (2 * 2 ^ 62 + 2 ^ 60 + 9 * 2 ^ 54 + 128)
def packCmd : Cmd := sparseCmd (2 * 2 ^ 60 + 16 * 2 ^ 54 + 128)
/-- A sparse copy can run, with all that it reads sound. -/
def copyGoes (c : Cmd) : Bool :=
  let s := running c
  let src := cmdRead s c (cpSrc c) (cpLen c)
  let aux := cmdRead s c (cpAux c) (cpAuxLen c)
  (match cmdReady s c [(cpSrc c, cpLen c), (cpAux c, cpAuxLen c)] with
    | .go => true
    | _ => false) && src.length == cpLen c && src.all (fun b => !b.2) && aux.all (fun b => !b.2)

theorem test_hyp_completions_sparse : ([dqfCmd, expandCmd, packCmd].all copyGoes) = true ∧
    (cpDir dqfCmd = 0 ∧ cpDqf dqfCmd = true) ∧
    (cpDir expandCmd = 2 ∧ cpDqf expandCmd = false ∧ cpSpz expandCmd = 1 ∧ cpWidth expandCmd = 2 ∧
      cpLen expandCmd = 64 * 2 * (cpLen expandCmd / (64 * 2))) ∧
    (cpDir packCmd = 0 ∧ cpDqf packCmd = false ∧ cpSpz packCmd = 2 ∧ cpWidth packCmd = 1 ∧
      cpLen packCmd = 64 * 1 * (cpLen packCmd / (64 * 1)) ∧ cpLen packCmd / (64 * 1) ≤ 64) := by decide +kernel

/-- An UPD of one record of row 0, of two elements. -/
def updCmd : Cmd := cmd 2 [w0 0x11, 0x500000, 0x510000, 0x520000, 0, BitVec.ofNat 64 (2 * 2 ^ 32 + 8 * 2 ^ 16 + 2),
  BitVec.ofNat 64 (2 ^ 48 + 10 * 2 ^ 27)]
def updIds (s : State) : List Nat :=
  (List.range (gNi updCmd)).map (fun i => bytesAt (cmdRead s updCmd (gIbase updCmd) (4 * gNi updCmd)) (4 * i) 4)

theorem upd_places : UpdPlaces (running updCmd) updCmd (updIds (running updCmd)) := by
  have hi : updIds (running updCmd) = [0] := by decide +kernel
  refine ⟨by decide +kernel, by decide +kernel, fun u hu v hv d e hd he h => ?_⟩
  rw [hi, List.mem_singleton] at hu hv
  subst hu hv
  have hd2 : d < 2 := hd
  have he2 : e < 2 := he
  interval_cases d <;> interval_cases e
  · exact ⟨rfl, rfl⟩
  · exact absurd h (by decide +kernel)
  · exact absurd h (by decide +kernel)
  · exact ⟨rfl, rfl⟩

theorem test_hyp_completions_upd :
    (let s := running updCmd
     cmdReady s updCmd [(gIbase updCmd, 4 * gNi updCmd), (gObase updCmd, 4 * gD updCmd * gNi updCmd)] = .go ∧ updIds s = [0] ∧
     (∀ i ∈ updIds s, i < gNr updCmd) ∧ Sound (cmdRead s updCmd (gIbase updCmd) (4 * gNi updCmd)) ∧
     Sound (cmdRead s updCmd (gObase updCmd) (4 * gD updCmd * gNi updCmd)) ∧ UpdPlaces s updCmd (updIds s) ∧
     gSize updCmd = 4) ∧
    (let s := poke (running updCmd) 0x510000 4 2
     cmdReady s updCmd [(gIbase updCmd, 4 * gNi updCmd), (gObase updCmd, 4 * gD updCmd * gNi updCmd)] = .go ∧
     ∃ i ∈ updIds s, gNr updCmd ≤ i) :=
  ⟨⟨go_of (by decide +kernel), by decide +kernel, by decide +kernel, by unfold Sound; decide +kernel,
    by unfold Sound; decide +kernel, upd_places, by decide +kernel⟩, go_of (by decide +kernel), by decide +kernel⟩

/-- A product of a row of 64 columns: of type t, sparse or not, with its scales or bitmap at 0x540000. -/
def rowCmd (t spz : Nat) : Cmd := cmd 4 [w0 0x20, 0x500000, 0x540000, 0x510000, 0x520000,
  BitVec.ofNat 64 (128 * 2 ^ 32 + 2 ^ 16 + 64), BitVec.ofNat 64 (t * 2 ^ 59 + 11 * 2 ^ 54 + 10 * 2 ^ 49 + 2 * 2 ^ 47 + 2 ^ 45 + spz * 2 ^ 44)]
/-- It can run, with all that it reads sound. -/
def rowGoes (c : Cmd) : Bool :=
  let s := running c
  let rows := (List.range (nRows c)).map (fun r => (nW c + nRsw c * r, nRowLen c))
  let good (a n : Nat) : Bool := (cmdRead s c a n).all (fun b => !b.2)
  (match cmdReady s c (rows ++ [(nS c, nSlen c), (nX c, nXlen c)] ++ (if nAcc c then [(nY c, nYlen c)] else [])) with
    | .go => true
    | _ => false) && rows.all (fun r => good r.1 r.2) && good (nX c) (nXlen c) && good (nS c) (nSlen c) &&
  good (nY c) (nYlen c) && nCols c % 8 == 0

theorem test_hyp_completions_rows :
    (rowGoes (rowCmd 13 0) && rowGoes (rowCmd 14 0) && rowGoes (rowCmd 15 0) && rowGoes (rowCmd 16 0) && rowGoes (rowCmd 9 1) &&
      rowGoes (rowCmd 11 1)) = true ∧ nSpz (rowCmd 11 1) = true ∧ nWt (rowCmd 11 1) = 11 ∧ nBlock (rowCmd 15 0) = true := by
  decide +kernel

/-- A collective of two members, this one of rank 0, with these first words and what has arrived. -/
def member (opc w1 w4 : Nat) : Cmd := cmd 3 [w0 opc, BitVec.ofNat 64 w1, 0x500000, 0x510000, BitVec.ofNat 64 w4]
def joined (c : Cmd) (parts finals : List (Nat × List Dword)) : State :=
  regSet { running c with colls := [⟨1, parts, finals⟩] } (commAddr 0 + 8) (BitVec.ofNat 64 (2 ^ 63 + 2 * 2 ^ 41))
/-- Every chunk is there, and it can complete. -/
def finishes (c : Cmd) (parts finals : List (Nat × List Dword)) : Bool :=
  let s := joined c parts finals
  let src := cmdRead s c (coSrc c) (coSrcLen s c)
  collOf s c.id == some ⟨1, parts, finals⟩ && (chunkOffs s c).all (chunkDone s c ⟨1, parts, finals⟩) && collTurn s c &&
  (match cmdReady s c [(coSrc c, coSrcLen s c)] with
    | .go => true
    | _ => false) && src.length == coSrcLen s c && src.all (fun b => !b.2)

/-- The sum of i32, a gather, a broadcast of this root and of the other one, a barrier and a merge; and their failure. -/
theorem test_hyp_completions_members :
    (finishes (member 0x40 (4 * 2 ^ 43) 1) [(0, [5])] [] && finishes (member 0x42 (4 * 2 ^ 43) 1) [] [(4, [7])] &&
      finishes (member 0x43 (4 * 2 ^ 43) 1) [] [] && finishes (member 0x43 (2 ^ 48 + 4 * 2 ^ 43) 1) [] [(0, [7])] &&
      finishes (member 0x44 0 0) [(0, [])] [] && finishes (member 0x46 (2 ^ 31 + 2 * 2 ^ 27) 0) [(0, [5])] []) = true ∧
    1 < coN (joined (member 0x40 (4 * 2 ^ 43) 1) [] []) (member 0x40 (4 * 2 ^ 43) 1) ∧
    chunkOffs (joined (member 0x40 (4 * 2 ^ 43) 1) [] []) (member 0x40 (4 * 2 ^ 43) 1) = [0] ∧
    (member 0x40 (4 * 2 ^ 43) 1).state = .running := by decide +kernel

theorem test_hyp_completions_collective :
    (let c := cmd 3 [w0 0x40, BitVec.ofNat 64 (4 * 2 ^ 43), 0, 0, 0]
     coRop c = 0 ∧ (coTy c).isInt = true ∧ (0xFFFFFFFF : Nat) < 2 ^ (coTy c).bits) ∧
    (let c := cmd 3 [w0 0x45, 0, 0, 0, 0, 0, 0]
     let s := { running c with mcasts := [⟨1, [5, 6], false⟩] }
     cmdOf s 1 = some c ∧ s.mcasts.find? (fun m => m.cmd == 1) = some ⟨1, [5, 6], false⟩ ∧ [5, 6].erase 5 ≠ [] ∧
     ([5] : List Nat).erase 5 = []) ∧
    (Runs collected 1 cbarCmd ∧ collOf collected 1 = some ⟨1, [], []⟩ ∧ collTurn collected cbarCmd = true ∧
     collected.chunks = [] ∧ Comes cbarCmd 0x44 0 0 ∧ ¬ Comes cbarCmd 0x43 0 0 ∧
     (∃ n, chunkLen collected cbarCmd 0 = some n ∧ (n + 7) / 8 = ([] : List Dword).length) ∧
     chunkDone collected cbarCmd ⟨1, [], []⟩ 0 = false ∧
     (partsAt ⟨1, [], []⟩ 0).length < partsNeeded collected cbarCmd ∧ ¬ ∃ n, chunkLen collected cbarCmd 1 = some n) ∧
    (cmdIsComm cbarCmd = true ∧ collected.cmds.filter (fun c => cmdIsComm c && cmdComm c == 0) = [cbarCmd] ∧
     base.cmds.filter (fun c => cmdIsComm c && cmdComm c == 63) = []) ∧ (63 < 64 ∧ 1 < 2 ^ 40) := by
  refine ⟨by decide +kernel, by decide +kernel, ⟨⟨by decide +kernel, by decide +kernel⟩, by decide +kernel, by decide +kernel,
    by decide +kernel, ⟨by decide +kernel, by decide +kernel, by decide +kernel⟩, fun h => absurd h.1 (by decide +kernel),
    ⟨0, by decide +kernel⟩, by decide +kernel, by decide +kernel, ?_⟩, by decide +kernel, by decide⟩
  rw [show chunkLen collected cbarCmd 1 = none by decide +kernel]
  simp

/-- Two operations of one die, on channels 0 and 1 of high and low priority, with a chunk each, after n wins. -/
def contended (n : Nat) : State :=
  let a := cmd 3 [w0 0x44, 0, 0, 0, 0]
  let b := { cmd 3 [w0 0x44, BitVec.ofNat 64 (2 ^ 58), 0, 0, 0] with id := 2 }
  let s := { running a with
    cmds := [a, b]
    colls := [⟨1, [], []⟩, ⟨2, [], []⟩]
    chunks := [⟨1, 0, true, 0x44, 0, 0, []⟩, ⟨2, 0, true, 0x44, 2 ^ 58, 0, []⟩]
    arbiters := [(0, ⟨0, 0, n⟩)] }
  regSet (regSet s (commAddr 0 + 8) (BitVec.ofNat 64 (2 ^ 63 + 2 ^ 61 + 2 * 2 ^ 41))) (commAddr 1 + 8)
    (BitVec.ofNat 64 (2 ^ 63 + 2 ^ 57 + 2 * 2 ^ 41))

theorem test_hyp_arbitration :
    ((arbitrate (contended 14) 0).map (fun x => x.1.cmd) = some 1 ∧ (arbitrate (contended 15) 0).map (fun x => x.1.cmd) = some 2) ∧
    (∀ k ∈ (contended 14).chunks, chunkReady (contended 14) 0 k = true ∧
      commHigh (contended 14) (chunkComm (contended 14) k) = (k.cmd == 1)) := by
  decide +kernel

/-- A search over nodes 0 and 1 at 0x500000, of which 0 is visible, with a message of each kind; `q` has the query; and
one that still waits for replies. -/
def searching (q : List Nat) : State :=
  let s := poke (poke (running (cmd 5 [w0 0x30, 0, 0, 0, 0, 0])) 0x500008 4 0xFFFFFFFF) 0x500014 8 (1 + 2 ^ 32)
  { s with searches := [{ (default : Search) with
      cmd := 1
      desc := [BitVec.ofNat 64 (9 * 2 ^ 59 + 2 ^ 48 + 2 ^ 43 + 64 * 2 ^ 36), 0, 2, 0x500000]
      expected := some 1
      msgs := [.broadcast 0, .expand 0, .visit 1, .reply 1 none, .endOf 0]
      queryAt := q }] }
def awaiting : State := { searching [0] with searches := ((searching [0]).searches.map (fun h => { h with
  expected := none
  msgs := [.reply 1 none, .endOf 1] })) }

theorem moves_search {s : State} {h : Search} {c : Cmd} (x : (searchOf s 1 == some h && cmdOf s 1 == some c &&
    c.state == .running) = true) : SearchMoves s 1 h c := by
  simp only [Bool.and_eq_true, beq_iff_eq] at x
  exact ⟨x.1.1, x.1.2, x.2⟩

theorem test_hyp_search :
    let h := (searchOf (searching [0]) 1).getD default
    let c := cmd 5 [w0 0x30, 0, 0, 0, 0, 0]
    SearchMoves (searching [0]) 1 h c ∧ .broadcast 0 ∈ h.msgs ∧ .visit 1 ∈ h.msgs ∧ hasQuery h 1 = true ∧ hasQuery h 0 = true ∧
    hasQuery ((searchOf (searching []) 1).getD default) 1 = false ∧
    visible ((readNode (searching [0]) c h 1).getD []) 1 (shSnap c) = false ∧
    visible ((readNode (searching [0]) c h 0).getD []) 0 (shSnap c) = true ∧
    neighbours ((readNode (searching [0]) c h 0).getD []) (shSnap c) = [1] ∧ (Desc.find h.desc 1).isSome = true ∧
    (h.msgs.findSome? (fun m => match m with
      | .expand n => some n
      | _ => none) = some 0 ∧
     h.msgs.find? (fun m => match m with
      | .reply x _ => x == 1
      | _ => false) = some (.reply 1 none) ∧
     h.msgs.findSome? (fun m => match m with
      | .endOf k => some k
      | _ => none) = some 0) ∧ h.expected = some 1 ∧ 1 ≠ h.got.length ∧ (255 < 256 ∧ ∀ p ∈ [((0 : Word), 2 ^ 32 - 1)], p.2 < 2 ^ 32) := by
  refine ⟨moves_search ?_, ?_⟩ <;> decide +kernel

theorem test_hyp_search_waits :
    let h := (searchOf awaiting 1).getD default
    SearchMoves awaiting 1 h (cmd 5 [w0 0x30, 0, 0, 0, 0, 0]) ∧ (∀ x, .reply 1 x ∈ h.msgs ↔ x = none) ∧
      h.expected ≠ some (h.got.length + 1) ∧ (∀ x, .endOf x ∈ h.msgs ↔ x = 1) ∧ 1 ≠ h.got.length ∧
      (∀ x, .expand x ∈ ((searchOf (searching [0]) 1).getD default).msgs →
        hasQuery ((searchOf (searching [0]) 1).getD default) x = true) := by
  have hm : ((searchOf awaiting 1).getD default).msgs = [.reply 1 none, .endOf 1] := by decide +kernel
  have hs : ((searchOf (searching [0]) 1).getD default).msgs =
    [.broadcast 0, .expand 0, .visit 1, .reply 1 none, .endOf 0] := by decide +kernel
  refine ⟨moves_search (by decide +kernel), fun x => ?_, by decide +kernel, fun x => ?_, by decide +kernel, fun x h => ?_⟩
  · rw [hm]
    simp
  · rw [hm]
    simp
  · rw [hs] at h
    simp only [List.mem_cons, SearchMsg.expand.injEq, reduceCtorEq, List.not_mem_nil, or_false, false_or] at h
    subst h
    decide +kernel

/-! ### The hypotheses of the statements about migration and the fabric -/

/-- The page of `mig`, of which the units in `us` are copied to the frame at 0x701000. -/
def moving (us : List Nat) : Migration := ⟨0, 0x700000, 0x701000, us⟩
def moves (us : List Nat) : State := { poke (poke mig 0x600080 1 6) 0x600000 26
    (0x700 * 2 ^ 24 + 0x701 * 2 ^ 63 + 2 * 2 ^ 182) with
  migrations := [moving us]
  owners := [⟨23, 0, 0x123, 7⟩] }

theorem migrates_moves (us : List Nat) : Migrates (moves us) 0 (moving us) := by
  refine ⟨rfl, ?_, ?_, ?_, ?_, ?_, ?_⟩
  · exact ⟨rfl, by show gpnPkg 0 = base.pkg; decide +kernel⟩
  · refine ⟨?_, ?_⟩ <;> show _ = base.pkg <;> simp only [moving] <;> decide +kernel
  · simp only [moving]; decide +kernel
  · simp only [moving]; decide +kernel
  · have h : dirEntry (moves us) 0 = dirEntry (moves []) 0 := rfl
    have h2 : dirEntry (moves []) 0 = 0x600000 := by decide +kernel
    intro f hf
    rw [h, h2]
    have h3 : dpaLocal (moving us).src = 0x700000 := by simp only [moving]; decide +kernel
    have h4 : dpaLocal (moving us).target = 0x701000 := by simp only [moving]; decide +kernel
    rw [h3, h4] at hf
    omega
  · show homeDpa (dirHome (dirBits (moves []) 0)) = 0x700000
    decide +kernel

theorem test_hyp_migration :
    (gpnPkg 0 = mig.pkg ∧ gpnOk mig 0 = true ∧ (∀ o ∈ mig.owners, ¬ (o.die = 0 ∧ o.gpn = 0)) ∧
     (∀ o ∈ (moves []).owners, ¬ (o.die = 22 ∧ o.gpn = 0)) ∧ gpnOk (moves []) 0 = true ∧
     dualTarget (moves []) ((dirEntry (moves []) 0 + 128) / 8) = none) ∧
    ((moves []).owners.find? (fun o => o.die == 23 && o.gpn == 0) = some ⟨23, 0, 0x123, 7⟩ ∧
     (0x123 : Nat) ≠ dirHome (dirBits (moves []) 0)) ∧
    (let s := { moves [] with redirects := [⟨23, 0, 0x700, 8⟩] }
     s.redirects[0]? = some ⟨23, 0, 0x700, 8⟩ ∧ ownerOf mig 23 0 = none ∧ ownerOf s 23 0 = some ⟨23, 0, 0x123, 7⟩ ∧
     (8 + 256 - 7 % 256) % 256 = 1 ∧ (134 + 256 - 7 % 256) % 256 = 127 ∧ homeBusy s 0x123 = false ∧
     homeBusy { s with remote := [{ posted with addr := homeDpa 0x123 }] } 0x123 = true ∧ olderOut s 0 0x700 = false ∧
     olderOut { s with remote := [{ posted with
       addr := homeDpa 0x123
       gpn := some 0 }] } 0 0x700 = true) ∧
    (Migrates (moves []) 0 (moving []) ∧ (moving []).copied.length < 64 ∧ dirNstub (dirBits (moves []) 0) < 2) ∧
    (Migrates (moves (List.range 63)) 0 (moving (List.range 63)) ∧ (moving (List.range 63)).copied.length < 64 ∧
     (moving (List.range 63)).copied ≠ [] ∧ 503 / 8 ∈ (moving (List.range 63)).copied) ∧
    (Migrates (moves (List.range 64)) 0 (moving (List.range 64)) ∧ (moving (List.range 64)).copied.length = 64 ∧
     stubRoom (moves (List.range 64)) (moving (List.range 64)) = true ∧
     copySettled (moves (List.range 64)) (moving (List.range 64)) = true ∧
     homeDpa (dirTarget (dirBits (moves (List.range 64)) 0)) = (moving (List.range 64)).target ∧
     (∀ x ∈ (moves (List.range 64)).stubs, x.gpn ≠ 0) ∧ sharersOf (moves (List.range 64)) 0 = [1, 2] ∧
     dirNstub (dirBits (moves (List.range 64)) 0) < 3) ∧
    (gpnPkg (2 ^ 34) ≠ mig.pkg ∧ (let s := { moves [] with stubs := [⟨0, 0x600, 0x700, 8, [0, 5], 0, false⟩] }
      (∃ x ∈ s.stubs, x.gpn = 0 ∧ s.pkg ∈ x.waiting ∧ x.dropped = false) ∧ s.pkg ≠ 5 ∧ 5 ∈ [s.pkg, 5])) ∧
    (let s := { mig with
       stubs := [⟨0, 0x600, 0x700, 8, [0, 5], 0, true⟩]
       owners := [⟨23, 0, dirHome (dirBits mig 0), 8⟩] }
     s.stubs = [⟨0, 0x600, 0x700, 8, [0, 5], 0, true⟩] ∧ s.pkg ∈ [0, 5] ∧ homeBusy s 0x600 = false ∧
     homeBusy { s with remote := [{ posted with addr := homeDpa 0x600 }] } 0x600 = true) := by
  refine ⟨by decide +kernel, by decide +kernel, by decide +kernel, ⟨migrates_moves [], by decide +kernel⟩,
    ⟨migrates_moves _, by decide +kernel⟩, ⟨migrates_moves _, by decide +kernel⟩, by decide +kernel, by decide +kernel⟩

/-- The front end's state from STAGE 6 on: its queue 0 has 16 entries and TAIL 1. -/
def served : State := setStage front 6 0

theorem test_hyp_queue_events :
    (let i := qcbImage served 0
     regionLive served = true ∧ qcbTail i = 1 ∧ qcbHead i = 0 ∧ qcbN i = 16 ∧ isWork 0x10040 (qcbImage served 0x10040) = true) ∧
    (let d (t : Word) := (t.toNat + 2 ^ 32 - qcbTail (qcbImage served 0)) % 2 ^ 32
     let o (t : Word) := (t.toNat + 2 ^ 32 - qcbHead (qcbImage served 0)) % 2 ^ 32
     d 1 = 0 ∧ 2 ^ 31 ≤ d 0x80000001 ∧ d 2 = 1 ∧ 1 ≤ d 16 ∧ o 16 ≤ 16 ∧ 16 < o 17 ∧ d 0x80000000 = 2 ^ 31 - 1) ∧
    (let s := setStage sleeping 6 0
     regionLive s = true ∧ isWork 0x10040 (qcbImage s 0x10040) = true ∧ 0 ∈ sleepersOf s 0x10040 ∧ 0 < s.groups.length ∧
     asleep s 0x10040 0 = true) ∧
    ∀ x ∈ served.held, x.vf ≠ 63 := by
  decide +kernel

/-- The entry cache holds a block, or has room for one. -/
theorem test_hyp_block_room :
    BlockRoom served 0 ∧ BlockRoom { served with qcache := [] } 0xFFFFF ∧ (0xFFFFF : Nat) < 2 ^ 20 :=
  ⟨.inl (by decide +kernel), .inr (by show (0 : Nat) < 8; decide), by decide⟩

/-- Window 0 opens every page to every source. -/
def openTo (s : State) : State := regSet (regSet s 0x3F0000510000 0xFFFFC00000000000) 0x3F0000510008 0xF00008000000FFFF
def opened : State := openTo base

theorem still_of {s : State} (h : (!stopped s && s.stubs.isEmpty && s.migrations.isEmpty) = true) : Still s := by
  simp only [Bool.and_eq_true, Bool.not_eq_true', List.isEmpty_iff] at h
  exact ⟨h.1.1, h.1.2, h.2⟩

theorem inbounds_of {s : State} {src addr n : Nat} {r w a : Bool} (h : ((!stopped s && s.stubs.isEmpty && s.migrations.isEmpty) &&
    decide (0 < n) && decide (addr % 128 + n ≤ 128) && decide (addr < 2 ^ 46) && (inboundReason s src addr n r w a).isNone &&
    (pageAt s addr).isNone) = true) : Inbounds s src addr n r w a := by
  rw [Bool.and_eq_true, Bool.and_eq_true, Bool.and_eq_true, Bool.and_eq_true, Bool.and_eq_true] at h
  obtain ⟨⟨⟨⟨⟨h0, h1⟩, h2⟩, h3⟩, h4⟩, h5⟩ := h
  simp only [decide_eq_true_eq, Option.isNone_iff_eq_none] at h1 h2 h3 h4 h5
  exact ⟨still_of h0, h1, h2, h3, h4, fun n hn => by rw [h5] at hn; cases hn⟩

theorem test_hyp_inbound :
    Inbounds opened 1023 0x500000 128 true false false ∧ Inbounds opened 1023 0x50007F (List.replicate 1 (5 : Byte)).length false true false ∧
    (∀ c ∈ opened.chains, ¬ (c.src = 1023 ∧ c.id = 7)) ∧
    Inbounds opened 1023 0x500078 8 false true false ∧
    (Ty.ofCode 6 = some .i64 ∧ Inbounds opened 1023 0x500078 (Ty.i64.bits / 8) false false true ∧ poisoned opened 0x500078 = false ∧
     (0x500078 % (Ty.i64.bits / 8) = 0) ∧ (atomNew .i64 7 0 1 0).isSome = true) ∧
    (Inbounds opened 1023 0x500000 128 false false true ∧ (∀ i, i < 128 → poisoned opened (0x500000 + i) = false) ∧
     (∀ p ∈ [((0 : Nat), (1 : Dword), (0 : Dword)), (0, 2, 0), (120, 1, 0)], p.1 % (Ty.i64.bits / 8) = 0 ∧ p.1 < 128) ∧
     probeOf opened 1023 0x500000 ∉ opened.probes) ∧
    (inboundReason base 1023 0x500000 128 true false false ≠ none ∧ (∀ i, i < 256 → windowSrc (windowHi base i) 1023 = false) ∧
     stopped base = false) :=
  ⟨inbounds_of (by decide +kernel), inbounds_of (by decide +kernel), by decide +kernel, inbounds_of (by decide +kernel),
   ⟨by decide +kernel, inbounds_of (by decide +kernel), by decide +kernel⟩, ⟨inbounds_of (by decide +kernel), by decide +kernel⟩,
   by decide +kernel⟩

/-- A multicast of two lines of which one has come, with and without a failed check, at the end of a page of memory. -/
def chained (ok : Bool) : State := { opened with chains := [⟨1023, 7, 256, 128, ok⟩] }

theorem flit_chained (ok : Bool) (n : Nat) (h0 : 0 < n) (h : n ≤ 128) :
    Flit (chained ok) ⟨1023, 7, 256, 128, ok⟩ 0x500F00 (List.replicate n 5) := by
  have hp : pageAt (chained ok) (0x500F00 + 128) = none := by
    show pageAt opened (0x500F00 + 128) = none
    decide +kernel
  have hv : (chained ok).variant = base.variant := by
    show opened.variant = base.variant
    decide +kernel
  refine ⟨⟨?_, ?_⟩, ?_, by simpa using h0, by simp; omega, ⟨by simp; omega, by show 0x500F00 + 256 ≤ 2 ^ 46; decide⟩, fun b h1 h2 => ?_, fun m hm => ?_⟩
  · show stopped opened = false
    decide +kernel
  · show opened.stubs = [] ∧ opened.migrations = []
    decide +kernel
  · cases ok <;> rfl
  · simp only [List.length_replicate] at h2
    simp only [isMemory, hbmBacked, Bool.or_eq_true, Bool.and_eq_true, decide_eq_true_eq]
    omega
  · simp only [hp] at hm
    cases hm

theorem test_hyp_inbound_more :
    (∀ ok, Flit (chained ok) ⟨1023, 7, 256, 128, ok⟩ 0x500F00 (List.replicate 128 5) ∧
      Flit (chained ok) ⟨1023, 7, 256, 128, ok⟩ 0x500F00 (List.replicate 127 5)) ∧
    (poisoned opened (inboundLoc opened 0x50007C).2 = false ∧ Inbounds opened 1023 0x50007C 4 true false false ∧
     compares 0 false (BitVec.ofNat 64 (memAt opened (inboundLoc opened 0x50007C).2 4)) 0 = true ∧
     compares 1 false (BitVec.ofNat 64 (memAt opened (inboundLoc opened 0x50007C).2 4)) 0 = false ∧ opened.monitors = []) ∧
    (Still opened ∧ inboundAddr opened 0x500000 = true ∧ inboundReason opened 1023 (inboundLoc opened 0x500000).1 1 true true true = none ∧
     (probeOf opened 1023 0x500000).mig = false ∧
     keyRoom opened (probeOf opened 1023 0x500000).die [((probeOf opened 1023 0x500000).page, false)] = true) ∧
    (let s := openTo mig
     let p := probeOf s 1023 (farLoc 0 0xFFF)
     Still s ∧ inboundAddr s (farLoc 0 0xFFF) = true ∧ inboundReason s 1023 (inboundLoc s (farLoc 0 0xFFF)).1 1 true true true = none ∧
     p = ⟨1023, p.die, 0, true⟩ ∧ gpnPkg 0 = s.pkg ∧ gpnOk s 0 = true ∧ gpnMoving s 0 = false ∧ keyRoom s p.die [(0, true)] = true) ∧
    gpnMoving (poke mig 0x600000 26 (0x700 * 2 ^ 24 + 0x701 * 2 ^ 63 + 2 * 2 ^ 182)) 0 = true ∧
    (let s := { opened with probes := [probeOf opened 1023 0x500000] }
     Still s ∧ probeOf s 1023 0x500000 ∈ s.probes) := by
  refine ⟨fun ok => ⟨flit_chained ok 128 (by decide) (by decide), flit_chained ok 127 (by decide) (by decide)⟩,
    ⟨by decide +kernel, inbounds_of (by decide +kernel), by decide +kernel⟩, ⟨still_of (by decide +kernel), by decide +kernel⟩,
    ⟨still_of (by decide +kernel), by decide +kernel⟩, by decide +kernel, still_of (by decide +kernel), List.mem_singleton.mpr rfl⟩

/-- The queue of `placed` with its places held by group 3 of package 5. -/
def placedFar (st : Nat) : State := { placed st 0 with places := (placed st 0).places.map (fun p =>
  (p.1, if p.2.kind = 2 then { p.2 with holder := some (farHolder 5 3) } else p.2)) }

theorem test_hyp_inbound_places :
    (∀ st, st < 3 → FarHeld (placedFar st) 5 3 (1 <<< 28) ∧ ((placedFar st).place (handleSlice (1 <<< 28)) (handleIdx (1 <<< 28))).st = st) ∧
    (stopped base = false ∧ heldBy base (0 : Dword).toNat (farHolder 5 3) = false) ∧
    (Inbounds opened 5 0x500000 128 true true false) ∧
    (mig.migrations = [] ∧ stopped mig = false ∧ frameOk mig 0x701000 = true) ∧
    (gpnPkg (5 * 2 ^ 34) = (5 : BitVec 10).toNat ∧ (5 : BitVec 10).toNat ≠ mig.pkg ∧ bits 0x600 38 29 = mig.pkg ∧ mig.stubs = []) :=
  ⟨fun st h => by interval_cases st <;> exact ⟨⟨by decide +kernel, by decide +kernel⟩, by decide +kernel⟩, by decide +kernel,
   inbounds_of (by decide +kernel), by decide +kernel, by decide +kernel⟩

/-- What group 0 waits for, and the page of `mig` with its frame in package 5. -/
def asked (op : RemOp) : RemReq := ⟨9, 0, 0x400000, 0x500000, 2 ^ 46, op, .sent, none⟩
def farMig : State := poke mig 0x600000 26 ((5 * 2 ^ 29 + 0x700) * 2 ^ 24 + 2 ^ 182)

theorem test_hyp_answers :
    (let s := { base with remote := [posted] }
     PostedStore s 9 posted) ∧
    (let s := { base with remote := [asked (.load 8)] }
     remoteReq s 9 = some (asked (.load 8)) ∧ (asked (.load 8)).op.isStore = false ∧ (asked (.load 8)).state = .sent ∧
     (asked (.load 8)).grp ≠ endGroupId ∧ (asked (.load 8)).grp < relayGroup ∧
     answerLen (asked (.load 8)).op ≤ (List.replicate 8 (0 : Byte)).length ∧ (asked (.load 8)).op.pinned = false ∧
     (∀ gpn, (asked (.load 8)).op ≠ .directory gpn) ∧ ∀ loc, (asked (.load 8)).op ≠ .line loc) ∧
    (asked (.lineAtomic 5 0 [(0, 1, 0)] true)).op.pinned = true ∧
    (let s := { farMig with remote := [asked (.line (migLoc 0 0x80))] }
     remoteReq s 9 = some (asked (.line (migLoc 0 0x80))) ∧ 128 ≤ (List.replicate 128 (0 : Byte)).length ∧
     migLoc 0 0x80 % 128 = 0 ∧ migBase ≤ migLoc 0 0x80 ∧ farHome s (migPage (migLoc 0 0x80)) = true ∧
     migLoc 0 0x80 / 128 ∉ s.migLines) ∧
    (let s := { base with remote := [asked (.directory (2 ^ 34))] }
     remoteReq s 9 = some (asked (.directory (2 ^ 34))) ∧ (asked (.directory (2 ^ 34))).op.isStore = false ∧
     6 ≤ (List.replicate 6 (0 : Byte)).length ∧ ownerOf s (ownerDie s (asked (.directory (2 ^ 34)))) (2 ^ 34) = none ∧
     olderOut (dropReq s 9) (2 ^ 34) 0 = false ∧
     olderOut (dropReq { s with remote := [asked (.directory (2 ^ 34)), { posted with
       id := 8
       gpn := some (2 ^ 34) }] } 9) (2 ^ 34) 0 = true) := by
  refine ⟨⟨?_, ?_, ?_, ?_, ?_⟩, ⟨?_, ?_, ?_, ?_, ?_, ?_, ?_, fun gpn h => by simp [asked] at h, fun loc h => by simp [asked] at h⟩,
    ?_, ?_, ?_⟩ <;> decide +kernel

/-- A monitor at another package that is registered. -/
theorem test_hyp_second_answer :
    let r : RemReq := { asked (.monitor 0 false 7) with state := .answered [3] 0 }
    let s := { base with remote := [r] }
    remoteReq s 9 = some r ∧ r.grp < s.groups.length ∧ r.grp < endGroupId ∧ answerHead [3] = 3 ∧ answerHead [1, 7] = 1 := by
  decide +kernel

theorem test_hyp_planes :
    (stopped base = false ∧ planeUsable base (7 : BitVec 3).toNat = true ∧ (7 : BitVec 3).toNat ∉ base.draining) ∧
    (let s := { base with
       draining := [7]
       remote := [{ posted with state := .held }] }
     (7 : BitVec 3).toNat ∈ s.draining ∧ planeUsable s (7 : BitVec 3).toNat = true ∧ (0 : BitVec 3) ≠ 7 ∧
     planeUsable s (0 : BitVec 3).toNat = true ∧ (0 : BitVec 3).toNat ∉ s.draining) ∧
    (let s := { base with draining := [0, 1, 2, 3, 4, 5, 6, 7] }
     planeUsable s (0 : BitVec 3).toNat = true ∧ ∀ k, k < 8 → k ≠ 7 → planeUsable s k = true → k ∈ s.draining) ∧
    (let s := { regSet base 0x3F0000500008 0x80 with
       draining := [7]
       remote := [{ asked (.load 8) with state := .held }] }
     stopped s = false ∧ (7 : BitVec 3).toNat ∈ s.draining ∧ planeUsable s 7 = true ∧
     (∀ k, k < 8 → k ≠ 7 → planeUsable s k = false) ∧ remoteReq s 9 = some { asked (.load 8) with state := .held }) := by
  decide +kernel

/-- A launch on die 0 whose one team has not started; and the group of `base` as it is saved. -/
def launchable : State := setStage { base with
  groups := []
  teams := []
  launches := [{ placedLaunch with
    started := []
    dies := 1 }] } 6 0
def saving (r : Run) : State := edit base (fun g => { g with
  run := r
  saveReq := some true
  save := some ⟨2, true, 0, 0, true, none, []⟩ })

theorem test_hyp_residency : (∃ core, (0 : Nat) < 24 ∧ stage launchable = 6 ∧ launchable.claims = [] ∧ waitingSave launchable 0 = none ∧
      waiters launchable 0 = [⟨0, 0, none⟩] ∧ framesFor launchable ⟨0, 0, none⟩ = true ∧
      (placesFor launchable ⟨0, 0, none⟩ 0).find? (fun c => fitsAt launchable [] ⟨0, 0, none⟩ c []) = some core) ∧
    (0 < base.groups.length ∧ (base.group 0).run = .resident) ∧
    (((saving .resident).group 0).run = .resident ∧ ((saving .resident).group 0).saveReq ≠ none ∧
      inFlight (saving .resident) 0 = false ∧ 0 < (saving .resident).groups.length) ∧
    (((saving .saving).group 0).run = .saving ∧ ((saving .saving).group 0).save = some ⟨2, true, 0, 0, true, none, []⟩ ∧
      pubReady (saving .saving) 0 5 = true) ∧
    (let e : SideEntry := { (default : SideEntry) with
       isPush := true
       q := 15 }
     let s := edit base (fun g => { g with
       qbind := [(15, 1)]
       side := [e] })
     (s.group 0).run = .resident ∧ (s.group 0).side = [e] ∧ e.behind = 0 ∧ e.isPush = true ∧
     (s.group 0).pushRoom e.q 1 = true ∧ (s.group 0).vqinOn e.q = false) := by
  refine ⟨?_, by decide +kernel, by decide +kernel, by decide +kernel, by decide +kernel⟩
  have hp : (0 : Nat) ∈ placesFor launchable ⟨0, 0, none⟩ 0 := by
    simp only [placesFor, coreOrder, List.mem_map, List.mem_mergeSort, List.mem_filter, List.mem_range]
    exact ⟨0, by decide +kernel, by decide⟩
  have hf : ((placesFor launchable ⟨0, 0, none⟩ 0).find? (fun c => fitsAt launchable [] ⟨0, 0, none⟩ c [])).isSome = true := by
    rw [List.find?_isSome]
    exact ⟨0, hp, by decide +kernel⟩
  obtain ⟨core, hc⟩ := Option.isSome_iff_exists.mp hf
  refine ⟨core, by decide, by decide +kernel, by decide +kernel, by decide +kernel, ?_, by decide +kernel, hc⟩
  have h1 : launchWaiters launchable 0 0 = [⟨0, 0, none⟩] := by
    have h : launchWaiters launchable 0 0 = [(⟨0, 0, none⟩ : Waiting)].rotate (launchable.free 51) := by
      unfold launchWaiters
      congr 1
    rw [h, List.rotate_singleton]
  have h2 : waiters launchable 0 = launchWaiters launchable 0 0 := by
    have hl : (List.range launchable.launches.length).filter (fun i => !(launchable.launch i).killed) = [0] := by decide +kernel
    have h0 : [0].filter (fun i => (launchable.launch i).prio == 0) = [0] := by decide +kernel
    have h3 : ∀ p ∈ [1, 2, 3], [0].filter (fun i => (launchable.launch i).prio == p) = [] := by decide +kernel
    have hr : List.range 4 = [0, 1, 2, 3] := by decide
    simp only [waiters, hl, hr, List.flatMap_cons, List.flatMap_nil, h0, h3 1 (by decide), h3 2 (by decide), h3 3 (by decide),
      List.append_nil]
  rw [h2, h1]

/-! ### The hypotheses of the statements about bring-up and management -/

/-- A boot whose images are too short, one whose outcomes are what they are, and the end of the boot. -/
theorem test_hyp_boot :
    (∀ k ∈ [0, 1, 2, 3, 4, 5, 6, 0xFF], stage (setStage base k 0) = k) ∧
    (verifyAll (setStage base 2 0) = .error 1) ∧
    (∀ s : State, (∃ ds, verifyAll s = .ok ds) ∨ ∃ e, verifyAll s = .error e) ∧
    (∀ s : State, (∀ d, d < 24 → activeMap (Config.selfTest s.tick d) ≠ none) ∨
      ∃ d, d < 24 ∧ activeMap (Config.selfTest s.tick d) = none) ∧
    (∀ s : State, (∃ key, Config.puf s.tick = some key) ∨ Config.puf s.tick = none) ∧
    (astat (setStage base 6 0) ≠ 1 ∧ astat (setStage base 5 0) ≠ 1) ∧
    astat (regSet (setStage base 6 0) (mgmtBase + 0x3028) 1) = 1 ∧
    { base with report := some default }.report = some default := by
  refine ⟨by decide +kernel, by rfl, fun s => ?_, fun s => ?_, fun s => ?_, by decide +kernel⟩
  · cases h : verifyAll s with
    | ok ds => exact .inl ⟨ds, rfl⟩
    | error e => exact .inr ⟨e, rfl⟩
  · by_cases h : ∃ d, d < 24 ∧ activeMap (Config.selfTest s.tick d) = none
    · exact .inr h
    · exact .inl fun d hd hn => h ⟨d, hd, hn⟩
  · cases h : Config.puf s.tick with
    | none => exact .inr rfl
    | some key => exact .inl ⟨key, rfl⟩

/-- The running machine, the context of ASID 1 bound; and its group away, as the IDENT registers name it. -/
def live : State := setStage base 6 0
def named (st : Nat) : State := regSet (edit live (fun g => { g with
  run := .away
  state := st })) (mgmtBase + 0x6008) (2 ^ 48 + 2 ^ 32)

theorem test_hyp_management :
    ((∀ a ∈ [0x3F0000500010, dirLenAddr], a / 8 * 8 = a ∧ regWindow a = true ∧ regionLive live = true ∧ inQcbWindow a = false ∧
        commOf a = none ∧ dirIgnored a 5 live = false) ∧
      (let a := mgmtBase + 0x3000
       a / 8 * 8 = a ∧ regWindow a = true ∧ isMgmt a = true ∧ inQcbWindow a = false ∧ commOf a = none ∧ dirIgnored a 5 base = false) ∧
      regWindow 0x500000 = false ∧ regionLive base = false ∧ isMgmt 0x3F0000500010 = false) ∧
    (regionLive live = true ∧ (coreLoad live 1151 []).store - coreRsv live 1151 + (8 : Dword).toNat * 2 ^ 16 ≤ 2 ^ 20) ∧
    (asidBound live ((1 : Dword).toNat % 2 ^ 16) = true) ∧
    (identGroup live = none ∧ identGroup (named 3) = some 0 ∧ ((named 3).group 0).run = .away ∧
      ((named 3).group 0).eligible = false ∧ ((named 3).group 0).state = 3 ∧
      headerAccepted (named 3) ((named 3).group 0) = true ∧ identGroup (named 2) = some 0 ∧ ((named 2).group 0).state ≠ 3 ∧
      ((named 2).group 0).state ≠ 4) ∧
    (live.migrations = [] ∧ regionLive base = false ∧ regWindow 0x500000 = false ∧ hbmBacked 0x500000 = true ∧
      isMemory live.variant 0x500000 = true ∧ onPart base (dpaLocal 0x500000) = true ∧
      (dpaLocal 0x500000 / 128, true) ∈ { base with cacheLines := [(0x500000 / 128, true)] }.cacheLines) := by
  refine ⟨?_, ?_, ?_, ?_, ?_⟩ <;> decide +kernel

theorem test_hyp_host_reaches : HostReaches live 0x500000 16 ∧ HostReaches base 0x200000000000 16 := by
  have hl : live.variant = base.variant := by decide +kernel
  refine ⟨fun b h1 h2 => ⟨?_, ?_, fun _ => by decide +kernel, fun _ => by decide +kernel⟩,
    fun b h1 h2 => ⟨?_, ?_, fun h => ?_, fun _ => by decide +kernel⟩⟩
  · simp only [regWindow, Bool.and_eq_false_iff, decide_eq_false_iff_not]; omega
  · simp only [isMemory, hbmBacked, Bool.or_eq_true, Bool.and_eq_true, decide_eq_true_eq]; omega
  · simp only [regWindow, Bool.and_eq_false_iff, decide_eq_false_iff_not]; omega
  · simp only [isMemory, hostWindow, Bool.or_eq_true, Bool.and_eq_true, decide_eq_true_eq]; omega
  · simp only [hbmBacked, Bool.and_eq_true, decide_eq_true_eq] at h; omega

/-- A module that works, and one whose boot has failed; a byte of neither the register region nor the host window. -/
theorem test_hyp_stopped : stopped live = false ∧ stopped (setStage base 0xFF 1) = true ∧ regWindow 0x500000 = false ∧
    hostWindow 0x500000 = false ∧ onPart (setStage base 0xFF 1) (dpaLocal 0x500000) = true := by decide +kernel

/-! ### The hypotheses of the statements about the whole machine -/

theorem test_hyp_step_invariant : Inv { base with agenda := [.event (.throttle true 3)] } ∧
    ∃ t, step { base with agenda := [.event (.throttle true 3)] } = .next t :=
  ⟨⟨by decide +kernel, by decide +kernel, by decide +kernel, by decide +kernel⟩, next_of (by decide +kernel)⟩

/-- A state whose next move is an agent's. -/
def turn (s : State) (a : Agent) : State := { s with agenda := [a] }

theorem test_hyp_step_strand :
    (let s0 := beginStep (turn (poke base 0x400000 4 (si 0x02 1 0 5)) (.strand 0))
     let s1 := onStrand s0 0
     let wx := okOr (0, 0) (strandWords s1)
     0 < s0.groups.length ∧ (s0.group 0).run = .resident ∧ (strandWords s1).isOk = true ∧ (decodeScalar wx.1 wx.2).isSome = true ∧
     ∀ i, strandHeld (noteFetch s1 s1.spc needXS) i wx.1 = false) ∧
    (let s1 := onStrand (beginStep (turn (poke base 0x400000 4 0xFFFFFFFF) (.strand 0))) 0
     (strandWords s1).isOk = true ∧
     (decodeScalar (okOr (0, 0) (strandWords s1)).1 (okOr (0, 0) (strandWords s1)).2).isNone = true) := by
  refine ⟨⟨?_, ?_, ?_, ?_, fun i => ?_⟩, ?_⟩
  case refine_5 =>
    have h : lateOf (noteFetch (onStrand (beginStep (turn (poke base 0x400000 4 (si 0x02 1 0 5)) (.strand 0))) 0)
      (onStrand (beginStep (turn (poke base 0x400000 4 (si 0x02 1 0 5)) (.strand 0))) 0).spc needXS) 0 = [] := by decide +kernel
    simp only [strandHeld]
    exact (congrArg (fun l : List Late => l.any _) h).trans rfl
  all_goals decide +kernel

/-- The lane state with a VADD of n32 elements at its first instruction. -/
def adding : State := poke lane 0x400000 12 (encodeLane 0 (lf 5 0 5 0 1 2 0 0))

theorem test_hyp_step_pipe :
    (let s0 := beginStep (turn adding (.pipe 0 0))
     match choose s0 0 with
     | (some x, u) =>
       let s1 := onFrag u x.1 x.2
       decide (s1.frag.pc.toNat < (s1.launchOf s1.grp).lcount) && (fetchLane s1 s1.frag.pc.toNat).isOk &&
         (decodeLane (okOr 0 (fetchLane s1 s1.frag.pc.toNat))).isSome
     | (none, _) => false) = true := by
  decide +kernel

/-- The running front end with a lane on queue `q`, of the kind given, whose ring holds the entries given. -/
def offered (q kind : Nat) (ds : List Nat) : State :=
  let s := setStage (ring front) 6 0
  let s := (ds.zipIdx).foldl (fun s p => poke s (0xA00000 + 8 * p.2) 8 p.1) s
  turn { s with
    qcache := [(q, 0xA00000 * 2 ^ 448 + 0x900000 * 2 ^ 384 + 2 * 2 ^ 352 + 4 * 2 ^ 216 + kind * 2 ^ 212 + 2 ^ 210)]
    lanes := [⟨q, 0⟩] } (.front q)

def isEntry : Fetched → Option Entry
  | .entry e => some e
  | _ => none

/-- The lane has fetched what its queue executes next. -/
def fetched (s : State) (q : Nat) : State :=
  match missing s q with
  | some p => match fetchPlace s q p with
    | .entry e => keepEntry s q p e
    | _ => s
  | none => s

/-- The words of the entry that the queue executes. -/
def firstEntry (s : State) (q : Nat) : Option Entry := (entryPlace s q 0).bind (heldEntry s q)

theorem test_hyp_step_front :
    (let s1 := settleLanes (onQueue (beginStep (offered 0 1 [2 ^ 63, 0, 0, 0, 0, 0, 0, 0])) 0)
     (s1.lanes.any (fun l => l.queue == 0)) = true ∧
     ((missing s1 0).bind (fun p => isEntry (fetchPlace s1 0 p))).isSome = true) ∧
    (let s1 := settleLanes (onQueue (beginStep (fetched (offered 0x10000 3 [2 ^ 63 + 3, 0, 0, 0, 0, 0, 0, 0]) 0x10000)) 0x10000)
     (s1.lanes.any (fun l => l.queue == 0x10000)) = true ∧ missing s1 0x10000 = none ∧ (s1.queue 0x10000).skip = 0 ∧
     0x10000 ∈ stepQueues s1 ∧ qcbKind (qcbImage (takeTurn s1 0x10000) 0x10000) = 3 ∧
     ((firstEntry s1 0x10000).bind decodeRequest).isSome = true) ∧
    (let s1 := settleLanes (onQueue (beginStep (fetched (offered 0 1 [2 ^ 63, 0, 0, 0, 0, 0, 0, 0]) 0)) 0)
     (s1.lanes.any (fun l => l.queue == 0)) = true ∧ missing s1 0 = none ∧ (s1.queue 0).skip = 0 ∧ 0 ∈ stepQueues s1 ∧
     qcbKind (qcbImage (takeTurn s1 0) 0) ≠ 3 ∧ (firstEntry s1 0).map packetType = some 0 ∧
     ((firstEntry s1 0).bind (fun e => decodePacket e default)).isSome = true) ∧
    (let s := fetched (fetched (offered 0 1 ([2 ^ 63 + 9 * 2 ^ 48, 0, 0, 0, 0, 0, 0, 0] ++ [2 ^ 63, 0, 0, 0, 0, 0, 0, 0])) 0) 0
     let s1 := settleLanes (onQueue (beginStep s) 0)
     (s1.lanes.any (fun l => l.queue == 0)) = true ∧ missing s1 0 = none ∧ (s1.queue 0).skip = 0 ∧ 0 ∈ stepQueues s1 ∧
     qcbKind (qcbImage (takeTurn s1 0) 0) ≠ 3 ∧ (firstEntry s1 0).map packetType = some 9 ∧
     ((firstEntry s1 0).bind (fun e => (isEntry (fetchEntry (takeTurn s1 0) 0 1)).bind (decodePacket e))).isSome = true) := by
  refine ⟨?_, ?_, ?_, ?_⟩ <;> decide +kernel

/-- A second queue whose kind stands first in the step. -/
theorem test_hyp_step_front_waits :
    let s := fetched (offered 0 1 [2 ^ 63, 0, 0, 0, 0, 0, 0, 0]) 0
    let s := { s with
      qcache := s.qcache ++ [(1, 0xA00000 * 2 ^ 448 + 0x900000 * 2 ^ 384 + 2 * 2 ^ 352 + 4 * 2 ^ 216 + 1 * 2 ^ 212 + 2 ^ 210)]
      lanes := s.lanes ++ [⟨1, 0⟩]
      laneStep := [1] }
    let s1 := settleLanes (onQueue (beginStep s) 0)
    (s1.lanes.any (fun l => l.queue == 0)) = true ∧ missing s1 0 = none ∧ (firstEntry s1 0).isSome = true ∧ (s1.queue 0).skip = 0 ∧
    0 ∉ stepQueues s1 := by
  decide +kernel

/-- An access that group 0 has passed. -/
theorem test_hyp_step_land :
    let x : Late := ⟨0, 0, false, .ld, [0x80000], 1, .sld 1 0 0 3, base.group 0⟩
    let s := { base with
      late := [x]
      agenda := [.land 0] }
    (beginStep s).late[0]? = some x := by
  decide +kernel

theorem test_hyp_step_engine :
    (let s := turn (edit (bound 1) (fun g => { g with pushq := [(3, [w0 1, 0, 0, 0, 0])] })) (.engine 0 3)
     let s0 := beginStep s
     let s1 : State := { s0 with cur := { s0.cur with
       grp := 0
       qreg := 3 } }
     0 < s0.groups.length ∧ s1.grp.run = .resident ∧ kindOf s1.grp 3 ≠ 0 ∧ acceptsMore s1 0 3 = true ∧
     (mapGet [] s1.grp.pushq 3).head? = some (w0 1) ∧ cmdOpc (w0 1) ∈ engineOps (kindOf s1.grp 3) ∧
     cmdLength (cmdOpc (w0 1)) = some 5 ∧ 5 ≤ (mapGet [] s1.grp.pushq 3).length ∧
     (decodeCommand ((mapGet [] s1.grp.pushq 3).take 5)).isSome = true) ∧
    isEvent (.throttle true 3) = true := by
  decide +kernel

/-! ### One step each -/

/-- R91, R156: SADDI s10, s0, −2 as the first instruction after reset. -/
theorem test_step_sli : (match step (State.reset.withFetchWord 32 (0x08A03FFE)) with
    | .next t => (t.group 0).st.get 10 == 0xFFFFFFFFFFFFFFFE && (t.group 0).st.spc == 0x400004
    | _ => false) = true := by
  decide +kernel

/-- R166, R176: a word that is no instruction, with TRAPREC 0, ends in a fatal save, and the launch goes on without it. -/
theorem test_step_illegal : (match step (State.reset.withFetchWord 32 0xFFFFFFFF) with
    | .next t => (t.group 0).run != .resident
    | _ => false) = true := by
  decide +kernel

/-- R137-R139: VADD writes every lane of v5, and the pipe's group goes to the next instruction. -/
theorem test_step_vadd : (match step (turn adding (.pipe 0 0)) with
    | .next t => (t.group 0).frags.map (fun p => p.2.pc) == [1]
    | _ => false) = true := by
  decide +kernel

end Sys2Proof.Tests
end

