-- ==== Sys2Proof/Proofs/Invariant.lean ====
section
namespace Sys2Proof.Machine

variable {s t : State}

/-! ### The invariant of an answer

Many functions of the model answer a state in a constructor. The invariant of such an answer is that of the state which
it holds; an elimination lemma per constructor reads it back from an equation that a `match` leaves. -/

/-- The state after an executed instruction. -/
def ResultInv : Result → Prop
  | .next t => Inv t
  | _ => True

/-- The state after a fetch. -/
def FetchInv : Fetch → Prop
  | .run _ t | .stop t => Inv t

/-- The state that a fetch of the front end stops with. -/
def FetchedInv : Fetched → Prop
  | .stop t => Inv t
  | _ => True

/-- The state that waits for a remote answer. -/
def RemoteInv : RemoteAns → Prop
  | .wait t => Inv t
  | _ => True

/-- The state in which the lanes of an access wait for their remote answers. -/
def LanesInv : LaneRemote → Prop
  | .wait t => Inv t
  | _ => True

/-- The state in which a command waits for what it reads. -/
def ReadyInv : Ready → Prop
  | .wait t => Inv t
  | _ => True

/-- The state of a change of attributes. -/
def AttrInv : AttrAns → Prop
  | .over t _ | .wait t | .sent t _ | .bad t => Inv t

/-- The state of the copy of a page. -/
def CopyInv : CopyAns → Prop
  | .made t | .wait t | .sent t => Inv t
  | .fail => True

/-- The state after a handler's record is read. -/
def RecordInv : RecordRead → Prop
  | .wait t | .ok _ t => Inv t
  | .fault _ _ => True

/-- The state after a store of the side buffer. -/
def ReleasedInv : Released → Prop
  | .gone t | .stay t => Inv t

/-- The state of an answer that may be absent. -/
def OptionInv : Option State → Prop
  | some t => Inv t
  | none => True

/-- The state of a load's answer. -/
def AnswerInv : Option (Dword × State) → Prop
  | some r => Inv r.2
  | none => True

/-- The state that an error answers. -/
def ErrorInv {α : Type} : Except State α → Prop
  | .error t => Inv t
  | .ok _ => True

/-- The state with which a record to post is read, or with which its reading ends. -/
def SourceInv : Except State (List Dword × State) → Prop
  | .error t => Inv t
  | .ok r => Inv r.2

/-- Both states of a lane instruction's environment. -/
structure EnvInv (e : Env) : Prop where
  s0 : Inv e.s0
  s : Inv e.s

/-- The states of an environment, or the state that answers in its place. -/
def EnvAnsInv : Except State Env → Prop
  | .error t => Inv t
  | .ok e => EnvInv e

theorem ResultInv.next {r : Result} (h : ResultInv r) (e : r = .next t) : Inv t := by subst e; exact h

theorem FetchInv.run {r : Fetch} {i : Instr} (h : FetchInv r) (e : r = .run i t) : Inv t := by subst e; exact h

theorem FetchInv.stop {r : Fetch} (h : FetchInv r) (e : r = .stop t) : Inv t := by subst e; exact h

theorem FetchedInv.stop {r : Fetched} (h : FetchedInv r) (e : r = .stop t) : Inv t := by subst e; exact h

theorem RemoteInv.wait {r : RemoteAns} (h : RemoteInv r) (e : r = .wait t) : Inv t := by subst e; exact h

theorem LanesInv.wait {r : LaneRemote} (h : LanesInv r) (e : r = .wait t) : Inv t := by subst e; exact h

theorem ReadyInv.wait {r : Ready} (h : ReadyInv r) (e : r = .wait t) : Inv t := by subst e; exact h

theorem AttrInv.over {r : AttrAns} {n : Nat} (h : AttrInv r) (e : r = .over t n) : Inv t := by subst e; exact h

theorem AttrInv.wait {r : AttrAns} (h : AttrInv r) (e : r = .wait t) : Inv t := by subst e; exact h

theorem AttrInv.sent {r : AttrAns} {kept : List Nat} (h : AttrInv r) (e : r = .sent t kept) : Inv t := by
  subst e; exact h

theorem AttrInv.bad {r : AttrAns} (h : AttrInv r) (e : r = .bad t) : Inv t := by subst e; exact h

theorem CopyInv.made {r : CopyAns} (h : CopyInv r) (e : r = .made t) : Inv t := by subst e; exact h

theorem CopyInv.wait {r : CopyAns} (h : CopyInv r) (e : r = .wait t) : Inv t := by subst e; exact h

theorem CopyInv.sent {r : CopyAns} (h : CopyInv r) (e : r = .sent t) : Inv t := by subst e; exact h

theorem RecordInv.wait {r : RecordRead} (h : RecordInv r) (e : r = .wait t) : Inv t := by subst e; exact h

theorem RecordInv.ok {r : RecordRead} {ws : List Dword} (h : RecordInv r) (e : r = .ok ws t) : Inv t := by
  subst e; exact h

theorem ReleasedInv.gone {r : Released} (h : ReleasedInv r) (e : r = .gone t) : Inv t := by subst e; exact h

theorem ReleasedInv.stay {r : Released} (h : ReleasedInv r) (e : r = .stay t) : Inv t := by subst e; exact h

theorem OptionInv.some {r : Option State} (h : OptionInv r) (e : r = some t) : Inv t := by subst e; exact h

theorem AnswerInv.some {r : Option (Dword × State)} {v : Dword} (h : AnswerInv r) (e : r = some (v, t)) : Inv t := by
  subst e; exact h

theorem ErrorInv.error {α : Type} {r : Except State α} (h : ErrorInv r) (e : r = .error t) : Inv t := by
  subst e; exact h

theorem SourceInv.error {r : Except State (List Dword × State)} (h : SourceInv r) (e : r = .error t) : Inv t := by
  subst e; exact h

theorem SourceInv.ok {r : Except State (List Dword × State)} {ws : List Dword} (h : SourceInv r)
    (e : r = .ok (ws, t)) : Inv t := by
  subst e; exact h

theorem EnvAnsInv.error {r : Except State Env} (h : EnvAnsInv r) (e : r = .error t) : Inv t := by subst e; exact h

theorem EnvAnsInv.ok {r : Except State Env} {x : Env} (h : EnvAnsInv r) (e : r = .ok x) : EnvInv x := by
  subst e; exact h

/-! ### The rules of the invariant

One rule per kind of write: to the fields that the invariant does not read, to memory, to the order, to the older values
and to the stores that wait; and one per way to put states together. -/

/-- The invariant reads `mem`, `caps`, `variant`, `ord`, `hist` and `dirty`, and nothing else. -/
theorem Inv.update
    {tick pkg identKey ueNotes nextId : Nat} {agenda : List Agent} {cur : Cur} {clock : Dword}
    {poison migLines draining laneStep : List Nat} {cpLines : List CpLine} {regs : SMap Dword} {tlb : List TlbEntry}
    {walks : List WalkEntry} {groups : List Group} {late : List Late} {teams : List Team} {launches : List Launch}
    {pipes : SMap Pipe} {barriers : SMap Barrier} {monitors : List Monitor} {places : SMap PlaceRec}
    {tiles : SMap Word} {tileTags : SMap TileTag} {tileOuts : List TileOut} {mops : List MOp}
    {rendezvous : List Rendezvous} {cmds : List Cmd} {searches : List Search} {migrations : List Migration}
    {owners : List Owner} {badGpns qcache notes captured writeQueue : List (Nat × Nat)} {stubs : List Stub}
    {redirects : List RedirectMsg} {remote : List RemReq} {mcasts : List Mcast} {colls : List Coll}
    {chunks : List Chunk} {arbiters : SMap Arbiter} {chains : List Chain} {probes : List Probe} {queues : SMap QRun}
    {lanes : List FrontLane} {laneNext seq rowHits : SMap Nat} {sleepers : SMap (List Nat)}
    {sent recv : SMap (BitVec 32)} {pendInv pendAttr : List PendReq} {mixes : List AttrMix} {held : List HeldFault}
    {cacheLines : List (Nat × Bool)} {baseOps : List BaseOp} {digests : List (List Byte)}
    {report : Option (Nat × Nat)} {claims : List Claim}
    (h : Inv s) : Inv { s with
      tick := tick, agenda := agenda, cur := cur, clock := clock, pkg := pkg, poison := poison, cpLines := cpLines,
      regs := regs, tlb := tlb, walks := walks, groups := groups, late := late, teams := teams, launches := launches,
      pipes := pipes, barriers := barriers, monitors := monitors, places := places, tiles := tiles,
      tileTags := tileTags, tileOuts := tileOuts, mops := mops, rendezvous := rendezvous, cmds := cmds,
      searches := searches, migrations := migrations, owners := owners, badGpns := badGpns, migLines := migLines,
      stubs := stubs, redirects := redirects, remote := remote, mcasts := mcasts, colls := colls, chunks := chunks,
      arbiters := arbiters, chains := chains, probes := probes, draining := draining, qcache := qcache,
      queues := queues, lanes := lanes, laneStep := laneStep, laneNext := laneNext, sleepers := sleepers,
      sent := sent, recv := recv, pendInv := pendInv, pendAttr := pendAttr, mixes := mixes, seq := seq, held := held,
      notes := notes, rowHits := rowHits, captured := captured, cacheLines := cacheLines, baseOps := baseOps,
      writeQueue := writeQueue, identKey := identKey, digests := digests, report := report, ueNotes := ueNotes,
      claims := claims, nextId := nextId } :=
  ⟨h.memory, h.caps, h.history, h.stores⟩

/-- Memory is written, with the marks of poison and the lines of pages on their way. -/
theorem Inv.setMem {m : Memory} {poison migLines : List Nat} (h : Inv s) (hm : m.wf = true) :
    Inv { s with mem := m, poison := poison, migLines := migLines } :=
  ⟨hm, h.caps, h.history, h.stores⟩

/-- Time goes on. -/
theorem Inv.setOrd {n : Nat} (h : Inv s) (hn : s.ord ≤ n) : Inv { s with ord := n } where
  memory := h.memory
  caps := h.caps
  history x hx := ⟨(h.history x hx).1.trans hn, (h.history x hx).2.trans hn⟩
  stores d hd := (h.stores d hd).trans hn

theorem Inv.setHist {hs : List Hist} (h : Inv s) (hh : ∀ x ∈ hs, x.stamp ≤ s.ord ∧ x.shut ≤ s.ord) :
    Inv { s with hist := hs } :=
  ⟨h.memory, h.caps, hh, h.stores⟩

theorem Inv.setDirty {ds : List Dirty} (h : Inv s) (hd : ∀ d ∈ ds, d.stamp ≤ s.ord) :
    Inv { s with dirty := ds } :=
  ⟨h.memory, h.caps, h.history, hd⟩

theorem Inv.addHist {x : Hist} (h : Inv s) (hs : x.stamp ≤ s.ord) (hx : x.shut ≤ s.ord) :
    Inv { s with hist := x :: s.hist } := by
  refine h.setHist fun y hy => ?_
  obtain rfl | hy := List.mem_cons.mp hy
  · exact ⟨hs, hx⟩
  · exact h.history y hy

theorem Inv.filterHist {p : Hist → Bool} (h : Inv s) : Inv { s with hist := s.hist.filter p } :=
  h.setHist fun x hx => h.history x (List.mem_of_mem_filter hx)

/-- A map of the older values that leaves the stamps of each alone. -/
theorem Inv.mapHist {f : Hist → Hist} (h : Inv s) (hf : ∀ x, (f x).stamp = x.stamp ∧ (f x).shut = x.shut) :
    Inv { s with hist := s.hist.map f } := by
  refine h.setHist fun y hy => ?_
  obtain ⟨x, hx, rfl⟩ := List.mem_map.mp hy
  rw [(hf x).1, (hf x).2]
  exact h.history x hx

/-- Some of the older values are published, no later than now. -/
theorem Inv.shutHist {c : Hist → Prop} [DecidablePred c] {at_ : Hist → Nat} (h : Inv s)
    (hat : ∀ x ∈ s.hist, at_ x ≤ s.ord) :
    Inv { s with hist := s.hist.map (fun x => if c x then { x with shut := at_ x } else x) } := by
  refine h.setHist fun y hy => ?_
  obtain ⟨x, hx, rfl⟩ := List.mem_map.mp hy
  split
  · exact ⟨(h.history x hx).1, hat x hx⟩
  · exact h.history x hx

theorem Inv.addDirty {d : Dirty} (h : Inv s) (hd : d.stamp ≤ s.ord) : Inv { s with dirty := s.dirty ++ [d] } := by
  refine h.setDirty fun y hy => ?_
  obtain hy | hy := List.mem_append.mp hy
  · exact h.stores y hy
  · rw [List.mem_singleton.mp hy]; exact hd

theorem Inv.filterDirty {p : Dirty → Bool} (h : Inv s) : Inv { s with dirty := s.dirty.filter p } :=
  h.setDirty fun d hd => h.stores d (List.mem_of_mem_filter hd)

theorem Dirty.readBy_stamp {g : Nat} {p : Dirty → Bool} {d : Dirty} : (Dirty.readBy g p d).stamp = d.stamp := by
  unfold Dirty.readBy
  split <;> rfl

theorem Inv.readBy {g : Nat} {p : Dirty → Bool} (h : Inv s) :
    Inv { s with dirty := s.dirty.map (Dirty.readBy g p) } := by
  refine h.setDirty fun y hy => ?_
  obtain ⟨d, hd, rfl⟩ := List.mem_map.mp hy
  rw [Dirty.readBy_stamp]
  exact h.stores d hd

theorem Writer.published_le (w : Writer) (n : Nat) : w.published n ≤ n := by
  unfold Writer.published
  split
  · exact Nat.zero_le n
  · exact Nat.le_refl n

/-- Writes of eight bytes each keep memory's canonical form. -/
theorem memWrite_foldl_wf {α : Type} {xs : List α} {at_ val : α → Nat} {m : Memory} (h : m.wf = true) :
    Memory.wf (xs.foldl (fun m x => memWrite m (at_ x) 8 (val x)) m) = true := by
  induction xs generalizing m with
  | nil => exact h
  | cons x xs ih => exact ih (memWrite_wf 8 m _ _ h)

theorem Inv.ite {c : Prop} [Decidable c] (hs : Inv s) (ht : Inv t) : Inv (if c then s else t) := by
  split
  · exact hs
  · exact ht

theorem Inv.foldl {α : Type} {f : State → α → State} {xs : List α} (h : Inv s)
    (hf : ∀ {t x}, Inv t → Inv (f t x)) : Inv (xs.foldl f s) := by
  induction xs generalizing s with
  | nil => exact h
  | cons x xs ih => exact ih (hf h)

/-- The state of a fold that carries more than the state. -/
theorem Inv.foldlFst {α β : Type} {f : State × β → α → State × β} {xs : List α} {p : State × β}
    (h : Inv p.1) (hf : ∀ {q x}, Inv q.1 → Inv (f q x).1) : Inv (xs.foldl f p).1 := by
  induction xs generalizing p with
  | nil => exact h
  | cons x xs ih => exact ih (hf h)

theorem Inv.foldr {α : Type} {f : α → State → State} {xs : List α} (h : Inv s)
    (hf : ∀ {t x}, Inv t → Inv (f x t)) : Inv (xs.foldr f s) := by
  induction xs with
  | nil => exact h
  | cons x xs ih => exact hf ih

/-- The state of a pair, read back from an equation that a `match` leaves. -/
theorem Inv.fst {β : Type} {p : State × β} {b : β} (h : Inv p.1) (e : p = (t, b)) : Inv t := by subst e; exact h

theorem Inv.snd {β : Type} {p : β × State} {b : β} (h : Inv p.2) (e : p = (b, t)) : Inv t := by subst e; exact h

end Sys2Proof.Machine
end

