-- ==== Sys2Proof/Proofs/InvariantMemory.lean ====
section
namespace Sys2Proof.Machine

variable {s t : State}

/-! ### Memory -/

theorem Inv.setGroup {g : Nat} {x : Group} (h : Inv s) : Inv (s.setGroup g x) := h.update

theorem Inv.setGrp {x : Group} (h : Inv s) : Inv (s.setGrp x) := h.setGroup

theorem Inv.regSet {a : Nat} {v : Dword} (h : Inv s) : Inv (regSet s a v) := h.update

theorem Inv.noteTlb {core asid va e level : Nat} (h : Inv s) : Inv (noteTlb s core asid va e level) :=
  .ite h h.update

theorem Inv.noteWalk {asid die va : Nat} (h : Inv s) : Inv (noteWalk s asid die va) := .ite h h.update

theorem Inv.forgetBad {who : Nat} (h : Inv s) : Inv (forgetBad s who) := h.update

theorem Inv.fireMonitor {m : Monitor} (h : Inv s) : Inv (fireMonitor s m) := by
  simp only [Machine.fireMonitor]
  split
  · exact h.update.setGroup
  · exact h.update.update
  · exact h.update

theorem Inv.dropLocal {team : Nat} (h : Inv s) : Inv (dropLocal s team) := h.filterHist

theorem Inv.recheckLine {line : Nat} (h : Inv s) : Inv (recheckLine s line) :=
  h.foldl (fun ht => .ite ht.fireMonitor ht)

theorem Inv.countUe {loc : Nat} (h : Inv s) : Inv (countUe s loc) := h.regSet.regSet.update

theorem Inv.noteBase {write : Bool} {loc mask : Nat} {sure : Bool} (h : Inv s) :
    Inv (noteBase s write loc mask sure) :=
  .ite h h.update

theorem Inv.noteRead {home loc size : Nat} (h : Inv s) : Inv (noteRead s home loc size) := .ite h.noteBase h

theorem Inv.sureWrites {loc : Nat} (h : Inv s) : Inv (sureWrites s loc) := h.update

theorem countUe_ord (s : State) (loc : Nat) : (countUe s loc).ord = s.ord := by
  cases s; rfl

theorem noteBase_ord (s : State) (write : Bool) (loc mask : Nat) (sure : Bool) :
    (noteBase s write loc mask sure).ord = s.ord := by
  simp only [noteBase]
  split <;> rfl

/-- A value that a write ends is stamped with the moment of the write, `n`. -/
theorem Inv.logWrite {w : Writer} {a v u n : Nat} {old : Dword} {poison : List Nat} (h : Inv s) (hn : s.ord ≤ n) :
    Inv { s with
      mem := memWrite s.mem a 8 v
      ord := n
      hist := ⟨u, old, n, w, w.published n, n⟩ :: s.hist
      poison := poison } :=
  ((h.setOrd hn).addHist (Nat.le_refl n) (w.published_le n)).setMem (memWrite_wf 8 _ _ _ h.memory)

theorem Inv.writeUnit {w : Writer} {u : Nat} {mask val : Dword} (h : Inv s) : Inv (writeUnit s w u mask val) := by
  refine Inv.recheckLine (Inv.logWrite (Inv.noteBase (.ite h.countUe h)) ?_)
  rw [noteBase_ord]
  split
  · rw [countUe_ord]; exact Nat.le_succ _
  · exact Nat.le_succ _

theorem Inv.issueRemote {pc va : Dword} {dpa : Nat} {op : RemOp} (h : Inv s) : Inv (issueRemote s pc va dpa op) :=
  h.update

theorem Inv.sendUnit {w : Writer} {d u : Nat} (h : Inv s) : Inv (sendUnit s w d u) :=
  .ite h.update.issueRemote.update.update.issueRemote.update h.update.issueRemote.update

theorem Inv.dualWrite {w : Writer} {d u : Nat} {mask val : Dword} (h : Inv s) : Inv (dualWrite s w d u mask val) :=
  .ite h.writeUnit h.sendUnit

theorem Inv.performBy {w : Writer} {u : Nat} {mask val : Dword} (h : Inv s) : Inv (performBy s w u mask val) := by
  simp only [Machine.performBy]
  split
  · refine Inv.dualWrite ?_
    split
    · exact h.writeUnit.sendUnit
    · exact h.writeUnit
  · split
    · exact h.writeUnit.sendUnit
    · exact h.writeUnit

theorem Inv.performUnit {u : Nat} {mask val : Dword} (h : Inv s) : Inv (performUnit s u mask val) := h.performBy

theorem Inv.performBytes {loc size : Nat} {v : Dword} (h : Inv s) : Inv (performBytes s loc size v) :=
  h.performUnit

theorem Inv.performBytesBy {w : Writer} {loc size : Nat} {v : Dword} (h : Inv s) :
    Inv (performBytesBy s w loc size v) :=
  h.performBy

theorem Inv.performList {loc : Nat} {bs : List Byte} (h : Inv s) : Inv (performList s loc bs) := by
  induction bs generalizing s loc with
  | nil => exact h
  | cons b bs ih => exact ih h.performUnit

theorem Inv.performDwords {loc : Nat} {ds : List Dword} (h : Inv s) : Inv (performDwords s loc ds) := by
  induction ds generalizing s loc with
  | nil => exact h
  | cons d ds ih => exact ih h.performUnit

theorem Inv.setSeen {g u stamp : Nat} (h : Inv s) : Inv (setSeen s g u stamp) := .ite h.setGroup h

theorem Inv.bornAt {n born : Nat} (h : Inv s) : Inv (bornAt s n born) := by
  refine h.mapHist fun x => ?_
  split
  · exact ⟨rfl, rfl⟩
  · exact ⟨rfl, rfl⟩

theorem Inv.performDirty1 {d : Dirty} (h : Inv s) : Inv (performDirty1 s d) := by
  unfold Machine.performDirty1
  extract_lets s1 s2
  have h1 : Inv s1 := h.performBy.bornAt
  have ho : (if d.nc then Machine.sureWrites s1 (8 * d.unit) else s1).ord = s1.ord := by split <;> rfl
  have h2 : Inv (if d.nc then Machine.sureWrites s1 (8 * d.unit) else s1) := .ite h1.sureWrites h1
  refine Inv.foldl (h2.setDirty (ds := s1.dirty.erase d) fun x hx => ?_) (fun ht => ht.setSeen)
  rw [ho]
  exact h1.stores x (List.mem_of_mem_erase hx)

theorem Inv.performDirty {p : Dirty → Bool} (h : Inv s) : Inv (performDirty s p) :=
  h.foldl (fun ht => ht.performDirty1)

theorem Inv.shutWrites {g : Nat} (h : Inv s) : Inv (shutWrites s g) :=
  .ite ((h.setOrd (Nat.le_succ _)).shutHist fun _ _ => Nat.le_refl _) h

theorem Inv.pub {g scope : Nat} (h : Inv s) : Inv (pub s g scope) := .ite h h.performDirty.shutWrites

theorem Inv.ref {g scope : Nat} (h : Inv s) : Inv (ref s g scope) :=
  .ite h (h.performDirty.setOrd (Nat.le_succ _)).readBy.setGroup

theorem Inv.codeRef {g scope : Nat} (h : Inv s) : Inv (codeRef s g scope) := h.setGroup

theorem Inv.takeChoice {g u : Nat} {mask : Dword} {c : Choice} (h : Inv s) : Inv (takeChoice s g u mask c).2 := by
  unfold Machine.takeChoice
  split
  · exact h.setSeen
  · split
    · exact h.performDirty.setSeen
    · exact h.setSeen.readBy

theorem Inv.loadUnit {g : Nat} {a : Acc} {size k : Nat} (h : Inv s) : Inv (loadUnit s g a size k).2 :=
  h.takeChoice.noteRead

theorem Inv.coherentUnit {g : Nat} {a : Acc} {size k : Nat} (h : Inv s) : Inv (coherentUnit s g a size k).2 :=
  h.takeChoice.noteRead

theorem Inv.l1Room {core u : Nat} (h : Inv s) : Inv (l1Room s core u) := .ite h.performDirty h

/-- A store is stamped with the next moment of the order. -/
theorem Inv.storeUnit {g : Nat} {a : Acc} {mask val : Dword} (h : Inv s) : Inv (storeUnit s g a mask val) :=
  ((Inv.ite h h.l1Room).setOrd (Nat.le_succ _)).addDirty (Nat.le_refl _)

theorem Inv.atomicPrepare {g : Nat} {a : Acc} (h : Inv s) : Inv (atomicPrepare s g a) := .ite h h.performDirty

theorem Inv.atomicWrite {g : Nat} {a : Acc} {mask val : Dword} (h : Inv s) : Inv (atomicWrite s g a mask val) :=
  .ite h.storeUnit (Inv.ite h.performBy.sureWrites h.performBy).setSeen

theorem Inv.loadClean {g : Nat} {a : Acc} {size k : Nat} (h : Inv s) : AnswerInv (loadClean s g a size k) := by
  simp only [Machine.loadClean]
  split
  · trivial
  · exact h.loadUnit

theorem Inv.coherentClean {g : Nat} {a : Acc} {size k : Nat} (h : Inv s) :
    AnswerInv (coherentClean s g a size k) := by
  simp only [Machine.coherentClean]
  split
  · trivial
  · exact h.coherentUnit

theorem Inv.dirQuery {die gpn : Nat} (h : Inv s) : Inv (dirQuery s die gpn) := by
  simp only [Machine.dirQuery]
  split
  · exact h.update
  · exact .ite h h.update.performBytes

theorem Inv.noteMig {die : Nat} {gpn : Option Nat} (h : Inv s) : Inv (noteMig s die gpn) := by
  simp only [Machine.noteMig]
  split
  · exact h
  · split
    · exact .ite h.dirQuery h.dirQuery.update
    · exact h.dirQuery

theorem Inv.fillCp {core : Nat} {a : Acc} (h : Inv s) : Inv (fillCp s core a) := .ite h h.update

theorem Inv.touchLine {a : Acc} (h : Inv s) : Inv (touchLine s a) := .ite h h.setGrp

theorem Inv.noteAccess {va : Dword} {a : Acc} (h : Inv s) : Inv (noteAccess s va a) := by
  simp only [Machine.noteAccess]
  split
  · exact h.fillCp.touchLine.noteTlb.noteWalk.noteMig
  · exact h.fillCp.touchLine.noteTlb.noteWalk

/-! ### Registers -/

theorem Inv.liveOr (h : Inv s) (ht : Inv t) : Inv (liveOr s t) := .ite h ht

theorem Inv.setStage {st berr : Nat} (h : Inv s) : Inv (setStage s st berr) := h.regSet

theorem Inv.writebackQcb {q : Nat} (h : Inv s) : Inv (writebackQcb s q) := by
  simp only [Machine.writebackQcb]
  split
  · exact h.performDwords.update
  · exact h

theorem Inv.qcbRoom {q : Nat} (h : Inv s) : Inv (qcbRoom s q) := .ite h h.writebackQcb

theorem Inv.qcbPut {q img : Nat} (h : Inv s) : Inv (qcbPut s q img) := h.qcbRoom.update

theorem Inv.qcbSetField {q hi lo v : Nat} (h : Inv s) : Inv (qcbSetField s q hi lo v) := h.qcbPut

theorem Inv.regStore {a size : Nat} {v : Dword} (h : Inv s) : Inv (regStore s a size v) := h.update

/-! ### Remote requests -/

theorem Inv.dropRemote {pc : Dword} (h : Inv s) : Inv (dropRemote s pc) := h.update

theorem Inv.remoteStep {pc va : Dword} {dpa : Nat} {op : RemOp} (h : Inv s) :
    RemoteInv (remoteStep s pc va dpa op) := by
  simp only [Machine.remoteStep]
  split
  · exact h.issueRemote
  · split
    · exact h
    · exact h
    · trivial
    · trivial
    · trivial

theorem Inv.directoryStep {pc va : Dword} {a : Acc} (h : Inv s) : RemoteInv (directoryStep s pc va a) := by
  simp only [Machine.directoryStep]
  split
  · split
    · exact h.remoteStep
    · exact h.remoteStep
  · exact h.remoteStep

theorem Inv.performStore {pc va : Dword} {a : Acc} {size : Nat} {v : Dword} (h : Inv s) :
    Inv (performStore s pc va a size v) :=
  .ite h.issueRemote (.ite h.regStore h.storeUnit)

/-! ### Shared operations -/

theorem Inv.setReg {r : BitVec 6} {v : Dword} (h : Inv s) : Inv (s.setReg r v) := h.setGrp

theorem Inv.setSpc {v : Dword} (h : Inv s) : Inv (s.setSpc v) := h.setGrp

theorem Inv.wb {r : BitVec 6} {v : Dword} (h : Inv s) : Inv (s.wb r v) := h.setReg.setSpc

theorem Inv.advance (h : Inv s) : Inv (s.advance) := h.setSpc

theorem Inv.notify {entry : Nat} (h : Inv s) : Inv (notify s entry) :=
  .ite (.ite h.update.performBytes h.update) h

theorem Inv.fqSet {vf lost held tail : Nat} (h : Inv s) : Inv (fqSet s vf lost held tail) := h.regSet

theorem Inv.fqWrite {vf : Nat} {ws : List Dword} (h : Inv s) : Inv (fqWrite s vf ws) :=
  h.performDwords.fqSet.notify

theorem Inv.postFault {f : FaultInfo} (h : Inv s) : Inv (postFault s f) :=
  .ite h.update.fqSet (.ite h.update.fqWrite h.update.update.fqSet)

theorem Inv.losePipe {p : Nat} (h : Inv s) : Inv (losePipe s p) := h.update

theorem Inv.loseLatches {g : Group} (h : Inv s) : Inv (loseLatches s g) := h.losePipe

theorem Inv.dropLoads {gi : Nat} (h : Inv s) : Inv (dropLoads s gi) := h.forgetBad.update

theorem Inv.rollbackGroup {gi : Nat} (h : Inv s) : Inv (rollbackGroup s gi) := (Inv.ite h.dropLoads h).setGroup

theorem Inv.spillStacks {old new : Group} (h : Inv s) : Inv (spillStacks s old new) :=
  h.foldl (fun ht => ht.foldl (fun hu => .ite hu hu.performDwords))

theorem Inv.setStacks {g : Group} (h : Inv s) : Inv (s.setStacks g) := h.spillStacks.setGrp

theorem Inv.writeFrame {g : Group} (h : Inv s) : Inv (writeFrame s g) := h.foldl (fun ht => ht.performDwords)

theorem Inv.setTeam {i : Nat} {t : Team} (h : Inv s) : Inv (s.setTeam i t) := h.update

theorem Inv.saveStore {i : Nat} (h : Inv s) : Inv (saveStore s i) :=
  .ite h (h.foldl (fun ht => ht.performDwords)).dropLocal.setTeam

theorem Inv.restoreStore {i : Nat} (h : Inv s) : Inv (restoreStore s i) := .ite h h.setTeam

theorem Inv.dropWaiter {g : Group} (h : Inv s) : Inv (dropWaiter s g) := h.update

theorem Inv.saveGroup {gi : Nat} {job : SaveJob} (h : Inv s) : Inv (saveGroup s gi job) :=
  h.rollbackGroup.pub.forgetBad.dropWaiter.loseLatches.setGroup

theorem Inv.finishSave {gi : Nat} {job : SaveJob} (h : Inv s) : Inv (finishSave s gi job) := by
  simp only [Machine.finishSave]
  split
  · exact h.setGroup.writeFrame.setGroup.performDwords.saveStore.postFault
  · exact h.setGroup.writeFrame.setGroup.performDwords.saveStore

theorem Inv.ungate {core asid : Nat} (h : Inv s) : Inv (ungate s core asid) := h.update

theorem Inv.ungateLeft {core asid : Nat} (h : Inv s) : Inv (ungateLeft s core asid) := .ite h.ungate h

theorem Inv.execSaveCompletion {g : Nat} (h : Inv s) : ResultInv (execSaveCompletion g s) := by
  simp only [Machine.execSaveCompletion]
  split
  · exact .ite h (h.finishSave.foldl (fun ht => ht.ungateLeft))
  · exact h

theorem Inv.storeDwords {va : Dword} {ds : List Dword} (h : Inv s) : OptionInv (storeDwords s va ds) := by
  induction ds generalizing s va with
  | nil => exact h
  | cons d ds ih =>
    unfold Machine.storeDwords
    split
    · exact ih h.noteAccess.performStore
    · trivial

theorem Inv.fatal {t : Trap} (h : Inv s) : Inv (fatal s t) := h.rollbackGroup.saveGroup

theorem Inv.recordWait (h : Inv s) : OptionInv (recordWait s) := by
  simp only [Machine.recordWait]
  split
  · split
    next s1 e =>
      obtain ⟨a, -, e⟩ := Option.map_eq_some_iff.mp e
      exact h.directoryStep.wait e
    · exact h.dropRemote
    · trivial
  · trivial

theorem Inv.deliverNow {t : Trap} (h : Inv s) : Inv (deliverNow s t) := by
  unfold Machine.deliverNow
  extract_lets g s1 s2 g2 t2
  have h2 : Inv s2 := .ite h.forgetBad.rollbackGroup h.forgetBad
  refine .ite h2.fatal (.ite h2.dropRemote.fatal ?_)
  split
  · exact h2.fatal
  next s3 e => exact (h2.storeDwords.some e).setGrp.loseLatches

theorem Inv.deliverAfter {t : Trap} {pre : State → State} (h : Inv s) (hpre : ∀ {t}, Inv t → Inv (pre t)) :
    Inv (deliverAfter s t pre) := by
  simp only [Machine.deliverAfter]
  split
  next s1 e => exact h.recordWait.some e
  · exact (hpre h).deliverNow

theorem Inv.deliver {t : Trap} (h : Inv s) : Inv (deliver s t) := h.deliverAfter (fun ht => ht)

theorem Inv.park {va : Dword} {lpc level acc : Nat} (h : Inv s) : Inv (park s va lpc level acc) :=
  h.rollbackGroup.saveGroup

theorem Inv.formatRecord {f : MemFault} {va : Dword} {lpc acc : Nat} (h : Inv s) :
    Inv (formatRecord f va lpc acc s) :=
  .ite h.postFault h

theorem Inv.strandTrapAfter {t : Trap} {pre : State → State} (h : Inv s) (hpre : ∀ {t}, Inv t → Inv (pre t)) :
    Inv (strandTrapAfter s t pre) :=
  .ite h (h.deliverAfter hpre)

theorem Inv.strandTrap {t : Trap} (h : Inv s) : Inv (strandTrap s t) := h.strandTrapAfter (fun ht => ht)

theorem Inv.trapCode {code : Nat} (h : Inv s) : Inv (trapCode s code) := h.strandTrap

theorem Inv.strandFault {f : MemFault} {va : Dword} {acc : Nat} (h : Inv s) : Inv (strandFault s f va acc) :=
  .ite h (.ite h.park (h.strandTrapAfter (fun ht => ht.formatRecord)))

theorem Inv.strandFree {rs : List (BitVec 6)} {k : State} (h : Inv s) (hk : Inv k) :
    ResultInv (strandFree s rs k) :=
  .ite h hk

theorem Inv.strandSerial {k : State} (h : Inv s) (hk : Inv k) : ResultInv (strandSerial s k) := .ite hk h

theorem Inv.startBlock {gi : Nat} (h : Inv s) : Inv (startBlock s gi) := by
  simp only [Machine.startBlock]
  split
  · exact h
  · exact h.setGroup.loseLatches

end Sys2Proof.Machine
end

