-- ==== Sys2Proof/Proofs/InvariantInstructions.lean ====
section
namespace Sys2Proof.Machine

variable {s t : State}

/-! ### Lane operands and results -/

theorem Inv.setFrag {f : Frag} (h : Inv s) : Inv (s.setFrag f) := h.setGrp

theorem Inv.nextLane (h : Inv s) : Inv (s.nextLane) := h.setFrag

theorem Inv.laneTrapAfter {f : LaneWord} {code lane : Nat} {addr : Dword} {pre : State → State}
    (h : Inv s) (hpre : ∀ {t}, Inv t → Inv (pre t)) : Inv (laneTrapAfter s f code lane addr pre) :=
  h.deliverAfter hpre

theorem Inv.laneTrap {f : LaneWord} {code lane : Nat} {addr : Dword} (h : Inv s) :
    Inv (laneTrap s f code lane addr) :=
  h.laneTrapAfter (fun ht => ht)

theorem Inv.laneTrapAll {f : LaneWord} {code : Nat} (h : Inv s) : Inv (laneTrapAll s f code) := h.laneTrap

theorem Inv.laneFault {f : LaneWord} {e : MemFault} {lane acc : Nat} {va : Dword} (h : Inv s) :
    Inv (laneFault s f e lane acc va) :=
  .ite h.park (h.deliverAfter (fun ht => ht.formatRecord))

theorem Inv.laneEnv {spec : LaneSpec} {f : LaneWord} {ok : Ty → Bool} {ra rb rc : Ty → Read} (h : Inv s) :
    EnvAnsInv (laneEnv s spec f ok ra rb rc) := by
  simp only [Machine.laneEnv]
  split
  · exact h.laneTrapAll
  · split
    · exact h.laneTrapAll
    · split
      · exact h.laneTrapAll
      · split
        · exact h.deliver
        · split
          · exact h
          · exact ⟨h, h.setGrp⟩

theorem Inv.setLatch {n : Nat} {vs : List (Nat × Nat)} (h : Inv s) : Inv (setLatch s n vs) := h.update

theorem Inv.writeVec {f : LaneWord} {wide : Bool} {vs : List (Nat × Nat)} (h : Inv s) :
    Inv (writeVec s f wide vs) :=
  .ite (.ite (Inv.ite h h.setGrp).setLatch.setLatch (Inv.ite h h.setGrp).setLatch) (.ite h h.setGrp)

theorem Inv.writePred {p : Nat} {vs : List (Nat × Bool)} (h : Inv s) : Inv (writePred s p vs) := .ite h h.setGrp

theorem Inv.writeScalar {r : BitVec 6} {v : Dword} (h : Inv s) : Inv (writeScalar s r v) := h.setGrp

theorem Inv.raiseFlags {fl : FpFlags} (h : Inv s) : Inv (raiseFlags s fl) := h.setGrp

theorem EnvInv.finishFp {e : Env} {fls : List (Nat × FpFlags)} {lane : Option Nat} {k : State → State}
    (he : EnvInv e) (hk : ∀ {t}, Inv t → Inv (k t)) : Inv (finishFp e fls lane k) := by
  simp only [Machine.finishFp]
  split
  · exact he.s0.raiseFlags.deliver
  · exact hk he.s.raiseFlags

theorem EnvInv.laneMap {e : Env} {wide : Bool} {fn : Nat → Nat × FpFlags} (he : EnvInv e) :
    Inv (laneMap e wide fn) :=
  he.finishFp (fun ht => ht.writeVec.nextLane)

theorem EnvInv.lanePred {e : Env} {fn : Nat → Bool × FpFlags} (he : EnvInv e) : Inv (lanePred e fn) :=
  he.finishFp (fun ht => ht.writePred.nextLane)

theorem EnvAnsInv.withEnv {x : Except State Env} {k : Env → State}
    (hx : EnvAnsInv x) (hk : ∀ {e}, EnvInv e → Inv (k e)) : ResultInv (withEnv x k) := by
  cases x with
  | ok e => exact hk hx
  | error t => exact hx

theorem Inv.envT {i : Instr} {f : LaneWord} {ok : Ty → Bool} {ra rb rc : Ty → Read} (h : Inv s) :
    EnvAnsInv (envT s i f ok ra rb rc) :=
  h.laneEnv

/-! ### Lane instructions on integers -/

/-- A lane instruction that maps its operands to one result per lane. -/
theorem Inv.mapLanes {i : Instr} {f : LaneWord} {ok : Ty → Bool} {ra rb rc : Ty → Read} {wide : Env → Bool}
    {fn : Env → Nat → Nat × FpFlags} (h : Inv s) :
    ResultInv (withEnv (Machine.envT s i f ok ra rb rc) (fun e => laneMap e (wide e) (fn e))) :=
  h.envT.withEnv (fun he => he.laneMap)

/-- A lane instruction that maps its operands to one predicate bit per lane. -/
theorem Inv.predLanes {i : Instr} {f : LaneWord} {ok : Ty → Bool} {ra rb rc : Ty → Read}
    {fn : Env → Nat → Bool × FpFlags} (h : Inv s) :
    ResultInv (withEnv (Machine.envT s i f ok ra rb rc) (fun e => lanePred e (fn e))) :=
  h.envT.withEnv (fun he => he.lanePred)

/-! ### Lane predicates -/

theorem Inv.predOp {f : LaneWord} {op : Bool → Bool → Bool} (h : Inv s) : ResultInv (predOp s f op) :=
  h.writePred.nextLane

theorem Inv.execPand {f : LaneWord} (h : Inv s) : ResultInv (execPand f s) := h.predOp

theorem Inv.execPor {f : LaneWord} (h : Inv s) : ResultInv (execPor f s) := h.predOp

theorem Inv.execPxor {f : LaneWord} (h : Inv s) : ResultInv (execPxor f s) := h.predOp

theorem Inv.execPnot {f : LaneWord} (h : Inv s) : ResultInv (execPnot f s) := h.predOp

theorem Inv.execPfirst {f : LaneWord} (h : Inv s) : ResultInv (execPfirst f s) := h.writePred.nextLane

/-! ### Instructions across lanes -/

theorem Inv.execVrdl {f : LaneWord} (h : Inv s) : ResultInv (execVrdl f s) :=
  h.envT.withEnv (fun he => he.s.writeScalar.nextLane)

theorem Inv.execVwrl {f : LaneWord} (h : Inv s) : ResultInv (execVwrl f s) :=
  h.envT.withEnv (fun he => he.s.writeVec.nextLane)

theorem Inv.execVred {f : LaneWord} (h : Inv s) : ResultInv (execVred f s) :=
  h.envT.withEnv (fun he => he.finishFp (fun hu => hu.writeScalar.nextLane))

theorem Inv.execVscan {f : LaneWord} (h : Inv s) : ResultInv (execVscan f s) :=
  h.envT.withEnv (fun he => he.finishFp (fun hu => hu.writeVec.nextLane))

theorem Inv.execVballot {f : LaneWord} (h : Inv s) : ResultInv (execVballot f s) := h.writeScalar.nextLane

theorem Inv.execVsort {f : LaneWord} (h : Inv s) : ResultInv (execVsort f s) :=
  h.envT.withEnv (fun he => he.s.writeVec.nextLane)

theorem Inv.execVqin {f : LaneWord} (h : Inv s) : ResultInv (execVqin f s) := by
  have hgo {t : State} {ws : List Dword} (ht : Inv t) :
      Inv (if (vqinPush t.grp s.cur.frag (f.dst.toNat % 16) ws).2
        then (t.setGrp (vqinPush t.grp s.cur.frag (f.dst.toNat % 16) ws).1).nextLane
        else t.setGrp (vqinPush t.grp s.cur.frag (f.dst.toNat % 16) ws).1) :=
    .ite ht.setGrp.nextLane ht.setGrp
  simp only [Machine.execVqin]
  split
  · exact hgo h
  · refine EnvAnsInv.withEnv ?_ (fun he => .ite h (hgo he.s))
    split
    next x e =>
      split
      · exact h.deliver
      · split
        · exact h
        · exact h.envT.ok e
    next t e => exact h.envT.error e

/-! ### The side buffer and the end of a block -/

theorem Inv.releaseStore {e : SideEntry} (h : Inv s) : ReleasedInv (releaseStore s e) := by
  simp only [Machine.releaseStore]
  split
  · split
    · split
      next s' e => exact h.directoryStep.wait e
      · exact h.setGrp.strandTrapAfter (fun ht => ht.dropRemote)
      · exact h.dropRemote
    · exact h.noteAccess.performStore
  · exact h.setGrp.strandFault

theorem Inv.releaseSide {fuel : Nat} (h : Inv s) : Inv (releaseSide s fuel) := by
  induction fuel generalizing s with
  | zero => exact h
  | succ fuel ih =>
    simp only [Machine.releaseSide]
    split
    · exact h
    · refine .ite h (.ite (.ite (ih h.setGrp) h) ?_)
      split
      next s1 e => exact ih (h.releaseStore.gone e).setGrp
      next s1 e => exact h.releaseStore.stay e

theorem Inv.execSideBufferRelease {g : Nat} (h : Inv s) : ResultInv (execSideBufferRelease g s) :=
  .ite h.update.releaseSide h.update

theorem Inv.dropWritten {gi : Nat} {b : Block} (h : Inv s) : Inv (dropWritten s gi b) := h.update

theorem Inv.endBlock (h : Inv s) : Inv (endBlock s) := by
  simp only [Machine.endBlock]
  split
  · exact h
  · exact (Inv.ite h.setGroup.loseLatches.dropLoads h.setGroup.loseLatches.dropWritten).releaseSide.startBlock

/-! ### Strand instructions -/

theorem Inv.aluOp {d : BitVec 6} {srcs : List (BitVec 6)} {v : Dword} (h : Inv s) : ResultInv (aluOp s d srcs v) :=
  h.strandFree h.wb

theorem Inv.divOp {d a b : BitVec 6} {v : Dword} (h : Inv s) : ResultInv (divOp s d a b v) :=
  h.strandFree (.ite h.trapCode h.wb)

theorem Inv.immOp {d a : BitVec 6} {v n : Dword} (h : Inv s) : ResultInv (immOp s d a v n) :=
  h.strandFree h.setReg.setSpc

theorem Inv.branchOp {c : BranchCond} {a b : BitVec 6} {off n : Dword} (h : Inv s) :
    ResultInv (branchOp c s a b off n) :=
  h.strandFree h.setSpc

theorem Inv.execSjmp {o : BitVec 20} (h : Inv s) : ResultInv (execSjmp o s) := h.setSpc

theorem Inv.execScall {d : BitVec 6} {o : BitVec 20} (h : Inv s) : ResultInv (execScall d o s) :=
  h.strandFree h.setReg.setSpc

theorem Inv.execSret {a : BitVec 6} (h : Inv s) : ResultInv (execSret a s) := by
  simp only [Machine.execSret]
  refine Inv.strandFree h ?_
  split
  · exact h.strandTrap
  · exact h.setSpc

theorem Inv.landAt {t : Dword} {label : Nat} {k : State → State} (h : Inv s) (hk : ∀ {t}, Inv t → Inv (k t)) :
    Inv (landAt s t label k) := by
  simp only [Machine.landAt]
  split
  · exact h.strandTrap
  · split
    · exact h.strandFault
    · exact .ite (hk h) h.trapCode

theorem Inv.execScallr {a : BitVec 6} {l : BitVec 12} (h : Inv s) : ResultInv (execScallr a l s) :=
  h.strandFree (h.landAt (fun ht => ht.setReg.setSpc))

theorem Inv.jumpTable {a : BitVec 6} {off n : Dword} (h : Inv s) : ResultInv (jumpTable s a off n) := by
  simp only [Machine.jumpTable]
  refine Inv.strandFree h ?_
  split
  · exact h.strandFault
  · split
    · exact h.trapCode
    · split
      · exact h.strandFault
      · exact h.landAt (fun ht => ht.setSpc)

theorem Inv.execSjtab {a : BitVec 6} {o : BitVec 14} (h : Inv s) : ResultInv (execSjtab a o s) := h.jumpTable

theorem Inv.execSlit {l : BitVec 26} {f : LitUser} (h : Inv s) : ResultInv (execSlit l f s) := by
  simp only [Machine.execSlit]
  split
  · exact h.immOp
  · exact h.immOp
  · exact h.immOp
  · exact h.immOp
  · exact h.strandFree h.setSpc
  · exact h.branchOp
  · exact h.jumpTable
  · exact h.trapCode

theorem Inv.enqueueBlock {l : BitVec 26} (h : Inv s) : Inv (enqueueBlock s l) :=
  .ite h.setGrp.startBlock h.setGrp

theorem Inv.execLrun {l : BitVec 26} (h : Inv s) : ResultInv (execLrun l s) :=
  .ite h.trapCode (.ite h h.enqueueBlock)

theorem Inv.execLwait (h : Inv s) : ResultInv (execLwait s) := h.strandSerial h.advance

theorem Inv.setFmt {v : Dword} (h : Inv s) : Inv (s.setFmt v) := h.setGrp

theorem Inv.setAxis {n : Nat} {v : Dword} (h : Inv s) : Inv (s.setAxis n v) := h.setGrp

theorem Inv.execSfmt {a : BitVec 6} (h : Inv s) : ResultInv (execSfmt a s) :=
  h.strandFree (.ite h.setFmt.advance h.trapCode)

theorem Inv.execSfmtAb {a b : BitVec 5} (h : Inv s) : ResultInv (execSfmtAb a b s) :=
  .ite h.setFmt.advance h.trapCode

theorem Inv.execSaxis {n : BitVec 2} {a : BitVec 6} (h : Inv s) : ResultInv (execSaxis n a s) :=
  h.strandFree (.ite h.setAxis.advance h.trapCode)

theorem Inv.queueTrap {n : Nat} (h : Inv s) : Inv (queueTrap s n) := h.strandTrap

theorem Inv.execSqin {d : BitVec 6} {n : BitVec 4} (h : Inv s) : ResultInv (execSqin d n s) := by
  simp only [Machine.execSqin]
  refine Inv.strandSerial h ?_
  split
  · exact h.queueTrap
  · split
    · exact h
    · exact h.setGrp.wb

theorem Inv.sideEntry {isPush : Bool} {q : Nat} {va : Dword} {loc size : Nat} {data : Dword} (h : Inv s) :
    Inv (sideEntry s isPush q va loc size data) :=
  .ite h h.setGrp.advance

theorem Inv.execSqout {a : BitVec 6} {n : BitVec 4} (h : Inv s) : ResultInv (execSqout a n s) :=
  h.strandFree (.ite h.queueTrap (.ite h.sideEntry (.ite h.setGrp.advance h)))

/-! ### Memory instructions of the strand -/

theorem Inv.dropOwn (h : Inv s) : Inv (dropOwn s) := h.dropRemote

theorem Inv.remoteTrap {code : Nat} {va : Dword} {pkg : Nat} (h : Inv s) : Inv (remoteTrap s code va pkg) :=
  .ite h (h.strandTrapAfter (fun ht => ht.dropOwn))

theorem Inv.askDirectory {va : Dword} {a : Acc} (h : Inv s) : Inv (askDirectory s va a) := by
  simp only [Machine.askDirectory]
  split
  next s' e => exact h.directoryStep.wait e
  · exact h.remoteTrap
  · exact h.dropRemote

theorem Inv.sldDone {s0 : State} {d : BitVec 6} {a : Acc} {size : Nat} {v : Dword} (h : Inv s) :
    Inv (sldDone s0 s d a size v) :=
  .ite h.wb h.wb.setGrp

theorem Inv.sldRead {d : BitVec 6} {va : Dword} {z : BitVec 3} {a : Acc} (h : Inv s) : Inv (sldRead s d va z a) := by
  simp only [Machine.sldRead]
  split
  · exact h.askDirectory
  · split
    · split
      next s' e => exact h.noteAccess.remoteStep.wait e
      · exact h.remoteTrap
      · exact .ite h.remoteTrap (h.dropRemote.sldDone)
    · split
      · exact h.wb
      · split
        next v s1 e => exact (h.noteAccess.loadClean.some e).sldDone
        · exact h.strandTrap

theorem Inv.sldAt {d : BitVec 6} {va : Dword} {z : BitVec 3} {a : Acc} (h : Inv s) : Inv (sldAt s d va z a) := by
  simp only [Machine.sldAt]
  split
  · exact h
  · split
    · exact .ite h.sldDone h
    · exact h.sldRead

theorem Inv.execSld {d a : BitVec 6} {z : BitVec 3} {o : BitVec 11} (h : Inv s) : ResultInv (execSld d a z o s) := by
  simp only [Machine.execSld]
  refine Inv.strandFree h ?_
  split
  · exact h.strandFault
  · exact h.sldAt

theorem Inv.sstAt {va : Dword} {z : BitVec 3} {a : Acc} {v : Dword} (h : Inv s) : Inv (sstAt s va z a v) :=
  .ite h.askDirectory (.ite h.sideEntry h.noteAccess.performStore.advance)

theorem Inv.execSst {d a : BitVec 6} {z : BitVec 3} {o : BitVec 11} (h : Inv s) : ResultInv (execSst d a z o s) := by
  simp only [Machine.execSst]
  refine Inv.strandFree h ?_
  split
  · exact h.strandFault
  · exact h.sstAt

theorem Inv.satomLocal {a : Acc} {op : Nat} {v exp : Dword} (h : Inv s) : Inv (satomLocal s a op v exp).2 := by
  simp only [Machine.satomLocal]
  split
  · split
    · exact h.regStore
    · exact h
  · split
    · exact h.atomicPrepare.atomicWrite
    · exact h.atomicPrepare.setSeen

theorem Inv.satomAt {d : BitVec 6} {va : Dword} {a : Acc} {op r sc : Nat} {v : Dword} (h : Inv s) :
    Inv (satomAt s d va a op r sc v) := by
  simp only [Machine.satomAt]
  split
  · exact h.askDirectory
  · split
    · split
      · exact h.pub
      · split
        next s' e => exact ((Inv.ite h.pub h).noteAccess.remoteStep.wait e)
        · exact h.remoteTrap
        · split
          · exact h.strandTrapAfter (fun ht => ht.dropOwn)
          · exact (Inv.ite h.dropRemote.ref h.dropRemote).setReg.advance
    · split
      · exact h.strandTrap
      · split
        · exact h.pub
        · refine Inv.advance (Inv.setReg (.ite (Inv.ref ?_) ?_))
          all_goals exact (Inv.ite h.pub h).noteAccess.satomLocal

theorem Inv.execSatom {d a b : BitVec 6} {o : BitVec 3} {r : BitVec 2} {sc : BitVec 3} (h : Inv s) :
    ResultInv (execSatom d a b o r sc s) := by
  simp only [Machine.execSatom]
  refine Inv.strandSerial h ?_
  split
  · exact h.strandFault
  · exact h.satomAt

theorem Inv.seeWrites {gi m : Nat} {ws : List (Nat × Nat × Nat)} (h : Inv s) : Inv (seeWrites s gi m ws) :=
  h.setGroup

theorem Inv.shutMatrix {ws : List (Nat × Nat × Nat)} (h : Inv s) : Inv (shutMatrix s ws) :=
  (h.setOrd (Nat.le_succ _)).shutHist fun _ _ => Nat.le_refl _

theorem Inv.fenceOver {gi m : Nat} {ws : List (Nat × Nat × Nat)} (h : Inv s) : Inv (fenceOver s gi m ws) := by
  have h1 {c : Prop} [Decidable c] {p : Dirty → Bool} : Inv (if c then Machine.performDirty s p else s) :=
    .ite h.performDirty h
  refine .ite h (.ite (Inv.setGroup (Inv.seeWrites ?_)) ?_)
  all_goals exact (Inv.ite h1.shutMatrix h1).seeWrites

theorem Inv.fenceEffect {gi m : Nat} (h : Inv s) : Inv (fenceEffect s gi m) := h.fenceOver

theorem Inv.reportDeferred {s1 : State} (h : Inv s) (h1 : Inv s1) : Inv (reportDeferred s s1) := by
  simp only [Machine.reportDeferred]
  split
  · exact h1.advance
  · split
    next s1 e => exact h.recordWait.some e
    · exact h1.advance.setGrp.deliverNow

theorem Inv.untouch {g sc : Nat} (h : Inv s) : Inv (untouch s g sc) := .ite h h.setGroup

theorem Inv.phaseOp {doPub doRef : Bool} {sc : Nat} (h : Inv s) : ResultInv (phaseOp s doPub doRef sc) := by
  have h1 : Inv (if doPub then Machine.pub s s.cur.grp sc else s) := .ite h.pub h
  refine h.strandSerial (.ite h1 (h1.reportDeferred (.ite (Inv.untouch ?_) ?_)))
  all_goals exact .ite h1.ref.codeRef h1

theorem Inv.execXfence {m : BitVec 7} (h : Inv s) : ResultInv (execXfence m s) :=
  h.strandSerial (.ite h (.ite (h.reportDeferred h.fenceEffect) h.fenceEffect.advance))

theorem Inv.execDrain {m : BitVec 7} (h : Inv s) : ResultInv (execDrain m s) := by
  refine h.strandSerial (.ite h.setGrp (.ite (h.reportDeferred ?_) (Inv.advance ?_)))
  all_goals exact .ite h.setGrp h.setGrp.fenceOver

/-! ### Memory instructions of the lanes -/

theorem EnvInv.laneAccesses {e : Env} {disp : ℤ} {size : Nat} {need : Need} {acc : Nat} (he : EnvInv e) :
    ErrorInv (laneAccesses e disp size need acc) := by
  simp only [Machine.laneAccesses]
  split
  · exact he.s0.laneFault
  · trivial

theorem Inv.noteLanes {xs : List LaneAcc} (h : Inv s) : Inv (noteLanes s xs) := h.foldl (fun ht => ht.noteAccess)

theorem Inv.keepPops {e : Env} (h : Inv s) : Inv (keepPops e s) := .ite h h.setGrp

theorem Inv.givePops {qs : List Nat} (h : Inv s) : Inv (givePops s qs) := by
  simp only [Machine.givePops]
  split
  · exact h
  · exact h.setGrp

theorem Inv.dropLane (h : Inv s) : Inv (dropLane s) := h.update

theorem Inv.dropPops {e : Env} (h : Inv s) : Inv (dropPops e s) := h.givePops.dropLane

theorem Inv.laneRemoteTrap {e : Env} {code lane : Nat} {va : Dword} {pkg : Nat} (h : Inv s) :
    Inv (laneRemoteTrap e s code lane va pkg) :=
  h.deliverAfter (fun ht => ht.dropPops)

/-- One lane's step keeps the invariant of the state that the lanes before it left. -/
theorem Inv.laneSteps {step : State → LaneAcc → RemoteAns} {xs : List LaneAcc}
    (h : Inv s) (hstep : ∀ {t x}, Inv t → RemoteInv (step t x)) : LanesInv (laneSteps s step xs) := by
  unfold Machine.laneSteps
  extract_lets r
  have hr : Inv r.1 := by
    refine Inv.foldlFst (p := (s, _)) h fun {q x} hq => ?_
    split
    split
    next e => exact (hstep hq).wait e
    · exact hq
    · exact hq
  split
  · split
    · exact hr
    · trivial
  · split
    · exact hr
    · trivial

theorem Inv.laneDirs {xs : List LaneAcc} (h : Inv s) : LanesInv (laneDirs s xs) :=
  h.laneSteps (fun ht => ht.directoryStep)

theorem Inv.lineLoad {x : LaneAcc} (h : Inv s) : RemoteInv (lineLoad s x) := h.remoteStep

theorem EnvInv.withRemote {e : Env} {xs : List LaneAcc} {step : State → LaneAcc → RemoteAns}
    {k : List (LaneAcc × List Byte × Nat) → State} (he : EnvInv e)
    (hstep : ∀ {t x}, Inv t → RemoteInv (step t x)) (hk : ∀ {ds}, Inv (k ds)) : Inv (withRemote e xs step k) := by
  simp only [Machine.withRemote]
  split
  next s e => exact (he.s0.laneDirs.wait e).keepPops
  · exact he.s0.laneRemoteTrap
  · exact he.s0.dropLane
  · split
    next s e => exact ((he.s0.laneSteps hstep).wait e).keepPops
    · exact he.s0.laneRemoteTrap
    · exact hk

theorem EnvAnsInv.heldBlock {x : Except State Env} (hx : EnvAnsInv x) (h : Inv s) : EnvAnsInv (heldBlock x s) := by
  cases x with
  | ok e =>
    simp only [Machine.heldBlock]
    split
    · exact h
    · exact hx
  | error t => exact hx

theorem Inv.laneTake {size : Nat} {load : LaneChoice} {s0 : State} {sacc : State × List (Nat × Nat)} {x : LaneAcc}
    (h : Inv sacc.1) : Inv (laneTake size load s0 sacc x).1 := by
  simp only [Machine.laneTake]
  split
  · exact h
  · exact h.takeChoice

theorem Inv.laneValues {e : Env} {xs : List LaneAcc} {ds : List (LaneAcc × List Byte × Nat)} {size : Nat}
    {load : LaneChoice} (h : Inv s) : Inv (laneValues e xs ds size load s).1 :=
  h.noteLanes.foldlFst (fun ht => ht.laneTake)

theorem EnvInv.laneLoads {e : Env} {load : LaneChoice} (he : EnvInv e) : Inv (laneLoads e load) := by
  simp only [Machine.laneLoads]
  split
  next s e => exact he.laneAccesses.error e
  · refine he.withRemote (fun ht => ht.lineLoad) ?_
    intro ds
    split
    · exact he.s0.laneTrapAfter (fun ht => ht.dropPops)
    · exact he.s.dropLane.laneValues.writeVec.nextLane

theorem Inv.execVld {f : LaneWord} (h : Inv s) : ResultInv (execVld f s) :=
  (h.envT.heldBlock h).withEnv (fun he => he.laneLoads)

theorem Inv.execVldc {f : LaneWord} (h : Inv s) : ResultInv (execVldc f s) :=
  (h.envT.heldBlock h).withEnv (fun he => he.laneLoads)

theorem Inv.noteWrote {key size : Nat} (h : Inv s) : Inv (noteWrote s key size) := by
  simp only [Machine.noteWrote]
  split
  · exact h.setGrp
  · exact h

theorem Inv.laneRegStore {w : LaneStore} (h : Inv s) : Inv (laneRegStore s w) := h.regStore

theorem Inv.laneStore {w : LaneStore} (h : Inv s) : Inv (laneStore s w) := h.storeUnit

theorem Inv.lineStore {pc : Dword} {ws : List LaneStore} {line : Nat} (h : Inv s) : Inv (lineStore s pc ws line) :=
  h.issueRemote

theorem Inv.laneStores {pc : Dword} {ws : List LaneStore} (h : Inv s) : Inv (laneStores s pc ws) :=
  (((h.foldl (fun ht => ht.laneRegStore)).foldl (fun ht => ht.laneStore)).foldl
    (fun ht => ht.lineStore)).foldl (fun ht => ht.noteWrote)

theorem Inv.execVst {f : LaneWord} (h : Inv s) : ResultInv (execVst f s) := by
  simp only [Machine.execVst]
  refine EnvAnsInv.withEnv (h.envT.heldBlock h) ?_
  intro e he
  split
  next s e => exact he.laneAccesses.error e
  · exact he.withRemote (fun hu => trivial) he.s.dropLane.noteLanes.laneStores.nextLane

theorem Inv.execVpref {f : LaneWord} (h : Inv s) : ResultInv (execVpref f s) :=
  h.envT.withEnv (fun he => he.s.nextLane)

theorem Inv.atomLocal {e : Env} {acc : State × List (Nat × Nat)} {x : LaneAcc}
    (h : Inv acc.1) : Inv (atomLocal e acc x).1 := by
  simp only [Machine.atomLocal]
  split
  · split
    · exact h.regStore
    · exact h
  · split
    · exact h.atomicPrepare.atomicWrite.noteWrote
    · exact h.atomicPrepare.setSeen

theorem Inv.lineProbe {x : LaneAcc} (h : Inv s) : RemoteInv (lineProbe s x) := h.remoteStep

theorem Inv.lineAtomic {e : Env} {xs : List LaneAcc} {pinned : Bool} {x : LaneAcc} (h : Inv s) :
    RemoteInv (lineAtomic e xs pinned s x) :=
  h.remoteStep

/-- The states of a lane atomic: the releasing one, then the one that wrote, with the results of the lanes. -/
theorem EnvInv.laneAtomics {e : Env} {xs : List LaneAcc} (he : EnvInv e) : Inv (laneAtomics e xs) := by
  have hrel {t : State} {c : Bool} {g sc : Nat} (ht : Inv t) : Inv (if c then pub t g sc else t) := .ite ht.pub ht
  simp only [Machine.laneAtomics]
  split
  · exact he.s0.laneTrapAfter (fun ht => ht.dropPops)
  · refine he.withRemote ?_ ?_
    · intro t x ht
      split
      · exact ht.lineProbe
      · trivial
    · intro ds
      refine .ite (hrel he.s0).keepPops ?_
      split
      next t e => exact (((hrel he.s0).laneSteps (fun ht => ht.lineAtomic)).wait e).keepPops
      · exact (hrel he.s0).laneRemoteTrap
      · split
        · exact (hrel he.s0).laneTrapAfter (fun ht => ht.dropPops)
        · refine Inv.nextLane (.ite (Inv.ref (Inv.writeVec ?_)) (Inv.writeVec ?_))
          all_goals
            refine Inv.foldl ?_ (fun ht => ht.noteWrote)
            exact (hrel he.s).dropLane.noteLanes.foldlFst (p := (_, [])) (fun ht => ht.atomLocal)

theorem Inv.execVatom {f : LaneWord} (h : Inv s) : ResultInv (execVatom f s) := by
  simp only [Machine.execVatom]
  refine EnvAnsInv.withEnv (h.envT.heldBlock h) ?_
  intro e he
  split
  next s e => exact he.laneAccesses.error e
  · exact he.laneAtomics

theorem Inv.localWriteBy {w : Writer} {g : Group} {p : Nat × Nat} {size v : Nat} (h : Inv s) :
    Inv (localWriteBy w s g p size v) :=
  ((h.setOrd (Nat.le_succ _)).addHist (Nat.le_refl _) (w.published_le _)).setTeam

theorem Inv.localWrite {p : Nat × Nat} {size v : Nat} (h : Inv s) : Inv (localWrite s p size v) := h.localWriteBy

theorem Inv.localLoad {p : Nat × Nat} {size k : Nat} (h : Inv s) : Inv (localLoad s p size k).2 := h.setSeen

theorem EnvInv.localAccesses {e : Env} {disp : ℤ} {size : Nat} (he : EnvInv e) :
    ErrorInv (localAccesses e disp size) := by
  simp only [Machine.localAccesses]
  split
  · exact he.s0.laneTrap
  · split
    · exact he.s0.laneTrap
    · trivial

theorem EnvInv.localClean {e : Env} {disp : ℤ} {xs : List (Nat × Nat × Nat)} {k : State}
    (he : EnvInv e) (hk : Inv k) : Inv (localClean e disp xs k) := by
  simp only [Machine.localClean]
  split
  · exact he.s0.laneTrap
  · exact hk

theorem Inv.execLld {f : LaneWord} (h : Inv s) : ResultInv (execLld f s) := by
  simp only [Machine.execLld]
  refine EnvAnsInv.withEnv (h.envT.heldBlock h) ?_
  intro e he
  split
  next s e => exact he.localAccesses.error e
  · refine he.localClean (Inv.writeVec ?_).nextLane
    exact he.s.foldlFst (p := (_, [])) (fun hu => hu.localLoad (size := e.ty.bits / 8))

theorem Inv.execLst {f : LaneWord} (h : Inv s) : ResultInv (execLst f s) := by
  simp only [Machine.execLst]
  refine EnvAnsInv.withEnv (h.envT.heldBlock h) ?_
  intro e he
  split
  next s e => exact he.localAccesses.error e
  · exact (he.s.foldl (fun hu => hu.localWrite)).nextLane

theorem Inv.localAtom {e : Env} {acc : State × List (Nat × Nat)} {x : Nat × Nat × Nat}
    (h : Inv acc.1) : Inv (localAtom e acc x).1 := by
  simp only [Machine.localAtom]
  split
  · exact h.localLoad.localWrite
  · exact h.localLoad

theorem Inv.execLatom {f : LaneWord} (h : Inv s) : ResultInv (execLatom f s) := by
  simp only [Machine.execLatom]
  refine EnvAnsInv.withEnv (h.envT.heldBlock h) ?_
  intro e he
  split
  next s e => exact he.localAccesses.error e
  · refine he.localClean (.ite he.s0.pub.keepPops (Inv.nextLane (.ite (Inv.ref (Inv.writeVec ?_)) (Inv.writeVec ?_))))
    all_goals exact (Inv.ite he.s.pub he.s).foldlFst (p := (_, [])) (fun hu => hu.localAtom)

/-! ### Stippled stores -/

theorem Inv.bindAxis {n : Nat} (h : Inv s) : Inv (bindAxis s n) := h.setGrp

theorem Inv.setResidue {n : Nat} {vs : List (Nat × Nat)} (h : Inv s) : Inv (setResidue s n vs) := h.setGrp

theorem EnvInv.vstqRun {e : Env} {n : Nat} {a : Dword} {t : Ty} (he : EnvInv e) : Inv (vstqRun e n a t) := by
  simp only [Machine.vstqRun]
  split
  · exact he.s0.laneFault
  · refine he.withRemote (fun ht => trivial) (he.finishFp (fun ht => ?_))
    exact (Inv.ite ht.bindAxis.setResidue.setResidue ht.bindAxis.setResidue).dropLane.noteLanes.laneStores.nextLane

theorem EnvInv.stippleOrder {e : Env} (he : EnvInv e) : Inv (stippleOrder e) := he.s0.laneTrapAll

theorem Inv.execVstq {f : LaneWord} (h : Inv s) : ResultInv (execVstq f s) := by
  simp only [Machine.execVstq]
  refine EnvAnsInv.withEnv (h.envT.heldBlock h) ?_
  intro e he
  split
  · exact he.s0.laneTrapAll
  · exact .ite he.s0.laneTrapAll (.ite he.stippleOrder (.ite he.s.bindAxis.nextLane he.vstqRun))

theorem EnvInv.axisEnv {e : Env} {a : Dword} (he : EnvInv e) : EnvInv (axisEnv e a) := by
  simp only [Machine.axisEnv]
  split
  · exact ⟨he.s0, he.s⟩
  · exact he

theorem Inv.execEsav {f : LaneWord} (h : Inv s) : ResultInv (execEsav f s) := by
  simp only [Machine.execEsav]
  refine EnvAnsInv.withEnv (h.envT.heldBlock h) ?_
  intro e he
  split
  · exact he.stippleOrder
  · split
    next s e => exact he.axisEnv.laneAccesses.error e
    · exact he.axisEnv.withRemote (fun hu => trivial) he.s.bindAxis.dropLane.noteLanes.laneStores.nextLane

theorem Inv.execElod {f : LaneWord} (h : Inv s) : ResultInv (execElod f s) := by
  simp only [Machine.execElod]
  refine EnvAnsInv.withEnv (h.envT.heldBlock h) ?_
  intro e he
  split
  · exact he.stippleOrder
  · split
    next t e => exact he.axisEnv.laneAccesses.error e
    · refine he.axisEnv.withRemote (fun hu => hu.lineLoad) ?_
      intro ds
      split
      · exact he.s0.laneTrapAfter (fun hu => hu.dropPops)
      · exact he.s.bindAxis.dropLane.laneValues.setResidue.nextLane

theorem Inv.execEclr {f : LaneWord} (h : Inv s) : ResultInv (execEclr f s) :=
  h.envT.withEnv (fun he => .ite he.stippleOrder he.s.bindAxis.setResidue.nextLane)

/-! ### Control of the lanes -/

theorem Inv.spillTrap {sl : Nat} (h : Inv s) : Inv (spillTrap s sl) := h.laneTrap

theorem Inv.commitSplit {g : Group} {sls : List Nat} (h : Inv s) : Inv (commitSplit s g sls) := by
  simp only [Machine.commitSplit]
  split
  · exact h.spillTrap
  · exact h.setStacks

theorem Inv.execLbra {f : LaneWord} (h : Inv s) : ResultInv (execLbra f s) := h.commitSplit

theorem Inv.execLjmp {f : LaneWord} (h : Inv s) : ResultInv (execLjmp f s) := h.setFrag

theorem EnvInv.ljtabGo {e : Env} {ts : List (Nat × PadAns)} (he : EnvInv e) : Inv (ljtabGo e ts) := by
  simp only [Machine.ljtabGo]
  split
  · exact he.s0.laneFault
  · exact he.s0.laneTrap
  · split
    · exact he.s0.laneTrap
    · exact he.s0.commitSplit

theorem Inv.execLjtab {f : LaneWord} (h : Inv s) : ResultInv (execLjtab f s) := by
  simp only [Machine.execLjtab]
  refine EnvAnsInv.withEnv h.envT ?_
  intro e he
  split
  · exact he.s.nextLane
  · split
    · exact h.laneFault
    · split
      · exact h.laneTrap
      · exact he.ljtabGo

theorem Inv.joinPoint {kind : Nat} {k : State → Settled → State} (h : Inv s)
    (hk : ∀ {t x}, Inv t → Inv (k t x)) : ResultInv (joinPoint s kind k) := by
  simp only [Machine.joinPoint]
  split
  · exact h.spillTrap
  · exact hk h.setStacks

theorem Inv.execLjoin {f : LaneWord} (h : Inv s) : ResultInv (execLjoin f s) := by
  simp only [Machine.execLjoin]
  refine Inv.joinPoint h ?_
  intro t x ht
  split
  · exact ht.setGrp
  · exact ht

theorem Inv.execRegang {f : LaneWord} (h : Inv s) : ResultInv (execRegang f s) :=
  h.joinPoint (fun ht => ht.setStacks)

theorem Inv.execLend {f : LaneWord} (h : Inv s) : ResultInv (execLend f s) :=
  h.joinPoint (fun ht => .ite ht.setGrp.endBlock ht.setGrp)

theorem Inv.execPhint {f : LaneWord} (h : Inv s) : ResultInv (execPhint f s) :=
  .ite h.laneTrapAll (.ite h.nextLane.saveGroup h.nextLane)

end Sys2Proof.Machine
end

