-- ==== Sys2Proof/Proofs/InvariantContexts.lean ====
section
namespace Sys2Proof.Machine

variable {s t : State}

/-! ### Barriers, monitors and places -/

theorem Inv.setBarrier {k : Nat} {b : Barrier} (h : Inv s) : Inv (s.setBarrier k b) := h.update

theorem Inv.arriveAt {k cls : Nat} {ws : List (Nat × Nat × Nat)} (h : Inv s) : Inv (arriveAt s k cls ws) :=
  .ite (h.setBarrier.foldl (fun ht => ht.setGroup)) h.setBarrier

theorem Inv.barTrap {p i : Nat} (h : Inv s) : Inv (barTrap s p i) := h.strandTrap

theorem Inv.barTest {p i : Nat} {cnt : Option Nat} (h : Inv s) : OptionInv (barTest s p i cnt) := by
  unfold Machine.barTest
  extract_lets g b countBad
  split
  · exact h.barTrap
  · split
    · exact h.trapCode
    · split
      · exact h.barTrap
      · split
        · exact h.barTrap
        · split
          · exact h.barTrap
          · trivial

theorem Inv.execSbarInit {a : BitVec 6} {p : BitVec 1} {i : BitVec 6} (h : Inv s) :
    ResultInv (execSbarInit a p i s) := by
  simp only [Machine.execSbarInit]
  refine Inv.strandSerial h ?_
  split
  next s1 e => exact h.barTest.some e
  · exact h.setBarrier.setGrp.advance

theorem Inv.groupArrive {p i : Nat} (h : Inv s) : Inv (groupArrive s p i) := h.pub.setGrp.arriveAt

theorem Inv.execSbarArrive {p : BitVec 1} {i : BitVec 6} (h : Inv s) : ResultInv (execSbarArrive p i s) := by
  simp only [Machine.execSbarArrive]
  refine Inv.strandSerial h ?_
  split
  next s1 e => exact h.barTest.some e
  · exact h.groupArrive.advance

theorem Inv.barWait {m p i : Nat} (h : Inv s) : Inv (barWait s m p i) :=
  .ite h.setBarrier.setGrp h.setGrp.seeWrites.ref.advance

theorem Inv.execSbarWait {m : BitVec 7} {p : BitVec 1} {i : BitVec 6} (h : Inv s) :
    ResultInv (execSbarWait m p i s) := by
  simp only [Machine.execSbarWait]
  refine Inv.strandSerial h ?_
  split
  · exact h.barWait
  · split
    next s1 e => exact h.barTest.some e
    · exact h.barWait

theorem Inv.execSbarArw {m : BitVec 7} {p : BitVec 1} {i : BitVec 6} (h : Inv s) :
    ResultInv (execSbarArw m p i s) := by
  simp only [Machine.execSbarArw]
  refine Inv.strandSerial h ?_
  split
  · exact h.barWait
  · split
    next s1 e => exact h.barTest.some e
    · exact h.groupArrive.barWait

theorem Inv.swaitDone {d : BitVec 6} {st sc : Nat} (h : Inv s) : Inv (swaitDone s d st sc) :=
  (Inv.ite h.setGrp h.setGrp.ref).wb

theorem Inv.swaitRemote {d : BitVec 6} {va : Dword} {a : Acc} {cmp : Nat} {dw : Bool} {v : Dword} {sc : Nat}
    (h : Inv s) : Inv (swaitRemote s d va a cmp dw v sc) := by
  simp only [Machine.swaitRemote]
  split
  next s' e => exact h.noteAccess.remoteStep.wait e
  · exact h.remoteTrap
  · exact .ite (h.strandTrapAfter (fun ht => ht.dropOwn)) (.ite h.setGrp h.dropRemote.swaitDone)

theorem Inv.swaitLocal {d : BitVec 6} {va : Dword} {a : Acc} {cmp : Nat} {dw : Bool} {v : Dword} {sc : Nat}
    (h : Inv s) : Inv (swaitLocal s d va a cmp dw v sc) := by
  unfold Machine.swaitLocal
  extract_lets s0 size
  have hr : AnswerInv
      (if a.reg then some (regValue s0 a.loc, s0) else Machine.coherentClean s0 s.cur.grp a size 9) := by
    split
    · exact h.noteAccess
    · exact h.noteAccess.coherentClean
  split
  · exact h.strandTrap
  next u s1 e =>
    have h1 := hr.some e
    exact .ite h1.swaitDone (.ite h1.swaitDone h1.update.setGrp)

theorem Inv.execSwaitc {d a b : BitVec 6} {c : BitVec 3} {z : BitVec 2} {sc : BitVec 3} (h : Inv s) :
    ResultInv (execSwaitc d a b c z sc s) := by
  simp only [Machine.execSwaitc]
  refine Inv.strandSerial h ?_
  split
  · exact h.dropRemote.swaitDone
  · exact h
  · split
    · exact h.strandFault
    · exact .ite h.strandTrap (.ite h.askDirectory (.ite h.swaitRemote h.swaitLocal))

theorem Inv.setPlace {slice idx : Nat} {r : PlaceRec} (h : Inv s) : Inv (s.setPlace slice idx r) := h.update

theorem Inv.freePlace {slice idx : Nat} (h : Inv s) : Inv (freePlace s slice idx) := h.setPlace

theorem Inv.grantPlace {slice hdr q : Nat} (h : Inv s) : Inv (grantPlace s slice hdr q) := by
  simp only [Machine.grantPlace]
  split
  · exact .ite h.setPlace.setPlace.setGroup h.setPlace.setPlace
  · exact h.setPlace.setPlace

theorem Inv.releaseFrom {slice hdr fuel q : Nat} (h : Inv s) : Inv (releaseFrom s slice hdr fuel q) := by
  induction fuel generalizing s q with
  | zero => exact h
  | succ fuel ih => exact .ite h.freePlace (.ite (ih h.freePlace) h.grantPlace)

theorem Inv.releasePlace {slice p : Nat} (h : Inv s) : Inv (releasePlace s slice p) := h.freePlace.releaseFrom

theorem Inv.dropPlace {slice p : Nat} (h : Inv s) : Inv (dropPlace s slice p) := .ite h.releasePlace h.setPlace

theorem Inv.dropHeld {holder : Nat} (h : Inv s) : Inv (dropHeld s holder) := h.foldl (fun ht => ht.dropPlace)

theorem Inv.dropPlaces {gi : Nat} (h : Inv s) : Inv (dropPlaces s gi) :=
  (h.dropHeld.foldl (fun ht => ht.update.issueRemote)).update

theorem Inv.noteFar {gi pkg : Nat} (h : Inv s) : Inv (noteFar s gi pkg) := .ite h h.setGroup

theorem Inv.placeTrap {hh : Dword} (h : Inv s) : Inv (placeTrap s hh) := h.strandTrap

theorem Inv.placeAsk {va : Dword} {dpa pkg op sc : Nat} {arg : Dword} {info : List Byte → Dword}
    {k : State → Nat → List Byte → State} (h : Inv s) (hk : ∀ {t n bs}, Inv t → Inv (k t n bs)) :
    Inv (placeAsk s va dpa pkg op sc arg info k) := by
  simp only [Machine.placeAsk]
  split
  next s' e => exact h.remoteStep.wait e
  · exact h.remoteTrap
  · exact .ite h.dropRemote.placeTrap (hk h)

theorem Inv.placePub {va : Dword} {dpa pkg op sc : Nat} {arg : Dword} {info : List Byte → Dword} (h : Inv s) :
    Inv (placePub s va dpa pkg op sc arg info) := by
  simp only [Machine.placePub]
  split
  · split
    next s' e => exact h.remoteStep.wait e
    · exact h.remoteTrap
    · exact h.dropRemote.advance
  · exact h.placeAsk (fun ht => .ite ht.dropRemote.advance (.ite ht.pub ht.pub.dropRemote.issueRemote))

theorem Inv.objectAccess {va : Dword} (h : Inv s) : ErrorInv (objectAccess s va) := by
  simp only [Machine.objectAccess]
  split
  · exact h.strandFault
  · split
    · exact h.strandTrap
    · split
      · exact h.strandTrap
      · split
        · exact h.askDirectory
        · trivial

theorem Inv.acquireAt {sl obj holder sc : Nat} (h : Inv s) : Inv (acquireAt s sl obj holder sc).2 := by
  simp only [Machine.acquireAt]
  split
  · split
    · exact h
    · exact h.setPlace.setPlace.setPlace
  · split
    · exact h
    · exact h.setPlace.setPlace.setPlace

theorem Inv.acquired {d : BitVec 6} {sc : Nat} {v : Dword} (h : Inv s) : Inv (acquired s d sc v) :=
  (Inv.ite h.ref h).wb

theorem Inv.execXacq {d a : BitVec 6} {sc : BitVec 3} (h : Inv s) : ResultInv (execXacq d a sc s) := by
  simp only [Machine.execXacq]
  refine Inv.strandSerial h ?_
  split
  next t e => exact h.objectAccess.error e
  · split
    · exact h.placeAsk (fun ht => (Inv.ite ht.dropRemote ht.dropRemote.noteFar).acquired)
    · exact h.noteAccess.acquireAt.acquired

theorem Inv.waited {d : BitVec 6} {sc : Nat} (h : Inv s) : Inv (waited s d sc) := h.setGrp.ref.wb

theorem Inv.execXwait {d a : BitVec 6} {sc : BitVec 3} (h : Inv s) : ResultInv (execXwait d a sc s) :=
  h.strandSerial (.ite (h.placeAsk (fun ht => .ite ht.setGrp ht.dropRemote.waited))
    (.ite h.placeTrap (.ite h.setPlace.setGrp h.setPlace.waited)))

theorem Inv.execXgive {a b : BitVec 6} (h : Inv s) : ResultInv (execXgive a b s) := by
  have hpub {c : Prop} [Decidable c] {g sc : Nat} : Inv (if c then Machine.pub s g sc else s) := .ite h.pub h
  simp only [Machine.execXgive]
  refine Inv.strandSerial h (.ite h.trapCode (.ite (Inv.placePub ?_) (.ite h.placeTrap (.ite hpub (Inv.advance ?_)))))
  · split
    · exact h.noteFar
    · exact h
  · exact .ite hpub.dropPlace hpub.setPlace

theorem Inv.relink {slice hdr : Nat} {xs : List Nat} (h : Inv s) : Inv (relink s slice hdr xs) := by
  induction xs generalizing s with
  | nil => exact h
  | cons x xs ih =>
    cases xs with
    | nil => exact h.setPlace.setPlace
    | cons y rest => exact ih h.setPlace

theorem Inv.swapAt {sl i h2 : Nat} (h : Inv s) : Inv (swapAt s sl i h2).2 := by
  simp only [Machine.swapAt]
  split
  · exact h
  · exact h.relink

theorem Inv.execXswap {d a b : BitVec 6} (h : Inv s) : ResultInv (execXswap d a b s) :=
  h.strandSerial (.ite (h.placeAsk (fun ht => ht.dropRemote.wb)) (.ite h.placeTrap h.swapAt.wb))

theorem Inv.execXaban {a : BitVec 6} (h : Inv s) : ResultInv (execXaban a s) :=
  h.strandSerial (.ite h.placePub (.ite h.placeTrap (.ite (.ite h.pub h) (Inv.ite h.pub h).dropPlace.advance)))

theorem Inv.execXrel {a : BitVec 6} {sc : BitVec 3} (h : Inv s) : ResultInv (execXrel a sc s) := by
  simp only [Machine.execXrel]
  refine Inv.strandSerial h ?_
  split
  next t e => exact h.objectAccess.error e
  · split
    · exact h.placePub
    · split
      · exact h.placeTrap
      · split
        · exact h.placeTrap
        · exact .ite h.noteAccess.pub.performDirty h.noteAccess.pub.performDirty.releasePlace.advance

/-! ### Matrices -/

theorem Inv.storePut1 {w : Writer} {g : Group} {la : Nat} {bs : List Byte} (h : Inv s) :
    Inv (storePut1 w s g la bs) := by
  simp only [Machine.storePut1]
  split
  · exact h
  · exact .ite h (.ite h.localWriteBy (.ite (Inv.ite h.setTeam h).performList (.ite h.setTeam h)))

theorem Inv.storePut {w : Writer} {g : Group} {la : Nat} {bs : List Byte} (h : Inv s) :
    Inv (storePut w s g la bs) :=
  h.foldl (fun ht => ht.storePut1)

theorem Inv.markLocal {g : Group} {la : Nat} (h : Inv s) : Inv (markLocal s g la) := by
  simp only [Machine.markLocal]
  split
  · exact .ite h h.setTeam
  · exact h

theorem Inv.matrixTrap (h : Inv s) : Inv (matrixTrap s) := h.trapCode

theorem Inv.execMcfg {a : BitVec 6} (h : Inv s) : ResultInv (execMcfg a s) := by
  simp only [Machine.execMcfg]
  refine Inv.strandSerial h ?_
  split
  · exact h.setGrp.advance
  · exact h.matrixTrap

theorem Inv.execMgang {a : BitVec 6} (h : Inv s) : ResultInv (execMgang a s) :=
  h.strandSerial (.ite h.setGrp.advance h.trapCode)

theorem Inv.localTrap {code la : Nat} (h : Inv s) : Inv (localTrap s code la) := h.strandTrap

theorem Inv.acceptMOp {kind : MOpKind} {tile : Nat} {a b bitmap conf : Dword} {members : List Nat} (h : Inv s) :
    Inv (acceptMOp s kind tile a b bitmap conf members) :=
  h.update

theorem Inv.gangArrive {kind : MOpKind} {a b bitmap : Dword} (h : Inv s) : Inv (gangArrive s kind a b bitmap) := by
  simp only [Machine.gangArrive]
  split
  · exact h
  · split
    · exact .ite h h.update.advance
    · exact .ite h.trapCode (.ite (.ite h h.update.acceptMOp.advance) h.update.advance)

theorem Inv.mmaOp {kind : MOpKind} {a b : Dword} {bm : Option Nat} (h : Inv s) : Inv (mmaOp s kind a b bm) := by
  simp only [Machine.mmaOp]
  split
  · exact h.matrixTrap
  · split
    · exact h.localTrap
    · split
      · exact h.localTrap
      · exact .ite h.gangArrive (.ite h h.acceptMOp.advance)

theorem Inv.execMma {a b : BitVec 6} (h : Inv s) : ResultInv (execMma a b s) := h.strandSerial h.mmaOp

theorem Inv.execMmas {d a b : BitVec 6} (h : Inv s) : ResultInv (execMmas d a b s) := h.strandSerial h.mmaOp

theorem Inv.moverOp {kind : MOpKind} {tile : Nat} {a b fmt conf : Dword} (h : Inv s) :
    Inv (moverOp s kind tile a b fmt conf) :=
  .ite h h.acceptMOp.advance

theorem Inv.execMzero {t : BitVec 3} (h : Inv s) : ResultInv (execMzero t s) := h.strandSerial h.moverOp

theorem Inv.execMlda {a : BitVec 6} {t : BitVec 3} (h : Inv s) : ResultInv (execMlda a t s) := by
  simp only [Machine.execMlda]
  refine Inv.strandSerial h ?_
  split
  · exact h.localTrap
  · split
    · exact h.localTrap
    · exact h.moverOp

theorem Inv.execMst {a b : BitVec 6} {t : BitVec 3} (h : Inv s) : ResultInv (execMst a b t s) := by
  simp only [Machine.execMst]
  refine Inv.strandSerial h ?_
  split
  · exact h.matrixTrap
  · split
    · exact h.localTrap
    · split
      · exact h.localTrap
      · exact h.moverOp

theorem Inv.mwaitThen {k : State → State} (h : Inv s) (hk : ∀ {t}, Inv t → Inv (k t)) : Inv (mwaitThen s k) :=
  .ite h (hk h.fenceEffect)

theorem Inv.execMwait (h : Inv s) : ResultInv (execMwait s) :=
  h.strandSerial (h.mwaitThen (fun ht => ht.advance))

theorem Inv.tilePut {k : Nat} {xs : List (Nat × Nat × Nat)} (h : Inv s) : Inv (tilePut s k xs) := h.update

theorem Inv.tileFill {k : Nat} {f : Nat → Nat → Nat} (h : Inv s) : Inv (tileFill s k f) := h.tilePut

theorem Inv.tileScanOut {k : Nat} {tag : TileTag} (h : Inv s) : Inv (tileScanOut s k tag) :=
  .ite h.update h.performDwords.update

theorem Inv.tileScanIn {k launch : Nat} (h : Inv s) : Inv (tileScanIn s k launch) := by
  simp only [Machine.tileScanIn]
  split
  · exact .ite h.tileFill (.ite h.update.tileFill h.update.tileFill.update)
  · exact h.tileFill

theorem Inv.tileEnter {k launch : Nat} (h : Inv s) : Inv (tileEnter s k launch) :=
  .ite h (.ite h (Inv.ite h.tileScanOut h).update.tileScanIn)

theorem Inv.tileOwn {k launch team : Nat} (h : Inv s) : Inv (tileOwn s k launch team) := h.update

theorem Inv.performMma {o : MOp} (h : Inv s) : Inv (performMma s o) := h.tilePut

theorem Inv.storeRow {o : MOp} {t : Ty} {m : Nat} (h : Inv s) : Inv (storeRow s o t m) :=
  .ite h.storePut.storePut (.ite h.storePut.storePut (.ite h.storePut h.storePut))

theorem Inv.performMOp {o : MOp} (h : Inv s) : Inv (performMOp s o) := by
  simp only [Machine.performMOp]
  split
  · exact h.tileEnter.performMma.tileOwn
  · exact h.tileEnter.performMma.tileOwn
  · exact h.tileEnter.tileFill.tileOwn
  · exact h.tileEnter.tileFill.tileOwn
  · split
    · exact h.tileEnter.foldl (fun ht => ht.storeRow)
    · exact h.tileEnter

theorem Inv.execMatrixOperation {core : Nat} (h : Inv s) : ResultInv (execMatrixOperation core s) := by
  simp only [Machine.execMatrixOperation]
  split
  · exact h.update
  · exact h

theorem Inv.noteMOp {o : MOp} (ht : Inv t) : Inv (noteMOp s t o) := ht.foldl (fun ht => ht.setGroup)

theorem Inv.execMatrixCompletion {core : Nat} (h : Inv s) : ResultInv (execMatrixCompletion core s) := by
  simp only [Machine.execMatrixCompletion]
  split
  · exact .ite h.update.performMOp.noteMOp h
  · exact h

/-! ### Contexts -/

theorem Inv.setQueue {q : Nat} {r : QRun} (h : Inv s) : Inv (s.setQueue q r) := h.update

theorem Inv.leaveLane {q : Nat} (h : Inv s) : Inv (leaveLane s q) := h.update

theorem Inv.queueFault {q fcode : Nat} {finfo : Dword} (h : Inv s) : Inv (queueFault s q fcode finfo) :=
  h.qcbPut.setQueue.leaveLane.forgetBad.update.notify

theorem Inv.frontAccess {q va : Nat} {need : Need} (h : Inv s) : ErrorInv (frontAccess s q va need) := by
  simp only [Machine.frontAccess]
  split
  · split
    · split
      next s' e => exact h.directoryStep.wait e
      · exact h.dropRemote.queueFault
      · exact h.dropRemote
    · trivial
  · exact (Inv.ite h.postFault h).queueFault

theorem Inv.frontRead {q : Nat} {ps : List (Nat × Nat)} (h : Inv s) : ErrorInv (frontRead s q ps) := by
  induction ps with
  | nil => trivial
  | cons p ps ih =>
    have hrest (here : List Byte) : ErrorInv (match Machine.frontRead s q ps with
        | .ok bs => .ok (here ++ bs)
        | .error t => .error t) := by
      split
      · trivial
      next t e => exact ih.error e
    unfold Machine.frontRead
    split
    next t e => exact h.frontAccess.error e
    · extract_lets rest va64
      split
      · split
        next t e => exact h.remoteStep.wait e
        · exact h.dropRemote.queueFault
        · split
          · exact h.dropRemote.queueFault
          · exact hrest _
      · split
        · exact hrest _
        · split
          · exact h.queueFault
          · exact hrest _

theorem Inv.frontBytes {q va n : Nat} (h : Inv s) : ErrorInv (frontBytes s q va n) := h.frontRead

theorem Inv.placeStoreBy {w : Writer} {a : Acc} {size : Nat} {v : Dword} (h : Inv s) :
    Inv (placeStoreBy w s a size v) := by
  simp only [Machine.placeStoreBy]
  split
  · exact h.issueRemote
  · split
    · split
      · exact h.issueRemote
      · exact h
    · exact .ite h.regStore (.ite h.performBytesBy.sureWrites h.performBytesBy)

theorem Inv.placeStore {a : Acc} {size : Nat} {v : Dword} (h : Inv s) : Inv (placeStore s a size v) :=
  h.placeStoreBy

theorem Inv.pinPage {gpn : Nat} {up : Bool} (h : Inv s) : Inv (pinPage s gpn up) := .ite h.performBytes h

theorem Inv.pinCount {ps : List Pin} {up : Bool} (h : Inv s) : Inv (pinCount s ps up) :=
  h.foldl (fun ht => .ite ht.pinPage ht)

theorem Inv.setLaunch {i : Nat} {l : Launch} (h : Inv s) : Inv (s.setLaunch i l) := h.update

theorem Inv.finishLaunch {li : Nat} (h : Inv s) : Inv (finishLaunch s li) := by
  simp only [Machine.finishLaunch]
  split
  · exact h
  · refine Inv.setQueue ?_
    split
    · exact h.setLaunch.update.placeStore.update.pinCount
    · exact h.setLaunch

theorem Inv.dropSleeper {gi : Nat} (h : Inv s) : Inv (dropSleeper s gi) := h.update

theorem Inv.finishTeam {launch team : Nat} (h : Inv s) : Inv (finishTeam s launch team) :=
  .ite h h.dropLocal.setTeam.update

theorem Inv.removeGroup {gi : Nat} (h : Inv s) : Inv (removeGroup s gi) :=
  h.dropSleeper.dropWaiter.forgetBad.update.setGroup

theorem Inv.endGroup {gi : Nat} (h : Inv s) : Inv (endGroup s gi) :=
  (h.removeGroup.loseLatches.finishTeam.saveStore.foldl (fun ht => ht.ungateLeft)).finishLaunch

theorem Inv.breakComm {c : Cmd} (h : Inv s) : Inv (breakComm s c) := .ite h.regSet h

theorem Inv.cancelCmd {c : Cmd} (h : Inv s) : Inv (cancelCmd s c) :=
  (h.breakComm.pinCount.foldl (fun ht => ht.regSet)).update

theorem Inv.loseStores {gi : Nat} (h : Inv s) : Inv (loseStores s gi) := h.filterDirty.performDirty

theorem Inv.killGroup {gi : Nat} (h : Inv s) : Inv (killGroup s gi) :=
  h.loseStores.dropPlaces.removeGroup.loseLatches.finishTeam

theorem Inv.killContext {asid : Nat} (h : Inv s) : Inv (killContext s asid) :=
  ((((h.update.foldl (fun ht => ht.pinCount)).foldl (fun ht => ht.cancelCmd)).foldl
    (fun ht => ht.killGroup)).foldl (fun ht => ht.queueFault)).postFault

/-! ### System instructions -/

theorem Inv.execSgetr {d : BitVec 6} {r : BitVec 8} (h : Inv s) : ResultInv (execSgetr d r s) :=
  h.strandFree (.ite h.trapCode (.ite h h.wb))

theorem Inv.setQbind {n : Nat} {v : Dword} (h : Inv s) : Inv (setQbind s n v) :=
  .ite h.trapCode (.ite h.trapCode (.ite h h.setGrp.advance))

theorem Inv.writeSpecial {n : Nat} {v : Dword} (h : Inv s) : Inv (writeSpecial s n v) := by
  simp only [Machine.writeSpecial]
  split
  · exact .ite h.trapCode h.setFmt.advance
  · exact .ite h.trapCode h.setAxis.advance
  · exact .ite h.trapCode h.setAxis.advance
  · exact .ite h.trapCode h.setAxis.advance
  · exact .ite h.trapCode h.setAxis.advance
  · exact .ite h.trapCode h.setGrp.advance
  · exact .ite h.trapCode h.setGrp.advance
  · exact .ite h.trapCode h.setGrp.advance
  · exact .ite h.trapCode h.setGrp.advance
  · exact .ite h.trapCode h.setGrp.advance
  · exact .ite h.setQbind h.trapCode

theorem Inv.execSsetr {a : BitVec 6} {r : BitVec 8} (h : Inv s) : ResultInv (execSsetr a r s) :=
  h.strandSerial (.ite h.trapCode (.ite h.trapCode h.writeSpecial))

theorem Inv.execSend (h : Inv s) : ResultInv (execSend s) :=
  h.strandSerial (h.mwaitThen (fun ht => .ite ht (.ite ht.pub ht.pub.dropPlaces.endGroup)))

theorem Inv.execShalt (h : Inv s) : ResultInv (execShalt s) :=
  h.strandSerial (.ite h.trapCode (h.mwaitThen (fun ht => ht.advance.saveGroup)))

theorem Inv.readRecord {va : Dword} {n : Nat} (h : Inv s) : RecordInv (readRecord s va n) := by
  induction n generalizing s va with
  | zero => exact h
  | succ n ih =>
    have hcons (v : Dword) {s1 : State} (h1 : Inv s1) : RecordInv (match Machine.readRecord s1 (va + 8) n with
        | .ok vs s2 => .ok (v :: vs) s2
        | r => r) := by
      split
      next vs s2 e => exact (ih h1).ok e
      · exact ih h1
    unfold Machine.readRecord
    extract_lets cons
    split
    · exact hcons _ h
    · split
      · trivial
      · split
        · split
          next t e => exact h.directoryStep.wait e
          · trivial
          · exact h.dropRemote
        · split
          · split
            next t e => exact h.noteAccess.remoteStep.wait e
            · trivial
            · split
              · trivial
              · exact hcons _ h
          · split
            · exact hcons _ h
            · split
              next v s1 e => exact hcons _ (h.noteAccess.loadClean.some e)
              · trivial

theorem Inv.srftReturn {r : List Dword} (h : Inv s) : Inv (srftReturn s r) := .ite h.fatal h.setGrp

theorem Inv.execSrft (h : Inv s) : ResultInv (execSrft s) := by
  simp only [Machine.execSrft]
  refine Inv.strandSerial h ?_
  split
  · exact h.trapCode
  · split
    · exact .ite h.dropRemote.park h.dropRemote.formatRecord.fatal
    next s1 e => exact h.readRecord.wait e
    next r s1 e => exact (h.readRecord.ok e).dropRemote.srftReturn

/-! ### Work queues -/

theorem Inv.addSent {k n : Nat} (h : Inv s) : Inv (addSent s k n) := h.update

theorem Inv.addRecv {k n : Nat} (h : Inv s) : Inv (addRecv s k n) := h.update

theorem Inv.wakeSleeper {q g : Nat} (h : Inv s) : Inv (wakeSleeper q s g) := h.setGroup

theorem Inv.wakeSleepers {q n : Nat} (h : Inv s) : Inv (wakeSleepers s q n) := h.foldl (fun ht => ht.wakeSleeper)

theorem Inv.putRecord {a : Nat} {r : List Dword} (h : Inv s) : Inv (putRecord s a r) := h.performDwords

theorem Inv.putRecords {i c : Nat} {rs : List (List Dword)} (h : Inv s) : Inv (putRecords s i c rs) := by
  induction rs generalizing s c with
  | nil => exact h
  | cons r rs ih => exact ih h.putRecord

theorem Inv.appendRecords {q : Nat} {rs : List (List Dword)} (h : Inv s) : Inv (appendRecords s q rs) :=
  h.putRecords.qcbSetField.addSent.wakeSleepers

theorem Inv.applyTail {q : Nat} {t : Word} (h : Inv s) : Inv (applyTail s q t) := by
  refine .ite (.ite (Inv.queueFault ?_) ?_) h
  all_goals exact .ite h.qcbSetField.addSent.wakeSleepers h.qcbSetField

theorem Inv.execTailWrite {qid : Nat} {t : Word} (h : Inv s) : ResultInv (execTailWrite qid t s) :=
  .ite h.applyTail h

theorem Inv.runQueue {q : Nat} (h : Inv s) : Inv (runQueue s q) :=
  .ite h.qcbPut.setQueue.wakeSleepers h.qcbPut.setQueue

theorem Inv.execQcbStateRun {qid : Nat} (h : Inv s) : ResultInv (execQcbStateRun qid s) := .ite h.runQueue h

theorem Inv.execWpopReread {qid : Nat} (h : Inv s) : ResultInv (execWpopReread qid s) := .ite h.wakeSleepers h

theorem Inv.workTest {v : Dword} (h : Inv s) : OptionInv (workTest s v) := by
  simp only [Machine.workTest]
  split
  · exact h.trapCode
  · split
    · exact h.trapCode
    · trivial

theorem Inv.sleepOn {q : Nat} (h : Inv s) : Inv (sleepOn s q) := (Inv.ite h h.update).setGrp

theorem Inv.wpopEnter {r : List Dword} (h : Inv s) : Inv (wpopEnter s r) := h.ref.codeRef.setGrp

theorem Inv.consumeRecord {q : Nat} (h : Inv s) : Inv (consumeRecord s q) := h.performUnit.qcbSetField.addRecv

theorem Inv.wpopLook {q : Nat} (h : Inv s) : Inv (wpopLook s q) := by
  have h1 {g : Group} : Inv ((Machine.dropSleeper s s.cur.grp).setGrp g) := h.dropSleeper.setGrp
  exact .ite h.sleepOn (.ite h1.trapCode (h1.landAt (fun ht => ht.consumeRecord.wpopEnter)))

theorem Inv.execWpop {a : BitVec 6} (h : Inv s) : ResultInv (execWpop a s) := by
  simp only [Machine.execWpop]
  refine Inv.strandSerial h ?_
  split
  · exact h.trapCode
  · split
    · exact h.wpopLook
    · exact h
    · split
      next s1 e => exact h.workTest.some e
      · exact .ite h.setGrp.pub.wpopLook h.setGrp.pub

/-- The words of a record's source, each loaded in the state that the load before it left. -/
theorem Inv.postWords {ks : List Nat} {a : Acc} {r : Option (List Dword × State)} (h : ∀ x, r = some x → Inv x.2)
    {x : List Dword × State} (e : ks.foldl (fun (p : Option (List Dword × State)) k =>
      p.bind (fun p => (Machine.coherentClean p.2 p.2.cur.grp { a with loc := a.loc + 8 * k } 8 (30 + k)).map (fun r =>
        (p.1 ++ [r.1], r.2)))) r = some x) : Inv x.2 := by
  induction ks generalizing r with
  | nil => exact h x e
  | cons k ks ih =>
    refine ih ?_ e
    intro y hy
    obtain ⟨p, hp, hy⟩ := Option.bind_eq_some_iff.mp hy
    obtain ⟨w, hw, rfl⟩ := Option.map_eq_some_iff.mp hy
    exact (h p hp).coherentClean.some hw

theorem Inv.postSource {va : Dword} {a : Acc} (h : Inv s) : SourceInv (postSource s va a) := by
  unfold Machine.postSource
  split
  · exact h.askDirectory
  · split
    · split
      next s' e => exact h.noteAccess.remoteStep.wait e
      · exact h.remoteTrap
      · split
        · exact h.strandTrapAfter (fun ht => ht.dropOwn)
        · exact h.dropRemote
    · split
      · exact h
      · split
        next r e =>
          refine Inv.postWords ?_ e
          rintro x ⟨⟩
          exact h.noteAccess
        · exact h.strandTrap

theorem Inv.execWpost {d a b : BitVec 6} (h : Inv s) : ResultInv (execWpost d a b s) := by
  simp only [Machine.execWpost]
  refine Inv.strandSerial h ?_
  split
  next s1 e => exact h.workTest.some e
  · split
    · exact h.strandTrap
    · split
      · exact h.strandFault
      · split
        · exact h.pub
        · split
          next t e => exact h.pub.postSource.error e
          next r s1 e =>
            split
            · exact (h.pub.postSource.ok e).wb
            · exact .ite (h.pub.postSource.ok e).wb (h.pub.postSource.ok e).appendRecords.wb

theorem Inv.execTdet {d a : BitVec 6} (h : Inv s) : ResultInv (execTdet d a s) := by
  simp only [Machine.execTdet]
  refine Inv.strandSerial h ?_
  split
  · exact h.trapCode
  · split
    · exact h.setGrp
    · split
      · exact h.setGrp.wb
      · exact h

theorem Inv.execTdetSecondSample {g : Nat} (h : Inv s) : ResultInv (execTdetSecondSample g s) := by
  simp only [Machine.execTdetSecondSample]
  split
  · exact h.setGroup
  · exact h

/-! ### The front end -/

theorem Inv.keepEntry {q : Nat} {p : Place} {e : Entry} (h : Inv s) : Inv (keepEntry s q p e) := h.setQueue

theorem Inv.ringFetch {q c : Nat} (h : Inv s) : FetchedInv (ringFetch s q c) := by
  simp only [Machine.ringFetch]
  split
  · trivial
  · split
    · exact h.queueFault
    · split
      · trivial
      · trivial

theorem Inv.bufferFetch {q va : Nat} (h : Inv s) : FetchedInv (bufferFetch s q va) := by
  simp only [Machine.bufferFetch]
  split
  · exact h.queueFault
  · split
    next t e => exact h.frontAccess.error e
    · split
      · trivial
      · split
        next t e => exact h.frontRead.error e
        · trivial

theorem Inv.fetchPlace {q : Nat} {p : Place} (h : Inv s) : FetchedInv (fetchPlace s q p) := by
  simp only [Machine.fetchPlace]
  split
  · trivial
  · split
    · exact h.ringFetch
    · exact h.bufferFetch

theorem Inv.fetchEntry {q j : Nat} (h : Inv s) : FetchedInv (fetchEntry s q j) := by
  simp only [Machine.fetchEntry]
  split
  · exact h.fetchPlace
  · trivial

theorem Inv.consumeRing {q k : Nat} (h : Inv s) : Inv (consumeRing s q k) := by
  induction k generalizing s with
  | zero => exact h
  | succ k ih => exact ih h.performUnit.setQueue.qcbSetField

theorem Inv.setFrames {q : Nat} {fs : List QFrame} (h : Inv s) : Inv (setFrames s q fs) := h.setQueue

theorem Inv.passFrom {q k : Nat} {fs : List QFrame} (h : Inv s) : Inv (passFrom s q fs k) := by
  induction fs generalizing k with
  | nil => exact h.setFrames.consumeRing
  | cons f fs ih =>
    cases f with
    | ib next left => exact .ite ih h.setFrames
    | loop start len left pos => exact .ite h.setFrames (.ite h.setFrames.consumeRing (.ite h.setFrames ih))

theorem Inv.passOver {q k : Nat} (h : Inv s) : Inv (passOver s q k) := h.dropRemote.dropRemote.setQueue.passFrom

theorem Inv.countPacket {q : Nat} (h : Inv s) : Inv (countPacket s q) := h.update

theorem Inv.passed {q k : Nat} (h : Inv s) : Inv (passed s q k) := h.countPacket.passOver

theorem Inv.waitQueue {q : Nat} (h : Inv s) : Inv (waitQueue s q) := h.dropRemote.dropRemote.leaveLane.setQueue

theorem Inv.frontSettled {q : Nat} (h : Inv s) : OptionInv (frontSettled s q) := by
  simp only [Machine.frontSettled]
  split
  · split
    · exact h
    · trivial
  · split
    · exact h.update.queueFault
    · exact h.update.queueFault
    · exact h

theorem Inv.packet {e : Entry} {ok : Bool} {k : State → Nat → State}
    (h : Inv s) (hk : ∀ {t x1}, Inv t → Inv (k t x1)) : ResultInv (packet s e ok k) := by
  simp only [Machine.packet]
  split
  · exact h.update.queueFault
  · split
    next s1 e => exact h.update.frontSettled.some e
    · exact .ite h.update.setQueue.leaveLane (hk h.update)

theorem Inv.contextPacket {e : Entry} {ok : Bool} {k : State → Nat → State}
    (h : Inv s) (hk : ∀ {t x1}, Inv t → Inv (k t x1)) : ResultInv (contextPacket s e ok k) :=
  h.packet (fun ht => .ite (hk ht) ht.queueFault)

theorem Inv.execNop {e : Entry} (h : Inv s) : ResultInv (execNop e s) := h.packet (fun ht => ht.passed)

theorem Inv.execFetchfence {e : Entry} (h : Inv s) : ResultInv (execFetchfence e s) :=
  h.packet (fun ht => ht.setQueue.passed)

theorem Inv.execIb {e : Entry} (h : Inv s) : ResultInv (execIb e s) :=
  h.contextPacket (fun ht => .ite ht.queueFault ht.dropRemote.dropRemote.countPacket.setFrames)

theorem Inv.execLoop {e : Entry} (h : Inv s) : ResultInv (execLoop e s) := by
  simp only [Machine.execLoop]
  refine Inv.packet h ?_
  intro t x ht
  split
  · exact ht.passed.setFrames
  · exact .ite ht.queueFault ht.passed.setFrames
  · exact ht.queueFault

theorem Inv.execPred {e : Entry} (h : Inv s) : ResultInv (execPred e s) := by
  simp only [Machine.execPred]
  refine Inv.contextPacket h ?_
  intro t x ht
  split
  next t e => exact ht.frontBytes.error e
  · exact .ite ht.passed ht.passed.setQueue

theorem Inv.watchWord {q : Nat} {e : Entry} (h : Inv s) : Inv (watchWord s q e) := by
  simp only [Machine.watchWord]
  split
  next t e => exact h.frontAccess.error e
  · exact .ite h.update.waitQueue h.update.update.waitQueue

theorem Inv.waitmemLook {q : Nat} {e : Entry} (h : Inv s) : Inv (waitmemLook s q e) := by
  simp only [Machine.waitmemLook]
  split
  next t e => exact h.frontBytes.error e
  · exact .ite h.update.passed h.watchWord

theorem Inv.execWaitmem {e : Entry} (h : Inv s) : ResultInv (execWaitmem e s) :=
  h.contextPacket (fun ht => ht.waitmemLook)

theorem Inv.onQueue {q : Nat} (h : Inv s) : Inv (onQueue s q) := h.update

theorem Inv.execWaitmemReread {qid : Nat} (h : Inv s) : ResultInv (execWaitmemReread qid s) := by
  simp only [Machine.execWaitmemReread]
  split
  · exact h
  · split
    · split
      · exact h.onQueue.execWaitmem
      · exact h
    next t e => exact h.onQueue.fetchEntry.stop e
    · exact h

theorem Inv.post {q : Nat} (h : Inv s) : Inv (post s q) := h.setQueue

theorem Inv.execWritemem {e : Entry} (h : Inv s) : ResultInv (execWritemem e s) := by
  simp only [Machine.execWritemem]
  refine Inv.contextPacket h ?_
  intro t x ht
  split
  · exact ht.passed
  · split
    next t e => exact ht.frontAccess.error e
    · exact .ite ht.placeStore.passed ht.placeStore.post

theorem Inv.signalDone {q : Nat} {e : Entry} (h : Inv s) : Inv (signalDone s q e) :=
  .ite h.passed.notify h.passed

theorem Inv.execSignal {e : Entry} (h : Inv s) : ResultInv (execSignal e s) := by
  simp only [Machine.execSignal]
  refine Inv.contextPacket h ?_
  intro t x ht
  split
  · exact ht.signalDone
  · split
    next t e => exact ht.frontAccess.error e
    · split
      · split
        next s' e => exact ht.remoteStep.wait e
        · exact ht.dropRemote.queueFault
        · exact .ite ht.dropRemote.queueFault ht.signalDone
      · split
        · exact ht.regStore.post
        · exact .ite ht.queueFault (.ite ht.performUnit.signalDone ht.performUnit.post)

theorem Inv.feedRun {q : Nat} {e : Entry} (h : Inv s) : Inv (feedRun s q e) := by
  simp only [Machine.feedRun]
  split
  · exact h.queueFault
  · split
    · exact h.waitQueue
    · split
      next t e => exact h.frontBytes.error e
      · exact h.appendRecords.passed

theorem Inv.execFeed {e : Entry} (h : Inv s) : ResultInv (execFeed e s) := h.contextPacket (fun ht => ht.feedRun)

theorem Inv.execFeedRoom {qid : Nat} (h : Inv s) : ResultInv (execFeedRoom qid s) := by
  simp only [Machine.execFeedRoom]
  split
  · exact h
  · split
    · split
      · exact h.onQueue.execFeed
      · exact h
    next t e => exact h.onQueue.fetchEntry.stop e
    · exact h

theorem Inv.acceptLaunch {q c d : Nat} {e f : Entry} {pin : Option Pin} (h : Inv s) :
    Inv (acceptLaunch s q c d e f pin) := by
  simp only [Machine.acceptLaunch]
  split
  · exact h
  · exact h.update.pinCount.setQueue.finishLaunch.passed

theorem Inv.launchCaddr {q : Nat} {e : Entry} {k : Option Pin → State} (h : Inv s) (hk : ∀ {x0}, Inv (k x0)) :
    Inv (launchCaddr s q e k) := by
  simp only [Machine.launchCaddr]
  split
  · exact hk
  · split
    next t e => exact h.frontAccess.error e
    · exact .ite h hk

theorem Inv.launchRun {q : Nat} {e f : Entry} (h : Inv s) : Inv (launchRun s q e f) := by
  simp only [Machine.launchRun]
  split
  · exact h.launchCaddr h.acceptLaunch
  · split
    next t e => exact h.frontBytes.error e
    · exact h.launchCaddr (.ite h.queueFault (.ite h.queueFault (.ite h.queueFault h.acceptLaunch)))

theorem Inv.execLaunch {e0 e1 : Entry} (h : Inv s) : ResultInv (execLaunch e0 e1 s) :=
  h.contextPacket (fun ht => ht.launchRun)

/-! ### Requests of the driver -/

theorem Inv.completeRequest {e : Entry} {st : Nat} (h : Inv s) : Inv (completeRequest s e st) :=
  h.performUnit.performUnit

theorem Inv.finishRequest {q : Nat} {e : Entry} {st : Nat} (h : Inv s) : Inv (finishRequest s q e st) :=
  h.completeRequest.passed

theorem Inv.request {e : Entry} {ok : Bool} {k : State → Nat → State}
    (h : Inv s) (hk : ∀ {t x1}, Inv t → Inv (k t x1)) : ResultInv (request s e ok k) :=
  .ite h.update.queueFault (.ite h.update.finishRequest (hk h.update))

theorem Inv.boundRequest {e : Entry} {ok : Bool} {k : State → Nat → State}
    (h : Inv s) (hk : ∀ {t x1}, Inv t → Inv (k t x1)) : ResultInv (boundRequest s e ok k) :=
  h.request (fun ht => .ite (hk ht) ht.finishRequest)

theorem Inv.badRequest {e : Entry} (h : Inv s) : ResultInv (badRequest e s) := h.request (fun ht => ht)

theorem Inv.sweepRange {asid lo len : Nat} {g : Bool} (h : Inv s) : Inv (sweepRange s asid lo len g) := h.update

theorem Inv.fireMonitors {p : Monitor → Bool} (h : Inv s) : Inv (fireMonitors s p) :=
  h.foldl (fun ht => ht.fireMonitor)

theorem Inv.sweepRequest {e : Entry} (h : Inv s) : Inv (sweepRequest s e) := h.sweepRange

theorem Inv.execTlbinv {e : Entry} (h : Inv s) : ResultInv (execTlbinv e s) :=
  h.boundRequest (fun ht => ht.sweepRequest.update.passed)

/-- The older values that a renaming keeps keep their stamps. -/
theorem Inv.renameUnits {f : Renaming} (h : Inv s) : Inv (renameUnits s f) := by
  refine (h.setHist (hs := s.hist.filterMap (fun h => (f h.unit).map (fun u => { h with unit := u }))) ?_).update
  intro y hy
  obtain ⟨x, hx, hy⟩ := List.mem_filterMap.mp hy
  obtain ⟨u, -, rfl⟩ := Option.map_eq_some_iff.mp hy
  exact h.history x hx

theorem Inv.moveUnits {src dst n : Nat} {skip : Nat → Bool} (h : Inv s) : Inv (moveUnits s src dst n skip) :=
  .ite h (h.renameUnits.setMem (memWrite_foldl_wf h.memory))

theorem Inv.remoteLines {pc : Dword} {dpa n : Nat} (h : Inv s) : RemoteInv (remoteLines s pc dpa n) := by
  induction n with
  | zero => trivial
  | succ n ih =>
    unfold Machine.remoteLines
    split
    · split
      · trivial
      · exact h.remoteStep
    · exact ih

theorem Inv.putMarked {loc bad : Nat} {bs : List Byte} (h : Inv s) : Inv (putMarked s loc bad bs) :=
  h.renameUnits.setMem (memWrite_foldl_wf h.memory)

theorem Inv.copyPage {pc : Dword} {a b : Acc} {size : Nat} {skip : Nat → Bool} (h : Inv s) :
    CopyInv (copyPage s pc a b size skip) := by
  simp only [Machine.copyPage]
  split
  · exact h
  · split
    · exact h.moveUnits
    · split
      · exact h.foldl (fun ht => ht.issueRemote)
      · split
        next s' e => exact h.remoteLines.wait e
        · trivial
        · split
          · exact h.dropRemote.foldl (fun ht => ht.putMarked)
          · exact h.dropRemote.foldl (fun ht => ht.issueRemote)

theorem Inv.rewriteLeaves {addr old new : Nat} (h : Inv s) : Inv (rewriteLeaves s addr old new) :=
  .ite (h.foldl (fun ht => ht.performUnit)) h.performUnit

theorem Inv.dropCopy {pc : Dword} (h : Inv s) : Inv (dropCopy s pc) := h.update

theorem Inv.dropMix {m : AttrMix} {l : Nat} (h : Inv s) : Inv (dropMix s m l) := h.update

theorem Inv.settleLine {asid : Nat} {m : AttrMix} {l : Nat} (h : Inv s) : Inv (settleLine s asid m l).1 := by
  simp only [Machine.settleLine]
  split
  · exact h.dropMix
  · split
    · exact h
    · split
      · exact h.dropCopy.dropMix
      · split
        next t e => exact (h.performDirty.copyPage.made e).dropMix
        · exact h.dropCopy.dropMix
        next t e => exact h.performDirty.copyPage.wait e
        next t e => exact h.performDirty.copyPage.sent e

theorem Inv.settleMix {asid lo len fuel : Nat} (h : Inv s) : Inv (settleMix s asid lo len fuel).1 := by
  induction fuel generalizing s with
  | zero => exact h
  | succ fuel ih =>
    unfold Machine.settleMix
    split
    · exact h
    next m l _ _ =>
      split
      next t e => exact ih (h.settleLine.fst e)
      · exact h.settleLine

theorem Inv.finishAttr {asid va addr level old new : Nat} {a : Acc} {kept : List Nat} (h : Inv s) :
    Inv (finishAttr s asid va addr level old new a kept) :=
  h.rewriteLeaves.sweepRange.update.fireMonitors

theorem Inv.transition {asid va addr level old new : Nat} (h : Inv s) :
    AttrInv (transition s asid va addr level old new) := by
  simp only [Machine.transition]
  split
  next t e0 => exact h.settleMix.fst e0
  next s0 e0 =>
    have h0 : Inv s0 := h.settleMix.fst e0
    split
    · exact h0.performDirty.finishAttr
    · split
      next s2 e => exact (h0.performDirty.copyPage.made e).finishAttr
      next t e => exact h0.performDirty.copyPage.wait e
      · exact h.dropRemote
      next t e => exact h0.performDirty.copyPage.sent e

theorem Inv.sentTransition {asid va addr level old new : Nat} {kept : List Nat} {since : Nat} (h : Inv s) :
    AttrInv (sentTransition s asid va addr level old new kept since) := by
  simp only [Machine.sentTransition]
  split
  · exact h
  · split
    · exact h.dropCopy
    · exact h.dropCopy.finishAttr

/-- The first state that a search answers meets the invariant when each that it may answer does. -/
theorem OptionInv.firstSome {α : Type} {f : α → Option State} {xs : List α} (hf : ∀ x, OptionInv (f x)) :
    OptionInv (firstSome f xs) := by
  induction xs with
  | nil => trivial
  | cons x xs ih =>
    unfold Machine.firstSome
    split
    next t e => exact (hf x).some e
    · exact ih

theorem Inv.attrDirectory {va level old new : Nat} (h : Inv s) : OptionInv (attrDirectory s va level old new) := by
  refine OptionInv.firstSome fun e => ?_
  extract_lets x
  split
  · split
    next t e => exact h.directoryStep.wait e
    · exact h.dropRemote
  · trivial

theorem Inv.tryAttr {e : Entry} {r : Option PendReq} (h : Inv s) : AttrInv (tryAttr s e r) := by
  simp only [Machine.tryAttr]
  split
  · exact h
  · split
    · split
      · exact h
      · exact h
    · split
      · exact h.sentTransition
      · split
        · exact h
        · split
          · exact h
          · split
            next s1 e => exact h.attrDirectory.some e
            · exact h.transition

theorem Inv.attrFault {q : Nat} {e : Entry} (h : Inv s) : Inv (attrFault s q e) := h.postFault.queueFault

theorem Inv.pendAttrs {q : Nat} {e : Entry} {sent : Bool} {kept : List Nat} (h : Inv s) :
    Inv (pendAttrs s q e sent kept) :=
  h.update

theorem Inv.execPgattr {e : Entry} (h : Inv s) : ResultInv (execPgattr e s) := by
  simp only [Machine.execPgattr]
  refine Inv.boundRequest h ?_
  intro t x ht
  split
  next s1 st e => exact (ht.tryAttr.over e).finishRequest
  next t e => exact (ht.tryAttr.bad e).attrFault
  next t e => exact (ht.tryAttr.wait e).pendAttrs.passed
  next t kept e => exact (ht.tryAttr.sent e).pendAttrs.passed

theorem Inv.execPgattrTransition {n : Nat} (h : Inv s) : ResultInv (execPgattrTransition n s) := by
  simp only [Machine.execPgattrTransition]
  split
  · split
    next s1 st e => exact (h.update.tryAttr.over e).update.forgetBad.completeRequest
    next t e => exact (h.update.tryAttr.bad e).update.attrFault
    next t e => exact (h.update.tryAttr.wait e).update
    next t kept e => exact (h.update.tryAttr.sent e).update
  · exact h

theorem Inv.execTlbinvCompletion {n : Nat} (h : Inv s) : ResultInv (execTlbinvCompletion n s) := by
  simp only [Machine.execTlbinvCompletion]
  split
  · split
    · exact h
    · split
      next t e => exact h.update.settleMix.fst e
      next s0 e => exact (h.update.settleMix.fst e).sweepRequest.update.completeRequest
  · exact h

theorem Inv.setAsid {asid v : Nat} (h : Inv s) : Inv (setAsid s asid v) := h.regSet

theorem Inv.execAsidBind {e : Entry} (h : Inv s) : ResultInv (execAsidBind e s) :=
  h.request (fun ht => .ite ht.finishRequest ht.setAsid.finishRequest)

theorem Inv.dropAttrs {asid : Nat} (h : Inv s) : Inv (dropAttrs s asid) :=
  h.update.foldl (fun ht => ht.completeRequest)

theorem Inv.execAsidRetire {e : Entry} (h : Inv s) : ResultInv (execAsidRetire e s) :=
  h.boundRequest (fun ht => .ite ht.finishRequest ht.setAsid.sweepRange.fireMonitors.dropAttrs.setAsid.finishRequest)

theorem Inv.execResume {e : Entry} (h : Inv s) : ResultInv (execResume e s) := by
  simp only [Machine.execResume]
  refine Inv.boundRequest h ?_
  intro t x ht
  split
  · exact ht.setGroup.finishRequest
  · exact ht.finishRequest

theorem Inv.execResumeCmd {e : Entry} (h : Inv s) : ResultInv (execResumeCmd e s) := by
  simp only [Machine.execResumeCmd]
  refine Inv.boundRequest h ?_
  intro t x ht
  split
  · exact ht.update.finishRequest
  · exact ht.finishRequest

/-! ### Migration -/

theorem Inv.dirPut {gpn e : Nat} (h : Inv s) : Inv (dirPut s gpn e) := h.performDwords

theorem Inv.dirSet {gpn hi lo v : Nat} (h : Inv s) : Inv (dirSet s gpn hi lo v) := h.dirPut

theorem Inv.addSharer {gpn pkg : Nat} (h : Inv s) : Inv (addSharer s gpn pkg) := h.performBytes

theorem Inv.migrateStep {gpn target : Nat} (h : Inv s) : Inv (migrateStep s gpn target).2 := by
  simp only [Machine.migrateStep]
  split
  · exact h
  · split
    · exact h
    · exact h.dirSet.dirSet.update

theorem Inv.atDirectory {va : Dword} {gpn : Nat} {op : RemOp} {here : State → State} {k : State → Dword → State}
    (h : Inv s) (hhere : ∀ {t}, Inv t → Inv (here t)) (hk : ∀ {t x1}, Inv t → Inv (k t x1)) :
    Inv (atDirectory s va gpn op here k) := by
  simp only [Machine.atDirectory]
  split
  · exact hhere h
  · split
    next s' e => exact h.remoteStep.wait e
    · exact h.remoteTrap
    · exact .ite (h.strandTrapAfter (fun ht => ht.dropOwn.formatRecord)) (hk h.dropRemote)

theorem Inv.resolvedPage {va : Dword} {x : Acc} {early : Option State} {k : State}
    (h : Inv s) (hearly : OptionInv early) (hk : Inv k) : Inv (resolvedPage s va x early k) := by
  unfold Machine.resolvedPage
  split
  · split
    next s' e => exact h.directoryStep.wait e
    · cases early with
      | none => exact h.remoteTrap
      | some t => exact Inv.dropOwn hearly
    · exact h.dropRemote
  · exact hk

theorem Inv.execPgmig {d a b : BitVec 6} (h : Inv s) : ResultInv (execPgmig d a b s) := by
  simp only [Machine.execPgmig]
  refine Inv.strandSerial h ?_
  split
  · exact h.trapCode
  · split
    · exact h.strandFault
    · split
      · exact h.strandTrap
      · refine h.resolvedPage ?_ (.ite h.trapCode ?_)
        rotate_left
        · exact h.noteAccess.atDirectory (fun ht => ht.migrateStep.wb) (fun ht => ht.wb)
        split
        · trivial
        · exact h.trapCode

theorem Inv.execPgqry {d a : BitVec 6} (h : Inv s) : ResultInv (execPgqry d a s) := by
  simp only [Machine.execPgqry]
  refine Inv.strandSerial h ?_
  split
  · exact h.strandFault
  · split
    · exact h.noteAccess.wb
    · exact h.resolvedPage trivial (h.noteAccess.atDirectory (fun ht => ht.wb) (fun ht => ht.wb))

theorem Inv.execDirectoryQuery {die gpn : Nat} (h : Inv s) : ResultInv (execDirectoryQuery die gpn s) :=
  .ite h (.ite h.dirQuery (.ite h.addSharer h))

theorem Inv.execRedirect {n : Nat} (h : Inv s) : ResultInv (execRedirect n s) := by
  simp only [Machine.execRedirect]
  split
  · split
    · exact .ite h h.update.update
    · exact .ite h.update (.ite h h.update.update)
  · exact h

theorem Inv.execRelay {die gpn : Nat} (h : Inv s) : ResultInv (execRelay die gpn s) := .ite h.noteMig h

theorem Inv.setMigration {m : Migration} (h : Inv s) : Inv (setMigration s m) := h.update

theorem Inv.writeTarget {d : Nat} {ds : List Dword} {bad : Nat → Bool} (h : Inv s) :
    Inv (writeTarget s d ds bad) :=
  .ite h.performDwords.update (h.foldl (fun ht => .ite ht.issueRemote.issueRemote ht.issueRemote))

theorem Inv.execCopyUnit {gpn : Nat} (h : Inv s) : ResultInv (execCopyUnit gpn s) := by
  simp only [Machine.execCopyUnit]
  split
  · exact h
  · split
    · exact h
    · split
      · exact h.update.dropRemote.writeTarget.setMigration
      · split
        next s' e => exact h.update.remoteStep.wait e
        · exact h.update.dropRemote
        · exact h.update.dropRemote.writeTarget.setMigration

theorem Inv.freeStubs {gpn fuel : Nat} (h : Inv s) : Inv (freeStubs s gpn fuel) := by
  induction fuel generalizing s with
  | zero => exact h
  | succ fuel ih =>
    unfold Machine.freeStubs
    split
    · exact .ite h (.ite (ih h.update) (ih h.dirPut.update))
    · exact h

theorem Inv.execInvalidation {gpn pkg : Nat} (h : Inv s) : ResultInv (execInvalidation gpn pkg s) :=
  .ite h.update h

theorem Inv.execAcknowledge {gpn pkg : Nat} (h : Inv s) : ResultInv (execAcknowledge gpn pkg s) := by
  simp only [Machine.execAcknowledge]
  split
  · exact .ite h h.update.freeStubs
  · exact h

theorem Inv.holdLines {m : Migration} (h : Inv s) : Inv (holdLines s m) :=
  h.setMem (memWrite_foldl_wf h.memory)

theorem Inv.dropLines {m : Migration} (h : Inv s) : Inv (dropLines s m) :=
  h.setMem (memWrite_foldl_wf (val := fun _ => 0) h.memory)

theorem Inv.switchBytes {m : Migration} (h : Inv s) : Inv (switchBytes s m) :=
  .ite h.update.holdLines (.ite h.update.dropLines h.update)

theorem Inv.releaseRows {m : Migration} (h : Inv s) : Inv (releaseRows s m) := h.update

theorem Inv.execSwitch {gpn : Nat} (h : Inv s) : ResultInv (execSwitch gpn s) := by
  simp only [Machine.execSwitch]
  split
  · exact h
  · exact .ite h h.switchBytes.releaseRows.dirPut.performDwords.update.freeStubs

end Sys2Proof.Machine
end

