-- ==== Sys2Proof/Proofs/InvariantEngines.lean ====
section
namespace Sys2Proof.Machine

variable {s t : State}

/-! ### Engines -/

theorem Inv.putCmd {c : Cmd} (h : Inv s) : Inv (putCmd s c) := h.update

theorem Inv.asCmd {id : Nat} (h : Inv s) : Inv (asCmd s id) := h.update

theorem Inv.placeWords {g q fuel : Nat} (h : Inv s) : Inv (placeWords s g q fuel) := by
  induction fuel generalizing s with
  | zero => exact h
  | succ fuel ih =>
    unfold Machine.placeWords
    split
    · exact .ite (ih (.ite h.update.setGroup h.update)) h
    · exact h

theorem Inv.arriveCmd {c : Cmd} (h : Inv s) : Inv (arriveCmd s c) :=
  .ite h (.ite h (.ite h.arriveAt h.postFault))

theorem Inv.endColl {c : Cmd} (h : Inv s) : Inv (endColl s c) := .ite h.update.regSet h

theorem Inv.completeCmd {c : Cmd} {code count : Nat} (h : Inv s) : Inv (completeCmd s c code count) :=
  h.endColl.putCmd.pinCount.forgetBad.update.setGroup.placeWords.arriveCmd

theorem Inv.failCmd {c : Cmd} {code : Nat} (h : Inv s) : Inv (failCmd s c code) := h.completeCmd

theorem Inv.submit {ws : List Dword} {start : State → Cmd → State}
    (h : Inv s) (hstart : ∀ {t x1}, Inv t → Inv (start t x1)) : ResultInv (submit s ws start) :=
  .ite h.setGroup.update.failCmd (hstart h.setGroup.update)

theorem Inv.deferCmd {c : Cmd} {va level acc : Nat} (h : Inv s) : Inv (deferCmd s c va level acc) :=
  h.forgetBad.putCmd.pinCount.postFault

theorem Inv.protCmd {c : Cmd} {va acc : Nat} {bad : Bool} (h : Inv s) : Inv (protCmd s c va acc bad) :=
  h.postFault.failCmd

theorem Inv.holdCmd {c : Cmd} (h : Inv s) : Inv (holdCmd s c) := h.putCmd.pinCount

theorem Inv.askCmd {c : Cmd} {die va : Nat} {a : Acc} (h : Inv s) : Inv (askCmd s c die va a) := by
  simp only [Machine.askCmd]
  split
  next s' e => exact h.holdCmd.asCmd.directoryStep.wait e
  · exact h.holdCmd.failCmd
  · exact h.holdCmd.asCmd.dropRemote

theorem Inv.notePin {c : Cmd} {p : Pin} (h : Inv s) : Inv (notePin s c p) := h.noteTlb.noteMig

theorem Inv.takePins {c : Cmd} {new : List Pin} {k : State → Cmd → State}
    (h : Inv s) (hk : ∀ {t x1}, Inv t → Inv (k t x1)) : Inv (takePins s c new k) :=
  .ite h.holdCmd (hk (h.update.foldl (fun ht => ht.notePin)).putCmd.pinCount)

theorem Inv.translateWith {c : Cmd} {sets : List (List Range)} {fresh : List Pin → List Pin}
    {k : State → Cmd → State} (h : Inv s) (hk : ∀ {t x1}, Inv t → Inv (k t x1)) :
    Inv (translateWith s c sets fresh k) := by
  simp only [Machine.translateWith]
  split
  · exact h.deferCmd
  · exact h.protCmd
  · exact h.holdCmd
  · exact h.askCmd
  · exact h.takePins hk

theorem Inv.translateCmd {c : Cmd} {sets : List (List Range)} {k : State → Cmd → State}
    (h : Inv s) (hk : ∀ {t x1}, Inv t → Inv (k t x1)) : Inv (translateCmd s c sets k) :=
  h.translateWith hk

theorem Inv.extendCmd {c : Cmd} {set : List Range} {k : State → Cmd → State}
    (h : Inv s) (hk : ∀ {t x1}, Inv t → Inv (k t x1)) : Inv (extendCmd s c set k) :=
  h.translateWith hk

theorem Inv.runCmd {c : Cmd} (h : Inv s) : Inv (runCmd s c) := h.putCmd

theorem Inv.cmdReady {c : Cmd} {rs : List (Nat × Nat)} (h : Inv s) : ReadyInv (cmdReady s c rs) := by
  simp only [Machine.cmdReady]
  split
  · split
    next s' e => exact h.asCmd.directoryStep.wait e
    · trivial
    · exact h.asCmd.dropRemote
  · split
    · exact h.asCmd.foldl (fun ht => ht.issueRemote)
    · split
      · exact h
      · split
        · trivial
        · split
          · trivial
          · trivial

theorem Inv.noteReads {c : Cmd} {sure : Bool} {rs : List (Nat × Nat)} (h : Inv s) : Inv (noteReads s c sure rs) :=
  h.foldl (fun ht => ht.foldl (fun hu => .ite hu hu.noteRead))

theorem Inv.cmdWrite {c : Cmd} {va : Nat} {bs : List Byte} (h : Inv s) : Inv (cmdWrite s c va bs).1 :=
  (h.asCmd.foldl (fun ht => ht.noteMig.placeStoreBy)).update

theorem Inv.cmdMark {c : Cmd} {va : Nat} (h : Inv s) : Inv (cmdMark s c va) := by
  simp only [Machine.cmdMark]
  split
  · exact h.asCmd.issueRemote.update
  · split
    · split
      · exact h.asCmd.issueRemote.update
      · exact h
    · exact .ite h h.update

theorem Inv.finishWrites {c : Cmd} {code count : Nat} (h : Inv s) : Inv (finishWrites s c code count) := h.putCmd

theorem Inv.writingStep {c : Cmd} (h : Inv s) : Inv (writingStep s c) :=
  .ite h (.ite h.completeCmd (.ite h.completeCmd (.ite h.completeCmd h.completeCmd)))

theorem Inv.completion {id : Nat} {ok : Cmd → Bool} {k : State → Cmd → State}
    (h : Inv s) (hk : ∀ {t x1}, Inv t → Inv (k t x1)) : ResultInv (completion s id ok k) := by
  simp only [Machine.completion]
  split
  · split
    · exact h
    · split
      · exact hk h
      · exact h.writingStep
      · exact h
  · exact h

/-! ### Copies -/

theorem Inv.copyStart {c : Cmd} (h : Inv s) : Inv (copyStart s c) :=
  .ite h.failCmd (.ite h.failCmd (.ite h.failCmd (h.translateCmd (fun ht => ht.runCmd))))

theorem Inv.scanOutCopies {core asid : Nat} (h : Inv s) : Inv (scanOutCopies s core asid) :=
  h.foldl (fun ht => ht.performDwords.putCmd)

theorem Inv.execCopy {w0 w1 w2 w3 w4 : Dword} (h : Inv s) : ResultInv (execCopy w0 w1 w2 w3 w4 s) :=
  (Inv.ite h.scanOutCopies h).submit (fun ht => ht.copyStart)

theorem Inv.cpWrite {c : Cmd} {off : Nat} {bs : Marked} (h : Inv s) : Inv (cpWrite s c off bs).1 := by
  simp only [Machine.cpWrite]
  split
  · exact h.storePut.foldl (fun ht => ht.markLocal)
  · exact h.cmdWrite.foldl (fun ht => ht.cmdMark)

theorem Inv.copyRun {c : Cmd} (h : Inv s) : Inv (copyRun s c) := by
  simp only [Machine.copyRun]
  split
  next t e => exact h.cmdReady.wait e
  · exact h.failCmd
  · exact h.cpWrite.finishWrites

theorem Inv.execCopyCompletion {id : Nat} (h : Inv s) : ResultInv (execCopyCompletion id s) :=
  h.completion (fun ht => ht.copyRun)

/-! ### Bags, updates and matrix-vector products -/

theorem Inv.bagStart {c : Cmd} (h : Inv s) : Inv (bagStart s c) :=
  .ite h.failCmd (.ite h.failCmd (.ite h.failCmd (h.translateCmd (fun ht => ht.runCmd))))

theorem Inv.updStart {c : Cmd} (h : Inv s) : Inv (updStart s c) :=
  .ite h.failCmd (.ite h.failCmd (h.translateCmd (fun ht => ht.runCmd)))

theorem Inv.execBag {w0 w1 w2 w3 w4 w5 w6 : Dword} (h : Inv s) : ResultInv (execBag w0 w1 w2 w3 w4 w5 w6 s) :=
  h.submit (fun ht => ht.bagStart)

theorem Inv.execUpd {w0 w1 w2 w3 w4 w5 w6 : Dword} (h : Inv s) : ResultInv (execUpd w0 w1 w2 w3 w4 w5 w6 s) :=
  h.submit (fun ht => ht.updStart)

theorem Inv.bagRun {c : Cmd} (h : Inv s) : Inv (bagRun s c) := by
  simp only [Machine.bagRun]
  split
  next t e => exact h.cmdReady.wait e
  · exact h.failCmd
  · split
    · exact h.failCmd
    · split
      next t e => exact h.cmdReady.wait e
      · exact h.failCmd
      · exact h.noteReads.cmdWrite.finishWrites

/-- R42: an atomic's write is published with its own stamp. -/
theorem Inv.atomicAdd {c : Cmd} {va g : Nat} (h : Inv s) : Inv (atomicAdd s c va g).1 := by
  simp only [Machine.atomicAdd]
  split
  · exact h.asCmd.issueRemote.update
  · split
    · exact h.regStore
    · split
      · exact h
      · exact h.performBytesBy.shutHist fun x hx => (h.performBytesBy.history x hx).1

theorem Inv.updRun {c : Cmd} (h : Inv s) : Inv (updRun s c) := by
  simp only [Machine.updRun]
  split
  next t e => exact h.cmdReady.wait e
  · exact h.failCmd
  · split
    · exact h.failCmd
    · split
      · split
        next t e => exact h.cmdReady.wait e
        · exact h.failCmd
        · exact h
      · refine Inv.finishWrites ?_
        exact h.foldlFst (p := (_, false)) (fun ht => ht.atomicAdd)

theorem Inv.execGatherCompletion {id : Nat} (h : Inv s) : ResultInv (execGatherCompletion id s) :=
  h.completion (fun ht => .ite ht.bagRun ht.updRun)

theorem Inv.ngemvHomes {c : Cmd} (h : Inv s) : Inv (ngemvHomes s c) := .ite h.failCmd h.runCmd

theorem Inv.ngemvStart {c : Cmd} (h : Inv s) : Inv (ngemvStart s c) :=
  .ite h.failCmd (.ite h.failCmd (h.translateCmd (fun ht => ht.ngemvHomes)))

theorem Inv.execNgemv {w0 w1 w2 w3 w4 w5 w6 : Dword} (h : Inv s) : ResultInv (execNgemv w0 w1 w2 w3 w4 w5 w6 s) :=
  h.submit (fun ht => ht.ngemvStart)

theorem Inv.ngemvRun {c : Cmd} (h : Inv s) : Inv (ngemvRun s c) := by
  simp only [Machine.ngemvRun]
  split
  next t e => exact h.cmdReady.wait e
  · exact h.failCmd
  · exact h.noteReads.cmdWrite.finishWrites

theorem Inv.execNgemvCompletion {id : Nat} (h : Inv s) : ResultInv (execNgemvCompletion id s) :=
  h.completion (fun ht => ht.ngemvRun)

/-! ### Searches -/

theorem Inv.putSearch {hh : Search} (h : Inv s) : Inv (putSearch s hh) := h.update.regSet

theorem Inv.dropSearch {hh : Search} (h : Inv s) : Inv (dropSearch s hh) := h.update.regSet

theorem Inv.settleSearch {hh : Search} (h : Inv s) : Inv (settleSearch s hh) := by
  simp only [Machine.settleSearch]
  split
  · exact .ite h h.dropSearch
  · exact h.dropSearch

theorem Inv.dirsReady {c : Cmd} (h : Inv s) : ReadyInv (dirsReady s c) := by
  simp only [Machine.dirsReady]
  split
  · exact h.cmdReady
  · trivial

theorem Inv.searchBegin {c : Cmd} {d : Desc} {q : List Nat} {qinv : Nat} (h : Inv s) :
    Inv (searchBegin s c d q qinv) :=
  h.runCmd.update.putSearch

theorem Inv.srchSecond {c : Cmd} {d : Desc} (h : Inv s) : Inv (srchSecond s c d) := by
  simp only [Machine.srchSecond]
  refine Inv.translateCmd h ?_
  intro t x ht
  split
  next t e => exact ht.dirsReady.wait e
  · exact ht.failCmd
  · split
    next t e => exact ht.cmdReady.wait e
    · exact ht.failCmd
    · exact .ite ht.failCmd (.ite ht.failCmd ht.searchBegin)

theorem Inv.srchFirst {c : Cmd} (h : Inv s) : Inv (srchFirst s c) := by
  simp only [Machine.srchFirst]
  split
  next t e => exact h.cmdReady.wait e
  · exact h.failCmd
  · refine Inv.extendCmd h ?_
    intro t x ht
    split
    next t e => exact ht.cmdReady.wait e
    · exact ht.failCmd
    · exact .ite ht.failCmd (.ite ht.failCmd ht.srchSecond)

theorem Inv.srchStart {c : Cmd} (h : Inv s) : Inv (srchStart s c) :=
  .ite h.failCmd (.ite h.failCmd (.ite h.holdCmd (h.translateCmd (fun ht => ht.srchFirst))))

theorem Inv.execSrch {w0 w1 w2 w3 w4 w5 : Dword} (h : Inv s) : ResultInv (execSrch w0 w1 w2 w3 w4 w5 s) :=
  h.submit (fun ht => ht.srchStart)

theorem Inv.withMsg {id : Nat} {m : SearchMsg} {k : Search → Cmd → State}
    (h : Inv s) (hk : ∀ {x0 x1}, Inv (k x0 x1)) : Inv (withMsg s id m k) := by
  simp only [Machine.withMsg]
  split
  · exact .ite hk h
  · exact h

theorem Inv.execBroadcast {id stack : Nat} (h : Inv s) : ResultInv (execBroadcast id stack s) :=
  h.withMsg h.putSearch

theorem Inv.noteNode {c : Cmd} {hh : Search} {n : Nat} (h : Inv s) : Inv (noteNode s c hh n) := by
  simp only [Machine.noteNode]
  split
  · exact h.noteReads
  · exact h

theorem Inv.execVisit {id n : Nat} (h : Inv s) : ResultInv (execVisit id n s) :=
  h.withMsg (.ite h.noteNode.putSearch h)

theorem Inv.execExpand {id : Nat} (h : Inv s) : ResultInv (execExpand id s) := by
  simp only [Machine.execExpand]
  split
  · exact h
  · exact h.withMsg (.ite h h.noteNode.putSearch)

theorem Inv.searchStop {c : Cmd} {hh : Search} (h : Inv s) : Inv (searchStop s c hh) :=
  h.putSearch.cmdWrite.finishWrites.settleSearch

theorem Inv.walkOn {c : Cmd} {hh : Search} (h : Inv s) : Inv (walkOn s c hh) := by
  simp only [Machine.walkOn]
  split
  · exact h.searchStop
  · exact .ite h.searchStop h.putSearch

theorem Inv.mergeAll {c : Cmd} {hh : Search} (h : Inv s) : Inv (mergeAll s c hh) := by
  simp only [Machine.mergeAll]
  split
  · split
    · exact h.searchStop
    · exact h.walkOn
  · exact h.walkOn

theorem Inv.gathered {c : Cmd} {hh : Search} (h : Inv s) : Inv (gathered s c hh) := .ite h.mergeAll h.putSearch

theorem Inv.execReply {id n : Nat} (h : Inv s) : ResultInv (execReply id n s) := by
  simp only [Machine.execReply]
  split
  · exact h.withMsg h.gathered
  · exact h

theorem Inv.execEndOfExpansion {id : Nat} (h : Inv s) : ResultInv (execEndOfExpansion id s) := by
  simp only [Machine.execEndOfExpansion]
  split
  · split
    · exact h.writingStep.settleSearch
    · split
      · exact h.withMsg h.gathered
      · exact h
  · exact h

/-! ### Collectives -/

theorem Inv.markBroken {c : Nat} (h : Inv s) : Inv (markBroken s c) := h.regSet

theorem Inv.collRun {c : Cmd} (h : Inv s) : Inv (collRun s c) := h.runCmd.update

theorem Inv.collStart {c : Cmd} (h : Inv s) : Inv (collStart s c) :=
  .ite h.failCmd (.ite h.failCmd (.ite h.failCmd (.ite h.failCmd (h.translateCmd (fun ht => ht.collRun)))))

theorem Inv.execAllred {w0 w1 w2 w3 w4 : Dword} (h : Inv s) : ResultInv (execAllred w0 w1 w2 w3 w4 s) :=
  h.submit (fun ht => ht.collStart)

theorem Inv.execRedscat {w0 w1 w2 w3 w4 : Dword} (h : Inv s) : ResultInv (execRedscat w0 w1 w2 w3 w4 s) :=
  h.submit (fun ht => ht.collStart)

theorem Inv.execAllgath {w0 w1 w2 w3 w4 : Dword} (h : Inv s) : ResultInv (execAllgath w0 w1 w2 w3 w4 s) :=
  h.submit (fun ht => ht.collStart)

theorem Inv.execBcast {w0 w1 w2 w3 w4 : Dword} (h : Inv s) : ResultInv (execBcast w0 w1 w2 w3 w4 s) :=
  h.submit (fun ht => ht.collStart)

theorem Inv.execCbar {w0 w1 w2 w3 w4 : Dword} (h : Inv s) : ResultInv (execCbar w0 w1 w2 w3 w4 s) :=
  h.submit (fun ht => ht.collStart)

theorem Inv.execTopkmerge {w0 w1 w2 w3 w4 : Dword} (h : Inv s) : ResultInv (execTopkmerge w0 w1 w2 w3 w4 s) :=
  h.submit (fun ht => ht.collStart)

theorem Inv.writePairs {c : Cmd} {ws : List (Nat × List Byte)} (h : Inv s) : Inv (writePairs s c ws).1 :=
  h.foldlFst (fun ht => ht.cmdWrite)

theorem Inv.collFinish {c : Cmd} (h : Inv s) : Inv (collFinish s c) := by
  simp only [Machine.collFinish]
  split
  · exact h
  · split
    · exact h
    · split
      next t e => exact h.cmdReady.wait e
      · exact h.failCmd
      · exact h.writePairs.finishWrites

theorem Inv.execCollectiveCompletion {id : Nat} (h : Inv s) : ResultInv (execCollectiveCompletion id s) :=
  h.completion (fun ht => ht.collFinish)

theorem Inv.collFail {c : Cmd} {code : Nat} (h : Inv s) : Inv (collFail s c code) := by
  simp only [Machine.collFail]
  split
  · exact h.writePairs.finishWrites
  · exact .ite h.putCmd h
  · exact h

theorem Inv.takeChunk {k : Chunk} (h : Inv s) : Inv (takeChunk s k) := by
  simp only [Machine.takeChunk]
  split
  · exact .ite h.collFail (.ite h (.ite h.update h.update))
  · exact h

theorem Inv.nextChunk {die : Nat} (h : Inv s) : Inv (nextChunk s die) := by
  simp only [Machine.nextChunk]
  split
  · exact h.update.takeChunk
  · exact h

theorem Inv.chunkArrives {k : Chunk} (h : Inv s) : Inv (chunkArrives s k) := .ite h.update h

theorem Inv.execCollectiveChunk {id off : Nat} {final : Bool} {data : ChunkData} (h : Inv s) :
    ResultInv (execCollectiveChunk id off final data s) := by
  simp only [Machine.execCollectiveChunk]
  split
  · exact h.chunkArrives.nextChunk
  · exact h

theorem Inv.execAbort {id : Nat} (h : Inv s) : ResultInv (execAbort id s) := by
  simp only [Machine.execAbort]
  split
  · split
    · exact .ite h.collFail h
    · exact h
  · split
    · exact .ite h (h.markBroken.foldl (fun ht => ht.collFail))
    · split
      · exact .ite h.collFail h
      · exact h

theorem Inv.mcSend {c : Cmd} (h : Inv s) : Inv (mcSend s c) := by
  simp only [Machine.mcSend]
  split
  next t e => exact h.dirsReady.wait e
  · exact h.failCmd
  · split
    · exact h.failCmd
    · split
      next t e => exact h.cmdReady.wait e
      · exact h.failCmd
      · exact h.runCmd.update

theorem Inv.mcastStart {c : Cmd} (h : Inv s) : Inv (mcastStart s c) :=
  .ite h.failCmd (.ite h.failCmd (h.translateCmd (fun ht => ht.mcSend)))

theorem Inv.execMcast {w0 w1 w2 w3 w4 w5 w6 : Dword} (h : Inv s) : ResultInv (execMcast w0 w1 w2 w3 w4 w5 w6 s) :=
  h.submit (fun ht => ht.mcastStart)

theorem Inv.execMcastReport {id peer : Nat} {ok : Bool} (h : Inv s) : ResultInv (execMcastReport id peer ok s) := by
  simp only [Machine.execMcastReport]
  split
  · exact .ite h (.ite h.update.completeCmd h.update.putCmd)
  · exact h

/-! ### The fabric -/

theorem Inv.execPlaneFailure {plane : BitVec 3} (h : Inv s) : ResultInv (execPlaneFailure plane s) :=
  .ite h.update h

theorem Inv.releaseHeld (h : Inv s) : Inv (releaseHeld s) := h.update

theorem Inv.execPlaneRemap {failed target : BitVec 3} (h : Inv s) : ResultInv (execPlaneRemap failed target s) :=
  .ite h (.ite (.ite h h.regSet.regSet.update.releaseHeld) h.regSet)

theorem Inv.logInbound {src addr acc : Nat} (h : Inv s) : Inv (logInbound s src addr acc) := by
  simp only [Machine.logInbound]
  split
  · exact h.postFault
  · exact h.regSet

theorem Inv.countRelay {gpn epoch : Nat} {f : Nat → Nat} (h : Inv s) : Inv (countRelay s gpn epoch f) := h.update

theorem Inv.relayBy {a : Nat} (ht : Inv t) : Inv (relayBy s a t) := by
  simp only [Machine.relayBy]
  split
  · exact ht
  · exact ht.update.countRelay

theorem Inv.relayDone {grp : Nat} (h : Inv s) : Inv (relayDone s grp) := h.countRelay.freeStubs

theorem Inv.sendAll {rs : List (Nat × RemOp)} (h : Inv s) : Inv (sendAll s rs) :=
  (h.update.foldl (fun ht => ht.issueRemote)).update

theorem Inv.inboundWrite {a : Nat} {bs : List Byte} (h : Inv s) : Inv (inboundWrite s a bs) :=
  h.foldl (fun ht => ht.performBytesBy)

theorem Inv.inboundMasked {a : Nat} {bs : List (Byte × Byte)} (h : Inv s) : Inv (inboundMasked s a bs) :=
  h.foldl (fun ht => ht.performBy)

theorem Inv.inboundAtomic {a : Nat} {t : Ty} {op : Nat} {v e : Dword} (h : Inv s) :
    Inv (inboundAtomic s a t op v e) := by
  simp only [Machine.inboundAtomic]
  split
  · exact h
  · split
    · exact h.performBytesBy
    · exact h

theorem Inv.inboundAtomics {line : Nat} {t : Ty} {op : Nat} {ps : List (Nat × Dword × Dword)} (h : Inv s) :
    Inv (inboundAtomics s line t op ps) := by
  induction ps generalizing s with
  | nil => exact h
  | cons p ps ih => exact ih h.inboundAtomic

theorem Inv.inboundMonitor {m : Monitor} (h : Inv s) : Inv (inboundMonitor s m) := .ite h h.update

theorem Inv.inboundHandle {op scope src who to_ : Nat} {hh second : Dword} (h : Inv s) :
    Inv (inboundHandle s op scope src who to_ hh second) :=
  .ite h (.ite h.setPlace (.ite h.swapAt (.ite h (.ite h.setPlace (.ite h.dropPlace h)))))

theorem Inv.inboundObject {op scope src who loc : Nat} (h : Inv s) : Inv (inboundObject s op scope src who loc) := by
  simp only [Machine.inboundObject]
  split
  · exact h.acquireAt
  · split
    · exact h
    · exact .ite h.releasePlace h

theorem Inv.inboundPin {gpn : Nat} {up : Bool} (h : Inv s) : Inv (inboundPin s gpn up) := .ite h h.pinPage

theorem Inv.unprobe {p : Probe} (h : Inv s) : Inv (unprobe s p) := .ite (.ite h.update.pinPage h.update) h

theorem Inv.inboundAccess {src addr n acc : Nat} {rd wr at_ : Bool} {fwd : Nat → List (Nat × RemOp)}
    {k : Nat → State} (h : Inv s) (hk : ∀ {x0}, Inv (k x0)) :
    Inv (inboundAccess s src addr n acc rd wr at_ fwd k) := by
  simp only [Machine.inboundAccess]
  split
  · exact h
  · split
    · exact h.logInbound
    · refine Inv.relayBy ?_
      split
      · exact h.sendAll
      · exact hk

theorem Inv.execInboundRequest {r : Inbound} (h : Inv s) : ResultInv (execInboundRequest r s) := by
  simp only [Machine.execInboundRequest]
  split
  · exact h
  · split
    · exact h.inboundAccess h
    · exact h.inboundAccess h.inboundWrite
    · exact .ite h (h.inboundAccess h.inboundMasked)
    · exact .ite h (h.inboundAccess h.update)
    · split
      · exact .ite h (h.inboundAccess h.inboundAtomic)
      · exact h
    · split
      · exact .ite h (h.unprobe.inboundAccess h.unprobe.inboundAtomics)
      · exact h
    · exact .ite h (h.inboundAccess h.inboundMonitor)
    · exact .ite (.ite h (h.inboundAccess h.inboundObject)) (.ite h.dropHeld h.inboundHandle)
    · exact h.inboundPin
    · exact .ite h.migrateStep h
    · exact .ite h.unprobe h
    · exact .ite h h.update.freeStubs
    · exact .ite h h.update

theorem Inv.execTranslationProbe {pkg : BitVec 10} {addr : Nat} (h : Inv s) :
    ResultInv (execTranslationProbe pkg addr s) :=
  .ite h (.ite h.logInbound (.ite h (.ite h.update.pinPage h.update)))

theorem Inv.chainOf {src id dst len : Nat} (h : Inv s) : Inv (chainOf s src id dst len).1 := by
  simp only [Machine.chainOf]
  split
  · exact h
  · split
    · exact h.logInbound
    · exact h

theorem Inv.execMcastFlit {src : BitVec 10} {addr : FlitAt} {data : List Byte} (h : Inv s) :
    ResultInv (execMcastFlit src addr data s) := by
  simp only [Machine.execMcastFlit]
  split
  · exact h
  · split
    · exact h
    · refine Inv.update ?_
      split
      · exact h.chainOf
      · refine Inv.relayBy ?_
        split
        · exact h.chainOf.sendAll
        · exact h.chainOf.inboundWrite

theorem Inv.dropReq {id : Nat} (h : Inv s) : Inv (dropReq s id) := h.update

theorem Inv.setReq {id : Nat} {t : RemState} (h : Inv s) : Inv (setReq s id t) := h.update

theorem Inv.storeFailed {r : RemReq} {code : Nat} {t : RemState} (h : Inv s) : Inv (storeFailed s r code t) :=
  .ite (.ite h.dropReq h.dropReq.setGroup) (.ite h h.setReq)

theorem Inv.execNack {id reason : Nat} (h : Inv s) : ResultInv (execNack id reason s) := by
  simp only [Machine.execNack]
  split
  · exact .ite h (.ite h.storeFailed h.setReq)
  · exact h

theorem Inv.execStoreAcknowledgement {id : Nat} (h : Inv s) : ResultInv (execStoreAcknowledgement id s) := by
  simp only [Machine.execStoreAcknowledgement]
  split
  · exact .ite (.ite h.dropReq.relayDone h.dropReq) h
  · exact h

theorem Inv.execRemoteTimeout {id : Nat} (h : Inv s) : ResultInv (execRemoteTimeout id s) := by
  simp only [Machine.execRemoteTimeout]
  split
  · exact .ite h (.ite h.storeFailed h.setReq)
  · split
    · exact .ite h.collFail h
    · exact h

theorem Inv.badDirectory {who gpn : Nat} (h : Inv s) : Inv (badDirectory s who gpn) := .ite h h.update

theorem Inv.installOwner {r : RemReq} {gpn : Nat} {bs : List Byte} (h : Inv s) : Inv (installOwner s r gpn bs) :=
  .ite h h.update

theorem Inv.installLine {loc bad : Nat} {bs : List Byte} (h : Inv s) : Inv (installLine s loc bad bs) :=
  .ite h (h.setMem (memWrite_foldl_wf h.memory))

theorem Inv.execRemoteResponse {id : Nat} {data : List Byte} {bad : Nat} (h : Inv s) :
    ResultInv (execRemoteResponse id data bad s) := by
  show Inv _
  split
  · exact h
  · refine .ite h (.ite h.dropReq (.ite h.dropReq.relayDone ?_))
    split
    · exact .ite h.dropReq.badDirectory h.dropReq.installOwner
    · exact h.dropReq.installLine
    · exact h.setReq
    · exact .ite h.setReq.setGroup h
    · exact .ite h.setReq.setGroup h
    · exact h

/-! ### Residency -/

theorem Inv.startCmd {c : Cmd} (h : Inv s) : Inv (startCmd s c) := by
  simp only [Machine.startCmd]
  split
  · exact h.copyStart
  · exact .ite h.bagStart h.updStart
  · exact .ite h.mcastStart h.collStart
  · exact h.ngemvStart
  · exact h.srchStart

theorem Inv.execEngineAcceptance {id : Nat} (h : Inv s) : ResultInv (execEngineAcceptance id s) := by
  simp only [Machine.execEngineAcceptance]
  split
  · exact .ite h.startCmd h
  · exact h

theorem Inv.startGroup {li team core frame0 gid : Nat} (h : Inv s) : Inv (startGroup li team core frame0 s gid) :=
  h.update.ref.codeRef

theorem Inv.startTeam {w : Waiting} {core : Nat} (h : Inv s) : Inv (startTeam s w core) :=
  (h.setLaunch.update.foldl (fun ht => ht.startGroup)).ungate.ungate

theorem Inv.returnGroup {gi : Nat} (h : Inv s) : Inv (returnGroup s gi) :=
  h.restoreStore.setGroup.ref.codeRef.ungate

theorem Inv.takeIn {w : Waiting} {core : Nat} (h : Inv s) : Inv (takeIn s w core) := by
  simp only [Machine.takeIn]
  split
  · exact h.update.returnGroup
  · exact h.update.startTeam

theorem Inv.gateTeam {g : Group} (h : Inv s) : Inv (gateTeam s g) := h.update

theorem Inv.requestSave {gi : Nat} {urgent : Bool} (h : Inv s) : Inv (requestSave s gi urgent) :=
  .ite (Inv.ite h.gateTeam h).setGroup.saveGroup (Inv.ite h.gateTeam h).setGroup

theorem Inv.takeVictims {w : Waiting} {core : Nat} {vs : List (Nat × Bool)} (h : Inv s) :
    Inv (takeVictims s w core vs) :=
  h.update.foldl (fun ht => .ite ht.saveGroup ht.requestSave)

theorem Inv.residencyFrom {die : Nat} {earlier : List Claim} {ws : List Waiting} (h : Inv s) :
    Inv (residencyFrom s die earlier ws) := by
  induction ws generalizing earlier with
  | nil => exact h
  | cons w ws ih =>
    simp only [Machine.residencyFrom]
    split
    · exact h.takeIn
    · split
      · exact ih
      · split
        · exact h.takeVictims
        · exact ih

theorem Inv.execResidency {die : Nat} (h : Inv s) : ResultInv (execResidency die s) := by
  simp only [Machine.execResidency]
  split
  · exact h
  · split
    · exact h.saveGroup
    · exact h.update.residencyFrom

theorem Inv.execQuantumExpiry {g : Nat} (h : Inv s) : ResultInv (execQuantumExpiry g s) := .ite h.setGroup h

theorem Inv.execPretmoExpiry {g : Nat} (h : Inv s) : ResultInv (execPretmoExpiry g s) := .ite h.saveGroup h

/-! ### The host and the boot -/

theorem mapWf_filter {α : Type} [DecidableEq α] {d : α} {p : Nat × α → Bool} {lo : Nat} {m : SMap α}
    (h : mapWf d lo m = true) : mapWf d lo (m.filter p) = true := by
  induction m generalizing lo with
  | nil => rfl
  | cons x m ih =>
    simp only [mapWf, Bool.and_eq_true, decide_eq_true_eq] at h
    obtain ⟨⟨hlo, hv⟩, hm⟩ := h
    rw [List.filter_cons]
    split
    · simp only [mapWf, Bool.and_eq_true, decide_eq_true_eq]
      exact ⟨⟨hlo, hv⟩, ih hm⟩
    · exact ih (mapWf_weaken d m hm (by omega))

/-- A reset keeps only the host's window of memory. -/
theorem Inv.fullReset (h : Inv s) : Inv (fullReset s) where
  memory := mapWf_filter h.memory
  caps := .inl rfl
  history _ hx := absurd hx List.not_mem_nil
  stores _ hd := absurd hd List.not_mem_nil

theorem Inv.execPowerUp (h : Inv s) : ResultInv (execPowerUp s) := h.fullReset

theorem Inv.execRst (h : Inv s) : ResultInv (execRst s) := h.fullReset

theorem Inv.execLinkTrained (h : Inv s) : ResultInv (execLinkTrained s) := .ite h.setStage h

theorem Inv.bootFail {berr : Nat} (h : Inv s) : Inv (bootFail s berr) := h.setStage.regSet.notify

/-- A fold that may fail keeps the invariant when each of its steps does. -/
theorem Inv.foldE {α ε : Type} {f : State → α → Except ε State} {xs : List α} (h : Inv s)
    (hf : ∀ {s x t}, Inv s → f s x = .ok t → Inv t) (e : foldE f s xs = .ok t) : Inv t := by
  induction xs generalizing s with
  | nil => cases e; exact h
  | cons x xs ih =>
    unfold Machine.foldE at e
    split at e
    next s1 e1 => exact ih (hf h e1) e
    · cases e

theorem Inv.selfTest (h : Inv s) : Inv (selfTest s) := by
  unfold Machine.selfTest
  split
  next s1 e =>
    refine (Inv.foldE h ?_ e).update.setStage
    intro u d t hu e1
    split at e1
    · cases e1; exact hu.regSet
    · cases e1
  · exact h.bootFail

theorem Inv.putPubKey {key : List Byte} (h : Inv s) : Inv (putPubKey s key) := h.foldl (fun ht => ht.regSet)

theorem putPubKey_variant (s : State) (key : List Byte) : (putPubKey s key).variant = s.variant := by
  unfold putPubKey
  generalize List.range 8 = is
  induction is generalizing s with
  | nil => rfl
  | cons i is ih => exact (ih _).trans (regSet_variant ..)

theorem setStage_variant (s : State) (st berr : Nat) : (setStage s st berr).variant = s.variant :=
  regSet_variant ..

/-- CAPS takes the value of the part, as at the end of a boot. -/
theorem Inv.setCaps {k clock : Dword} {d : Nat} (h : Inv s) (hk : k = capsOf s.variant) :
    Inv { s with caps := k, clock := clock, identKey := d } :=
  ⟨h.memory, .inr hk, h.history, h.stores⟩

theorem Inv.bootStep (h : Inv s) : Inv (bootStep s) := by
  unfold Machine.bootStep
  split
  · exact h.setStage.regSet
  · split
    · exact h.setStage.regSet.update
    · exact h.bootFail
  · exact h.selfTest
  · split
    · refine Inv.setCaps h.putPubKey.setStage ?_
      rw [setStage_variant, putPubKey_variant]
    · exact h.bootFail
  · exact h

theorem Inv.execGo (h : Inv s) : ResultInv (execGo s) := h.bootStep

theorem Inv.execFego (h : Inv s) : ResultInv (execFego s) := .ite h.setStage.notify h

theorem Inv.execRaddr {v : Dword} (h : Inv s) : ResultInv (execRaddr v s) :=
  .ite h (.ite h.regSet.regSet h.regSet.regSet.update)

theorem Inv.windowWrite {a : Nat} {bs : List Byte} (h : Inv s) : Inv (windowWrite s a bs) :=
  h.foldl (fun ht => .ite ht.performBytes ht)

theorem Inv.execReportDone (h : Inv s) : ResultInv (execReportDone s) := by
  simp only [Machine.execReportDone]
  split
  · exact h.windowWrite.regSet.update.notify
  · exact h

theorem Inv.writeComm {k a : Nat} {v : Dword} (h : Inv s) : Inv (writeComm s k a v) := .ite h h.regSet

theorem Inv.writeQcb {q k : Nat} {v : Dword} (h : Inv s) : Inv (writeQcb s q k v) := by
  simp only [Machine.writeQcb]
  split
  · exact .ite h.qcbPut.runQueue h.qcbPut
  · exact .ite h h.qcbPut.setQueue
  · exact .ite h h.qcbPut
  · exact .ite h h.qcbPut
  · exact h

theorem Inv.execRegisterWrite {addr : Nat} {v : Dword} (h : Inv s) : ResultInv (execRegisterWrite addr v s) := by
  simp only [Machine.execRegisterWrite]
  split
  · exact h
  · split
    · exact h.writeQcb
    · split
      · exact h.writeComm
      · exact .ite h h.regSet

theorem Inv.execPlimit {v : Dword} (h : Inv s) : ResultInv (execPlimit v s) := h.regSet

theorem Inv.execCorersv {n : Nat} {v : Dword} (h : Inv s) : ResultInv (execCorersv n v s) := .ite h h.regSet

theorem Inv.execSlicersv {n : Nat} {v : Dword} (h : Inv s) : ResultInv (execSlicersv n v s) := .ite h h.regSet

theorem Inv.postHeld {vf fuel : Nat} (h : Inv s) : Inv (postHeld s vf fuel) := by
  induction fuel generalizing s with
  | zero => exact h
  | succ fuel ih =>
    unfold Machine.postHeld
    split
    · exact .ite (ih h.update.fqSet.fqWrite) h
    · exact h

theorem Inv.execFaultQueueHead {vf : Nat} {hh : Dword} (h : Inv s) : ResultInv (execFaultQueueHead vf hh s) :=
  .ite h h.regSet.postHeld

theorem Inv.execKillctx {v : Dword} (h : Inv s) : ResultInv (execKillctx v s) :=
  .ite h.regSet.killContext h.regSet

theorem Inv.hrstat {n : Nat} (h : Inv s) : Inv (hrstat s n) := h.regSet

theorem Inv.execHostResume {v : Dword} (h : Inv s) : ResultInv (execHostResume v s) := by
  simp only [Machine.execHostResume]
  split
  · exact h.hrstat
  · exact .ite h.hrstat h.setGroup.hrstat

theorem Inv.execHostStore {addr : Nat} {data : List Byte} (h : Inv s) : ResultInv (execHostStore addr data s) :=
  (h.foldl (fun ht => .ite ht ht.performBytesBy)).foldr (fun ht => .ite ht.regStore ht)

theorem Inv.markBad {us : List Nat} (h : Inv s) : Inv (markBad s us) := h.update

theorem Inv.execScrub {addr : Nat} (h : Inv s) : ResultInv (execScrub addr s) := .ite h.markBad.countUe h

theorem Inv.execSoftError {e : SoftErrorAt} (h : Inv s) : ResultInv (execSoftError e s) := by
  simp only [Machine.execSoftError]
  split
  · exact .ite h.markBad h
  · exact h.fireMonitors
  · exact .ite h.markBad h

theorem Inv.execThrottle {on : Bool} {cycles : Dword} (h : Inv s) : ResultInv (execThrottle on cycles s) :=
  h.liveOr h.regSet.notify

theorem Inv.execWindowEnd {stack : Nat} (h : Inv s) : ResultInv (execWindowEnd stack s) := h.liveOr h.update

end Sys2Proof.Machine
end

