-- ==== Sys2Proof/Proofs/InvariantStep.lean ====
section
namespace Sys2Proof.Machine

variable {s t : State}

/-! ### Every instruction -/

/-- Every instruction keeps the invariant. -/
theorem Inv.exec {i : Instr} (h : Inv s) : ResultInv (exec i s) := by
  cases i with
  | sadd | ssub | smul | smulh | sand | sor | sxor | sshl | sshr | ssra | smin | smax | sminu | smaxu | sslt
  | ssltu | sseq | sclz | spopc | ssel | sshli | sshri | ssrai => exact h.aluOp
  | sdiv | srem => exact h.divOp
  | saddi | sandi | sori | sxori => exact h.immOp
  | slit => exact h.execSlit
  | sld => exact h.execSld
  | sst => exact h.execSst
  | satom => exact h.execSatom
  | spref => exact h.strandFree h.advance
  | sbeq | sbne | sblt | sbge | sbltu | sbgeu => exact h.branchOp
  | sjmp => exact h.execSjmp
  | scall => exact h.execScall
  | scallr => exact h.execScallr
  | sret => exact h.execSret
  | sjtab => exact h.execSjtab
  | spad | snop => exact h.advance
  | lrun => exact h.execLrun
  | lwait => exact h.execLwait
  | sfmt => exact h.execSfmt
  | sfmtAb => exact h.execSfmtAb
  | saxis => exact h.execSaxis
  | sqin => exact h.execSqin
  | sqout => exact h.execSqout
  | sbarInit => exact h.execSbarInit
  | sbarArrive => exact h.execSbarArrive
  | sbarWait => exact h.execSbarWait
  | sbarArw => exact h.execSbarArw
  | swaitc => exact h.execSwaitc
  | phase | phasePub | phaseRef => exact h.phaseOp
  | xfence => exact h.execXfence
  | drain => exact h.execDrain
  | tdet => exact h.execTdet
  | xacq => exact h.execXacq
  | xwait => exact h.execXwait
  | xgive => exact h.execXgive
  | xswap => exact h.execXswap
  | xaban => exact h.execXaban
  | xrel => exact h.execXrel
  | wpop => exact h.execWpop
  | wpost => exact h.execWpost
  | mcfg => exact h.execMcfg
  | mgang => exact h.execMgang
  | mma => exact h.execMma
  | mmas => exact h.execMmas
  | mzero => exact h.execMzero
  | mlda => exact h.execMlda
  | mst => exact h.execMst
  | mwait => exact h.execMwait
  | pgmig => exact h.execPgmig
  | pgqry => exact h.execPgqry
  | sgetr => exact h.execSgetr
  | ssetr => exact h.execSsetr
  | shalt => exact h.execShalt
  | send => exact h.execSend
  | strap | sbkpt => exact h.strandSerial h.strandTrap
  | srft => exact h.execSrft
  | vadd | vsub | vmul | vmulh | vmad | vmin | vmax | vabs | vand | vor | vxor | vnot | vshl | vshr | vsra | vclz
  | vpopc | vbfe | vbfi | vsel | vmov | vfadd | vfsub | vfmul | vfma | vfmin | vfmax | vfrcp | vfrsq | vfsqrt
  | vfexp2 | vflog2 | vfclass | vcvt | vqnt | vdqnt | vtsdot | vzdot | pmov | vshuf | vbcast => exact h.mapLanes
  | vcmp | vfcmp | pset => exact h.predLanes
  | pand => exact h.execPand
  | por => exact h.execPor
  | pxor => exact h.execPxor
  | pnot => exact h.execPnot
  | pfirst => exact h.execPfirst
  | vred => exact h.execVred
  | vscan => exact h.execVscan
  | vballot => exact h.execVballot
  | vrdl => exact h.execVrdl
  | vwrl => exact h.execVwrl
  | vsort => exact h.execVsort
  | vqin => exact h.execVqin
  | vld => exact h.execVld
  | vldc => exact h.execVldc
  | vst => exact h.execVst
  | vatom => exact h.execVatom
  | vpref => exact h.execVpref
  | lld => exact h.execLld
  | lst => exact h.execLst
  | latom => exact h.execLatom
  | vstq => exact h.execVstq
  | esav => exact h.execEsav
  | elod => exact h.execElod
  | eclr => exact h.execEclr
  | lbra => exact h.execLbra
  | ljmp => exact h.execLjmp
  | ljtab => exact h.execLjtab
  | lpad | lnop => exact h.nextLane
  | ljoin f => exact h.execLjoin (f := f)
  | regang f => exact h.execRegang (f := f)
  | lend f => exact h.execLend (f := f)
  | phint => exact h.execPhint
  | sideBufferRelease => exact h.execSideBufferRelease
  | residency => exact h.execResidency
  | quantumExpiry => exact h.execQuantumExpiry
  | pretmoExpiry => exact h.execPretmoExpiry
  | saveCompletion => exact h.execSaveCompletion
  | matrixOperation => exact h.execMatrixOperation
  | matrixCompletion => exact h.execMatrixCompletion
  | copy => exact h.execCopy
  | bag => exact h.execBag
  | upd => exact h.execUpd
  | ngemv => exact h.execNgemv
  | srch => exact h.execSrch
  | engineAcceptance => exact h.execEngineAcceptance
  | copyCompletion => exact h.execCopyCompletion
  | gatherCompletion => exact h.execGatherCompletion
  | ngemvCompletion => exact h.execNgemvCompletion
  | broadcast => exact h.execBroadcast
  | expand => exact h.execExpand
  | visit => exact h.execVisit
  | reply => exact h.execReply
  | endOfExpansion => exact h.execEndOfExpansion
  | directoryQuery => exact h.execDirectoryQuery
  | copyUnit => exact h.execCopyUnit
  | switch => exact h.execSwitch
  | invalidation => exact h.execInvalidation
  | acknowledge => exact h.execAcknowledge
  | relay => exact h.execRelay
  | redirect => exact h.execRedirect
  | mcast => exact h.execMcast
  | allred => exact h.execAllred
  | redscat => exact h.execRedscat
  | allgath => exact h.execAllgath
  | bcast => exact h.execBcast
  | cbar => exact h.execCbar
  | topkmerge => exact h.execTopkmerge
  | collectiveCompletion => exact h.execCollectiveCompletion
  | nop => exact h.execNop
  | fetchfence => exact h.execFetchfence
  | ib => exact h.execIb
  | pred => exact h.execPred
  | loop => exact h.execLoop
  | waitmem => exact h.execWaitmem
  | waitmemReread => exact h.execWaitmemReread
  | writemem => exact h.execWritemem
  | signal => exact h.execSignal
  | feed => exact h.execFeed
  | feedRoom => exact h.execFeedRoom
  | launch => exact h.execLaunch
  | tlbinv => exact h.execTlbinv
  | tlbinvCompletion => exact h.execTlbinvCompletion
  | pgattr => exact h.execPgattr
  | pgattrTransition => exact h.execPgattrTransition
  | asidBind => exact h.execAsidBind
  | asidRetire => exact h.execAsidRetire
  | resume => exact h.execResume
  | resumeCmd => exact h.execResumeCmd
  | tailWrite => exact h.execTailWrite
  | qcbStateRun => exact h.execQcbStateRun
  | wpopReread => exact h.execWpopReread
  | tdetSecondSample => exact h.execTdetSecondSample
  | faultQueueHead => exact h.execFaultQueueHead
  | windowEnd => exact h.execWindowEnd
  | go => exact h.execGo
  | fego => exact h.execFego
  | rst => exact h.execRst
  | raddr => exact h.execRaddr
  | reportDone => exact h.execReportDone
  | plimit => exact h.execPlimit
  | killctx => exact h.execKillctx
  | hostResume v => exact h.execHostResume (v := v)
  | corersv => exact h.execCorersv
  | slicersv => exact h.execSlicersv
  | registerWrite => exact h.execRegisterWrite
  | inboundRequest => exact h.execInboundRequest
  | translationProbe => exact h.execTranslationProbe
  | nack => exact h.execNack
  | storeAcknowledgement => exact h.execStoreAcknowledgement
  | remoteTimeout => exact h.execRemoteTimeout
  | planeFailure => exact h.execPlaneFailure
  | planeRemap => exact h.execPlaneRemap
  | mcastFlit => exact h.execMcastFlit
  | mcastReport => exact h.execMcastReport
  | collectiveChunk => exact h.execCollectiveChunk
  | abort => exact h.execAbort
  | scrub => exact h.execScrub
  | powerUp => exact h.execPowerUp
  | linkTrained => exact h.execLinkTrained
  | hostStore => exact h.execHostStore
  | throttle on => exact h.execThrottle (on := on)
  | softError => exact h.execSoftError
  | remoteResponse => exact h.execRemoteResponse

/-! ### Writes that land late -/

theorem Inv.passBy {lane : Bool} {i : Instr} (h : Inv s) : Inv (passBy lane s i) := by
  simp only [Machine.passBy]
  split
  · split
    · exact h
    · split
      · refine Inv.nextLane ?_
        refine Inv.update ?_
        split
        · exact h.pub
        · exact h
      · refine Inv.advance ?_
        refine Inv.update ?_
        split
        · exact h.pub
        · exact h
  · exact h

theorem Inv.passStrand {w x : Nat} (h : Inv s) : Inv (passStrand s w x) := by
  simp only [Machine.passStrand]
  split
  · exact .ite h h.passBy
  · exact h

theorem Inv.passLane {w : Nat} (h : Inv s) : Inv (passLane s w) := by
  simp only [Machine.passLane]
  split
  · exact .ite h h.passBy
  · exact h

theorem Inv.lateState {x : Late} (h : Inv s) : Inv (lateState s x) := h.update.setGroup

theorem Inv.land {x : Late} (h : Inv s) : Inv (land s x) := by
  simp only [Machine.land]
  split
  · exact h
  · split
    next t e => exact (h.lateState.exec.next e).update.setGroup
    · exact h

theorem Inv.keepLate (h : Inv s) (ht : Inv t) : Inv (keepLate s t) := by
  simp only [Machine.keepLate]
  split
  · exact h.update.land
  · exact ht

/-! ### What the agents fetch -/

theorem Inv.beginStep (h : Inv s) : Inv (beginStep s) := by
  simp only [Machine.beginStep]
  split
  · exact h.update
  · exact h.update.update.notify

theorem Inv.noteFetch {va : Dword} {need : Need} (h : Inv s) : Inv (noteFetch s va need) := by
  simp only [Machine.noteFetch]
  split
  · exact h.noteAccess
  · exact h

theorem Inv.onStrand {g : Nat} (h : Inv s) : Inv (onStrand s g) := h.update

theorem Inv.fetchStrand {g : Nat} (h : Inv s) : FetchInv (fetchStrand s g) := by
  simp only [Machine.fetchStrand]
  split
  · exact h.onStrand
  · split
    · exact h.onStrand.strandFault
    · split
      · split
        · exact h.onStrand.noteFetch
        · exact h.onStrand.noteFetch
      · exact h.onStrand.noteFetch.trapCode

theorem Inv.passFetch {g : Nat} (h : Inv s) : Inv (passFetch s g) := by
  simp only [Machine.passFetch]
  split
  · exact h.onStrand
  · split
    · exact h.onStrand
    · exact h.onStrand.noteFetch.passStrand

theorem Inv.onFrag {g i : Nat} (h : Inv s) : Inv (onFrag s g i) := h.update

theorem Inv.setFragOf {x : Nat × Nat} {f : Frag → Frag} (h : Inv s) : Inv (setFragOf s x f) := h.setGroup

theorem Inv.ageOthers {rs : List (Nat × Nat)} {x : Option (Nat × Nat)} (h : Inv s) : Inv (ageOthers s rs x) :=
  h.foldl (fun ht => ht.setFragOf)

theorem Inv.select139 {p : Nat} {rs : List (Nat × Nat)} (h : Inv s) : Inv (select139 s p rs).2 := by
  simp only [Machine.select139]
  split
  · exact (h.foldl (fun ht => ht.setFragOf)).ageOthers.setFragOf
  · exact (h.foldl (fun ht => ht.setFragOf)).ageOthers

theorem Inv.setPipe {p hold owner : Nat} (h : Inv s) : Inv (setPipe s p hold owner) := h.update

theorem Inv.choose {p : Nat} (h : Inv s) : Inv (choose s p).2 := by
  simp only [Machine.choose]
  split
  · split
    · exact (Inv.ite h.select139 h.select139.losePipe).setPipe
    · exact .ite h.select139 h.select139.setPipe
  · split
    · exact h.setPipe
    · split
      · exact (Inv.ite h.select139 h.select139.losePipe).setPipe
      · exact .ite h.select139 h.select139.setPipe

theorem Inv.fetchPipe {core k : Nat} (h : Inv s) : FetchInv (fetchPipe s core k) := by
  simp only [Machine.fetchPipe]
  split
  next s1 e => exact h.choose.snd e
  next x s1 e =>
    split
    · exact (h.choose.snd e).onFrag.laneTrapAll
    · split
      · exact (h.choose.snd e).onFrag.laneFault
      · split
        · exact (h.choose.snd e).onFrag.noteFetch
        · exact (h.choose.snd e).onFrag.noteFetch.laneTrapAll

theorem Inv.passPipe {core k : Nat} (h : Inv s) : Inv (passPipe s core k) := by
  simp only [Machine.passPipe]
  split
  next s1 e => exact h
  next x s1 e =>
    split
    · exact h
    · split
      · exact h
      · exact .ite h (h.choose.snd e).onFrag.noteFetch.passLane

theorem Inv.settleLanes (h : Inv s) : Inv (settleLanes s) := h.update

theorem Inv.takeTurn {q : Nat} (h : Inv s) : Inv (takeTurn s q) := h.update

theorem Inv.takeQueue (h : Inv s) : Inv (takeQueue s) := by
  simp only [Machine.takeQueue]
  split
  · exact .ite h.settleLanes h.settleLanes.update
  · exact h.settleLanes

theorem Inv.fetchEarly {q : Nat} {ring : Bool} {at_ : Nat} (h : Inv s) : Inv (fetchEarly s q ring at_) := by
  unfold Machine.fetchEarly
  extract_lets p
  refine .ite h ?_
  split
  · exact h.keepEntry
  · exact h

theorem Inv.dropEarly {q n : Nat} (h : Inv s) : Inv (dropEarly s q n) := h.setQueue

theorem Inv.fetchPacket {q : Nat} {e : Entry} (h : Inv s) : FetchInv (fetchPacket s q e) := by
  simp only [Machine.fetchPacket]
  split
  · split
    · split
      · exact h
      · exact h.queueFault
    next t e => exact h.fetchEntry.stop e
    · exact h
    · exact h.queueFault
  · split
    · exact h
    · exact h.queueFault

theorem Inv.fetchKeep {q : Nat} {p : Place} (h : Inv s) : FetchInv (fetchKeep s q p) := by
  simp only [Machine.fetchKeep]
  split
  · exact h.dropRemote.dropRemote.keepEntry
  next t e => exact h.fetchPlace.stop e
  · exact h

theorem Inv.fetchFront {q : Nat} (h : Inv s) : FetchInv (fetchFront s q) := by
  unfold Machine.fetchFront
  extract_lets s1 s2
  have h1 : Inv s1 := h.onQueue.settleLanes
  have h2 : Inv s2 := .ite h1.takeTurn h1
  split
  · exact h1
  · split
    · exact h1.fetchKeep
    · split
      · exact h1
      · split
        · exact h1.update
        · split
          · split
            · exact h2
            · split
              next t e => exact h2.badRequest.next e
              · exact h2
          · split
            · exact h2.fetchPacket
            · exact h2.setQueue.passOver

theorem Inv.fetchEngine {g q : Nat} (h : Inv s) : FetchInv (fetchEngine s g q) := by
  simp only [Machine.fetchEngine]
  split
  · exact h.update
  · split
    · exact h.update
    · split
      · exact .ite h.update.setGroup.update.failCmd h.update.setGroup.update
      · split
        · exact h.update
        · split
          · exact h.update
          · exact h.update

theorem Inv.addReg {a n : Nat} (h : Inv s) : Inv (addReg s a n) := h.regSet

theorem Inv.activate {stack bank row : Nat} (h : Inv s) : Inv (activate s stack bank row) :=
  .ite h (.ite h.update (.ite h.update.addReg h.update.update.addReg))

theorem Inv.cacheTouch {line : Nat} {write : Bool} (h : Inv s) : Inv (cacheTouch s line write) := by
  simp only [Machine.cacheTouch]
  split
  · exact h
  · split
    · exact h.update.addReg
    · exact h.update.addReg

theorem Inv.mergeBlock {block : Nat} (h : Inv s) : Inv (mergeBlock s block) := h.update

theorem Inv.baseRead {block m : Nat} (h : Inv s) : Inv (baseRead s block m) := by
  simp only [Machine.baseRead]
  split
  · exact h.cacheTouch
  · exact .ite h.cacheTouch.addReg h.cacheTouch.mergeBlock.addReg

theorem Inv.baseWrite {block m : Nat} (h : Inv s) : Inv (baseWrite s block m) := h.update.cacheTouch

theorem Inv.freeRead {loc n : Nat} (h : Inv s) : Inv (freeRead s loc n) := .ite h.baseRead h

theorem Inv.execBaseOp {n : Nat} (h : Inv s) : Inv (execBaseOp s n) := by
  simp only [Machine.execBaseOp]
  split
  · exact .ite h (.ite h.update.baseWrite h.update.baseRead)
  · exact h

theorem Inv.keepBaseOp {n : Nat} (h : Inv s) : Inv (keepBaseOp s n) := by
  simp only [Machine.keepBaseOp]
  split
  · split
    · exact h
    · split
      · exact h.update
      · split
        · exact h.update
        · exact h
  · exact h

theorem Inv.baseMerge {block : Nat} (h : Inv s) : Inv (baseMerge s block) := by
  simp only [Machine.baseMerge]
  split
  · exact h.update
  · exact h

theorem Inv.evictLine {core line : Nat} (h : Inv s) : Inv (evictLine s core line) := h.performDirty.update

theorem Inv.dropWalk {die n : Nat} (h : Inv s) : Inv (dropWalk s die n) := h.update

theorem Inv.fetchAgent {a : Agent} (h : Inv s) : FetchInv (fetchAgent s a) := by
  simp only [Machine.fetchAgent]
  split
  · exact h.fetchStrand
  · exact h.fetchPipe
  · exact h.passFetch
  · exact h.passPipe
  · split
    · exact h.land
    · exact h
  · exact h.fetchFront
  · exact .ite h.takeQueue h
  · exact h.onQueue.fetchEarly
  · exact h.dropEarly
  · exact h.fetchEngine
  · exact h.chunkArrives
  · exact h.nextChunk
  · split
    · exact h
    · exact h
  · exact h.evictLine
  · exact h.writebackQcb
  · exact .ite h.qcbPut h
  · exact h.update
  · exact h.dropWalk
  · exact h.liveOr h.activate
  · exact h.liveOr h.freeRead
  · exact h.liveOr h.execBaseOp
  · exact h.liveOr h.keepBaseOp
  · exact h.liveOr h.baseMerge
  · exact h.liveOr h.update
  · exact h.regSet
  · exact h.liveOr h.addReg

/-! ### The step -/

theorem Inv.agentStep (h : Inv s) : ResultInv (agentStep s) := by
  simp only [Machine.agentStep]
  split
  next a a e => exact (h.beginStep.fetchAgent.run e).exec
  next a e => exact h.beginStep.fetchAgent.stop e

theorem Inv.step (h : Inv s) : ResultInv (step s) := by
  unfold Machine.step
  split
  · exact h.agentStep
  · split
    next t e => exact h.keepLate (h.agentStep.next e)
    · exact h.agentStep

end Sys2Proof.Machine

/-- Settles O59: what an agent fetches, every instruction, and the writes that land late keep the invariant. -/
theorem stepKeepsInvariant : Obligations.StepKeepsInvariant :=
  fun _ _ h e => h.step.next e

end

