-- ==== Sys2Proof/Proofs/Performs.lean ====
section
namespace Sys2Proof.Machine

variable {s0 s t : State}

/-! ### What a performed write leaves alone

A write that reaches memory may also be sent to another package, count an uncorrectable error and fire monitors. It
changes no command, no group's residency and no register but those of the count of errors. -/

/-- The registers that count uncorrectable errors and tell where the last one was (R357). -/
def isUeReg (a : Nat) : Prop := a / 8 = (mgmtBase + 0x5020) / 8 ∨ a / 8 = (mgmtBase + 0x5028) / 8

/-- What a state keeps of another from which performed writes lead to it. -/
structure Performs (s t : State) : Prop where
  variant : t.variant = s.variant
  migrations : t.migrations = s.migrations
  cmds : t.cmds = s.cmds
  length : t.groups.length = s.groups.length
  run : ∀ g, (t.group g).run = (s.group g).run
  regs : ∀ a, ¬ isUeReg a → regGet t a = regGet s a

theorem Performs.refl (s : State) : Performs s s := ⟨rfl, rfl, rfl, rfl, fun _ => rfl, fun _ _ => rfl⟩

/-- The fields that a performed write may change at will. -/
theorem Performs.update {mem : Memory} {ord nextId ueNotes : Nat} {cur : Cur} {hist : List Hist} {poison : List Nat}
    {dirty : List Dirty} {baseOps : List BaseOp} {monitors : List Monitor} {queues : SMap QRun} {remote : List RemReq}
    {notes : List (Nat × Nat)} (h : Performs s0 s) :
    Performs s0 { s with
      mem := mem, ord := ord, nextId := nextId, ueNotes := ueNotes, cur := cur, hist := hist, poison := poison,
      dirty := dirty, baseOps := baseOps, monitors := monitors, queues := queues, remote := remote, notes := notes } :=
  ⟨h.variant, h.migrations, h.cmds, h.length, h.run, h.regs⟩

/-- A group outside the list is not written. -/
theorem listSet_eq_self_of_le {α : Type} {xs : List α} {i : Nat} {x : α} (h : xs.length ≤ i) :
    listSet xs i x = xs := by
  induction xs generalizing i with
  | nil => rfl
  | cons y ys ih =>
    cases i with
    | zero => simp at h
    | succ i => rw [listSet, ih (Nat.le_of_succ_le_succ h)]

theorem State.group_setGroup (s : State) (g i : Nat) (x : Group) :
    (s.setGroup g x).group i = if i = g ∧ g < s.groups.length then x else s.group i := by
  by_cases hi : i = g
  · subst hi
    by_cases hl : i < s.groups.length
    · rw [State.group_setGroup_same s i x hl, if_pos ⟨rfl, hl⟩]
    · rw [if_neg (fun h => hl h.2), State.group, State.setGroup, listSet_eq_self_of_le (Nat.le_of_not_lt hl),
        State.group]
  · rw [State.group_setGroup_other s g i x hi, if_neg (fun h => hi h.1)]

theorem Performs.setGroup {g : Nat} {x : Group} (h : Performs s0 s) (hx : x.run = (s.group g).run) :
    Performs s0 (s.setGroup g x) where
  variant := h.variant
  migrations := h.migrations
  cmds := h.cmds
  length := (State.setGroup_length ..).trans h.length
  run i := by
    rw [State.group_setGroup, ← h.run i]
    split
    next hi => rw [hx, hi.1]
    · rfl
  regs := h.regs

theorem Performs.regSet {a : Nat} {v : Dword} (h : Performs s0 s) (ha : isUeReg a) : Performs s0 (regSet s a v) where
  variant := h.variant
  migrations := h.migrations
  cmds := h.cmds
  length := h.length
  run := h.run
  regs b hb := by
    refine (regGet_regSet_other s a b v fun e => hb ?_).trans (h.regs b hb)
    unfold isUeReg
    rwa [e]

theorem Performs.ite {c : Prop} [Decidable c] (hs : Performs s0 s) (ht : Performs s0 t) :
    Performs s0 (if c then s else t) := by
  split
  · exact hs
  · exact ht

theorem Performs.foldl {α : Type} {f : State → α → State} {xs : List α} (h : Performs s0 s)
    (hf : ∀ {t x}, Performs s0 t → Performs s0 (f t x)) : Performs s0 (xs.foldl f s) := by
  induction xs generalizing s with
  | nil => exact h
  | cons x xs ih => exact ih (hf h)

theorem Performs.countUe {loc : Nat} (h : Performs s0 s) : Performs s0 (countUe s loc) :=
  ((h.regSet (.inl rfl)).regSet (.inr rfl)).update

theorem Performs.noteBase {write : Bool} {loc mask : Nat} {sure : Bool} (h : Performs s0 s) :
    Performs s0 (noteBase s write loc mask sure) :=
  .ite h h.update

theorem wakeMonitor_run (g : Group) : (wakeMonitor g).run = g.run := by
  unfold wakeMonitor
  split <;> rfl

theorem Performs.fireMonitor {m : Monitor} (h : Performs s0 s) : Performs s0 (fireMonitor s m) := by
  simp only [Machine.fireMonitor]
  split
  · exact h.update.setGroup (wakeMonitor_run _)
  · exact h.update
  · exact h.update

theorem Performs.recheckLine {line : Nat} (h : Performs s0 s) : Performs s0 (recheckLine s line) :=
  h.foldl (fun ht => .ite ht.fireMonitor ht)

theorem Performs.writeUnit {w : Writer} {u : Nat} {mask val : Dword} (h : Performs s0 s) :
    Performs s0 (writeUnit s w u mask val) :=
  (Performs.ite h.countUe h).noteBase.update.recheckLine

theorem Performs.issueRemote {pc va : Dword} {dpa : Nat} {op : RemOp} (h : Performs s0 s) :
    Performs s0 (issueRemote s pc va dpa op) :=
  h.update

theorem Performs.sendUnit {w : Writer} {d u : Nat} (h : Performs s0 s) : Performs s0 (sendUnit s w d u) :=
  .ite h.update.issueRemote.update.update.issueRemote.update h.update.issueRemote.update

theorem Performs.dualWrite {w : Writer} {d u : Nat} {mask val : Dword} (h : Performs s0 s) :
    Performs s0 (dualWrite s w d u mask val) :=
  .ite h.writeUnit h.sendUnit

theorem Performs.performBy {w : Writer} {u : Nat} {mask val : Dword} (h : Performs s0 s) :
    Performs s0 (performBy s w u mask val) := by
  simp only [Machine.performBy]
  split
  · refine Performs.dualWrite ?_
    split
    · exact h.writeUnit.sendUnit
    · exact h.writeUnit
  · split
    · exact h.writeUnit.sendUnit
    · exact h.writeUnit

theorem Performs.performUnit {u : Nat} {mask val : Dword} (h : Performs s0 s) :
    Performs s0 (performUnit s u mask val) :=
  h.performBy

theorem Performs.performBytes {loc size : Nat} {v : Dword} (h : Performs s0 s) :
    Performs s0 (performBytes s loc size v) :=
  h.performUnit

theorem Performs.performBytesBy {w : Writer} {loc size : Nat} {v : Dword} (h : Performs s0 s) :
    Performs s0 (performBytesBy s w loc size v) :=
  h.performBy

theorem Performs.performDwords {loc : Nat} {ds : List Dword} (h : Performs s0 s) :
    Performs s0 (performDwords s loc ds) := by
  induction ds generalizing s loc with
  | nil => exact h
  | cons d ds ih => exact ih h.performUnit

theorem Performs.setSeen {g u stamp : Nat} (h : Performs s0 s) : Performs s0 (setSeen s g u stamp) :=
  .ite (h.setGroup rfl) h

theorem Performs.performDirty1 {d : Dirty} (h : Performs s0 s) : Performs s0 (performDirty1 s d) :=
  (Performs.ite h.performBy.update.update h.performBy.update).update.foldl (fun ht => ht.setSeen)

theorem Performs.performDirty {p : Dirty → Bool} (h : Performs s0 s) : Performs s0 (performDirty s p) :=
  h.foldl (fun ht => ht.performDirty1)

theorem Performs.notify {entry : Nat} (h : Performs s0 s) : Performs s0 (notify s entry) :=
  .ite (.ite h.update.performBytes h.update) h

/-! ### What a write does to memory -/

theorem memGet_memWrite_inside {n k : Nat} (hk : k < n) (m : Memory) (a v : Nat) :
    memGet (memWrite m a n v) (a + k) = BitVec.ofNat 8 (v / 256 ^ k) := by
  induction n generalizing m a v k with
  | zero => omega
  | succ n ih =>
    cases k with
    | zero =>
      rw [memWrite, memGet_memWrite_outside n _ _ _ _ (by omega), Nat.add_zero, memGet_memSet_same]
      simp
    | succ k =>
      have h := ih (k := k) (by omega) (memSet m a (BitVec.ofNat 8 v)) (a + 1) (v / 256)
      rw [memWrite, show a + (k + 1) = a + 1 + k by omega, h, Nat.div_div_eq_div_mul, pow_succ, mul_comm 256]

/-- A byte of a number read from memory. -/
theorem memRead_byte {n k : Nat} (hk : k < n) (m : Memory) (a : Nat) :
    BitVec.ofNat 8 (memRead m a n / 256 ^ k) = memGet m (a + k) := by
  induction n generalizing a k with
  | zero => omega
  | succ n ih =>
    have hb := (memGet m a).isLt
    cases k with
    | zero =>
      apply BitVec.eq_of_toNat_eq
      rw [memRead, BitVec.toNat_ofNat, pow_zero, Nat.div_one]
      show _ = (memGet m a).toNat
      omega
    | succ k =>
      have hd : memRead m a (n + 1) / 256 = memRead m (a + 1) n := by rw [memRead]; omega
      rw [pow_succ', ← Nat.div_div_eq_div_mul, hd, ih (by omega), show a + (k + 1) = a + 1 + k by omega]

theorem fireMonitor_mem (s : State) (m : Monitor) : (fireMonitor s m).mem = s.mem := by
  unfold fireMonitor
  split <;> rfl

theorem recheckLine_mem (s : State) (line : Nat) : (recheckLine s line).mem = s.mem := by
  unfold recheckLine
  generalize s.monitors.filter _ = ms
  induction ms generalizing s with
  | nil => rfl
  | cons m ms ih =>
    refine (ih _).trans ?_
    dsimp only
    split
    · exact fireMonitor_mem s m
    · rfl

theorem countUe_mem (s : State) (loc : Nat) : (countUe s loc).mem = s.mem := by cases s; rfl

theorem noteBase_mem (s : State) (write : Bool) (loc mask : Nat) (sure : Bool) :
    (noteBase s write loc mask sure).mem = s.mem := by
  simp only [noteBase]
  split <;> rfl

/-- Where no page has moved, a location is its own backing. -/
theorem backing_of_lt {loc : Nat} (h : loc < migBase) (s : State) : backing s loc = loc := if_pos h

theorem writeUnit_mem {u : Nat} (hu : 8 * u < migBase) (s : State) (w : Writer) (mask val : Dword) :
    (writeUnit s w u mask val).mem = memWrite s.mem (8 * u) 8 (blend (unitOf s u) mask val).toNat := by
  refine (recheckLine_mem ..).trans ?_
  show memWrite (noteBase _ ..).mem _ 8 _ = _
  rw [noteBase_mem, backing_of_lt hu]
  split
  · rw [countUe_mem]
  · rfl

end Sys2Proof.Machine
end

