-- ==== Sys2Proof/Proofs/HostStore.lean ====
section
namespace Sys2Proof.Machine

variable {s t : State}

/-! ### The bytes of a masked write -/

/-- A bit of the number that a list of bytes holds. -/
theorem testBit_natOfBytes (bs : List Byte) (k j : Nat) (hj : j < 8) :
    (natOfBytes bs).testBit (8 * k + j) = (bs.getD k 0).getLsbD j := by
  induction bs generalizing k with
  | nil => simp [natOfBytes]
  | cons b bs ih =>
    have hb := b.isLt
    rw [natOfBytes, Nat.add_comm, show (256 : Nat) = 2 ^ 8 from rfl, Nat.testBit_two_pow_mul_add _ hb]
    cases k with
    | zero =>
      rw [if_pos (by omega), List.getD_cons_zero, Nat.mul_zero, Nat.zero_add]
      rfl
    | succ k =>
      rw [if_neg (by omega), List.getD_cons_succ, ← ih, show 8 * (k + 1) + j - 8 = 8 * k + j by omega]

/-- A bit of the mask of `size` bytes at an offset. -/
theorem getLsbD_unitMask (off size i : Nat) :
    (unitMask off size).getLsbD i = (decide (i < 64) && decide (8 * off ≤ i) && decide (i < 8 * off + 8 * size)) := by
  rw [unitMask, BitVec.getLsbD_ofNat, mul_comm, Nat.testBit_two_pow_mul, Nat.testBit_two_pow_sub_one, Bool.and_assoc]
  congr 1
  rw [Bool.eq_iff_iff]
  simp only [Bool.and_eq_true, decide_eq_true_eq]
  omega

/-- The bytes of a unit that a masked write of a list of bytes changes are those of the list. -/
theorem blend_byte {bs : List Byte} {off k : Nat} (hk : k < 8) (hb : off + bs.length ≤ 8) (old : Dword) :
    BitVec.ofNat 8 ((blend old (unitMask off bs.length)
        (BitVec.ofNat 64 (natOfBytes bs) <<< (8 * off))).toNat / 256 ^ k) =
      if off ≤ k ∧ k < off + bs.length then bs.getD (k - off) 0 else BitVec.ofNat 8 (old.toNat / 256 ^ k) := by
  have hbyte (x : Dword) (j : Nat) (hj : j < 8) :
      (BitVec.ofNat 8 (x.toNat / 256 ^ k)).getLsbD j = x.getLsbD (8 * k + j) := by
    rw [BitVec.getLsbD_ofNat, show (256 : Nat) = 2 ^ 8 from rfl, ← pow_mul, Nat.testBit_div_two_pow]
    simp [hj, BitVec.getLsbD, Nat.add_comm]
  apply BitVec.eq_of_getLsbD_eq
  intro j hj
  rw [hbyte _ j hj, blend]
  simp only [BitVec.getLsbD_or, BitVec.getLsbD_and, BitVec.getLsbD_not, getLsbD_unitMask, BitVec.getLsbD_shiftLeft,
    BitVec.getLsbD_ofNat]
  by_cases hin : off ≤ k ∧ k < off + bs.length
  · have h1 : 8 * k + j - 8 * off = 8 * (k - off) + j := by omega
    rw [if_pos hin, h1, testBit_natOfBytes _ _ _ hj]
    have h2 : 8 * k + j < 64 := by omega
    have h3 : 8 * off ≤ 8 * k + j := by omega
    have h4 : 8 * k + j < 8 * off + 8 * bs.length := by omega
    have h5 : 8 * (k - off) + j < 64 := by omega
    simp [h2, h3, h4, h5, Nat.not_lt.mpr h3]
  · rw [if_neg hin, hbyte _ j hj]
    have h2 : 8 * k + j < 64 := by omega
    have h3 : ¬ (8 * off ≤ 8 * k + j ∧ 8 * k + j < 8 * off + 8 * bs.length) := by omega
    by_cases h4 : 8 * off ≤ 8 * k + j
    · simp [h2, h4, not_and.mp h3 h4]
    · simp [h2, h4]

/-- A write of bytes within one unit, where no page moves, puts them into memory and changes no other byte. -/
theorem performBytesBy_byte {a : Nat} {bs : List Byte} (w : Writer) (ha : a < migBase) (hm : s.migrations = [])
    (hb : a % 8 + bs.length ≤ 8) (b : Nat) :
    memGet (performBytesBy s w a bs.length (BitVec.ofNat 64 (natOfBytes bs))).mem b =
      if a ≤ b ∧ b < a + bs.length then bs.getD (b - a) 0 else memGet s.mem b := by
  have hu : 8 * (a / 8) < migBase := by omega
  have hfar : farTarget s (a / 8) = none := by simp [farTarget, hu]
  have hdual : dualTarget s (a / 8) = none := by simp [dualTarget, hm]
  simp only [performBytesBy, performBy, hfar, hdual]
  rw [writeUnit_mem hu]
  by_cases hin : 8 * (a / 8) ≤ b ∧ b < 8 * (a / 8) + 8
  · obtain ⟨k, rfl⟩ := Nat.exists_eq_add_of_le hin.1
    have hk : k < 8 := by omega
    rw [memGet_memWrite_inside hk, blend_byte hk hb]
    by_cases hr : a % 8 ≤ k ∧ k < a % 8 + bs.length
    · rw [if_pos hr, if_pos (by omega), show 8 * (a / 8) + k - a = k - a % 8 by omega]
    · have hlt : memRead s.mem (8 * (a / 8)) 8 < 2 ^ 64 := memRead_lt 8 ..
      rw [if_neg hr, if_neg (by omega), ← memRead_byte hk, unitOf, memAt, backing_of_lt hu, BitVec.toNat_ofNat,
        Nat.mod_eq_of_lt hlt]
  · rw [memGet_memWrite_outside 8 _ _ _ _ (by omega), if_neg (by omega)]

/-! ### A host store -/

/-- What a host store does with one of its pieces. -/
def hostPiece (s : State) (p : Nat × List Byte) : State :=
  if regWindow p.1 || !isMemory s.variant p.1 || (hbmBacked p.1 && !regionLive s) || (stopped s && !hostWindow p.1)
  then s
  else performBytesBy s .other p.1 p.2.length (BitVec.ofNat 64 (natOfBytes p.2))

/-- The events of the registers that a piece of a host store writes. -/
def hostRegPiece (p : Nat × List Byte) (s : State) : State :=
  if regWindow p.1 && !isHrth p.1 then regStore s p.1 p.2.length (BitVec.ofNat 64 (natOfBytes p.2)) else s

theorem exec_hostStore (addr : Nat) (data : List Byte) (s : State) :
    exec (.hostStore addr data) s =
      .next ((unitPieces (data.length + 1) addr data).foldr hostRegPiece
        ((unitPieces (data.length + 1) addr data).foldl hostPiece s)) :=
  rfl

theorem hostRegPieces_mem (ps : List (Nat × List Byte)) (s : State) : (ps.foldr hostRegPiece s).mem = s.mem := by
  induction ps with
  | nil => rfl
  | cons p ps ih =>
    refine Eq.trans ?_ ih
    rw [List.foldr_cons, hostRegPiece]
    split <;> rfl

/-- A piece begins within the bytes that are cut. -/
theorem unitPieces_range {fuel a : Nat} {bs : List Byte} {p : Nat × List Byte} (hp : p ∈ unitPieces fuel a bs) :
    a ≤ p.1 ∧ p.1 < a + bs.length := by
  induction fuel generalizing a bs with
  | zero => exact absurd hp List.not_mem_nil
  | succ fuel ih =>
    cases bs with
    | nil => exact absurd hp List.not_mem_nil
    | cons b bs =>
      obtain rfl | hp := List.mem_cons.mp hp
      · simp
      · have h := ih hp
        rw [List.length_drop] at h
        omega

/-- Pieces that a host store may not reach change nothing. -/
theorem hostPieces_ignored {ps : List (Nat × List Byte)} (h : ∀ p ∈ ps, hostPiece s p = s) :
    ps.foldl hostPiece s = s := by
  induction ps with
  | nil => rfl
  | cons p ps ih =>
    rw [List.foldl_cons, h p List.mem_cons_self]
    exact ih fun q hq => h q (List.mem_cons_of_mem p hq)

theorem hostRegPieces_ignored {ps : List (Nat × List Byte)} (h : ∀ p ∈ ps, regWindow p.1 = false) :
    ps.foldr hostRegPiece s = s := by
  induction ps with
  | nil => rfl
  | cons p ps ih =>
    rw [List.foldr_cons, ih fun q hq => h q (List.mem_cons_of_mem p hq), hostRegPiece, h p List.mem_cons_self]
    rfl

theorem isMemory_lt {v : Variant} {a : Nat} (h : isMemory v a = true) : a < migBase := by
  simp only [isMemory, hbmBacked, tierBacked, hostWindow, Bool.or_eq_true, Bool.and_eq_true, decide_eq_true_eq] at h
  have : migBase = 1125899906842624 := rfl
  omega

theorem not_isUeReg_stage : ¬ isUeReg stageAddr := by unfold isUeReg; decide

theorem Performs.stage_eq (h : Performs s t) : stage t = stage s := by
  unfold stage
  rw [h.regs _ not_isUeReg_stage]

/-- What the host reaches, it reaches after writes too, and it reaches each part of it. -/
theorem hostReaches_performs {a n a' n' : Nat} (hr : Claims.HostReaches s a n) (h : Performs s t)
    (hsub : ∀ b, a' ≤ b → b < a' + n' → a ≤ b ∧ b < a + n) : Claims.HostReaches t a' n' := by
  intro b hb hn
  obtain ⟨hlo, hhi⟩ := hsub b hb hn
  obtain ⟨hw, hm, hl, hs⟩ := hr b hlo hhi
  unfold regionLive stopped at *
  rw [h.stage_eq, h.variant]
  exact ⟨hw, hm, hl, hs⟩

theorem hostPiece_of_reaches {a n : Nat} {bs : List Byte} (hn : 0 < n) (hr : Claims.HostReaches s a n) :
    hostPiece s (a, bs) = performBytesBy s .other a bs.length (BitVec.ofNat 64 (natOfBytes bs)) := by
  obtain ⟨hw, hm, hl, hs⟩ := hr a (Nat.le_refl a) (by omega)
  refine if_neg ?_
  cases hb : hbmBacked a <;> cases ho : hostWindow a <;> simp_all

/-- A store that the host may make puts its bytes into memory and changes no other. -/
theorem hostPieces_byte {fuel a : Nat} {bs : List Byte} (hf : bs.length < fuel) (hr : Claims.HostReaches s a bs.length)
    (hm : s.migrations = []) (b : Nat) :
    memGet ((unitPieces fuel a bs).foldl hostPiece s).mem b =
      if a ≤ b ∧ b < a + bs.length then bs.getD (b - a) 0 else memGet s.mem b := by
  induction fuel generalizing s a bs with
  | zero => omega
  | succ fuel ih =>
    cases bs with
    | nil => rw [if_neg (by simp only [List.length_nil]; omega)]; rfl
    | cons x xs =>
      generalize hbs : x :: xs = bs at hf hr
      have hpos : 0 < bs.length := by rw [← hbs]; exact Nat.succ_pos _
      have hcut : unitPieces (fuel + 1) a bs =
          (a, bs.take (8 - a % 8)) :: unitPieces fuel (a + (8 - a % 8)) (bs.drop (8 - a % 8)) := by
        rw [← hbs]; rfl
      obtain ⟨-, hmem, -, -⟩ := hr a (Nat.le_refl a) (by omega)
      generalize hk : 8 - a % 8 = k at hcut
      have hpiece := hostPiece_of_reaches (bs := bs.take k) hpos hr
      have hp : Performs s (hostPiece s (a, bs.take k)) := by rw [hpiece]; exact (Performs.refl s).performBytesBy
      have htake := List.length_take (i := k) (l := bs)
      have hdrop := List.length_drop (i := k) (l := bs)
      rw [hcut, List.foldl_cons, ih (by omega) (hostReaches_performs hr hp fun b _ _ => by omega)
        (hp.migrations.trans hm), hpiece, performBytesBy_byte .other (isMemory_lt hmem) hm (by omega)]
      by_cases hrest : a + k ≤ b ∧ b < a + k + (bs.drop k).length
      · rw [if_pos hrest, if_pos (by omega), List.getD_eq_getElem?_getD, List.getElem?_drop, List.getD_eq_getElem?_getD,
          show k + (b - (a + k)) = b - a by omega]
      · rw [if_neg hrest]
        by_cases hnow : a ≤ b ∧ b < a + (bs.take k).length
        · rw [if_pos hnow, if_pos (by omega), List.getD_eq_getElem?_getD, List.getElem?_take_of_lt (by omega),
            List.getD_eq_getElem?_getD]
        · rw [if_neg hnow, if_neg (by omega)]

end Sys2Proof.Machine
end

