-- ==== Sys2Proof/Proofs/KillContext.lean ====
section
namespace Sys2Proof.Machine

variable {s0 s t : State}

/-! ### What the end of a context keeps

Whatever the operations that end a context do, a group that has ended stays so, the list of groups keeps its length,
and no command is added. -/

/-- What a state keeps of another from which the operations of a kill lead to it. -/
structure KillKeeps (s t : State) : Prop where
  length : t.groups.length = s.groups.length
  ended : ∀ g, (s.group g).run = .ended → (t.group g).run = .ended
  cmds : ∀ c ∈ t.cmds, c ∈ s.cmds

theorem KillKeeps.refl (s : State) : KillKeeps s s := ⟨rfl, fun _ h => h, fun _ h => h⟩

theorem KillKeeps.performs (h : KillKeeps s0 s) (hp : Performs s t) : KillKeeps s0 t where
  length := hp.length.trans h.length
  ended g hg := (hp.run g).trans (h.ended g hg)
  cmds c hc := h.cmds c (hp.cmds ▸ hc)

/-- The fields that the end of a context may change at will. -/
theorem KillKeeps.update {cur : Cur} {hist : List Hist} {dirty : List Dirty} {regs : SMap Dword} {teams : List Team}
    {launches : List Launch} {pipes : SMap Pipe} {barriers : SMap Barrier} {monitors : List Monitor}
    {places : SMap PlaceRec} {mops : List MOp} {rendezvous : List Rendezvous} {searches : List Search}
    {badGpns qcache notes : List (Nat × Nat)} {remote : List RemReq} {nextId : Nat} {mcasts : List Mcast}
    {colls : List Coll} {chunks : List Chunk} {queues : SMap QRun} {lanes : List FrontLane} {laneStep : List Nat}
    {sleepers : SMap (List Nat)} {seq : SMap Nat} {held : List HeldFault} (h : KillKeeps s0 s) :
    KillKeeps s0 { s with
      cur := cur, hist := hist, dirty := dirty, regs := regs, teams := teams, launches := launches, pipes := pipes,
      barriers := barriers, monitors := monitors, places := places, mops := mops, rendezvous := rendezvous,
      searches := searches, badGpns := badGpns, qcache := qcache, notes := notes, remote := remote, nextId := nextId,
      mcasts := mcasts, colls := colls, chunks := chunks, queues := queues, lanes := lanes, laneStep := laneStep,
      sleepers := sleepers, seq := seq, held := held } :=
  ⟨h.length, h.ended, h.cmds⟩

theorem KillKeeps.filterCmds {p : Cmd → Bool} (h : KillKeeps s0 s) : KillKeeps s0 { s with cmds := s.cmds.filter p } :=
  ⟨h.length, h.ended, fun c hc => h.cmds c (List.mem_of_mem_filter hc)⟩

theorem KillKeeps.setGroup {g : Nat} {x : Group} (h : KillKeeps s0 s)
    (hx : (s.group g).run = .ended → x.run = .ended) :
    KillKeeps s0 (s.setGroup g x) where
  length := (State.setGroup_length ..).trans h.length
  ended i hi := by
    rw [State.group_setGroup]
    split
    next hg => exact hx (hg.1 ▸ h.ended i hi)
    · exact h.ended i hi
  cmds := h.cmds

theorem KillKeeps.ite {c : Prop} [Decidable c] (hs : KillKeeps s0 s) (ht : KillKeeps s0 t) :
    KillKeeps s0 (if c then s else t) := by
  split
  · exact hs
  · exact ht

theorem KillKeeps.foldl {α : Type} {f : State → α → State} {xs : List α} (h : KillKeeps s0 s)
    (hf : ∀ {t x}, KillKeeps s0 t → KillKeeps s0 (f t x)) : KillKeeps s0 (xs.foldl f s) := by
  induction xs generalizing s with
  | nil => exact h
  | cons x xs ih => exact ih (hf h)

theorem KillKeeps.regSet {a : Nat} {v : Dword} (h : KillKeeps s0 s) : KillKeeps s0 (regSet s a v) := h.update

theorem KillKeeps.pinPage {gpn : Nat} {up : Bool} (h : KillKeeps s0 s) : KillKeeps s0 (pinPage s gpn up) :=
  .ite (h.performs (Performs.refl s).performBytes) h

theorem KillKeeps.pinCount {ps : List Pin} {up : Bool} (h : KillKeeps s0 s) : KillKeeps s0 (pinCount s ps up) :=
  h.foldl (fun ht => .ite ht.pinPage ht)

theorem KillKeeps.breakComm {c : Cmd} (h : KillKeeps s0 s) : KillKeeps s0 (breakComm s c) := .ite h.regSet h

theorem KillKeeps.cancelCmd {c : Cmd} (h : KillKeeps s0 s) : KillKeeps s0 (cancelCmd s c) :=
  (h.breakComm.pinCount.foldl (fun ht => ht.regSet)).filterCmds.update

theorem KillKeeps.loseStores {gi : Nat} (h : KillKeeps s0 s) : KillKeeps s0 (loseStores s gi) :=
  h.update.performs (Performs.refl _).performDirty

theorem KillKeeps.setPlace {slice idx : Nat} {r : PlaceRec} (h : KillKeeps s0 s) :
    KillKeeps s0 (s.setPlace slice idx r) :=
  h.update

theorem KillKeeps.freePlace {slice idx : Nat} (h : KillKeeps s0 s) :
    KillKeeps s0 (freePlace s slice idx) :=
  h.setPlace

theorem wakeAway_run (g : Group) : (wakeAway g).run = g.run := by
  unfold wakeAway
  split <;> rfl

theorem KillKeeps.grantPlace {slice hdr q : Nat} (h : KillKeeps s0 s) : KillKeeps s0 (grantPlace s slice hdr q) := by
  simp only [Machine.grantPlace]
  split
  · exact .ite (h.setPlace.setPlace.setGroup (wakeAway_run _).trans) h.setPlace.setPlace
  · exact h.setPlace.setPlace

theorem KillKeeps.releaseFrom {slice hdr fuel q : Nat} (h : KillKeeps s0 s) :
    KillKeeps s0 (releaseFrom s slice hdr fuel q) := by
  induction fuel generalizing s q with
  | zero => exact h
  | succ fuel ih => exact .ite h.freePlace (.ite (ih h.freePlace) h.grantPlace)

theorem KillKeeps.dropPlace {slice p : Nat} (h : KillKeeps s0 s) : KillKeeps s0 (dropPlace s slice p) :=
  .ite h.freePlace.releaseFrom h.setPlace

theorem KillKeeps.dropPlaces {gi : Nat} (h : KillKeeps s0 s) : KillKeeps s0 (dropPlaces s gi) :=
  ((h.foldl (fun ht => ht.dropPlace)).foldl (fun ht => ht.update.performs (Performs.refl _).issueRemote)).update

theorem KillKeeps.removeGroup {gi : Nat} (h : KillKeeps s0 s) : KillKeeps s0 (removeGroup s gi) :=
  h.update.update.update.update.setGroup (fun _ => rfl)

theorem KillKeeps.loseLatches {g : Group} (h : KillKeeps s0 s) : KillKeeps s0 (loseLatches s g) := h.update

theorem KillKeeps.finishTeam {launch team : Nat} (h : KillKeeps s0 s) : KillKeeps s0 (finishTeam s launch team) :=
  .ite h h.update.update.update

theorem KillKeeps.killGroup {gi : Nat} (h : KillKeeps s0 s) : KillKeeps s0 (killGroup s gi) :=
  h.loseStores.dropPlaces.removeGroup.loseLatches.finishTeam

theorem KillKeeps.notify {entry : Nat} (h : KillKeeps s0 s) :
    KillKeeps s0 (notify s entry) :=
  h.performs (Performs.refl s).notify

theorem KillKeeps.writebackQcb {q : Nat} (h : KillKeeps s0 s) : KillKeeps s0 (writebackQcb s q) := by
  simp only [Machine.writebackQcb]
  split
  · exact (h.performs (Performs.refl s).performDwords).update
  · exact h

theorem KillKeeps.qcbPut {q img : Nat} (h : KillKeeps s0 s) :
    KillKeeps s0 (qcbPut s q img) :=
  (KillKeeps.ite h h.writebackQcb).update

theorem KillKeeps.queueFault {q fcode : Nat} {finfo : Dword} (h : KillKeeps s0 s) :
    KillKeeps s0 (queueFault s q fcode finfo) :=
  h.qcbPut.update.update.update.update.notify

theorem KillKeeps.fqSet {vf lost held tail : Nat} (h : KillKeeps s0 s) :
    KillKeeps s0 (fqSet s vf lost held tail) :=
  h.regSet

theorem KillKeeps.fqWrite {vf : Nat} {ws : List Dword} (h : KillKeeps s0 s) : KillKeeps s0 (fqWrite s vf ws) :=
  (h.performs (Performs.refl s).performDwords).fqSet.notify

theorem KillKeeps.postFault {f : FaultInfo} (h : KillKeeps s0 s) : KillKeeps s0 (postFault s f) :=
  .ite h.update.fqSet (.ite h.update.fqWrite h.update.update.fqSet)

/-! ### What a kill ends -/

theorem removeGroup_ended {g : Nat} (hg : g < s.groups.length) : ((removeGroup s g).group g).run = .ended := by
  unfold removeGroup
  rw [State.group_setGroup, if_pos ⟨rfl, hg⟩]

theorem killGroup_ended {g : Nat} (hg : g < s.groups.length) : ((killGroup s g).group g).run = .ended := by
  have hd : KillKeeps s (dropPlaces (loseStores s g) g) := (KillKeeps.refl s).loseStores.dropPlaces
  have he := removeGroup_ended (hd.length ▸ hg)
  exact (KillKeeps.refl _).loseLatches.finishTeam.ended g he

theorem killGroups_ended {gs : List Nat} (hgs : ∀ g ∈ gs, g < s.groups.length) :
    ∀ g ∈ gs, ((gs.foldl killGroup s).group g).run = .ended := by
  induction gs generalizing s with
  | nil => exact fun _ hg => absurd hg List.not_mem_nil
  | cons x xs ih =>
    intro g hg
    have hx : KillKeeps s (killGroup s x) := (KillKeeps.refl s).killGroup
    obtain rfl | hg := List.mem_cons.mp hg
    · have he := killGroup_ended (hgs g List.mem_cons_self)
      exact ((KillKeeps.refl (killGroup s g)).foldl (fun ht => ht.killGroup)).ended g he
    · exact ih (fun y hy => hx.length ▸ hgs y (List.mem_cons_of_mem x hy)) g hg

theorem id_ne_of_mem_cancelCmd {c x : Cmd} (hx : x ∈ (cancelCmd s c).cmds) : x.id ≠ c.id := by
  have h := (List.mem_filter.mp hx).2
  simpa using h

theorem id_ne_of_mem_cancelCmds {cs : List Cmd} {x : Cmd} (hx : x ∈ (cs.foldl cancelCmd s).cmds) :
    ∀ c ∈ cs, x.id ≠ c.id := by
  induction cs generalizing s with
  | nil => exact fun _ hc => absurd hc List.not_mem_nil
  | cons y ys ih =>
    intro c hc
    obtain rfl | hc := List.mem_cons.mp hc
    · have hw : KillKeeps (cancelCmd s c) (ys.foldl cancelCmd (cancelCmd s c)) :=
        (KillKeeps.refl _).foldl (fun ht => ht.cancelCmd)
      exact id_ne_of_mem_cancelCmd (hw.cmds x hx)
    · exact ih hx c hc

/-- A kill ends every group of its context. -/
theorem killContext_ended {asid g : Nat} (hg : g < s.groups.length) (ha : (s.launchOf (s.group g)).asid = asid) :
    ((killContext s asid).group g).run = .ended := by
  unfold killContext
  extract_lets mine inn gs s1 s2 s3 s4 qs s5
  have h3 : KillKeeps s s3 := ((KillKeeps.refl s).update.foldl (fun ht => ht.pinCount)).foldl (fun ht => ht.cancelCmd)
  have h4 : (s4.group g).run = .ended := by
    by_cases hr : (s.group g).run = .ended
    · exact (h3.foldl (fun ht => ht.killGroup)).ended g hr
    · refine killGroups_ended (fun x hx => ?_) g ?_
      · rw [h3.length]
        exact List.mem_range.mp (List.mem_of_mem_filter hx)
      · simp [gs, groupsOfAsid, hg, ha, hr]
  exact ((KillKeeps.refl s4).foldl (fun ht => ht.queueFault)).postFault.ended g h4

/-- A kill leaves no command of its context. -/
theorem killContext_cmds {asid : Nat} {c : Cmd} (hc : c ∈ (killContext s asid).cmds) :
    (s.launchOf (s.group c.grp)).asid ≠ asid := by
  unfold killContext at hc
  extract_lets mine inn gs s1 s2 s3 s4 qs s5 at hc
  have h5 : KillKeeps s3 (Machine.postFault s5 { kind := 5, code := 0x1A, asid := asid, vf := asidVf s asid }) :=
    (((KillKeeps.refl s3).foldl (fun ht => ht.killGroup)).foldl (fun ht => ht.queueFault)).postFault
  have hc3 : c ∈ s3.cmds := h5.cmds c hc
  have hc2 : c ∈ s2.cmds := ((KillKeeps.refl s2).foldl (fun ht => ht.cancelCmd)).cmds c hc3
  intro ha
  refine id_ne_of_mem_cancelCmds hc3 c (List.mem_filter.mpr ⟨hc2, ?_⟩) rfl
  simpa [inn, mine, State.launchOf] using ha

end Sys2Proof.Machine
end

