-- ==== Sys2Proof/Proofs/Management.lean ====
section
namespace Sys2Proof.Machine

variable {s t : State}

/-! ### Registers -/

theorem exec_registerWrite {addr : Nat} {v : Dword} {a : Nat} (ha : a = addr / 8 * 8) (hw : regWindow a = true)
    (hl : regionLive s = true ∨ isMgmt a = true) (hq : inQcbWindow a = false) (hc : commOf a = none)
    (hd : dirIgnored a v s = false) :
    exec (.registerWrite addr v) s = .next (regSet s a (blend (regGet s a) (regMask s a) v)) := by
  subst ha
  show Host.Outcome.next _ = _
  rw [if_neg (by cases hl <;> simp_all), if_neg (by simp [hq])]
  simp [hc, hd]

theorem exec_registerWrite_ignored {addr : Nat} {v : Dword}
    (h : regWindow (addr / 8 * 8) = false ∨ (regionLive s = false ∧ isMgmt (addr / 8 * 8) = false)) :
    exec (.registerWrite addr v) s = .next s := by
  show Host.Outcome.next _ = _
  rw [if_pos (by rcases h with h | ⟨hl, hm⟩ <;> simp_all)]

theorem plimit_clamps (v : Dword) :
    (BitVec.ofNat 64 (min 7500 (max 1000 (v.toNat % 2 ^ 16)))).toNat = min 7500 (max 1000 (v.toNat % 2 ^ 16)) := by
  rw [BitVec.toNat_ofNat]
  omega

theorem exec_corersv {n : Nat} {v : Dword} (hl : regionLive s = true) (hn : n < 1152) (hv : v.toNat ≤ 8)
    (hu : (coreLoad s n []).store - coreRsv s n + v.toNat * 2 ^ 16 ≤ 2 ^ 20) :
    exec (.corersv n v) s = .next (regSet s (coreRsvAddr + 8 * n) v) := by
  show Host.Outcome.next _ = _
  rw [if_neg (by simp [hl, Nat.not_le.mpr hn, Nat.not_lt.mpr hv]; exact hu)]

theorem exec_corersv_ignored {n : Nat} {v : Dword} (h : 1152 ≤ n ∨ 8 < v.toNat) :
    exec (.corersv n v) s = .next s := by
  show Host.Outcome.next _ = _
  rw [if_pos (by rcases h with h | h <;> simp [h])]

theorem exec_slicersv {n : Nat} {v : Dword} (hl : regionLive s = true) (hn : n < 576) (hv : v.toNat ≤ 512) :
    exec (.slicersv n v) s = .next (regSet s (sliceRsvAddr + 8 * n) v) := by
  show Host.Outcome.next _ = _
  rw [if_neg (by simp [hl, Nat.not_le.mpr hn, Nat.not_lt.mpr hv])]

theorem exec_slicersv_ignored {n : Nat} {v : Dword} (h : 576 ≤ n ∨ 512 < v.toNat) :
    exec (.slicersv n v) s = .next s := by
  show Host.Outcome.next _ = _
  rw [if_pos (by rcases h with h | h <;> simp [h])]

/-! ### KILLCTX and resumes -/

theorem stage_regSet {a : Nat} {v : Dword} (h : stageAddr / 8 ≠ a / 8) : stage (regSet s a v) = stage s := by
  unfold stage
  rw [regGet_regSet_other _ _ _ _ h]

theorem asidBound_regSet {a asid : Nat} {v : Dword} (h : (regBase + 8 * asid) / 8 ≠ a / 8) :
    asidBound (regSet s a v) asid = asidBound s asid := by
  unfold asidBound asidEntry
  rw [regGet_regSet_other _ _ _ _ h]

theorem launchOf_regSet (s : State) (a g : Nat) (v : Dword) :
    (regSet s a v).launchOf ((regSet s a v).group g) = s.launchOf (s.group g) :=
  rfl

theorem exec_killctx {v : Dword} (hl : regionLive s = true) (ha : asidBound s (v.toNat % 2 ^ 16) = true) :
    exec (.killctx v) s =
      .next (killContext (regSet s (mgmtBase + 0x6018) (BitVec.ofNat 64 (v.toNat % 2 ^ 16))) (v.toNat % 2 ^ 16)) := by
  show Host.Outcome.next _ = _
  have hb : (regBase + 8 * (v.toNat % 2 ^ 16)) / 8 ≠ (mgmtBase + 0x6018) / 8 := by
    simp only [regBase, mgmtBase]
    omega
  unfold regionLive at *
  rw [stage_regSet (by decide), asidBound_regSet hb, hl, ha]
  exact congrArg Host.Outcome.next (if_pos rfl)

theorem exec_hostResume_none {v : Dword} (h : identGroup s = none) : exec (.hostResume v) s = .next (hrstat s 3) := by
  show Host.Outcome.next _ = _
  rw [h]

/-- A resume takes a group that is away, is not yet eligible, waits for a resume and has an accepted header. -/
def Resumable (s : State) (g : Nat) : Prop :=
  (s.group g).run = .away ∧ (s.group g).eligible = false ∧ ((s.group g).state = 3 ∨ (s.group g).state = 4) ∧
    headerAccepted s (s.group g) = true

theorem resumable_iff (s : State) (g : Nat) :
    ((s.group g).run != .away || (s.group g).eligible || ((s.group g).state != 3 && (s.group g).state != 4) ||
      !headerAccepted s (s.group g)) = false ↔ Resumable s g := by
  simp [Resumable, and_assoc, or_iff_not_imp_left]

theorem exec_hostResume_taken {v : Dword} {g : Nat} (h : identGroup s = some g) (hg : Resumable s g) :
    exec (.hostResume v) s = .next (hrstat (s.setGroup g { s.group g with eligible := true }) 1) := by
  show Host.Outcome.next _ = _
  rw [h]
  simp only [(resumable_iff s g).mpr hg]
  rfl

theorem exec_hostResume_refused {v : Dword} {g : Nat} (h : identGroup s = some g) (hg : ¬ Resumable s g) :
    exec (.hostResume v) s = .next (hrstat s 2) := by
  show Host.Outcome.next _ = _
  rw [← resumable_iff, Bool.not_eq_false] at hg
  rw [h]
  simp only [hg]
  rfl

theorem identGroup_lt {g : Nat} (h : identGroup s = some g) : g < s.groups.length :=
  List.mem_range.mp (List.mem_of_find?_eq_some h)

theorem hrstat_toNat {n : Nat} (hn : n < 4) : (regGet (hrstat s n) (mgmtBase + 0x6010)).toNat = n := by
  unfold hrstat
  rw [regGet_regSet_same, BitVec.toNat_ofNat]
  omega

/-! ### Host stores that are not taken -/

theorem exec_hostStore_ignored {addr : Nat} {data : List Byte}
    (hw : ∀ b, addr ≤ b → b < addr + data.length → regWindow b = false)
    (h : ∀ p : Nat × List Byte, addr ≤ p.1 → p.1 < addr + data.length → hostPiece s p = s) :
    exec (.hostStore addr data) s = .next s := by
  have hr : ∀ p ∈ unitPieces (data.length + 1) addr data, addr ≤ p.1 ∧ p.1 < addr + data.length :=
    fun p hp => unitPieces_range hp
  rw [exec_hostStore, hostPieces_ignored fun p hp => h p (hr p hp).1 (hr p hp).2,
    hostRegPieces_ignored fun p hp => hw p.1 (hr p hp).1 (hr p hp).2]

theorem hostPiece_before_live {p : Nat × List Byte} (hb : hbmBacked p.1 = true) (hl : regionLive s = false) :
    hostPiece s p = s :=
  if_pos (by simp [hb, hl])

theorem hostPiece_stopped {p : Nat × List Byte} (hb : hostWindow p.1 = false) (hl : stopped s = true) :
    hostPiece s p = s :=
  if_pos (by simp [hb, hl])

/-! ### Throttling, errors and windows -/

theorem liveOr_live (h : stopped s = false) : liveOr s t = t := if_neg (by simp [h])

theorem liveOr_stopped (h : stopped s = true) : liveOr s t = s := if_pos h

theorem throttle_counts (s : State) (n : Dword) (entry : Nat) :
    regGet (notify (regSet s (mgmtBase + 0x5010) n) entry) (mgmtBase + 0x5010) = n :=
  ((Performs.refl _).notify.regs _ (by unfold isUeReg; decide)).trans (regGet_regSet_same ..)

theorem mem_poison_markBad {us : List Nat} {u : Nat} (hu : u ∈ us) : u ∈ (markBad s us).poison := by
  refine List.mem_append.mpr ?_
  by_cases hp : u ∈ s.poison
  · exact .inr hp
  · exact .inl (List.mem_filter.mpr ⟨hu, by simpa using hp⟩)

theorem countUe_poison (s : State) (loc : Nat) : (countUe s loc).poison = s.poison := by cases s; rfl

theorem countUe_ueNotes (s : State) (loc : Nat) : (countUe s loc).ueNotes = s.ueNotes + 1 := by cases s; rfl

theorem countUe_counts (s : State) (loc : Nat) :
    regGet (countUe s loc) (mgmtBase + 0x5020) = regGet s (mgmtBase + 0x5020) + 1 := by
  have hr : (countUe s loc).regs = (regSet (regSet s (mgmtBase + 0x5020) (regGet s (mgmtBase + 0x5020) + 1))
      (mgmtBase + 0x5028) (BitVec.ofNat 64 (s.pkg * 2 ^ 46 + loc))).regs := by cases s; rfl
  rw [regGet, hr, ← regGet, regGet_regSet_other _ _ _ _ (by decide), regGet_regSet_same]

theorem fireMonitor_monitors (s : State) (m : Monitor) :
    (fireMonitor s m).monitors = s.monitors.filter (fun x => x != m) := by
  unfold fireMonitor
  split <;> rfl

/-- Monitors that are fired are freed, and no other is. -/
theorem mem_monitors_foldl_fireMonitor {ms : List Monitor} {m : Monitor} :
    m ∈ (ms.foldl fireMonitor s).monitors ↔ m ∈ s.monitors ∧ m ∉ ms := by
  induction ms generalizing s with
  | nil => simp
  | cons x xs ih =>
    rw [List.foldl_cons, ih, fireMonitor_monitors]
    simp [and_assoc]

end Sys2Proof.Machine

section
open Sys2Proof.Machine

/-- Settles O56, clause by clause: each instruction's effect is an equation above, and what it leaves alone follows from
the laws of registers, of performed writes and of the end of a context. -/
theorem hostAndManagement : Obligations.HostAndManagement := by
  refine ⟨fun addr v s => ⟨?written, exec_registerWrite_ignored⟩, fun v s => ?plimit,
    fun n v s => ⟨?corersv, exec_corersv_ignored, ?slicersv, exec_slicersv_ignored⟩, ?killctx,
    fun v s => ⟨?noGroup, ?resume⟩, fun addr data s => ⟨?hostStore, ?beforeLive, ?storeStopped⟩,
    fun on n s => ⟨?throttled, ?throttleStopped⟩, fun a s ha => ⟨?softError, ?scrub, ?scrubStopped⟩,
    fun a s => ⟨rfl, ?cacheLine⟩, fun d k s => ?monitors, fun stack s => ⟨?windowEnd, ?windowStopped⟩⟩
  case written =>
    intro hw hl hq hc hd
    exact ⟨_, exec_registerWrite rfl hw hl hq hc hd, regGet_regSet_same ..,
      fun b hb => regGet_regSet_other _ _ _ _ hb, rfl⟩
  case plimit => exact ⟨_, rfl, rfl, (congrArg _ (regGet_regSet_same ..)).trans (plimit_clamps v)⟩
  case corersv =>
    intro hl hn hv hu
    exact ⟨_, exec_corersv hl hn hv hu, by rw [coreRsv, regGet_regSet_same], rfl⟩
  case slicersv =>
    intro hl hn hv
    exact ⟨_, exec_slicersv hl hn hv, regGet_regSet_same .., rfl⟩
  case killctx =>
    intro v s asid hl ha
    refine ⟨_, exec_killctx hl ha, fun g hg e => killContext_ended hg ?_, fun c hc => ?_⟩
    · rw [launchOf_regSet]
      exact e
    · rw [← launchOf_regSet]
      exact killContext_cmds hc
  case noGroup =>
    intro h
    exact ⟨_, exec_hostResume_none h, hrstat_toNat (by decide), rfl⟩
  case resume =>
    intro g h
    refine ⟨fun hg => ⟨_, exec_hostResume_taken h hg, hrstat_toNat (by decide), ?_⟩,
      fun hg => ⟨_, exec_hostResume_refused h hg, hrstat_toNat (by decide), rfl⟩⟩
    show ((s.setGroup g _).group g).eligible = true
    rw [State.group_setGroup_same _ _ _ (identGroup_lt h)]
  case hostStore =>
    intro hr hm
    refine ⟨_, exec_hostStore addr data s, fun b => ?_⟩
    rw [hostRegPieces_mem, hostPieces_byte (Nat.lt_succ_self _) hr hm]
  case beforeLive =>
    intro h hl
    exact exec_hostStore_ignored (fun b hb hn => (h b hb hn).1) fun p hb hn => hostPiece_before_live (h p.1 hb hn).2 hl
  case storeStopped =>
    intro h hl
    exact exec_hostStore_ignored (fun b hb hn => (h b hb hn).1) fun p hb hn => hostPiece_stopped (h p.1 hb hn).2 hl
  case throttled =>
    intro h
    exact ⟨_, congrArg Host.Outcome.next (liveOr_live h), throttle_counts ..⟩
  case throttleStopped => exact fun h => congrArg Host.Outcome.next (liveOr_stopped h)
  case softError =>
    exact ⟨_, congrArg Host.Outcome.next (if_pos ha), mem_poison_markBad List.mem_cons_self, rfl⟩
  case scrub =>
    intro h
    refine ⟨_, congrArg Host.Outcome.next (if_pos (by simp [ha, h])), ?_, countUe_mem .., countUe_counts ..,
      countUe_ueNotes ..⟩
    rw [countUe_poison]
    exact mem_poison_markBad List.mem_cons_self
  case scrubStopped => exact fun h => congrArg Host.Outcome.next (if_neg (by simp [h]))
  case cacheLine =>
    intro h
    refine ⟨_, congrArg Host.Outcome.next (if_pos (by simpa using h)), fun i hi => mem_poison_markBad ?_, rfl⟩
    exact List.mem_map.mpr ⟨i, List.mem_range.mpr hi, rfl⟩
  case monitors =>
    refine ⟨_, rfl, fun m hm e => ?_, fun m hm e => ?_⟩
    · obtain ⟨hm, hn⟩ := mem_monitors_foldl_fireMonitor.mp hm
      exact hn (List.mem_filter.mpr ⟨hm, by simpa using e⟩)
    · exact mem_monitors_foldl_fireMonitor.mpr ⟨hm, fun hf => e (by simpa using (List.mem_filter.mp hf).2)⟩
  case windowEnd =>
    intro h
    refine ⟨_, congrArg Host.Outcome.next (liveOr_live h), fun p hp => ?_, fun p hp => ?_, fun p hp hn => ?_, rfl⟩
    · simpa using (List.mem_filter.mp hp).2
    · simpa using (List.mem_filter.mp hp).2
    · exact List.mem_filter.mpr ⟨hp, by simpa using hn⟩
  case windowStopped => exact fun h => congrArg Host.Outcome.next (liveOr_stopped h)

end
end

