-- ==== Sys2Proof/Proofs/Reset.lean ====
section
namespace Sys2Proof.Machine

/-- R371: the row-hit threshold of each stack. -/
theorem regGet_reset_hrth : ∀ n < 24, regGet State.reset (0x3F0000200030 + 0x100 * n) = 8192 := by decide +kernel

theorem stage_reset : stage State.reset = 0 := by decide +kernel

/-- R424: PLANEMAP, PLSTAT and FTMO. -/
theorem regGet_reset_planes : regGet State.reset 0x3F0000500000 = 0x76543210 ∧
    regGet State.reset 0x3F0000500008 = 0xFF ∧ regGet State.reset 0x3F0000500010 = 2000 := by
  decide +kernel

/-- R445: PLIMIT, and TEMP and PWR. -/
theorem regGet_reset_power : regGet State.reset 0x3F0000605000 = 7500 ∧ regGet State.reset 0x3F0000605008 = 0 := by
  decide +kernel

end Sys2Proof.Machine

section
open Sys2Proof.Machine

/-- Settles O57: the registers by evaluation, the lists by what `State.reset` gives them. -/
theorem resetState : Obligations.ResetState := by
  obtain ⟨hmap, hstat, hftmo⟩ := regGet_reset_planes
  obtain ⟨hlimit, htemp⟩ := regGet_reset_power
  exact ⟨rfl, stage_reset, regGet_reset_hrth, hmap, hstat, hftmo, hlimit, htemp, rfl, rfl, rfl, rfl, rfl, rfl, rfl⟩

end
end

