-- ==== Sys2Proof/Proofs/InvariantReset.lean ====
section
namespace Sys2Proof.Machine

/-- After reset memory is empty, CAPS is 0, and no write has been made and none waits. -/
theorem Inv.reset : Inv State.reset where
  memory := rfl
  caps := .inl rfl
  history _ h := absurd h List.not_mem_nil
  stores _ h := absurd h List.not_mem_nil

end Sys2Proof.Machine

/-- Settles O58: nothing has been written at reset. -/
theorem invariantAtReset : Obligations.InvariantAtReset := Sys2Proof.Machine.Inv.reset

end

