-- ==== Sys2Proof/Proofs/WaitingStores.lean ====
section
namespace Sys2Proof.Machine

variable {s s0 t : State} {d e f : Dirty} {ds : List Dirty} {p : Dirty → Bool}

/-! ### The stores that a test picks, and those that wait on -/

/-- The stores of a group that a pub performs: those of core-private pages stay in the L1 (R32, R37). -/
def ownStores (g : Nat) (d : Dirty) : Bool := d.grp == g && !d.cp

/-- The stores in a core's L1 that a ref writes back (R37). -/
def l1Stores (core : Nat) (d : Dirty) : Bool := d.core == core && !d.cp && !d.hc

/-- What still waits once the stores that a test picks are performed, each behind those that come before it. -/
def remaining (p : Dirty → Bool) (ds : List Dirty) : List Dirty := ds.diff (closure p ds)

/-- Two stores that come in order behind one another come in order: they are of one unit and one group or L1. -/
theorem Dirty.after_trans (h : d.after e = true) (h' : e.after f = true) : d.after f = true := by
  simp only [Dirty.after, Bool.and_eq_true, beq_iff_eq] at h h' ⊢
  obtain ⟨⟨⟨hu, hh⟩, hc⟩, ho⟩ := h
  obtain ⟨⟨⟨hu', hh'⟩, hc'⟩, ho'⟩ := h'
  refine ⟨⟨⟨hu.trans hu', hh.trans hh'⟩, hc.trans hc'⟩, ?_⟩
  rw [← hh] at ho'
  split at ho
  next hd =>
    rw [if_pos hd, beq_iff_eq] at ho'
    rw [if_pos hd, beq_iff_eq]
    exact (beq_iff_eq.mp ho).trans ho'
  next hd =>
    rw [if_neg hd, beq_iff_eq] at ho'
    rw [if_neg hd, beq_iff_eq]
    exact (beq_iff_eq.mp ho).trans ho'

theorem closure_sublist (p : Dirty → Bool) (ds : List Dirty) : (closure p ds).Sublist ds := by
  induction ds with
  | nil => exact .slnil
  | cons d ds ih =>
    simp only [closure]
    split
    · exact ih.cons_cons d
    · exact ih.cons d

/-- Every copy of a store that the test picks is performed. -/
theorem count_closure (hp : p d = true) : (closure p ds).count d = ds.count d := by
  induction ds with
  | nil => rfl
  | cons e ds ih =>
    simp only [closure]
    split
    · rw [List.count_cons, List.count_cons, ih]
    next hn =>
      have hne : e ≠ d := fun he => hn (by rw [he, hp]; rfl)
      rw [List.count_cons_of_ne hne, ih]

theorem mem_closure_of_picked (hd : d ∈ ds) (hp : p d = true) : d ∈ closure p ds :=
  List.count_pos_iff.mp ((count_closure hp).symm ▸ List.count_pos_iff.mpr hd)

/-- What is performed is picked, or comes before a store that is. -/
theorem closure_cases (hd : d ∈ closure p ds) : p d = true ∨ ∃ e ∈ ds, p e = true ∧ e.after d = true := by
  induction ds generalizing d with
  | nil => exact absurd hd List.not_mem_nil
  | cons x ds ih =>
    have htail (h : d ∈ closure p ds) : p d = true ∨ ∃ e ∈ x :: ds, p e = true ∧ e.after d = true :=
      (ih h).imp_right fun ⟨e, he, h⟩ => ⟨e, List.mem_cons_of_mem x he, h⟩
    simp only [closure] at hd
    split at hd
    next hx =>
      obtain rfl | hd := List.mem_cons.mp hd
      · obtain hx | hx := Bool.or_eq_true_iff.mp hx
        · exact .inl hx
        · obtain ⟨e, he, hed⟩ := List.any_eq_true.mp hx
          obtain hpe | ⟨f, hf, hpf, hfe⟩ := ih he
          · exact .inr ⟨e, List.mem_cons_of_mem d ((closure_sublist p ds).subset he), hpe, hed⟩
          · exact .inr ⟨f, List.mem_cons_of_mem d hf, hpf, Dirty.after_trans hfe hed⟩
      · exact htail hd
    · exact htail hd

theorem remaining_subset : remaining p ds ⊆ ds := List.diff_subset _ _

theorem not_picked_of_mem_remaining (hd : d ∈ remaining p ds) : ¬ p d = true := fun hp => by
  have h := List.count_pos_iff.mpr hd
  rw [remaining, List.count_diff, count_closure hp, Nat.sub_self] at h
  exact Nat.lt_irrefl 0 h

/-- A store waits on that is not picked and comes before none that is. -/
theorem mem_remaining (hd : d ∈ ds) (hp : ¬ p d = true) (hb : ∀ e ∈ ds, p e = true → e.after d = false) :
    d ∈ remaining p ds := by
  refine List.mem_diff_of_mem hd fun hc => ?_
  obtain h | ⟨e, he, hpe, hed⟩ := closure_cases hc
  · exact hp h
  · rw [hb e he hpe] at hed
    exact Bool.false_ne_true hed

/-! ### What performing stores leaves alone -/

/-- The state `t` has come from `s` by performed writes, and by what a fence or a ref notes: the same group moves, no
strand has moved, and the stores that wait are `ds`. -/
structure StrandsKept (s : State) (ds : List Dirty) (t : State) : Prop where
  cur : t.cur = s.cur
  dirty : t.dirty = ds
  length : t.groups.length = s.groups.length
  strand : ∀ g, (t.group g).st = (s.group g).st
  deferred : ∀ g, (t.group g).deferred = (s.group g).deferred

theorem StrandsKept.refl (s : State) : StrandsKept s s.dirty s := ⟨rfl, rfl, rfl, fun _ => rfl, fun _ => rfl⟩

/-- The fields that a performed write may change at will. -/
theorem StrandsKept.update {mem : Memory} {ord nextId ueNotes : Nat} {hist : List Hist} {poison : List Nat}
    {regs : SMap Dword} {baseOps : List BaseOp} {monitors : List Monitor} {queues : SMap QRun} {remote : List RemReq}
    (h : StrandsKept s0 ds s) :
    StrandsKept s0 ds { s with
      mem := mem, ord := ord, nextId := nextId, ueNotes := ueNotes, hist := hist, poison := poison, regs := regs,
      baseOps := baseOps, monitors := monitors, queues := queues, remote := remote } :=
  ⟨h.cur, h.dirty, h.length, h.strand, h.deferred⟩

theorem StrandsKept.regSet {a : Nat} {v : Dword} (h : StrandsKept s0 ds s) : StrandsKept s0 ds (regSet s a v) :=
  h.update

theorem StrandsKept.mapDirty (h : StrandsKept s0 ds s) (f : List Dirty → List Dirty) :
    StrandsKept s0 (f ds) { s with dirty := f s.dirty } :=
  ⟨h.cur, congrArg f h.dirty, h.length, h.strand, h.deferred⟩

theorem StrandsKept.setDirty (h : StrandsKept s0 ds s) (ds' : List Dirty) :
    StrandsKept s0 ds' { s with dirty := ds' } :=
  h.mapDirty fun _ => ds'

theorem StrandsKept.setGroup {g : Nat} {x : Group} (h : StrandsKept s0 ds s) (hst : x.st = (s.group g).st)
    (hdef : x.deferred = (s.group g).deferred) : StrandsKept s0 ds (s.setGroup g x) where
  cur := h.cur
  dirty := h.dirty
  length := (State.setGroup_length ..).trans h.length
  strand i := by
    rw [State.group_setGroup, ← h.strand i]
    split
    next hi => rw [hst, hi.1]
    · rfl
  deferred i := by
    rw [State.group_setGroup, ← h.deferred i]
    split
    next hi => rw [hdef, hi.1]
    · rfl

theorem StrandsKept.setWait (s : State) (w : Wait) : StrandsKept s s.dirty (s.setGrp { s.grp with wait := w }) :=
  (StrandsKept.refl s).setGroup rfl rfl

theorem StrandsKept.ite {c : Prop} [Decidable c] (hs : StrandsKept s0 ds s) (ht : StrandsKept s0 ds t) :
    StrandsKept s0 ds (if c then s else t) := by
  split
  · exact hs
  · exact ht

theorem StrandsKept.foldl {α : Type} {f : State → α → State} {xs : List α} (h : StrandsKept s0 ds s)
    (hf : ∀ {t x}, StrandsKept s0 ds t → StrandsKept s0 ds (f t x)) : StrandsKept s0 ds (xs.foldl f s) := by
  induction xs generalizing s with
  | nil => exact h
  | cons x xs ih => exact ih (hf h)

theorem StrandsKept.countUe {loc : Nat} (h : StrandsKept s0 ds s) : StrandsKept s0 ds (countUe s loc) :=
  h.regSet.regSet.update

theorem StrandsKept.noteBase {write : Bool} {loc mask : Nat} {sure : Bool} (h : StrandsKept s0 ds s) :
    StrandsKept s0 ds (noteBase s write loc mask sure) :=
  .ite h h.update

theorem wakeMonitor_st (g : Group) : (wakeMonitor g).st = g.st := by
  unfold wakeMonitor
  split <;> rfl

theorem wakeMonitor_deferred (g : Group) : (wakeMonitor g).deferred = g.deferred := by
  unfold wakeMonitor
  split <;> rfl

theorem StrandsKept.fireMonitor {m : Monitor} (h : StrandsKept s0 ds s) : StrandsKept s0 ds (fireMonitor s m) := by
  simp only [Machine.fireMonitor]
  split
  · exact h.update.setGroup (wakeMonitor_st _) (wakeMonitor_deferred _)
  · exact h.update
  · exact h.update

theorem StrandsKept.recheckLine {line : Nat} (h : StrandsKept s0 ds s) : StrandsKept s0 ds (recheckLine s line) :=
  h.foldl (fun ht => .ite ht.fireMonitor ht)

theorem StrandsKept.writeUnit {w : Writer} {u : Nat} {mask val : Dword} (h : StrandsKept s0 ds s) :
    StrandsKept s0 ds (writeUnit s w u mask val) :=
  (StrandsKept.ite h.countUe h).noteBase.update.recheckLine

/-- A unit that is sent to another package issues requests, and nothing else. -/
theorem sendUnit_eq (s : State) (w : Writer) (d u : Nat) :
    ∃ rs n, sendUnit s w d u = { s with remote := rs, nextId := n } := by
  simp only [sendUnit]
  split
  · exact ⟨_, _, rfl⟩
  · exact ⟨_, _, rfl⟩

theorem StrandsKept.sendUnit {w : Writer} {d u : Nat} (h : StrandsKept s0 ds s) :
    StrandsKept s0 ds (sendUnit s w d u) := by
  obtain ⟨rs, n, e⟩ := sendUnit_eq s w d u
  rw [e]
  exact h.update

theorem StrandsKept.dualWrite {w : Writer} {d u : Nat} {mask val : Dword} (h : StrandsKept s0 ds s) :
    StrandsKept s0 ds (dualWrite s w d u mask val) :=
  .ite h.writeUnit h.sendUnit

theorem StrandsKept.performBy {w : Writer} {u : Nat} {mask val : Dword} (h : StrandsKept s0 ds s) :
    StrandsKept s0 ds (performBy s w u mask val) := by
  simp only [Machine.performBy]
  split
  · refine StrandsKept.dualWrite ?_
    split
    · exact h.writeUnit.sendUnit
    · exact h.writeUnit
  · split
    · exact h.writeUnit.sendUnit
    · exact h.writeUnit

theorem StrandsKept.bornAt {n born : Nat} (h : StrandsKept s0 ds s) : StrandsKept s0 ds (bornAt s n born) := h.update

theorem StrandsKept.sureWrites {loc : Nat} (h : StrandsKept s0 ds s) : StrandsKept s0 ds (sureWrites s loc) := h.update

theorem StrandsKept.setSeen {g u stamp : Nat} (h : StrandsKept s0 ds s) : StrandsKept s0 ds (setSeen s g u stamp) :=
  .ite (h.setGroup rfl rfl) h

/-- A performed store waits no more. -/
theorem StrandsKept.performDirty1 (h : StrandsKept s0 ds s) (d : Dirty) :
    StrandsKept s0 (ds.erase d) (performDirty1 s d) := by
  unfold Machine.performDirty1
  extract_lets s1 marked s2
  have h1 : StrandsKept s0 ds s1 := h.performBy.bornAt
  have h2 : StrandsKept s0 ds marked := .ite h1.sureWrites h1
  have h3 : StrandsKept s0 (ds.erase d) s2 := h1.dirty ▸ h2.setDirty (s1.dirty.erase d)
  exact h3.foldl (fun ht => ht.setSeen)

theorem StrandsKept.foldl_performDirty1 (h : StrandsKept s0 ds s) (xs : List Dirty) :
    StrandsKept s0 (ds.diff xs) (xs.foldl Machine.performDirty1 s) := by
  induction xs generalizing s ds with
  | nil => exact h
  | cons x xs ih =>
    rw [List.diff_cons]
    exact ih (h.performDirty1 x)

theorem StrandsKept.performDirty (h : StrandsKept s0 ds s) (p : Dirty → Bool) :
    StrandsKept s0 (remaining p ds) (performDirty s p) := by
  obtain rfl := h.dirty
  exact h.foldl_performDirty1 _

theorem StrandsKept.shutWrites {g : Nat} (h : StrandsKept s0 ds s) : StrandsKept s0 ds (shutWrites s g) :=
  .ite h.update h

theorem pub_eq {g scope : Nat} (h : scope ≠ 0) :
    pub s g scope = shutWrites (performDirty s (ownStores g)) g :=
  if_neg (by simpa using h)

theorem StrandsKept.pub {g scope : Nat} (h : StrandsKept s0 ds s) (hs : scope ≠ 0) :
    StrandsKept s0 (remaining (ownStores g) ds) (pub s g scope) := by
  rw [pub_eq hs]
  exact (h.performDirty _).shutWrites

theorem StrandsKept.ref {g scope : Nat} (h : StrandsKept s0 ds s) (hs : scope ≠ 0) :
    StrandsKept s0 ((remaining (l1Stores (s.group g).core) ds).map
      (Dirty.readBy g fun d => d.core == (s.group g).core && d.cp)) (ref s g scope) := by
  have hp := (h.performDirty (l1Stores (s.group g).core)).mapDirty
    (List.map (Dirty.readBy g fun d => d.core == (s.group g).core && d.cp))
  rw [Machine.ref, if_neg (by simpa using hs)]
  exact StrandsKept.setGroup hp.update rfl rfl

theorem StrandsKept.codeRef {g scope : Nat} (h : StrandsKept s0 ds s) : StrandsKept s0 ds (codeRef s g scope) :=
  h.setGroup rfl rfl

/-! ### What follows for the moving group -/

theorem StrandsKept.grp_st (h : StrandsKept s ds t) : t.grp.st = s.grp.st := by
  rw [State.grp, h.cur, h.strand]
  rfl

theorem StrandsKept.grp_deferred (h : StrandsKept s ds t) : t.grp.deferred = s.grp.deferred := by
  rw [State.grp, h.cur, h.deferred]
  rfl

theorem State.advance_grp (hl : s.cur.grp < s.groups.length) :
    s.advance.grp = { s.grp with st := { s.grp.st with spc := s.spc + 4 } } :=
  State.grp_setGrp _ _ hl

theorem StrandsKept.passed (h : StrandsKept s ds t) (hl : s.cur.grp < s.groups.length) : Claims.Passed s t.advance := by
  have hst : t.advance.grp.st = { s.grp.st with spc := s.spc + 4 } := by
    rw [State.advance_grp (by rw [h.cur, h.length]; exact hl), State.spc, h.grp_st]
    rfl
  constructor
  · rw [State.spc, hst]
  · intro r
    rw [State.reg, hst]
    rfl

/-- R37: what a pub of the moving group leaves waiting. -/
theorem published_of_dirty (h : t.dirty = remaining (ownStores s.cur.grp) s.dirty) : Claims.Published s t := by
  have hpick (d : Dirty) : ownStores s.cur.grp d = true ↔ d.grp = s.cur.grp ∧ d.cp = false := by simp [ownStores]
  constructor
  · intro d hd
    rw [h] at hd
    exact fun hn => not_picked_of_mem_remaining hd ((hpick d).mpr hn)
  · intro d hd hn hb
    rw [h]
    refine mem_remaining hd (fun hp => hn ((hpick d).mp hp)) fun e he hp => ?_
    obtain ⟨hg, hcp⟩ := (hpick e).mp hp
    exact hb e he hg hcp
  · intro d hd
    rw [h] at hd
    exact remaining_subset hd

end Sys2Proof.Machine
end

