-- ==== Sys2Proof/Proofs/Fences.lean ====
section
namespace Sys2Proof.Machine

variable {s s0 t : State} {ds : List Dirty} {m : BitVec 7}

/-! ### Path masks -/

theorem bit_toNat {w : Nat} (m : BitVec w) (i : Nat) : bit m.toNat i = m.getLsbD i := by
  rw [bit, BitVec.getLsbD, Nat.testBit_eq_decide_div_mod_eq]
  rfl

/-- A mask with LANE put into it names LANE. -/
theorem bit_lane_maskSet (n : Nat) : bit (maskSet n 0 true) 0 = true := by
  unfold maskSet
  split
  next h => simpa using h
  next h =>
    have hn : n % 2 ≠ 1 := by simpa [bit] using h
    have hs : (n + 1) % 2 = 1 := by omega
    simpa [bit] using hs

/-- It is LANE alone only where the mask names no other class. -/
theorem maskSet_lane_ne_one {n : Nat} (h0 : n ≠ 0) (h1 : n ≠ 1) : maskSet n 0 true ≠ 1 := by
  unfold maskSet
  split
  · exact h1
  · simpa using h0

/-! ### Serialising instructions -/

theorem toNat_ne_zero {w : Nat} {x : BitVec w} (h : x ≠ 0) : x.toNat ≠ 0 := fun e => h (BitVec.eq_of_toNat_eq e)

theorem strandSerial_quiet {k : State} (h : s.grp.quiet = true) : strandSerial s k = .next k :=
  congrArg Host.Outcome.next (if_pos h)

/-- R232: a fence without a deferred fault goes on. -/
theorem reportDeferred_none (h : t.grp.deferred = []) : reportDeferred s t = t.advance := by
  rw [reportDeferred, h]
  rfl

/-- The end of a fence that has no deferred fault to report, whether or not it names FABRIC. -/
theorem fenceEnd_eq {n : Nat} (h : bit n 5 = true → t.grp.deferred = []) :
    (if bit n 5 then reportDeferred s t else t.advance) = t.advance := by
  split
  next hb => exact reportDeferred_none (h hb)
  · rfl

/-! ### The effect of a fence -/

theorem StrandsKept.shutMatrix {ws : List (Nat × Nat × Nat)} (h : StrandsKept s0 ds s) :
    StrandsKept s0 ds (shutMatrix s ws) :=
  h.update

theorem StrandsKept.seeWrites {g n : Nat} {ws : List (Nat × Nat × Nat)} (h : StrandsKept s0 ds s) :
    StrandsKept s0 ds (seeWrites s g n ws) :=
  h.setGroup rfl rfl

/-- R45: a fence that names LANE and another class publishes the group's stores; any other performs none. -/
theorem StrandsKept.fenceOver {g n : Nat} {ws : List (Nat × Nat × Nat)} (h : StrandsKept s0 ds s) :
    StrandsKept s0 (if n ≠ 1 ∧ bit n 0 = true then remaining (ownStores g) ds else ds) (fenceOver s g n ws) := by
  unfold Machine.fenceOver
  by_cases h1 : n = 1
  · rw [if_pos h1, if_neg (fun hn => hn.1 h1)]
    exact h
  · rw [if_neg h1]
    cases hb : bit n 0
    · simp only [Bool.false_and, Bool.false_eq_true, and_false, if_false]
      exact h.seeWrites
    · simp only [ne_eq, h1, not_false_eq_true, and_self, if_true]
      exact (StrandsKept.ite (h.performDirty _).shutMatrix (h.performDirty _)).seeWrites.seeWrites.setGroup rfl rfl

theorem fenceOver_lane {g : Nat} {ws : List (Nat × Nat × Nat)} : fenceOver s g 1 ws = s := if_pos rfl

theorem published_advance_fenceOver {n : Nat} {ws : List (Nat × Nat × Nat)} (h1 : n ≠ 1) (hb : bit n 0 = true) :
    Claims.Published s (fenceOver s s.cur.grp n ws).advance :=
  published_of_dirty ((StrandsKept.refl s).fenceOver.dirty.trans (if_pos ⟨h1, hb⟩))

/-! ### XFENCE and DRAIN -/

theorem exec_xfence_wait (hc : Committed s) (hr : fenceReady s s.cur.grp m.toNat = false) :
    exec (.xfence m) s = .next s :=
  (strandSerial_quiet hc.quiet).trans (by rw [hr]; rfl)

theorem exec_xfence_over (hc : Committed s) (hd : m.getLsbD 5 = true → Claims.NoDeferred s)
    (hr : fenceReady s s.cur.grp m.toNat = true) :
    exec (.xfence m) s = .next (fenceEffect s s.cur.grp m.toNat).advance := by
  refine (strandSerial_quiet hc.quiet).trans (congrArg Host.Outcome.next ?_)
  rw [hr]
  exact fenceEnd_eq fun hb => (StrandsKept.refl s).fenceOver.grp_deferred.trans (hd (bit_toNat m 5 ▸ hb))

theorem exec_drain_none (hc : Committed s) :
    exec (.drain 0) s = .next (s.setGrp { s.grp with wait := .none }).advance :=
  strandSerial_quiet hc.quiet

theorem drainMark_awake {g : Group} (h : g.wait = .none) : drainMark g = none := by
  rw [drainMark, h]

theorem exec_drain_wait (hc : Committed s) (hm : m ≠ 0) (hw : s.grp.wait = .none)
    (hr : coreBusy s s.grp.core m.toNat s.nextId = true ∨ fenceReady s s.cur.grp m.toNat = false) :
    exec (.drain m) s = .next (s.setGrp { s.grp with wait := .drain s.nextId }) := by
  refine (strandSerial_quiet hc.quiet).trans (congrArg Host.Outcome.next ?_)
  rw [drainMark_awake hw]
  refine if_pos ?_
  rw [Bool.and_eq_true, Bool.or_eq_true, Bool.not_eq_true', decide_eq_true_eq]
  exact ⟨toNat_ne_zero hm, hr⟩

theorem State.setGrp_awake (h : s.grp.wait = .none) : s.setGrp { s.grp with wait := .none } = s := by
  rw [← h]
  exact State.setGrp_self s

/-- R47: a DRAIN whose waits are over acts as an XFENCE of LANE and the mask, over the writes of its core. -/
theorem exec_drain_over (hc : Committed s) (hd : m.getLsbD 5 = true → Claims.NoDeferred s) (hm : m ≠ 0)
    (hw : s.grp.wait = .none) (hb : coreBusy s s.grp.core m.toNat s.nextId = false)
    (hr : fenceReady s s.cur.grp m.toNat = true) :
    exec (.drain m) s =
      .next (fenceOver s s.cur.grp (maskSet m.toNat 0 true) (coreWrites s s.grp.core)).advance := by
  refine (strandSerial_quiet hc.quiet).trans (congrArg Host.Outcome.next ?_)
  rw [drainMark_awake hw, Option.getD_none]
  dsimp only
  rw [hb, hr, State.setGrp_awake hw, if_neg (toNat_ne_zero hm), if_neg (by simp)]
  exact fenceEnd_eq fun h5 => (StrandsKept.refl s).fenceOver.grp_deferred.trans (hd (bit_toNat m 5 ▸ h5))

end Sys2Proof.Machine

section
open Sys2Proof.Machine Sys2Proof.Claims

/-- Settles O32: each fence by what it executes to, and what it publishes by the stores that its effect leaves
waiting. -/
theorem fences : Obligations.Fences := by
  intro s m hc hd
  have hm1 : m ≠ 1 → m.toNat ≠ 1 := fun h e => h (BitVec.eq_of_toNat_eq e)
  refine ⟨fun hr => ⟨_, exec_xfence_over hc hd hr, ?_, ?_, ?_⟩, exec_xfence_wait hc, ?_, ?_, exec_drain_wait hc⟩
  · exact (StrandsKept.refl s).fenceOver.passed hc.live
  · intro h0 h1
    exact published_advance_fenceOver (hm1 h1) (bit_toNat m 0 ▸ h0)
  · rintro rfl
    exact congrArg State.advance fenceOver_lane
  · rintro rfl
    exact ⟨_, exec_drain_none hc, (StrandsKept.setWait s .none).passed hc.live, rfl⟩
  · intro hw hb hr
    by_cases hm : m = 0
    · subst hm
      exact ⟨_, exec_drain_none hc, (StrandsKept.setWait s .none).passed hc.live, fun h => absurd rfl h⟩
    · refine ⟨_, exec_drain_over hc hd hm hw hb hr, (StrandsKept.refl s).fenceOver.passed hc.live, fun _ h1 => ?_⟩
      exact published_advance_fenceOver (maskSet_lane_ne_one (toNat_ne_zero hm) (hm1 h1)) (bit_lane_maskSet _)

end
end

