-- ==== Sys2Proof/Proofs/Visibility.lean ====
section
namespace Sys2Proof.Machine

variable {s t : State} {d : Dirty} {u : Nat} {sc : BitVec 3}

/-! ### PHASE.ref and PHASE.pub -/

theorem exec_phaseRef (hc : Committed s) (hd : Claims.NoDeferred s) (h0 : sc ≠ 0) :
    exec (.phaseRef sc) s = .next (codeRef (ref s s.cur.grp sc.toNat) s.cur.grp sc.toNat).advance := by
  refine (strandSerial_quiet hc.quiet).trans (congrArg Host.Outcome.next ?_)
  exact reportDeferred_none (((StrandsKept.refl s).ref (toNat_ne_zero h0)).codeRef.grp_deferred.trans hd)

theorem exec_phasePub (hc : Committed s) (hd : Claims.NoDeferred s) (h0 : sc ≠ 0) :
    exec (.phasePub sc) s = .next
      (if pubReady (pub s s.cur.grp sc.toNat) s.cur.grp sc.toNat then (pub s s.cur.grp sc.toNat).advance
        else pub s s.cur.grp sc.toNat) := by
  refine (strandSerial_quiet hc.quiet).trans (congrArg Host.Outcome.next ?_)
  have hk := (StrandsKept.refl s).pub (g := s.cur.grp) (toNat_ne_zero h0)
  have hr := reportDeferred_none (s := pub s s.cur.grp sc.toNat) (hk.grp_deferred.trans hd)
  cases hp : pubReady (pub s s.cur.grp sc.toNat) s.cur.grp sc.toNat
  · simp [hp]
  · simpa [hp] using hr

/-! ### The values that an ordinary load may return -/

theorem newestOf_cons (h : Hist) (hs : List Hist) (p : Hist → Bool) (floor : Nat) :
    newestOf (h :: hs) p floor = newestOf hs p (if p h && decide (floor < h.stamp) then h.stamp else floor) :=
  rfl

theorem floor_le_newestOf (hs : List Hist) (p : Hist → Bool) (floor : Nat) : floor ≤ newestOf hs p floor := by
  induction hs generalizing floor with
  | nil => exact Nat.le_refl floor
  | cons h hs ih =>
    rw [newestOf_cons]
    refine Nat.le_trans ?_ (ih _)
    split
    next hp =>
      rw [Bool.and_eq_true, decide_eq_true_eq] at hp
      exact Nat.le_of_lt hp.2
    · exact Nat.le_refl floor

theorem stamp_le_newestOf {hs : List Hist} {p : Hist → Bool} {h : Hist} (hh : h ∈ hs) (hp : p h = true) (floor : Nat) :
    h.stamp ≤ newestOf hs p floor := by
  induction hs generalizing floor with
  | nil => exact absurd hh List.not_mem_nil
  | cons x hs ih =>
    rw [newestOf_cons]
    obtain rfl | hh := List.mem_cons.mp hh
    · refine Nat.le_trans ?_ (floor_le_newestOf hs p _)
      rw [hp, Bool.true_and]
      split
      · exact Nat.le_refl _
      next hn => exact Nat.le_of_not_lt (by simpa using hn)
    · exact ih hh _

/-- Above the newest write there stands one value. -/
theorem valuesOf_of_newest {hs : List Hist} {base : Nat} (h : ∀ x ∈ hs, x.stamp ≤ base) (top : Dword) :
    valuesOf top hs base = [(top, newestOf hs (fun _ => true) 0)] := by
  have hnone : hs.filter (fun x => decide (base < x.stamp)) = [] :=
    List.filter_eq_nil_iff.mpr fun x hx => by simpa using h x hx
  rw [valuesOf, hnone]
  rfl

/-- R40: where every write of a unit was published no later than a group's last ref, and no store to these bits of it
waits, an ordinary load of the group returns the newest value. -/
theorem loadValues_newest {g : Nat} {mask : Dword}
    (hpub : ∀ h ∈ unitHist s u, h.shut ≠ 0 ∧ h.shut ≤ (s.group g).refStamp)
    (hw : waitingStores s g u 0 mask = []) : loadValues s g u 0 mask = [unitOf s u] := by
  have hbase : ∀ h ∈ unitHist s u, h.stamp ≤ loadBase s g u := fun h hh =>
    stamp_le_newestOf hh (by simpa using hpub h hh) _
  have hvals : baseValues s g u 0 = [(unitOf s u, newestOf (unitHist s u) (fun _ => true) 0)] :=
    valuesOf_of_newest hbase (unitOf s u)
  rw [loadValues, loadChoices, hw, hvals]
  rfl

theorem ref_refStamp {g scope : Nat} (h0 : scope ≠ 0) (hl : g < s.groups.length) :
    ((ref s g scope).group g).refStamp = (ref s g scope).ord := by
  have hlen := ((StrandsKept.refl s).performDirty (l1Stores (s.group g).core)).length
  rw [ref, if_neg (by simpa using h0)]
  refine congrArg Group.refStamp (State.group_setGroup_same _ _ _ ?_)
  exact hlen ▸ hl

/-- R40: after a ref the group's snapshot is of this moment. -/
theorem exec_phaseRef_refStamp (hc : Committed s) (hd : Claims.NoDeferred s) (h0 : sc ≠ 0)
    (he : exec (.phaseRef sc) s = .next t) : (t.group t.cur.grp).refStamp = t.ord := by
  have hk := (StrandsKept.refl s).ref (g := s.cur.grp) (toNat_ne_zero h0)
  have hl : s.cur.grp < (ref s s.cur.grp sc.toNat).groups.length := hk.length ▸ hc.live
  have hr := ref_refStamp (toNat_ne_zero h0) hc.live
  obtain rfl := Host.Outcome.next.inj ((exec_phaseRef hc hd h0).symm.trans he)
  generalize ref s s.cur.grp sc.toNat = r at hk hl hr
  have hgrp : (codeRef r s.cur.grp sc.toNat).grp.refStamp = r.ord := by
    rw [State.grp, codeRef, State.setGroup_cur, hk.cur, State.group_setGroup_same _ _ _ hl]
    exact hr
  refine (congrArg Group.refStamp (State.advance_grp ?_)).trans hgrp
  rw [codeRef, State.setGroup_cur, hk.cur, State.setGroup_length]
  exact hl

/-! ### What a performed store leaves in memory -/

theorem unitOf_eq_memRead (hu : 8 * u < migBase) (s : State) :
    unitOf s u = BitVec.ofNat 64 (memRead s.mem (8 * u) 8) := by
  rw [unitOf, memAt, backing_of_lt hu]

theorem performBy_mem (hu : 8 * u < migBase) (hm : s.migrations = []) (w : Writer) (mask val : Dword) :
    (performBy s w u mask val).mem = memWrite s.mem (8 * u) 8 (blend (unitOf s u) mask val).toNat := by
  have hfar : farTarget s u = none := by simp [farTarget, hu]
  have hdual : dualTarget s u = none := by simp [dualTarget, hm]
  simp only [performBy, hfar, hdual]
  exact writeUnit_mem hu s w mask val

theorem setSeen_mem (s : State) (g u stamp : Nat) : (setSeen s g u stamp).mem = s.mem := by
  simp only [setSeen]
  split <;> rfl

theorem setSeens_mem (gs : List Nat) (s : State) (u : Nat) :
    (gs.foldl (fun s g => setSeen s g u s.ord) s).mem = s.mem := by
  induction gs generalizing s with
  | nil => rfl
  | cons g gs ih => exact (ih _).trans (setSeen_mem ..)

theorem performDirty1_mem (hu : 8 * d.unit < migBase) (hm : s.migrations = []) :
    (performDirty1 s d).mem = memWrite s.mem (8 * d.unit) 8 (blend (unitOf s d.unit) d.mask d.val).toNat := by
  have hw := performBy_mem hu hm (if d.cp then .inside else .lane d.grp) d.mask d.val
  refine (setSeens_mem ..).trans (Eq.trans ?_ hw)
  dsimp only
  split <;> rfl

theorem unitOf_performDirty1_same (hu : 8 * d.unit < migBase) (hm : s.migrations = []) :
    unitOf (performDirty1 s d) d.unit = blend (unitOf s d.unit) d.mask d.val := by
  have hlt : (blend (unitOf s d.unit) d.mask d.val).toNat < 256 ^ 8 := BitVec.isLt _
  rw [unitOf_eq_memRead hu, performDirty1_mem hu hm, memRead_memWrite_same, Nat.mod_eq_of_lt hlt, BitVec.ofNat_toNat,
    BitVec.setWidth_eq]

theorem unitOf_performDirty1_other (hd : 8 * d.unit < migBase) (hu : 8 * u < migBase) (hm : s.migrations = [])
    (hne : d.unit ≠ u) : unitOf (performDirty1 s d) u = unitOf s u := by
  rw [unitOf_eq_memRead hu, performDirty1_mem hd hm, memRead_memWrite_outside _ _ _ _ _ _ (by omega),
    unitOf_eq_memRead hu]

/-- A masked write made twice is made once. -/
theorem blend_blend (x mask v : Dword) : blend (blend x mask v) mask v = blend x mask v := by
  unfold blend
  ext i
  simp only [BitVec.getElem_or, BitVec.getElem_and, BitVec.getElem_not]
  cases mask[i] <;> simp

/-- Of several stores performed, those of other units do not change what one leaves. -/
theorem unitOf_foldl_performDirty1 {xs : List Dirty} (hu : 8 * d.unit < migBase) (hm : s.migrations = [])
    (hxs : ∀ x ∈ xs, 8 * x.unit < migBase ∧ (x ≠ d → x.unit ≠ d.unit)) :
    unitOf (xs.foldl performDirty1 s) d.unit =
      if d ∈ xs then blend (unitOf s d.unit) d.mask d.val else unitOf s d.unit := by
  induction xs generalizing s with
  | nil => rfl
  | cons x xs ih =>
    obtain ⟨hx, hxs⟩ := List.forall_mem_cons.mp hxs
    have hm1 : (performDirty1 s x).migrations = [] := (Performs.refl s).performDirty1.migrations.trans hm
    rw [List.foldl_cons, ih hm1 hxs]
    by_cases he : x = d
    · subst he
      rw [unitOf_performDirty1_same hu hm, blend_blend, if_pos List.mem_cons_self, ite_self]
    · simp only [unitOf_performDirty1_other hx.1 hu hm (hx.2 he), List.mem_cons, Ne.symm he, false_or]

theorem shutWrites_mem (s : State) (g : Nat) : (shutWrites s g).mem = s.mem := by
  simp only [shutWrites]
  split <;> rfl

/-- R37: a pub performs the group's store that alone waits for its unit. -/
theorem unitOf_pub {g scope : Nat} (h0 : scope ≠ 0) (hm : s.migrations = []) (hd : d ∈ s.dirty)
    (hp : ownStores g d = true) (hone : ∀ x ∈ s.dirty, x ≠ d → x.unit ≠ d.unit)
    (hlow : ∀ x ∈ s.dirty, 8 * x.unit < migBase) :
    unitOf (pub s g scope) d.unit = blend (unitOf s d.unit) d.mask d.val := by
  have hmem : (pub s g scope).mem = (performDirty s (ownStores g)).mem := by rw [pub_eq h0, shutWrites_mem]
  rw [unitOf_eq_memRead (hlow d hd), hmem, ← unitOf_eq_memRead (hlow d hd), performDirty,
    unitOf_foldl_performDirty1 (hlow d hd) hm, if_pos (mem_closure_of_picked hd hp)]
  intro x hx
  have hxs := (closure_sublist (ownStores g) s.dirty).subset hx
  exact ⟨hlow x hxs, hone x hxs⟩

end Sys2Proof.Machine

section
open Sys2Proof.Machine Sys2Proof.Claims

/-- Settles O31: after a ref every published write lies behind the group's snapshot; and what a pub performs stands in
memory. -/
theorem visibility : Obligations.Visibility := by
  refine ⟨fun s t sc hi hc hd h0 he u m hpub hw v hv => ?_, fun s t sc d hc hd hm h0 hdd hg hcp hone hlow he => ?_⟩
  · have hstamp := exec_phaseRef_refStamp hc hd h0 he
    have hinv : Inv t := hi.exec.next he
    have hshut : ∀ h ∈ unitHist t u, h.shut ≠ 0 ∧ h.shut ≤ (t.group t.cur.grp).refStamp := fun h hh =>
      ⟨hpub h hh, hstamp ▸ (hinv.history h (List.mem_of_mem_filter hh)).2⟩
    rw [loadValues_newest hshut hw] at hv
    exact List.mem_singleton.mp hv
  · have hunit := unitOf_pub (toNat_ne_zero h0) hm hdd (g := s.cur.grp) (by simp [ownStores, hg, hcp]) hone hlow
    obtain rfl := Host.Outcome.next.inj ((exec_phasePub hc hd h0).symm.trans he)
    refine Eq.trans ?_ hunit
    split <;> rfl

end
end

