-- ==== Sys2Proof/Proofs/IntegerResults.lean ====
section
namespace Sys2Proof.Machine

variable {T : Ty}

/-! ### The range of an integer type (R61) -/

theorem Ty.two_pow_bits (T : Ty) : 2 ^ T.bits = 2 * 2 ^ (T.bits - 1) := by
  cases T <;> rfl

theorem Ty.bits_cases (h : T.isInt = true) : T.bits ≤ 32 ∨ T.bits = 64 := by
  cases T <;> simp_all [Ty.isInt, Ty.bits]

/-- A type holds as many integers as it has codes. -/
theorem Ty.hi_eq_lo_add (T : Ty) : T.hi = T.lo + 2 ^ T.bits - 1 := by
  have hb : (2 : ℤ) ^ T.bits = 2 * 2 ^ (T.bits - 1) := mod_cast T.two_pow_bits
  unfold Ty.hi Ty.lo
  split <;> omega

theorem Ty.lo_le_hi (T : Ty) : T.lo ≤ T.hi := by
  have hp : (0 : ℤ) < 2 ^ T.bits := by positivity
  have hr := T.hi_eq_lo_add
  omega

/-- Of the integers of a type only one has given low bits. -/
theorem Ty.eq_of_modEq {x y : ℤ} (hx : T.lo ≤ x ∧ x ≤ T.hi) (hy : T.lo ≤ y ∧ y ≤ T.hi)
    (h : x ≡ y [ZMOD 2 ^ T.bits]) : x = y := by
  have hr := T.hi_eq_lo_add
  refine Int.sub_eq_zero.mp (Int.eq_zero_of_abs_lt_dvd h.symm.dvd (abs_lt.mpr ⟨?_, ?_⟩)) <;> omega

/-! ### Reading and writing an image (R61, R184) -/

theorem wrapNat_modEq (N : Nat) (i : ℤ) : (wrapNat N i : ℤ) ≡ i [ZMOD 2 ^ N] := by
  rw [wrapNat, Int.toNat_of_nonneg (Int.emod_nonneg _ (by positivity))]
  exact Int.mod_modEq _ _

theorem wrapNat_lt (N : Nat) (i : ℤ) : wrapNat N i < 2 ^ N := by
  have h := Int.emod_lt_of_pos i (b := 2 ^ N) (by positivity)
  have h' : ((2 ^ N : ℕ) : ℤ) = 2 ^ N := by push_cast; rfl
  rw [wrapNat]
  omega

theorem readInt_modEq (T : Ty) (img : Nat) : readInt T img ≡ img [ZMOD 2 ^ T.bits] := by
  have h : ((img % 2 ^ T.bits : ℕ) : ℤ) ≡ img [ZMOD 2 ^ T.bits] := by
    push_cast
    exact Int.mod_modEq _ _
  simp only [readInt]
  split
  · exact (Int.modEq_iff_dvd.mpr (by simp)).trans h
  · exact h

theorem readInt_of_unsigned (h : T.isSigned = false) (img : Nat) : readInt T img = (img % 2 ^ T.bits : ℕ) := by
  simp [readInt, h]

theorem readInt_of_signed (h : T.isSigned = true) (img : Nat) :
    readInt T img = if 2 ^ (T.bits - 1) ≤ img % 2 ^ T.bits then ((img % 2 ^ T.bits : ℕ) : ℤ) - 2 ^ T.bits
      else (img % 2 ^ T.bits : ℕ) := by
  simp [readInt, h]

theorem readInt_mem_range (T : Ty) (img : Nat) : T.lo ≤ readInt T img ∧ readInt T img ≤ T.hi := by
  have hv : img % 2 ^ T.bits < 2 ^ T.bits := Nat.mod_lt _ (by positivity)
  have hb := T.two_pow_bits
  zify at hb
  cases hs : T.isSigned
  case false =>
    rw [readInt_of_unsigned hs]
    simp only [Ty.lo, Ty.hi, hs]
    zify at hv
    exact ⟨by positivity, Int.le_sub_one_of_lt hv⟩
  case true =>
    rw [readInt_of_signed hs]
    simp only [Ty.lo, Ty.hi, hs, if_true]
    generalize img % 2 ^ T.bits = v at hv ⊢
    zify at hv ⊢
    split <;> constructor <;> omega

theorem intImage_modEq (h : T.isInt = true) (i : ℤ) : (intImage T i : ℤ) ≡ i [ZMOD 2 ^ T.bits] := by
  have hw := wrapNat_modEq T.bits i
  simp only [intImage]
  split
  case isTrue => exact hw
  case isFalse h64 =>
    have hb : T.bits ≤ 32 := (Ty.bits_cases h).resolve_right (by simpa using h64)
    split
    · exact (((wrapNat_modEq 32 _).of_dvd (pow_dvd_pow 2 hb)).trans (readInt_modEq T _)).trans hw
    · exact hw

theorem readInt_intImage_modEq (h : T.isInt = true) (i : ℤ) : readInt T (intImage T i) ≡ i [ZMOD 2 ^ T.bits] :=
  (readInt_modEq T _).trans (intImage_modEq h i)

/-- R61: an integer of the type is read back from its image. -/
theorem readInt_intImage (h : T.isInt = true) {i : ℤ} (hi : T.lo ≤ i ∧ i ≤ T.hi) : readInt T (intImage T i) = i :=
  Ty.eq_of_modEq (readInt_mem_range T _) hi (readInt_intImage_modEq h i)

theorem intImage_lt_of_bits (i : ℤ) (h : T.bits = 64) : intImage T i < 2 ^ 64 := by
  have hw := wrapNat_lt T.bits i
  simpa [intImage, h] using hw

/-- R184: the image of a type of at most 32 bits is its integer extended to 32 bits. -/
theorem intImage_extends (h : T.isInt = true) (hb : T.bits ≤ 32) (i : ℤ) :
    intImage T i < 2 ^ 32 ∧ (intImage T i : ℤ) ≡ readInt T (intImage T i) [ZMOD 2 ^ 32] := by
  have hne : T.bits ≠ 64 := by omega
  cases hs : T.isSigned
  case false =>
    have he : intImage T i = wrapNat T.bits i := by simp [intImage, hne, hs]
    rw [he, readInt_of_unsigned hs, Nat.mod_eq_of_lt (wrapNat_lt _ _)]
    exact ⟨(wrapNat_lt _ _).trans_le (Nat.pow_le_pow_right (by decide) hb), .refl _⟩
  case true =>
    have he : intImage T i = wrapNat 32 (readInt T (wrapNat T.bits i)) := by simp [intImage, hne, hs]
    have hr : readInt T (intImage T i) = readInt T (wrapNat T.bits i) :=
      Ty.eq_of_modEq (readInt_mem_range T _) (readInt_mem_range T _)
        ((readInt_intImage_modEq h i).trans ((readInt_modEq T _).trans (wrapNat_modEq _ i)).symm)
    rw [hr, he]
    exact ⟨wrapNat_lt _ _, wrapNat_modEq 32 _⟩

theorem toInt_ofNat_modEq (w n : Nat) : (BitVec.ofNat w n).toInt ≡ n [ZMOD 2 ^ w] := by
  have h : (n : ℤ).bmod (2 ^ w) % (2 ^ w : ℕ) = n % (2 ^ w : ℕ) := Int.bmod_emod
  rw [BitVec.toInt_ofNat']
  exact_mod_cast h

/-! ### Saturation (R61, R66) -/

theorem clampInt_eq (T : Ty) (i : ℤ) :
    clampInt T i = (max T.lo (min T.hi i), if T.lo ≤ i ∧ i ≤ T.hi then 0 else flagSAT) := by
  have hr := T.lo_le_hi
  unfold clampInt
  split
  case isTrue hlo => rw [min_eq_right (by omega), max_eq_left hlo.le, if_neg (by omega)]
  case isFalse hlo =>
    split
    case isTrue hhi => rw [min_eq_left hhi.le, max_eq_right hr, if_neg (by omega)]
    case isFalse hhi => rw [min_eq_right (by omega), max_eq_right (by omega), if_pos (by omega)]

theorem clamp_mem_range (T : Ty) (i : ℤ) : T.lo ≤ max T.lo (min T.hi i) ∧ max T.lo (min T.hi i) ≤ T.hi :=
  ⟨le_max_left _ _, max_le T.lo_le_hi (min_le_left _ _)⟩

theorem intResult_saturated (T : Ty) (i : ℤ) :
    intResult T true i =
      (intImage T (max T.lo (min T.hi i)), if T.lo ≤ i ∧ i ≤ T.hi then 0 else flagSAT) := by
  rw [intResult, if_pos rfl, clampInt_eq]

/-- What an integer result writes is the image of an integer. -/
theorem intResult_fst_eq_intImage (T : Ty) (sat : Bool) (i : ℤ) : ∃ j, (intResult T sat i).1 = intImage T j := by
  cases sat
  · exact ⟨i, rfl⟩
  · exact ⟨_, congrArg Prod.fst (intResult_saturated T i)⟩

theorem intResult_extends (h : T.isInt = true) (sat : Bool) (i : ℤ) (hb : T.bits ≤ 32) :
    (intResult T sat i).1 < 2 ^ 32 ∧
      ((BitVec.ofNat 32 (intResult T sat i).1).toInt - readInt T (intResult T sat i).1) % 2 ^ 32 = 0 := by
  obtain ⟨j, hj⟩ := intResult_fst_eq_intImage T sat i
  obtain ⟨hlt, hext⟩ := intImage_extends h hb j
  rw [hj]
  exact ⟨hlt, Int.emod_eq_emod_iff_emod_sub_eq_zero.mp ((toInt_ofNat_modEq 32 _).trans hext)⟩

theorem intResult_lt_of_bits (sat : Bool) (i : ℤ) (hb : T.bits = 64) : (intResult T sat i).1 < 2 ^ 64 := by
  obtain ⟨j, hj⟩ := intResult_fst_eq_intImage T sat i
  rw [hj]
  exact intImage_lt_of_bits j hb

end Sys2Proof.Machine
end

