-- ==== Sys2Proof/Proofs/ExactValues.lean ====
section
namespace Sys2Proof.Machine
open Claims (val)

/-! ### Finite values -/

/-- The factor that a sign gives. -/
def sgn (s : Bool) : ℚ := if s then -1 else 1

theorem sgn_mul (s t : Bool) : sgn s * sgn t = sgn (s != t) := by
  cases s <;> cases t <;> norm_num [sgn]

@[simp] theorem sgn_mul_self (s : Bool) : sgn s * sgn s = 1 := by
  cases s <;> norm_num [sgn]

@[simp] theorem abs_sgn (s : Bool) : |sgn s| = 1 := by
  cases s <;> norm_num [sgn]

@[simp] theorem sgn_false : sgn false = 1 := rfl
@[simp] theorem sgn_true : sgn true = -1 := rfl

theorem sgn_mul_natAbs (i : ℤ) : sgn (decide (i < 0)) * i.natAbs = i := by
  rcases lt_or_ge i 0 with h | h
  · rw [decide_eq_true h, sgn_true, neg_one_mul, Nat.cast_natAbs, abs_of_neg h, Int.cast_neg, neg_neg]
  · rw [decide_eq_false h.not_gt, sgn_false, one_mul, Nat.cast_natAbs, abs_of_nonneg h]

theorem num_fin (s : Bool) (n d : Nat) : ((XVal.fin s n d).num : ℚ) = sgn s * n := by
  cases s <;> simp [XVal.num]

theorem val_fin (s : Bool) (n d : Nat) : val (.fin s n d) = sgn s * (n / d) := by
  rw [val, num_fin, XVal.den, mul_div_assoc]

/-- A finite value as the model keeps it, its denominator not 0. -/
def XVal.IsNumber (x : XVal) : Prop := ∃ s n d, x = .fin s n d ∧ 0 < d

theorem isNumber_fin {s : Bool} {n d : Nat} (h : 0 < d) : XVal.IsNumber (.fin s n d) := ⟨s, n, d, rfl, h⟩

theorem XVal.IsNumber.not_isNaN {x : XVal} (h : x.IsNumber) : x.isNaN = false := by
  obtain ⟨s, n, d, rfl, -⟩ := h
  rfl

/-! ### Scaling -/

theorem two_zpow_toNat {k : ℤ} (h : 0 ≤ k) : (2 : ℚ) ^ k = 2 ^ k.toNat := by
  rw [← zpow_natCast, Int.toNat_of_nonneg h]

theorem two_zpow_neg_toNat {k : ℤ} (h : k < 0) : (2 : ℚ) ^ k = (2 ^ (-k).toNat)⁻¹ := by
  rw [← two_zpow_toNat (by omega), zpow_neg, inv_inv]

theorem val_scale {x : XVal} (h : x.IsNumber) (k : ℤ) : val (x.scale k) = val x * 2 ^ k := by
  obtain ⟨s, n, d, rfl, -⟩ := h
  rcases le_or_gt 0 k with hk | hk
  · rw [XVal.scale, if_pos hk, val_fin, val_fin, two_zpow_toNat hk]
    push_cast
    ring
  · rw [XVal.scale, if_neg hk.not_ge, val_fin, val_fin, two_zpow_neg_toNat hk]
    push_cast
    ring

theorem XVal.IsNumber.scale {x : XVal} (h : x.IsNumber) (k : ℤ) : (x.scale k).IsNumber := by
  obtain ⟨s, n, d, rfl, hd⟩ := h
  rw [XVal.scale]
  split
  · exact isNumber_fin hd
  · exact isNumber_fin (by positivity)

theorem isNumber_ofInt (i : ℤ) : (XVal.ofInt i).IsNumber := isNumber_fin Nat.one_pos

theorem val_ofInt (i : ℤ) : val (XVal.ofInt i) = i := by
  rw [XVal.ofInt, val_fin, Nat.cast_one, div_one, sgn_mul_natAbs]

/-! ### Sums and products (R190) -/

/-- R190: the sum of finite operands. -/
theorem xadd_fin (m : Mode) (p q : Bool) (n k d e : Nat) :
    xadd m (.fin p n d) (.fin q k e) =
      (let i : ℤ := (XVal.fin p n d).num * e + (XVal.fin q k e).num * d
       if i = 0 then .fin (if n = 0 ∧ k = 0 ∧ p = q then p else m == .rdn) 0 1
       else .fin (decide (i < 0)) i.natAbs (d * e), 0) := by
  simp only [xadd, XVal.isNaN, XVal.den, XVal.isZero, XVal.sign, Bool.or_self, Bool.false_eq_true, if_false, beq_iff_eq,
    Bool.and_eq_true, and_assoc]
  split
  · split <;> rfl
  · rfl

theorem xmul_fin (p q : Bool) (n k d e : Nat) :
    xmul (.fin p n d) (.fin q k e) = (.fin (p != q) (n * k) (d * e), 0) := rfl

theorem num_product (p q : Bool) (n k d e j : Nat) :
    (XVal.fin (p != q) (n * k) j).num = (XVal.fin p n d).num * (XVal.fin q k e).num := by
  cases p <;> cases q <;> simp [XVal.num]

theorem num_ofSign (i : ℤ) (d : Nat) : (XVal.fin (decide (i < 0)) i.natAbs d).num = i := by
  simp only [XVal.num, decide_eq_true_eq]
  split <;> omega

theorem xadd_isNaN {m : Mode} {a b : XVal} (h : a.isNaN = true ∨ b.isNaN = true) :
    xadd m a b = (firstNaN [a, b], flagIf (anySig [a, b]) flagIV) := by
  unfold xadd
  exact if_pos (by simpa using h)

theorem xmul_isNaN {a b : XVal} (h : a.isNaN = true ∨ b.isNaN = true) :
    xmul a b = (firstNaN [a, b], flagIf (anySig [a, b]) flagIV) := by
  unfold xmul
  exact if_pos (by simpa using h)

theorem firstNaN_not_isSig (xs : List XVal) : (firstNaN xs).isSig = false := by
  induction xs with
  | nil => rfl
  | cons x xs ih => cases x with
    | nan s q => rfl
    | inf s => exact ih
    | fin s n d => exact ih

theorem flagIf_anySig (a b : XVal) :
    flagIf (anySig [a, b]) flagIV = if a.isSig = true ∨ b.isSig = true then flagIV else 0 := by
  simp [flagIf, anySig]

/-- R190: the sum of finite operands, a fraction over the product of their denominators. -/
theorem xadd_exact (m : Mode) {p q : Bool} {n k d e : Nat} (hd : 0 < d) (he : 0 < e) :
    ∃ s i j, (xadd m (.fin p n d) (.fin q k e)).1 = .fin s i j ∧ 0 < j ∧
      (XVal.fin s i j).num * (d * e) = ((XVal.fin p n d).num * e + (XVal.fin q k e).num * d) * j := by
  rw [xadd_fin]
  simp only
  split
  case isTrue h0 => exact ⟨_, 0, 1, rfl, Nat.one_pos, by rw [h0, XVal.num]; simp⟩
  case isFalse h0 =>
    refine ⟨_, _, d * e, rfl, by positivity, ?_⟩
    rw [num_ofSign]
    push_cast
    ring

theorem XVal.IsNumber.add {a b : XVal} (ha : a.IsNumber) (hb : b.IsNumber) (m : Mode) :
    (xadd m a b).1.IsNumber ∧ val (xadd m a b).1 = val a + val b := by
  obtain ⟨p, n, d, rfl, hd⟩ := ha
  obtain ⟨q, k, e, rfl, he⟩ := hb
  obtain ⟨s, i, j, hs, hj, hval⟩ := xadd_exact m (p := p) (q := q) (n := n) (k := k) hd he
  rw [hs]
  refine ⟨isNumber_fin hj, ?_⟩
  have hval : ((XVal.fin s i j).num : ℚ) * (d * e) =
      ((XVal.fin p n d).num * e + (XVal.fin q k e).num * d) * j := mod_cast hval
  simp only [val, XVal.den]
  field_simp
  linarith

theorem XVal.IsNumber.mul {a b : XVal} (ha : a.IsNumber) (hb : b.IsNumber) :
    (xmul a b).1.IsNumber ∧ val (xmul a b).1 = val a * val b := by
  obtain ⟨p, n, d, rfl, hd⟩ := ha
  obtain ⟨q, k, e, rfl, he⟩ := hb
  rw [xmul_fin]
  refine ⟨isNumber_fin (by positivity), ?_⟩
  rw [val_fin, val_fin, val_fin, ← sgn_mul]
  push_cast
  ring

/-- R83: the exact sum of finite numbers. -/
theorem xsumTerms_exact (m : Mode) {acc : XVal} {xs : List XVal} (ha : acc.IsNumber) (hx : ∀ x ∈ xs, x.IsNumber) :
    (xsumTerms m acc xs).1.IsNumber ∧ val (xsumTerms m acc xs).1 = val acc + (xs.map val).sum := by
  induction xs generalizing acc with
  | nil => exact ⟨ha, by simp [xsumTerms]⟩
  | cons x xs ih =>
    obtain ⟨hx, hxs⟩ := List.forall_mem_cons.mp hx
    obtain ⟨hn, hv⟩ := ha.add hx m
    obtain ⟨hn', hv'⟩ := ih hn hxs
    exact ⟨hn', by rw [List.map_cons, List.sum_cons, ← add_assoc, ← hv]; exact hv'⟩

theorem xsum_exact (m : Mode) {acc : XVal} {xs : List XVal} (ha : acc.IsNumber) (hx : ∀ x ∈ xs, x.IsNumber) :
    (xsum m acc xs).1.IsNumber ∧ val (xsum m acc xs).1 = val acc + (xs.map val).sum := by
  have hnan : (acc :: xs).any XVal.isNaN = false := by
    rw [List.any_eq_false]
    intro x h
    rw [(List.forall_mem_cons (p := XVal.IsNumber).mpr ⟨ha, hx⟩ x h).not_isNaN]
    exact Bool.false_ne_true
  rw [xsum, hnan]
  exact xsumTerms_exact m ha hx

/-- The products of an operand with the terms of another sum to its product with their sum. -/
theorem sum_xmul {b : XVal} {xs : List XVal} (hb : b.IsNumber) (hx : ∀ x ∈ xs, x.IsNumber) :
    (∀ y ∈ (xs.map (xmul b)).map Prod.fst, y.IsNumber) ∧
      (((xs.map (xmul b)).map Prod.fst).map val).sum = (xs.map val).sum * val b := by
  induction xs with
  | nil => simp
  | cons x xs ih =>
    obtain ⟨hx, hxs⟩ := List.forall_mem_cons.mp hx
    obtain ⟨hn, hv⟩ := hb.mul hx
    obtain ⟨hn', hv'⟩ := ih hxs
    refine ⟨List.forall_mem_cons.mpr ⟨hn, hn'⟩, ?_⟩
    simp only [List.map_cons, List.sum_cons] at hv' ⊢
    rw [hv, hv']
    ring

end Sys2Proof.Machine
end

