-- ==== Sys2Proof/Proofs/BlockValues.lean ====
section
namespace Sys2Proof.Machine
open Claims (val ts8Part ts8Number zeroPoint)

variable {t : Ty}

/-! ### Codes of a block (R71-R77) -/

/-- Every code of a format without codes above the largest finite one is a number. -/
theorem isNumber_decodeFloat {f : FloatFmt} {bits : Nat} (h : bits % f.signBit ≤ f.maxEnc) :
    (decodeFloat f bits).IsNumber := by
  simp only [decodeFloat, gt_iff_lt, h.not_gt, decide_false, Bool.false_and, Bool.false_eq_true, if_false]
  split
  · exact (isNumber_fin Nat.one_pos).scale _
  · exact (isNumber_fin Nat.one_pos).scale _

theorem isNumber_mx4Value (q : Nat) : (mx4Value q).IsNumber :=
  isNumber_decodeFloat (Nat.le_of_lt_succ (Nat.mod_lt _ (by decide)))

/-- R73: a term of a ts8 code, from the sign and the count that name it. -/
theorem ts8Term_eq_ts8Part {n s c : Nat} (hs : n / 8 % 2 = s) (hc : n % 8 = c) :
    (ts8Term s c : ℚ) / 64 = ts8Part n := by
  have hlt : c < 8 := hc ▸ Nat.mod_lt _ (by decide)
  rw [ts8Part, hs, hc, ts8Term]
  by_cases h7 : c = 7
  · simp [h7]
  · have hp : (2 : ℚ) ^ (6 - c) * 2 ^ c = 64 := by rw [← pow_add, Nat.sub_add_cancel (by omega)]; norm_num
    have hdiv : (2 : ℚ) ^ (6 - c) / 64 = 1 / 2 ^ c := by
      rw [div_eq_div_iff (by norm_num) (by positivity), hp, one_mul]
    by_cases h1 : s = 1 <;> simp [h7, h1, neg_div, hdiv]

theorem val_div64 (i : ℤ) : val (.fin (decide (i < 0)) i.natAbs 64) = i / 64 := by
  rw [val_fin, ← mul_div_assoc, sgn_mul_natAbs, Nat.cast_ofNat]

theorem ts8Term_high (q : Nat) : (ts8Term (q / 128 % 2) (q / 16 % 8) : ℚ) / 64 = ts8Part (q / 16 % 16) :=
  ts8Term_eq_ts8Part (by omega) (by omega)

theorem ts8Term_low (q : Nat) : (ts8Term (q / 8 % 2) (q % 8) : ℚ) / 64 = ts8Part (q % 16) :=
  ts8Term_eq_ts8Part (by omega) (by omega)

theorem isNumber_ts8Value (q : Nat) : (ts8Value q).IsNumber := isNumber_fin (by decide)

theorem val_ts8Value (q : Nat) : val (ts8Value q) = ts8Number q := by
  rw [ts8Value, val_div64, ts8Number, ← ts8Term_high, ← ts8Term_low]
  push_cast
  ring

/-- R74: the two terms of a ts8 code sum to its scaled value. -/
theorem ts8Terms_exact {scale : Nat} (q : Nat) (h : scale % 256 ≠ 255) :
    (∀ x ∈ ts8Terms q scale, x.IsNumber) ∧
      ((ts8Terms q scale).map val).sum = ts8Number q * 2 ^ (((scale % 256 : ℕ) : ℤ) - 127) := by
  have hn (i : ℤ) : (XVal.fin (decide (i < 0)) i.natAbs 64).IsNumber := isNumber_fin (by decide)
  rw [ts8Terms, if_neg (by simpa using h)]
  refine ⟨?_, ?_⟩
  · intro x hx
    rcases List.mem_pair.mp hx with rfl | rfl
    · exact (hn _).scale _
    · exact (hn _).scale _
  · simp only [List.map_cons, List.map_nil, List.sum_cons, List.sum_nil, add_zero]
    rw [val_scale (hn _), val_scale (hn _), val_div64, val_div64, ts8Term_high, ts8Term_low, ts8Number]
    push_cast
    ring

/-- R71, R73: a code of a block with a scale byte is its value times the scale. -/
theorem val_blockValue_scaled (h : t = .mx4 ∨ t = .ts8) {b : Nat} (hb : b % 256 ≠ 255) (q : Nat) (zp : Bool) :
    val (blockValue t q b zp).1 =
      (if t = .mx4 then val (readFloat .mx4 q) else ts8Number q) * 2 ^ (((b % 256 : ℕ) : ℤ) - 127) := by
  rcases h with rfl | rfl
  · simp only [blockValue, scaledValue, beq_iff_eq, hb, if_false, if_true, BEq.rfl, Bool.true_or]
    exact val_scale (isNumber_mx4Value q) _
  · simp only [blockValue, scaledValue, beq_iff_eq, hb, if_false, if_true, BEq.rfl, Bool.or_true, reduceCtorEq]
    rw [val_scale (isNumber_ts8Value q), val_ts8Value]

theorem zbZero_eq_zeroPoint (h : t = .zb4 ∨ t = .zb8) (b : Nat) (zp : Bool) : zbZero t b zp = zeroPoint t b zp := by
  rcases h with rfl | rfl <;> rfl

/-- R77: a zb code under its metadata word. -/
theorem val_blockValue_zb (h : t = .zb4 ∨ t = .zb8) {b : Nat} {p : Bool} {n d : Nat}
    (hs : readFloat .f16 (b / 2 ^ 16) = .fin p n d) (q : Nat) (zp : Bool) :
    val (blockValue t q b zp).1 = ((q % 2 ^ t.bits : ℕ) - (zeroPoint t b zp : ℚ)) * val (.fin p n d) := by
  have hne : (t == .mx4 || t == .ts8) = false := by rcases h with rfl | rfl <;> rfl
  have hs' : decodeFloat Ty.f16.fmt (b / 2 ^ 16 % 2 ^ 16) = .fin p n d := hs
  set i : ℤ := ((q % 2 ^ t.bits : ℕ) : ℤ) - zeroPoint t b zp with hi
  have hz : (blockValue t q b zp).1 = .fin (p != decide (i < 0)) (i.natAbs * n) d := by
    rw [blockValue, hne, zbValue, hs', zbZero_eq_zeroPoint h]
    rfl
  rw [hz, val_fin, val_fin, ← sgn_mul]
  have hv := sgn_mul_natAbs i
  rw [show (((q % 2 ^ t.bits : ℕ) : ℚ) - zeroPoint t b zp) = (i : ℚ) by push_cast [hi]; rfl, ← hv]
  push_cast
  ring

/-! ### Dot products (R195, R196) -/

variable {b0 b1 c : XVal}

theorem val_tsdot (m : Mode) {a : Nat} (h0 : b0.IsNumber) (h1 : b1.IsNumber) (hc : c.IsNumber)
    (he : a / 2 ^ 16 % 256 ≠ 255) :
    val (tsdot m a b0 b1 c).1 = val c + ts8Number (a % 256) * 2 ^ (((a / 2 ^ 16 % 256 : ℕ) : ℤ) - 127) * val b0 +
      ts8Number (a / 256 % 256) * 2 ^ (((a / 2 ^ 16 % 256 : ℕ) : ℤ) - 127) * val b1 := by
  set e := a / 2 ^ 16 % 256 with hdef
  have hmod : e % 256 = e := Nat.mod_mod _ _
  have terms (q : Nat) := ts8Terms_exact (scale := e) q (by rwa [hmod])
  simp only [hmod] at terms
  obtain ⟨hn0, hv0⟩ := sum_xmul h0 (terms (a % 256)).1
  obtain ⟨hn1, hv1⟩ := sum_xmul h1 (terms (a / 256 % 256)).1
  obtain ⟨hn, hv⟩ := xsum_exact m hc (List.forall_mem_append.mpr ⟨hn0, hn1⟩)
  rw [List.map_append, List.sum_append, hv0, hv1, (terms _).2, (terms _).2, ← List.map_append] at hv
  rw [← List.map_append] at hn
  rw [tsdot, if_neg (beq_iff_eq.not.mpr he)]
  simp only [← hdef, hn.not_isNaN, Bool.false_eq_true, if_false]
  rw [hv, add_assoc]

theorem val_zdot (m : Mode) (zp : Bool) (a : Nat) (h0 : b0.IsNumber) (h1 : b1.IsNumber) (hc : c.IsNumber) :
    val (zdot t m zp a b0 b1 c).1 =
      val c + ((a % 2 ^ t.bits : ℕ) - (if zp then (a / 2 ^ 16 % 2 ^ t.bits : ℕ) else 0 : ℚ)) * val b0 +
        ((a / 2 ^ t.bits % 2 ^ t.bits : ℕ) - (if zp then (a / 2 ^ 16 % 2 ^ t.bits : ℕ) else 0 : ℚ)) * val b1 := by
  have hz : (if zp then ((a / 2 ^ 16 % 2 ^ t.bits : ℕ) : ℚ) else 0) =
    ((if zp then a / 2 ^ 16 % 2 ^ t.bits else 0 : ℕ) : ℚ) := by cases zp <;> simp
  rw [hz]
  set z : ℕ := if zp then a / 2 ^ 16 % 2 ^ t.bits else 0 with hdef
  obtain ⟨hn0, hv0⟩ := (isNumber_ofInt (((a % 2 ^ t.bits : ℕ) : ℤ) - z)).mul h0
  obtain ⟨hn1, hv1⟩ := (isNumber_ofInt (((a / 2 ^ t.bits % 2 ^ t.bits : ℕ) : ℤ) - z)).mul h1
  obtain ⟨hn, hv⟩ := xsum_exact m hc
    (List.forall_mem_cons.mpr ⟨hn0, List.forall_mem_cons.mpr ⟨hn1, List.forall_mem_nil _⟩⟩)
  simp only [zdot, ← hdef, hn.not_isNaN, Bool.false_eq_true, if_false]
  rw [hv]
  simp only [List.map_cons, List.map_nil, List.sum_cons, List.sum_nil, hv0, hv1, val_ofInt, Int.cast_sub,
    Int.cast_natCast]
  ring

end Sys2Proof.Machine
end

