-- ==== Sys2Proof/Proofs/RoundingIntegers.lean ====
section
namespace Sys2Proof.Machine
open Claims (val RoundsTo zeroPoint)

/-! ### Rounding to an integer (R65, R70) -/

/-- An integer of a magnitude and a sign, as a number. -/
theorem cast_signed (neg : Bool) (m : Nat) : ((if neg then -(m : ℤ) else m : ℤ) : ℚ) = sgn neg * m := by
  cases neg <;> simp

theorem signed_mod_two (neg : Bool) (m : Nat) : (if neg then -(m : ℤ) else m) % 2 = 0 ↔ m % 2 = 0 := by
  cases neg <;> simp <;> omega

/-- A fraction is its quotient and a proper fraction. -/
theorem div_eq_quotient_add {d : Nat} (hd : 0 < d) (n : Nat) : (n : ℚ) / d = (n / d : ℕ) + (n % d : ℕ) / d := by
  have h : (n : ℚ) = d * (n / d : ℕ) + (n % d : ℕ) := mod_cast (Nat.div_add_mod n d).symm
  field_simp
  linarith

/-- Whether a mode rounds the magnitude q + r/d up. -/
def roundsUp (mode : Mode) (neg : Bool) (q r d : Nat) : Bool :=
  match mode with
  | .rne => decide (d < 2 * r) || (2 * r == d && q % 2 == 1)
  | .rtz => false
  | .rdn => r != 0 && neg
  | .rup => r != 0 && !neg
  | .rna => decide (d ≤ 2 * r)

theorem roundMag_eq (mode : Mode) (neg : Bool) (n d : Nat) :
    roundMag mode neg n d =
      (if roundsUp mode neg (n / d) (n % d) d then n / d + 1 else n / d, n % d != 0) := by
  cases mode <;> rfl

/-- R65: where a mode rounds the magnitude q + f up, for a proper fraction f. -/
def RoundsUp (mode : Mode) (neg : Bool) (q : Nat) (f : ℚ) : Prop :=
  match mode with
  | .rne => 1 / 2 < f ∨ f = 1 / 2 ∧ q % 2 = 1
  | .rtz => False
  | .rdn => f ≠ 0 ∧ neg = true
  | .rup => f ≠ 0 ∧ neg = false
  | .rna => 1 / 2 ≤ f

theorem roundsUp_iff {d : Nat} (hd : 0 < d) (mode : Mode) (neg : Bool) (q r : Nat) :
    roundsUp mode neg q r d = true ↔ RoundsUp mode neg q (r / d) := by
  have hd' : (0 : ℚ) < d := mod_cast hd
  have hz : (r / d : ℚ) ≠ 0 ↔ r ≠ 0 := by simp [hd.ne']
  have hlt : 1 / 2 < (r / d : ℚ) ↔ d < 2 * r := by
    rw [lt_div_iff₀ hd', one_div, inv_mul_lt_iff₀ two_pos]
    exact_mod_cast Iff.rfl
  have hle : 1 / 2 ≤ (r / d : ℚ) ↔ d ≤ 2 * r := by
    rw [le_div_iff₀ hd', one_div, inv_mul_le_iff₀ two_pos]
    exact_mod_cast Iff.rfl
  have heq : (r / d : ℚ) = 1 / 2 ↔ 2 * r = d := by
    rw [div_eq_div_iff hd'.ne' two_ne_zero, one_mul, mul_comm]
    exact_mod_cast Iff.rfl
  unfold RoundsUp
  cases mode with
  | rne => simp only [roundsUp, hlt, heq, Bool.or_eq_true, Bool.and_eq_true, decide_eq_true_eq, beq_iff_eq]
  | rtz => simp only [roundsUp, Bool.false_eq_true]
  | rdn => simp only [roundsUp, hz, Bool.and_eq_true, bne_iff_ne]
  | rup => simp only [roundsUp, hz, Bool.and_eq_true, bne_iff_ne, Bool.not_eq_true']
  | rna => simp only [roundsUp, hle, decide_eq_true_eq]

theorem not_roundsUp_zero (mode : Mode) (neg : Bool) (q : Nat) : ¬ RoundsUp mode neg q 0 := by
  cases mode <;> norm_num [RoundsUp]

theorem abs_sgn_mul_sub (s : Bool) (x y : ℚ) : |sgn s * x - sgn s * y| = |x - y| := by
  rw [← mul_sub, abs_mul, abs_sgn, one_mul]

theorem abs_sgn_mul (s : Bool) {x : ℚ} (h : 0 ≤ x) : |sgn s * x| = x := by
  rw [abs_mul, abs_sgn, one_mul, abs_of_nonneg h]

section
variable {mode : Mode} {neg : Bool} {q : Nat} {f : ℚ}

theorem abs_sub_floor (h0 : 0 ≤ f) : |sgn neg * (q + f) - sgn neg * q| = f := by
  rw [abs_sgn_mul_sub, add_sub_cancel_left, abs_of_nonneg h0]

theorem abs_sub_ceil (h1 : f < 1) : |sgn neg * (q + f) - sgn neg * (q + 1 : ℕ)| = 1 - f := by
  rw [abs_sgn_mul_sub, Nat.cast_add_one, add_sub_add_left_eq_sub, abs_sub_comm, abs_of_pos (sub_pos.mpr h1)]

/-- R65: q is what q + f rounds to where the mode does not round up. -/
theorem roundsTo_of_not_roundsUp (h0 : 0 ≤ f) (h1 : f < 1) (h : ¬ RoundsUp mode neg q f) :
    RoundsTo mode (sgn neg * (q + f)) (if neg then -(q : ℤ) else q) := by
  unfold RoundsUp at h
  unfold RoundsTo
  rw [cast_signed, abs_sub_floor h0]
  cases mode with
  | rne =>
    rw [signed_mod_two]
    simp only [not_or, not_and, not_lt] at h ⊢
    exact h.1.lt_or_eq.imp_right fun he => ⟨he, by have := h.2 he; omega⟩
  | rtz => exact ⟨h1, by rw [abs_sgn_mul neg (by positivity), abs_sgn_mul neg (by positivity)]; linarith⟩
  | rdn =>
    cases neg with
    | false => rw [sgn_false]; constructor <;> linarith
    | true =>
      obtain rfl : f = 0 := of_not_not fun hf => h ⟨hf, rfl⟩
      rw [sgn_true]; constructor <;> linarith
  | rup =>
    cases neg with
    | false =>
      obtain rfl : f = 0 := of_not_not fun hf => h ⟨hf, rfl⟩
      rw [sgn_false]; constructor <;> linarith
    | true => rw [sgn_true]; constructor <;> linarith
  | rna => exact .inl (not_le.mp h)

/-- R65: q + 1 is what q + f rounds to where the mode rounds up. -/
theorem roundsTo_of_roundsUp (h0 : 0 ≤ f) (h1 : f < 1) (h : RoundsUp mode neg q f) :
    RoundsTo mode (sgn neg * (q + f)) (if neg then -((q + 1 : ℕ) : ℤ) else (q + 1 : ℕ)) := by
  unfold RoundsUp at h
  unfold RoundsTo
  rw [cast_signed, abs_sub_ceil h1]
  cases mode with
  | rne =>
    rw [signed_mod_two]
    rcases h with hf | ⟨hf, hq⟩
    · exact .inl (by linarith)
    · exact .inr ⟨by linarith, by omega⟩
  | rtz => exact h.elim
  | rdn =>
    obtain ⟨hf, rfl⟩ := h
    push_cast [sgn_true]
    exact ⟨by linarith, by linarith [lt_of_le_of_ne h0 hf.symm]⟩
  | rup =>
    obtain ⟨hf, rfl⟩ := h
    push_cast [sgn_false]
    exact ⟨by linarith, by linarith [lt_of_le_of_ne h0 hf.symm]⟩
  | rna =>
    rw [abs_sgn_mul neg (by positivity), abs_sgn_mul neg (by positivity)]
    rcases h.lt_or_eq with hf | hf
    · exact .inl (by linarith)
    · exact .inr ⟨by linarith, by push_cast; linarith⟩

end

/-- R65: a fraction rounds to the magnitude that `roundMag` answers, which differs from it where it says so. -/
theorem roundMag_exact (mode : Mode) (neg : Bool) (n : Nat) {d : Nat} (hd : 0 < d) :
    RoundsTo mode (val (.fin neg n d)) (if neg then -((roundMag mode neg n d).1 : ℤ) else (roundMag mode neg n d).1) ∧
      ((roundMag mode neg n d).2 = true ↔ sgn neg * (roundMag mode neg n d).1 ≠ val (.fin neg n d)) := by
  have hr : n % d < d := Nat.mod_lt n hd
  have hd' : (0 : ℚ) < d := mod_cast hd
  have hx : val (.fin neg n d) = sgn neg * ((n / d : ℕ) + (n % d : ℕ) / d) := by rw [val_fin, div_eq_quotient_add hd]
  have hz : (n % d != 0) = true ↔ 0 < ((n % d : ℕ) / d : ℚ) := by
    rw [div_pos_iff_of_pos_right hd', Nat.cast_pos, bne_iff_ne, Nat.pos_iff_ne_zero]
  have hup := roundsUp_iff hd mode neg (n / d) (n % d)
  have h0 : 0 ≤ ((n % d : ℕ) / d : ℚ) := by positivity
  have h1 : ((n % d : ℕ) / d : ℚ) < 1 := (div_lt_one hd').mpr (mod_cast hr)
  rw [roundMag_eq, hx, hz, ne_comm, ← abs_sub_pos]
  generalize ((n % d : ℕ) / d : ℚ) = f at h0 h1 hup ⊢
  cases hb : roundsUp mode neg (n / d) (n % d) d
  case true =>
    have hup := hup.mp hb
    have hf : f ≠ 0 := fun hf => not_roundsUp_zero _ _ _ (hf ▸ hup)
    exact ⟨roundsTo_of_roundsUp h0 h1 hup, iff_of_true (lt_of_le_of_ne h0 hf.symm)
      ((sub_pos.mpr h1).trans_eq (abs_sub_ceil h1).symm)⟩
  case false =>
    have hup : ¬ RoundsUp mode neg (n / d) f := fun h => Bool.false_ne_true (hb.symm.trans (hup.mpr h))
    exact ⟨roundsTo_of_not_roundsUp h0 h1 hup, iff_of_eq (congrArg _ (abs_sub_floor h0).symm)⟩

theorem le_roundMag (mode : Mode) (neg : Bool) {n d k : Nat} (hd : 0 < d) (h : (k : ℚ) ≤ n / d) :
    k ≤ (roundMag mode neg n d).1 := by
  have hk : k ≤ n / d := by
    rw [Nat.le_div_iff_mul_le hd]
    rw [le_div_iff₀ (mod_cast hd)] at h
    exact_mod_cast h
  rw [roundMag_eq]
  dsimp only
  split <;> omega

theorem roundMag_le (mode : Mode) (neg : Bool) {n d k : Nat} (hd : 0 < d) (h : (n : ℚ) / d < k) :
    (roundMag mode neg n d).1 ≤ k := by
  have hk : n / d < k := by
    rw [Nat.div_lt_iff_lt_mul hd]
    rw [div_lt_iff₀ (mod_cast hd)] at h
    exact_mod_cast h
  rw [roundMag_eq]
  dsimp only
  split <;> omega

/-- R70: `roundToInteger` gives the integer to which the mode rounds a number. -/
theorem roundsTo_roundToInteger (mode : Mode) (neg : Bool) (n : Nat) {d : Nat} (hd : 0 < d) :
    RoundsTo mode (val (.fin neg n d)) (roundToInteger mode neg n d).1 :=
  (roundMag_exact mode neg n hd).1

/-- R67: a number rounds to an integer, which is clamped to the type, with IV where that changes it. -/
theorem floatToInt_fin (T : Ty) (mode : Mode) (neg : Bool) (n d : Nat) :
    floatToInt T mode (.fin neg n d) =
      (let i := (roundToInteger mode neg n d).1
       (intImage T (max T.lo (min T.hi i)),
        if i < T.lo ∨ T.hi < i then flagIV else flagIf (roundToInteger mode neg n d).2 flagNX)) := by
  have hr := T.lo_le_hi
  simp only [floatToInt]
  generalize (roundToInteger mode neg n d).1 = i
  split
  case isTrue hlo => rw [min_eq_right (by omega), max_eq_left hlo.le, if_pos (.inl hlo)]
  case isFalse hlo =>
    split
    case isTrue hhi => rw [min_eq_left hhi.le, max_eq_right hr, if_pos (.inr hhi)]
    case isFalse hhi => rw [min_eq_right (by omega), max_eq_right (by omega), if_neg (by omega)]

/-- R67: IV marks the clamp, where NX marks a changed number. -/
theorem floatToInt_fin_flagIV (T : Ty) (mode : Mode) (neg : Bool) (n d : Nat) :
    (floatToInt T mode (.fin neg n d)).2 &&& flagIV ≠ 0 ↔
      (roundToInteger mode neg n d).1 < T.lo ∨ T.hi < (roundToInteger mode neg n d).1 := by
  rw [floatToInt_fin]
  dsimp only
  split
  case isTrue h => exact iff_of_true (by decide) h
  case isFalse h =>
    refine iff_of_false ?_ h
    cases (roundToInteger mode neg n d).2 <;> decide

/-! ### Quantising (R193) -/

theorem val_xdiv (s t : Bool) (n d m e : Nat) :
    val (xdiv (.fin s n d) (.fin t m e)) = val (.fin s n d) / val (.fin t m e) := by
  rw [xdiv, val_fin, val_fin, val_fin, ← sgn_mul]
  have ht : sgn t ≠ 0 := fun h => by simpa [h] using sgn_mul_self t
  have ht' : (sgn t)⁻¹ = sgn t := inv_eq_of_mul_eq_one_left (sgn_mul_self t)
  rw [mul_div_mul_comm, div_eq_mul_inv (sgn s), ht', div_div_div_eq]
  push_cast
  rfl

variable {t : Ty}

/-- R193: a code of offset binary is the rounded quotient, moved by the zero point and clamped. -/
theorem quantise_zb (h : t = .zb4 ∨ t = .zb8) (mode : Mode) {b : Nat} {p p' : Bool} {n d n' d' : Nat} (hn : n ≠ 0)
    (hs : readFloat .f16 (b / 2 ^ 16) = .fin p n d) (zp : Bool) :
    ((quantise t mode (.fin p' n' d') b zp).1 : ℤ) =
      max 0 (min (2 ^ t.bits - 1) ((roundToInteger mode (p' != p) (n' * d) (d' * n)).1 + zeroPoint t b zp)) := by
  have hne : (t == .mx4 || t == .ts8) = false := by rcases h with rfl | rfl <;> rfl
  have hs' : decodeFloat Ty.f16.fmt (b / 2 ^ 16 % 2 ^ 16) = .fin p n d := hs
  have htop : (0 : ℤ) ≤ 2 ^ t.bits - 1 := Int.sub_nonneg_of_le (one_le_pow₀ one_le_two)
  simp only [quantise, hne, hs', XVal.isNaN, XVal.isInf, XVal.isZero, beq_iff_eq, hn, xdiv, zbZero_eq_zeroPoint h,
    Bool.or_self, Bool.false_eq_true, if_false, Bool.or_false, Bool.false_or]
  generalize (roundToInteger mode (p' != p) (n' * d) (d' * n)).1 + (zeroPoint t b zp : ℤ) = i
  generalize (2 : ℤ) ^ t.bits - 1 = top at htop ⊢
  split
  · simp; omega
  · split <;> simp <;> omega

end Sys2Proof.Machine
end

