-- ==== Sys2Proof/Proofs/RoundingFloats.lean ====
section
namespace Sys2Proof.Machine
open Claims (val RoundsTo)

/-! ### Rounding to a multiple of a power of two (R65, R69) -/

/-- `roundAt` rounds a fraction that is n/d in units of 2^q. -/
theorem roundAt_eq_roundMag (mode : Mode) (neg : Bool) (n : Nat) {d : Nat} (hd : 0 < d) (q : ℤ) :
    ∃ n' d' : ℕ, 0 < d' ∧ (n' : ℚ) / d' = n / d / 2 ^ q ∧ roundAt mode neg n d q = roundMag mode neg n' d' := by
  rcases le_or_gt 0 q with hq | hq
  · refine ⟨n, d * 2 ^ q.toNat, by positivity, ?_, by rw [roundAt, if_pos hq]⟩
    rw [two_zpow_toNat hq, div_div]
    push_cast
    rfl
  · refine ⟨n * 2 ^ (-q).toNat, d, hd, ?_, by rw [roundAt, if_neg hq.not_ge]⟩
    rw [two_zpow_neg_toNat hq, div_inv_eq_mul, div_mul_eq_mul_div]
    push_cast
    rfl

theorem roundAt_exact (mode : Mode) (neg : Bool) (n : Nat) {d : Nat} (hd : 0 < d) (q : ℤ) :
    RoundsTo mode (val (.fin neg n d) / 2 ^ q)
        (if neg then -((roundAt mode neg n d q).1 : ℤ) else (roundAt mode neg n d q).1) ∧
      ((roundAt mode neg n d q).2 = true ↔ sgn neg * (roundAt mode neg n d q).1 * 2 ^ q ≠ val (.fin neg n d)) := by
  obtain ⟨n', d', hd', hv, he⟩ := roundAt_eq_roundMag mode neg n hd q
  have hx : val (.fin neg n d) / 2 ^ q = val (.fin neg n' d') := by rw [val_fin, val_fin, hv, mul_div_assoc]
  rw [he, hx, ne_eq, ← eq_div_iff (by positivity), hx]
  exact roundMag_exact mode neg n' hd'

theorem le_roundAt (mode : Mode) (neg : Bool) {n d k : Nat} (hd : 0 < d) {q : ℤ} (h : (k : ℚ) ≤ n / d / 2 ^ q) :
    k ≤ (roundAt mode neg n d q).1 := by
  obtain ⟨n', d', hd', hv, he⟩ := roundAt_eq_roundMag mode neg n hd q
  rw [he]
  exact le_roundMag mode neg hd' (hv ▸ h)

theorem roundAt_le (mode : Mode) (neg : Bool) {n d k : Nat} (hd : 0 < d) {q : ℤ} (h : (n : ℚ) / d / 2 ^ q < k) :
    (roundAt mode neg n d q).1 ≤ k := by
  obtain ⟨n', d', hd', hv, he⟩ := roundAt_eq_roundMag mode neg n hd q
  rw [he]
  exact roundMag_le mode neg hd' (hv ▸ h)

/-! ### The binade of a fraction -/

theorem two_pow_log2 {n : Nat} (h : 0 < n) : (2 : ℚ) ^ (Nat.log2 n : ℤ) ≤ n ∧ (n : ℚ) < 2 ^ ((Nat.log2 n : ℤ) + 1) := by
  have hne : n ≠ 0 := h.ne'
  have hlo : 2 ^ Nat.log2 n ≤ n := Nat.log2_self_le hne
  have hhi : n < 2 ^ (Nat.log2 n + 1) := Nat.lt_log2_self
  constructor
  · rw [zpow_natCast]
    exact_mod_cast hlo
  · rw [← Nat.cast_add_one, zpow_natCast]
    exact_mod_cast hhi

theorem floorLog2_eq {n d : Nat} (hd : 0 < d) :
    floorLog2 n d =
      if (2 : ℚ) ^ ((Nat.log2 n : ℤ) - Nat.log2 d) ≤ n / d then (Nat.log2 n : ℤ) - Nat.log2 d
      else (Nat.log2 n : ℤ) - Nat.log2 d - 1 := by
  have hd' : (0 : ℚ) < d := mod_cast hd
  rw [floorLog2]
  generalize (Nat.log2 n : ℤ) - Nat.log2 d = k
  rcases le_or_gt 0 k with hk | hk
  · simp only [hk, if_true, decide_eq_true_eq]
    refine if_congr ?_ rfl rfl
    rw [two_zpow_toNat hk, le_div_iff₀ hd', mul_comm]
    exact_mod_cast Iff.rfl
  · simp only [hk.not_ge, if_false, decide_eq_true_eq]
    refine if_congr ?_ rfl rfl
    rw [two_zpow_neg_toNat hk, inv_le_iff_one_le_mul₀ (by positivity), div_mul_eq_mul_div, one_le_div₀ hd']
    exact_mod_cast Iff.rfl

theorem floorLog2_exact {n d : Nat} (hn : 0 < n) (hd : 0 < d) :
    (2 : ℚ) ^ floorLog2 n d ≤ n / d ∧ (n : ℚ) / d < 2 ^ (floorLog2 n d + 1) := by
  have hd' : (0 : ℚ) < d := mod_cast hd
  obtain ⟨hn0, hn1⟩ := two_pow_log2 hn
  obtain ⟨hd0, hd1⟩ := two_pow_log2 hd
  rw [floorLog2_eq hd]
  split
  case isTrue h =>
    refine ⟨h, ?_⟩
    calc (n : ℚ) / d < 2 ^ ((Nat.log2 n : ℤ) + 1) / 2 ^ (Nat.log2 d : ℤ) := by gcongr
      _ = 2 ^ ((Nat.log2 n : ℤ) - Nat.log2 d + 1) := by rw [← zpow_sub₀ two_ne_zero]; congr 1; ring
  case isFalse h =>
    rw [sub_add_cancel]
    refine ⟨?_, not_le.mp h⟩
    calc (2 : ℚ) ^ ((Nat.log2 n : ℤ) - Nat.log2 d - 1) = 2 ^ (Nat.log2 n : ℤ) / 2 ^ ((Nat.log2 d : ℤ) + 1) := by
          rw [← zpow_sub₀ two_ne_zero]; congr 1; ring
      _ ≤ n / d := by gcongr

/-- The exponent of a fraction's binade is the only one. -/
theorem floorLog2_unique {n d : Nat} (hn : 0 < n) (hd : 0 < d) {k : ℤ} (h0 : (2 : ℚ) ^ k ≤ n / d)
    (h1 : (n : ℚ) / d < 2 ^ (k + 1)) : floorLog2 n d = k := by
  obtain ⟨e0, e1⟩ := floorLog2_exact hn hd
  have hlo := (zpow_lt_zpow_iff_right₀ one_lt_two).mp (e0.trans_lt h1)
  have hhi := (zpow_lt_zpow_iff_right₀ one_lt_two).mp (h0.trans_lt e1)
  omega

/-! ### Codes of the float types (R62) -/

/-- The number that the magnitude bits of a code without a sign stand for, below the codes of infinities and NaNs. -/
def magnitude (f : FloatFmt) (enc : Nat) : ℚ :=
  if enc / 2 ^ f.mb = 0 then (enc % 2 ^ f.mb : ℕ) * 2 ^ (1 - (f.bias : ℤ) - f.mb)
  else ((enc % 2 ^ f.mb : ℕ) + 2 ^ f.mb) * 2 ^ (((enc / 2 ^ f.mb : ℕ) : ℤ) - f.bias - f.mb)

theorem magnitude_of_lt {f : FloatFmt} {m : Nat} (h : m < 2 ^ f.mb) :
    magnitude f m = m * 2 ^ (1 - (f.bias : ℤ) - f.mb) := by
  rw [magnitude, if_pos (Nat.div_eq_of_lt h), Nat.mod_eq_of_lt h]

/-- A code with an exponent field other than 0, from the field and the mantissa. -/
theorem magnitude_normal {f : FloatFmt} {g m : Nat} (h : m < 2 ^ f.mb) :
    magnitude f ((g + 1) * 2 ^ f.mb + m) = (m + 2 ^ f.mb) * 2 ^ ((g : ℤ) + 1 - f.bias - f.mb) := by
  have hdiv : ((g + 1) * 2 ^ f.mb + m) / 2 ^ f.mb = g + 1 := by
    rw [Nat.mul_comm, Nat.mul_add_div (by positivity), Nat.div_eq_of_lt h, Nat.add_zero]
  have hmod : ((g + 1) * 2 ^ f.mb + m) % 2 ^ f.mb = m := by
    rw [Nat.mul_comm, Nat.mul_add_mod, Nat.mod_eq_of_lt h]
  rw [magnitude, if_neg (by rw [hdiv]; exact Nat.succ_ne_zero g), hdiv, hmod]
  push_cast
  rfl

/-- R62, R65: a rounded mantissa with the steps of the exponent above the least; one that rounding has carried to
2^(mb + 1) stands in the next binade. -/
theorem magnitude_rounded {f : FloatFmt} {g m : Nat} (hm : m ≤ 2 ^ (f.mb + 1)) (hg : g = 0 ∨ 2 ^ f.mb ≤ m) :
    magnitude f (g * 2 ^ f.mb + m) = m * 2 ^ ((g : ℤ) + 1 - f.bias - f.mb) := by
  rcases lt_or_ge m (2 ^ f.mb) with hlt | hge
  · obtain rfl : g = 0 := hg.resolve_right hlt.not_ge
    simpa using magnitude_of_lt hlt
  obtain ⟨k, rfl⟩ := Nat.exists_eq_add_of_le hge
  rcases hm.lt_or_eq with hlt | heq
  · have hk : k < 2 ^ f.mb := by rw [pow_succ] at hlt; omega
    have he : g * 2 ^ f.mb + (2 ^ f.mb + k) = (g + 1) * 2 ^ f.mb + k := by ring
    rw [he, magnitude_normal hk]
    push_cast
    ring
  · obtain rfl : k = 2 ^ f.mb := by rw [pow_succ] at heq; omega
    have he : g * 2 ^ f.mb + (2 ^ f.mb + 2 ^ f.mb) = (g + 1 + 1) * 2 ^ f.mb + 0 := by ring
    rw [he, magnitude_normal (by positivity)]
    have hz : (2 : ℚ) ^ (((g + 1 : ℕ) : ℤ) + 1 - f.bias - f.mb) = 2 ^ ((g : ℤ) + 1 - f.bias - f.mb) * 2 := by
      rw [← zpow_add_one₀ two_ne_zero]
      congr 1
      push_cast
      ring
    rw [hz]
    push_cast
    ring

theorem FloatFmt.signBit_eq (f : FloatFmt) : f.signBit = 2 ^ f.mb * 2 ^ f.eb := by
  rw [FloatFmt.signBit, Nat.add_comm, Nat.pow_add]

theorem withSign_eq_add (f : FloatFmt) (neg : Bool) (enc : Nat) :
    f.withSign neg enc = enc + f.signBit * neg.toNat := by
  cases neg <;> simp [FloatFmt.withSign]

section
variable {f : FloatFmt} {neg : Bool} {enc : Nat}

theorem withSign_mod_signBit (h : enc < f.signBit) : f.withSign neg enc % f.signBit = enc := by
  rw [withSign_eq_add, Nat.add_mul_mod_self_left, Nat.mod_eq_of_lt h]

theorem withSign_sign (h : enc < f.signBit) : (f.withSign neg enc / f.signBit % 2 == 1) = neg := by
  rw [withSign_eq_add, Nat.add_mul_div_left _ _ (Nat.zero_lt_of_lt h), Nat.div_eq_of_lt h, Nat.zero_add]
  cases neg <;> rfl

theorem withSign_mantissa : f.withSign neg enc % 2 ^ f.mb = enc % 2 ^ f.mb := by
  rw [withSign_eq_add, f.signBit_eq, Nat.mul_assoc, Nat.add_mul_mod_self_left]

theorem withSign_exponent (h : enc < f.signBit) : f.withSign neg enc / 2 ^ f.mb % 2 ^ f.eb = enc / 2 ^ f.mb := by
  rw [f.signBit_eq] at h
  rw [withSign_eq_add, f.signBit_eq, Nat.mul_assoc, Nat.add_mul_div_left _ _ (by positivity),
    Nat.add_mul_mod_self_left, Nat.mod_eq_of_lt (Nat.div_lt_of_lt_mul h)]

/-- R62: the value of the code of a finite number. -/
theorem val_decodeFloat (h : enc ≤ f.maxEnc) (hlt : f.maxEnc < f.signBit) :
    val (decodeFloat f (f.withSign neg enc)) = sgn neg * magnitude f enc := by
  have henc := h.trans_lt hlt
  simp only [decodeFloat, withSign_mod_signBit henc, withSign_sign henc, withSign_mantissa, withSign_exponent henc,
    gt_iff_lt, h.not_gt, decide_false, Bool.false_and, Bool.false_eq_true, if_false, beq_iff_eq, magnitude]
  split
  · rw [val_scale (isNumber_fin Nat.one_pos), val_fin, Nat.cast_one, div_one, mul_assoc]
  · rw [val_scale (isNumber_fin Nat.one_pos), val_fin, Nat.cast_one, div_one, mul_assoc]
    push_cast
    rfl

end

/-! ### Rounding to a float type (R65, R66, R69) -/

section
variable {T : Ty}

theorem Ty.ne_ts8 (h : T.isFloat = true) : T ≠ .ts8 := by
  rintro rfl
  cases h

theorem Ty.ne_mx4 (h : T.isFloat = true) : T ≠ .mx4 := by
  rintro rfl
  cases h

theorem Ty.fmt_bits (h : T.isFloat = true) : T.bits = T.fmt.eb + T.fmt.mb + 1 := by
  cases T <;> simp_all [Ty.isFloat, Ty.bits, Ty.fmt]

theorem Ty.maxEnc_lt (h : T.isFloat = true) : T.fmt.maxEnc < T.fmt.signBit := by
  cases T <;> simp_all [Ty.isFloat, FloatFmt.signBit, Ty.fmt]

/-- R62: an element of a float type is read back from its code. -/
theorem val_readFloat (h : T.isFloat = true) {neg : Bool} {enc : Nat} (henc : enc ≤ T.fmt.maxEnc) :
    val (readFloat T (T.fmt.withSign neg enc)) = sgn neg * magnitude T.fmt enc := by
  have hlt := henc.trans_lt (Ty.maxEnc_lt h)
  have hbits : 2 ^ T.bits = 2 * T.fmt.signBit := by rw [Ty.fmt_bits h, Nat.pow_succ, Nat.mul_comm, FloatFmt.signBit]
  have hmod : T.fmt.withSign neg enc % 2 ^ T.bits = T.fmt.withSign neg enc := by
    rw [Nat.mod_eq_of_lt]
    rw [withSign_eq_add, hbits]
    cases neg <;> simp <;> omega
  rw [readFloat, hmod, val_decodeFloat henc (Ty.maxEnc_lt h)]

theorem overflowRes_flags (h : T.isFloat = true) (neg sat : Bool) :
    (overflowRes T neg sat).2 &&& (flagOF ||| flagSAT) ≠ 0 := by
  have h8 : (T == .ts8) = false := beq_false_of_ne (Ty.ne_ts8 h)
  have h4 : (T == .mx4) = false := beq_false_of_ne (Ty.ne_mx4 h)
  simp only [overflowRes, h8, h4, Bool.false_eq_true, if_false, Bool.or_false]
  split
  · dsimp only
    decide
  · split
    · dsimp only
      decide
    · dsimp only
      decide

/-- R68: NX and UF are bits of their own. -/
theorem flagNX_raised (nx uf : Bool) : (flagIf nx flagNX ||| flagIf uf flagUF) &&& flagNX ≠ 0 ↔ nx = true := by
  cases nx <;> cases uf <;> decide

/-- The exponent of the unit in the last place of a number's binade, no less than that of the least numbers. -/
def ulpExp (T : Ty) (n d : Nat) : ℤ := max (floorLog2 n d) (1 - (T.fmt.bias : ℤ)) - T.fmt.mb

/-- The rounded mantissa, and the code without its sign. -/
def mantissa (T : Ty) (mode : Mode) (neg : Bool) (n d : Nat) : Nat := (roundAt mode neg n d (ulpExp T n d)).1
def codeOf (T : Ty) (mode : Mode) (neg : Bool) (n d : Nat) : Nat :=
  (ulpExp T n d - (1 - (T.fmt.bias : ℤ) - T.fmt.mb)).toNat * 2 ^ T.fmt.mb + mantissa T mode neg n d

/-- R65, R66: what `roundTo` answers for a number other than 0: the overflow result, or the code with NX where rounding
changed the number. -/
theorem roundTo_fin (h : T.isFloat = true) (mode : Mode) (sat np neg : Bool) {n : Nat} (hn : 0 < n) (d : Nat) :
    ∃ uf, roundTo T mode sat np (.fin neg n d) =
      if T.fmt.maxEnc < codeOf T mode neg n d then overflowRes T neg sat
      else (T.fmt.withSign neg (codeOf T mode neg n d),
        flagIf (roundAt mode neg n d (ulpExp T n d)).2 flagNX ||| flagIf uf flagUF) := by
  have h8 := Ty.ne_ts8 h
  have h4 : (T == .mx4) = false := beq_false_of_ne (Ty.ne_mx4 h)
  unfold roundTo
  simp only [h4, beq_iff_eq, hn.ne', if_false, Bool.false_and, Bool.false_eq_true]
  exact ⟨_, rfl⟩

/-- The rounded number of a mode is the mantissa times the unit. -/
theorem magnitude_codeOf (T : Ty) (mode : Mode) (neg : Bool) {n d : Nat} (hn : 0 < n) (hd : 0 < d) :
    magnitude T.fmt (codeOf T mode neg n d) = mantissa T mode neg n d * 2 ^ ulpExp T n d := by
  obtain ⟨he0, he1⟩ := floorLog2_exact hn hd
  have hfit : (n : ℚ) / d / 2 ^ ulpExp T n d < (2 ^ (T.fmt.mb + 1) : ℕ) := by
    rw [div_lt_iff₀ (by positivity)]
    push_cast
    rw [← zpow_natCast, ← zpow_add₀ two_ne_zero]
    refine he1.trans_le (zpow_le_zpow_right₀ one_le_two ?_)
    unfold ulpExp
    push_cast
    omega
  have hg : (ulpExp T n d - (1 - (T.fmt.bias : ℤ) - T.fmt.mb)).toNat = 0 ∨ 2 ^ T.fmt.mb ≤ mantissa T mode neg n d := by
    rcases le_or_gt (floorLog2 n d) (1 - (T.fmt.bias : ℤ)) with hle | hgt
    · exact .inl (by rw [ulpExp, max_eq_right hle, sub_self, Int.toNat_zero])
    · refine .inr (le_roundAt mode neg hd ?_)
      rw [le_div_iff₀ (by positivity)]
      push_cast
      rw [← zpow_natCast, ← zpow_add₀ two_ne_zero, ulpExp, max_eq_left hgt.le, add_sub_cancel]
      exact he0
  have hm : mantissa T mode neg n d ≤ 2 ^ (T.fmt.mb + 1) := roundAt_le mode neg hd hfit
  rw [codeOf, magnitude_rounded hm hg, Int.toNat_of_nonneg (by unfold ulpExp; omega)]
  congr 2
  ring

end

end Sys2Proof.Machine
end

