-- ==== Sys2Proof/Proofs/Roots.lean ====
section
namespace Sys2Proof.Machine
open Claims (val)

/-! ### The square root (R190) -/

theorem isqrtLoop_exact {x k r : Nat} (h0 : r * r ≤ x) (h1 : x < (r + 2 ^ k) * (r + 2 ^ k)) :
    isqrtLoop x k r = Nat.sqrt x := by
  induction k generalizing r with
  | zero => exact Nat.eq_sqrt.mpr ⟨h0, h1⟩
  | succ k ih =>
    rw [isqrtLoop]
    split
    case isTrue hbit =>
      refine ih hbit ?_
      rwa [Nat.add_assoc, ← Nat.two_mul, ← Nat.pow_succ']
    case isFalse hbit => exact ih h0 (not_le.mp hbit)

theorem isqrt_eq_sqrt (x : Nat) : isqrt x = Nat.sqrt x := by
  refine isqrtLoop_exact (Nat.zero_le x) ?_
  have hlog : x < 2 ^ (Nat.log2 x + 1) := Nat.lt_log2_self
  rw [Nat.zero_add, ← Nat.pow_add]
  exact hlog.trans_le (Nat.pow_le_pow_right two_pos (by omega))

/-- The integer square root of the integer part of a fraction is that of the fraction. -/
theorem sqrt_div_exact (a : Nat) {d : Nat} (hd : 0 < d) :
    ((Nat.sqrt (a / d) : ℕ) : ℚ) ^ 2 ≤ a / d ∧ (a : ℚ) / d < ((Nat.sqrt (a / d) : ℕ) + 1) ^ 2 ∧
      (Nat.sqrt (a / d) * Nat.sqrt (a / d) * d = a ↔ ((Nat.sqrt (a / d) : ℕ) : ℚ) ^ 2 = a / d) := by
  have hd' : (0 : ℚ) < d := mod_cast hd
  have hlo : Nat.sqrt (a / d) * Nat.sqrt (a / d) * d ≤ a := (Nat.le_div_iff_mul_le hd).mp (Nat.sqrt_le _)
  have hhi : a < (Nat.sqrt (a / d) + 1) * (Nat.sqrt (a / d) + 1) * d :=
    (Nat.div_lt_iff_lt_mul hd).mp (Nat.lt_succ_sqrt _)
  rw [le_div_iff₀ hd', div_lt_iff₀ hd', eq_div_iff hd'.ne', sq, sq]
  exact ⟨mod_cast hlo, mod_cast hhi, by exact_mod_cast Iff.rfl⟩

theorem xsqrt_eq (n d : Nat) :
    xsqrt n d =
      if Nat.sqrt (n * 4 ^ 256 / d) * Nat.sqrt (n * 4 ^ 256 / d) * d = n * 4 ^ 256
      then .fin false (Nat.sqrt (n * 4 ^ 256 / d)) (2 ^ 256)
      else .fin false (2 * Nat.sqrt (n * 4 ^ 256 / d) + 1) (2 ^ (256 + 1)) := by
  have hp : 2 ^ (2 * 256) = 4 ^ 256 := by rw [Nat.pow_mul]
  simp only [xsqrt, hp, isqrt_eq_sqrt, beq_iff_eq]

/-- R190: the root of a fraction in units of 2^−256: itself, or the middle between the two multiples around it. -/
theorem val_xsqrt (n : Nat) {d : Nat} (hd : 0 < d) :
    ∃ k : ℕ, (k : ℚ) ^ 2 ≤ (n : ℚ) / d * 4 ^ 256 ∧ (n : ℚ) / d * 4 ^ 256 < (k + 1) ^ 2 ∧
      val (xsqrt n d) * 2 ^ 256 = if (k : ℚ) ^ 2 = (n : ℚ) / d * 4 ^ 256 then (k : ℚ) else k + 1 / 2 := by
  obtain ⟨hlo, hhi, hexact⟩ := sqrt_div_exact (n * 4 ^ 256) hd
  have hx : (n : ℚ) / d * 4 ^ 256 = (n * 4 ^ 256 : ℕ) / d := by push_cast; ring
  rw [hx, xsqrt_eq]
  refine ⟨_, hlo, hhi, ?_⟩
  simp only [hexact]
  generalize Nat.sqrt (n * 4 ^ 256 / d) = k
  have hp : (2 : ℚ) ^ 256 ≠ 0 := by positivity
  split
  · rw [val_fin, sgn_false, one_mul, Nat.cast_pow, Nat.cast_ofNat, div_mul_cancel₀ _ hp]
  · rw [val_fin, sgn_false, one_mul, Nat.cast_pow, Nat.cast_ofNat, pow_succ]
    generalize (2 : ℚ) ^ 256 = p at hp ⊢
    push_cast
    field_simp

/-! ### 2^x and the logarithm of integer exponents (R190) -/

theorem xexp2_int {k : ℤ} (h : |k| ≤ 1024) :
    xexp2 (decide (k < 0)) k.natAbs 1 = XVal.scale (.fin false 1 1) k := by
  obtain ⟨hlo, hhi⟩ := abs_le.mp h
  have hk : (if decide (k < 0) then -(((k.natAbs + 1 - 1) / 1 : ℕ) : ℤ) else ((k.natAbs / 1 : ℕ) : ℤ)) = k := by
    simp only [Nat.add_sub_cancel, Nat.div_one, decide_eq_true_eq]
    split <;> omega
  unfold xexp2
  simp only [hk, hhi.not_gt, if_false, hlo.not_gt, Nat.mod_one, ite_self, BEq.rfl, if_true]

theorem val_two_pow (k : ℤ) : val (XVal.scale (.fin false 1 1) k) = 2 ^ k := by
  rw [val_scale (isNumber_fin Nat.one_pos), val_fin]
  simp

theorem val_xexp2Of_int {k : ℤ} (h : |k| ≤ 1024) : val (xexp2Of (XVal.ofInt k)).1 = 2 ^ k := by
  rw [XVal.ofInt, xexp2Of, xexp2_int h, val_two_pow]

/-- R190: the logarithm of a power of two. -/
theorem xlog2_two_pow {n d : Nat} (hn : 0 < n) (hd : 0 < d) {k : ℤ} (h : (n : ℚ) / d = 2 ^ k) : xlog2 n d = .ofInt k := by
  have hd' : (0 : ℚ) < d := mod_cast hd
  have hlog : floorLog2 n d = k := floorLog2_unique hn hd h.ge (h ▸ zpow_lt_zpow_right₀ one_lt_two (lt_add_one k))
  have heq : (if 0 ≤ k then n else n * 2 ^ (-k).toNat) = if 0 ≤ k then d * 2 ^ k.toNat else d := by
    rw [div_eq_iff hd'.ne'] at h
    split
    case isTrue hk =>
      rw [two_zpow_toNat hk, mul_comm] at h
      exact_mod_cast h
    case isFalse hk =>
      have h' : (n : ℚ) * 2 ^ (-k).toNat = d := by
        rw [h, two_zpow_neg_toNat (not_le.mp hk), mul_right_comm, inv_mul_cancel₀ (by positivity), one_mul]
      exact_mod_cast h'
  unfold xlog2
  simp only [hlog]
  rw [if_pos (beq_iff_eq.mpr heq)]

theorem val_xlog2Of_two_pow (k : ℤ) : val (xlog2Of (XVal.scale (.fin false 1 1) k)).1 = k := by
  obtain ⟨n, d, he, hn, hd⟩ : ∃ n d, XVal.scale (.fin false 1 1) k = .fin false n d ∧ 0 < n ∧ 0 < d := by
    rw [XVal.scale]
    split
    · exact ⟨_, _, rfl, by positivity, Nat.one_pos⟩
    · exact ⟨_, _, rfl, Nat.one_pos, by positivity⟩
  have hv : (n : ℚ) / d = 2 ^ k := by
    rw [← val_two_pow, he, val_fin, sgn_false, one_mul]
  rw [he, xlog2Of, if_neg (by simpa using hn.ne'), if_neg Bool.false_ne_true, xlog2_two_pow hn hd hv, val_ofInt]

/-! ### The reciprocal (R190) -/

theorem xrcp_fin (s : Bool) {n : Nat} (d : Nat) (h : 0 < n) : xrcp (.fin s n d) = (.fin s d n, 0) := by
  rw [xrcp, if_neg (beq_iff_eq.not.mpr h.ne')]

theorem xrsq_fin (s : Bool) {n : Nat} (d : Nat) (h : 0 < n) :
    xrsq (.fin s n d) = if s then (.nan none false, flagIV) else (xsqrt d n, 0) := by
  rw [xrsq, if_neg (beq_iff_eq.not.mpr h.ne')]

theorem xsqrtOf_fin (s : Bool) {n : Nat} (d : Nat) (h : 0 < n) :
    xsqrtOf (.fin s n d) = if s then (.nan none false, flagIV) else (xsqrt n d, 0) := by
  rw [xsqrtOf, if_neg (beq_iff_eq.not.mpr h.ne')]

theorem xlog2Of_fin (s : Bool) {n : Nat} (d : Nat) (h : 0 < n) :
    xlog2Of (.fin s n d) = if s then (.nan none false, flagIV) else (xlog2 n d, 0) := by
  rw [xlog2Of, if_neg (beq_iff_eq.not.mpr h.ne')]

theorem val_reciprocal (s : Bool) {n d : Nat} (hn : 0 < n) (hd : 0 < d) :
    val (.fin s d n) * val (.fin s n d) = 1 := by
  have hn' : (n : ℚ) ≠ 0 := mod_cast hn.ne'
  have hd' : (d : ℚ) ≠ 0 := mod_cast hd.ne'
  rw [val_fin, val_fin, mul_mul_mul_comm, sgn_mul_self, one_mul]
  field_simp

end Sys2Proof.Machine
end

