-- ==== Sys2Proof/Proofs/ExactArithmetic.lean ====
section
section
open Sys2Proof.Machine Sys2Proof.Claims

/-- Settles O16, clause by clause: integer images are congruent to what they stand for and lie in the type's range;
sums, products and scalings of finite numbers are those of the rationals; and every rounding is that of a fraction to an
integer, in units of the last place for a float type. -/
theorem exactArithmetic : Obligations.ExactArithmetic := by
  refine ⟨fun t sat v ht => ?integers, fun m a b => ⟨?finite, fun h => ?nan, fun p => ?infinite⟩,
    fun t mode sat np p n d ht hn hd => ?floats, fun t mode p n d ht hd => ?floatToInt, fun p n d hn hd => ?roots,
    fun k hk => ⟨val_xexp2Of_int hk, val_xlog2Of_two_pow k⟩, fun t q b zp => ⟨fun h hb => ?scaled, ?offsetBinary⟩,
    fun mode a zp p0 p1 pc n0 d0 n1 d1 nc dc h0 h1 hc => ⟨fun he => ?tsdot, fun t _ => ?zdot⟩⟩
  case integers =>
    refine ⟨(readInt_mem_range t _).1, (readInt_mem_range t _).2, ?wrapped, ?saturated, intResult_extends ht sat v,
      intResult_lt_of_bits sat v⟩
    case wrapped =>
      rintro rfl
      exact ⟨Int.emod_eq_emod_iff_emod_sub_eq_zero.mp (readInt_intImage_modEq ht v), rfl⟩
    case saturated =>
      rintro rfl
      rw [intResult_saturated]
      exact ⟨readInt_intImage ht (clamp_mem_range t v), rfl⟩
  case finite =>
    rintro p q n k d e rfl rfl hd he
    obtain ⟨s, i, j, hs, hj, hsum⟩ := xadd_exact m (p := p) (q := q) (n := n) (k := k) hd he
    rw [hs, xmul_fin]
    exact ⟨rfl, rfl, hj, hsum, by rw [xadd_fin], rfl, by rw [num_product, XVal.den]; push_cast; rfl, rfl⟩
  case nan =>
    rw [xadd_isNaN h, xmul_isNaN h, flagIf_anySig]
    exact ⟨rfl, rfl, firstNaN_not_isSig _, rfl, rfl⟩
  case infinite => cases p <;> exact ⟨rfl, rfl⟩
  case floats =>
    obtain ⟨uf, hr⟩ := roundTo_fin ht mode sat np p hn d
    rw [hr]
    dsimp only
    split
    case isTrue => exact fun hflags => absurd hflags (overflowRes_flags ht p sat)
    case isFalse hc =>
      intro _
      obtain ⟨he0, he1⟩ := floorLog2_exact hn hd
      obtain ⟨hround, hexact⟩ := roundAt_exact mode p n hd (ulpExp t n d)
      have habs : |val (.fin p n d)| = n / d := by rw [val_fin, abs_sgn_mul p (by positivity)]
      refine ⟨_, floorLog2 n d, habs ▸ he0, habs ▸ he1, hround, ?_, ?_⟩
      · rw [val_readFloat ht (not_lt.mp hc), magnitude_codeOf t mode p hn hd, cast_signed, ← mul_assoc]
        rfl
      · rw [flagNX_raised, cast_signed]
        exact hexact
  case floatToInt =>
    refine ⟨(roundToInteger mode p n d).1, roundsTo_roundToInteger mode p n hd, ?_, floatToInt_fin_flagIV t mode p n d⟩
    rw [floatToInt_fin]
    exact readInt_intImage ht (clamp_mem_range t _)
  case roots =>
    rw [xrcp_fin p d hn]
    exact ⟨rfl, val_reciprocal p hn hd, xrsq_fin false d hn, xsqrtOf_fin false d hn, val_xsqrt n hd, rfl, rfl, rfl, rfl,
      xrsq_fin true d hn, xsqrtOf_fin true d hn, xlog2Of_fin true d hn⟩
  case scaled => exact_mod_cast val_blockValue_scaled h hb q zp
  case offsetBinary =>
    intro h p n d hd hs
    refine ⟨val_blockValue_zb h hs q zp, fun hn mode p' n' d' hd' => ⟨_, ?_, quantise_zb h mode hn hs zp⟩⟩
    rw [← val_xdiv]
    exact roundsTo_roundToInteger mode (p' != p) (n' * d) (Nat.mul_pos hd' (Nat.pos_of_ne_zero hn))
  case tsdot => exact_mod_cast val_tsdot mode (isNumber_fin h0) (isNumber_fin h1) (isNumber_fin hc) he
  case zdot => exact val_zdot mode zp a (isNumber_fin h0) (isNumber_fin h1) (isNumber_fin hc)

end
end

