-- ==== Sys2Proof/Proofs/ScalarWords.lean ====
section
/-! The scalar words: what their fields are, and that a word other than an SLIT that decodes is the encoding of what it
decodes to (R88-R95, R101). -/

namespace Sys2Proof

/-! ### Fields -/

@[simp] theorem toNat_field (k lo w : Nat) : (field k lo w).toNat = w / 2 ^ lo % 2 ^ k := BitVec.toNat_ofNat ..

/-- A field below bit n is one of the low n bits. -/
theorem field_mod {k lo n : Nat} (h : lo + k ≤ n) (w : Nat) : field k lo (w % 2 ^ n) = field k lo w := by
  apply BitVec.eq_of_toNat_eq
  rw [toNat_field, toNat_field]
  apply Nat.eq_of_testBit_eq
  intro j
  simp only [Nat.testBit_mod_two_pow, Nat.testBit_div_two_pow]
  by_cases hj : j < k
  · simp [show j + lo < n by omega]
  · simp [hj]

/-- A vector is the low field of itself. -/
theorem field_toNat {k : Nat} (v : BitVec k) : field k 0 v.toNat = v := by
  rw [field, pow_zero, Nat.div_one, BitVec.ofNat_toNat, BitVec.setWidth_eq]

theorem field_eq {k lo w : Nat} {v : BitVec k} (h : w / 2 ^ lo % 2 ^ k = v.toNat) : field k lo w = v :=
  BitVec.eq_of_toNat_eq ((toNat_field ..).trans h)

theorem field_eq_zero {k lo w : Nat} : field k lo w = 0 ↔ w / 2 ^ lo % 2 ^ k = 0 := by
  rw [← toNat_field, BitVec.toNat_eq]
  rfl

/-! ### Scalar words: two register fields and the low 14 bits (R88) -/

section
variable {maj low : Nat} (d a : BitVec 6)

theorem encS_major (hm : maj < 64) (hl : low < 2 ^ 14) : encS maj d a low / 2 ^ 26 % 64 = maj := by
  have := d.isLt; have := a.isLt
  simp only [encS]; omega

theorem field_encS_x (hl : low < 2 ^ 14) : field 6 20 (encS maj d a low) = d :=
  field_eq (by have := a.isLt; simp only [encS]; omega)

theorem field_encS_y (hl : low < 2 ^ 14) : field 6 14 (encS maj d a low) = a :=
  field_eq (by simp only [encS]; omega)

theorem encS_aux (hl : low < 2 ^ 14) : encS maj d a low % 2 ^ 14 = low := by
  simp only [encS]; omega

theorem field_encS_low {k lo : Nat} (h : lo + k ≤ 14) (hl : low < 2 ^ 14) :
    field k lo (encS maj d a low) = field k lo low := by
  rw [← field_mod h, encS_aux d a hl]

theorem encS_fn : encS maj d a low % 256 = low % 256 := by
  simp only [encS]; omega

/-- What the decoder reads of a word besides the fields of its low 14 bits. -/
theorem encS_parts (hm : maj < 64) (hl : low < 2 ^ 14) :
    encS maj d a low / 2 ^ 26 % 64 = maj ∧ field 6 20 (encS maj d a low) = d ∧ field 6 14 (encS maj d a low) = a ∧
      encS maj d a low % 2 ^ 14 = low ∧ encS maj d a low % 256 = low % 256 :=
  ⟨encS_major d a hm hl, field_encS_x d a hl, field_encS_y d a hl, encS_aux d a hl, encS_fn d a⟩

end

/-- A word is made of what the decoder reads of it. -/
theorem encS_fields {w : Nat} (hw : w < 2 ^ 32) :
    encS (w / 2 ^ 26 % 64) (field 6 20 w) (field 6 14 w) (w % 2 ^ 14) = w := by
  simp only [encS, toNat_field]; omega

theorem toNat_field_imm (w : Nat) : (field 14 0 w).toNat = w % 2 ^ 14 := by
  simp only [toNat_field]; omega

/-- The function code of SATOM and SWAITC. -/
theorem toNat_fields_fn (w : Nat) :
    (field 3 5 w).toNat * 2 ^ 5 + (field 2 3 w).toNat * 2 ^ 3 + (field 3 0 w).toNat = w % 256 := by
  simp only [toNat_field]; omega

/-- The decoder reads the 32 bits of its word alone. -/
theorem decodeScalar_mod (w x : Nat) : decodeScalar (w % 2 ^ 32) x = decodeScalar w x := by
  have h26 : w % 2 ^ 32 / 2 ^ 26 % 64 = w / 2 ^ 26 % 64 := by omega
  have h8 : w % 2 ^ 32 % 256 = w % 256 := by omega
  have h14 : w % 2 ^ 32 % 2 ^ 14 = w % 2 ^ 14 := by omega
  have hlow : w % 2 ^ 32 % 2 ^ 26 = w % 2 ^ 26 := by omega
  simp only [decodeScalar, h26, h8, h14, hlow, field_mod (n := 32), Nat.reduceLeDiff, Nat.reduceAdd]

/-! ### What decodes is encoded as the word (R101) -/

/-- Whatever a decoder answers is an instruction that the encodings allow, and has these bits. -/
def Encoded (o : Option Instr) (w : Nat) : Prop :=
  ∀ i, o = some i → i.wellFormed = true ∧ encodeScalar i = some w

theorem Encoded.none {w : Nat} : Encoded none w := fun _ h => nomatch h

theorem Encoded.some {i : Instr} {v w : Nat} (hi : i.wellFormed = true) (he : encodeScalar i = some v) (hv : v = w) :
    Encoded (some i) w := by
  intro j h
  obtain rfl := Option.some.inj h
  exact ⟨hi, hv ▸ he⟩

theorem Encoded.ite {c : Prop} [Decidable c] {x y : Option Instr} {w : Nat} (hx : c → Encoded x w)
    (hy : ¬ c → Encoded y w) : Encoded (if c then x else y) w := by
  split
  case isTrue hc => exact hx hc
  case isFalse hc => exact hy hc

/-- A field that breaks the rules of its word leaves no instruction. -/
theorem Encoded.guard {c : Prop} [Decidable c] {x : Option Instr} {w : Nat} (hx : c → Encoded x w) :
    Encoded (if c then x else .none) w := .ite hx fun _ => .none

theorem encoded_decodeAlu {d a b : BitVec 6} {fn : Nat} (hf : fn < 256) :
    Encoded (decodeAlu d a b fn) (encR 0x01 d a b fn) := by
  unfold decodeAlu
  split
  case h_20 | h_21 => exact .guard fun hb => hb ▸ .some rfl rfl rfl
  case h_22 =>
    exact .guard fun hc => .some rfl rfl (by simp only [BitVec.toNat_ofNat]; congr 1; omega)
  all_goals exact .some rfl rfl rfl

/-- The form in which a match on `toNat` gives a register number. -/
theorem eq_of_toNat_eq_lit {k n : Nat} {v : BitVec k} (h : v.toNat = n) : v = BitVec.ofNat k n := by
  rw [← h, BitVec.ofNat_toNat, BitVec.setWidth_eq]

theorem encoded_decodeSystem {d a : BitVec 6} {aux : Nat} :
    Encoded (decodeSystem d a aux) (encS 0x00 d a aux) := by
  refine .ite (fun _ => .none) fun ha => ?_
  obtain rfl := not_not.mp ha
  refine .ite (fun hd => .guard fun hc => ?trap) fun _ => .ite (fun _ => .none) fun haux => ?other
  case trap =>
    exact hd ▸ .some rfl rfl (by rw [BitVec.toNat_ofNat, Nat.mod_eq_of_lt hc])
  case other =>
    obtain rfl := not_not.mp haux
    split
    case h_6 => exact .none
    all_goals next hd => exact eq_of_toNat_eq_lit hd ▸ .some rfl rfl rfl

theorem encoded_decodeJump {d a : BitVec 6} {aux : Nat} (hl : aux < 2 ^ 14) :
    Encoded (decodeJump d a aux) (encS 0x14 d a aux) := by
  have h12 (hc : aux < 4096) : (BitVec.ofNat 12 aux).toNat = aux := Nat.mod_eq_of_lt hc
  unfold decodeJump
  split
  case h_1 hd => exact eq_of_toNat_eq_lit hd ▸ .guard fun hc => .some rfl rfl (by rw [h12 hc]; rfl)
  case h_2 hd => exact eq_of_toNat_eq_lit hd ▸ .guard fun hc => hc ▸ .some rfl rfl rfl
  case h_3 hd => exact eq_of_toNat_eq_lit hd ▸ .some rfl rfl (by rw [BitVec.toNat_ofNat, Nat.mod_eq_of_lt hl]; rfl)
  case h_4 hd => exact eq_of_toNat_eq_lit hd ▸ .guard fun ⟨ha, hc⟩ => ha ▸ .some rfl rfl (by rw [h12 hc]; rfl)
  case h_5 => exact .none

theorem encBar_fields {aux : Nat} (hl : aux < 2 ^ 14) :
    encBar (field 7 7 aux) (field 1 6 aux) (field 6 0 aux) = aux := by
  simp only [encBar, toNat_field]; omega

theorem encoded_decodeBarrier {d a : BitVec 6} {aux : Nat} (hl : aux < 2 ^ 14) :
    Encoded (decodeBarrier d a aux) (encS 0x1A d a aux) := by
  have haux := encBar_fields hl
  unfold decodeBarrier
  dsimp only
  split
  case h_1 hd => exact eq_of_toNat_eq_lit hd ▸ .guard fun hm => .some rfl rfl (by rw [← hm, haux]; rfl)
  case h_2 hd =>
    exact eq_of_toNat_eq_lit hd ▸ .guard fun ⟨hm, ha⟩ => ha ▸ .some rfl rfl (by rw [← hm, haux]; rfl)
  case h_3 hd => exact eq_of_toNat_eq_lit hd ▸ .guard fun ha => ha ▸ .some rfl rfl (by rw [haux]; rfl)
  case h_4 hd => exact eq_of_toNat_eq_lit hd ▸ .guard fun ha => ha ▸ .some rfl rfl (by rw [haux]; rfl)
  case h_5 => exact .none

/-- SR word of a place instruction: the scope above the function code. -/
theorem fn_eq_of_scope {fn k : Nat} (hf : fn < 128) (hk : fn % 16 = k) : (field 3 4 fn).toNat * 2 ^ 4 + k = fn := by
  rw [toNat_field]; omega

theorem fn_eq_of_no_scope {fn k : Nat} (hf : fn < 128) (hk : fn % 16 = k) (hs : field 3 4 fn = 0) : k = fn := by
  have := fn_eq_of_scope hf hk
  rw [hs] at this
  simpa using this

theorem encoded_decodePlace {d a b : BitVec 6} {fn : Nat} :
    Encoded (decodePlace d a b fn) (encR 0x20 d a b fn) := by
  refine .ite (fun _ => .none) fun hf => ?_
  have hf := not_le.mp hf
  split
  case h_1 hk =>
    have hfn := (Nat.add_zero _).symm.trans (fn_eq_of_scope hf hk)
    exact .guard (by rintro ⟨rfl, hs⟩; exact .some hs rfl (congrArg _ hfn))
  case h_2 hk => exact .guard (by rintro ⟨rfl, hs⟩; exact .some hs rfl (congrArg _ (fn_eq_of_scope hf hk)))
  case h_3 hk => exact .guard (by rintro ⟨rfl, hs⟩; exact .some rfl rfl (congrArg _ (fn_eq_of_no_scope hf hk hs)))
  case h_4 hk => exact .guard fun hs => .some rfl rfl (congrArg _ (fn_eq_of_no_scope hf hk hs))
  case h_5 hk =>
    exact .guard (by rintro ⟨rfl, rfl, hs⟩; exact .some rfl rfl (congrArg _ (fn_eq_of_no_scope hf hk hs)))
  case h_6 hk => exact .guard (by rintro ⟨rfl, rfl, hs⟩; exact .some hs rfl (congrArg _ (fn_eq_of_scope hf hk)))
  case h_7 => exact .none

/-- SR word of a matrix instruction: the function code above the tile. -/
theorem fn_eq_of_tile {fn k : Nat} (hf : ¬ fn / 8 % 2 = 1) (hk : fn / 16 = k) :
    16 * k + (field 3 0 fn).toNat = fn := by
  rw [toNat_field]; omega

theorem fn_eq_of_no_tile {fn k : Nat} (hf : ¬ fn / 8 % 2 = 1) (hk : fn / 16 = k) (ht : field 3 0 fn = 0) :
    16 * k = fn := by
  have := fn_eq_of_tile hf hk
  rw [ht] at this
  simpa using this

theorem encoded_decodeMatrix {d a b : BitVec 6} {fn : Nat} :
    Encoded (decodeMatrix d a b fn) (encR 0x22 d a b fn) := by
  refine .ite (fun _ => .none) fun hf => ?_
  split
  case h_1 hk | h_2 hk =>
    exact .guard (by rintro ⟨rfl, rfl, ht⟩; exact .some rfl rfl (congrArg _ (fn_eq_of_no_tile hf hk ht)))
  case h_3 hk => exact .guard (by rintro ⟨rfl, ht⟩; exact .some rfl rfl (congrArg _ (fn_eq_of_no_tile hf hk ht)))
  case h_4 hk => exact .guard fun ht => .some rfl rfl (congrArg _ (fn_eq_of_no_tile hf hk ht))
  case h_5 hk => exact .guard (by rintro ⟨rfl, rfl, rfl⟩; exact .some rfl rfl (congrArg _ (fn_eq_of_tile hf hk)))
  case h_6 hk => exact .guard (by rintro ⟨rfl, rfl⟩; exact .some rfl rfl (congrArg _ (fn_eq_of_tile hf hk)))
  case h_7 hk => exact .guard (by rintro rfl; exact .some rfl rfl (congrArg _ (fn_eq_of_tile hf hk)))
  case h_8 hk =>
    exact .guard (by rintro ⟨rfl, rfl, rfl, ht⟩; exact .some rfl rfl (congrArg _ (fn_eq_of_no_tile hf hk ht)))
  case h_9 => exact .none

theorem Encoded.congr {o : Option Instr} {v w : Nat} (h : Encoded o v) (hv : v = w) : Encoded o w := hv ▸ h

/-- A word other than an SLIT that decodes is what its instruction is encoded as. Case h_k is major k - 1, in the
decoder's order; `hS` and `hR` say what the word is made of, as an SI or an SR word. -/
theorem encoded_decodeScalar {w : Nat} (hw : w < 2 ^ 32) (hs : isSlit w = false) (x : Nat) :
    Encoded (decodeScalar w x) w := by
  have hl : w % 2 ^ 14 < 2 ^ 14 := Nat.mod_lt _ (by decide)
  have hf : w % 256 < 256 := Nat.mod_lt _ (by decide)
  have hS := encS_fields hw
  have hR : encR (w / 2 ^ 26 % 64) (field 6 20 w) (field 6 14 w) (field 6 8 w) (w % 256) = w := by
    simp only [encR, encS, toNat_field]; omega
  unfold decodeScalar
  dsimp only
  split
  case h_1 hm => exact encoded_decodeSystem.congr (by rw [hm] at hS; exact hS)
  case h_2 hm => exact (encoded_decodeAlu hf).congr (by rw [hm] at hR; exact hR)
  case h_3 hm | h_4 hm | h_5 hm | h_6 hm | h_13 hm | h_14 hm | h_15 hm | h_16 hm | h_17 hm | h_18 hm =>
    exact .some rfl rfl (by rw [hm, ← toNat_field_imm] at hS; exact hS)
  case h_7 hm =>
    refine .ite (fun _ => .none) fun h6 => ?_
    split
    case h_4 => exact .none
    all_goals exact .some rfl rfl (by simp only [encS, toNat_field]; omega)
  case h_8 hm => exact absurd (beq_iff_eq.mpr hm) (Bool.eq_false_iff.mp hs)
  case h_9 hm | h_10 hm =>
    exact .ite (fun _ => .none) fun hz => .some (bne_iff_ne.mpr hz) rfl (by simp only [encS, toNat_field]; omega)
  case h_11 hm => exact .guard fun h => .some h rfl (by rw [hm, ← toNat_fields_fn] at hR; exact hR)
  case h_12 hm =>
    exact .guard fun h => .some rfl rfl (by simp only [encS, toNat_field, BitVec.toNat_ofNat] at h ⊢; omega)
  case h_19 hm =>
    exact .guard fun h => .some rfl rfl (by simp only [field_eq_zero, toNat_field] at h ⊢; omega)
  case h_20 hm => exact .some rfl rfl (by simp only [toNat_field]; omega)
  case h_21 hm => exact (encoded_decodeJump hl).congr (by rw [hm] at hS; exact hS)
  case h_22 hm => exact .some rfl rfl (by simp only [toNat_field]; omega)
  case h_23 hm => exact .guard fun h => .some (v := 0x16 * 2 ^ 26) rfl rfl (by omega)
  case h_24 hm =>
    split
    case h_1 hd => exact .guard fun h => .some rfl rfl (by rw [hm, eq_of_toNat_eq_lit hd, h] at hS; exact hS)
    case h_2 hd => exact .guard fun ⟨ha, h⟩ => .some rfl rfl (by
      simp only [encS, toNat_field, field_eq_zero, BitVec.reduceToNat] at hd ha ⊢; omega)
    case h_3 => exact .none
  case h_25 hm =>
    exact .guard fun ⟨hd, h⟩ => .some rfl rfl (by
      simp only [encS, toNat_field, BitVec.toNat_ofNat] at hd ⊢; omega)
  case h_26 hm =>
    refine .ite (fun _ => .none) fun hb => ?_
    split
    case h_1 hk => exact .guard fun ha => .some rfl rfl (by
      simp only [encR, encS, toNat_field, field_eq_zero, BitVec.reduceToNat, BitVec.toNat_ofNat] at hb ha ⊢; omega)
    case h_2 hk => exact .guard fun hd => .some rfl rfl (by
      simp only [encR, encS, toNat_field, field_eq_zero, BitVec.reduceToNat, BitVec.toNat_ofNat] at hb hd ⊢; omega)
    case h_3 => exact .none
  case h_27 hm => exact (encoded_decodeBarrier hl).congr (by rw [hm] at hS; exact hS)
  case h_28 hm =>
    exact .guard fun ⟨hc, hz, hs⟩ => .some (by
      show (decide _ && decide _ && scopeOk _) = true
      simp only [hc, hz, hs, decide_true, Bool.and_self]) rfl (by rw [hm, ← toNat_fields_fn] at hR; exact hR)
  case h_29 hm =>
    refine .guard fun ⟨ha, h, hs⟩ => ?_
    split
    case h_4 => exact .none
    all_goals
      next hd => exact .some hs rfl (by
        simp only [encS, toNat_field, field_eq_zero, BitVec.reduceToNat] at hd ha ⊢; omega)
  case h_30 hm | h_31 hm =>
    exact .guard fun ⟨hd, ha, h⟩ => .some rfl rfl (by
      simp only [encS, toNat_field, field_eq_zero, BitVec.reduceToNat] at hd ha ⊢; omega)
  case h_32 hm => exact .guard fun h => .some rfl rfl (by rw [hm, h] at hS; exact hS)
  case h_33 hm => exact encoded_decodePlace.congr (by rw [hm] at hR; exact hR)
  case h_34 hm =>
    split
    case h_1 hk => exact .guard fun ⟨hd, hb⟩ => .some rfl rfl (by rw [hm, hk, hd, hb] at hR; exact hR)
    case h_2 hk => exact .some rfl rfl (by rw [hm, hk] at hR; exact hR)
    case h_3 => exact .none
  case h_35 hm => exact encoded_decodeMatrix.congr (by rw [hm] at hR; exact hR)
  case h_36 hm =>
    split
    case h_1 hk => exact .some rfl rfl (by rw [hm, hk] at hR; exact hR)
    case h_2 hk => exact .guard fun hb => .some rfl rfl (by rw [hm, hk, hb] at hR; exact hR)
    case h_3 => exact .none
  case h_37 hm =>
    exact .guard fun ⟨ha, h, hr⟩ => .some hr rfl (by
      simp only [encS, toNat_field, field_eq_zero, BitVec.reduceToNat] at ha ⊢; omega)
  case h_38 hm =>
    exact .guard fun ⟨hd, h, hr⟩ => .some hr rfl (by
      simp only [encS, toNat_field, field_eq_zero, BitVec.reduceToNat] at hd ⊢; omega)
  case h_39 => exact .none

end Sys2Proof
end

