-- ==== Sys2Proof/Proofs/ScalarEncoding.lean ====
section
/-! The scalar encoder: every well-formed scalar instruction is what its words decode to (R88-R95). -/

namespace Sys2Proof

/-! ### Fields that are wider than what they hold -/

theorem ofNat_widened {k : Nat} (v : BitVec k) (hk : k ≤ 6) : BitVec.ofNat k (BitVec.ofNat 6 v.toNat).toNat = v := by
  have hw : v.toNat < 2 ^ 6 := v.isLt.trans_le (Nat.pow_le_pow_right (by decide) hk)
  rw [BitVec.toNat_ofNat, Nat.mod_eq_of_lt hw, BitVec.ofNat_toNat, BitVec.setWidth_eq]

theorem widened_ofNat {k : Nat} {v : BitVec 6} (hv : v.toNat < 2 ^ k) :
    BitVec.ofNat 6 (BitVec.ofNat k v.toNat).toNat = v := by
  rw [BitVec.toNat_ofNat, Nat.mod_eq_of_lt hv, BitVec.ofNat_toNat, BitVec.setWidth_eq]

theorem widened_two (v : BitVec 2) : (BitVec.ofNat 6 v.toNat).toNat < 4 := by
  rw [BitVec.toNat_ofNat]; omega

theorem widened_four (v : BitVec 4) : ¬ 16 ≤ (BitVec.ofNat 6 v.toNat).toNat := by
  rw [BitVec.toNat_ofNat]; omega

theorem field_encS_two {maj low : Nat} (v : BitVec 2) (a : BitVec 6) (hl : low < 2 ^ 14) :
    field 2 20 (encS maj (BitVec.ofNat 6 v.toNat) a low) = v :=
  field_eq (by simp only [encS, BitVec.toNat_ofNat]; omega)

/-! ### An SLIT pair (R90) -/

theorem encodeUser_decodeUser {x : Nat} (hx : x < 2 ^ 32) : encodeUser (decodeUser x) = x := by
  have hS := encS_fields hx
  have hi := toNat_field_imm x
  have hother : (BitVec.ofNat 32 x).toNat = x := Nat.mod_eq_of_lt hx
  unfold decodeUser
  dsimp only
  split
  case h_5 hm =>
    split
    case isTrue h4 => rw [hm] at hS; rw [encodeUser, hi, widened_ofNat h4, hS]
    case isFalse => exact hother
  case h_12 hm =>
    split
    case isTrue h2 => rw [hm, h2] at hS; rw [encodeUser, hi, hS]
    case isFalse => exact hother
  case h_13 => exact hother
  all_goals next hm => rw [hm] at hS; simp only [encodeUser, BranchCond.major, hi, hS]

theorem decodeUser_encodeUser (f : LitUser) (hf : ∀ u, f ≠ .other u) : decodeUser (encodeUser f) = f := by
  cases f with
  | other u => exact absurd rfl (hf u)
  | branch c a b i =>
    cases c <;> simp only [encodeUser, BranchCond.major, decodeUser, encS_parts, i.isLt, Nat.reduceLT, field_encS_low,
      field_toNat, Nat.reduceAdd, Nat.le_refl]
  | pref v a i =>
    simp only [encodeUser, decodeUser, encS_parts, i.isLt, Nat.reduceLT, field_encS_low, field_toNat, Nat.reduceAdd,
      Nat.le_refl, widened_two, if_true, ofNat_widened, Nat.reduceLeDiff]
  | addi d a i | andi d a i | ori d a i | xori d a i | jtab a i =>
    simp only [encodeUser, decodeUser, encS_parts, i.isLt, Nat.reduceLT, field_encS_low, field_toNat, Nat.reduceAdd,
      Nat.le_refl, if_true]

theorem decodeScalar_slit (l : BitVec 26) (x : Nat) :
    decodeScalar (0x07 * 2 ^ 26 + l.toNat) x = some (.slit l (decodeUser x)) := by
  have hm : (0x07 * 2 ^ 26 + l.toNat) / 2 ^ 26 % 64 = 0x07 := by omega
  have hl : field 26 0 (0x07 * 2 ^ 26 + l.toNat) = l := field_eq (by omega)
  simp only [decodeScalar, hm, hl]

/-! ### What the low bits hold -/

section
variable (b : BitVec 6) {fn : Nat} (hf : fn < 256)
include hf

/-- The low bits of an SR word: b and fn. -/
theorem srLow_parts : b.toNat * 2 ^ 8 + fn < 2 ^ 14 ∧ (b.toNat * 2 ^ 8 + fn) % 256 = fn ∧
    field 6 8 (b.toNat * 2 ^ 8 + fn) = b :=
  ⟨by omega, by omega, field_eq (by omega)⟩

theorem field_srLow {k lo : Nat} (h : lo + k ≤ 8) : field k lo (b.toNat * 2 ^ 8 + fn) = field k lo fn := by
  have : (b.toNat * 2 ^ 8 + fn) % 2 ^ 8 = fn := (srLow_parts b hf).2.1
  rw [← field_mod h, this]
end

theorem field_srLow_queue (n : BitVec 4) {fn : Nat} (hf : fn < 256) :
    field 4 8 ((BitVec.ofNat 6 n.toNat).toNat * 2 ^ 8 + fn) = n := by
  rw [BitVec.toNat_ofNat]
  exact field_eq (by omega)

/-- SLD, SST: the size and the offset. -/
theorem sizeOffset_parts (z : BitVec 3) (o : BitVec 11) : z.toNat * 2 ^ 11 + o.toNat < 2 ^ 14 ∧
    field 3 11 (z.toNat * 2 ^ 11 + o.toNat) = z ∧ field 11 0 (z.toNat * 2 ^ 11 + o.toNat) = o :=
  ⟨by omega, field_eq (by omega), field_eq (by omega)⟩

/-- SATOM, SWAITC: fields of 3, 2 and 3 bits. -/
theorem threeFields_parts (c : BitVec 3) (z : BitVec 2) (s : BitVec 3) :
    c.toNat * 2 ^ 5 + z.toNat * 2 ^ 3 + s.toNat < 256 ∧
    field 3 5 (c.toNat * 2 ^ 5 + z.toNat * 2 ^ 3 + s.toNat) = c ∧
    field 2 3 (c.toNat * 2 ^ 5 + z.toNat * 2 ^ 3 + s.toNat) = z ∧
    field 3 0 (c.toNat * 2 ^ 5 + z.toNat * 2 ^ 3 + s.toNat) = s :=
  ⟨by omega, field_eq (by omega), field_eq (by omega), field_eq (by omega)⟩

/-- SFMT: the formats of A and B. -/
theorem formats_parts (x y : BitVec 5) : x.toNat * 2 ^ 5 + y.toNat < 2 ^ 14 ∧ x.toNat * 2 ^ 5 + y.toNat < 1024 ∧
    field 5 5 (x.toNat * 2 ^ 5 + y.toNat) = x ∧ field 5 0 (x.toNat * 2 ^ 5 + y.toNat) = y :=
  ⟨by omega, by omega, field_eq (by omega), field_eq (by omega)⟩

/-- SBAR: the path mask, the partner bit and the index. -/
theorem encBar_parts (m : BitVec 7) (p : BitVec 1) (i : BitVec 6) : encBar m p i < 2 ^ 14 ∧
    field 7 7 (encBar m p i) = m ∧ field 1 6 (encBar m p i) = p ∧ field 6 0 (encBar m p i) = i := by
  simp only [encBar]
  exact ⟨by omega, field_eq (by omega), field_eq (by omega), field_eq (by omega)⟩

/-- R156: which shift, and its amount. -/
theorem shift_parts (k : Nat) (n : BitVec 6) (hk : k < 3) : k * 2 ^ 12 + n.toNat < 2 ^ 14 ∧
    (k * 2 ^ 12 + n.toNat) / 2 ^ 6 % 64 = 0 ∧ (k * 2 ^ 12 + n.toNat) / 2 ^ 12 = k ∧
    field 6 0 (k * 2 ^ 12 + n.toNat) = n :=
  ⟨by omega, by omega, by omega, field_eq (by omega)⟩

/-- A place instruction's scope and function code. -/
theorem scope_parts (s : BitVec 3) (k : Nat) (hk : k < 16) : s.toNat * 2 ^ 4 + k < 128 ∧
    (s.toNat * 2 ^ 4 + k) % 16 = k ∧ field 3 4 (s.toNat * 2 ^ 4 + k) = s :=
  ⟨by omega, by omega, field_eq (by omega)⟩

/-- A matrix instruction's function code and tile. -/
theorem tile_parts (t : BitVec 3) (k : Nat) (hk : k < 8) : 16 * k + t.toNat < 128 ∧
    ¬ (16 * k + t.toNat) / 8 % 2 = 1 ∧ (16 * k + t.toNat) / 16 = k ∧ field 3 0 (16 * k + t.toNat) = t :=
  ⟨by omega, by omega, by omega, field_eq (by omega)⟩

/-! ### The decoders of one major -/

section
variable (d a b : BitVec 6) (x : Nat)

section
variable {low : Nat} (hl : low < 2 ^ 14)
include hl

theorem decodeScalar_system : decodeScalar (encS 0x00 d a low) x = decodeSystem d a low := by
  simp only [decodeScalar, encS_parts, hl, Nat.reduceLT]

theorem decodeScalar_jump : decodeScalar (encS 0x14 d a low) x = decodeJump d a low := by
  simp only [decodeScalar, encS_parts, hl, Nat.reduceLT]

theorem decodeScalar_barrier : decodeScalar (encS 0x1A d a low) x = decodeBarrier d a low := by
  simp only [decodeScalar, encS_parts, hl, Nat.reduceLT]
end

section
variable {fn : Nat} (hf : fn < 256)
include hf

theorem decodeScalar_alu : decodeScalar (encR 0x01 d a b fn) x = decodeAlu d a b fn := by
  simp only [encR, decodeScalar, encS_parts, srLow_parts, field_encS_low, hf, Nat.reduceLT, Nat.reduceAdd,
    Nat.reduceLeDiff]

theorem decodeScalar_place : decodeScalar (encR 0x20 d a b fn) x = decodePlace d a b fn := by
  simp only [encR, decodeScalar, encS_parts, srLow_parts, field_encS_low, hf, Nat.reduceLT, Nat.reduceAdd,
    Nat.reduceLeDiff]

theorem decodeScalar_matrix : decodeScalar (encR 0x22 d a b fn) x = decodeMatrix d a b fn := by
  simp only [encR, decodeScalar, encS_parts, srLow_parts, field_encS_low, hf, Nat.reduceLT, Nat.reduceAdd,
    Nat.reduceLeDiff]
end
end

theorem decodeAlu_ssel (d a b c : BitVec 6) : decodeAlu d a b (0x40 + c.toNat) = some (.ssel d a b c) := by
  have hc : 0x40 ≤ 0x40 + c.toNat ∧ 0x40 + c.toNat ≤ 0x7F := by omega
  have hr : BitVec.ofNat 6 (0x40 + c.toNat) = c := BitVec.eq_of_toNat_eq (by rw [BitVec.toNat_ofNat]; omega)
  unfold decodeAlu
  split
  case h_22 => rw [if_pos hc, hr]
  all_goals omega

theorem decodeMatrix_tile (a b : BitVec 6) (t : BitVec 3) :
    decodeMatrix 0 0 0 (16 * 4 + t.toNat) = some (.mzero t) ∧
      decodeMatrix 0 a 0 (16 * 5 + t.toNat) = some (.mlda a t) ∧
      decodeMatrix 0 a b (16 * 6 + t.toNat) = some (.mst a b t) := by
  simp only [decodeMatrix, tile_parts, Nat.reduceLT, and_self, if_true, if_false]

theorem decodeSystem_strap (c : BitVec 8) : decodeSystem 3 0 c.toNat = some (.strap c) := by
  have hc : c.toNat < 256 := c.isLt
  simp [decodeSystem, hc]

/-! ### Every instruction (R88-R95) -/

/-- R88-R95: what is encoded as one word decodes to itself, whatever word stands after it. -/
theorem decodeScalar_of_encodeScalar {i : Instr} {w : Nat} (x : Nat) (hs : ∀ l f, i ≠ .slit l f)
    (hi : i.wellFormed = true) (h : encodeScalar i = some w) : decodeScalar w x = some i := by
  cases i with
  | slit l f => exact absurd rfl (hs l f)
  | sadd | ssub | smul | smulh | sdiv | srem | sand | sor | sxor | sshl | sshr | ssra | smin | smax | sminu | smaxu
  | sslt | ssltu | sseq | sclz | spopc =>
    obtain rfl := Option.some.inj h
    exact decodeScalar_alu _ _ _ x (by decide)
  | ssel d a b c =>
    obtain rfl := Option.some.inj h
    exact (decodeScalar_alu _ _ _ x (by omega)).trans (decodeAlu_ssel d a b c)
  | saddi d a i | sandi d a i | sori d a i | sxori d a i | sbeq d a i | sbne d a i | sblt d a i | sbge d a i
  | sbltu d a i | sbgeu d a i =>
    obtain rfl := Option.some.inj h
    simp only [decodeScalar, encS_parts, i.isLt, Nat.reduceLT, field_encS_low, field_toNat, Nat.reduceAdd, Nat.le_refl]
  | sshli d a n =>
    obtain rfl := Option.some.inj h
    have hn := shift_parts 0 n (by decide)
    simp only [Nat.zero_mul, Nat.zero_add] at hn
    simp only [decodeScalar, encS_parts, field_encS_low, Nat.reduceLT, Nat.reduceAdd, Nat.reduceLeDiff, hn]
    rfl
  | sshri d a n =>
    obtain rfl := Option.some.inj h
    have hn := shift_parts 1 n (by decide)
    simp only [Nat.one_mul] at hn
    simp only [decodeScalar, encS_parts, field_encS_low, Nat.reduceLT, Nat.reduceAdd, Nat.reduceLeDiff, hn]
    rfl
  | ssrai d a n =>
    obtain rfl := Option.some.inj h
    simp only [decodeScalar, encS_parts, field_encS_low, Nat.reduceLT, Nat.reduceAdd, Nat.reduceLeDiff, shift_parts]
    rfl
  | sld d a z o | sst d a z o =>
    obtain rfl := Option.some.inj h
    have hz : z ≠ 7 := bne_iff_ne.mp hi
    simp only [decodeScalar, encS_parts, field_encS_low, sizeOffset_parts, Nat.reduceLT, Nat.reduceAdd,
      Nat.reduceLeDiff, Nat.le_refl, hz, if_false]
  | satom d a b o r s =>
    obtain rfl := Option.some.inj h
    have hs : scopeOk s = true := hi
    simp only [encR, decodeScalar, encS_parts, srLow_parts, field_encS_low, field_srLow, threeFields_parts,
      Nat.reduceLT, Nat.reduceAdd, Nat.reduceLeDiff, Nat.le_refl, hs, if_true]
  | swaitc d a b c z s =>
    obtain rfl := Option.some.inj h
    have hs : (decide (c.toNat ≤ 5) && decide (z.toNat ≤ 1) && scopeOk s) = true := hi
    simp only [Bool.and_eq_true, decide_eq_true_eq, and_assoc] at hs
    simp only [encR, decodeScalar, encS_parts, srLow_parts, field_encS_low, field_srLow, threeFields_parts,
      Nat.reduceLT, Nat.reduceAdd, Nat.reduceLeDiff, Nat.le_refl, hs, and_self, if_true]
  | spref v a i =>
    obtain rfl := Option.some.inj h
    simp only [decodeScalar, encS_parts, i.isLt, field_encS_low, field_encS_two, field_toNat, Nat.reduceLT,
      Nat.reduceAdd, Nat.le_refl, widened_two, if_true]
  | saxis v a =>
    obtain rfl := Option.some.inj h
    simp only [decodeScalar, encS_parts, Nat.two_pow_pos, field_encS_two, Nat.reduceLT, widened_two, and_self, if_true]
  | sjmp o =>
    obtain rfl := Option.some.inj h
    have hm : (0x12 * 2 ^ 26 + o.toNat) / 2 ^ 26 % 64 = 0x12 := by omega
    have hd : field 6 20 (0x12 * 2 ^ 26 + o.toNat) = 0 := field_eq_zero.mpr (by omega)
    have ho : field 20 0 (0x12 * 2 ^ 26 + o.toNat) = o := field_eq (by omega)
    simp only [decodeScalar, hm, hd, ho, if_true]
  | scall d o =>
    obtain rfl := Option.some.inj h
    have hm : (0x13 * 2 ^ 26 + d.toNat * 2 ^ 20 + o.toNat) / 2 ^ 26 % 64 = 0x13 := by omega
    have hd : field 6 20 (0x13 * 2 ^ 26 + d.toNat * 2 ^ 20 + o.toNat) = d := field_eq (by omega)
    have ho : field 20 0 (0x13 * 2 ^ 26 + d.toNat * 2 ^ 20 + o.toNat) = o := field_eq (by omega)
    simp only [decodeScalar, hm, hd, ho]
  | scallr a l =>
    obtain rfl := Option.some.inj h
    have hl : l.toNat < 4096 := l.isLt
    refine (decodeScalar_jump _ _ x (by omega)).trans ?_
    simp [decodeJump, hl]
  | sret a =>
    obtain rfl := Option.some.inj h
    exact decodeScalar_jump _ _ x (by decide)
  | sjtab a o =>
    obtain rfl := Option.some.inj h
    refine (decodeScalar_jump _ _ x o.isLt).trans ?_
    simp [decodeJump]
  | spad l =>
    obtain rfl := Option.some.inj h
    have hl : l.toNat < 4096 := l.isLt
    refine (decodeScalar_jump _ _ x (by omega)).trans ?_
    simp [decodeJump, hl]
  | lrun l =>
    obtain rfl := Option.some.inj h
    have hm : (0x15 * 2 ^ 26 + l.toNat) / 2 ^ 26 % 64 = 0x15 := by omega
    have hl : field 26 0 (0x15 * 2 ^ 26 + l.toNat) = l := field_eq (by omega)
    simp only [decodeScalar, hm, hl]
  | lwait =>
    obtain rfl := Option.some.inj h
    rfl
  | sfmt a =>
    obtain rfl := Option.some.inj h
    simp only [decodeScalar, encS_parts, Nat.two_pow_pos, Nat.reduceLT, if_true]
    rfl
  | sfmtAb y z =>
    obtain rfl := Option.some.inj h
    simp only [decodeScalar, encS_parts, field_encS_low, formats_parts, Nat.reduceLT, Nat.reduceAdd, Nat.reduceLeDiff,
      and_self, if_true]
    rfl
  | sqin d n | sqout d n =>
    obtain rfl := Option.some.inj h
    simp only [encR, decodeScalar, encS_parts, srLow_parts, field_encS_low, field_srLow_queue, widened_four,
      Nat.reduceLT, Nat.reduceAdd, Nat.reduceLeDiff, if_true, if_false]
  | sbarInit a p i =>
    obtain rfl := Option.some.inj h
    refine (decodeScalar_barrier _ _ x (encBar_parts _ _ _).1).trans ?_
    simp only [decodeBarrier, encBar_parts, if_true]
    rfl
  | sbarArrive p i =>
    obtain rfl := Option.some.inj h
    refine (decodeScalar_barrier _ _ x (encBar_parts _ _ _).1).trans ?_
    simp only [decodeBarrier, encBar_parts, and_self, if_true]
    rfl
  | sbarWait m p i | sbarArw m p i =>
    obtain rfl := Option.some.inj h
    refine (decodeScalar_barrier _ _ x (encBar_parts _ _ _).1).trans ?_
    simp only [decodeBarrier, encBar_parts, if_true]
    rfl
  | phase s | phasePub s | phaseRef s =>
    obtain rfl := Option.some.inj h
    have hl : s.toNat < 2 ^ 14 ∧ s.toNat < 8 := by omega
    have hs : scopeOk s = true := hi
    simp only [decodeScalar, encS_parts, field_encS_low, field_toNat, hl, hs, Nat.reduceLT, Nat.reduceAdd,
      Nat.reduceLeDiff, and_self, if_true]
    rfl
  | xfence m | drain m =>
    obtain rfl := Option.some.inj h
    have hl : m.toNat < 2 ^ 14 ∧ m.toNat < 128 := by omega
    simp only [decodeScalar, encS_parts, field_encS_low, field_toNat, hl, Nat.reduceLT, Nat.reduceAdd, Nat.reduceLeDiff,
      and_self, if_true]
  | tdet d a =>
    obtain rfl := Option.some.inj h
    simp only [decodeScalar, encS_parts, Nat.two_pow_pos, Nat.reduceLT, if_true]
  | xacq d a s =>
    obtain rfl := Option.some.inj h
    have hs : scopeOk s = true := hi
    have hp := scope_parts s 0 (by decide)
    simp only [Nat.add_zero] at hp
    refine (decodeScalar_place _ _ _ x (by omega)).trans ?_
    simp only [decodePlace, not_le.mpr hp.1, hp, hs, and_self, if_true, if_false]
  | xwait d a s | xrel a s =>
    obtain rfl := Option.some.inj h
    have hs : scopeOk s = true := hi
    refine (decodeScalar_place _ _ _ x (by omega)).trans ?_
    simp only [decodePlace, not_le.mpr (scope_parts s _ _).1, scope_parts, Nat.reduceLT, hs, and_self,
      if_true, if_false]
  | xgive a b | xswap d a b | xaban a =>
    obtain rfl := Option.some.inj h
    exact decodeScalar_place _ _ _ x (by decide)
  | wpop | wpost | pgmig | pgqry =>
    obtain rfl := Option.some.inj h
    simp only [encR, decodeScalar, encS_parts, srLow_parts, field_encS_low, Nat.reduceLT, Nat.reduceAdd,
      Nat.reduceLeDiff, and_self, if_true]
  | mcfg | mgang | mma | mmas | mwait =>
    obtain rfl := Option.some.inj h
    exact decodeScalar_matrix _ _ _ x (by decide)
  | mzero t =>
    obtain rfl := Option.some.inj h
    exact (decodeScalar_matrix _ _ _ x (by omega)).trans (decodeMatrix_tile 0 0 t).1
  | mlda a t =>
    obtain rfl := Option.some.inj h
    exact (decodeScalar_matrix _ _ _ x (by omega)).trans (decodeMatrix_tile a 0 t).2.1
  | mst a b t =>
    obtain rfl := Option.some.inj h
    exact (decodeScalar_matrix _ _ _ x (by omega)).trans (decodeMatrix_tile a b t).2.2
  | sgetr d r | ssetr a r =>
    obtain rfl := Option.some.inj h
    have hl : r.toNat < 2 ^ 14 ∧ r.toNat < 256 := by omega
    have hr : specialOk r = true := hi
    simp only [decodeScalar, encS_parts, field_encS_low, field_toNat, hl, hr, Nat.reduceLT, Nat.reduceAdd,
      Nat.reduceLeDiff, and_self, if_true]
  | snop =>
    obtain rfl := Option.some.inj h
    exact decodeScalar_system 0 0 x (low := 0) (by decide)
  | shalt | send | srft | sbkpt =>
    obtain rfl := Option.some.inj h
    exact decodeScalar_system _ _ x (by decide)
  | strap c =>
    obtain rfl := Option.some.inj h
    exact (decodeScalar_system _ _ x (by omega)).trans (decodeSystem_strap c)
  | _ => cases h

theorem decodeScalar_encodeScalar_slit {l : BitVec 26} {f : LitUser} {w : Nat} (hi : (Instr.slit l f).wellFormed = true)
    (h : encodeScalar (.slit l f) = some w) : decodeScalar (w % 2 ^ 32) (w / 2 ^ 32) = some (.slit l f) := by
  have hf : ∀ u, f ≠ .other u := by
    rintro u rfl
    exact Bool.false_ne_true hi
  obtain rfl := Option.some.inj h
  have hlow : (0x07 * 2 ^ 26 + l.toNat + encodeUser f * 2 ^ 32) % 2 ^ 32 = 0x07 * 2 ^ 26 + l.toNat := by omega
  have hhigh : (0x07 * 2 ^ 26 + l.toNat + encodeUser f * 2 ^ 32) / 2 ^ 32 = encodeUser f := by omega
  rw [hlow, hhigh, decodeScalar_slit, decodeUser_encodeUser f hf]

/-- The words of an SLIT pair are the instruction's; it is well formed where the second word takes a literal. -/
theorem encodeScalar_of_decodeScalar_slit {w x : Nat} {i : Instr} (hw : w < 2 ^ 32) (hx : x < 2 ^ 32)
    (hs : isSlit w = true) (h : decodeScalar w x = some i) :
    (i.wellFormed = true ∨ ∃ l u, i = .slit l (.other u)) ∧ encodeScalar i = some (w + x * 2 ^ 32) := by
  have hm : w / 2 ^ 26 % 64 = 0x07 := beq_iff_eq.mp hs
  have hw' : w = 0x07 * 2 ^ 26 + (field 26 0 w).toNat := by simp only [toNat_field]; omega
  have hi : some i = some (.slit (field 26 0 w) (decodeUser x)) := by
    rw [← h, hw', decodeScalar_slit, ← hw']
  obtain rfl := Option.some.inj hi
  constructor
  · cases hu : decodeUser x with
    | other u => exact .inr ⟨_, u, rfl⟩
    | _ => exact .inl rfl
  · show some (0x07 * 2 ^ 26 + (field 26 0 w).toNat + encodeUser (decodeUser x) * 2 ^ 32) = _
    rw [encodeUser_decodeUser hx, ← hw']

end Sys2Proof

section
open Sys2Proof

/-- Settles O2: a case for each instruction that a scalar word encodes, and one for each branch of the decoder. -/
theorem scalarEncoding : Obligations.ScalarEncoding := by
  refine ⟨fun i w hi h => ?decode, fun w x i hw hx h => ?encode⟩
  case decode =>
    by_cases hs : ∃ l f, i = .slit l f
    case pos =>
      obtain ⟨l, f, rfl⟩ := hs
      exact decodeScalar_encodeScalar_slit hi h
    case neg =>
      rw [decodeScalar_mod]
      exact decodeScalar_of_encodeScalar _ (fun l f hlf => hs ⟨l, f, hlf⟩) hi h
  case encode =>
    cases hs : isSlit w with
    | true => exact encodeScalar_of_decodeScalar_slit hw hx hs h
    | false =>
      obtain ⟨hi, he⟩ := encoded_decodeScalar hw hs x i h
      exact ⟨.inl hi, he⟩

end
end

