-- ==== Sys2Proof/Proofs/LaneEncoding.lean ====
section
/-! The lane words and the words of commands (R96-R101, R352). -/

namespace Sys2Proof

/-! ### The three words of a lane instruction (R96) -/

theorem beq_one_toNat {n : Nat} {b : Bool} (h : n = b.toNat) : (n == 1) = b := by
  cases b <;> rw [h] <;> rfl

theorem toNat_beq_one (n : Nat) : (n % 2 == 1).toNat = n % 2 := by
  rcases Nat.mod_two_eq_zero_or_one n with h | h <;> rw [h] <;> rfl

section
variable {op : Nat} (f : LaneWord)

theorem laneFields_encodeLane (hop : op < 512) : laneFields (encodeLane op f) = f := by
  obtain ⟨dst, nowb, lat, pred, pneg, ty, rnd, opA, opB, opC, sat, negB, w2⟩ := f
  have h1 := pneg.toNat_lt; have h2 := nowb.toNat_lt; have h3 := sat.toNat_lt; have h4 := negB.toNat_lt
  simp only [laneFields, encodeLane, LaneWord.mk.injEq]
  refine ⟨field_eq ?_, beq_one_toNat ?_, field_eq ?_, field_eq ?_, beq_one_toNat ?_, field_eq ?_, field_eq ?_,
    field_eq ?_, field_eq ?_, field_eq ?_, beq_one_toNat ?_, beq_one_toNat ?_, field_eq ?_⟩ <;> omega
end

theorem encodeLane_op {op : Nat} (hop : op < 512) (f : LaneWord) : encodeLane op f / 2 ^ 23 % 512 = op := by
  have h1 := f.pneg.toNat_lt; have h2 := f.nowb.toNat_lt; have h3 := f.sat.toNat_lt; have h4 := f.negB.toNat_lt
  simp only [encodeLane]
  omega

theorem encodeLane_laneFields {w : Nat} (hw : w < 2 ^ 96) : encodeLane (w / 2 ^ 23 % 512) (laneFields w) = w := by
  simp only [encodeLane, laneFields, toNat_field, toNat_beq_one]
  omega

/-! ### Opcodes and rules (R100) -/

theorem laneCtor_of_laneSpec {i : Instr} {r : LaneSpec} {f : LaneWord} (h : laneSpec i = some (r, f)) :
    r.op < 512 ∧ laneCtor r.op f = some i := by
  cases i with
  | vadd g | vsub g | vmul g | vmulh g | vmad g | vmin g | vmax g | vabs g | vand g | vor g | vxor g | vnot g | vshl g
  | vshr g | vsra g | vclz g | vpopc g | vbfe g | vbfi g | vsel g | vmov g | vfadd g | vfsub g | vfmul g | vfma g
  | vfmin g | vfmax g | vfrcp g | vfrsq g | vfsqrt g | vfexp2 g | vflog2 g | vfclass g | vcvt g | vqnt g | vdqnt g
  | vtsdot g | vzdot g | vcmp g | vfcmp g | pand g | por g | pxor g | pnot g | pset g | pfirst g | pmov g | vshuf g
  | vbcast g | vred g | vscan g | vballot g | vrdl g | vwrl g | vsort g | vqin g | vld g | vst g | vldc g | vatom g
  | vpref g | lld g | lst g | latom g | vstq g | esav g | elod g | eclr g | lbra g | ljmp g | ljtab g | lpad g | ljoin g
  | regang g | lend g | phint g | lnop g =>
    obtain ⟨rfl, rfl⟩ := Prod.mk.inj (Option.some.inj h)
    exact ⟨by decide, rfl⟩
  | _ => cases h

theorem laneSpec_of_laneCtor {op : Nat} {f : LaneWord} {i : Instr} (h : laneCtor op f = some i) :
    ∃ r, laneSpec i = some (r, f) ∧ r.op = op := by
  unfold laneCtor at h
  split at h
  case h_78 => cases h
  all_goals
    obtain rfl := Option.some.inj h
    exact ⟨_, rfl, rfl⟩

theorem decodeLane_encodeLane {i : Instr} {r : LaneSpec} {f : LaneWord} (h : laneSpec i = some (r, f))
    (hi : i.wellFormed = true) : decodeLane (encodeLane r.op f) = some i := by
  obtain ⟨hop, hc⟩ := laneCtor_of_laneSpec h
  rw [decodeLane, encodeLane_op hop, laneFields_encodeLane f hop, hc]
  exact if_pos hi

theorem encodeLane_of_decodeLane {w : Nat} {i : Instr} (hw : w < 2 ^ 96) (h : decodeLane w = some i) :
    ∃ r f, laneSpec i = some (r, f) ∧ i.wellFormed = true ∧ encodeLane r.op f = w := by
  unfold decodeLane at h
  split at h
  case h_1 j hc =>
    obtain ⟨hi, h⟩ := Option.ite_none_right_eq_some.mp h
    obtain rfl := Option.some.inj h
    obtain ⟨r, hr, hop⟩ := laneSpec_of_laneCtor hc
    exact ⟨r, _, hr, hi, by rw [hop, encodeLane_laneFields hw]⟩
  case h_2 => cases h

/-! ### Commands (R352) -/

/-- A command with a defined opcode has as many words as that has. -/
theorem encodeWords_of_decodeCommand {ws : List Dword} {i : Instr}
    (hn : cmdLength (cmdOpc (ws.headD 0)) = some ws.length) (h : decodeCommand ws = some i) :
    encodeWords i = some ws := by
  unfold decodeCommand at h
  split at h
  case h_2 => cases h
  case h_1 w0 w1 w2 w3 w4 rest =>
    rw [List.headD_cons] at hn
    split at h
    case h_13 => cases h
    all_goals
      next hk =>
      rw [hk] at hn
      obtain rfl := Option.some.inj h
      have hnil := Option.some.inj hn
      simp only [List.length_cons, Nat.right_eq_add, List.length_eq_zero_iff] at hnil
      subst hnil
      rfl

theorem decodeCommand_eq_none {ws : List Dword} (hn : cmdLength (cmdOpc (ws.headD 0)) = none) :
    decodeCommand ws = none := by
  unfold decodeCommand
  split
  case h_2 => rfl
  case h_1 =>
    rw [List.headD_cons] at hn
    split
    case h_13 => rfl
    all_goals next hk => rw [hk] at hn; cases hn

end Sys2Proof

section
open Sys2Proof

/-- Settles O3: the fields of a lane word are those that it was made of, and the opcode's rules name one instruction;
commands, packets and requests are what their codes name. -/
theorem laneDecodeEncode : Obligations.LaneDecodeEncode := by
  refine ⟨fun i r f h hi => decodeLane_encodeLane h hi, fun w i hw h => encodeLane_of_decodeLane hw h,
    fun w a b c d e f => ?commands, fun ws i hn h => encodeWords_of_decodeCommand hn h,
    fun ws hn => decodeCommand_eq_none hn, fun _ _ => rfl, fun _ => rfl⟩
  case commands =>
    intro k
    and_intros
    all_goals
      intro hk
      have hopc : cmdOpc w = _ := hk
      simp only [decodeCommand, hopc]

end
end

