-- ==== Sys2Proof/Proofs/StepDecoded.lean ====
section
/-! What an agent that moves fetches and decodes (R86, R90, R136-R140, R146, R402). -/

namespace Sys2Proof.Machine
open Sys2Proof.Claims

/-- A step is what its agent does, as it stands or with an access that has been passed performed in its place (R51). -/
theorem step_eq_withLate (s : State) : step s = withLate s (agentStep s) := by
  unfold step withLate
  cases s.late <;> rfl

section
variable {s : State} {x : Agent} {as : List Agent} (h : s.agenda = x :: as)
include h

theorem nextAgent_of_agenda : nextAgent s = x := by
  rw [nextAgent, h]

theorem step_of_run {i : Instr} {t : State} (hx : fetchAgent (beginStep s) x = .run i t) :
    step s = withLate s (exec i t) := by
  rw [step_eq_withLate, agentStep, nextAgent_of_agenda h, hx]

theorem step_of_stop {t : State} (hx : fetchAgent (beginStep s) x = .stop t) : step s = withLate s (.next t) := by
  rw [step_eq_withLate, agentStep, nextAgent_of_agenda h, hx]
end

/-! ### Strands (R86, R90) -/

section
variable {s : State} {g w x : Nat} (hg : g < s.groups.length) (hr : (s.group g).run = .resident)
  (hw : strandWords (onStrand s g) = .ok (w, x))
include hg hr hw

theorem fetchStrand_eq_run {i : Instr} (hi : decodeScalar w x = some i)
    (hh : strandHeld (noteFetch (onStrand s g) (onStrand s g).spc needXS) i w = false) :
    fetchStrand s g = .run i (noteFetch (onStrand s g) (onStrand s g).spc needXS) := by
  have hrun : (onStrand s g).grp.run = .resident := hr
  have hlen : g < (onStrand s g).groups.length := hg
  simp only [fetchStrand, hrun, hlen, not_le.mpr, hw, hi, hh, decide_false, Bool.false_or,
    bne_self_eq_false, if_false, Bool.false_eq_true]

theorem fetchStrand_eq_trap (hi : decodeScalar w x = none) :
    fetchStrand s g = .stop (trapCode (noteFetch (onStrand s g) (onStrand s g).spc needXS) 0x01) := by
  have hrun : (onStrand s g).grp.run = .resident := hr
  have hlen : g < (onStrand s g).groups.length := hg
  simp only [fetchStrand, hrun, hlen, not_le.mpr, hw, hi, decide_false, Bool.false_or,
    bne_self_eq_false, if_false, Bool.false_eq_true]
end

/-! ### Pipes (R136-R140) -/

theorem fetchPipe_eq_run {s u : State} {core k g f w : Nat} {i : Instr}
    (hc : choose s (4 * core + k % 4) = (some (g, f), u))
    (hpc : (onFrag u g f).frag.pc.toNat < ((onFrag u g f).launchOf (onFrag u g f).grp).lcount)
    (hw : fetchLane (onFrag u g f) (onFrag u g f).frag.pc.toNat = .ok w) (hi : decodeLane w = some i) :
    fetchPipe s core k =
      .run i (noteFetch (onFrag u g f) (laneAddr (onFrag u g f) (onFrag u g f).frag.pc.toNat) needXL) := by
  simp only [fetchPipe, hc, not_le.mpr hpc, hw, hi, if_false]

/-! ### The front end (R402) -/

theorem fetchPacket_eq_run {s : State} {q : Nat} {e : Entry} {i : Instr} (ht : packetType e ≠ 0x09)
    (hi : decodePacket e default = some i) : fetchPacket s q e = .run i s := by
  simp only [fetchPacket, beq_iff_eq, ht, if_false, hi]

/-- A LAUNCH takes the entry after its own. -/
theorem fetchPacket_launch_eq_run {s : State} {q : Nat} {e f : Entry} {i : Instr} (ht : packetType e = 0x09)
    (hf : fetchEntry s q 1 = .entry f) (hi : decodePacket e f = some i) : fetchPacket s q e = .run i s := by
  simp only [fetchPacket, beq_iff_eq, ht, if_true, hf, hi]

theorem any_lanes_of_mem {s : State} {q : Nat} (hl : ∃ l ∈ s.lanes, l.queue = q) :
    s.lanes.any (fun l => l.queue == q) = true := by
  obtain ⟨l, hmem, hq⟩ := hl
  exact List.any_eq_true.mpr ⟨l, hmem, beq_iff_eq.mpr hq⟩

section
variable {s s1 : State} {q : Nat} (hs : settleLanes (onQueue s q) = s1) (hl : ∃ l ∈ s1.lanes, l.queue = q)
include hs hl

theorem fetchFront_eq_keep {p : Place} {e : Entry} (hm : missing s1 q = some p) (hp : fetchPlace s1 q p = .entry e) :
    fetchFront s q = .stop (keepEntry (dropRemote (dropRemote s1 0) 1) q p e) := by
  simp only [fetchFront, hs, any_lanes_of_mem hl, hm, fetchKeep, hp, Bool.not_true, Bool.false_eq_true, if_false]

variable {e : Entry} (hm : missing s1 q = none) (he : (entryPlace s1 q 0).bind (heldEntry s1 q) = some e)
  (hskip : (s1.queue q).skip = 0)
include hm he hskip

/-- A lane whose queue does not execute in the step waits for its turn. -/
theorem fetchFront_eq_wait (hq : q ∉ stepQueues s1) :
    fetchFront s q = .stop { s1 with laneStep := stepQueues s1 } := by
  have hc : (stepQueues s1).contains q = false := by simpa using hq
  simp only [fetchFront, hs, any_lanes_of_mem hl, hm, he, hskip, hc, Bool.not_true, Bool.not_false,
    Bool.false_eq_true, if_false, beq_self_eq_true, Bool.and_self, if_true]

variable (hq : q ∈ stepQueues s1)
include hq

theorem fetchFront_eq_request {i : Instr} (hk : qcbKind (qcbImage (takeTurn s1 q) q) = 3)
    (hi : decodeRequest e = some i) :
    fetchFront s q = .run i (takeTurn s1 q) := by
  have hc : (stepQueues s1).contains q = true := by simpa using hq
  simp only [fetchFront, hs, any_lanes_of_mem hl, hm, he, hskip, hc, hk, hi, Bool.not_true,
    Bool.false_eq_true, if_false, beq_self_eq_true, Bool.and_false, if_true]

theorem fetchFront_eq_packet (hk : qcbKind (qcbImage (takeTurn s1 q) q) ≠ 3) :
    fetchFront s q = fetchPacket (takeTurn s1 q) q e := by
  have hc : (stepQueues s1).contains q = true := by simpa using hq
  have hskip' : ((takeTurn s1 q).queue q).skip = 0 := hskip
  simp only [fetchFront, hs, any_lanes_of_mem hl, hm, he, hskip, hc, beq_false_of_ne hk, hskip',
    Bool.not_true, Bool.false_eq_true, if_false, beq_self_eq_true, Bool.and_false, if_true]
end

/-! ### Endpoints (R146) -/

theorem fetchEngine_eq_run {s s1 : State} {g q n : Nat} {w : Dword} {i : Instr}
    (hs : { s with cur := { s.cur with grp := g, qreg := q } } = s1) (hg : g < s.groups.length)
    (hr : s1.grp.run = .resident) (hk : kindOf s1.grp q ≠ 0) (ha : acceptsMore s1 g q = true)
    (hw : (mapGet [] s1.grp.pushq q).head? = some w) (ho : cmdOpc w ∈ engineOps (kindOf s1.grp q))
    (hn : cmdLength (cmdOpc w) = some n) (hlen : n ≤ (mapGet [] s1.grp.pushq q).length)
    (hi : decodeCommand ((mapGet [] s1.grp.pushq q).take n) = some i) : fetchEngine s g q = .run i s1 := by
  obtain ⟨ws, hws⟩ := List.head?_eq_some_iff.mp hw
  rw [hws] at hlen hi
  have hc : (engineOps (kindOf s1.grp q)).contains (cmdOpc w) = true := by simpa using ho
  simp only [fetchEngine, hs, hws, hr, ha, hc, hn, hi, not_le.mpr hg, beq_false_of_ne hk, not_lt.mpr hlen,
    Option.getD_some, decide_false, bne_self_eq_false, Bool.or_self, Bool.not_true, Bool.false_eq_true, if_false]

end Sys2Proof.Machine

section
open Sys2Proof Sys2Proof.Machine Sys2Proof.Claims
/-- Settles O60: what each agent fetches is what it executes. -/
theorem stepRunsDecoded : Obligations.StepRunsDecoded := by
  intro s as s0
  refine ⟨?strand, ?pipe, ?front, ?engine, fun i ha hi => step_of_run ha (if_pos hi), ?land⟩
  case strand =>
    intro g w x ha hg hr s1 s2 hw
    exact ⟨fun i hi hh => step_of_run ha (fetchStrand_eq_run hg hr hw hi hh),
      fun hi => step_of_stop ha (fetchStrand_eq_trap hg hr hw hi)⟩
  case pipe =>
    intro core k g f w u i ha hc s1 hpc hw hi
    exact step_of_run ha (fetchPipe_eq_run hc hpc hw hi)
  case front =>
    intro q e ha s1 s2 kind hl
    refine ⟨fun p hm hp => step_of_stop ha (fetchFront_eq_keep rfl hl hm hp), fun hm he hskip => ⟨fun hq => ?wait,
      fun hq i => ⟨?request, ?packet, ?launch⟩⟩⟩
    case wait => exact step_of_stop ha (fetchFront_eq_wait rfl hl hm he hskip hq)
    case request =>
      intro hk hi
      exact step_of_run ha (fetchFront_eq_request rfl hl hm he hskip hq hk hi)
    case packet =>
      intro hk ht hi
      exact step_of_run ha ((fetchFront_eq_packet rfl hl hm he hskip hq hk).trans (fetchPacket_eq_run ht hi))
    case launch =>
      intro f hk ht hf hi
      exact step_of_run ha ((fetchFront_eq_packet rfl hl hm he hskip hq hk).trans (fetchPacket_launch_eq_run ht hf hi))
  case engine =>
    intro g q n w i ha hg s1 ws hr hk hmore hw ho hn hlen hi
    exact step_of_run ha (fetchEngine_eq_run rfl hg hr hk hmore hw ho hn hlen hi)
  case land =>
    intro n x ha hx
    exact step_of_stop ha (by rw [fetchAgent, hx])
end
end

