-- ==== Sys2Proof/Proofs/LaneStacks.lean ====
section
/-! Fragments, reconvergence stacks and active masks (R125-R129): what reading them gives after a write, and what a change
of them leaves alone. -/

namespace Sys2Proof.Machine
open Sys2Proof.Claims

/-! ### Fragments, stacks and active masks -/

section
variable (g : Group) (i j sl k m : Nat) (f : Frag) (st : List StackEntry)

@[simp] theorem Group.fragAt_putFrag_same : (g.putFrag i f).fragAt i = f := mapGet_mapSet_same ..

theorem Group.fragAt_putFrag_other (h : j ≠ i) : (g.putFrag i f).fragAt j = g.fragAt j :=
  mapGet_mapSet_other _ _ _ _ _ h

@[simp] theorem Group.stackAt_putFrag : (g.putFrag i f).stackAt sl = g.stackAt sl := rfl

@[simp] theorem Group.stackAt_putSpilled_same : (g.putSpilled sl k st).stackAt sl = st := mapGet_mapSet_same ..

theorem Group.stackAt_putSpilled_other (h : j ≠ sl) : (g.putSpilled sl k st).stackAt j = g.stackAt j :=
  mapGet_mapSet_other _ _ _ _ _ h

@[simp] theorem Group.stackAt_putStack_same : (g.putStack sl st).stackAt sl = st := g.stackAt_putSpilled_same ..

@[simp] theorem Group.actOf_putFrag : (g.putFrag i f).actOf sl = g.actOf sl := rfl

theorem Group.actOf_putAct_same : (g.putAct sl m).actOf sl = m % 16 := by
  have hw : 4 * sl + 3 + 1 - 4 * sl = 4 := by omega
  have hle : g.act / 2 ^ (4 * sl) % 2 ^ 4 * 2 ^ (4 * sl) ≤ g.act :=
    (Nat.mul_le_mul_right _ (Nat.mod_le ..)).trans (Nat.div_mul_le_self ..)
  have hsub : g.act - g.act / 2 ^ (4 * sl) % 2 ^ 4 * 2 ^ (4 * sl) =
      g.act % 2 ^ (4 * sl) + g.act / 2 ^ (4 * sl) / 2 ^ 4 * 2 ^ 4 * 2 ^ (4 * sl) := by
    have h1 := Nat.mod_add_div' g.act (2 ^ (4 * sl))
    have h2 := Nat.mod_add_div' (g.act / 2 ^ (4 * sl)) (2 ^ 4)
    rw [← h2, Nat.add_mul] at h1
    omega
  have hpos : 0 < 2 ^ (4 * sl) := by positivity
  simp only [Group.actOf, Group.putAct, putBits, bits, hw, hsub]
  rw [Nat.add_assoc, ← Nat.add_mul, Nat.add_mul_div_right _ _ hpos, Nat.div_eq_of_lt (Nat.mod_lt _ hpos)]
  omega

end

/-! ### What lane control may change of a group -/

/-- The group differs by its fragments, stacks and active masks alone. -/
def ControlOnly (g h : Group) : Prop :=
  { h with
    frags := g.frags
    recon := g.recon
    spilled := g.spilled
    act := g.act } = g

section
variable {s : State} {g h : Group}

theorem ControlOnly.refl (g : Group) : ControlOnly g g := rfl

theorem ControlOnly.setFrags {fs : SMap Frag} (hc : ControlOnly g h) : ControlOnly g { h with frags := fs } := hc

theorem ControlOnly.putFrag {i : Nat} {f : Frag} (hc : ControlOnly g h) : ControlOnly g (h.putFrag i f) := hc

theorem ControlOnly.putAct {sl m : Nat} (hc : ControlOnly g h) : ControlOnly g (h.putAct sl m) := hc

theorem ControlOnly.putSpilled {sl k : Nat} {st : List StackEntry} (hc : ControlOnly g h) :
    ControlOnly g (h.putSpilled sl k st) := hc

theorem controlFrame_setGrp (hl : s.cur.grp < s.groups.length) (hg : ControlOnly s.grp g) :
    ControlFrame s (s.setGrp g) where
  rest := rfl
  others _ hi := State.group_setGroup_other _ _ _ _ hi
  group := by rw [State.grp_setGrp _ _ hl]; exact hg
  bytes _ := rfl

theorem frag_setGrp (hl : s.cur.grp < s.groups.length) : (s.setGrp g).frag = g.fragAt s.cur.frag := by
  rw [State.frag, State.grp_setGrp _ _ hl]
  rfl

/-! ### Spilled entries (R129) -/

/-- Where every slice's spill area keeps a first part of what it held, nothing is written to the frame. -/
theorem spillStacks_of_prefix (hp : ∀ sl, h.spillStack sl <+: g.spillStack sl) : spillStacks s g h = s := by
  have hsame (sl k : Nat) (hk : k < (h.spillStack sl).length) : (h.spillStack sl)[k]? = (g.spillStack sl)[k]? := by
    obtain ⟨r, hr⟩ := hp sl
    rw [← hr, List.getElem?_append_left hk]
  refine List.foldlRecOn (motive := (· = s)) _ _ rfl fun t ht p _ => ?_
  refine List.foldlRecOn (motive := (· = s)) _ _ ht fun u hu k hk => ?_
  rw [hsame _ _ (List.mem_range.mp hk), beq_self_eq_true, if_pos rfl, hu]

theorem setStacks_of_prefix (hp : ∀ sl, g.spillStack sl <+: s.grp.spillStack sl) : s.setStacks g = s.setGrp g := by
  rw [State.setStacks, spillStacks_of_prefix hp]

theorem spillStack_putSpilled_other {sl j k : Nat} {st : List StackEntry} (hj : j ≠ sl) :
    (g.putSpilled sl k st).spillStack j = g.spillStack j := by
  simp only [Group.spillStack, Group.putSpilled, mapGet_mapSet_other _ _ _ _ _ hj]

/-- R129: a pop takes nothing but the newest entries out of the spill area. -/
theorem spillStack_putStack_prefix {sl : Nat} {e : StackEntry} {st : List StackEntry} (hst : g.stackAt sl = e :: st)
    (j : Nat) : (g.putStack sl st).spillStack j <+: g.spillStack j := by
  by_cases hj : j = sl
  · subst hj
    have hold : g.spillStack j = (st.reverse ++ [e]).take (mapGet 0 g.spilled j) := by
      rw [← List.reverse_cons, ← hst]
      rfl
    have hnew : (g.putStack j st).spillStack j = st.reverse.take (min (mapGet 0 g.spilled j) (st.length - 1)) := by
      simp only [Group.spillStack, Group.putStack, Group.putSpilled, mapGet_mapSet_same]
    rw [hold, hnew, Nat.min_comm, ← List.take_take, List.take_append]
    exact (List.take_prefix ..).trans (List.prefix_append ..)
  · rw [Group.putStack, spillStack_putSpilled_other hj]

/-- A slice's entry is taken off its stack, and its lanes run. -/
def Group.takeEntry (g : Group) (sl : Nat) (e : StackEntry) (st : List StackEntry) : Group :=
  (g.putAct sl (e.mask.toNat % 16)).putStack sl st

section
variable (g) (sl : Nat) (e : StackEntry) (st : List StackEntry)

theorem stackAt_takeEntry : (g.takeEntry sl e st).stackAt sl = st := Group.stackAt_putStack_same ..

theorem actOf_takeEntry : (g.takeEntry sl e st).actOf sl = e.mask.toNat % 16 :=
  (Group.actOf_putAct_same ..).trans (Nat.mod_mod ..)

theorem controlOnly_takeEntry : ControlOnly g (g.takeEntry sl e st) :=
  (ControlOnly.refl g).putAct.putSpilled

theorem fragAt_takeEntry (i : Nat) : (g.takeEntry sl e st).fragAt i = g.fragAt i := rfl

theorem frags_takeEntry : (g.takeEntry sl e st).frags = g.frags := rfl

variable {g sl e st} in
theorem spillStack_takeEntry_prefix (hst : g.stackAt sl = e :: st) (j : Nat) :
    (g.takeEntry sl e st).spillStack j <+: g.spillStack j :=
  spillStack_putStack_prefix (g := g.putAct sl (e.mask.toNat % 16)) hst j

end

end

end Sys2Proof.Machine
end

