-- ==== Sys2Proof/Proofs/JoinPoints.lean ====
section
/-! Join points of a fragment that stands alone or has nothing to join (R127, R128, R130). -/

namespace Sys2Proof.Machine
open Sys2Proof.Claims

/-! ### Settling at a join point (R128) -/

/-- One fragment of `takePaths`: it takes the copy of FMT of the path of its lowest slice. -/
def takePath (cs : List (Nat × Option (BitVec 25))) (g : Group) (i : Nat) : Group :=
  match cs.find? (fun c => c.1 == (g.fragAt i).slices.headD 64) with
  | some (_, some c) => g.putFrag i { g.fragAt i with fmtc := c }
  | _ => g

theorem takePaths_eq (g : Group) (cs : List (Nat × Option (BitVec 25))) :
    takePaths g cs = g.live.foldl (takePath cs) g := rfl

section
variable {g : Group} {fi sl : Nat} {a : BitVec 26}

theorem takePath_eq (cs : List (Nat × Option (BitVec 25))) (g : Group) (i : Nat) :
    ∃ fs, takePath cs g i = { g with frags := fs } := by
  unfold takePath
  split
  · exact ⟨_, rfl⟩
  · exact ⟨g.frags, rfl⟩

theorem foldl_takePath_eq (cs : List (Nat × Option (BitVec 25))) (is : List Nat) (g : Group) :
    ∃ fs, is.foldl (takePath cs) g = { g with frags := fs } := by
  induction is generalizing g with
  | nil => exact ⟨g.frags, rfl⟩
  | cons i is ih =>
    obtain ⟨fs, hfs⟩ := takePath_eq cs g i
    obtain ⟨fs', hfs'⟩ := ih (takePath cs g i)
    exact ⟨fs', by rw [List.foldl_cons, hfs', hfs]⟩

theorem fragAt_takePath_same {c : BitVec 25} (h : (g.fragAt fi).slices = [sl]) :
    (takePath [(sl, some c)] g fi).fragAt fi = { g.fragAt fi with fmtc := c } := by
  simp [takePath, h]

theorem fragAt_takePath_other {cs : List (Nat × Option (BitVec 25))} {i : Nat} (h : fi ≠ i) :
    (takePath cs g i).fragAt fi = g.fragAt fi := by
  unfold takePath
  split
  · exact Group.fragAt_putFrag_other _ _ _ _ h
  · rfl

/-- R127: however often it is met, a fragment ends with its path's copy of FMT. -/
theorem fragAt_foldl_takePath {c : BitVec 25} {is : List Nat} (h : (g.fragAt fi).slices = [sl]) :
    (is.foldl (takePath [(sl, some c)]) g).fragAt fi =
      { g.fragAt fi with fmtc := if fi ∈ is then c else (g.fragAt fi).fmtc } := by
  induction is generalizing g with
  | nil => simp
  | cons i is ih =>
    rw [List.foldl_cons]
    by_cases hi : fi = i
    · subst hi
      have hf := fragAt_takePath_same (c := c) h
      have hs : ((takePath [(sl, some c)] g fi).fragAt fi).slices = [sl] := hf ▸ h
      rw [ih hs, hf]
      simp
    · have hf := fragAt_takePath_other (g := g) (cs := [(sl, some c)]) hi
      rw [ih (by rw [hf]; exact h), hf]
      simp [hi]

theorem slices_ne_nil {f : Frag} (h : f.smask ≠ 0) : f.slices ≠ [] := by
  intro hn
  refine h (BitVec.eq_of_getLsbD_eq fun i hi => ?_)
  have hb : bit f.smask.toNat i = false := by
    simpa using List.filter_eq_nil_iff.mp hn i (List.mem_range.mpr hi)
  rw [← bit_toNat, hb]
  exact BitVec.getLsbD_zero.symm

theorem topKind_of_nil (h : g.stackAt sl = []) : topKind g sl = 0 := by
  rw [topKind, h]

theorem settleSlice_of_nil (kind : Nat) (h : g.stackAt sl = []) : settleSlice g kind a sl = (g, a.toNat, none) := by
  have hr : resumeSlice g kind a sl 65 = g := by rw [resumeSlice, h]
  simp only [settleSlice, hr, h]

/-- Step 2 of R128 for several slices: the group, and where each slice goes. -/
def settleSlices (kind : Nat) (a : BitVec 26) (sls : List Nat) (acc : Group × List (Nat × Nat × Option (BitVec 25))) :
    Group × List (Nat × Nat × Option (BitVec 25)) :=
  sls.foldl (fun acc sl => ((settleSlice acc.1 kind a sl).1, (sl, (settleSlice acc.1 kind a sl).2) :: acc.2)) acc

theorem settleSlices_of_nil {kind : Nat} {sls : List Nat} {vs : List (Nat × Nat × Option (BitVec 25))}
    (h : ∀ sl ∈ sls, g.stackAt sl = []) (hvs : ∀ v ∈ vs, v.2.1 = a.toNat) :
    ∃ ws, settleSlices kind a sls (g, vs) = (g, ws) ∧ ∀ v ∈ ws, v.2.1 = a.toNat := by
  induction sls generalizing vs with
  | nil => exact ⟨vs, rfl, hvs⟩
  | cons sl sls ih =>
    rw [settleSlices, List.foldl_cons, settleSlice_of_nil kind (h sl List.mem_cons_self)]
    refine ih (fun x hx => h x (List.mem_cons_of_mem _ hx)) fun v hv => ?_
    obtain rfl | hv := List.mem_cons.mp hv
    · rfl
    · exact hvs v hv

section
variable {kind fuel : Nat}

theorem not_all_topKind (hk : ∃ sl ∈ (g.fragAt fi).slices, topKind g sl ≠ 3) :
    (joinMatches kind a (g.fragAt fi).join && (g.fragAt fi).slices.all (fun sl => topKind g sl == 3)) = false := by
  obtain ⟨sl, hsl, h⟩ := hk
  have : (g.fragAt fi).slices.all (fun sl => topKind g sl == 3) = false :=
    List.all_eq_false.mpr ⟨sl, hsl, by simpa using h⟩
  rw [this, Bool.and_false]

/-- A fragment that no slice leaves and whose stacks are then empty has settled. -/
theorem settle_here {g' : Group} {vs : List (Nat × Nat × Option (BitVec 25))}
    (hk : ∃ sl ∈ (g.fragAt fi).slices, topKind g sl ≠ 3)
    (hr : settleSlices kind a (g.fragAt fi).slices (g, []) = (g', vs)) (hvs : ∀ v ∈ vs, v.2.1 = a.toNat)
    (he : ∀ sl ∈ (g.fragAt fi).slices, g'.stackAt sl = []) : settle kind a (fuel + 1) g fi = (g', .here fi) := by
  have hnext (sl : Nat) : ((vs.find? (fun p => p.1 == sl)).map (fun p => p.2.1)).getD a.toNat = a.toNat := by
    cases h : vs.find? (fun p => p.1 == sl) with
    | none => rfl
    | some p => exact hvs p (List.mem_of_find?_eq_some h)
  rw [settleSlices] at hr
  rw [settle]
  simp only [not_all_topKind hk, hr, hnext, bne_self_eq_false, Bool.false_eq_true, if_false]
  rw [if_neg (by simp), if_neg]
  rw [Bool.and_eq_true, List.any_eq_true]
  rintro ⟨⟨sl, hsl, h⟩, -⟩
  rw [he sl hsl] at h
  exact Bool.false_ne_true h

theorem mem_live {i : Nat} : i ∈ g.live ↔ i < 16 ∧ (g.fragAt i).smask ≠ 0 := by
  simp [Group.live]

theorem splitFrag_of_single {next : Nat → Nat} {j : BitVec 26} (hs : (g.fragAt fi).slices = [sl]) :
    splitFrag g fi next j = g.putFrag fi { g.fragAt fi with pc := BitVec.ofNat 26 (next sl), wait := 0 } := by
  simp [splitFrag, hs, insertNat]

theorem takePaths_single {c : BitVec 25} (hfi : fi < 16) (hs : (g.fragAt fi).slices = [sl]) :
    ∃ fs, takePaths g [(sl, some c)] = { g with frags := fs } ∧
      Group.fragAt { g with frags := fs } fi = { g.fragAt fi with fmtc := c } := by
  obtain ⟨fs, hfs⟩ := foldl_takePath_eq [(sl, some c)] g.live g
  have hlive : fi ∈ g.live := by
    refine mem_live.mpr ⟨hfi, fun h0 => List.cons_ne_nil sl [] ?_⟩
    rw [← hs]
    simp [Frag.slices, h0, maskList, bit]
  refine ⟨fs, hfs, ?_⟩
  rw [← hfs, fragAt_foldl_takePath hs, if_pos hlive]

/-- A fragment of one slice whose PATH entry matches goes where the entry says, with its copy of FMT (R127). -/
theorem settle_moved {g' : Group} {x : BitVec 26} {c : BitVec 25} (hfi : fi < 16)
    (hs : (g.fragAt fi).slices = [sl]) (hk : topKind g sl ≠ 3) (hr : settleSlice g kind a sl = (g', x.toNat, some c))
    (hx : x ≠ a) (hg : g'.frags = g.frags) : ∃ fs, settle kind a (fuel + 1) g fi = ({ g' with frags := fs }, .moved) ∧
      Group.fragAt { g' with frags := fs } fi = { g.fragAt fi with pc := x, fmtc := c, wait := 0 } := by
  have hfrag : g'.fragAt fi = g.fragAt fi := by rw [Group.fragAt, hg]; rfl
  have hk' : ∃ sl ∈ (g.fragAt fi).slices, topKind g sl ≠ 3 := ⟨sl, by rw [hs]; exact List.mem_singleton_self _, hk⟩
  have hne : (x.toNat == a.toNat) = false := by simpa [BitVec.toNat_inj] using hx
  have hsplit := Group.fragAt_putFrag_same g' fi { g.fragAt fi with pc := x, wait := 0 }
  obtain ⟨fs, hfs, hfi'⟩ := takePaths_single (c := c) hfi ((congrArg Frag.slices hsplit).trans hs)
  refine ⟨fs, ?_, hfi'.trans (by rw [hsplit])⟩
  rw [settle]
  simp only [not_all_topKind hk', Bool.false_eq_true, if_false]
  simp only [hs, List.foldl_cons, List.foldl_nil, hr, splitFrag_of_single (hfrag ▸ hs), hfrag]
  simp only [List.any_cons, List.any_nil, List.find?_cons, List.find?_nil, beq_self_eq_true, Option.map_some,
    Option.getD_some, List.map_cons, List.map_nil, BitVec.ofNat_toNat, BitVec.setWidth_eq, bne, hne, Bool.not_false,
    Bool.or_false, if_true, Prod.mk.injEq, and_true]
  exact hfs

/-- A slice whose RESUME entry matches takes back its mask. -/
theorem settleSlice_resume {e : StackEntry} (hst : g.stackAt sl = [e]) (hkind : e.kind = 2)
    (hm : joinMatches kind a e.join = true) : settleSlice g kind a sl =
      (g.takeEntry sl e [], a.toNat, none) := by
  have hnil : (g.takeEntry sl e []).stackAt sl = [] := stackAt_takeEntry ..
  have hr : resumeSlice g kind a sl 65 = g.takeEntry sl e [] := by
    rw [resumeSlice, hst]
    simp only [hkind, hm, beq_self_eq_true, Bool.and_self, if_true]
    rw [← Group.takeEntry, resumeSlice, hnil]
  simp only [settleSlice, hr, hnil]

/-- A slice whose PATH entry matches runs the lanes that the entry names. -/
theorem settleSlice_path {e : StackEntry} {st : List StackEntry} (hst : g.stackAt sl = e :: st) (hkind : e.kind = 1)
    (hm : joinMatches kind a e.join = true) : settleSlice g kind a sl =
      (g.takeEntry sl e st, e.pc.toNat, some e.fmtc) := by
  have hr : resumeSlice g kind a sl 65 = g := by
    rw [resumeSlice, hst]
    simp [hkind]
  simp only [settleSlice, hr, hst, hkind, hm, beq_self_eq_true, Bool.and_self, if_true]
  rfl

end

/-! ### Join points of a fragment that leaves no entry behind -/

theorem overflow_none {sls : List Nat} (h : ∀ sl ∈ sls, (g.stackAt sl).length ≤ 64) : overflow g sls = none := by
  simpa [overflow] using h

section
variable {s : State} {kind : Nat} {k : State → Settled → State} {st : Settled}

theorem joinPoint_eq (hs : settle kind s.frag.pc 200 s.grp s.cur.frag = (g, st))
    (ho : ∀ sl ∈ s.frag.slices, (g.stackAt sl).length ≤ 64) (hp : ∀ sl, g.spillStack sl <+: s.grp.spillStack sl) :
    joinPoint s kind k = .next (k (s.setGrp g) st) := by
  simp only [joinPoint, hs, overflow_none ho, setStacks_of_prefix hp]

variable (hf : s.frag.smask ≠ 0) (he : ∀ sl ∈ s.frag.slices, s.grp.stackAt sl = [])
include hf he

/-- A fragment with nothing to join has settled as it came. -/
theorem settle_of_nil : settle kind s.frag.pc 200 s.grp s.cur.frag = (s.grp, .here s.cur.frag) := by
  obtain ⟨sl, hsl⟩ := List.exists_mem_of_ne_nil _ (slices_ne_nil hf)
  have hk : ∃ sl ∈ s.frag.slices, topKind s.grp sl ≠ 3 := ⟨sl, hsl, by rw [topKind_of_nil (he sl hsl)]; decide⟩
  obtain ⟨vs, hr, hvs⟩ := settleSlices_of_nil (kind := kind) (a := s.frag.pc) (vs := []) he (by simp)
  exact settle_here hk hr hvs he

theorem joinPoint_of_nil : joinPoint s kind k = .next (k s (.here s.cur.frag)) := by
  rw [joinPoint_eq (settle_of_nil hf he) (fun sl hsl => by simp [he sl hsl]) (fun _ => List.prefix_rfl),
    State.setGrp_self]

end
end

/-! ### LJOIN -/

section
variable {s : State} (f : LaneWord) (hl : s.cur.grp < s.groups.length)

section
variable {g : Group} {fi : Nat} (ho : ∀ sl ∈ s.frag.slices, (g.stackAt sl).length ≤ 64)
  (hp : ∀ sl, g.spillStack sl <+: s.grp.spillStack sl)
include ho hp

theorem exec_ljoin_moved (hs : settle 1 s.frag.pc 200 s.grp s.cur.frag = (g, .moved)) :
    exec (.ljoin f) s = .next (s.setGrp g) := by
  rw [show exec (.ljoin f) s = execLjoin f s from rfl, execLjoin, joinPoint_eq hs ho hp]

include hl in
theorem exec_ljoin_here (hs : settle 1 s.frag.pc 200 s.grp s.cur.frag = (g, .here fi)) :
    exec (.ljoin f) s = .next (s.setGrp (g.putFrag fi { g.fragAt fi with pc := (g.fragAt fi).pc + 1 })) := by
  rw [show exec (.ljoin f) s = execLjoin f s from rfl, execLjoin, joinPoint_eq hs ho hp]
  simp only [State.grp_setGrp _ _ hl, State.setGrp_twice]

end

include hl

theorem ljoin_of_nil (hf : s.frag.smask ≠ 0) (he : ∀ sl ∈ s.frag.slices, s.grp.stackAt sl = []) :
    ∃ t, exec (.ljoin f) s = .next t ∧ ControlFrame s t ∧ t.frag = { s.frag with pc := s.frag.pc + 1 } ∧
      t.grp.recon = s.grp.recon ∧ t.grp.act = s.grp.act := by
  have ho : ∀ sl ∈ s.frag.slices, (s.grp.stackAt sl).length ≤ 64 := fun sl hsl => by simp [he sl hsl]
  refine ⟨_, exec_ljoin_here f hl ho (fun _ => List.prefix_rfl) (settle_of_nil hf he),
    controlFrame_setGrp hl (ControlOnly.refl _).putFrag, ?_⟩
  rw [frag_setGrp hl, Group.fragAt_putFrag_same, State.grp_setGrp _ _ hl]
  exact ⟨rfl, rfl, rfl⟩

variable {sl : Nat} (hs : s.frag.slices = [sl]) {e : StackEntry} (hj : e.join = s.frag.pc)
include hs hj

theorem ljoin_resume (hst : s.grp.stackAt sl = [e]) (hk : e.kind = 2) :
    ∃ t, exec (.ljoin f) s = .next t ∧ ControlFrame s t ∧ t.frag = { s.frag with pc := s.frag.pc + 1 } ∧
      t.grp.stackAt sl = [] ∧ t.grp.actOf sl = e.mask.toNat % 16 := by
  have hr := settleSlice_resume (kind := 1) (a := s.frag.pc) hst hk (by simp [joinMatches, hj])
  have htop : ∃ sl ∈ s.frag.slices, topKind s.grp sl ≠ 3 := ⟨sl, by simp [hs], by simp [topKind, hst, hk]⟩
  have hnil : ∀ x ∈ s.frag.slices, (s.grp.takeEntry sl e []).stackAt x = [] := by
    intro x hx
    obtain rfl : x = sl := by simpa [hs] using hx
    exact stackAt_takeEntry ..
  have hslices : settleSlices 1 s.frag.pc s.frag.slices (s.grp, []) =
      (s.grp.takeEntry sl e [], [(sl, s.frag.pc.toNat, none)]) := by
    rw [hs, settleSlices, List.foldl_cons, hr, List.foldl_nil]
  have hset : settle 1 s.frag.pc 200 s.grp s.cur.frag = (s.grp.takeEntry sl e [], .here s.cur.frag) :=
    settle_here htop hslices (by simp) hnil
  refine ⟨_, exec_ljoin_here f hl (fun x hx => by simp [hnil x hx]) (spillStack_takeEntry_prefix hst) hset,
    controlFrame_setGrp hl (controlOnly_takeEntry ..).putFrag, ?_⟩
  rw [frag_setGrp hl, Group.fragAt_putFrag_same, fragAt_takeEntry, State.grp_setGrp _ _ hl, Group.stackAt_putFrag,
    Group.actOf_putFrag, stackAt_takeEntry, actOf_takeEntry]
  exact ⟨rfl, rfl, rfl⟩

theorem ljoin_path {st : List StackEntry} (hst : s.grp.stackAt sl = e :: st) (hk : e.kind = 1)
    (hlen : st.length ≤ 64) (hpc : e.pc ≠ s.frag.pc) (hfi : s.cur.frag < 16) :
    ∃ t, exec (.ljoin f) s = .next t ∧ ControlFrame s t ∧
      t.frag = { s.frag with pc := e.pc, fmtc := e.fmtc, wait := 0 } ∧
      t.grp.stackAt sl = st ∧ t.grp.actOf sl = e.mask.toNat % 16 := by
  have hr := settleSlice_path (kind := 1) (a := s.frag.pc) hst hk (by simp [joinMatches, hj])
  have htop : topKind s.grp sl ≠ 3 := by simp [topKind, hst, hk]
  obtain ⟨fs, hset, hfrag⟩ := settle_moved (fuel := 199) hfi hs htop hr hpc (frags_takeEntry ..)
  have ho : ∀ x ∈ s.frag.slices, ((s.grp.takeEntry sl e st).stackAt x).length ≤ 64 := by
    intro x hx
    obtain rfl : x = sl := by simpa [hs] using hx
    exact (congrArg List.length (stackAt_takeEntry ..)).trans_le hlen
  refine ⟨_, exec_ljoin_moved (g := { s.grp.takeEntry sl e st with frags := fs }) f ho
    (spillStack_takeEntry_prefix hst) hset,
    controlFrame_setGrp hl (controlOnly_takeEntry ..).setFrags, ?_⟩
  rw [frag_setGrp hl, State.grp_setGrp _ _ hl]
  exact ⟨hfrag, stackAt_takeEntry .., actOf_takeEntry s.grp sl e st⟩

end

/-! ### REGANG -/

/-- What a REGANG leaves of the stacks of slices: everything but FRAG entries (R128). -/
def dropFragEntries (g : Group) (sls : List Nat) : Group :=
  sls.foldl (fun g sl => g.putSpilled sl ((g.spillStack sl).filter (fun e => e.kind != 3)).length
    ((g.stackAt sl).filter (fun e => e.kind != 3))) g

/-- Lane control has left the active masks alone, and put nothing into a spill area. -/
structure StacksKept (g h : Group) : Prop where
  control : ControlOnly g h
  act : h.act = g.act
  spills : ∀ sl, h.spillStack sl <+: g.spillStack sl

theorem StacksKept.refl (g : Group) : StacksKept g g := ⟨.refl g, rfl, fun _ => List.prefix_rfl⟩

theorem StacksKept.putFrag {g h : Group} {i : Nat} {f : Frag} (hk : StacksKept g h) : StacksKept g (h.putFrag i f) :=
  ⟨hk.control.putFrag, hk.act, hk.spills⟩

theorem fragAt_dropFragEntries (g : Group) (sls : List Nat) (i : Nat) :
    (dropFragEntries g sls).fragAt i = g.fragAt i :=
  List.foldlRecOn (motive := fun h : Group => h.fragAt i = g.fragAt i) sls _ rfl fun _ hh _ _ => hh

theorem stacksKept_dropFragEntries {g0 g : Group} {sls : List Nat} (h : StacksKept g0 g)
    (he : ∀ sl ∈ sls, g.stackAt sl = []) : StacksKept g0 (dropFragEntries g sls) := by
  induction sls generalizing g with
  | nil => exact h
  | cons x xs ih =>
    have hx : g.stackAt x = [] := he x List.mem_cons_self
    have hsp : g.spillStack x = [] := by
      show (g.stackAt x).reverse.take _ = []
      rw [hx]
      exact List.take_nil
    rw [dropFragEntries, List.foldl_cons, hx, hsp, List.filter_nil, List.length_nil]
    refine ih ⟨h.control.putSpilled, h.act, fun sl => ?_⟩ fun sl hsl => ?_
    · by_cases hs : sl = x
      · subst hs
        have : (g.putSpilled sl 0 []).spillStack sl = [] := by simp [Group.spillStack, Group.putSpilled]
        rw [this]
        exact List.nil_prefix
      · rw [spillStack_putSpilled_other hs]
        exact h.spills sl
    · by_cases hs : sl = x
      · rw [hs]
        exact Group.stackAt_putSpilled_same ..
      · exact (Group.stackAt_putSpilled_other _ _ _ _ _ hs).trans (he sl (List.mem_cons_of_mem _ hsl))

section
variable {g : Group} {fi : Nat} (hlive : g.live = [fi])
include hlive

theorem live_putFrag {f : Frag} (hf : f.smask = (g.fragAt fi).smask) : (g.putFrag fi f).live = [fi] := by
  rw [← hlive, Group.live, Group.live]
  refine List.filter_congr fun i _ => ?_
  by_cases hi : i = fi
  · rw [hi, Group.fragAt_putFrag_same, hf]
  · rw [Group.fragAt_putFrag_other _ _ _ _ hi]

/-- A lone fragment that waits at a REGANG goes on, out of every stack (R128). -/
theorem fuseRegang_single (hw : (g.fragAt fi).wait = 2) :
    fuseRegang g = dropFragEntries ((g.putFrag fi default).putFrag fi { g.fragAt fi with
      pc := (g.fragAt fi).pc + 1, join := noneJoin, spin := 0, wait := 0 }) (g.fragAt fi).slices := by
  have hpc : BitVec.ofNat 26 ((g.fragAt fi).pc.toNat + 1) = (g.fragAt fi).pc + 1 :=
    BitVec.eq_of_toNat_eq (by simp)
  simp [fuseRegang, hlive, hw, insertNat, dropFragEntries, Frag.slices, hpc]

/-- A lone fragment that comes to a REGANG with empty stacks. -/
theorem fuseRegang_alone (he : ∀ sl ∈ (g.fragAt fi).slices, g.stackAt sl = []) :
    ∃ h, fuseRegang (g.putFrag fi { g.fragAt fi with wait := 2 }) = h ∧ StacksKept g h ∧
      h.fragAt fi = { g.fragAt fi with pc := (g.fragAt fi).pc + 1, join := noneJoin, spin := 0, wait := 0 } := by
  have hfrag := Group.fragAt_putFrag_same g fi { g.fragAt fi with wait := 2 }
  have hfuse := fuseRegang_single (live_putFrag hlive (f := { g.fragAt fi with wait := 2 }) rfl) (by rw [hfrag])
  rw [hfrag] at hfuse
  refine ⟨_, hfuse, stacksKept_dropFragEntries (StacksKept.refl g).putFrag.putFrag.putFrag he, ?_⟩
  rw [fragAt_dropFragEntries, Group.fragAt_putFrag_same]

theorem all_wait_putFrag {f : Frag} (hf : f.smask = (g.fragAt fi).smask) (hw : f.wait = 3) :
    (g.putFrag fi f).live.all (fun i => ((g.putFrag fi f).fragAt i).wait == 3) = true := by
  rw [live_putFrag hlive hf, List.all_cons, List.all_nil, Group.fragAt_putFrag_same, hw]
  rfl

end

section
variable {s : State} (f : LaneWord) (hl : s.cur.grp < s.groups.length) (hlive : s.grp.live = [s.cur.frag])
  (he : ∀ sl ∈ s.frag.slices, s.grp.stackAt sl = [])
include hl hlive he

omit hl he in
theorem smask_of_live : s.frag.smask ≠ 0 := (mem_live.mp (hlive ▸ List.mem_singleton_self s.cur.frag)).2

theorem regang_single : ∃ t, exec (.regang f) s = .next t ∧ ControlFrame s t ∧
    t.frag = { s.frag with pc := s.frag.pc + 1, join := 0x3FFFFFF, spin := 0, wait := 0 } ∧
    t.grp.act = s.grp.act := by
  obtain ⟨h, hfuse, hkept, hfrag⟩ := fuseRegang_alone hlive he
  rw [show exec (.regang f) s = execRegang f s from rfl, execRegang, joinPoint_of_nil (smask_of_live hlive) he]
  refine ⟨_, rfl, ?_⟩
  simp only [hfuse, setStacks_of_prefix hkept.spills]
  refine ⟨controlFrame_setGrp hl hkept.control, ?_, ?_⟩
  · rw [frag_setGrp hl]
    exact hfrag
  · rw [State.grp_setGrp _ _ hl]
    exact hkept.act

end

/-! ### LEND -/

theorem releaseSide_of_nil {s : State} (h : s.grp.side = []) (fuel : Nat) : releaseSide s fuel = s := by
  cases fuel with
  | zero => rfl
  | succ fuel => simp only [releaseSide, h]

/-- R165: a block as it stands once the one before it has ended: it captures the registers that were pending. -/
def Block.afterEnd (x : Block) : Block :=
  { x with
    scal := (maskList 64 x.late).foldl (fun m r => mapSet 0 m r (mapGet 0 x.ckpt.regs r)) x.scal
    late := 0
    ckpt := x.ckpt.blockOver }

/-- R130: the group at the end of its oldest block, behind which nothing is held. -/
def Group.blockEnded (g : Group) (bs : List Block) : Group :=
  { g with
    st := g.st.blockOver
    blocks := bs.map Block.afterEnd
    side := []
    slds := []
    frags := []
    recon := []
    spilled := []
    abind := 0
    taken := [] }

/-- R130, R136, R228: the state at the end of the moving group's oldest block, before the next one starts. -/
def blockOverState (s : State) (b : Block) (bs : List Block) : State :=
  dropWritten (loseLatches (s.setGrp (s.grp.blockEnded bs)) (s.grp.blockEnded bs)) s.cur.grp b

section
variable {s : State} {b : Block} {bs : List Block} (hl : s.cur.grp < s.groups.length)
include hl

theorem grp_blockOverState : (blockOverState s b bs).grp = s.grp.blockEnded bs := State.grp_setGrp s _ hl

variable (hb : s.grp.blocks = b :: bs) (hside : s.grp.side = []) (hslds : s.grp.slds = [])
include hb hside hslds

theorem endBlock_eq : endBlock s = startBlock (blockOverState s b bs) s.cur.grp := by
  have hc : earlyConflict s.grp b = none := by rw [earlyConflict, hslds]; rfl
  have hrel := releaseSide_of_nil (congrArg Group.side (grp_blockOverState (b := b) (bs := bs) hl)) 16
  simp only [endBlock, hb, hc, hside, hslds, List.filter_nil, List.map_nil, List.filter_true, Option.isSome_none,
    Bool.false_eq_true, if_false]
  exact congrArg (startBlock · s.cur.grp) hrel

end

/-- R130: the oldest block starts with one fragment of all slices. -/
def startFrags (width : Nat) : List Block → SMap Frag
  | [] => []
  | b :: _ => [(0, firstFrag width b.start b.fmt)]

theorem startFrags_map_afterEnd (width : Nat) (bs : List Block) :
    startFrags width (bs.map Block.afterEnd) = startFrags width bs := by
  cases bs <;> rfl

/-- R130: the group as its oldest block starts. -/
def Group.blockStarted (g : Group) (width : Nat) (b : Block) : Group :=
  { g with
    frags := [(0, firstFrag width b.start b.fmt)]
    recon := []
    spilled := []
    act := 2 ^ width - 1
    abind := 0 }

theorem startBlock_of_nil {s : State} (hb : s.grp.blocks = []) : startBlock s s.cur.grp = s := by
  simp only [startBlock, show s.group s.cur.grp = s.grp from rfl, hb]

theorem startBlock_of_cons {s : State} {b : Block} {bs : List Block} (hb : s.grp.blocks = b :: bs) :
    startBlock s s.cur.grp = loseLatches (s.setGrp (s.grp.blockStarted s.width b)) s.grp := by
  simp only [startBlock, show s.group s.cur.grp = s.grp from rfl, hb]
  rw [Group.blockStarted, hb]
  rfl

section
variable {s : State} (hl : s.cur.grp < s.groups.length)
include hl

theorem startBlock_grp (hf : s.grp.frags = []) :
    (startBlock s s.cur.grp).grp.blocks = s.grp.blocks ∧ (startBlock s s.cur.grp).grp.st = s.grp.st ∧
      (startBlock s s.cur.grp).grp.frags = startFrags s.width s.grp.blocks ∧ (startBlock s s.cur.grp).mem = s.mem := by
  cases hb : s.grp.blocks with
  | nil =>
    rw [startBlock_of_nil hb]
    exact ⟨hb, rfl, hf, rfl⟩
  | cons b bs =>
    have hg : (loseLatches (s.setGrp (s.grp.blockStarted s.width b)) s.grp).grp = s.grp.blockStarted s.width b :=
      State.grp_setGrp s _ hl
    rw [startBlock_of_cons hb, hg]
    exact ⟨hb, rfl, rfl, rfl⟩

/-- R130: where nothing is held behind the oldest block, its end leaves the blocks after it, of which the first starts. -/
theorem endBlock_grp {b : Block} {bs : List Block} (hb : s.grp.blocks = b :: bs) (hside : s.grp.side = [])
    (hslds : s.grp.slds = []) : (endBlock s).grp.blocks.map Block.start = bs.map Block.start ∧
      (endBlock s).grp.st = s.grp.st.blockOver ∧ (endBlock s).grp.frags = startFrags s.width bs ∧
      (endBlock s).mem = s.mem := by
  have hg := grp_blockOverState (b := b) (bs := bs) hl
  have hl' : (blockOverState s b bs).cur.grp < (blockOverState s b bs).groups.length := by
    rw [← State.setGrp_length s (s.grp.blockEnded bs)] at hl
    exact hl
  obtain ⟨hblocks, hst, hfrags, hmem⟩ := startBlock_grp hl' (congrArg Group.frags hg)
  have hw : (blockOverState s b bs).width = s.width := by
    rw [State.width, hg]
    rfl
  rw [hg] at hblocks hst hfrags
  rw [endBlock_eq hl hb hside hslds]
  refine ⟨?_, hst, ?_, hmem⟩
  · rw [show s.cur.grp = (blockOverState s b bs).cur.grp from rfl, hblocks]
    exact List.map_map.trans rfl
  · rw [show s.cur.grp = (blockOverState s b bs).cur.grp from rfl, hfrags, hw]
    exact startFrags_map_afterEnd s.width bs

theorem lend_single (f : LaneWord) {b : Block} {bs : List Block} (hlive : s.grp.live = [s.cur.frag])
    (hrecon : s.grp.recon = []) (hside : s.grp.side = []) (hslds : s.grp.slds = []) (hb : s.grp.blocks = b :: bs) :
    ∃ t, exec (.lend f) s = .next t ∧ t.grp.blocks.map Block.start = bs.map Block.start ∧
      t.grp.st = s.grp.st.blockOver ∧ t.grp.frags = startFrags s.width bs ∧ t.mem = s.mem := by
  have he : ∀ sl ∈ s.frag.slices, s.grp.stackAt sl = [] := fun sl _ => by rw [Group.stackAt, hrecon]; rfl
  have hall := all_wait_putFrag hlive (f := { s.frag with wait := 3 }) rfl rfl
  have hexec : exec (.lend f) s = .next (endBlock (s.setGrp (s.grp.putFrag s.cur.frag { s.frag with wait := 3 }))) := by
    rw [show exec (.lend f) s = execLend f s from rfl, execLend, joinPoint_of_nil (smask_of_live hlive) he]
    exact congrArg Host.Outcome.next (if_pos hall)
  have hg := State.grp_setGrp s (s.grp.putFrag s.cur.frag { s.frag with wait := 3 }) hl
  have hl' : s.cur.grp < (s.setGrp (s.grp.putFrag s.cur.frag { s.frag with wait := 3 })).groups.length := by
    rwa [State.setGrp_length]
  obtain ⟨hblocks, hst, hfrags, hmem⟩ := endBlock_grp hl' ((congrArg Group.blocks hg).trans hb)
    ((congrArg Group.side hg).trans hside) ((congrArg Group.slds hg).trans hslds)
  refine ⟨_, hexec, hblocks, hst.trans ?_, hfrags.trans ?_, hmem⟩
  · rw [hg]
    rfl
  · rw [State.width, hg]
    rfl

end

end Sys2Proof.Machine

section
open Sys2Proof.Machine Sys2Proof.Claims

/-- Settles O29: LJOIN by what settling at A leaves of a lone slice's stack, REGANG and LEND by what becomes of the one
fragment that waits there. -/
theorem joinPoints : Obligations.JoinPoints := by
  intro f s hl hf
  refine ⟨ljoin_of_nil f hl hf, ?resume, ?path, regang_single f hl, ?lend⟩
  case resume =>
    intro sl m p c hs hst
    exact ljoin_resume f hl hs rfl hst rfl
  case path =>
    intro sl m p c st hs hst hlen hp hfi
    exact ljoin_path f hl hs rfl hst rfl hlen.le hp hfi
  case lend =>
    intro b bs hlive hrecon hside hslds hb
    obtain ⟨t, hexec, hblocks, hst, hfrags, hmem⟩ := lend_single hl f hlive hrecon hside hslds hb
    refine ⟨t, hexec, hblocks, hst, ?_, fun a => by rw [hmem]⟩
    cases bs <;> exact hfrags

end
end

