-- ==== Sys2Proof/Proofs/GroupsKept.lean ====
section
/-! What performed writes, pubs and refs, pins, fault records and arrivals leave alone: the commands, the launches, and of
every group all but its wait and what it notes of memory. -/

namespace Sys2Proof.Machine

variable {s0 s t : State}

/-- A group without its wait and without what it notes of memory: the values seen, the stamps of its refs, and its engine
writes. -/
def Group.lasting (g : Group) : Group :=
  { g with
    wait := .none
    eligible := false
    refStamp := 0
    seen := []
    codeRef := []
    engw := [] }

/-- The state has come from another by what changes no command, no launch and no lasting part of a group. -/
structure GroupsKept (s t : State) : Prop where
  cmds : t.cmds = s.cmds
  launches : t.launches = s.launches
  length : t.groups.length = s.groups.length
  lasting : ∀ g, (t.group g).lasting = (s.group g).lasting

theorem GroupsKept.refl (s : State) : GroupsKept s s := ⟨rfl, rfl, rfl, fun _ => rfl⟩

theorem GroupsKept.trans (h : GroupsKept s0 s) (h' : GroupsKept s t) : GroupsKept s0 t :=
  ⟨h'.cmds.trans h.cmds, h'.launches.trans h.launches, h'.length.trans h.length,
    fun g => (h'.lasting g).trans (h.lasting g)⟩

/-- The fields that such a step may change at will. -/
theorem GroupsKept.update {cur : Cur} {mem : Memory} {ord nextId ueNotes : Nat} {hist : List Hist} {poison : List Nat}
    {dirty : List Dirty} {regs : SMap Dword} {tlb : List TlbEntry} {teams : List Team} {barriers : SMap Barrier}
    {monitors : List Monitor} {owners : List Owner} {badGpns notes : List (Nat × Nat)} {redirects : List RedirectMsg}
    {remote : List RemReq} {colls : List Coll} {chunks : List Chunk} {queues : SMap QRun} {seq : SMap Nat}
    {held : List HeldFault} {baseOps : List BaseOp} (h : GroupsKept s0 s) :
    GroupsKept s0 { s with
      cur := cur, mem := mem, ord := ord, nextId := nextId, ueNotes := ueNotes, hist := hist, poison := poison,
      dirty := dirty, regs := regs, tlb := tlb, teams := teams, barriers := barriers, monitors := monitors,
      owners := owners, badGpns := badGpns, notes := notes, redirects := redirects, remote := remote, colls := colls,
      chunks := chunks, queues := queues, seq := seq, held := held, baseOps := baseOps } :=
  ⟨h.cmds, h.launches, h.length, h.lasting⟩

theorem GroupsKept.setGroup {g : Nat} {x : Group} (h : GroupsKept s0 s) (hx : x.lasting = (s.group g).lasting) :
    GroupsKept s0 (s.setGroup g x) where
  cmds := h.cmds
  launches := h.launches
  length := (State.setGroup_length ..).trans h.length
  lasting i := by
    rw [State.group_setGroup, ← h.lasting i]
    split
    next hi => rw [hx, hi.1]
    · rfl

theorem GroupsKept.ite {c : Prop} [Decidable c] (hs : GroupsKept s0 s) (ht : GroupsKept s0 t) :
    GroupsKept s0 (if c then s else t) := by
  split
  · exact hs
  · exact ht

theorem GroupsKept.foldl {α : Type} {f : State → α → State} {xs : List α} (h : GroupsKept s0 s)
    (hf : ∀ {t x}, GroupsKept s0 t → GroupsKept s0 (f t x)) : GroupsKept s0 (xs.foldl f s) := by
  induction xs generalizing s with
  | nil => exact h
  | cons x xs ih => exact ih (hf h)

/-! ### Writes that reach memory -/

theorem GroupsKept.regSet {a : Nat} {v : Dword} (h : GroupsKept s0 s) : GroupsKept s0 (regSet s a v) :=
  h.update

theorem wakeMonitor_lasting (g : Group) : (wakeMonitor g).lasting = g.lasting := by
  unfold wakeMonitor
  split <;> rfl

theorem GroupsKept.fireMonitor {m : Monitor} (h : GroupsKept s0 s) : GroupsKept s0 (fireMonitor s m) := by
  simp only [Machine.fireMonitor]
  split
  · exact h.update.setGroup (wakeMonitor_lasting _)
  · exact h.update
  · exact h.update

theorem GroupsKept.recheckLine {line : Nat} (h : GroupsKept s0 s) : GroupsKept s0 (recheckLine s line) :=
  h.foldl (fun ht => .ite ht.fireMonitor ht)

theorem GroupsKept.countUe {loc : Nat} (h : GroupsKept s0 s) : GroupsKept s0 (countUe s loc) :=
  h.regSet.regSet.update

theorem GroupsKept.noteBase {write : Bool} {loc mask : Nat} {sure : Bool} (h : GroupsKept s0 s) :
    GroupsKept s0 (noteBase s write loc mask sure) :=
  .ite h h.update

theorem GroupsKept.writeUnit {w : Writer} {u : Nat} {mask val : Dword} (h : GroupsKept s0 s) :
    GroupsKept s0 (writeUnit s w u mask val) :=
  (GroupsKept.ite h.countUe h).noteBase.update.recheckLine

theorem GroupsKept.sendUnit {w : Writer} {d u : Nat} (h : GroupsKept s0 s) : GroupsKept s0 (sendUnit s w d u) := by
  obtain ⟨rs, n, e⟩ := sendUnit_eq s w d u
  rw [e]
  exact h.update

theorem GroupsKept.dualWrite {w : Writer} {d u : Nat} {mask val : Dword} (h : GroupsKept s0 s) :
    GroupsKept s0 (dualWrite s w d u mask val) :=
  .ite h.writeUnit h.sendUnit

theorem GroupsKept.performBy {w : Writer} {u : Nat} {mask val : Dword} (h : GroupsKept s0 s) :
    GroupsKept s0 (performBy s w u mask val) := by
  simp only [Machine.performBy]
  split
  · refine GroupsKept.dualWrite ?_
    split
    · exact h.writeUnit.sendUnit
    · exact h.writeUnit
  · split
    · exact h.writeUnit.sendUnit
    · exact h.writeUnit

theorem GroupsKept.performBytes {loc size : Nat} {v : Dword} (h : GroupsKept s0 s) :
    GroupsKept s0 (performBytes s loc size v) :=
  h.performBy

theorem GroupsKept.performDwords {loc : Nat} {ds : List Dword} (h : GroupsKept s0 s) :
    GroupsKept s0 (performDwords s loc ds) := by
  induction ds generalizing s loc with
  | nil => exact h
  | cons d ds ih => exact ih h.performBy

/-! ### Stores that wait, pubs and refs -/

theorem GroupsKept.setSeen {g u stamp : Nat} (h : GroupsKept s0 s) : GroupsKept s0 (setSeen s g u stamp) :=
  .ite (h.setGroup rfl) h

theorem GroupsKept.performDirty1 {d : Dirty} (h : GroupsKept s0 s) : GroupsKept s0 (performDirty1 s d) :=
  (GroupsKept.ite h.performBy.update.update h.performBy.update).update.foldl (fun ht => ht.setSeen)

theorem GroupsKept.performDirty {p : Dirty → Bool} (h : GroupsKept s0 s) : GroupsKept s0 (performDirty s p) :=
  h.foldl (fun ht => ht.performDirty1)

theorem GroupsKept.pub {g scope : Nat} (h : GroupsKept s0 s) : GroupsKept s0 (pub s g scope) :=
  .ite h (.ite h.performDirty.update h.performDirty)

theorem GroupsKept.ref {g scope : Nat} (h : GroupsKept s0 s) : GroupsKept s0 (ref s g scope) :=
  .ite h (h.performDirty.update.setGroup rfl)

theorem GroupsKept.codeRef {g scope : Nat} (h : GroupsKept s0 s) : GroupsKept s0 (codeRef s g scope) :=
  h.setGroup rfl

/-! ### Pins, fault records, arrivals -/

theorem GroupsKept.pinCount {ps : List Pin} {up : Bool} (h : GroupsKept s0 s) : GroupsKept s0 (pinCount s ps up) :=
  h.foldl (fun ht => .ite (.ite ht.performBytes ht) ht)

theorem GroupsKept.notify {entry : Nat} (h : GroupsKept s0 s) : GroupsKept s0 (notify s entry) :=
  .ite (.ite h.update.performBytes h.update) h

theorem GroupsKept.postFault {f : FaultInfo} (h : GroupsKept s0 s) : GroupsKept s0 (postFault s f) :=
  .ite h.update.regSet (.ite h.update.performDwords.regSet.notify h.update.update.regSet)

theorem wakeBarrier_lasting (g : Group) : (wakeBarrier g).lasting = g.lasting := by
  have haway : (wakeAway g).lasting = g.lasting := by
    unfold wakeAway
    split <;> rfl
  unfold wakeBarrier
  split
  · rfl
  · exact haway

theorem GroupsKept.arriveAt {k cls : Nat} {ws : List (Nat × Nat × Nat)} (h : GroupsKept s0 s) :
    GroupsKept s0 (arriveAt s k cls ws) :=
  .ite (h.update.foldl (fun ht => ht.setGroup (wakeBarrier_lasting _))) h.update

end Sys2Proof.Machine
end

