-- ==== Sys2Proof/Proofs/Residency.lean ====
section
/-! Residency of new teams, forced saves and the side buffer (R133, R142-R145, R259-R264, R410). -/

namespace Sys2Proof.Machine
open Sys2Proof.Claims

variable {s t : State}

section
variable {g : Group} (h : GroupsKept s t)
include h

theorem GroupsKept.run (i : Nat) : (t.group i).run = (s.group i).run :=
  show (t.group i).lasting.run = (s.group i).lasting.run from congrArg _ (h.lasting i)

theorem GroupsKept.state (i : Nat) : (t.group i).state = (s.group i).state :=
  show (t.group i).lasting.state = (s.group i).lasting.state from congrArg _ (h.lasting i)

theorem GroupsKept.save (i : Nat) : (t.group i).save = (s.group i).save :=
  show (t.group i).lasting.save = (s.group i).lasting.save from congrArg _ (h.lasting i)
end

/-! ### Groups as a launch starts them (R171, R410) -/

/-- The registers that hold a launch's arguments. -/
def argRegs (l : Launch) (n : Nat) : SMap Dword :=
  (List.range n).foldl (fun m k => mapSet 0 m (k + 1) ((l.args[k]?.getD 0).setWidth 64)) []

theorem argRegs_succ (l : Launch) (n : Nat) :
    argRegs l (n + 1) = mapSet 0 (argRegs l n) (n + 1) ((l.args[n]?.getD 0).setWidth 64) := by
  rw [argRegs, List.range_succ, List.foldl_append]
  rfl

theorem mapGet_argRegs (l : Launch) (n r : Nat) :
    mapGet 0 (argRegs l n) r = if 1 ≤ r ∧ r ≤ n then (l.args[r - 1]?.getD 0).setWidth 64 else 0 := by
  induction n with
  | zero => rw [if_neg (by omega)]; rfl
  | succ n ih =>
    rw [argRegs_succ]
    by_cases hr : r = n + 1
    · rw [hr, mapGet_mapSet_same, if_pos (by omega), Nat.add_sub_cancel]
    · rw [mapGet_mapSet_other _ _ _ _ _ hr, ih]
      congr 1
      simp only [eq_iff_iff]
      omega

section
variable {l : Launch} {li team gid core slot frame now : Nat} {g : Group}

theorem newGroup_get (r : BitVec 6) : (newGroup l li team gid core slot frame now).st.get r =
    if 1 ≤ r.toNat ∧ r.toNat ≤ 8 then (l.args[r.toNat - 1]?.getD 0).setWidth 64 else 0 := by
  by_cases hr : r = 0
  · subst hr
    rfl
  · rw [← mapGet_argRegs, Strand.get, if_neg hr]
    rfl

theorem startsAs_newGroup : StartsAs l li team gid (newGroup l li team gid core slot frame now) where
  identity := ⟨rfl, rfl, rfl, rfl⟩
  strand := ⟨rfl, rfl, rfl⟩
  args k hk := by
    have hk' : (BitVec.ofNat 6 (k + 1)).toNat = k + 1 := by simp; omega
    rw [newGroup_get, hk', if_pos (by omega), Nat.add_sub_cancel]
  others q hq := by
    rw [newGroup_get, if_neg]
    rintro ⟨h1, h2⟩
    obtain rfl | h9 := hq
    · exact absurd h1 (by decide)
    · omega
  special := ⟨rfl, rfl, rfl, rfl, rfl, rfl⟩

theorem startsAs_lasting : StartsAs l li team gid g.lasting ↔ StartsAs l li team gid g :=
  ⟨fun h => ⟨h.identity, h.strand, h.args, h.others, h.special⟩,
    fun h => ⟨h.identity, h.strand, h.args, h.others, h.special⟩⟩
end

theorem GroupsKept.startsAs {l : Launch} {li team gid i : Nat} (h : GroupsKept s t)
    (hs : StartsAs l li team gid (s.group i)) : StartsAs l li team gid (t.group i) := by
  rw [← startsAs_lasting, h.lasting, startsAs_lasting]
  exact hs

/-- The launches are as before, and the first `n` groups of a team follow the groups that there were, as the launch says. -/
structure TeamStarts (s : State) (li team n : Nat) (t : State) : Prop where
  launches : t.launches = s.launches
  length : t.groups.length = s.groups.length + n
  fresh : ∀ k, k < n → StartsAs (s.launch li) li team k (t.group (s.groups.length + k))

theorem TeamStarts.kept {li team n : Nat} {u : State} (h : TeamStarts s li team n t) (hu : GroupsKept t u) :
    TeamStarts s li team n u :=
  ⟨hu.launches.trans h.launches, hu.length.trans h.length, fun k hk => hu.startsAs (h.fresh k hk)⟩

theorem TeamStarts.append {li team n core slot frame now : Nat} (h : TeamStarts s li team n t) :
    TeamStarts s li team (n + 1)
      { t with groups := t.groups ++ [newGroup (s.launch li) li team n core slot frame now] } where
  launches := h.launches
  length := by
    show (t.groups ++ _).length = _
    rw [List.length_append, h.length]
    rfl
  fresh k hk := by
    show StartsAs _ _ _ _ ((t.groups ++ _)[s.groups.length + k]?.getD default)
    by_cases hkn : k < n
    · rw [List.getElem?_append_left (by rw [h.length]; omega)]
      exact h.fresh k hkn
    · obtain rfl : k = n := by omega
      rw [← h.length, List.getElem?_concat_length]
      exact startsAs_newGroup

theorem TeamStarts.startGroup {li team n core frame : Nat} (h : TeamStarts s li team n t) :
    TeamStarts s li team (n + 1) (startGroup li team core frame t n) := by
  have hl : t.launch li = s.launch li := by rw [State.launch, h.launches, State.launch]
  simp only [Machine.startGroup, hl]
  exact h.append.kept (GroupsKept.refl _).ref.codeRef

theorem teamStarts_foldl (s : State) (li team core frame n : Nat) :
    TeamStarts s li team n ((List.range n).foldl (Machine.startGroup li team core frame) s) := by
  induction n with
  | zero => exact ⟨rfl, rfl, fun k hk => absurd hk (Nat.not_lt_zero k)⟩
  | succ n ih =>
    rw [List.range_succ, List.foldl_append]
    exact ih.startGroup

theorem TeamStarts.ungate {li team n core asid : Nat} (h : TeamStarts s li team n t) :
    TeamStarts s li team n (ungate t core asid) :=
  ⟨h.launches, h.length, h.fresh⟩

theorem State.launch_setLaunch (s : State) (i : Nat) (l : Launch) (h : i < s.launches.length) :
    (s.setLaunch i l).launch i = l := by
  simp [State.launch, State.setLaunch, listSet_get_same _ _ _ h]

theorem startsAs_started {l : Launch} {li team gid : Nat} {ts : List Nat} {g : Group}
    (h : StartsAs { l with started := ts } li team gid g) : StartsAs l li team gid g :=
  ⟨h.identity, h.strand, h.args, h.others, h.special⟩

/-- The state in which a fresh waiter's groups start: its launch names the team and the team stands in the table. -/
def teamReady (s : State) (w : Waiting) (core : Nat) : State :=
  let l := s.launch w.launch
  { s.setLaunch w.launch { l with started := l.started ++ [w.team] } with
    teams := s.teams ++ [⟨w.launch, w.team, core,
      s.pick 52 ((freeTeamFrames s l).headD 0) (freeTeamFrames s l), [], [], [], false, false⟩] }

theorem startTeam_eq (s : State) (w : Waiting) (core : Nat) :
    startTeam s w core =
      ungate (ungate ((List.range (s.launch w.launch).teamSize).foldl (startGroup w.launch w.team core 0)
          (teamReady s w core)) core (s.launch w.launch).asid)
        (if (s.launch w.launch).pair then otherCore core else core) (s.launch w.launch).asid := rfl

theorem launch_teamReady {w : Waiting} {core : Nat} (hw : w.launch < s.launches.length) :
    (teamReady s w core).launch w.launch =
      { s.launch w.launch with started := (s.launch w.launch).started ++ [w.team] } :=
  s.launch_setLaunch w.launch _ hw

theorem startTeam_starts {w : Waiting} {core : Nat} (hw : w.launch < s.launches.length) :
    (startTeam s w core).groups.length = s.groups.length + (s.launch w.launch).teamSize ∧
      ((startTeam s w core).launch w.launch).started = (s.launch w.launch).started ++ [w.team] ∧
      ∀ k, k < (s.launch w.launch).teamSize →
        StartsAs (s.launch w.launch) w.launch w.team k ((startTeam s w core).group (s.groups.length + k)) := by
  have hl := launch_teamReady (core := core) hw
  have h : TeamStarts (teamReady s w core) w.launch w.team (s.launch w.launch).teamSize (startTeam s w core) :=
    startTeam_eq s w core ▸ (teamStarts_foldl ..).ungate.ungate
  refine ⟨h.length, ?_, fun k hk => ?_⟩
  · have e : (startTeam s w core).launch w.launch = _ := (congrArg (·[w.launch]?.getD default) h.launches).trans hl
    rw [e]
  · have hs := h.fresh k hk
    rw [hl] at hs
    exact startsAs_started hs

/-! ### The first waiter that fits (R142, R143) -/

theorem launch_of_mem_launchWaiters {die li : Nat} {w : Waiting} (h : w ∈ launchWaiters s die li) : w.launch = li := by
  simp only [launchWaiters, List.mem_rotate, List.mem_append, List.mem_map] at h
  obtain ⟨i, -, rfl⟩ | h := h
  · rfl
  · split at h
    · simp only [Option.mem_toList, Option.map_eq_some_iff] at h
      obtain ⟨t, -, rfl⟩ := h
      rfl
    · exact absurd h List.not_mem_nil

theorem launch_lt_of_mem_waiters {die : Nat} {w : Waiting} (h : w ∈ waiters s die) : w.launch < s.launches.length := by
  simp only [waiters, List.mem_flatMap, List.mem_filter, List.mem_range] at h
  obtain ⟨p, -, li, ⟨⟨hli, -⟩, -⟩, hw⟩ := h
  rw [launch_of_mem_launchWaiters hw]
  exact hli

theorem execResidency_fits {die core : Nat} {w : Waiting} {ws : List Waiting} (hdie : die < 24) (hst : stage s = 6)
    (hc : s.claims = []) (hsave : waitingSave s die = none) (hws : waiters s die = w :: ws) (hgrp : w.grp = none)
    (hf : framesFor s w = true) (hp : (placesFor s w die).find? (fun c => fitsAt s [] w c []) = some core) :
    execResidency die s = .next (startTeam s w core) := by
  have hclaims : ({ s with claims := [] } : State) = s := by rw [← hc]
  have hres : residencyFrom s die [] (w :: ws) = takeIn s w core := by
    simp only [residencyFrom, hf, if_true, hp]
  have htake : takeIn s w core = startTeam s w core := by
    simp only [takeIn, hgrp, hc, List.filter_nil, hclaims]
  have hstop : (stage s != 6 || decide (24 ≤ die)) = false := by
    rw [hst, decide_eq_false (Nat.not_le.mpr hdie)]
    rfl
  simp only [execResidency, hstop, hsave, hws, liveClaims, hc, List.filter_nil, hclaims, hres, htake,
    Bool.false_eq_true, if_false]

/-! ### Saves (R144, R261, R262) -/

/-- The state in which the image of a group is taken: its block is rolled back, its stores are performed, and it waits at
no barrier and holds no latch. -/
def saveReady (s : State) (g : Nat) : State :=
  let u := forgetBad (pub (rollbackGroup s g) g 5) g
  loseLatches (dropWaiter u (u.group g)) (u.group g)

theorem loseLatches_groups (s : State) (g : Group) : (loseLatches s g).groups = s.groups := rfl

theorem dropWaiter_groups (s : State) (g : Group) : (dropWaiter s g).groups = s.groups := rfl

theorem forgetBad_groups (s : State) (g : Nat) : (forgetBad s g).groups = s.groups := rfl

theorem saveReady_length (s : State) (g : Nat) : (saveReady s g).groups.length = s.groups.length := by
  have hroll : (rollbackGroup s g).groups.length = s.groups.length := by
    rw [rollbackGroup, State.setGroup_length]
    split <;> rfl
  rw [saveReady, loseLatches_groups, dropWaiter_groups, forgetBad_groups, (GroupsKept.refl _).pub.length, hroll]

theorem saveGroup_eq (s : State) (g : Nat) (job : SaveJob) :
    saveGroup s g job = (saveReady s g).setGroup g { (saveReady s g).group g with
      run := .saving
      save := some job
      saveReq := none
      quantum := false } := rfl

theorem saveGroup_group {g : Nat} {job : SaveJob} (hg : g < s.groups.length) :
    ((saveGroup s g job).group g).run = .saving ∧ ((saveGroup s g job).group g).saveReq = none ∧
      ((saveGroup s g job).group g).save = some job := by
  rw [← saveReady_length s g] at hg
  rw [saveGroup_eq, State.group_setGroup_same _ _ _ hg]
  exact ⟨rfl, rfl, rfl⟩

theorem GroupsKept.writeFrame {g : Group} {s0 : State} (h : GroupsKept s0 s) : GroupsKept s0 (writeFrame s g) :=
  h.foldl (fun ht => ht.performDwords)

theorem GroupsKept.saveStore {i : Nat} {s0 : State} (h : GroupsKept s0 s) : GroupsKept s0 (saveStore s i) :=
  .ite h (h.foldl (fun ht => ht.performDwords)).update

/-- A group that is away with the state a save asked for. -/
def Away (job : SaveJob) (g : Group) : Prop :=
  g.run = .away ∧ g.state = job.st ∧ g.save = none

theorem Away.popq {job : SaveJob} {g : Group} {ws : SMap (List Dword)} (h : Away job g) :
    Away job { g with popq := ws } := h

theorem GroupsKept.away {job : SaveJob} {i : Nat} (h : GroupsKept s t) (hs : Away job (s.group i)) :
    Away job (t.group i) := by
  rw [Away, h.run, h.state, h.save]
  exact hs

/-- A group as the end of a save leaves it, before its words for the queue registers go. -/
def savedGroup (s : State) (gi : Nat) (job : SaveJob) : Group :=
  let g := s.group gi
  let l := s.launchOf g
  { g with
    state := job.st
    full := job.full
    vmap := if job.full then BitVec.ofNat 64 (2 ^ (2 * l.vregs) - 1) else job.vmap
    lsmap := if job.full then lsAll l else job.lsmap
    save := none
    run := .away
    eligible := job.eligible && !waitHolds s gi }

theorem savedGroup_away (s : State) (gi : Nat) (job : SaveJob) : Away job (savedGroup s gi job) := ⟨rfl, rfl, rfl⟩

/-- The state in which the frame of a saved group has been written. -/
def frameWritten (s : State) (gi : Nat) (job : SaveJob) : State :=
  writeFrame (s.setGroup gi (savedGroup s gi job)) (savedGroup s gi job)

/-- The state in which a saved group holds the words that its frame has no room for. -/
def wordsHeld (s : State) (gi : Nat) (job : SaveJob) : State :=
  (frameWritten s gi job).setGroup gi { (frameWritten s gi job).group gi with
    popq := ((savedGroup s gi job).popq.map (fun p => (p.1, p.2.drop 16))).filter (fun p => p.2 != []) }

theorem frameWritten_kept (s : State) (gi : Nat) (job : SaveJob) :
    GroupsKept (s.setGroup gi (savedGroup s gi job)) (frameWritten s gi job) :=
  (GroupsKept.refl _).writeFrame

/-- The state in which a save has only its fault record to post. -/
def storeSaved (s : State) (gi : Nat) (job : SaveJob) : State :=
  let g := savedGroup s gi job
  let u := performDwords (wordsHeld s gi job) (frameAddr (wordsHeld s gi job) g + 0xE00) job.fatal
  saveStore u (u.teamOf g)

theorem storeSaved_kept (s : State) (gi : Nat) (job : SaveJob) : GroupsKept (wordsHeld s gi job) (storeSaved s gi job) :=
  (GroupsKept.refl _).performDwords.saveStore

theorem finishSave_eq (s : State) (gi : Nat) (job : SaveJob) :
    finishSave s gi job = job.post.elim (storeSaved s gi job) (postFault (storeSaved s gi job)) := by
  cases hp : job.post <;> rw [finishSave, hp] <;> rfl

theorem finishSave_kept (s : State) (gi : Nat) (job : SaveJob) : GroupsKept (wordsHeld s gi job) (finishSave s gi job) := by
  rw [finishSave_eq]
  cases job.post with
  | none => exact storeSaved_kept s gi job
  | some f => exact (storeSaved_kept s gi job).postFault

theorem finishSave_away {g : Nat} {job : SaveJob} (hg : g < s.groups.length) :
    Away job ((finishSave s g job).group g) := by
  have hk := frameWritten_kept s g job
  have hlen : g < (frameWritten s g job).groups.length := by
    rw [hk.length, State.setGroup_length]
    exact hg
  have hframe : Away job ((frameWritten s g job).group g) := by
    refine hk.away ?_
    rw [State.group_setGroup_same _ _ _ hg]
    exact savedGroup_away s g job
  refine (finishSave_kept s g job).away ?_
  rw [wordsHeld, State.group_setGroup_same _ _ _ hlen]
  exact hframe.popq

theorem ungateLeft_groups (s : State) (core asid : Nat) : (ungateLeft s core asid).groups = s.groups := by
  rw [ungateLeft]
  split <;> rfl

theorem foldl_ungateLeft_groups {f : State → Nat → Nat} (cs : List Nat) (s : State) :
    (cs.foldl (fun s c => ungateLeft s c (f s c)) s).groups = s.groups := by
  induction cs generalizing s with
  | nil => rfl
  | cons c cs ih => exact (ih _).trans (ungateLeft_groups ..)

theorem execSaveCompletion_away {g : Nat} {job : SaveJob} (hg : g < s.groups.length) (hrun : (s.group g).run = .saving)
    (hsave : (s.group g).save = some job) (hready : pubReady s g 5 = true) :
    ∃ t, exec (.saveCompletion g) s = .next t ∧ Away job (t.group g) := by
  refine ⟨_, show execSaveCompletion g s = .next _ from rfl, ?_⟩
  simp only [hrun, hsave, hready, Bool.not_true, Bool.false_eq_true, if_false]
  rw [State.group, foldl_ungateLeft_groups]
  exact finishSave_away hg

/-! ### The side buffer (R133) -/

theorem releaseSide_push {e : SideEntry} {fuel : Nat} (hs : s.cur.grp < s.groups.length) (hside : s.grp.side = [e])
    (hb : e.behind = 0) (hp : e.isPush = true) (hroom : s.grp.pushRoom e.q 1 = true) (hv : s.grp.vqinOn e.q = false) :
    releaseSide s (fuel + 1) = s.setGrp ({ s.grp with side := [] }.push e.q e.data) := by
  have hnil : (s.setGrp ({ s.grp with side := [] }.push e.q e.data)).grp.side = [] := by
    rw [State.grp_setGrp _ _ hs]
    rfl
  rw [releaseSide]
  simp only [hside, hb, hp, hroom, hv, ne_eq, not_true_eq_false, if_false, if_true, Bool.not_false, Bool.and_self]
  exact releaseSide_of_nil hnil fuel

/-- The state in which the moving agent works for a group. -/
def State.at (s : State) (g : Nat) : State := { s with cur := { s.cur with grp := g } }

theorem execSideBufferRelease_push {g : Nat} {e : SideEntry} (hg : g < s.groups.length)
    (hrun : (s.group g).run = .resident) (hside : (s.group g).side = [e]) (hb : e.behind = 0) (hp : e.isPush = true)
    (hroom : (s.group g).pushRoom e.q 1 = true) (hv : (s.group g).vqinOn e.q = false) :
    exec (.sideBufferRelease g) s =
      .next ((s.at g).setGroup g ({ s.group g with side := [] }.push e.q e.data)) := by
  have hr : ((s.group g).run == Run.resident) = true := by
    rw [hrun]
    rfl
  have hrel := releaseSide_push (s := s.at g) (fuel := 15) hg hside hb hp hroom hv
  exact congrArg Host.Outcome.next ((if_pos hr).trans hrel)

theorem group_setGroup_at {g : Nat} (x : Group) (hg : g < s.groups.length) : ((s.at g).setGroup g x).group g = x :=
  (s.at g).group_setGroup_same g x hg

end Sys2Proof.Machine
end

section
open Sys2Proof.Machine Sys2Proof.Claims

/-- Settles O54: the launch's groups are appended one by one, each as its launch says, and what follows changes nothing
that lasts; the same frame carries a save to its end; a push with room leaves at the first turn of the release. -/
theorem residencyAndSaves : Obligations.ResidencyAndSaves := by
  refine ⟨?_, fun g s hg => ⟨?_, ?_, ?_, ?_⟩⟩
  · intro die core s w ws hdie hst hc hsave hws hgrp hf hp
    have hw : w ∈ waiters s die := hws ▸ List.mem_cons_self
    exact ⟨_, execResidency_fits hdie hst hc hsave hws hgrp hf hp, startTeam_starts (launch_lt_of_mem_waiters hw)⟩
  · intro hrun
    show execQuantumExpiry g s = _
    rw [execQuantumExpiry, hrun]
    rfl
  · intro hrun hreq hfl
    refine ⟨saveGroup s g fullSave, ?_, saveGroup_group hg⟩
    show execPretmoExpiry g s = _
    simp [execPretmoExpiry, hrun, hfl, Option.isSome_iff_ne_none.mpr hreq]
  · exact fun job => execSaveCompletion_away hg
  · intro e hrun hside hb hp hroom hv
    refine ⟨_, execSideBufferRelease_push hg hrun hside hb hp hroom hv, ?_⟩
    rw [group_setGroup_at _ hg]
    exact ⟨rfl, mapGet_mapSet_same .., rfl⟩

end

