-- ==== Sys2Proof/Proofs/EngineCommands.lean ====
section
/-! An engine's commands from their words to their status word (R146, R322-R324, R352-R354). -/

namespace Sys2Proof.Machine
open Sys2Proof.Claims

variable {s0 s t : State}

/-! ### Submission (R146, R352, R354) -/

/-- The command that the words of the executing group's queue register make. -/
def newCmd (s : State) (ws : List Dword) : Cmd :=
  let g := s.grp
  let q := s.cur.qreg
  let kind := kindOf g q
  let cls := kindClass kind
  ⟨s.nextId, kind, qbindUnit g q, s.cur.grp, q, ws, .waiting, [], s.ord, 0, 0, false, none, [], mapGet 0 g.fences cls,
    (g.vis.filter (fun v => v.1 == cls)).map Prod.snd, s.nextId⟩

/-- The state in which the engine has taken the words and keeps the command. -/
def submitted (s : State) (ws : List Dword) : State :=
  { s.setGrp (s.grp.popPush s.cur.qreg ws.length) with
    cmds := s.cmds ++ [newCmd s ws]
    nextId := s.nextId + 1 }

theorem bits_qbindOf (g : Group) (q : Nat) : bits (qbindOf g q) 3 0 = kindOf g q := by
  rw [bits, pow_zero, Nat.div_one]
  rfl

theorem submit_eq {ws : List Dword} {start : State → Cmd → State}
    (hk : cmdOpc (ws.headD 0) ∈ engineOps (kindOf s.grp s.cur.qreg)) :
    submit s ws start = .next (if (newCmd s ws).headerOk = true then start (submitted s ws) (newCmd s ws)
      else failCmd (submitted s ws) (newCmd s ws) 0x01) := by
  have hknown := List.contains_iff_mem.mpr hk
  simp only [submit, bits_qbindOf, hknown, if_true, Bool.not_true, Bool.false_or]
  cases h : (newCmd s ws).headerOk
  · exact congrArg Host.Outcome.next (if_pos (congrArg (!·) h))
  · exact congrArg Host.Outcome.next (if_neg (by
      rw [Bool.not_eq_true]
      exact congrArg (!·) h))

theorem headerOk_iff (c : Cmd) : c.headerOk = true ↔
    c.word 0 / 2 ^ 34 % 2 ^ 6 = 0 ∧ c.word 0 / 2 ^ 18 % 2 ^ 14 = 0 ∧ c.word 0 / 2 ^ 6 % 2 ^ 6 = 0 := by
  simp only [Cmd.headerOk, bits, Bool.and_eq_true, beq_iff_eq, and_assoc]

theorem word_zero (c : Cmd) : c.word 0 = (c.words.headD 0).toNat := by
  rw [Cmd.word, ← List.head?_eq_getElem?, List.headD_eq_head?_getD]

theorem accepted_submitted {kind : Nat} {ws : List Dword} (hg : s.cur.grp < s.groups.length)
    (hk : kindOf s.grp s.cur.qreg = kind) : Accepted s (submitted s ws) kind ws (newCmd s ws) where
  command := ⟨rfl, hk, rfl, rfl, rfl⟩
  begins := ⟨rfl, rfl, rfl, rfl⟩
  kept := rfl
  taken := by
    have h : (submitted s ws).grp = s.grp.popPush s.cur.qreg ws.length := s.grp_setGrp _ hg
    rw [h]
    exact mapGet_mapSet_same ..
  rest := rfl

theorem submit_accepts {kind : Nat} {ws : List Dword} {start : State → Cmd → State}
    (hg : s.cur.grp < s.groups.length) (hk : kindOf s.grp s.cur.qreg = kind)
    (hopc : cmdOpc (ws.headD 0) ∈ engineOps kind) :
    ∃ u c, Accepted s u kind ws c ∧
      submit s ws start = .next (if (ws.headD 0).toNat / 2 ^ 34 % 2 ^ 6 = 0 ∧ (ws.headD 0).toNat / 2 ^ 18 % 2 ^ 14 = 0 ∧
        (ws.headD 0).toNat / 2 ^ 6 % 2 ^ 6 = 0 then start u c else failCmd u c 0x01) := by
  refine ⟨submitted s ws, newCmd s ws, accepted_submitted hg hk, ?_⟩
  rw [submit_eq (hk ▸ hopc)]
  simp only [headerOk_iff, word_zero]
  rfl

/-- Where no copy is gated there is none whose progress record is to be scanned out. -/
theorem scanOutCopies_of_not_gated {core asid : Nat} (h : ∀ c ∈ s.cmds, c.gated = false) :
    scanOutCopies s core asid = s := by
  have hnone : s.cmds.filter (fun c => c.eng == 1 && c.unit == core && c.gated && c.prog.isNone && cmdAsid s c != asid) =
      [] := by
    rw [List.filter_eq_nil_iff]
    intro c hc
    simp [h c hc]
  rw [scanOutCopies, hnone]
  rfl

theorem execCopy_eq_submit {w0 w1 w2 w3 w4 : Dword} (hk : kindOf s.grp s.cur.qreg = 1)
    (h : ∀ c ∈ s.cmds, c.gated = false) :
    exec (.copy w0 w1 w2 w3 w4) s = submit s [w0, w1, w2, w3, w4] copyStart := by
  show execCopy w0 w1 w2 w3 w4 s = _
  simp only [execCopy, hk, beq_self_eq_true, if_true, scanOutCopies_of_not_gated h]

/-- Every engine command is a submission of its words. -/
theorem exec_eq_submit {i : Instr} {kind : Nat} {ws : List Dword} {start : State → Cmd → State}
    (hi : commandForm i = some (kind, ws, start)) (hk : kindOf s.grp s.cur.qreg = kind)
    (h : kind = 1 → ∀ c ∈ s.cmds, c.gated = false) : exec i s = submit s ws start := by
  cases i
  case copy =>
    cases hi
    exact execCopy_eq_submit hk (h rfl)
  case bag | upd | ngemv | srch | allred | redscat | allgath | bcast | cbar | topkmerge | mcast =>
    cases hi
    rfl
  all_goals cases hi

/-! ### Translation (R322-R324) -/

theorem mem_putCmd {c c' : Cmd} (h : ∃ x ∈ s.cmds, x.id = c.id) (hid : c'.id = c.id) : c' ∈ (putCmd s c').cmds := by
  obtain ⟨x, hx, hxc⟩ := h
  exact List.mem_map.mpr ⟨x, hx, if_pos (beq_iff_eq.mpr (hxc.trans hid.symm))⟩

theorem mem_of_kept {c : Cmd} (h : GroupsKept s t) (hc : c ∈ s.cmds) : c ∈ t.cmds := h.cmds ▸ hc

theorem GroupsKept.dirQuery {die gpn : Nat} (h : GroupsKept s0 s) : GroupsKept s0 (dirQuery s die gpn) := by
  unfold Machine.dirQuery
  split
  · exact h.update
  · exact .ite h h.update.performBytes

theorem GroupsKept.noteMig {die : Nat} {gpn : Option Nat} (h : GroupsKept s0 s) : GroupsKept s0 (noteMig s die gpn) := by
  unfold Machine.noteMig
  split
  · exact h
  · dsimp only
    split
    · exact .ite h.dirQuery h.dirQuery.update
    · exact h.dirQuery

theorem GroupsKept.notePin {c : Cmd} {p : Pin} (h : GroupsKept s0 s) : GroupsKept s0 (notePin s c p) :=
  (GroupsKept.ite h h.update).noteMig

section
variable {c : Cmd} (h : ∃ x ∈ s.cmds, x.id = c.id)
include h

theorem holdCmd_mem : { c with state := .waiting, trans := [] } ∈ (holdCmd s c).cmds :=
  mem_of_kept (GroupsKept.refl _).pinCount (mem_putCmd h rfl)

theorem deferCmd_mem (va level acc : Nat) :
    { c with state := .deferred (freeDidx s c), trans := [] } ∈ (deferCmd s c va level acc).cmds :=
  mem_of_kept (GroupsKept.refl _).pinCount.postFault (mem_putCmd (s := forgetBad s (cmdGroup c.id)) h rfl)

theorem takePins_mem {ps : List Pin} {k : State → Cmd → State} (hroom : roomFor s ps = true) :
    ∃ u c', takePins s c ps k = k u c' ∧ c' ∈ u.cmds ∧ c'.trans = c.trans ++ ps ∧
      { c' with
        trans := c.trans
        accepted := c.accepted } = c := by
  have hnote : GroupsKept s (ps.foldl (fun s p => notePin s c p) { s with nextId := s.nextId + 1 }) :=
    (GroupsKept.refl s).update.foldl (fun ht => ht.notePin)
  refine ⟨_, _, if_neg (by rw [hroom]; decide), mem_of_kept (GroupsKept.refl _).pinCount (mem_putCmd (c := c) ?_ rfl),
    rfl, rfl⟩
  rw [hnote.cmds]
  exact h

end

/-! ### Acceptance (R146) -/

theorem execEngineAcceptance_oldest {id : Nat} {c : Cmd} (hc : cmdOf s id = some c) (hw : c.state = .waiting)
    (hfirst : (s.cmds.find? (fun x => x.sameEngine c && x.state == .waiting)).map Cmd.id = some id) :
    exec (.engineAcceptance id) s = .next (startCmd s { c with stamp := s.ord }) := by
  show execEngineAcceptance id s = _
  simp only [execEngineAcceptance, hc, hw, hfirst, beq_self_eq_true, Bool.and_self, if_true]

/-! ### Status words (R353) -/

/-- The words that wait for a group in a queue register. -/
def popqAt (s : State) (g q : Nat) : List Dword := mapGet [] (s.group g).popq q

theorem GroupsKept.popqAt (h : GroupsKept s t) (g q : Nat) : popqAt t g q = popqAt s g q := by
  have hp : (t.group g).lasting.popq = (s.group g).lasting.popq := congrArg _ (h.lasting g)
  exact congrArg (mapGet [] · q) hp

/-- The earlier of the command found so far and another. -/
def earlier (b : Option Cmd) (c : Cmd) : Option Cmd :=
  match b with
  | none => some c
  | some x => if c.id < x.id then some c else b

theorem firstCmd_eq (s : State) (g q : Nat) :
    firstCmd s g q = (s.cmds.filter (fun c => c.grp == g && c.qreg == q)).foldl earlier none := rfl

theorem foldl_earlier_map {f : Cmd → Cmd} (hf : ∀ x, (f x).id = x.id) (xs : List Cmd) (b : Option Cmd) :
    (xs.map f).foldl earlier (b.map f) = (xs.foldl earlier b).map f := by
  induction xs generalizing b with
  | nil => rfl
  | cons x xs ih =>
    have hx : earlier (b.map f) (f x) = (earlier b x).map f := by
      cases b with
      | none => rfl
      | some y =>
        simp only [earlier, Option.map_some, hf]
        split <;> rfl
    rw [List.map_cons, List.foldl_cons, hx, ih, List.foldl_cons]

/-- A change of one command that keeps its identity and its register keeps which command is the earliest. -/
theorem firstCmd_putCmd {c c' : Cmd} {g q : Nat} (hfirst : firstCmd s g q = some c) (hid : c'.id = c.id)
    (hgrp : c'.grp = c.grp) (hqreg : c'.qreg = c.qreg) (huniq : ∀ x ∈ s.cmds, x.id = c.id → x = c) :
    firstCmd (putCmd s c') g q = some c' := by
  have hput : (putCmd s c').cmds = s.cmds.map (fun x => if x.id == c'.id then c' else x) := rfl
  have hkeep : ∀ x, (if x.id == c'.id then c' else x).id = x.id := by
    intro x
    split
    next hx => exact (beq_iff_eq.mp hx).symm
    · rfl
  have hreg : ∀ x ∈ s.cmds, ((fun x : Cmd => x.grp == g && x.qreg == q) ∘ fun x => if x.id == c'.id then c' else x) x =
      (x.grp == g && x.qreg == q) := by
    intro x hx
    by_cases hxc : x.id = c'.id
    · rw [Function.comp, if_pos (beq_iff_eq.mpr hxc), huniq x hx (hxc.trans hid), hgrp, hqreg]
    · rw [Function.comp, if_neg (mt beq_iff_eq.mp hxc)]
  rw [firstCmd_eq, hput, List.filter_map, List.filter_congr hreg]
  have hmap := foldl_earlier_map hkeep (s.cmds.filter (fun x => x.grp == g && x.qreg == q)) none
  rw [Option.map_none] at hmap
  rw [hmap, ← firstCmd_eq, hfirst, Option.map_some, if_pos (beq_iff_eq.mpr hid.symm)]

/-- A group with one more word in a queue register. -/
def Group.popAdd (x : Group) (q : Nat) (w : Dword) : Group :=
  { x with popq := mapSet [] x.popq q (mapGet [] x.popq q ++ [w]) }

/-- The state without a command. -/
def withoutCmd (s : State) (c : Cmd) : State := { s with cmds := s.cmds.filter (fun x => x.id != c.id) }

/-- The state in which the status word of a completed command is placed. -/
def placed (s : State) (g q : Nat) (c : Cmd) : State :=
  if c.sts || c.code != 0 then (withoutCmd s c).setGroup g ((s.group g).popAdd q (statusWord c)) else withoutCmd s c

theorem placeWords_succ {g q fuel : Nat} {c : Cmd} (hc : firstCmd s g q = some c) (hd : c.state = .done) :
    placeWords s g q (fuel + 1) = placeWords (placed s g q c) g q fuel := by
  simp only [placeWords, hc, hd, beq_self_eq_true, if_true]
  rfl

theorem placed_cmds (s : State) (g q : Nat) (c : Cmd) : (placed s g q c).cmds = s.cmds.filter (fun x => x.id != c.id) := by
  unfold placed
  split <;> rfl

theorem placed_length (s : State) (g q : Nat) (c : Cmd) : (placed s g q c).groups.length = s.groups.length := by
  unfold placed
  split
  · exact State.setGroup_length ..
  · rfl

theorem popqAt_placed {g q : Nat} {c : Cmd} (hg : g < s.groups.length) :
    popqAt (placed s g q c) g q = popqAt s g q ++ if c.sts || c.code != 0 then [statusWord c] else [] := by
  unfold placed
  split
  · rw [popqAt, (withoutCmd s c).group_setGroup_same _ _ hg]
    exact mapGet_mapSet_same ..
  · exact (List.append_nil _).symm

theorem placeWords_appends {g q fuel : Nat} (hg : g < s.groups.length) :
    (placeWords s g q fuel).cmds ⊆ s.cmds ∧ ∃ ws, popqAt (placeWords s g q fuel) g q = popqAt s g q ++ ws := by
  induction fuel generalizing s with
  | zero => exact ⟨List.Subset.refl _, [], (List.append_nil _).symm⟩
  | succ fuel ih =>
    have hstay : s.cmds ⊆ s.cmds ∧ ∃ ws, popqAt s g q = popqAt s g q ++ ws :=
      ⟨List.Subset.refl _, [], (List.append_nil _).symm⟩
    cases hc : firstCmd s g q with
    | none => simpa only [placeWords, hc] using hstay
    | some c =>
      by_cases hd : c.state = .done
      · obtain ⟨hsub, ws, hws⟩ := ih (s := placed s g q c) (placed_length s g q c ▸ hg)
        rw [placeWords_succ hc hd]
        refine ⟨List.Subset.trans hsub (placed_cmds s g q c ▸ List.filter_subset_self ..), ?_⟩
        rw [hws, popqAt_placed hg, List.append_assoc]
        exact ⟨_, rfl⟩
      · simpa only [placeWords, hc, beq_iff_eq, hd, if_false] using hstay

/-! ### Completion (R353, R355) -/

theorem GroupsKept.endColl {c : Cmd} (h : GroupsKept s0 s) : GroupsKept s0 (endColl s c) :=
  .ite h.update.regSet h

theorem GroupsKept.arriveCmd {c : Cmd} (h : GroupsKept s0 s) : GroupsKept s0 (arriveCmd s c) :=
  .ite h (.ite h (.ite h.arriveAt h.postFault))

/-- A command with its outcome, ready to leave its status word. -/
def Cmd.over (c : Cmd) (code count : Nat) : Cmd :=
  { c with state := .done, code := code, count := count, trans := [], prog := none }

/-- The state in which a command is over and no status word is placed yet. -/
def cmdOver (s : State) (c : Cmd) (code count : Nat) : State :=
  let u := pinCount (putCmd (endColl s c) (c.over code count)) c.trans false
  let u : State := { forgetBad u (cmdGroup c.id) with remote := u.remote.filter (fun r => r.grp != cmdGroup c.id) }
  u.setGroup c.grp { u.group c.grp with engw := c.wrote ++ (u.group c.grp).engw }

theorem completeCmd_eq (s : State) (c : Cmd) (code count : Nat) :
    completeCmd s c code count =
      arriveCmd (placeWords (cmdOver s c code count) c.grp c.qreg ((cmdOver s c code count).cmds.length + 1))
        (c.over code count) := rfl

theorem cmdOver_kept (s : State) (c : Cmd) (code count : Nat) :
    GroupsKept (putCmd (endColl s c) (c.over code count)) (cmdOver s c code count) :=
  (GroupsKept.refl _).pinCount.update.setGroup rfl

theorem firstCmd_of_cmds {g q : Nat} (h : t.cmds = s.cmds) : firstCmd t g q = firstCmd s g q := by
  rw [firstCmd_eq, h, firstCmd_eq]

theorem firstCmd_cmdOver {c : Cmd} {code count : Nat} (hfirst : firstCmd s c.grp c.qreg = some c)
    (huniq : ∀ x ∈ s.cmds, x.id = c.id → x = c) :
    firstCmd (cmdOver s c code count) c.grp c.qreg = some (c.over code count) := by
  have hend : (endColl s c).cmds = s.cmds := (GroupsKept.refl s).endColl.cmds
  rw [firstCmd_of_cmds (cmdOver_kept s c code count).cmds]
  refine firstCmd_putCmd (c := c) ?_ rfl rfl rfl (hend ▸ huniq)
  rw [firstCmd_of_cmds hend, hfirst]

theorem popqAt_cmdOver (s : State) (c : Cmd) (code count g q : Nat) :
    popqAt (cmdOver s c code count) g q = popqAt s g q :=
  ((cmdOver_kept s c code count).popqAt g q).trans ((GroupsKept.refl s).endColl.popqAt g q)

/-- A completed command that is the earliest of its register is no longer kept; its own word, where there is one, is the
first of those placed. -/
theorem completeCmd_places {c : Cmd} {code count : Nat} (hg : c.grp < s.groups.length)
    (hfirst : firstCmd s c.grp c.qreg = some c) (huniq : ∀ x ∈ s.cmds, x.id = c.id → x = c) :
    (∀ x ∈ (completeCmd s c code count).cmds, x.id ≠ c.id) ∧
      ∃ ws, popqAt (completeCmd s c code count) c.grp c.qreg = popqAt s c.grp c.qreg ++
        (if c.sts || code != 0 then [statusWord (c.over code count)] else []) ++ ws := by
  have hlen : c.grp < (cmdOver s c code count).groups.length := by
    rw [(cmdOver_kept s c code count).length]
    exact (GroupsKept.refl s).endColl.length ▸ hg
  have harr := fun u => (GroupsKept.refl u).arriveCmd (c := c.over code count)
  obtain ⟨hsub, ws, hws⟩ := placeWords_appends (q := c.qreg) (fuel := (cmdOver s c code count).cmds.length)
    (placed_length (cmdOver s c code count) c.grp c.qreg (c.over code count) ▸ hlen)
  rw [completeCmd_eq, placeWords_succ (firstCmd_cmdOver hfirst huniq) rfl]
  constructor
  · intro x hx
    have hx' := hsub ((harr _).cmds ▸ hx)
    rw [placed_cmds, List.mem_filter] at hx'
    exact bne_iff_ne.mp hx'.2
  · refine ⟨ws, ?_⟩
    rw [(harr _).popqAt, hws, popqAt_placed hlen, popqAt_cmdOver]
    rfl

theorem sts_eq_testBit (c : Cmd) : c.sts = (c.word 0).testBit 33 := by
  rw [Nat.testBit_eq_decide_div_mod_eq]
  rfl

theorem statusWord_over (c : Cmd) (code count : Nat) :
    statusWord (c.over code count) = BitVec.ofNat 64 (c.word 0 / 2 ^ 56 % 2 ^ 8 * 2 ^ 56 +
      c.word 0 / 2 ^ 40 % 2 ^ 16 * 2 ^ 40 + code % 2 ^ 8 * 2 ^ 32 + count % 2 ^ 32) := rfl

end Sys2Proof.Machine
end

section
open Sys2Proof.Machine Sys2Proof.Claims

/-- Settles O48: every command is a submission of its words; translation ends in one of the operations that put the
command back, and what these do besides changes no command; a completed command that is the earliest of its register is
the first to be placed. -/
theorem engineCommands : Obligations.EngineCommands := by
  refine ⟨?_, fun s c sets k h => ⟨fun ps hps => ⟨fun hroom => ?_, fun hroom => ?_⟩, fun hmov => ?_, ?_, ?_⟩,
    fun id s c => execEngineAcceptance_oldest, ?_⟩
  · intro i kind ws start s hi hg hk hgated hopc
    rw [exec_eq_submit hi hk hgated]
    exact submit_accepts hg hk hopc
  · rw [translateCmd, translateWith, hps]
    exact takePins_mem h hroom
  · rw [translateCmd, translateWith, hps]
    show _ ∈ (takePins s c ps k).cmds
    rw [takePins, if_pos (by rw [hroom]; rfl)]
    exact holdCmd_mem h
  · rw [translateCmd, translateWith, hmov]
    exact holdCmd_mem h
  · intro va l a habs
    rw [translateCmd, translateWith, habs]
    exact ⟨_, deferCmd_mem h va l a⟩
  · intro va a b hfail
    rw [translateCmd, translateWith, hfail]
    exact ⟨_, rfl⟩
  · intro s c code count hg hfirst huniq
    obtain ⟨hgone, ws, hws⟩ := completeCmd_places (code := code) (count := count) hg hfirst huniq
    refine ⟨hgone, fun hask => ⟨ws, ?_⟩, fun hsts hcode => ⟨ws, ?_⟩⟩
    · rw [if_pos (by simpa [sts_eq_testBit] using hask), statusWord_over, List.append_assoc] at hws
      exact hws
    · rw [if_neg (by simp [sts_eq_testBit, hsts, hcode]), List.append_nil] at hws
      exact hws

end

