-- ==== Sys2Proof/Proofs/StrandRules.lean ====
section
/-! Strand instructions (R130-R135, R149-R151): when they act, what a written register and a new SPC leave alone, and
how they trap. -/

namespace Sys2Proof.Machine
open Sys2Proof.Claims

variable {s : State} {ds rs : List (BitVec 6)} {d : BitVec 6} {v n : Dword}

/-! ### When an instruction acts (R132, R150) -/

theorem strandFree_ready {k : State} (h : Free s rs) : strandFree s rs k = .next k :=
  congrArg Host.Outcome.next (if_neg (by simp [h.ready]))

theorem Committed.ahead (h : Committed s) : s.grp.ahead = false := by
  have hq := h.quiet
  rw [Group.quiet, Bool.and_eq_true] at hq
  rw [Group.ahead, ← Bool.not_or, hq.1, Bool.not_true]

/-! ### Registers and SPC (R149) -/

@[simp] theorem Strand.set_later_length (t : Strand) (r : BitVec 6) (v : Dword) :
    (t.set r v).later.length = t.later.length := by
  unfold Strand.set
  split
  · rfl
  · exact List.length_map ..

/-- What the strand has changed is its SPC and the registers named. -/
theorem strandFrame_setGrp {st : Strand} (hl : s.cur.grp < s.groups.length) (hf : st.fmt = s.grp.st.fmt)
    (ha : st.axis = s.grp.st.axis) (hm : st.later.length = s.grp.st.later.length)
    (hr : ∀ r, r ∉ ds → st.get r = s.grp.st.get r) : StrandFrame ds s (s.setGrp { s.grp with st := st }) := by
  obtain ⟨spc, regs, fmt, axis, later⟩ := st
  obtain rfl : fmt = s.grp.st.fmt := hf
  obtain rfl : axis = s.grp.st.axis := ha
  have hg := State.grp_setGrp s { s.grp with st := ⟨spc, regs, s.grp.st.fmt, s.grp.st.axis, later⟩ } hl
  constructor
  · rw [State.spc, hg]
  · rw [hg]
    exact hm
  · intro r h
    rw [State.reg, hg]
    exact hr r h
  · exact fun _ => rfl

theorem State.setSpc_spc (hl : s.cur.grp < s.groups.length) (n : Dword) : (s.setSpc n).spc = n := by
  rw [State.spc, State.setSpc, State.grp_setGrp _ _ hl]

theorem strandFrame_setSpc (hl : s.cur.grp < s.groups.length) (n : Dword) : StrandFrame [] s (s.setSpc n) :=
  strandFrame_setGrp hl rfl rfl rfl fun _ _ => rfl

/-- An instruction that goes to an address and writes no register. -/
theorem goes_setSpc (hl : s.cur.grp < s.groups.length) (n : Dword) : ∃ t, (.next (s.setSpc n) : Result) = .next t ∧
    t.spc = n ∧ StrandFrame [] s t :=
  ⟨_, rfl, State.setSpc_spc hl n, strandFrame_setSpc hl n⟩

theorem setReg_setSpc_eq (hl : s.cur.grp < s.groups.length) (d : BitVec 6) (v n : Dword) :
    (s.setReg d v).setSpc n = s.setGrp { s.grp with st := { s.grp.st.set d v with spc := n } } := by
  rw [State.setSpc, State.setReg, State.grp_setGrp _ _ hl, State.setGrp_twice]

/-- An instruction that writes a register and goes to an address. -/
theorem writes_setReg_setSpc (hl : s.cur.grp < s.groups.length) (d : BitVec 6) (v n : Dword) :
    ∃ t, (.next ((s.setReg d v).setSpc n) : Result) = .next t ∧ t.reg d = (if d = 0 then 0 else v) ∧ t.spc = n ∧
      StrandFrame [d] s t := by
  refine ⟨_, rfl, ?_⟩
  rw [setReg_setSpc_eq hl]
  refine ⟨?_, ?_, strandFrame_setGrp hl (Strand.set_fmt ..) (Strand.set_axis ..) (Strand.set_later_length ..) ?_⟩
  · rw [State.reg, State.grp_setGrp _ _ hl]
    exact Strand.get_set_same ..
  · rw [State.spc, State.grp_setGrp _ _ hl]
  · exact fun r hr => Strand.get_set_other _ _ _ _ (fun e => hr (List.mem_singleton.mpr e))

/-- R153: an instruction over free registers writes its result and moves to the next word. -/
theorem aluOp_writes {v' : Dword} (h : Free s (d :: rs)) (hv : v' = v) : ∃ t, aluOp s d rs v' = .next t ∧
    t.reg d = (if d = 0 then 0 else v) ∧ t.spc = s.spc + 4 ∧ StrandFrame [d] s t := by
  rw [aluOp, strandFree_ready h, hv]
  exact writes_setReg_setSpc h.live d v _

/-- R155: the same for an immediate instruction, with the address of the word after its last. -/
theorem immOp_writes {a : BitVec 6} {v' : Dword} (h : Free s [d, a]) (hv : v' = v) : ∃ t, immOp s d a v' n = .next t ∧
    t.reg d = (if d = 0 then 0 else v) ∧ t.spc = n ∧ StrandFrame [d] s t := by
  rw [immOp, strandFree_ready h, hv]
  exact writes_setReg_setSpc h.live d v n

/-! ### A group that writes itself and moves on -/

theorem advance_setGrp (hl : s.cur.grp < s.groups.length) (g : Group) :
    (s.setGrp g).advance = s.setGrp { g with st := { g.st with spc := g.st.spc + 4 } } := by
  rw [State.advance, State.setSpc, State.next, State.spc, State.grp_setGrp _ _ hl, State.setGrp_twice]

theorem groupOnly_setGrp (hl : s.cur.grp < s.groups.length) (g : Group) : GroupOnly s (s.setGrp g) where
  rest := by rw [State.grp_setGrp _ _ hl]
  bytes _ := rfl

/-- An instruction that writes its group and nothing else. -/
theorem next_setGrp {r : Result} {g : Group} (hl : s.cur.grp < s.groups.length) (h : r = .next (s.setGrp g)) :
    ∃ t, r = .next t ∧ t.grp = g ∧ GroupOnly s t :=
  ⟨_, h, State.grp_setGrp _ _ hl, groupOnly_setGrp hl g⟩

/-! ### Traps (R134, R151) -/

/-- R151: outside run-ahead a strand trap is delivered with the strand's SPC and FMT. -/
theorem strandTrap_now {t : Trap} (ha : s.grp.ahead = false) (ht : t.spc = 0) :
    strandTrap s t = deliver s { t with fmt := s.grp.st.fmt, spc := s.spc } := by
  rw [strandTrap, strandTrapAfter, ha, if_neg (by decide), if_pos ht]
  rfl

theorem trapCode_now (ha : s.grp.ahead = false) (code : Nat) :
    trapCode s code = deliver s (strandReport s code 0 0) :=
  strandTrap_now ha rfl

end Sys2Proof.Machine
end

