-- ==== Sys2Proof/Proofs/StrandArithmetic.lean ====
section
/-! Register arithmetic and immediates (R153-R157): the model's bit-vector operations are the results that the rules
name. -/

namespace Sys2Proof.Machine
open Sys2Proof.Claims

variable {s : State}

/-! ### Results as numbers (R149, R153) -/

theorem eq_ofNat {w k : Nat} {x : BitVec w} (h : x.toNat = k % 2 ^ w) : x = BitVec.ofNat w k :=
  BitVec.eq_of_toNat_eq (h.trans (BitVec.toNat_ofNat ..).symm)

theorem eq_ofNat_of_toNat {w k : Nat} {x : BitVec w} (h : x.toNat = k) : x = BitVec.ofNat w k := by
  rw [← h, BitVec.ofNat_toNat, BitVec.setWidth_eq]

theorem eq_ofInt {w : Nat} {x : BitVec w} {i : ℤ} (h : x.toInt = i.bmod (2 ^ w)) : x = BitVec.ofInt w i :=
  BitVec.eq_of_toInt_eq (h.trans (BitVec.toInt_ofInt i).symm)

theorem eq_ofInt_of_toInt {w : Nat} {x : BitVec w} {i : ℤ} (h : x.toInt = i) : x = BitVec.ofInt w i := by
  rw [← h, BitVec.ofInt_toInt]

section
variable {w : Nat} (x y : BitVec w) (k : Nat)

theorem shiftLeft_eq_ofNat : x <<< k = BitVec.ofNat w (x.toNat * 2 ^ k) :=
  eq_ofNat (by rw [BitVec.toNat_shiftLeft, Nat.shiftLeft_eq])

theorem ushiftRight_eq_ofNat : x >>> k = BitVec.ofNat w (x.toNat / 2 ^ k) :=
  eq_ofNat_of_toNat (by rw [BitVec.toNat_ushiftRight, Nat.shiftRight_eq_div_pow])

theorem sshiftRight_eq_ofInt : x.sshiftRight k = BitVec.ofInt w (x.toInt / 2 ^ k) :=
  eq_ofInt_of_toInt (by rw [BitVec.toInt_sshiftRight, Int.shiftRight_eq_div_pow, Int.natCast_pow]; rfl)

theorem smin_eq_ofInt : (if x.slt y then x else y) = BitVec.ofInt w (min x.toInt y.toInt) :=
  eq_ofInt_of_toInt (by simp only [BitVec.slt_iff_toInt_lt]; split <;> omega)

theorem smax_eq_ofInt : (if x.slt y then y else x) = BitVec.ofInt w (max x.toInt y.toInt) :=
  eq_ofInt_of_toInt (by simp only [BitVec.slt_iff_toInt_lt]; split <;> omega)

theorem umin_eq_ofNat : (if x.ult y then x else y) = BitVec.ofNat w (min x.toNat y.toNat) :=
  eq_ofNat_of_toNat (by simp only [BitVec.ult_iff_lt, BitVec.lt_def]; split <;> omega)

theorem umax_eq_ofNat : (if x.ult y then y else x) = BitVec.ofNat w (max x.toNat y.toNat) :=
  eq_ofNat_of_toNat (by simp only [BitVec.ult_iff_lt, BitVec.lt_def]; split <;> omega)

end

theorem sub_eq_ofInt (x y : Dword) : x - y = BitVec.ofInt 64 (x.toInt - y.toInt) :=
  eq_ofInt (BitVec.toInt_sub ..)

theorem mul_eq_ofInt (x y : Dword) : x * y = BitVec.ofInt 64 (x.toInt * y.toInt) :=
  eq_ofInt (BitVec.toInt_mul ..)

theorem sdiv_eq_ofInt (x y : Dword) : x.sdiv y = BitVec.ofInt 64 (x.toInt.tdiv y.toInt) :=
  eq_ofInt (BitVec.toInt_sdiv ..)

theorem srem_eq_ofInt (x y : Dword) : x.srem y = BitVec.ofInt 64 (x.toInt.tmod y.toInt) :=
  eq_ofInt_of_toInt (BitVec.toInt_srem ..)

theorem boolDword_iff {b : Bool} {p : Prop} [Decidable p] (h : b = true ↔ p) : boolDword b = if p then 1 else 0 := by
  simp only [boolDword, h]

/-! ### Counts of bits -/

/-- The first `k` places satisfy a test and the next does not. -/
theorem takeWhile_range_length {p : Nat → Bool} {k n : Nat} (hk : k ≤ n) (hp : ∀ i < k, p i = true)
    (hn : k < n → p k = false) : ((List.range n).takeWhile p).length = k := by
  obtain ⟨m, rfl⟩ := Nat.exists_eq_add_of_le hk
  rw [List.range_add, List.takeWhile_append_of_pos fun i hi => hp i (List.mem_range.mp hi)]
  cases m with
  | zero => simp
  | succ m => simp [List.range_succ_eq_map, hn (by omega)]

/-- SCLZ counts from the top to the first bit set. -/
theorem leadingZeros_eq (x : Dword) :
    leadingZeros x.toNat = ((List.range 64).takeWhile (fun i => !x.getLsbD (63 - i))).length := by
  symm
  unfold leadingZeros
  split
  case isTrue h =>
    obtain rfl : x = 0 := BitVec.eq_of_toNat_eq h
    exact takeWhile_range_length (Nat.le_refl _) (by simp) (by simp)
  case isFalse h =>
    have hlog : Nat.log2 x.toNat < 64 := (Nat.log2_lt h).mpr x.isLt
    refine takeWhile_range_length (by omega) (fun i hi => ?_) fun _ => ?_
    · have hlt : x.toNat < 2 ^ (63 - i) := (Nat.log2_lt h).mp (by omega)
      rw [BitVec.getLsbD, Nat.testBit_lt_two_pow hlt, Bool.not_false]
    · have hi : 63 - (63 - Nat.log2 x.toNat) = Nat.log2 x.toNat := by omega
      rw [BitVec.getLsbD, hi, Nat.testBit_log2 h, Bool.not_true]

theorem maskList_length (x : Dword) : (maskList 64 x.toNat).length = (List.range 64).countP (fun i => x.getLsbD i) := by
  simp only [maskList, bit_toNat, List.countP_eq_length_filter]

/-! ### Register instructions (R153, R154) -/

/-- R153: what a register instruction does is to write its result. -/
theorem exec_aluResult {i : Instr} {d : BitVec 6} {srcs : List (BitVec 6)} {v : State → Dword}
    (h : aluResult i = some (d, srcs, v)) (s : State) : exec i s = aluOp s d srcs (v s) := by
  cases i with
  | sadd d a b => cases Option.some.inj h; rfl
  | ssub d a b => cases Option.some.inj h; exact congrArg (aluOp s d [a, b]) (sub_eq_ofInt ..)
  | smul d a b => cases Option.some.inj h; exact congrArg (aluOp s d [a, b]) (mul_eq_ofInt ..)
  | smulh d a b => cases Option.some.inj h; rfl
  | sand d a b => cases Option.some.inj h; exact congrArg (aluOp s d [a, b]) (eq_ofNat_of_toNat (BitVec.toNat_and ..))
  | sor d a b => cases Option.some.inj h; exact congrArg (aluOp s d [a, b]) (eq_ofNat_of_toNat (BitVec.toNat_or ..))
  | sxor d a b => cases Option.some.inj h; exact congrArg (aluOp s d [a, b]) (eq_ofNat_of_toNat (BitVec.toNat_xor ..))
  | sshl d a b => cases Option.some.inj h; exact congrArg (aluOp s d [a, b]) (shiftLeft_eq_ofNat ..)
  | sshr d a b => cases Option.some.inj h; exact congrArg (aluOp s d [a, b]) (ushiftRight_eq_ofNat ..)
  | ssra d a b => cases Option.some.inj h; exact congrArg (aluOp s d [a, b]) (sshiftRight_eq_ofInt ..)
  | smin d a b => cases Option.some.inj h; exact congrArg (aluOp s d [a, b]) (smin_eq_ofInt ..)
  | smax d a b => cases Option.some.inj h; exact congrArg (aluOp s d [a, b]) (smax_eq_ofInt ..)
  | sminu d a b => cases Option.some.inj h; exact congrArg (aluOp s d [a, b]) (umin_eq_ofNat ..)
  | smaxu d a b => cases Option.some.inj h; exact congrArg (aluOp s d [a, b]) (umax_eq_ofNat ..)
  | sslt d a b =>
    cases Option.some.inj h
    exact congrArg (aluOp s d [a, b]) (boolDword_iff BitVec.slt_iff_toInt_lt)
  | ssltu d a b => cases Option.some.inj h; exact congrArg (aluOp s d [a, b]) (boolDword_iff BitVec.ult_iff_lt)
  | sseq d a b => cases Option.some.inj h; exact congrArg (aluOp s d [a, b]) (boolDword_iff beq_iff_eq)
  | sclz d a =>
    cases Option.some.inj h
    exact congrArg (fun k => aluOp s d [a] (BitVec.ofNat 64 k)) (leadingZeros_eq _)
  | spopc d a =>
    cases Option.some.inj h
    exact congrArg (fun k => aluOp s d [a] (BitVec.ofNat 64 k)) (maskList_length _)
  | ssel d a b c => cases Option.some.inj h; exact congrArg (aluOp s d [a, b, c]) (ite_not ..).symm
  | _ => cases h

/-- R154: division by what is not zero is an instruction over its registers. -/
theorem divOp_nonzero {d a b : BitVec 6} (h : s.reg b ≠ 0) (v : Dword) : divOp s d a b v = aluOp s d [a, b] v :=
  congrArg (strandFree s _) (if_neg h)

/-! ### Immediates (R155-R157) -/

/-- An immediate instruction adds or combines its sign-extended immediate, and goes past its words. -/
theorem exec_immResult {i : Instr} {d a : BitVec 6} {n : Dword} {v : State → Dword}
    (h : immResult i = some (d, a, n, v)) (s : State) : exec i s = immOp s d a (v s) (s.spc + n) := by
  have hadd (x : Dword) {w : Nat} (y : BitVec w) : x + y.signExtend 64 = BitVec.ofInt 64 (x.toInt + y.toInt) := by
    rw [BitVec.ofInt_add, BitVec.ofInt_toInt]
    rfl
  cases i with
  | saddi d a i => cases Option.some.inj h; exact congrArg (immOp s d a · (s.spc + 4)) (hadd ..)
  | sandi | sori | sxori => cases Option.some.inj h; rfl
  | sshli d a n => cases Option.some.inj h; exact congrArg (immOp s d a · (s.spc + 4)) (shiftLeft_eq_ofNat ..)
  | sshri d a n => cases Option.some.inj h; exact congrArg (immOp s d a · (s.spc + 4)) (ushiftRight_eq_ofNat ..)
  | ssrai d a n => cases Option.some.inj h; exact congrArg (immOp s d a · (s.spc + 4)) (sshiftRight_eq_ofInt ..)
  | slit l f =>
    cases f with
    | addi d a i => cases Option.some.inj h; exact congrArg (immOp s d a · (s.spc + 8)) (hadd ..)
    | andi | ori | xori => cases Option.some.inj h; rfl
    | _ => cases h
  | _ => cases h

end Sys2Proof.Machine

namespace Sys2Proof

/-! ### The words of the shifts (R156) -/

/-- R156: imm14<13:12> names the shift. -/
def shiftOf (d a n : BitVec 6) : Nat → Option Instr
  | 0 => some (.sshli d a n)
  | 1 => some (.sshri d a n)
  | 2 => some (.ssrai d a n)
  | _ => none

/-- R156: imm14<5:0> is its amount. -/
theorem decodeScalar_shift (d a n : BitVec 6) {k : Nat} (hk : k < 4) (x : Nat) :
    decodeScalar (0x18000000 + d.toNat * 2 ^ 20 + a.toNat * 2 ^ 14 + n.toNat + k * 2 ^ 12) x = shiftOf d a n k := by
  have hw : 0x18000000 + d.toNat * 2 ^ 20 + a.toNat * 2 ^ 14 + n.toNat + k * 2 ^ 12 =
      encS 0x06 d a (k * 2 ^ 12 + n.toNat) := by
    simp only [encS]; omega
  have hlow : k * 2 ^ 12 + n.toNat < 2 ^ 14 ∧ (k * 2 ^ 12 + n.toNat) / 2 ^ 6 % 64 = 0 ∧
      (k * 2 ^ 12 + n.toNat) / 2 ^ 12 = k := ⟨by omega, by omega, by omega⟩
  have hn : field 6 0 (k * 2 ^ 12 + n.toNat) = n := field_eq (by omega)
  rw [hw]
  simp only [decodeScalar, encS_parts, field_encS_low, Nat.reduceLT, Nat.reduceAdd, Nat.reduceLeDiff, hlow, hn]
  exact if_neg (not_not.mpr rfl)

/-- R90, R156: a word of major 6 takes no literal. -/
theorem decodeUser_of_major {w m : Nat} (hm : w / 2 ^ 26 % 64 = m) (h : m = 0x06 ∨ m = 0x12 ∨ m = 0x13) :
    decodeUser w = .other (BitVec.ofNat 32 w) := by
  obtain rfl | rfl | rfl := h
  all_goals simp only [decodeUser, hm]

theorem decodeScalar_slit_other (l : BitVec 26) {w m : Nat} (hm : w / 2 ^ 26 % 64 = m)
    (h : m = 0x06 ∨ m = 0x12 ∨ m = 0x13) :
    decodeScalar (0x1C000000 + l.toNat) w = some (.slit l (.other (BitVec.ofNat 32 w))) :=
  (decodeScalar_slit l w).trans (by rw [decodeUser_of_major hm h])

end Sys2Proof

section
open Sys2Proof Sys2Proof.Machine Sys2Proof.Claims

/-- Settles O4: every register instruction is the operation `aluOp` with the result of its rule, and so is a division by
what is not zero. -/
theorem scalarArithmetic : Obligations.ScalarArithmetic := by
  refine ⟨fun i d srcs v s hi hf => ?_, fun d a b s hf hb => ⟨?_, ?_⟩⟩
  · rw [exec_aluResult hi]
    exact aluOp_writes hf rfl
  · rw [show exec (.sdiv d a b) s = _ from divOp_nonzero hb _]
    exact aluOp_writes hf (sdiv_eq_ofInt ..)
  · rw [show exec (.srem d a b) s = _ from divOp_nonzero hb _]
    exact aluOp_writes hf (srem_eq_ofInt ..)

/-- Settles O5: every immediate instruction is the operation `immOp` with the result of its rule; the words of the
shifts by their fields. -/
theorem scalarImmediates : Obligations.ScalarImmediates := by
  refine ⟨fun i d a n v s hi hf => ?_, fun d a n => ⟨?_, ?_, ?_, ?_, fun l k hk => ?_⟩⟩
  · rw [exec_immResult hi]
    exact immOp_writes hf rfl
  · exact decodeScalar_shift d a n (k := 0) (by decide) 0
  · exact decodeScalar_shift d a n (k := 1) (by decide) 0
  · exact decodeScalar_shift d a n (k := 2) (by decide) 0
  · exact decodeScalar_shift d a n (k := 3) (by decide) 0
  · exact ⟨_, decodeScalar_slit_other l (m := 0x06) (by omega) (.inl rfl)⟩

end
end

