-- ==== Sys2Proof/Proofs/StrandTransfers.lean ====
section
/-! Transfers of the strand (R158-R164): branches, jumps and calls, and the computed transfers with their landing. -/

namespace Sys2Proof.Machine
open Sys2Proof.Claims

variable {s : State} {i : Instr} {a : BitVec 6} {t : Dword}

/-! ### Branches (R158) -/

theorem branchTaken_eq (c : BranchCond) (x y : Dword) : branchTaken c x y = taken c x y := by
  cases c with
  | eq => rfl
  | ne => exact (decide_not ..).symm
  | lt => exact BitVec.slt_eq_decide
  | ge => simp only [branchTaken, taken, BitVec.slt_eq_decide, ← decide_not, not_lt]
  | ltu => exact BitVec.ult_eq_decide
  | geu => simp only [branchTaken, taken, BitVec.ult_eq_decide, ← decide_not, not_lt]

/-- A word offset is four times as many bytes. -/
theorem four_mul_ofInt (o : ℤ) : (4 : Dword) * BitVec.ofInt 64 o = BitVec.ofInt 64 (4 * o) :=
  (BitVec.ofInt_mul 4 o).symm

theorem exec_branchParts {c : BranchCond} {b : BitVec 6} {o : ℤ} {n : Dword} (h : branchParts i = some (c, a, b, o, n))
    (s : State) : exec i s = branchOp c s a b (BitVec.ofInt 64 o) (s.spc + n) := by
  cases i with
  | sbeq | sbne | sblt | sbge | sbltu | sbgeu => cases Option.some.inj h; rfl
  | slit l f =>
    cases f with
    | branch => cases Option.some.inj h; rfl
    | _ => cases h
  | _ => cases h

/-- A branch goes by its offset where its condition holds, and else to the next word. -/
theorem branchOp_goes {c : BranchCond} {b : BitVec 6} (h : Free s [a, b]) (o : ℤ) (n : Dword) :
    branchOp c s a b (BitVec.ofInt 64 o) n =
      .next (s.setSpc (n + if taken c (s.reg a) (s.reg b) then BitVec.ofInt 64 (4 * o) else 0)) := by
  rw [branchOp, strandFree_ready h, branchTaken_eq, four_mul_ofInt]
  split
  · rfl
  · exact congrArg (fun x => Host.Outcome.next (s.setSpc x)) (BitVec.add_zero n).symm

/-! ### Jumps, calls, and what only advances (R159, R162, R174, R230) -/

/-- Such an instruction goes to its address, and writes the next word's to its link register. -/
theorem exec_jumpResult {ds srcs : List (BitVec 6)} {p : State → Dword} (h : jumpResult i = some (ds, srcs, p))
    (hf : Free s (ds ++ srcs)) : ∃ t, exec i s = .next t ∧ t.spc = p s ∧ StrandFrame ds s t ∧
      ∀ d ∈ ds, t.reg d = if d = 0 then 0 else s.spc + 4 := by
  have hgoes {r : Result} {n : Dword} (hr : r = .next (s.setSpc n)) : ∃ t, r = .next t ∧ t.spc = n ∧
      StrandFrame [] s t ∧ ∀ d ∈ ([] : List (BitVec 6)), t.reg d = if d = 0 then 0 else s.spc + 4 := by
    obtain ⟨t, ht, hs, hk⟩ := goes_setSpc hf.live n
    exact ⟨t, hr.trans ht, hs, hk, List.forall_mem_nil _⟩
  cases i with
  | sjmp o =>
    cases Option.some.inj h
    exact hgoes (congrArg (fun x => Host.Outcome.next (s.setSpc (s.next + x))) (four_mul_ofInt _))
  | scall d o =>
    cases Option.some.inj h
    obtain ⟨t, ht, hr, hs, hk⟩ := writes_setReg_setSpc hf.live d s.next (s.next + 4 * o.signExtend 64)
    exact ⟨t, (strandFree_ready hf).trans ht, hs.trans (congrArg (s.next + ·) (four_mul_ofInt _)), hk,
      List.forall_mem_singleton.mpr hr⟩
  | snop | spad => cases Option.some.inj h; exact hgoes rfl
  | spref => cases Option.some.inj h; exact hgoes (strandFree_ready hf)
  | slit l f =>
    cases f with
    | pref => cases Option.some.inj h; exact hgoes (strandFree_ready hf)
    | _ => cases h
  | _ => cases h

/-! ### Computed transfers (R160-R164) -/

/-- R161: the address of a word of code. -/
theorem targetFault_none (h4 : t.toNat % 4 = 0) (hv : t.toNat < 2 ^ 54) : targetFault t = none := by
  rw [targetFault, if_neg (not_not.mpr h4), if_neg (Nat.not_le.mpr hv)]

theorem targetFault_misaligned (h4 : t.toNat % 4 ≠ 0) : targetFault t = some 0x05 := if_pos h4

theorem targetFault_high (h4 : t.toNat % 4 = 0) (hv : 2 ^ 54 ≤ t.toNat) : targetFault t = some 0x07 := by
  rw [targetFault, if_neg (not_not.mpr h4), if_pos hv]

/-- R162: a landing at a word of code is one where SPAD with the label stands. -/
theorem landAt_fetched {label w : Nat} {k : State → State} (h4 : t.toNat % 4 = 0) (hv : t.toNat < 2 ^ 54)
    (hw : fetchScalar s t 3 = .ok w) : landAt s t label k = if w = spadWord label then k s else trapCode s 0x03 := by
  rw [landAt, targetFault_none h4 hv, hw]

theorem exec_sret (h : Free s [a]) (h4 : (s.reg a).toNat % 4 = 0) (hv : (s.reg a).toNat < 2 ^ 54) :
    exec (.sret a) s = .next (s.setSpc (s.reg a)) := by
  rw [show exec (.sret a) s = _ from strandFree_ready h, targetFault_none h4 hv]

theorem exec_scallr {l : BitVec 12} {w : Nat} (h : Free s [a, 63]) (h4 : (s.reg a).toNat % 4 = 0)
    (hv : (s.reg a).toNat < 2 ^ 54) (hw : fetchScalar s (s.reg a) 3 = .ok w) :
    exec (.scallr a l) s = .next
      (if w = spadWord l.toNat then (s.setReg 63 s.next).setSpc (s.reg a) else trapCode s 0x03) :=
  (strandFree_ready h).trans (congrArg Host.Outcome.next (landAt_fetched h4 hv hw))

/-- R164: the word that a table of so many entries has for an index, at its place behind the count. -/
theorem jumpTable_fetched {off n : Dword} {bound e : Nat} (h : Free s [a])
    (hb : fetchScalar s (n + 4 * off) 1 = .ok bound) (hlt : (s.reg a).toNat < bound)
    (he : fetchScalar s (n + 4 * off + 4 * (s.reg a + 1)) 2 = .ok e)
    (ht : n + 4 * off + 4 * (BitVec.ofNat 20 (e / 2 ^ 12)).signExtend 64 = t) :
    jumpTable s a off n = .next (landAt s t (e % 2 ^ 12) (fun s' => s'.setSpc t)) := by
  rw [jumpTable, strandFree_ready h, hb]
  dsimp only
  rw [if_neg (Nat.not_le.mpr hlt), he]
  dsimp only
  rw [ht]

theorem exec_jtab {o : ℤ} {n : Dword}
    (h : (∃ f, i = .sjtab a f ∧ n = 4 ∧ o = f.toInt) ∨ (∃ l f, i = .slit l (.jtab a f) ∧ n = 8 ∧ o = (l ++ f).toInt))
    (s : State) : exec i s = jumpTable s a (BitVec.ofInt 64 o) (s.spc + n) := by
  obtain ⟨f, rfl, rfl, rfl⟩ | ⟨l, f, rfl, rfl, rfl⟩ := h <;> rfl

end Sys2Proof.Machine

namespace Sys2Proof

/-! ### The words of SJMP, SCALL and SRET (R159, R160) -/

theorem decodeScalar_sjmp (d : BitVec 6) (o : BitVec 20) (x : Nat) :
    decodeScalar (0x48000000 + d.toNat * 2 ^ 20 + o.toNat) x = if d = 0 then some (.sjmp o) else none := by
  have hm : (0x48000000 + d.toNat * 2 ^ 20 + o.toNat) / 2 ^ 26 % 64 = 0x12 := by omega
  have hd : field 6 20 (0x48000000 + d.toNat * 2 ^ 20 + o.toNat) = d := field_eq (by omega)
  have ho : field 20 0 (0x48000000 + d.toNat * 2 ^ 20 + o.toNat) = o := field_eq (by omega)
  simp only [decodeScalar, hm, hd, ho]

end Sys2Proof

section
open Sys2Proof Sys2Proof.Machine Sys2Proof.Claims

/-- Settles O1, by evaluation: the words are closed. -/
theorem sampleWordsDecode : Obligations.SampleWordsDecode := by
  unfold Obligations.SampleWordsDecode
  decide

/-- Settles O6: a branch is `branchOp` with its condition, and the others go where their row of `jumpResult` says. -/
theorem scalarTransfers : Obligations.ScalarTransfers := by
  refine ⟨fun i c a b o n s hi hf => ?branch, fun i ds srcs p s hi hf => exec_jumpResult hi hf,
    fun d o l => ⟨?sjmp, ?scall, fun hd => ?reserved, ?slitSjmp, ?slitScall⟩⟩
  case branch =>
    rw [exec_branchParts hi, branchOp_goes hf]
    exact ⟨_, rfl, strandFrame_setSpc hf.live _, State.setSpc_spc hf.live _⟩
  case sjmp => exact decodeScalar_sjmp 0 o 0
  case scall =>
    exact decodeScalar_of_encodeScalar (i := .scall d o) 0 (fun _ _ h => nomatch h) rfl rfl
  case reserved => exact (decodeScalar_sjmp d o 0).trans (if_neg hd)
  case slitSjmp => exact ⟨_, decodeScalar_slit_other l (m := 0x12) (by omega) (.inr (.inl rfl))⟩
  case slitScall => exact ⟨_, decodeScalar_slit_other l (m := 0x13) (by omega) (.inr (.inr rfl))⟩

/-- Settles O7: a computed transfer goes to its target once the target's tests have passed and its pad is found. -/
theorem computedTransfers : Obligations.ComputedTransfers := by
  refine ⟨fun a => ?word, ?word63, fun a s hf h4 hv => ?sret, fun a l s hf h4 hv hw => ?scallr,
    fun i a o n s bound e hi => ?sjtab⟩
  case word =>
    have h := decodeScalar_of_encodeScalar (i := .sret a) 0 (fun _ _ h => nomatch h) rfl rfl
    exact (congrArg (decodeScalar · 0) (by simp only [encS]; rfl)).trans h
  case word63 => decide
  case sret =>
    rw [exec_sret hf h4 hv]
    exact goes_setSpc hf.live _
  case scallr =>
    rw [exec_scallr (w := spadWord l.toNat) hf h4 hv hw, if_pos rfl]
    obtain ⟨t, ht, hr, hs, hk⟩ := writes_setReg_setSpc hf.live 63 s.next (s.reg a)
    exact ⟨t, ht, hs, hr, hk⟩
  case sjtab =>
    intro tab target hf hb hlt he h4 hv hw
    have htab : s.spc + n + 4 * BitVec.ofInt 64 o = tab := congrArg _ (four_mul_ofInt o)
    have htarget : s.spc + n + 4 * BitVec.ofInt 64 o + 4 * (BitVec.ofNat 20 (e / 2 ^ 12)).signExtend 64 = target :=
      htab ▸ congrArg (tab + ·) (four_mul_ofInt _)
    rw [exec_jtab hi, jumpTable_fetched hf (htab ▸ hb) hlt (htab ▸ he) htarget,
      landAt_fetched (w := spadWord (e % 2 ^ 12)) h4 hv hw, if_pos rfl]
    exact goes_setSpc hf.live _

end
end

