-- ==== Sys2Proof/Proofs/StrandBlocks.lean ====
section
/-! Lane blocks, formats, axes and queue registers (R165-R168, R239). -/

namespace Sys2Proof.Machine
open Sys2Proof.Claims

variable {s : State} {a d : BitVec 6}

/-! ### The values of FMT (R80) -/

theorem fmtOk_iff (v : Dword) : fmtOk v = true ↔ FmtLegal v := by
  have hv : v.toNat < 2 ^ 64 := v.isLt
  simp only [fmtOk, Bool.and_eq_true, beq_iff_eq, decide_eq_true_eq]
  simp only [bits, Nat.pow_zero, Nat.div_one]
  constructor
  · rintro ⟨⟨⟨⟨hh, hl⟩, ha⟩, hb⟩, hr⟩
    exact ⟨by omega, hl, by omega, hb, hr⟩
  · rintro ⟨hh, hl, ha, hb, hr⟩
    exact ⟨⟨⟨⟨by omega, hl⟩, by omega⟩, hb⟩, hr⟩

/-- R167: the formats of A and B stand above bit 22, the rest of FMT below. -/
theorem fmtWith_toNat {v : Dword} (h : FmtLegal v) (a b : BitVec 5) :
    (fmtWith v a b).toNat = a.toNat * 2 ^ 27 + b.toNat * 2 ^ 22 + v.toNat % 2 ^ 22 := by
  have hv := h.high
  rw [fmtWith, BitVec.toNat_ofNat]
  omega

theorem fmtLegal_fmtWith {v : Dword} {a b : BitVec 5} (h : FmtLegal v) (ha : a.toNat ≤ 16) (hb : b.toNat ≤ 16) :
    FmtLegal (fmtWith v a b) := by
  have e := fmtWith_toNat h a b
  obtain ⟨-, hl, -, -, hr⟩ := h
  constructor <;> omega

/-! ### SFMT and SAXIS (R167, R239) -/

theorem advance_setFmt (hl : s.cur.grp < s.groups.length) (v : Dword) :
    (s.setFmt v).advance = s.setGrp { s.grp with st := { s.grp.st with fmt := v, spc := s.spc + 4 } } :=
  advance_setGrp hl _

theorem advance_setAxis (hl : s.cur.grp < s.groups.length) (n : Nat) (v : Dword) :
    (s.setAxis n v).advance = s.setGrp { s.grp with st := { s.grp.st with
      axis := mapSet 0 s.grp.st.axis n v
      spc := s.spc + 4 } } :=
  advance_setGrp hl _

theorem exec_sfmt (h : Free s [a]) : exec (.sfmt a) s =
    .next (if fmtOk (s.reg a) then (s.setFmt (s.reg a)).advance else trapCode s 0x02) := strandFree_ready h

theorem exec_saxis {n : BitVec 2} (h : Free s [a]) : exec (.saxis n a) s =
    .next (if axisOk (s.reg a) then (s.setAxis n.toNat (s.reg a)).advance else trapCode s 0x02) := strandFree_ready h

/-! ### Lane blocks (R165, R166) -/

/-- R165: the block that LRUN makes, with what it captures. -/
def newBlock (s : State) (l : BitVec 26) : Block where
  start := l.toNat
  scal := s.grp.st.regs
  fmt := s.grp.st.fmt
  axis := s.grp.st.axis
  pending := pendingScan s (s.launchOf s.grp).lcount (s.launchOf s.grp).lcount l.toNat 0
  late := s.grp.blocks.foldl (fun m b => maskOf (maskList 64 m ++ maskList 64 b.pending)) 0
  ckpt := { s.grp.st with spc := s.next, later := s.grp.st.later ++ [0] }
  wrote := []
  seq := s.tick

/-- The group with that block behind those outstanding, and the strand behind its LRUN. -/
def withBlock (s : State) (l : BitVec 26) : Group :=
  { s.grp with
    st := { s.grp.st with spc := s.next, later := s.grp.st.later ++ [0] }
    blocks := s.grp.blocks ++ [newBlock s l] }

theorem enqueueBlock_eq (s : State) (l : BitVec 26) : enqueueBlock s l =
    if s.grp.blocks.isEmpty then startBlock (s.setGrp (withBlock s l)) s.cur.grp else s.setGrp (withBlock s l) := rfl

/-- R165: whether or not the block starts at once, it stands behind the others, and the strand goes on. -/
theorem enqueueBlock_grp (hl : s.cur.grp < s.groups.length) (l : BitVec 26) :
    (enqueueBlock s l).grp.st = { s.grp.st with spc := s.next, later := s.grp.st.later ++ [0] } ∧
      (enqueueBlock s l).grp.blocks = s.grp.blocks ++ [newBlock s l] ∧ (enqueueBlock s l).mem = s.mem := by
  have hg := State.grp_setGrp s (withBlock s l) hl
  rw [enqueueBlock_eq]
  split
  case isFalse => exact ⟨congrArg Group.st hg, congrArg Group.blocks hg, rfl⟩
  case isTrue he =>
    have hone : (s.setGrp (withBlock s l)).grp.blocks = newBlock s l :: [] := by
      rw [hg, withBlock, List.isEmpty_iff.mp he]
      rfl
    have hl' : (s.setGrp (withBlock s l)).cur.grp < (s.setGrp (withBlock s l)).groups.length := by
      rwa [State.setGrp_length]
    have hg' := State.grp_setGrp _ ((s.setGrp (withBlock s l)).grp.blockStarted (s.setGrp (withBlock s l)).width
      (newBlock s l)) hl'
    rw [show s.cur.grp = (s.setGrp (withBlock s l)).cur.grp from rfl, startBlock_of_cons hone]
    exact ⟨(congrArg Group.st hg').trans (by rw [hg]; rfl), (congrArg Group.blocks hg').trans (by rw [hg]; rfl), rfl⟩

theorem exec_lrun (hi : s.grp.inh = false) (l : BitVec 26) : exec (.lrun l) s =
    .next (if 2 ≤ s.grp.blocks.length then s else enqueueBlock s l) :=
  congrArg Host.Outcome.next (if_neg (by simp [hi]))

/-! ### Queue registers (R168, R169) -/

theorem wb_setGrp (hl : s.cur.grp < s.groups.length) (g : Group) (d : BitVec 6) (v : Dword) :
    (s.setGrp g).wb d v = s.setGrp { g with st := { g.st.set d v with spc := g.st.spc + 4 } } := by
  have hl' : (s.setGrp g).cur.grp < (s.setGrp g).groups.length := by rwa [State.setGrp_length]
  rw [State.wb, setReg_setSpc_eq hl', State.next, State.spc, State.grp_setGrp _ _ hl, State.setGrp_twice]

theorem exec_sqin_unbound {n : BitVec 4} (h : Committed s) (hk : kindOf s.grp n.toNat = 0) :
    exec (.sqin d n) s = .next (queueTrap s n.toNat) :=
  (strandSerial_quiet h.quiet).trans (congrArg Host.Outcome.next (if_pos hk))

theorem exec_sqin_empty {n : BitVec 4} (h : Committed s) (hk : kindOf s.grp n.toNat ≠ 0)
    (hp : mapGet [] s.grp.popq n.toNat = []) : exec (.sqin d n) s = .next s := by
  rw [show exec (.sqin d n) s = _ from strandSerial_quiet h.quiet, if_neg hk, hp]

/-- R168: the oldest word of the queue register goes to d. -/
theorem exec_sqin_word {n : BitVec 4} {v : Dword} {vs : List Dword} (h : Committed s) (hk : kindOf s.grp n.toNat ≠ 0)
    (hp : mapGet [] s.grp.popq n.toNat = v :: vs) : exec (.sqin d n) s =
      .next (s.setGrp { s.grp with
        popq := mapSet [] s.grp.popq n.toNat vs
        st := { s.grp.st.set d v with spc := s.spc + 4 } }) := by
  rw [show exec (.sqin d n) s = _ from strandSerial_quiet h.quiet, if_neg hk, hp]
  exact congrArg Host.Outcome.next (wb_setGrp h.live _ d v)

theorem exec_sqout_unbound {n : BitVec 4} (h : Free s [a]) (hk : kindOf s.grp n.toNat = 0) :
    exec (.sqout a n) s = .next (queueTrap s n.toNat) :=
  (strandFree_ready h).trans (congrArg Host.Outcome.next (if_pos hk))

/-- R133: under run-ahead a push takes an entry of the side buffer. -/
theorem exec_sqout_ahead {n : BitVec 4} (h : Free s [a]) (hk : kindOf s.grp n.toNat ≠ 0) (hb : s.grp.behind ≠ 0)
    (hroom : s.grp.side.length < 16) : exec (.sqout a n) s =
      .next (s.setGrp { s.grp with
        side := s.grp.side ++ [⟨true, s.grp.behind, n.toNat, 0, 0, 0, s.reg a, s.grp.st, s.tick⟩]
        st := { s.grp.st with spc := s.spc + 4 } }) := by
  have hside : (s.grp.behind ≠ 0 || !s.grp.side.isEmpty) = true := by simp [hb]
  rw [show exec (.sqout a n) s = _ from strandFree_ready h, if_neg hk, if_pos hside, sideEntry,
    if_neg (Nat.not_le.mpr hroom)]
  exact congrArg Host.Outcome.next (advance_setGrp h.live _)

/-- R168, R205: any other goes to the push buffer, where there is room and no VQIN part-way through its words. -/
theorem exec_sqout_now {n : BitVec 4} (h : Free s [a]) (hk : kindOf s.grp n.toNat ≠ 0) (hb : s.grp.behind = 0)
    (hside : s.grp.side = []) : exec (.sqout a n) s =
      .next (if s.grp.pushRoom n.toNat 1 && !s.grp.vqinOn n.toNat
        then (s.setGrp (s.grp.push n.toNat (s.reg a))).advance else s) := by
  have hnow : ¬ (s.grp.behind ≠ 0 || !s.grp.side.isEmpty) = true := by simp [hb, hside]
  rw [show exec (.sqout a n) s = _ from strandFree_ready h, if_neg hk, if_neg hnow]

end Sys2Proof.Machine
end

section
open Sys2Proof.Machine Sys2Proof.Claims

/-- Settles O10: a new block stands behind the others whether or not it starts at once. -/
theorem laneBlockLaunch : Obligations.LaneBlockLaunch := by
  refine fun s hl => ⟨fun l hi hroom => ?run, fun l hi hfull => ?full, fun hq => ?goesOn, fun hq => ?wait⟩
  case run =>
    obtain ⟨hst, hblocks, hmem⟩ := enqueueBlock_grp hl l
    have hexec := (exec_lrun hi l).trans (congrArg _ (if_neg (Nat.not_le.mpr hroom)))
    refine ⟨_, newBlock s l, hexec, congrArg Strand.spc hst, hblocks, rfl, rfl, rfl, rfl, (congrArg Strand.regs hst).trans rfl, fun a => ?_⟩
    rw [hmem]
  case full => exact (exec_lrun hi l).trans (congrArg _ (if_pos hfull))
  case goesOn =>
    rw [show exec .lwait s = _ from strandSerial_quiet hq]
    exact goes_setSpc hl _
  case wait => exact congrArg Host.Outcome.next (if_neg (by simp [hq]))

/-- Settles O11: SFMT and SAXIS write where the value is legal, and the formats put together are. -/
theorem formatAndAxes : Obligations.FormatAndAxes := by
  refine ⟨fun a s hf hv => ?_, fun a b s hl hv ha hb => ⟨_, ?_, fmtWith_toNat hv a b⟩, fun n a s hf hv => ?_⟩
  · rw [exec_sfmt hf, if_pos ((fmtOk_iff _).mpr hv), advance_setFmt hf.live]
  · have hok := (fmtOk_iff _).mpr (fmtLegal_fmtWith hv ha hb)
    exact congrArg Host.Outcome.next ((if_pos hok).trans (advance_setFmt hl _))
  · rw [exec_saxis hf, if_pos hv, advance_setAxis hf.live]

/-- Settles O12: each case of SQIN and SQOUT as an equation of the state that it leaves. -/
theorem queueRegisters : Obligations.QueueRegisters := by
  refine fun s n hk => ⟨fun d v vs hc hp => ?pop, fun d hc hp => exec_sqin_empty hc hk hp,
    fun a hf hb hside hv hroom => ?push, fun a hf hb hside hfull => ?full, fun a hf hb hroom => ?ahead⟩
  case pop =>
    obtain ⟨t, ht, hg, ho⟩ := next_setGrp hc.live (exec_sqin_word hc hk hp)
    exact ⟨t, ht, (congrArg (·.st.get d) hg).trans (Strand.get_set_same ..), congrArg (·.st.spc) hg,
      (congrArg (fun g => mapGet [] g.popq n.toNat) hg).trans (mapGet_mapSet_same ..),
      fun r hr => (congrArg (·.st.get r) hg).trans (Strand.get_set_other _ _ _ _ hr),
      fun k hne => (congrArg (fun g => mapGet [] g.popq k) hg).trans (mapGet_mapSet_other _ _ _ _ _ hne), ho⟩
  case push =>
    have hgo : (s.grp.pushRoom n.toNat 1 && !s.grp.vqinOn n.toNat) = true := by
      simp [Group.pushRoom, hv, Nat.lt_iff_add_one_le.mp hroom]
    have hexec := (exec_sqout_now hf hk hb hside).trans (congrArg _ (if_pos hgo))
    obtain ⟨t, ht, hg, ho⟩ := next_setGrp hf.live (hexec.trans (congrArg _ (advance_setGrp hf.live _)))
    exact ⟨t, ht, congrArg (·.st.spc) hg,
      (congrArg (fun g => mapGet [] g.pushq n.toNat) hg).trans (mapGet_mapSet_same ..),
      fun r => congrArg (·.st.get r) hg,
      fun k hne => (congrArg (fun g => mapGet [] g.pushq k) hg).trans (mapGet_mapSet_other _ _ _ _ _ hne), ho⟩
  case full =>
    have hwait : ¬ (s.grp.pushRoom n.toNat 1 && !s.grp.vqinOn n.toNat) = true := by
      obtain h | h := hfull
      · simp [Group.pushRoom, Nat.not_lt.mpr h]
      · simp [h]
    exact (exec_sqout_now hf hk hb hside).trans (congrArg _ (if_neg hwait))
  case ahead =>
    obtain ⟨t, ht, hg, ho⟩ := next_setGrp hf.live (exec_sqout_ahead hf hk hb hroom)
    exact ⟨t, _, ht, congrArg (·.st.spc) hg, congrArg (·.side) hg, rfl, rfl, rfl, rfl, ho⟩

end

