-- ==== Sys2Proof/Proofs/StrandTraps.lean ====
section
/-! The traps of the strand outside run-ahead (R134, R151, R251-R255). -/

namespace Sys2Proof.Machine
open Sys2Proof.Claims

variable {s : State} {a b d : BitVec 6}

/-! ### A result that traps -/

/-- What an instruction answers where it ends in a trap of a code alone. -/
theorem next_trapCode {r : Result} {code : Nat} (ha : s.grp.ahead = false) (h : r = .next (trapCode s code)) :
    r = .next (deliver s (strandReport s code 0 0)) := by
  rw [h, trapCode_now ha]

/-! ### Division (R154) and computed transfers (R161-R164) -/

theorem divOp_zero (h : Free s [d, a, b]) (hb : s.reg b = 0) (v : Dword) :
    divOp s d a b v = .next (trapCode s 0x12) :=
  (strandFree_ready h).trans (congrArg Host.Outcome.next (if_pos hb))

/-- R161, log 56: the target is reported in ADDR. -/
theorem exec_sret_fault {c : Nat} (h : Free s [a]) (ha : s.grp.ahead = false) (hc : targetFault (s.reg a) = some c) :
    exec (.sret a) s = .next (deliver s (strandReport s c (s.reg a) 0)) := by
  rw [show exec (.sret a) s = _ from strandFree_ready h, hc]
  exact congrArg Host.Outcome.next (strandTrap_now ha rfl)

theorem exec_sjtab_bound {o : BitVec 14} {bound : Nat} (h : Free s [a])
    (hb : fetchScalar s (s.spc + 4 + 4 * o.signExtend 64) 1 = .ok bound) (hle : bound ≤ (s.reg a).toNat) :
    exec (.sjtab a o) s = .next (trapCode s 0x04) := by
  have hb' : fetchScalar s (s.next + 4 * imm14 o) 1 = .ok bound := hb
  rw [show exec (.sjtab a o) s = _ from strandFree_ready h, hb']
  exact congrArg Host.Outcome.next (if_pos hle)

/-! ### Queue registers (R168) -/

theorem queueTrap_now (ha : s.grp.ahead = false) (n : Nat) :
    queueTrap s n = deliver s (strandReport s 0x0D 0 (BitVec.ofNat 64 n)) := strandTrap_now ha rfl

/-! ### Privilege, handlers and the trapping instructions (R165, R170, R176, R178, R255, R336) -/

theorem exec_ssetr {r : BitVec 8} (h : Committed s) (hr : specialOk r = true) : exec (.ssetr a r) s =
    .next (if r = 0x18 && !(s.launchOf s.grp).priv then trapCode s 0x18 else writeSpecial s r.toNat (s.reg a)) := by
  have hr' : ¬ (!specialOk r) = true := by simp [hr]
  exact (strandSerial_quiet h.quiet).trans (congrArg Host.Outcome.next (if_neg hr'))

theorem exec_ssetr_unprivileged (h : Committed s) (hp : (s.launchOf s.grp).priv = false) :
    exec (.ssetr a 0x18) s = .next (trapCode s 0x18) := by
  rw [exec_ssetr h (by decide), hp]
  exact congrArg Host.Outcome.next (if_pos rfl)

theorem exec_shalt_unprivileged (h : Committed s) (hp : (s.launchOf s.grp).priv = false) :
    exec .shalt s = .next (trapCode s 0x18) :=
  (strandSerial_quiet h.quiet).trans (congrArg Host.Outcome.next (if_pos (by simp [hp])))

theorem exec_pgmig_unprivileged (h : Committed s) (hp : (s.launchOf s.grp).priv = false) :
    exec (.pgmig d a b) s = .next (trapCode s 0x18) :=
  (strandSerial_quiet h.quiet).trans (congrArg Host.Outcome.next (if_pos (by simp [hp])))

/-- R176: the SPC of the record is the next word. -/
theorem strandTrap_next {t : Trap} (ha : s.grp.ahead = false) (hn : s.spc + 4 ≠ 0) (ht : t.spc = s.spc + 4) :
    strandTrap s t = deliver s { t with fmt := s.grp.st.fmt } := by
  rw [strandTrap, strandTrapAfter, ha, if_neg (by decide), ht, if_neg hn, ← ht]
  rfl

end Sys2Proof.Machine
end

section
open Sys2Proof.Machine Sys2Proof.Claims

/-- Settles O8: each instruction, in the case named, answers the state in which its trap is delivered. -/
theorem strandTraps : Obligations.StrandTraps := by
  refine ⟨fun s ha => ⟨?div, ?misaligned, ?high, ?landing, ?table, ?format, ?axis, ?push, ?pop, ?privilege, ?handler,
    ?literal, ?srft⟩, fun s c hc ha hn => ⟨?strap, ?sbkpt⟩⟩
  case div =>
    exact fun d a b hf hb => ⟨next_trapCode ha (divOp_zero hf hb _), next_trapCode ha (divOp_zero hf hb _)⟩
  case misaligned => exact fun a hf h4 => exec_sret_fault hf ha (targetFault_misaligned h4)
  case high => exact fun a hf h4 hv => exec_sret_fault hf ha (targetFault_high h4 hv)
  case landing =>
    intro a l w hf h4 hv hw hne
    exact next_trapCode ha ((exec_scallr hf h4 hv hw).trans (congrArg _ (if_neg hne)))
  case table => exact fun a o bound hf hb hle => next_trapCode ha (exec_sjtab_bound hf hb hle)
  case format =>
    exact fun a hf hv => next_trapCode ha ((exec_sfmt hf).trans (congrArg _ (if_neg fun h => hv ((fmtOk_iff _).mp h))))
  case axis => exact fun n a hf hv => next_trapCode ha ((exec_saxis hf).trans (congrArg _ (if_neg (by simp [hv]))))
  case push => exact fun a n hf hk => (exec_sqout_unbound hf hk).trans (congrArg _ (queueTrap_now ha _))
  case pop => exact fun d n hc hk => (exec_sqin_unbound hc hk).trans (congrArg _ (queueTrap_now ha _))
  case privilege =>
    intro a hc hp
    refine ⟨next_trapCode ha ?_, next_trapCode ha ?_, fun d b => next_trapCode ha (exec_pgmig_unprivileged hc hp)⟩
    · exact exec_ssetr_unprivileged hc hp
    · exact exec_shalt_unprivileged hc hp
  case handler => exact fun l hi => next_trapCode ha (congrArg Host.Outcome.next (if_pos hi))
  case literal => exact fun l w => next_trapCode ha rfl
  case srft =>
    exact fun hc hi => next_trapCode ha
      ((strandSerial_quiet hc.quiet).trans (congrArg Host.Outcome.next (if_pos (by simp [hi]))))
  case strap => exact (strandSerial_quiet hc.quiet).trans (congrArg _ (strandTrap_next ha hn rfl))
  case sbkpt => exact (strandSerial_quiet hc.quiet).trans (congrArg _ (strandTrap_next ha hn rfl))

end

