-- ==== Sys2Proof/Proofs/SpecialRegisters.lean ====
section
/-! Special registers (R148, R170-R172): what SGETR reads, what SSETR writes and refuses. -/

namespace Sys2Proof.Machine
open Sys2Proof.Claims

variable {s : State} {a d : BitVec 6} {r : BitVec 8} {n : Nat} {v : Dword} {g : Group}

/-! ### SGETR (R170, R171) -/

theorem exec_sgetr (h : Free s [d]) : exec (.sgetr d r) s =
    .next (if !specialOk r then trapCode s 0x01 else if r = 0x11 && s.grp.ahead then s
      else s.wb d (specialReg s s.grp r.toNat)) := strandFree_ready h

/-- R171: TEAMID by the coordinates of the team in its grid. -/
theorem specialReg_teamid {x y z : Nat} (hx : x < (s.launchOf g).gx) (hy : y < (s.launchOf g).gy)
    (ht : g.team = x + (s.launchOf g).gx * (y + (s.launchOf g).gy * z)) :
    specialReg s g 0x01 = BitVec.ofNat 64 (z * 2 ^ 42 + y * 2 ^ 21 + x) := by
  have hgx : 0 < (s.launchOf g).gx := by omega
  have hrow : g.team / (s.launchOf g).gx = y + (s.launchOf g).gy * z := by
    rw [ht, Nat.add_mul_div_left _ _ hgx, Nat.div_eq_of_lt hx, Nat.zero_add]
  have hz : g.team / ((s.launchOf g).gx * (s.launchOf g).gy) = z := by
    rw [← Nat.div_div_eq_div_mul, hrow, Nat.add_mul_div_left _ _ (by omega), Nat.div_eq_of_lt hy, Nat.zero_add]
  have hy' : g.team / (s.launchOf g).gx % (s.launchOf g).gy = y := by
    rw [hrow, Nat.add_mul_mod_self_left, Nat.mod_eq_of_lt hy]
  have hx' : g.team % (s.launchOf g).gx = x := by rw [ht, Nat.add_mul_mod_self_left, Nat.mod_eq_of_lt hx]
  show BitVec.ofNat 64 (g.team / ((s.launchOf g).gx * (s.launchOf g).gy) * 2 ^ 42 +
    g.team / (s.launchOf g).gx % (s.launchOf g).gy * 2 ^ 21 + g.team % (s.launchOf g).gx) = _
  rw [hz, hy', hx']

theorem specialReg_axis (s : State) (g : Group) (hn : n < 4) :
    specialReg s g (0x0A + n) = mapGet 0 g.st.axis n := by
  interval_cases n <;> rfl

theorem specialReg_qbind (s : State) (g : Group) (hn : n < 16) : specialReg s g (0x20 + n) = mapGet 0 g.qbind n := by
  interval_cases n <;> rfl

/-! ### SSETR (R170) -/

/-- The group that an SSETR leaves, with the strand at the next word. -/
def moved (s : State) (g : Group) : State := s.setGrp { g with st := { g.st with spc := s.spc + 4 } }

/-- A test of a value that is its rule's, and what is written where the value passes. -/
theorem write_or_trap {b : Bool} {p : Prop} [Decidable p] {k : State} (hb : b = true ↔ ¬ p) (hk : k = moved s g) :
    (if b then trapCode s 0x02 else k) = (if p then some g else none).elim (trapCode s 0x02) (moved s) := by
  by_cases hp : p
  · rw [if_neg (fun h => hb.mp h hp), if_pos hp, hk]
    rfl
  · rw [if_pos (hb.mpr hp), if_neg hp]
    rfl

theorem bnot_eq_true_iff {b : Bool} : (!b) = true ↔ ¬ b = true := by simp

/-- R170: the registers below QBIND0 that SSETR writes. -/
def writable : List Nat := [0x09, 0x0A, 0x0B, 0x0C, 0x0D, 0x10, 0x11, 0x12, 0x13, 0x18]

theorem written_of_not_writable (h : n ∉ writable) (s : State) (v : Dword) : written s n v =
    if 0x20 ≤ n ∧ n < 0x30 ∧ qbindOk v.toNat = true ∧ unitPresent s v.toNat = true ∧
      mapGet [] s.grp.pushq (n - 0x20) = []
    then some { s.grp with qbind := mapSet 0 s.grp.qbind (n - 0x20) v } else none := by
  unfold written
  split
  case h_11 => rfl
  all_goals exact absurd (by decide) h

theorem writeSpecial_of_not_writable (h : n ∉ writable) (s : State) (v : Dword) : writeSpecial s n v =
    if 0x20 ≤ n ∧ n < 0x30 then setQbind s (n - 0x20) v else trapCode s 0x02 := by
  unfold writeSpecial
  split
  case h_11 => rfl
  all_goals exact absurd (by decide) h

theorem writable_lt (h : n ∈ writable) : n ≤ 0x18 := by
  revert n
  decide

/-- Below QBIND0 a register is written where the value is legal, and else the value traps. -/
theorem writeSpecial_eq (hl : s.cur.grp < s.groups.length) (hn : n < 0x20) (v : Dword) :
    writeSpecial s n v = (written s n v).elim (trapCode s 0x02) (moved s) := by
  have hv : v.toNat < 2 ^ 64 := v.isLt
  by_cases hw : n ∈ writable
  case neg =>
    rw [writeSpecial_of_not_writable hw, written_of_not_writable hw, if_neg (by omega), if_neg (by omega)]
    rfl
  case pos =>
    simp only [writable, List.mem_cons, List.not_mem_nil, or_false] at hw
    obtain rfl | rfl | rfl | rfl | rfl | rfl | rfl | rfl | rfl | rfl := hw
    · exact write_or_trap bnot_eq_true_iff (advance_setFmt hl v)
    · exact write_or_trap bnot_eq_true_iff (advance_setAxis hl 0 v)
    · exact write_or_trap bnot_eq_true_iff (advance_setAxis hl 1 v)
    · exact write_or_trap bnot_eq_true_iff (advance_setAxis hl 2 v)
    · exact write_or_trap bnot_eq_true_iff (advance_setAxis hl 3 v)
    · exact write_or_trap (by simp only [bits, bne_iff_ne]; omega) (advance_setGrp hl _)
    · exact write_or_trap (by simp only [bits, bne_iff_ne]; omega) (advance_setGrp hl _)
    · exact write_or_trap (by simp only [bits, bne_iff_ne, Bool.or_eq_true]; omega) (advance_setGrp hl _)
    · exact write_or_trap (by simp only [bits, bne_iff_ne, Bool.or_eq_true]; omega) (advance_setGrp hl _)
    · exact write_or_trap (by simp only [bits, bne_iff_ne]; omega) (advance_setGrp hl _)

/-! ### SSETR of QBINDn (R4, R148) -/

theorem qbindOk_iff (v : Dword) : qbindOk v.toNat = true ↔ v.toNat < 2 ^ 13 ∧ v.toNat / 2 ^ 4 % 2 ^ 4 = 0 ∧
    v.toNat % 2 ^ 4 ≤ 5 ∧ v.toNat / 2 ^ 8 % 2 ^ 5 ≤ 23 ∧ (v.toNat % 2 ^ 4 = 1 → v.toNat / 2 ^ 8 % 2 ^ 5 = 0) := by
  have hv : v.toNat < 2 ^ 64 := v.isLt
  simp only [qbindOk, Bool.and_eq_true, beq_iff_eq, decide_eq_true_eq, Bool.not_eq_true', Bool.and_eq_false_iff,
    beq_eq_false_iff_ne, bne_eq_false_iff_eq]
  simp only [bits, Nat.pow_zero, Nat.div_one]
  omega

theorem unitPresent_iff (s : State) (v : Nat) : unitPresent s v = true ↔
    ¬ ((v % 2 ^ 4 = 4 ∧ s.caps.getLsbD 0 = false) ∨ (v % 2 ^ 4 = 5 ∧ s.caps.getLsbD 1 = false)) := by
  simp [unitPresent, bits, bit_toNat, imp_iff_not_or]

/-- The states that binding a queue register can leave. -/
theorem setQbind_illegal (h : qbindOk v.toNat = false) : setQbind s n v = trapCode s 0x02 := if_pos (by simp [h])

theorem setQbind_absent (h : qbindOk v.toNat = true) (hu : unitPresent s v.toNat = false) :
    setQbind s n v = trapCode s 0x0C := by
  rw [setQbind, h, hu]
  rfl

theorem setQbind_present (hl : s.cur.grp < s.groups.length) (h : qbindOk v.toNat = true)
    (hu : unitPresent s v.toNat = true) : setQbind s n v = if (mapGet [] s.grp.pushq n).isEmpty
      then moved s { s.grp with qbind := mapSet 0 s.grp.qbind n v } else s := by
  rw [setQbind, h, hu, advance_setGrp hl]
  cases (mapGet [] s.grp.pushq n).isEmpty <;> rfl

/-! ### What SSETR executes to -/

theorem not_writable_of_ge (h : 0x20 ≤ n) : n ∉ writable := fun hw => by
  have := writable_lt hw
  omega

theorem specialOk_iff : specialOk r = true ↔ r.toNat ≤ 0x18 ∨ 0x20 ≤ r.toNat ∧ r.toNat < 0x30 := by
  simp only [specialOk, Bool.or_eq_true, Bool.and_eq_true, decide_eq_true_eq]
  omega

/-- Only an assigned register is written. -/
theorem specialOk_of_written (h : written s r.toNat v = some g) : specialOk r = true := by
  by_contra hr
  rw [specialOk_iff] at hr
  have hw : r.toNat ∉ writable := fun hw => hr (.inl (writable_lt hw))
  rw [written_of_not_writable hw, if_neg (by omega)] at h
  cases h

/-- An assigned register is written unless it is PRETMO and the group's context is not privileged. -/
theorem exec_ssetr_allowed (hc : Committed s) (hr : specialOk r = true)
    (hp : r = 0x18 → (s.launchOf s.grp).priv = true) :
    exec (.ssetr a r) s = .next (writeSpecial s r.toNat (s.reg a)) := by
  rw [exec_ssetr hc hr, if_neg]
  intro h
  rw [Bool.and_eq_true, decide_eq_true_eq] at h
  simp [hp h.1] at h

theorem exec_ssetr_unassigned (hc : Committed s) (hr : specialOk r = false) :
    exec (.ssetr a r) s = .next (trapCode s 0x01) :=
  (strandSerial_quiet hc.quiet).trans (congrArg Host.Outcome.next (if_pos (by simp [hr])))

theorem exec_ssetr_qbind (hc : Committed s) (h0 : 0x20 ≤ r.toNat) (h1 : r.toNat < 0x30) :
    exec (.ssetr a r) s = .next (setQbind s (r.toNat - 0x20) (s.reg a)) := by
  have hne : r = 0x18 → (s.launchOf s.grp).priv = true := by
    rintro rfl
    exact absurd h0 (by decide)
  rw [exec_ssetr_allowed hc (specialOk_iff.mpr (.inr ⟨h0, h1⟩)) hne,
    writeSpecial_of_not_writable (not_writable_of_ge h0), if_pos ⟨h0, h1⟩]

theorem exec_ssetr_written (hc : Committed s) (hw : written s r.toNat (s.reg a) = some g)
    (hp : r = 0x18 → (s.launchOf s.grp).priv = true) : exec (.ssetr a r) s = .next (moved s g) := by
  obtain hlow | ⟨h0, h1⟩ := specialOk_iff.mp (specialOk_of_written hw)
  · rw [exec_ssetr_allowed hc (specialOk_of_written hw) hp, writeSpecial_eq hc.live (by omega), hw]
    rfl
  · rw [written_of_not_writable (not_writable_of_ge h0)] at hw
    split at hw
    case isFalse => cases hw
    case isTrue h =>
      obtain ⟨-, -, hok, hu, hq⟩ := h
      obtain rfl := Option.some.inj hw
      rw [exec_ssetr_qbind hc h0 h1, setQbind_present hc.live hok hu, hq]
      rfl

end Sys2Proof.Machine
end

section
open Sys2Proof.Machine Sys2Proof.Claims

/-- Settles O38: SGETR by its equation and the registers' values; SSETR below QBIND0 by the table of what it writes, and
SSETR of QBINDn by the outcomes of a binding. -/
theorem specialRegisters : Obligations.SpecialRegisters := by
  refine ⟨fun d r s hf => ⟨?read, ?readWaits, ?readTraps, rfl, rfl, rfl, rfl, rfl, rfl, rfl, rfl, rfl, rfl, rfl, rfl,
    fun n hn => specialReg_axis s _ hn, fun n hn => specialReg_qbind s _ hn,
    fun x y z hx hy ht => specialReg_teamid hx hy ht, rfl, rfl, rfl, rfl, rfl, rfl, rfl, rfl⟩,
    fun a r s hc => ⟨fun g hw hp => exec_ssetr_written hc hw hp, ?illegal, ?unassigned, fun h0 h1 => ?qbind⟩⟩
  case read =>
    intro hr hflags
    have hgo : ¬ (r = 0x11 && s.grp.ahead) = true := by
      rw [Bool.and_eq_true, decide_eq_true_eq]
      rintro ⟨h, ha⟩
      rw [hflags h] at ha
      exact Bool.false_ne_true ha
    rw [exec_sgetr hf, if_neg (by simp [hr]), if_neg hgo]
    exact writes_setReg_setSpc hf.live d _ _
  case readWaits =>
    rintro rfl ha
    rw [exec_sgetr hf, ha]
    rfl
  case readTraps => exact fun ha hr => next_trapCode ha ((exec_sgetr hf).trans (congrArg _ (if_pos (by simp [hr]))))
  case illegal =>
    intro hlow hr hw hp
    refine next_trapCode hc.ahead ((exec_ssetr_allowed hc hr hp).trans (congrArg _ ?_))
    rw [writeSpecial_eq hc.live hlow, hw]
    rfl
  case unassigned => exact fun hr => next_trapCode hc.ahead (exec_ssetr_unassigned hc hr)
  case qbind =>
    intro v kind unit_ legal absent
    have hlegal : qbindOk (s.reg a).toNat = true ↔ legal := qbindOk_iff (s.reg a)
    have hpresent : unitPresent s (s.reg a).toNat = true ↔ ¬ absent := unitPresent_iff s _
    have hexec := exec_ssetr_qbind (a := a) hc h0 h1
    refine ⟨fun h => next_trapCode hc.ahead (hexec.trans (congrArg _ ?_)),
      fun h hu => next_trapCode hc.ahead (hexec.trans (congrArg _ ?_)),
      fun h hu hq => hexec.trans (congrArg _ ?_), fun h hu hq => hexec.trans (congrArg _ ?_)⟩
    · exact setQbind_illegal (Bool.eq_false_iff.mpr fun hok => h (hlegal.mp hok))
    · exact setQbind_absent (hlegal.mpr h) (Bool.eq_false_iff.mpr fun hp => hpresent.mp hp hu)
    · rw [setQbind_present hc.live (hlegal.mpr h) (hpresent.mpr hu), if_neg (by simpa using hq)]
    · rw [setQbind_present hc.live (hlegal.mpr h) (hpresent.mpr hu), hq]
      rfl

end

