-- ==== Sys2Proof/Proofs/GroupEnds.lean ====
section
/-! The ends of a group (R175, R178, R284): the fence of MWAIT, the end of SEND, the save of SHALT. -/

namespace Sys2Proof.Machine
open Sys2Proof.Claims

variable {s0 s t : State} {gi : Nat}

/-! ### What a fence leaves alone -/

/-- A group without what it notes of memory, and without what a fence makes visible to it. -/
def Group.unfenced (g : Group) : Group :=
  { g.lasting with
    vis := []
    fences := [] }

/-- The state has come from another by what changes, of every group, no more than a fence does. -/
structure Fenced (s t : State) : Prop where
  length : t.groups.length = s.groups.length
  unfenced : ∀ g, (t.group g).unfenced = (s.group g).unfenced

theorem GroupsKept.fenced (h : GroupsKept s t) : Fenced s t :=
  ⟨h.length, fun g => congrArg (fun x : Group => { x with vis := [], fences := [] }) (h.lasting g)⟩

theorem Fenced.setGroup {g : Nat} {x : Group} (h : Fenced s0 s) (hx : x.unfenced = (s.group g).unfenced) :
    Fenced s0 (s.setGroup g x) where
  length := (State.setGroup_length ..).trans h.length
  unfenced i := by
    rw [State.group_setGroup, ← h.unfenced i]
    split
    next hi => rw [hx, hi.1]
    · rfl

theorem Fenced.ite {c : Prop} [Decidable c] (hs : Fenced s0 s) (ht : Fenced s0 t) : Fenced s0 (if c then s else t) := by
  split
  · exact hs
  · exact ht

theorem Fenced.seeWrites {g n : Nat} {ws : List (Nat × Nat × Nat)} (h : Fenced s0 s) :
    Fenced s0 (seeWrites s g n ws) := h.setGroup rfl

theorem fenced_fenceOver (s : State) (g n : Nat) (ws : List (Nat × Nat × Nat)) : Fenced s (fenceOver s g n ws) := by
  unfold fenceOver
  split
  · exact (GroupsKept.refl s).fenced
  · extract_lets seen s1 s2 s3 s4 g4
    have h1 : GroupsKept s s1 := .ite (GroupsKept.refl s).performDirty (.refl s)
    have h2 : GroupsKept s s2 := .ite h1.update h1
    have h3 : Fenced s s3 := h2.fenced.seeWrites
    have h4 : Fenced s s4 := h3.seeWrites
    exact .ite (h4.setGroup rfl) h3

theorem Fenced.pushq (h : Fenced s t) (g : Nat) : (t.group g).pushq = (s.group g).pushq :=
  show (t.group g).unfenced.pushq = (s.group g).unfenced.pushq from congrArg _ (h.unfenced g)

theorem Fenced.inh (h : Fenced s t) (g : Nat) : (t.group g).inh = (s.group g).inh :=
  show (t.group g).unfenced.inh = (s.group g).unfenced.inh from congrArg _ (h.unfenced g)

theorem Fenced.blocks (h : Fenced s t) (g : Nat) : (t.group g).blocks = (s.group g).blocks :=
  show (t.group g).unfenced.blocks = (s.group g).unfenced.blocks from congrArg _ (h.unfenced g)

/-! ### What the end of a group leaves alone -/

/-- The same stores wait, and the same groups run. -/
structure RunsKept (s t : State) : Prop where
  dirty : t.dirty = s.dirty
  length : t.groups.length = s.groups.length
  run : ∀ g, (t.group g).run = (s.group g).run

theorem RunsKept.refl (s : State) : RunsKept s s := ⟨rfl, rfl, fun _ => rfl⟩

theorem RunsKept.trans (h : RunsKept s0 s) (h' : RunsKept s t) : RunsKept s0 t :=
  ⟨h'.dirty.trans h.dirty, h'.length.trans h.length, fun g => (h'.run g).trans (h.run g)⟩

/-- A performed write is seen neither by the stores that wait nor by what a group runs. -/
theorem runsKept_of_kept (h : StrandsKept s s.dirty t) (h' : GroupsKept s t) : RunsKept s t :=
  ⟨h.dirty, h.length, h'.run⟩

/-- The parts of the state in question are the same. -/
theorem RunsKept.of_eq (h : RunsKept s0 s) (hd : t.dirty = s.dirty) (hg : t.groups = s.groups) : RunsKept s0 t := by
  refine h.trans ⟨hd, congrArg _ hg, fun g => ?_⟩
  rw [State.group, State.group, hg]

theorem RunsKept.setGroup {g : Nat} {x : Group} (h : RunsKept s0 s) (hx : x.run = (s.group g).run) :
    RunsKept s0 (s.setGroup g x) := by
  refine h.trans ⟨rfl, State.setGroup_length .., fun i => ?_⟩
  rw [State.group_setGroup]
  split
  next hi => rw [hx, hi.1]
  · rfl

theorem RunsKept.ite {c : Prop} [Decidable c] (hs : RunsKept s0 s) (ht : RunsKept s0 t) :
    RunsKept s0 (if c then s else t) := by
  split
  · exact hs
  · exact ht

theorem RunsKept.foldl {α : Type} {f : State → α → State} {xs : List α} (h : RunsKept s0 s)
    (hf : ∀ {t x}, RunsKept s0 t → RunsKept s0 (f t x)) : RunsKept s0 (xs.foldl f s) := by
  induction xs generalizing s with
  | nil => exact h
  | cons x xs ih => exact ih (hf h)

theorem RunsKept.performBy {w : Writer} {u : Nat} {mask val : Dword} (h : RunsKept s0 s) :
    RunsKept s0 (performBy s w u mask val) :=
  h.trans (runsKept_of_kept (StrandsKept.refl s).performBy (GroupsKept.refl s).performBy)

theorem RunsKept.performDwords {loc : Nat} {ds : List Dword} (h : RunsKept s0 s) :
    RunsKept s0 (performDwords s loc ds) := by
  induction ds generalizing s loc with
  | nil => exact h
  | cons d ds ih => exact ih h.performBy

theorem RunsKept.saveStore {i : Nat} (h : RunsKept s0 s) : RunsKept s0 (saveStore s i) :=
  .ite h ((h.foldl fun ht => ht.performDwords).of_eq rfl rfl)

theorem RunsKept.finishTeam {launch team : Nat} (h : RunsKept s0 s) : RunsKept s0 (finishTeam s launch team) :=
  .ite h (h.of_eq rfl rfl)

theorem RunsKept.ungateLeft {core asid : Nat} (h : RunsKept s0 s) : RunsKept s0 (ungateLeft s core asid) :=
  .ite (h.of_eq rfl rfl) h

theorem RunsKept.placeStore {a : Acc} {size : Nat} {v : Dword} (h : RunsKept s0 s) :
    RunsKept s0 (placeStore s a size v) := by
  simp only [Machine.placeStore, placeStoreBy]
  refine .ite (h.of_eq rfl rfl) (.ite ?_ (.ite (h.of_eq rfl rfl) (.ite (h.performBy.of_eq rfl rfl) h.performBy)))
  split
  · exact h.of_eq rfl rfl
  · exact h

theorem RunsKept.pinCount {ps : List Pin} {up : Bool} (h : RunsKept s0 s) : RunsKept s0 (pinCount s ps up) :=
  h.foldl fun ht => .ite (.ite ht.performBy ht) ht

theorem RunsKept.finishLaunch {li : Nat} (h : RunsKept s0 s) : RunsKept s0 (finishLaunch s li) := by
  unfold Machine.finishLaunch
  extract_lets l s1 old s2 left last
  refine .ite h ?_
  have h1 : RunsKept s0 s1 := h.of_eq rfl rfl
  have h2 : RunsKept s0 s2 := by
    dsimp only [s2]
    split
    next p _ =>
      have hfront : RunsKept s0 { s1 with cur := { old with grp := frontGroup l.queue } } := h1.of_eq rfl rfl
      have hstore := hfront.placeStore (a := p.acc s1 l.caddr) (size := 8) (v := l.cval)
      exact RunsKept.pinCount (hstore.of_eq rfl rfl)
    · exact h1
  exact h2.of_eq rfl rfl

/-! ### Places given up at the end (R301) -/

theorem RunsKept.grantPlace {slice hdr q : Nat} (h : RunsKept s0 s) : RunsKept s0 (grantPlace s slice hdr q) := by
  have hwake (g : Group) : (wakeAway g).run = g.run := by
    unfold wakeAway
    split <;> rfl
  unfold Machine.grantPlace
  extract_lets r s1 header s2
  have h2 : RunsKept s0 s2 := h.of_eq rfl rfl
  split
  · exact .ite (h2.setGroup (hwake _)) h2
  · exact h2

theorem RunsKept.releaseFrom {slice hdr fuel q : Nat} (h : RunsKept s0 s) :
    RunsKept s0 (releaseFrom s slice hdr fuel q) := by
  induction fuel generalizing s q with
  | zero => exact h
  | succ fuel ih => exact .ite (h.of_eq rfl rfl) (.ite (ih (h.of_eq rfl rfl)) h.grantPlace)

theorem RunsKept.dropPlace {slice p : Nat} (h : RunsKept s0 s) : RunsKept s0 (dropPlace s slice p) :=
  .ite (RunsKept.releaseFrom (h.of_eq rfl rfl)) (h.of_eq rfl rfl)

theorem RunsKept.dropPlaces (h : RunsKept s0 s) : RunsKept s0 (dropPlaces s gi) := by
  unfold Machine.dropPlaces
  extract_lets s1 s2
  have h1 : RunsKept s0 s1 := h.foldl fun ht => ht.dropPlace
  have h2 : RunsKept s0 s2 := h1.foldl fun ht => ht.of_eq rfl rfl
  exact h2.of_eq rfl rfl

/-! ### The end of a group (R175) -/

theorem removeGroup_run (hl : gi < s.groups.length) : ((removeGroup s gi).group gi).run = .ended := by
  unfold removeGroup
  extract_lets g s1 s2
  exact congrArg Group.run (State.group_setGroup_same s2 gi _ hl)

theorem endGroup_kept (s : State) (gi : Nat) : RunsKept (removeGroup s gi) (endGroup s gi) := by
  have h : RunsKept (removeGroup s gi) (loseLatches (removeGroup s gi) (s.group gi)) := (RunsKept.refl _).of_eq rfl rfl
  exact (h.finishTeam.saveStore.foldl fun ht => ht.ungateLeft).finishLaunch

theorem removeGroup_dirty (s : State) (gi : Nat) : (removeGroup s gi).dirty = s.dirty := by
  unfold removeGroup
  extract_lets g s1 s2
  exact State.setGroup_dirty s2 gi _

theorem endGroup_ends (hl : gi < s.groups.length) :
    ((endGroup s gi).group gi).run = .ended ∧ (endGroup s gi).dirty = s.dirty := by
  have h := endGroup_kept s gi
  rw [h.run, h.dirty, removeGroup_run hl, removeGroup_dirty]
  exact ⟨rfl, rfl⟩

/-! ### The save of a group (R259, R260) -/

/-- The strand of a group has not run ahead of a block. -/
def Group.settled (g : Group) : Prop := (g.inh || g.blocks.isEmpty) = true

theorem rollbackGroup_settled (h : (s.group gi).settled) : rollbackGroup s gi = s := by
  have hahead : (s.group gi).ahead = false := by
    rw [Group.ahead, ← Bool.not_or, h, Bool.not_true]
  have hback : (s.group gi).rollback = s.group gi := by
    rw [Group.rollback]
    split
    · rfl
    next hi =>
      have hb : (s.group gi).blocks = [] := by simpa [Group.settled, hi] using h
      rw [hb]
  rw [rollbackGroup, hahead, hback]
  exact State.setGroup_self s gi

/-- A save performs the stores of its group, and leaves the strands as they are. -/
theorem strandsKept_saveGroup (h : (s.group gi).settled) (job : SaveJob) :
    StrandsKept s (remaining (ownStores gi) s.dirty) (saveGroup s gi job) := by
  have hp := (StrandsKept.refl s).pub (g := gi) (scope := 5) (by decide)
  have hready : StrandsKept s (remaining (ownStores gi) s.dirty) (saveReady s gi) := by
    rw [saveReady, rollbackGroup_settled h]
    generalize pub s gi 5 = u at hp
    exact ⟨hp.cur, hp.dirty, hp.length, hp.strand, hp.deferred⟩
  rw [saveGroup_eq]
  generalize saveReady s gi = u at hready
  exact hready.setGroup rfl rfl

theorem not_own_of_mem_remaining {d : Dirty} {ds : List Dirty} (h : d ∈ remaining (ownStores gi) ds) :
    ¬ (d.grp = gi ∧ d.cp = false) := fun hn => not_picked_of_mem_remaining h (by simp [ownStores, hn])

/-- A save that follows a fence, with the strand at the next word: every store of the group is performed. -/
theorem saveGroup_fenced {ds : List Dirty} (hl : s.cur.grp < s.groups.length) (hq : s.grp.settled)
    (hk : StrandsKept s ds t) (hf : Fenced s t) (job : SaveJob) :
    (saveGroup t.advance s.cur.grp job).grp.run = .saving ∧ (saveGroup t.advance s.cur.grp job).spc = s.spc + 4 ∧
      (saveGroup t.advance s.cur.grp job).grp.save = some job ∧
      ∀ d ∈ (saveGroup t.advance s.cur.grp job).dirty, ¬ (d.grp = s.cur.grp ∧ d.cp = false) := by
  have hcur : t.advance.cur = s.cur := hk.cur
  have hlen : s.cur.grp < t.advance.groups.length := by
    rw [State.advance, State.setSpc, State.setGrp_length, hk.length]
    exact hl
  have hgrp := State.advance_grp (s := t) (by rw [hk.cur, hk.length]; exact hl)
  have hset : (t.advance.group s.cur.grp).settled := by
    have hinh : t.grp.inh = s.grp.inh := by rw [State.grp, hk.cur]; exact hf.inh _
    have hblocks : t.grp.blocks = s.grp.blocks := by rw [State.grp, hk.cur]; exact hf.blocks _
    rw [← hcur, ← State.grp, hgrp, Group.settled, hinh, hblocks]
    exact hq
  obtain ⟨hrun, -, hjob⟩ := saveGroup_group (job := job) hlen
  have hsave := strandsKept_saveGroup hset job
  refine ⟨?_, ?_, ?_, fun d hd => ?_⟩
  · rw [State.grp, hsave.cur, hcur]
    exact hrun
  · rw [State.spc, hsave.grp_st]
    exact (hk.passed hl).spc
  · rw [State.grp, hsave.cur, hcur]
    exact hjob
  · rw [hsave.dirty] at hd
    exact not_own_of_mem_remaining hd

/-! ### SEND and SHALT (R175, R178) -/

theorem mwaitThen_over {k : State → State} (hm : matrixBusy s s.cur.grp = false)
    (hr : fenceReady s s.cur.grp 3 = true) : mwaitThen s k = k (fenceEffect s s.cur.grp 3) :=
  if_neg (by simp [hm, hr])

theorem mwaitThen_wait {k : State → State} (h : ¬ (matrixBusy s s.cur.grp = false ∧ fenceReady s s.cur.grp 3 = true)) :
    mwaitThen s k = s := by
  refine if_pos ?_
  rw [Bool.or_eq_true, Bool.not_eq_true']
  by_contra hn
  rw [not_or, Bool.not_eq_true, Bool.not_eq_false] at hn
  exact h hn

/-- R175: what SEND does once MWAIT is over. -/
def sendOn (gi : Nat) (s : State) : State :=
  if s.grp.pushq.any (fun p => !p.2.isEmpty) then s
  else if !pubReady (pub s gi 5) gi 5 then pub s gi 5
  else endGroup (dropPlaces (pub s gi 5) gi) gi

theorem exec_send (hc : Committed s) : exec .send s = .next (mwaitThen s (sendOn s.cur.grp)) :=
  strandSerial_quiet hc.quiet

/-- With its pushes done and its stores published, the group gives up its places and ends. -/
theorem sendOn_over (hp : ∀ p ∈ s.grp.pushq, p.2 = []) (hd : pubReady (pub s gi 5) gi 5 = true) :
    sendOn gi s = endGroup (dropPlaces (pub s gi 5) gi) gi := by
  rw [sendOn, if_neg (by simpa using hp), if_neg (by simp [hd])]

theorem sendOn_ends (hl : gi < s.groups.length) (hp : ∀ p ∈ s.grp.pushq, p.2 = [])
    (hd : pubReady (pub s gi 5) gi 5 = true) : ((sendOn gi s).group gi).run = .ended ∧
      ∀ d ∈ (sendOn gi s).dirty, ¬ (d.grp = gi ∧ d.cp = false) := by
  have hpub := (StrandsKept.refl s).pub (g := gi) (scope := 5) (by decide)
  have hdrop := (RunsKept.refl (pub s gi 5)).dropPlaces (gi := gi)
  obtain ⟨hrun, hdirty⟩ := endGroup_ends (s := dropPlaces (pub s gi 5) gi) (gi := gi)
    (by rw [hdrop.length, hpub.length]; exact hl)
  rw [sendOn_over hp hd, hdirty, hdrop.dirty, hpub.dirty]
  exact ⟨hrun, fun d => not_own_of_mem_remaining⟩

/-- R178: a privileged group saves its whole context once MWAIT is over. -/
theorem exec_shalt (hc : Committed s) (hp : (s.launchOf s.grp).priv = true) : exec .shalt s =
    .next (mwaitThen s (fun s0 => saveGroup s0.advance s.cur.grp ⟨3, true, 0, 0, false, none, []⟩)) :=
  (strandSerial_quiet hc.quiet).trans (congrArg Host.Outcome.next (if_neg (by simp [hp])))

end Sys2Proof.Machine
end

section
open Sys2Proof.Machine Sys2Proof.Claims

/-- Settles O39: the fence of MWAIT leaves the group's pushes, blocks and strand as they were; the end of SEND and the
save of SHALT follow a pub, and nothing after it lets a store wait anew. -/
theorem groupEnds : Obligations.GroupEnds := by
  intro s hc settled
  have hk : StrandsKept s _ (fenceEffect s s.cur.grp 3) := (StrandsKept.refl s).fenceOver
  have hf : Fenced s (fenceEffect s s.cur.grp 3) := fenced_fenceOver s _ 3 _
  refine ⟨fun ⟨hm, hr⟩ hp hd => ?send, fun hp ⟨hm, hr⟩ => ?shalt, fun h => ⟨?sendWaits, fun hp => ?shaltWaits⟩⟩
  case send =>
    have hpushq : (fenceEffect s s.cur.grp 3).grp.pushq = s.grp.pushq := by
      rw [State.grp, hk.cur]
      exact hf.pushq _
    rw [PubDone, hk.cur] at hd
    rw [exec_send hc, mwaitThen_over hm hr]
    exact ⟨_, rfl, sendOn_ends (hf.length ▸ hc.live) (hpushq ▸ hp) hd⟩
  case shalt =>
    have hq : s.grp.settled := (Bool.and_eq_true_iff.mp hc.quiet).1
    rw [exec_shalt hc hp, mwaitThen_over hm hr]
    exact ⟨_, rfl, saveGroup_fenced hc.live hq hk hf _⟩
  case sendWaits => rw [exec_send hc, mwaitThen_wait h]
  case shaltWaits => rw [exec_shalt hc hp, mwaitThen_wait h]

end

