-- ==== Sys2Proof/Proofs/LaneResults.lean ====
section
/-! The environment of a lane instruction, and the results by lane that it writes (R97, R183, R184). -/

namespace Sys2Proof.Machine
open Sys2Proof.Claims

/-! ### Lanes of a fragment (R126, R181) -/

theorem Frag.mem_slices {f : Frag} {sl : Nat} : sl ∈ f.slices ↔ sl < 16 ∧ bit f.smask.toNat sl = true := by
  simp [Frag.slices, maskList]

theorem Frag.mem_lanes {f : Frag} {l : Nat} : l ∈ f.lanes ↔ l / 4 ∈ f.slices := by
  have hsl (sl : Nat) : l ∈ [4 * sl, 4 * sl + 1, 4 * sl + 2, 4 * sl + 3] ↔ l / 4 = sl := by
    simp only [List.mem_cons, List.not_mem_nil, or_false]
    omega
  simp only [Frag.lanes, List.mem_flatten, List.mem_map, exists_exists_and_eq_and, hsl]
  exact ⟨fun ⟨sl, h, he⟩ => he ▸ h, fun h => ⟨_, h, rfl⟩⟩

theorem Frag.nodup_lanes (f : Frag) : f.lanes.Nodup := by
  refine List.nodup_flatten.mpr ⟨by simp, ?_⟩
  refine List.Pairwise.map _ (R := (· ≠ ·)) (fun a b hab => ?_) (List.nodup_range.filter _)
  intro x hx hy
  simp only [List.mem_cons, List.not_mem_nil, or_false] at hx hy
  omega

section
variable {s : State} {f : LaneWord} {l : Nat}

theorem mem_activeLanes : l ∈ activeLanes s f ↔ l / 4 ∈ s.frag.slices ∧ laneActive s f l = true := by
  rw [activeLanes, List.mem_filter, Frag.mem_lanes]

theorem lt_of_mem_activeLanes (h : l ∈ activeLanes s f) : l < 64 := by
  have := (Frag.mem_slices.mp (mem_activeLanes.mp h).1).1
  omega

theorem nodup_activeLanes (s : State) (f : LaneWord) : (activeLanes s f).Nodup := s.frag.nodup_lanes.filter _

end

/-! ### Writes by lane -/

/-- What a lane reads after writes by lane: its own value where it is among those written. -/
theorem foldl_lanes_read {α β : Type} {step : α → Nat → α} {read : α → β} {l : Nat} {x : β} (lanes : List Nat) (a : α)
    (h : ∀ a, ∀ k ∈ lanes, read (step a k) = if k = l then x else read a) :
    read (lanes.foldl step a) = if l ∈ lanes then x else read a := by
  induction lanes generalizing a with
  | nil => rfl
  | cons k ks ih =>
    rw [List.foldl_cons, ih _ fun a j hj => h a j (List.mem_cons_of_mem _ hj), h a k List.mem_cons_self]
    by_cases hk : k = l
    · simp [hk]
    · simp [hk, Ne.symm hk]

/-! ### Vector registers by lane (R184) -/

/-- One lane of a register, or of a pair, in a group's vector registers. -/
def putLane (wide : Bool) (r : Nat) (m : SMap Word) (l x : Nat) : SMap Word :=
  let m' := mapSet 0 m (64 * r + l) (BitVec.ofNat 32 x)
  if wide then mapSet 0 m' (64 * (r + 1) + l) (BitVec.ofNat 32 (x / 2 ^ 32)) else m'

/-- The vector registers once lanes have their values. -/
def putLanes (wide : Bool) (r : Nat) (lanes : List Nat) (v : Nat → Nat) (m : SMap Word) : SMap Word :=
  lanes.foldl (fun m l => putLane wide r m l (v l)) m

theorem foldl_setLane (wide : Bool) (r : Nat) (lanes : List Nat) (v : Nat → Nat) (g : Group) :
    (lanes.map fun l => (l, v l)).foldl (fun g v => g.setLane wide r v.1 v.2) g =
      { g with vregs := putLanes wide r lanes v g.vregs } := by
  induction lanes generalizing g with
  | nil => rfl
  | cons l lanes ih => exact ih (g.setLane wide r l (v l))

section
variable {wide : Bool} {r q l : Nat} {v : Nat → Nat} {m : SMap Word} {lanes : List Nat}

theorem mapGet_putLane_other {k x : Nat} (hk : k < 64) (hl : l < 64)
    (h : ¬(k = l ∧ (q = r ∨ wide = true ∧ q = r + 1))) :
    mapGet 0 (putLane wide r m k x) (64 * q + l) = mapGet 0 m (64 * q + l) := by
  cases wide
  · exact mapGet_mapSet_other _ _ _ _ _ (by simp at h; omega)
  · exact (mapGet_mapSet_other _ _ _ _ _ (by simp at h; omega)).trans
      (mapGet_mapSet_other _ _ _ _ _ (by simp at h; omega))

variable (hlanes : ∀ k ∈ lanes, k < 64)
include hlanes

theorem mapGet_putLanes_same (h : l ∈ lanes) :
    mapGet 0 (putLanes wide r lanes v m) (64 * r + l) = BitVec.ofNat 32 (v l) := by
  refine (foldl_lanes_read (read := (mapGet 0 · (64 * r + l))) lanes m fun m k hk => ?_).trans (if_pos h)
  split
  next he =>
    subst he
    cases wide
    · exact mapGet_mapSet_same ..
    · exact (mapGet_mapSet_other _ _ _ _ _ (by omega)).trans (mapGet_mapSet_same ..)
  next he => exact mapGet_putLane_other (hlanes k hk) (hlanes l h) (by simp [he])

theorem mapGet_putLanes_pair (h : l ∈ lanes) :
    mapGet 0 (putLanes true r lanes v m) (64 * (r + 1) + l) = BitVec.ofNat 32 (v l / 2 ^ 32) := by
  refine (foldl_lanes_read (read := (mapGet 0 · (64 * (r + 1) + l))) lanes m fun m k hk => ?_).trans (if_pos h)
  split
  next he =>
    subst he
    exact mapGet_mapSet_same ..
  next he => exact mapGet_putLane_other (hlanes k hk) (hlanes l h) (by simp [he])

theorem mapGet_putLanes_other (hl : l < 64) (h : ¬(l ∈ lanes ∧ (q = r ∨ wide = true ∧ q = r + 1))) :
    mapGet 0 (putLanes wide r lanes v m) (64 * q + l) = mapGet 0 m (64 * q + l) := by
  refine List.foldlRecOn (motive := fun m' => mapGet 0 m' (64 * q + l) = mapGet 0 m (64 * q + l)) _ _ rfl
    fun m' hm k hk => (mapGet_putLane_other (hlanes k hk) hl fun hc => h ?_).trans hm
  exact ⟨hc.1 ▸ hk, hc.2⟩

end

/-! ### Latches by lane (R136, R184) -/

/-- What the lanes of a latch of a pipe hold that have been written since its loss. -/
def latchOf (ps : SMap Pipe) (p n l : Nat) : Option Word :=
  ((mapGet default (mapGet default ps p).latches n).lanes.find? (fun x => x.1 == l)).map Prod.snd

theorem latchLane_of_latchOf {s : State} {n l : Nat} {w : Word} (h : latchOf s.pipes (pipeOf s.grp) n l = some w) :
    latchLane s n l = w.toNat := by
  obtain ⟨p, hp, rfl⟩ := Option.map_eq_some_iff.mp h
  rw [latchLane, hp]

/-- The pipes once lanes of a latch have their values. -/
def putLatch (ps : SMap Pipe) (p n : Nat) (lanes : List Nat) (v : Nat → Nat) : SMap Pipe :=
  let x := mapGet default ps p
  mapSet default ps p ⟨if x.hold = 4 then 3 else x.hold, x.owner, mapSet default x.latches n
    ⟨true, lanes.foldl (fun m l => m.filter (fun y => y.1 != l) ++ [(l, BitVec.ofNat 32 (v l))])
      (mapGet default x.latches n).lanes⟩⟩

theorem setLatch_eq (s : State) (n : Nat) (lanes : List Nat) (v : Nat → Nat) :
    setLatch s n (lanes.map fun l => (l, v l)) = { s with pipes := putLatch s.pipes (pipeOf s.grp) n lanes v } := by
  rw [setLatch, List.foldl_map]
  rfl

section
variable {ps : SMap Pipe} {p n k l : Nat} {lanes : List Nat} {v : Nat → Nat}

theorem latchOf_putLatch_same (h : l ∈ lanes) :
    latchOf (putLatch ps p n lanes v) p n l = some (BitVec.ofNat 32 (v l)) := by
  simp only [latchOf, putLatch, mapGet_mapSet_same]
  refine (foldl_lanes_read (read := fun m : SMap Word => (m.find? (fun x => x.1 == l)).map Prod.snd)
    (step := fun m l => m.filter (fun y => y.1 != l) ++ [(l, BitVec.ofNat 32 (v l))]) lanes _
    fun m k _ => ?_).trans (if_pos h)
  rw [List.find?_append]
  split
  next he =>
    subst he
    have hnone : (m.filter (fun y => y.1 != k)).find? (fun x => x.1 == k) = none := by simp [List.find?_eq_none]
    simp [hnone]
  next he =>
    have hsame : (m.filter (fun y => y.1 != k)).find? (fun x => x.1 == l) = m.find? (fun x => x.1 == l) := by
      rw [List.find?_filter]
      congr 1
      funext x
      by_cases hx : x.1 = l
      · simp [hx, Ne.symm he]
      · simp [hx]
    simp [hsame, he]

theorem latchOf_putLatch_other (h : k ≠ n) : latchOf (putLatch ps p n lanes v) p k l = latchOf ps p k l := by
  simp only [latchOf, putLatch, mapGet_mapSet_same, mapGet_mapSet_other _ _ _ _ _ h]

end

/-! ### Popped words and the environment (R101, R102, R183, R185) -/

/-- The group with other words for its queue registers. -/
def Group.popped (g : Group) (q : SMap (List Dword)) (k : List (Nat × Nat × List Dword)) : Group :=
  { g with popq := q, taken := k }

theorem popAll_eq (ps : List Nat) (g : Group) : ∃ q, (popAll g ps).1 = g.popped q g.taken := by
  induction ps generalizing g with
  | nil => exact ⟨g.popq, rfl⟩
  | cons p ps ih =>
    obtain ⟨q, hq⟩ := ih { g with popq := mapSet [] g.popq p (mapGet [] g.popq p).tail }
    exact ⟨q, hq⟩

theorem popWords_eq (s : State) (ps : List Nat) : ∃ q k, (popWords s ps).1 = s.grp.popped q k := by
  unfold popWords
  split
  · exact ⟨s.grp.popq, _, rfl⟩
  · obtain ⟨q, hq⟩ := popAll_eq ps s.grp
    exact ⟨q, s.grp.taken, hq⟩

/-- What the meaning of a lane instruction may rest on: it sees the state but for the words popped. -/
structure EnvOf (s : State) (spec : LaneSpec) (f : LaneWord) (ok : Ty → Bool) (e : Env) : Prop where
  s0 : e.s0 = s
  pops : ∃ q k, e.s = s.setGrp (s.grp.popped q k)
  word : e.f = f
  act : e.act = activeLanes s f
  ty : ok e.ty = true
  noTy : spec.ty = .zero → e.ty = .b32

theorem EnvOf.state {s : State} {spec : LaneSpec} {f : LaneWord} {ok : Ty → Bool} {e : Env} (he : EnvOf s spec f ok e)
    (hl : s.cur.grp < s.groups.length) : ∃ k, e.s = s.setGrp (s.grp.popped e.s.grp.popq k) := by
  obtain ⟨q, k, hs⟩ := he.pops
  have hq : e.s.grp.popq = q := by
    rw [hs, State.grp_setGrp _ _ hl]
    rfl
  exact ⟨k, hq ▸ hs⟩

theorem envT_ok {s : State} {i : Instr} {f : LaneWord} {ok : Ty → Bool} {ra rb rc : Ty → Read} {e : Env}
    (h : envT s i f ok ra rb rc = .ok e) : EnvOf s (specOf i) f ok e := by
  simp only [envT, laneEnv] at h
  split at h
  case h_1 => cases h
  case h_2 t ht =>
  split at h
  case isTrue => cases h
  case isFalse hok =>
  split at h
  case isTrue => cases h
  case isFalse =>
  split at h
  case h_1 => cases h
  case h_2 =>
  split at h
  case isTrue => cases h
  case isFalse =>
  cases h
  obtain ⟨q, k, hg⟩ := popWords_eq s (popsOf (specOf i) f)
  refine ⟨rfl, ⟨q, k, congrArg s.setGrp hg⟩, rfl, rfl, ?_, fun hz => ?_⟩
  · simp only [Bool.or_eq_true, Bool.not_eq_true', not_or, Bool.not_eq_false] at hok
    exact hok.1
  · simpa [hz] using ht.symm

/-! ### A lane instruction that has moved on -/

def State.setPipes (s : State) (ps : SMap Pipe) : State := { s with pipes := ps }

/-- The group once the instruction of a fragment has moved on, with these words left for the queue registers, flags,
vector registers and predicates. -/
def Group.laneDone (g : Group) (fi : Nat) (q : SMap (List Dword)) (k : List (Nat × Nat × List Dword)) (fl : Dword)
    (m : SMap Word) (ps : SMap Nat) : Group :=
  { g with
    frags := mapSet default g.frags fi { g.fragAt fi with pc := (g.fragAt fi).pc + 1 }
    popq := q
    taken := k
    fpflags := fl
    vregs := m
    preds := ps }

section
variable {s : State} {q : SMap (List Dword)} {k : List (Nat × Nat × List Dword)} {fl : Dword} {m : SMap Word}
  {ps : SMap Nat} {pipes : SMap Pipe} {g : Group} (hl : s.cur.grp < s.groups.length)
include hl

theorem grp_setPipes_setGrp : ((s.setGrp g).setPipes pipes).grp = g := State.grp_setGrp s g hl

theorem nextLane_setPipes_setGrp : ((s.setGrp g).setPipes pipes).nextLane =
    (s.setGrp (g.putFrag s.cur.frag
      { g.fragAt s.cur.frag with pc := (g.fragAt s.cur.frag).pc + 1 })).setPipes pipes := by
  have hgrp : (s.setGrp g).grp = g := State.grp_setGrp s g hl
  have hset (x : Group) : ((s.setGrp g).setPipes pipes).setGrp x = (s.setGrp x).setPipes pipes :=
    congrArg (State.setPipes · pipes) (State.setGrp_twice s g x)
  rw [State.nextLane, State.setFrag, hset, State.frag, grp_setPipes_setGrp hl]
  rfl

theorem laneDone_frag : ((s.setGrp (s.grp.laneDone s.cur.frag q k fl m ps)).setPipes pipes).frag =
    { s.frag with pc := s.frag.pc + 1 } := by
  rw [State.frag, grp_setPipes_setGrp hl]
  exact mapGet_mapSet_same ..

theorem laneDone_frame : LaneFrame s ((s.setGrp (s.grp.laneDone s.cur.frag q k fl m ps)).setPipes pipes) where
  rest := rfl
  others i hi := State.group_setGroup_other s _ i _ hi
  group := by
    rw [grp_setPipes_setGrp hl]
    rfl
  frags i hi := by
    rw [grp_setPipes_setGrp hl]
    exact mapGet_mapSet_other _ _ _ _ _ hi
  bytes _ := rfl

end

/-! ### Results by lane (R97, R184) -/

/-- The vector registers and the latches that an instruction leaves. -/
def regsAfter (f : LaneWord) (wide : Bool) (lanes : List Nat) (v : Nat → Nat) (m : SMap Word) : SMap Word :=
  if f.nowb then m else putLanes wide f.dst.toNat lanes v m
def pipesAfter (f : LaneWord) (wide : Bool) (lanes : List Nat) (v : Nat → Nat) (p : Nat) (ps : SMap Pipe) : SMap Pipe :=
  if f.lat != 0 || f.nowb then
    let ps := putLatch ps p f.lat.toNat lanes v
    if wide then putLatch ps p (f.lat.toNat + 1) lanes (fun l => v l / 2 ^ 32) else ps
  else ps

/-- The state in which an instruction has left its results by lane and moved on. -/
def writtenLanes (s : State) (e : Env) (k : List (Nat × Nat × List Dword)) (fl : Dword) (lanes : List Nat)
    (v : Nat → Nat) : State :=
  (s.setGrp (s.grp.laneDone s.cur.frag e.s.grp.popq k fl (regsAfter e.f (isWide e) lanes v s.grp.vregs)
    s.grp.preds)).setPipes (pipesAfter e.f (isWide e) lanes v (pipeOf s.grp) s.pipes)

section
variable {s : State} (hl : s.cur.grp < s.groups.length)
include hl

theorem raiseFlags_setGrp (g : Group) (fl : FpFlags) :
    raiseFlags (s.setGrp g) fl = s.setGrp { g with fpflags := g.fpflags ||| fl.setWidth 64 } := by
  rw [raiseFlags, State.grp_setGrp _ _ hl, State.setGrp_twice]

theorem writeVec_setGrp (f : LaneWord) (wide : Bool) (lanes : List Nat) (v : Nat → Nat) (g : Group) :
    writeVec (s.setGrp g) f wide (lanes.map fun l => (l, v l)) =
      (s.setGrp { g with vregs := regsAfter f wide lanes v g.vregs }).setPipes
        (pipesAfter f wide lanes v (pipeOf g) s.pipes) := by
  have hregs : (if f.nowb = true then s.setGrp g else (s.setGrp g).setGrp ((lanes.map fun l => (l, v l)).foldl
      (fun g v => g.setLane wide f.dst.toNat v.1 v.2) (s.setGrp g).grp)) =
      s.setGrp { g with vregs := regsAfter f wide lanes v g.vregs } := by
    rw [State.grp_setGrp _ _ hl, State.setGrp_twice, foldl_setLane, regsAfter]
    split <;> rfl
  have hhigh : (lanes.map fun l => (l, v l)).map (fun v => (v.1, v.2 / 2 ^ 32)) =
      lanes.map fun l => (l, v l / 2 ^ 32) := List.map_map
  have hpipe : pipeOf (s.setGrp { g with vregs := regsAfter f wide lanes v g.vregs }).grp = pipeOf g := by
    rw [State.grp_setGrp _ _ hl]
    rfl
  have hps : (s.setGrp { g with vregs := regsAfter f wide lanes v g.vregs }).pipes = s.pipes := rfl
  rw [writeVec, hregs]
  generalize s.setGrp { g with vregs := regsAfter f wide lanes v g.vregs } = u at hpipe hps ⊢
  rw [pipesAfter, ← hpipe, ← hps]
  split
  · simp only [hhigh, setLatch_eq]
    cases wide <;> rfl
  · rfl

variable {spec : LaneSpec} {f : LaneWord} {ok : Ty → Bool} {e : Env} {k : List (Nat × Nat × List Dword)} {fl : Dword}
  {lanes : List Nat} {v : Nat → Nat}

theorem nextLane_writeVec (he : EnvOf s spec f ok e) (fl : FpFlags) : ∃ k,
    (writeVec (raiseFlags e.s fl) e.f (isWide e) (lanes.map fun l => (l, v l))).nextLane =
      writtenLanes s e k (s.grp.fpflags ||| fl.setWidth 64) lanes v := by
  obtain ⟨k, hs⟩ := he.state hl
  refine ⟨k, ?_⟩
  rw [writtenLanes]
  generalize e.s.grp.popq = q at hs ⊢
  rw [hs, raiseFlags_setGrp hl, writeVec_setGrp hl, nextLane_setPipes_setGrp hl]
  rfl

theorem writtenLanes_grp : (writtenLanes s e k fl lanes v).grp = s.grp.laneDone s.cur.frag e.s.grp.popq k fl
    (regsAfter e.f (isWide e) lanes v s.grp.vregs) s.grp.preds := grp_setPipes_setGrp hl

theorem latchLane_writtenLanes {n l x : Nat} (h : latchOf (pipesAfter e.f (isWide e) lanes v (pipeOf s.grp) s.pipes)
    (pipeOf s.grp) n l = some (BitVec.ofNat 32 x)) : latchLane (writtenLanes s e k fl lanes v) n l = x % 2 ^ 32 := by
  refine (latchLane_of_latchOf ?_).trans (BitVec.toNat_ofNat ..)
  rw [writtenLanes_grp hl]
  exact h

section
variable (hlanes : ∀ l ∈ lanes, l < 64)
include hlanes

theorem writtenLanes_regs : LaneRegs s (writtenLanes s e k fl lanes v) e lanes v := by
  have hwide : isWide e = true ↔ e.ty.bits = 64 := by simp [isWide]
  have hlat : e.f.lat ≠ 0 ∨ e.f.nowb = true → (e.f.lat != 0 || e.f.nowb) = true := by simp
  constructor
  case low =>
    intro hw l h
    rw [writtenLanes_grp hl, Group.vlane, Group.laneDone, regsAfter, hw]
    exact (congrArg BitVec.toNat (mapGet_putLanes_same hlanes h)).trans (BitVec.toNat_ofNat ..)
  case high =>
    intro hw hb l h
    rw [writtenLanes_grp hl, Group.vlane, Group.laneDone, regsAfter, hw, hwide.mpr hb]
    exact (congrArg BitVec.toNat (mapGet_putLanes_pair hlanes h)).trans (BitVec.toNat_ofNat ..)
  case latch =>
    intro hf l h
    apply latchLane_writtenLanes hl
    rw [pipesAfter, if_pos (hlat hf)]
    cases isWide e
    · exact latchOf_putLatch_same h
    · exact (latchOf_putLatch_other (by omega)).trans (latchOf_putLatch_same h)
  case odd =>
    intro hf hb l h
    apply latchLane_writtenLanes hl
    rw [pipesAfter, if_pos (hlat hf), hwide.mpr hb]
    exact latchOf_putLatch_same h
  case kept =>
    intro r l h64 h
    rw [writtenLanes_grp hl, Group.vlane, Group.laneDone, regsAfter]
    cases hw : e.f.nowb
    · refine congrArg BitVec.toNat (mapGet_putLanes_other hlanes h64 ?_)
      rw [hwide]
      exact fun hc => h ⟨hw, hc⟩
    · rfl
  case preds =>
    rw [writtenLanes_grp hl]
    rfl
  case popped =>
    rw [writtenLanes_grp hl]
    rfl
  case next => exact laneDone_frag hl

/-- What flags, results by lane and the move to the next instruction come to. -/
theorem lanes_written (he : EnvOf s spec f ok e) (fl : FpFlags) {t : State}
    (ht : t = (writeVec (raiseFlags e.s fl) e.f (isWide e) (lanes.map fun l => (l, v l))).nextLane) :
    LaneFrame s t ∧ LaneRegs s t e lanes v ∧ t.grp.fpflags = s.grp.fpflags ||| fl.setWidth 64 := by
  obtain ⟨k, h⟩ := nextLane_writeVec (lanes := lanes) (v := v) hl he fl
  rw [ht, h]
  refine ⟨laneDone_frame hl, writtenLanes_regs hl hlanes, ?_⟩
  rw [writtenLanes_grp hl]
  rfl

end
end

/-! ### Instructions that compute in each active lane (R68, R69) -/

section
variable {s : State} {spec : LaneSpec} {f : LaneWord} {ok : Ty → Bool} {e : Env}

/-- Where no enabled exception occurs the flags are raised and the instruction goes on. -/
theorem finishFp_quiet {fls : List (Nat × FpFlags)} {lane : Option Nat} (k : State → State)
    (h : ∀ x ∈ fls, x.2 &&& enables e.fmt = 0) :
    finishFp e fls lane k = k (raiseFlags e.s (fls.foldl (fun m x => m ||| x.2) 0)) := by
  have hnone : fls.find? (fun x => x.2 &&& enables e.fmt != 0) = none :=
    List.find?_eq_none.mpr fun x hx => by simp [h x hx]
  rw [finishFp, hnone]

section
variable {α : Type} (value : Nat → α × FpFlags)

/-- The flags that the active lanes raise, by lane. -/
theorem lane_flags (act : List Nat) : ((act.map fun l => (l, value l)).map fun r => (r.1, r.2.2)) =
    act.map fun l => (l, (value l).2) := List.map_map

theorem foldl_lane_flags (e : Env) : (e.act.map fun l => (l, (value l).2)).foldl (fun m x => m ||| x.2) 0 =
    raised e fun l => (value l).2 := List.foldl_map

theorem finishFp_lanes_quiet (k : State → State) (hq : ∀ l ∈ e.act, (value l).2 &&& enables e.fmt = 0) :
    finishFp e ((e.act.map fun l => (l, value l)).map fun r => (r.1, r.2.2)) none k =
      k (raiseFlags e.s (raised e fun l => (value l).2)) := by
  rw [lane_flags, finishFp_quiet k (List.forall_mem_map.mpr hq), foldl_lane_flags]

end

theorem laneMap_quiet {value : Nat → Nat × FpFlags} (hl : s.cur.grp < s.groups.length) (he : EnvOf s spec f ok e)
    (hq : ∀ l ∈ e.act, (value l).2 &&& enables e.fmt = 0) {t : State} (ht : t = laneMap e (isWide e) value) :
    LaneFrame s t ∧ LaneRegs s t e e.act (fun l => (value l).1) ∧
      t.grp.fpflags = s.grp.fpflags ||| (raised e (fun l => (value l).2)).setWidth 64 := by
  have h64 : ∀ l ∈ e.act, l < 64 := he.act ▸ fun l => lt_of_mem_activeLanes
  refine lanes_written hl h64 he _ (ht.trans ?_)
  rw [laneMap, finishFp_lanes_quiet _ _ hq, List.map_map]
  rfl

end

end Sys2Proof.Machine
end

