-- ==== Sys2Proof/Proofs/LaneIntegers.lean ====
section
/-! Integer, bit, select and move lane instructions (R186-R188, R198, R200). -/

namespace Sys2Proof.Machine
open Sys2Proof.Claims

/-! ### Operations on the bits of an element (R187, R188) -/

section
variable {n a b : Nat}

theorem toNat_and_ofNat : (BitVec.ofNat n a &&& BitVec.ofNat n b).toNat = (a % 2 ^ n &&& b) % 2 ^ n := by
  rw [BitVec.toNat_and, BitVec.toNat_ofNat, BitVec.toNat_ofNat, Nat.and_mod_two_pow, Nat.mod_mod]

theorem toNat_or_ofNat : (BitVec.ofNat n a ||| BitVec.ofNat n b).toNat = (a % 2 ^ n ||| b) % 2 ^ n := by
  rw [BitVec.toNat_or, BitVec.toNat_ofNat, BitVec.toNat_ofNat, Nat.or_mod_two_pow, Nat.mod_mod]

theorem toNat_xor_ofNat : (BitVec.ofNat n a ^^^ BitVec.ofNat n b).toNat = (a % 2 ^ n ^^^ b) % 2 ^ n := by
  rw [BitVec.toNat_xor, BitVec.toNat_ofNat, BitVec.toNat_ofNat, Nat.xor_mod_two_pow, Nat.mod_mod]

theorem toNat_not_ofNat : (~~~BitVec.ofNat n a).toNat = 2 ^ n - 1 - a % 2 ^ n := by
  rw [BitVec.toNat_not, BitVec.toNat_ofNat]

theorem toNat_shl_ofNat : (BitVec.ofNat n a <<< amount b).toNat = shlBits n (a % 2 ^ n) b % 2 ^ n := by
  rw [BitVec.toNat_shiftLeft, BitVec.toNat_ofNat, Nat.shiftLeft_eq, shlBits, amount]
  split
  next h => rw [Nat.zero_mod, Nat.mod_eq_zero_of_dvd ((pow_dvd_pow 2 h).mul_left _)]
  · rfl

theorem toNat_shr_ofNat : (BitVec.ofNat n a >>> amount b).toNat = shrBits n (a % 2 ^ n) b := by
  rw [BitVec.toNat_ushiftRight, BitVec.toNat_ofNat, Nat.shiftRight_eq_div_pow, shrBits, amount]
  split
  next h => exact Nat.div_eq_of_lt ((Nat.mod_lt _ (by positivity)).trans_le (Nat.pow_le_pow_right (by decide) h))
  · rfl

theorem sext_eq_toInt (n a : Nat) : sext n a = (BitVec.ofNat n a).toInt := by
  cases n with
  | zero => simp [sext, Nat.mod_one, BitVec.toInt_zero_length]
  | succ n =>
    have hp := Nat.pow_succ (n := 2) (m := n)
    have hc : (2 : ℤ) ^ (n + 1) = (2 ^ (n + 1) : ℕ) := by push_cast; rfl
    rw [BitVec.toInt_eq_toNat_cond, BitVec.toNat_ofNat, sext, hc]
    simp only [Nat.add_sub_cancel]
    split
    next h => rw [if_neg (by omega)]
    next h => rw [if_pos (by omega)]

theorem wrapNat_toInt (x : BitVec n) : wrapNat n x.toInt = x.toNat := by
  rw [← BitVec.ofInt_toInt (x := x), BitVec.toNat_ofInt, BitVec.ofInt_toInt, wrapNat]
  push_cast
  rfl

/-- A shift by more than all bits leaves the sign, as a shift by all of them does. -/
theorem ediv_two_pow_of_le {v : ℤ} {m k : Nat} (hk : m ≤ k) (hlo : -2 ^ m ≤ v) (hhi : v < 2 ^ m) :
    v / 2 ^ k = v / 2 ^ m := by
  have hle : (2 : ℤ) ^ m ≤ 2 ^ k := by gcongr; decide
  obtain h | h := lt_or_ge v 0
  · rw [Int.ediv_eq_neg_one_of_neg_of_le h (by omega), Int.ediv_eq_neg_one_of_neg_of_le h (by omega)]
  · rw [Int.ediv_eq_zero_of_lt h (by omega), Int.ediv_eq_zero_of_lt h hhi]

theorem toNat_sra_ofNat : (BitVec.sshiftRight (BitVec.ofNat n a) (amount b)).toNat = sraBits n (a % 2 ^ n) b := by
  have hx : BitVec.ofNat n (a % 2 ^ n) = BitVec.ofNat n a := BitVec.eq_of_toNat_eq (by simp)
  have hshift : (BitVec.ofNat n a).toInt / 2 ^ amount b = (BitVec.ofNat n a).toInt / 2 ^ min (amount b) (n - 1) := by
    obtain h | h := Nat.le_total (amount b) (n - 1)
    · rw [Nat.min_eq_left h]
    · rw [Nat.min_eq_right h]
      exact ediv_two_pow_of_le h (BitVec.le_toInt _) BitVec.toInt_lt
  rw [sraBits, ← wrapNat_toInt, BitVec.toInt_sshiftRight, Int.shiftRight_eq_div_pow, sext_eq_toInt, hx]
  push_cast
  exact congrArg (wrapNat n) hshift

/-- No element has so many bits that their count has none. -/
theorem toNat_clz_ofNat : (BitVec.ofNat n ((List.range n).takeWhile
    (fun i => !(BitVec.ofNat n a).getLsbD (n - 1 - i))).length).toNat = clzBits n (a % 2 ^ n) := by
  have hx : BitVec.ofNat n (a % 2 ^ n) = BitVec.ofNat n a := BitVec.eq_of_toNat_eq (by simp)
  rw [← hx]
  have ha : a % 2 ^ n < 2 ^ n := Nat.mod_lt _ (by positivity)
  generalize a % 2 ^ n = x at ha
  have hcount : ((List.range n).takeWhile (fun i => !(BitVec.ofNat n x).getLsbD (n - 1 - i))).length =
      clzBits n x := by
    unfold clzBits
    split
    case isTrue h =>
      obtain rfl : x = 0 := by simpa using h
      exact takeWhile_range_length (Nat.le_refl _) (by simp) (by simp)
    case isFalse h =>
      have h0 : x ≠ 0 := by simpa using h
      have hlog : Nat.log2 x < n := (Nat.log2_lt h0).mpr ha
      refine takeWhile_range_length (by omega) (fun i hi => ?_) fun _ => ?_
      · have hlt : x < 2 ^ (n - 1 - i) := (Nat.log2_lt h0).mp (by omega)
        simp [BitVec.getLsbD_ofNat, Nat.testBit_lt_two_pow hlt]
      · have hi : n - 1 - (n - 1 - Nat.log2 x) = Nat.log2 x := by omega
        simp [BitVec.getLsbD_ofNat, hi, Nat.testBit_log2 h0, hlog]
  rw [hcount, BitVec.toNat_ofNat, Nat.mod_eq_of_lt]
  rw [← hcount]
  exact ((List.takeWhile_prefix _).length_le.trans_eq List.length_range).trans_lt Nat.lt_two_pow_self

theorem bit_eq_testBit (x i : Nat) : bit x i = x.testBit i := by
  rw [bit, Nat.testBit_eq_decide_div_mod_eq]
  rfl

theorem toNat_popc_ofNat : (BitVec.ofNat n ((List.range n).countP
    (fun i => (BitVec.ofNat n a).getLsbD i))).toNat = popcBits n (a % 2 ^ n) := by
  have hcount : popcBits n (a % 2 ^ n) = (List.range n).countP (fun i => (BitVec.ofNat n a).getLsbD i) := by
    simp only [popcBits, ← BitVec.toNat_ofNat, bit_toNat, List.countP_eq_length_filter]
  rw [hcount, BitVec.toNat_ofNat, Nat.mod_eq_of_lt]
  exact (List.countP_le_length.trans_eq List.length_range).trans_lt Nat.lt_two_pow_self

end

/-! ### Fields of bits (R188) -/

/-- The parts of a number with some of its bits replaced. -/
theorem putBits_eq (x hi lo v : Nat) : putBits x hi lo v =
    2 ^ lo * (2 ^ (hi + 1 - lo) * (x / 2 ^ lo / 2 ^ (hi + 1 - lo)) + v % 2 ^ (hi + 1 - lo)) + x % 2 ^ lo := by
  rw [putBits, bits]
  generalize hi + 1 - lo = w
  have hx : x = 2 ^ lo * (2 ^ w * (x / 2 ^ lo / 2 ^ w)) + x % 2 ^ lo + x / 2 ^ lo % 2 ^ w * 2 ^ lo := by
    conv_lhs => rw [← Nat.div_add_mod x (2 ^ lo), ← Nat.div_add_mod (x / 2 ^ lo) (2 ^ w)]
    ring
  rw [Nat.sub_eq_of_eq_add hx]
  ring

theorem testBit_putBits {x hi lo v j : Nat} (h : lo ≤ hi) :
    (putBits x hi lo v).testBit j = if lo ≤ j ∧ j ≤ hi then v.testBit (j - lo) else x.testBit j := by
  rw [putBits_eq, Nat.testBit_two_pow_mul_add _ (Nat.mod_lt _ (by positivity)),
    Nat.testBit_two_pow_mul_add _ (Nat.mod_lt _ (by positivity)), Nat.testBit_mod_two_pow, Nat.testBit_mod_two_pow,
    Nat.testBit_div_two_pow, Nat.testBit_div_two_pow]
  split
  next hj => rw [if_neg (by omega), decide_eq_true hj, Bool.true_and]
  next hj =>
    split
    next hw => rw [if_pos (by omega), decide_eq_true hw, Bool.true_and]
    next hw =>
      rw [if_neg (by omega)]
      congr 1
      omega

section
variable {n a p : Nat} (len : Nat)

theorem ofNat_cutLen_shr : (BitVec.ofNat (cutLen n p len) (BitVec.ofNat n a >>> p).toNat) =
    BitVec.ofNat (cutLen n p len) (a / 2 ^ p % 2 ^ cutLen n p len) := by
  refine BitVec.eq_of_getLsbD_eq fun i hi => ?_
  have hpi : i + p < n := by
    rw [cutLen] at hi
    split at hi <;> omega
  simp only [BitVec.getLsbD_ofNat, BitVec.toNat_ushiftRight, BitVec.toNat_ofNat, Nat.testBit_shiftRight,
    Nat.testBit_mod_two_pow, Nat.testBit_div_two_pow, hi, decide_true, Bool.true_and, Nat.add_comm p, hpi]

/-- R188: a field of no bits reads 0. -/
theorem bfe_value {signed : Bool} :
    (if fieldLen n p len = 0 then 0
      else if signed = true then sext (fieldLen n p len) (a / 2 ^ p % 2 ^ fieldLen n p len)
      else ((a / 2 ^ p % 2 ^ fieldLen n p len : Nat) : ℤ)) =
    if signed = true then (BitVec.ofNat (cutLen n p len) (BitVec.ofNat n a >>> p).toNat).toInt
      else ((BitVec.ofNat (cutLen n p len) (BitVec.ofNat n a >>> p).toNat).toNat : ℤ) := by
  rw [ofNat_cutLen_shr, show fieldLen n p len = cutLen n p len from rfl, sext_eq_toInt, BitVec.toNat_ofNat, Nat.mod_mod]
  split
  next h0 =>
    rw [h0]
    simp [Nat.mod_one, BitVec.toInt_zero_length]
  · rfl

theorem toNat_bfi {old : Nat} (hold : old < 2 ^ n) :
    ((BitVec.ofNat n old &&& ~~~fieldMask n p (cutLen n p len)) |||
      (BitVec.ofNat n a <<< p &&& fieldMask n p (cutLen n p len))).toNat =
      if fieldLen n p len = 0 then old
      else old - bits old (p + fieldLen n p len - 1) p * 2 ^ p + a % 2 ^ fieldLen n p len * 2 ^ p := by
  have hcut : p + cutLen n p len ≤ n ∨ cutLen n p len = 0 := by
    rw [cutLen]
    split <;> omega
  rw [show fieldLen n p len = cutLen n p len from rfl]
  generalize cutLen n p len = k at hcut ⊢
  split
  next h0 =>
    subst h0
    simp [fieldMask, Nat.mod_eq_of_lt hold]
  next h0 =>
    have hput : old - bits old (p + k - 1) p * 2 ^ p + a % 2 ^ k * 2 ^ p = putBits old (p + k - 1) p a := by
      rw [putBits, show p + k - 1 + 1 - p = k by omega]
    rw [hput]
    refine Nat.eq_of_testBit_eq fun j => ?_
    rw [testBit_putBits (by omega)]
    simp only [BitVec.testBit_toNat, BitVec.getLsbD_or, BitVec.getLsbD_and, BitVec.getLsbD_not, fieldMask,
      BitVec.getLsbD_shiftLeft, BitVec.getLsbD_ofNat, Nat.testBit_two_pow_sub_one]
    by_cases hj : p ≤ j ∧ j ≤ p + k - 1
    · have hn : j < n ∧ j - p < n ∧ ¬j < p ∧ j - p < k := by omega
      simp [hj, hn]
    · have hk : ¬j < p → ¬j - p < k := by omega
      by_cases hn : j < n
      · by_cases hp : j < p
        · simp [hn, hp, hj]
        · simp [hn, hp, hk hp, hj]
      · simp [hn, hj, Nat.testBit_lt_two_pow (hold.trans_le (Nat.pow_le_pow_right (by decide) (Nat.le_of_not_lt hn)))]

end

/-! ### Integer images (R61) -/

theorem intImage_congr {T : Ty} {i j : ℤ} (h : i % 2 ^ T.bits = j % 2 ^ T.bits) : intImage T i = intImage T j := by
  simp only [intImage, wrapNat, h]

theorem intImage_toNat {T : Ty} {x : BitVec T.bits} {k : Nat} (h : x.toNat = k % 2 ^ T.bits) :
    intImage T k = intImage T x.toNat := by
  refine intImage_congr ?_
  rw [h]
  push_cast
  exact (Int.emod_emod _ _).symm

/-- An instruction on the bits of its operands answers the image of the bits that an operation gives. -/
theorem bits_value {T : Ty} {x : BitVec T.bits} {k : Nat} (h : x.toNat = k % 2 ^ T.bits) :
    ((intImage T k, 0) : Nat × FpFlags) = (intImage T x.toNat, 0) := by
  rw [intImage_toNat h]

theorem bits_value_exact {T : Ty} {x : BitVec T.bits} {k : Nat} (h : x.toNat = k) :
    ((intImage T k, 0) : Nat × FpFlags) = (intImage T x.toNat, 0) := by
  rw [h]

/-- R69: SAT has no enable. -/
theorem flagSAT_enables (fmt : Nat) : flagSAT &&& enables fmt = 0 := by
  unfold enables
  generalize bit fmt 11 = iv, bit fmt 10 = dz, bit fmt 9 = ov, bit fmt 8 = uf, bit fmt 7 = nx
  revert iv dz ov uf nx
  decide

theorem intResult_enables (T : Ty) (sat : Bool) (i : ℤ) (fmt : Nat) : (intResult T sat i).2 &&& enables fmt = 0 := by
  cases sat
  · exact BitVec.zero_and
  · rw [intResult_saturated]
    split
    · exact BitVec.zero_and
    · exact flagSAT_enables fmt

/-! ### What the instructions do -/

section
variable {i : Instr} {o : LaneOp} {s : State} {e : Env}

theorem withEnv_laneMap {x : Except State Env} {wide : Env → Bool} {fn : Env → Nat → Nat × FpFlags}
    {v : Nat → Nat × FpFlags} (hx : x = .ok e) (hw : wide e = isWide e) (hv : ∀ l, fn e l = v l) :
    withEnv x (fun e => laneMap e (wide e) (fn e)) = .next (laneMap e (isWide e) v) := by
  rw [hx, withEnv, hw, funext hv]

theorem vlane_lt (g : Group) (r l : Nat) : g.vlane r l < 2 ^ 32 := BitVec.isLt _

/-- R188: VBFI's types are those whose registers hold the whole element. -/
theorem oldDst_lt (e : Env) (l : Nat) (h : e.ty.bits = 32 ∨ e.ty.bits = 64) : oldDst e l < 2 ^ e.ty.bits := by
  have h1 := vlane_lt e.s.grp e.f.dst.toNat l
  have h2 := vlane_lt e.s.grp (e.f.dst.toNat + 1) l
  rw [oldDst]
  obtain h | h := h <;> rw [h] <;> simp <;> omega

theorem crossA_eq (e : Env) (j : Nat) : crossA e j = if j ∈ e.s.frag.lanes then e.a j else 0 :=
  if_congr List.contains_iff_mem rfl rfl

/-- R186-R188, R198, R200: each instruction writes its result in the active lanes, and raises no flag but SAT. -/
theorem exec_intLane (h : intLane i = some o) (hp : o.Passes i s e) :
    exec i s = .next (laneMap e (isWide e) (o.value e)) ∧ ∀ l, (o.value e l).2 &&& enables e.fmt = 0 := by
  obtain ⟨-, he⟩ := hp
  have quiet {v : Nat → Nat} (l : Nat) : ((v l, 0) : Nat × FpFlags).2 &&& enables e.fmt = 0 := BitVec.zero_and
  cases i with
  | vadd f | vsub f | vmul f | vmin f | vmax f | vmad f =>
    cases Option.some.inj h
    exact ⟨withEnv_laneMap he rfl fun _ => rfl, fun _ => intResult_enables ..⟩
  | vabs f =>
    cases Option.some.inj h
    exact ⟨withEnv_laneMap he rfl fun l => congrArg (intResult e.ty e.sat) (Int.natCast_natAbs _),
      fun _ => intResult_enables ..⟩
  | vmulh f => cases Option.some.inj h; exact ⟨withEnv_laneMap he rfl fun _ => rfl, quiet⟩
  | vand f => cases Option.some.inj h; exact ⟨withEnv_laneMap he rfl fun _ => bits_value toNat_and_ofNat, quiet⟩
  | vor f => cases Option.some.inj h; exact ⟨withEnv_laneMap he rfl fun _ => bits_value toNat_or_ofNat, quiet⟩
  | vxor f => cases Option.some.inj h; exact ⟨withEnv_laneMap he rfl fun _ => bits_value toNat_xor_ofNat, quiet⟩
  | vnot f => cases Option.some.inj h; exact ⟨withEnv_laneMap he rfl fun _ => bits_value_exact toNat_not_ofNat, quiet⟩
  | vshl f => cases Option.some.inj h; exact ⟨withEnv_laneMap he rfl fun _ => bits_value toNat_shl_ofNat, quiet⟩
  | vshr f => cases Option.some.inj h; exact ⟨withEnv_laneMap he rfl fun _ => bits_value_exact toNat_shr_ofNat, quiet⟩
  | vsra f => cases Option.some.inj h; exact ⟨withEnv_laneMap he rfl fun _ => bits_value_exact toNat_sra_ofNat, quiet⟩
  | vclz f => cases Option.some.inj h; exact ⟨withEnv_laneMap he rfl fun _ => bits_value_exact toNat_clz_ofNat, quiet⟩
  | vpopc f => cases Option.some.inj h; exact ⟨withEnv_laneMap he rfl fun _ => bits_value_exact toNat_popc_ofNat, quiet⟩
  | vbfe f =>
    cases Option.some.inj h
    refine ⟨withEnv_laneMap he rfl fun l => ?_, quiet⟩
    exact congrArg (fun x : ℤ => (intImage e.ty x, 0)) (bfe_value _)
  | vbfi f =>
    cases Option.some.inj h
    have hbits : e.ty.bits = 32 ∨ e.ty.bits = 64 := by
      have ht := (envT_ok he).ty
      cases h : e.ty <;> simp [h, Ty.bits] at ht ⊢
    refine ⟨withEnv_laneMap he rfl fun l => ?_, quiet⟩
    have hbfi := toNat_bfi (n := e.ty.bits) (a := e.a l) (p := amount (e.b l)) (amount (e.c l)) (oldDst_lt e l hbits)
    refine Prod.ext (Eq.trans ?_ hbfi.symm) rfl
    simp only [oldDst, (envT_ok he).word, isWide, beq_iff_eq]
    rfl
  | vsel f =>
    cases Option.some.inj h
    refine ⟨withEnv_laneMap he rfl fun l => ?_, quiet⟩
    simp
  | vmov f => cases Option.some.inj h; exact ⟨withEnv_laneMap he rfl fun _ => rfl, quiet⟩
  | pmov f =>
    cases Option.some.inj h
    refine ⟨withEnv_laneMap (wide := fun _ => false) he ?_ fun _ => rfl, quiet⟩
    rw [isWide, (envT_ok he).noTy rfl]
    rfl
  | vshuf f | vbcast f =>
    cases Option.some.inj h
    refine ⟨withEnv_laneMap he rfl fun l => ?_, quiet⟩
    exact congrArg (fun x => (moveImage e.ty x, 0)) (crossA_eq e _)
  | _ => cases h

end

end Sys2Proof.Machine
end

section
open Sys2Proof.Machine Sys2Proof.Claims

/-- Settles O17: each instruction computes its result in the active lanes, with no flag but SAT, and what such an
instruction writes is said once for all of them. -/
theorem laneIntegers : Obligations.LaneIntegers := by
  intro i o s e h hp
  obtain ⟨hexec, hquiet⟩ := exec_intLane h hp
  exact ⟨_, hexec, laneMap_quiet hp.1 (envT_ok hp.2) (fun l _ => hquiet l) rfl⟩

end

