-- ==== Sys2Proof/Proofs/LaneFloats.lean ====
section
/-! Floating-point and conversion lane instructions (R189-R196), and the exceptions of R68 and R69. -/

namespace Sys2Proof.Machine
open Sys2Proof.Claims

/-! ### Exceptions (R69) -/

section
variable {s : State} {spec : LaneSpec} {f : LaneWord} {ok : Ty → Bool} {e : Env} {value : Nat → Nat × FpFlags} {l : Nat}

/-- What a report says does not depend on FPFLAGS. -/
theorem laneReport_raiseFlags (hl : s.cur.grp < s.groups.length) (f : LaneWord) (code lane : Nat) (fl : FpFlags) :
    laneReport (raiseFlags s fl) f code lane = laneReport s f code lane := by
  have hgrp : (raiseFlags s fl).grp = { s.grp with fpflags := s.grp.fpflags ||| fl.setWidth 64 } :=
    State.grp_setGrp s _ hl
  have hfrag : (raiseFlags s fl).frag = s.frag := by
    rw [State.frag, hgrp]
    rfl
  have hactive : laneActive (raiseFlags s fl) f = laneActive s f := by
    funext l
    rw [laneActive, hgrp]
    rfl
  rw [laneReport, State.pathFmt, hfrag, hactive]
  rfl

/-- Where a lane raises an enabled exception, the flags of all lanes are set and the lowest such lane takes the trap. -/
theorem laneMap_trap (hl : s.cur.grp < s.groups.length) (he : EnvOf s spec f ok e) (wide : Bool)
    (h : e.act.find? (fun k => (value k).2 &&& enables e.fmt != 0) = some l) :
    laneMap e wide value = deliver (raiseFlags s (raised e fun k => (value k).2))
      { laneReport s f 0x11 l with xflags := (raised e fun k => (value k).2).toNat } := by
  have hfind : (e.act.map fun l => (l, (value l).2)).find? (fun x => x.2 &&& enables e.fmt != 0) =
      some (l, (value l).2) := by
    rw [List.find?_map]
    exact congrArg (Option.map _) h
  simp only [laneMap, lane_flags, finishFp, hfind, foldl_lane_flags, he.s0, he.word]
  rw [← laneReport_raiseFlags hl f 0x11 l (raised e fun k => (value k).2)]
  rfl

end

/-! ### What the instructions do -/

theorem isWide_of_isArith {e : Env} (h : e.ty.isArith = true) : isWide e = false := by
  cases ht : e.ty <;> simp [isWide, ht, Ty.isArith, Ty.bits] at h ⊢

theorem isWide_of_isBlock {e : Env} (h : e.ty.isBlock = true) : isWide e = false := by
  cases ht : e.ty <;> simp [isWide, ht, Ty.isBlock, Ty.bits] at h ⊢

/-- R63, R190: a difference is NaN where an operand is, with that operand's sign, or where two infinities cancel. -/
theorem xsub_eq (m : Mode) (a b : XVal) : xsub m a b =
    (if a.isNaN || b.isNaN then firstNaN [a, b] else (xadd m a b.neg).1, (xadd m a b.neg).2) := by
  cases a with
  | nan src sig => cases b <;> rfl
  | inf p => cases b with
    | nan src sig => rcases src with _ | ⟨q, x⟩ <;> rfl
    | inf q => cases p <;> cases q <;> rfl
    | fin q n d => rfl
  | fin p n d => cases b with
    | nan src sig => rcases src with _ | ⟨q, x⟩ <;> rfl
    | inf q => rfl
    | fin q k c =>
      have hnan : (xadd m (.fin p n d) (XVal.neg (.fin q k c))).1.isNaN = false := by
        simp only [XVal.neg, xadd_fin]
        split <;> rfl
      rw [xsub, hnan]
      rfl

/-- R195: an activation of B in a lane. -/
def activation (e : Env) (l k : Nat) : XVal :=
  if e.f.negB then (readFloat .bf16 (e.braw l / 2 ^ (16 * k))).neg else readFloat .bf16 (e.braw l / 2 ^ (16 * k))

theorem activations_eq (e : Env) (l : Nat) : activations e l = (activation e l 0, activation e l 1) := by
  rw [activations, activation, activation, Nat.mul_zero, Nat.pow_zero, Nat.div_one]
  split <;> rfl

theorem isWide_of_ts8 {e : Env} (h : (e.ty == .ts8) = true) : isWide e = false :=
  isWide_of_isBlock (by rw [beq_iff_eq.mp h]; rfl)

theorem isWide_of_zb {e : Env} (h : (e.ty == .zb4 || e.ty == .zb8) = true) : isWide e = false := by
  obtain h | h := Bool.or_eq_true_iff.mp h <;> exact isWide_of_isBlock (by rw [beq_iff_eq.mp h]; rfl)

section
variable {i : Instr} {o : LaneOp} {s : State} {e : Env}

/-- R189-R196: each instruction writes its result in the active lanes. -/
theorem exec_floatLane (h : floatLane s i = some o) (hp : o.Passes i s e) :
    exec i s = .next (laneMap e (isWide e) (o.value e)) := by
  obtain ⟨-, he⟩ := hp
  have narrow (h : isWide e = false) : (fun _ : Env => false) e = isWide e := h.symm
  have ht := (envT_ok he).ty
  cases i with
  | vfadd f | vfmul f | vfma f | vfmin f | vfmax f | vfrcp f | vfrsq f | vfsqrt f | vfexp2 f | vflog2 f | vfclass f =>
    cases Option.some.inj h
    exact withEnv_laneMap he (narrow (isWide_of_isArith ht)) fun _ => rfl
  | vfsub f =>
    cases Option.some.inj h
    exact withEnv_laneMap he (narrow (isWide_of_isArith ht)) fun l => congrArg (roundEnv e e.ty) (xsub_eq ..)
  | vcvt f =>
    cases Option.some.inj h
    exact withEnv_laneMap he rfl fun _ => rfl
  | vqnt f | vdqnt f =>
    cases Option.some.inj h
    exact withEnv_laneMap he (narrow (isWide_of_isBlock ht)) fun _ => rfl
  | vtsdot f =>
    cases Option.some.inj h
    refine withEnv_laneMap he (narrow (isWide_of_ts8 ht)) fun l => ?_
    rw [activations_eq]
    rfl
  | vzdot f =>
    cases Option.some.inj h
    refine withEnv_laneMap he (narrow (isWide_of_zb ht)) fun l => ?_
    rw [activations_eq]
    rfl
  | _ => cases h

end

end Sys2Proof.Machine
end

section
open Sys2Proof.Machine Sys2Proof.Claims

/-- Settles O18: the results of a floating-point instruction by lane go through the one rule for what is written, or
through the one for an enabled exception. -/
theorem laneFloats : Obligations.LaneFloats := by
  refine ⟨fun i o s e h hp hquiet => ?quiet, fun i o s e l h hp hl => ?trap⟩
  case quiet => exact ⟨_, exec_floatLane h hp, laneMap_quiet hp.1 (envT_ok hp.2) hquiet rfl⟩
  case trap =>
    intro fl s1
    rw [exec_floatLane h hp, laneMap_trap hp.1 (envT_ok hp.2) _ hl]
    rfl

end

