-- ==== Sys2Proof/Proofs/LanePredicates.lean ====
section
/-! Compares and predicate instructions (R181, R197, R198). -/

namespace Sys2Proof.Machine
open Sys2Proof.Claims

/-! ### Lane masks -/

theorem maskSet_eq_putBits (m i : Nat) (b : Bool) : maskSet m i b = putBits m i i b.toNat := by
  have hle : m / 2 ^ i % 2 * 2 ^ i ≤ m := (Nat.mul_le_mul_right _ (Nat.mod_le ..)).trans (Nat.div_mul_le_self ..)
  have hbit : bit m i = decide (m / 2 ^ i % 2 = 1) := rfl
  rw [putBits, bits, maskSet, hbit, Nat.add_sub_cancel_left, Nat.pow_one]
  rcases Nat.mod_two_eq_zero_or_one (m / 2 ^ i) with h | h <;> rw [h] at hle ⊢ <;> cases b <;> simp at hle ⊢
  omega

theorem bit_maskSet (m i j : Nat) (b : Bool) : bit (maskSet m i b) j = if i = j then b else bit m j := by
  rw [maskSet_eq_putBits, bit_eq_testBit, testBit_putBits (Nat.le_refl i), bit_eq_testBit]
  split
  next h =>
    obtain rfl : i = j := by omega
    rw [if_pos rfl, Nat.sub_self]
    cases b <;> rfl
  next h => rw [if_neg (by omega)]

/-! ### Writing a predicate (R197, R198) -/

/-- The predicates once lanes of one have their values: p0 stays. -/
def predsAfter (p : Nat) (lanes : List Nat) (v : Nat → Bool) (m : SMap Nat) : SMap Nat :=
  if p = 0 then m else mapSet 0 m p (lanes.foldl (fun m l => maskSet m l (v l)) (mapGet 0 m p))

/-- The state in which an instruction has left its predicate by lane and moved on. -/
def writtenPred (s : State) (p : Nat) (q : SMap (List Dword)) (k : List (Nat × Nat × List Dword)) (fl : Dword)
    (lanes : List Nat) (v : Nat → Bool) : State :=
  (s.setGrp (s.grp.laneDone s.cur.frag q k fl s.grp.vregs (predsAfter p lanes v s.grp.preds))).setPipes s.pipes

section
variable {p : Nat} {lanes : List Nat} {v : Nat → Bool}

theorem pred_predsAfter (g : Group) (q l : Nat) (hp : p ≠ 0) :
    Group.pred { g with preds := predsAfter p lanes v g.preds } q l =
      if q = p ∧ l ∈ lanes then v l else g.pred q l := by
  have hread := foldl_lanes_read (step := fun m l => maskSet m l (v l)) (read := (bit · l)) (l := l) (x := v l) lanes
    (mapGet 0 g.preds p) fun m k _ => by
      rw [bit_maskSet]
      split
      next h => rw [h]
      · rfl
  rw [Group.pred, predsAfter, if_neg hp]
  by_cases hq : q = p
  · subst hq
    simp only [mapGet_mapSet_same, hread, Group.pred, true_and]
    split
    · simp [hp]
    · rfl
  · rw [if_neg (fun h => hq h.1), Group.pred, mapGet_mapSet_other _ _ _ _ _ hq]

variable {s : State} (hl : s.cur.grp < s.groups.length)
include hl

theorem writePred_setGrp (g : Group) : writePred (s.setGrp g) p (lanes.map fun l => (l, v l)) =
    s.setGrp { g with preds := predsAfter p lanes v g.preds } := by
  rw [writePred, predsAfter, List.foldl_map, State.grp_setGrp _ _ hl, State.setGrp_twice]
  split <;> rfl

variable {q : SMap (List Dword)} {k : List (Nat × Nat × List Dword)} {fl : Dword}

theorem nextLane_writePred :
    (writePred (s.setGrp { s.grp.popped q k with fpflags := fl }) p (lanes.map fun l => (l, v l))).nextLane =
      writtenPred s p q k fl lanes v := by
  rw [writePred_setGrp hl]
  exact nextLane_setPipes_setGrp (pipes := s.pipes) hl

theorem writtenPred_grp : (writtenPred s p q k fl lanes v).grp =
    s.grp.laneDone s.cur.frag q k fl s.grp.vregs (predsAfter p lanes v s.grp.preds) := grp_setPipes_setGrp hl

theorem pred_writtenPred (r l : Nat) (hp : p ≠ 0) : (writtenPred s p q k fl lanes v).grp.pred r l =
    if r = p ∧ l ∈ lanes then v l else s.grp.pred r l := by
  rw [writtenPred_grp hl]
  exact pred_predsAfter s.grp r l hp

theorem writtenPred_predWrites : PredWrites s (writtenPred s p q k fl lanes v) p lanes v where
  written hp l h := by rw [pred_writtenPred hl _ _ hp, if_pos ⟨rfl, h⟩]
  kept r l _ h := by
    by_cases hp : p = 0
    · rw [writtenPred_grp hl, predsAfter, if_pos hp]
      rfl
    · rw [pred_writtenPred hl _ _ hp, if_neg h]
  always _ := rfl
  vregs := by
    rw [writtenPred_grp hl]
    rfl
  next := laneDone_frag hl
  frame := laneDone_frame hl

/-- What flags, a predicate by lane and the move to the next instruction come to. -/
theorem preds_written {t : State}
    (ht : t = (writePred (s.setGrp { s.grp.popped q k with fpflags := fl }) p (lanes.map fun l => (l, v l))).nextLane) :
    PredWrites s t p lanes v ∧ t.grp.popq = q ∧ t.grp.fpflags = fl := by
  rw [ht, nextLane_writePred hl, writtenPred_grp hl]
  exact ⟨writtenPred_predWrites hl, rfl, rfl⟩

theorem lanePred_quiet {spec : LaneSpec} {f : LaneWord} {ok : Ty → Bool} {e : Env} {value : Nat → Bool × FpFlags}
    (he : EnvOf s spec f ok e) (hq : ∀ l ∈ e.act, (value l).2 &&& enables e.fmt = 0) {t : State}
    (ht : t = lanePred e value) : PredWrites s t (f.dst.toNat % 8) e.act (fun l => (value l).1) ∧
      t.grp.popq = e.s.grp.popq ∧ t.grp.fpflags = s.grp.fpflags ||| (raised e (fun l => (value l).2)).setWidth 64 := by
  obtain ⟨k, hs⟩ := he.state hl
  refine preds_written (k := k) hl (ht.trans ?_)
  generalize e.s.grp.popq = q at hs ⊢
  rw [lanePred, finishFp_lanes_quiet _ _ hq, List.map_map, hs, raiseFlags_setGrp hl, he.word]
  rfl

end

/-! ### What the instructions do -/

section
variable {i : Instr} {s : State}

theorem withEnv_lanePred {e : Env} {x : Except State Env} {fn : Env → Nat → Bool × FpFlags}
    {v : Nat → Nat × FpFlags} (hx : x = .ok e) (hv : ∀ l, ((fn e l).1.toNat, (fn e l).2) = v l) :
    ∃ value : Nat → Bool × FpFlags, withEnv x (fun e => lanePred e (fn e)) = .next (lanePred e value) ∧
      ∀ l, value l = ((v l).1 == 1, (v l).2) := by
  refine ⟨fn e, by rw [hx, withEnv], fun l => ?_⟩
  rw [← hv l]
  cases fn e l with
  | mk b fl => cases b <;> rfl

/-- A signaling NaN raises IV under every condition of VFCMP, a quiet one under those that order. -/
theorem floatCond_flags (c : Nat) (x y : XVal) : (floatCond c x y).2 =
    if (x.isSig || y.isSig) = true ∨ (x.isNaN || y.isNaN) = true ∧ (c = 2 ∨ c = 3 ∨ c = 4 ∨ c = 5)
      then flagIV else 0 := by
  have hnan {z : XVal} (h : z.isSig = true) : z.isNaN = true := by
    cases z with
    | nan => rfl
    | inf | fin => cases h
  have hloud : (x.isNaN || y.isNaN) = true ↔ (x.isSig || y.isSig) = true ∨ (x.isNaN || y.isNaN) = true := by
    simp only [Bool.or_eq_true]
    exact ⟨.inr, fun h => h.elim (fun h => h.imp hnan hnan) id⟩
  have hquiet : anySig [x, y] = true ↔ (x.isSig || y.isSig) = true := by simp [anySig]
  rcases c with _ | _ | _ | _ | _ | _ | _ | c
  case succ.succ.zero | succ.succ.succ.zero | succ.succ.succ.succ.zero | succ.succ.succ.succ.succ.zero =>
    exact if_congr (by simpa using hloud) rfl rfl
  all_goals exact if_congr (by simpa using hquiet) rfl rfl

/-- R197: each condition, with the flag that a NaN raises. -/
theorem exec_predLane {o : LaneOp} {e : Env} (h : predLane i = some o) (hp : o.Passes i s e) :
    ∃ value : Nat → Bool × FpFlags, exec i s = .next (lanePred e value) ∧
      ∀ l, value l = ((o.value e l).1 == 1, (o.value e l).2) := by
  obtain ⟨-, he⟩ := hp
  cases i with
  | vcmp f =>
    cases Option.some.inj h
    refine withEnv_lanePred he fun l => Prod.ext (congrArg Bool.toNat ?_) rfl
    generalize f.rnd.toNat = c
    rcases c with _ | _ | _ | _ | _ | c
    case succ.zero => exact (decide_not (p := ia e l = ib e l)).symm
    all_goals rfl
  | vfcmp f =>
    cases Option.some.inj h
    refine withEnv_lanePred he fun l => Prod.ext (congrArg Bool.toNat ?_) (floatCond_flags ..)
    generalize f.rnd.toNat = c
    rcases c with _ | _ | _ | _ | _ | _ | _ | c
    all_goals rfl
  | pset f =>
    cases Option.some.inj h
    refine withEnv_lanePred he fun l => Prod.ext (congrArg Bool.toNat ?_) rfl
    exact (decide_not (p := e.a l % 2 ^ e.ty.bits = 0)).symm
  | _ => cases h

/-- R198: each instruction on predicates writes its value in the active lanes. -/
theorem exec_predOnly {f : LaneWord} {v : Nat → Bool} (h : predOnly s i = some (f, v)) :
    exec i s = .next (writePred s (f.dst.toNat % 8) ((activeLanes s f).map fun l => (l, v l))).nextLane := by
  cases i with
  | pand g | por g | pxor g | pnot g =>
    cases Option.some.inj h
    rfl
  | pfirst g =>
    cases Option.some.inj h
    refine congrArg (fun vs => Host.Outcome.next (writePred s (f.dst.toNat % 8) vs).nextLane) ?_
    exact List.map_congr_left fun l _ => congrArg (Prod.mk l) BEq.comm
  | _ => cases h

end

end Sys2Proof.Machine
end

section
open Sys2Proof.Machine Sys2Proof.Claims

/-- Settles O19: what a predicate instruction gives in each lane goes through the one rule for what is written of a
predicate. -/
theorem lanePredicates : Obligations.LanePredicates := by
  refine ⟨fun i o s e h hp hquiet => ?operands, fun i f v s h hl => ?predicates⟩
  case operands =>
    obtain ⟨value, hexec, hvalue⟩ := exec_predLane h hp
    have hq : ∀ l ∈ e.act, (value l).2 &&& enables e.fmt = 0 := fun l hl => by
      rw [hvalue l]
      exact hquiet l hl
    have hdone := lanePred_quiet hp.1 (envT_ok hp.2) hq rfl
    simp only [hvalue] at hdone
    exact ⟨_, hexec, hdone⟩
  case predicates =>
    refine ⟨_, exec_predOnly h, preds_written hl (k := s.grp.taken) ?_⟩
    exact congrArg (fun u : State => (writePred u _ _).nextLane) s.setGrp_self.symm

end

