-- ==== Sys2Proof/Proofs/LaneTrees.lean ====
section
/-! Scans, sorts and reductions over the lanes of a group (R82, R201, R204). -/

namespace Sys2Proof.Machine
open Sys2Proof.Claims

/-! ### VSCAN (R201) -/

section
variable {s : State} {f : LaneWord} {e : Env}

theorem exec_vscan (he : envT s (.vscan f) f (redTy f) rT rNo rNo = .ok e)
    {r : List (Option Nat) × FpFlags}
    (hr : treeScan e (f.opC.toNat % 8) (Nat.log2 s.width) 1 (redInputs e (f.opC.toNat % 8)) = r)
    (hw : e.s.width = s.width) (hq : r.2 &&& enables e.fmt = 0) :
    exec (.vscan f) s = .next (writeVec (raiseFlags e.s r.2) e.f (isWide e) (e.act.map fun l =>
      (l, moveImage e.ty ((r.1.getD l none).getD (redEmpty e.ty (f.opC.toNat % 8)))))).nextLane := by
  rw [show exec (.vscan f) s = execVscan f s from rfl, execVscan, he, withEnv]
  simp only [hw, hr]
  rw [finishFp_quiet _ (by simpa using hq), (envT_ok he).word]
  simp

theorem EnvOf.width {spec : LaneSpec} {ok : Ty → Bool} (he : EnvOf s spec f ok e) (hl : s.cur.grp < s.groups.length) :
    e.s.width = s.width := by
  obtain ⟨k, hs⟩ := he.state hl
  generalize e.s.grp.popq = q at hs
  rw [hs, State.width, State.grp_setGrp _ _ hl]
  rfl

end

/-! ### VSORT (R204) -/

theorem insertKey_eq (x : Int × Nat) (xs : List (Int × Nat)) :
    insertKey x xs = xs.orderedInsert (Order.Preimage Prod.fst (· ≤ ·)) x := by
  induction xs with
  | nil => rfl
  | cons y ys ih =>
    rw [insertKey, List.orderedInsert_cons, ih]
    rfl

theorem sortKeys_eq (xs : List (Int × Nat)) : sortKeys xs = xs.insertionSort (Order.Preimage Prod.fst (· ≤ ·)) := by
  rw [sortKeys, List.insertionSort]
  congr 1
  funext x ys
  exact insertKey_eq x ys

/-- The values of the active lanes in the order that VSORT gives them. -/
def sortedValues (e : Env) (down : Bool) : List Nat :=
  let vs := (sortKeys (e.act.map fun l => (sortKey e.ty (e.a l), e.a l))).map Prod.snd
  if down then vs.reverse else vs

section
variable {e : Env}

theorem sortedValues_perm (down : Bool) : (sortedValues e down).Perm (e.act.map e.a) := by
  have hperm : ((sortKeys (e.act.map fun l => (sortKey e.ty (e.a l), e.a l))).map Prod.snd).Perm (e.act.map e.a) := by
    rw [sortKeys_eq]
    refine ((List.perm_insertionSort ..).map Prod.snd).trans ?_
    rw [List.map_map]
    rfl
  rw [sortedValues]
  split
  · exact (List.reverse_perm _).trans hperm
  · exact hperm

theorem sortedValues_up : (sortedValues e false).Pairwise fun x y => sortKey e.ty x ≤ sortKey e.ty y := by
  have hsort := List.pairwise_insertionSort (Order.Preimage Prod.fst (· ≤ ·))
    (e.act.map fun l => (sortKey e.ty (e.a l), e.a l))
  have hkey : ∀ x ∈ sortKeys (e.act.map fun l => (sortKey e.ty (e.a l), e.a l)), x.1 = sortKey e.ty x.2 := by
    intro x hx
    rw [sortKeys_eq, (List.perm_insertionSort ..).mem_iff] at hx
    obtain ⟨l, -, rfl⟩ := List.mem_map.mp hx
    rfl
  rw [← sortKeys_eq] at hsort
  refine List.pairwise_map.mpr (hsort.imp_of_mem fun hx hy h => ?_)
  rw [← hkey _ hx, ← hkey _ hy]
  exact h

theorem sortedValues_down : (sortedValues e true).Pairwise fun x y => sortKey e.ty y ≤ sortKey e.ty x :=
  List.pairwise_reverse.mpr sortedValues_up

theorem zip_eq_map_idxOf {α β : Type} [DecidableEq α] {xs : List α} {ys : List β} (d : β) (hn : xs.Nodup)
    (hlen : ys.length = xs.length) : xs.zip ys = xs.map fun x => (x, ys.getD (xs.idxOf x) d) := by
  refine List.ext_getElem (by simp [hlen]) fun i hi _ => ?_
  have hy : i < ys.length := (List.length_zip ▸ hi).trans_le (Nat.min_le_right ..)
  rw [List.getElem_zip, List.getElem_map, hn.idxOf_getElem, List.getD_eq_getElem _ _ hy]

theorem exec_vsort {s : State} {f : LaneWord}
    (he : envT s (.vsort f) f (fun t => t.isIntB || t.isArith) rT rNo rNo = .ok e) :
    exec (.vsort f) s = .next (writeVec e.s e.f (isWide e) (e.act.map fun l =>
      (l, moveImage e.ty ((sortedValues e (f.opC.toNat % 2 == 1)).getD (e.act.idxOf l) 0)))).nextLane := by
  have hn : e.act.Nodup := (envT_ok he).act ▸ nodup_activeLanes s f
  rw [show exec (.vsort f) s = execVsort f s from rfl, execVsort, he, withEnv, (envT_ok he).word]
  have hzip := zip_eq_map_idxOf (ys := (sortedValues e (f.opC.toNat % 2 == 1)).map (moveImage e.ty)) (moveImage e.ty 0)
    hn (by rw [List.length_map, (sortedValues_perm _).length_eq, List.length_map])
  simp only [List.getD_map] at hzip
  rw [← hzip]
  rfl

end

theorem raiseFlags_zero (s : State) : raiseFlags s 0 = s := by
  have hflags : s.grp.fpflags ||| (0 : FpFlags).setWidth 64 = s.grp.fpflags := by simp
  rw [raiseFlags, hflags]
  exact s.setGrp_self

/-! ### The reduction tree (R82, R201) -/

section
variable {M : Type} {op : M → M → M} [Std.Associative op] {φ : Nat → M} {b : M} {e : Env} {o n : Nat}
  (hop : ∀ x y, φ (redOp e o x y).1 = op (φ x) (φ y)) (hlt : ∀ x y, (redOp e o x y).1 < n)
include hop hlt

/-- A level of the tree halves the values and keeps what they come to. -/
theorem redLevel_some (k : Nat) (xs : List Nat) (hlen : xs.length = 2 * k) (hxs : ∀ x ∈ xs, x < n) :
    ∃ ys : List Nat, (redLevel e o (xs.map some)).1 = ys.map some ∧ ys.length = k ∧ (∀ y ∈ ys, y < n) ∧
      (ys.map φ).foldr op b = (xs.map φ).foldr op b := by
  induction k generalizing xs with
  | zero =>
    obtain rfl := List.length_eq_zero_iff.mp hlen
    exact ⟨[], rfl, rfl, hxs, rfl⟩
  | succ k ih =>
    match xs, hlen with
    | x :: y :: xs, hlen =>
      obtain ⟨ys, hys, hk, hy, hfold⟩ := ih xs (by simp at hlen; omega) fun z hz => hxs z (by simp [hz])
      refine ⟨(redOp e o x y).1 :: ys, ?_, by simp [hk], List.forall_mem_cons.mpr ⟨hlt x y, hy⟩, ?_⟩
      · simp only [List.map_cons, redLevel, redOpt, hys]
      · simp only [List.map_cons, List.foldr_cons, hfold, hop, Std.Associative.assoc (op := op)]

/-- The tree over 2^k values answers what they come to. -/
theorem treeReduce_some (k : Nat) (xs : List Nat) (hlen : xs.length = 2 ^ k) (hxs : ∀ x ∈ xs, x < n) :
    ∃ v, (treeReduce e o k (xs.map some)).1 = some v ∧ v < n ∧ op (φ v) b = (xs.map φ).foldr op b := by
  induction k generalizing xs with
  | zero =>
    obtain ⟨x, rfl⟩ := List.length_eq_one_iff.mp hlen
    exact ⟨x, rfl, hxs x (List.mem_singleton_self x), rfl⟩
  | succ k ih =>
    obtain ⟨ys, hys, hk, hy, hfold⟩ := redLevel_some (b := b) hop hlt (2 ^ k) xs (by rw [hlen, pow_succ, mul_comm]) hxs
    obtain ⟨v, hv, hvn, h⟩ := ih ys hk hy
    exact ⟨v, by simp only [treeReduce, hys, hv], hvn, h.trans hfold⟩

end

section
variable {M : Type} {op : M → M → M} [Std.Associative op] [Std.Commutative op] {b : M} (hb : op b b = b)
include hb

/-- One more of what all lanes come down to changes nothing. -/
theorem foldr_absorb (xs : List M) : op b (xs.foldr op b) = xs.foldr op b := by
  induction xs with
  | nil => exact hb
  | cons x xs ih =>
    rw [List.foldr_cons, ← Std.Associative.assoc (op := op), Std.Commutative.comm (op := op) b x,
      Std.Associative.assoc (op := op), ih]

/-- Lanes that supply the identity do not count. -/
theorem foldr_filter {α : Type} (p : α → Bool) (g : α → M) (xs : List α) :
    (xs.map fun x => if p x = true then g x else b).foldr op b = ((xs.filter p).map g).foldr op b := by
  induction xs with
  | nil => rfl
  | cons x xs ih =>
    rw [List.map_cons, List.foldr_cons, ih, List.filter_cons]
    split
    · rfl
    · exact foldr_absorb hb _

end

/-- What a lane that does not contribute supplies to a reduction of integers. -/
def redUnit (t : Ty) (o : Nat) : Nat :=
  match o with
  | 1 => wrapNat t.bits t.hi
  | 2 => wrapNat t.bits t.lo
  | 3 => 2 ^ t.bits - 1
  | _ => 0

theorem redUnit_lt (t : Ty) (o : Nat) : redUnit t o < 2 ^ t.bits := by
  have hp : 0 < 2 ^ t.bits := by positivity
  unfold redUnit
  split
  · exact wrapNat_lt ..
  · exact wrapNat_lt ..
  · omega
  · exact hp

theorem isFloat_of_isInt {t : Ty} (h : t.isInt = true) : t.isFloat = false := by
  cases t <;> simp [Ty.isInt, Ty.isFloat] at h ⊢

theorem readInt_mod (t : Ty) (x : Nat) : readInt t (x % 2 ^ t.bits) = readInt t x := by
  simp only [readInt, Nat.mod_mod]

/-- An integer of the type is read back from its low bits. -/
theorem readInt_wrapNat (t : Ty) {i : ℤ} (hi : t.lo ≤ i ∧ i ≤ t.hi) : readInt t (wrapNat t.bits i) = i :=
  Ty.eq_of_modEq (readInt_mem_range t _) hi ((readInt_modEq t _).trans (wrapNat_modEq ..))

theorem ite_lt {p : Prop} [Decidable p] {x y n : Nat} (hx : x < n) (hy : y < n) : (if p then x else y) < n := by
  split
  · exact hx
  · exact hy

section
variable {e : Env} {o k : Nat} (hint : e.ty.isInt = true)
include hint

theorem redInputs_of_isInt : redInputs e o = ((List.range e.s.width).map fun l =>
    if e.act.contains l then e.a l % 2 ^ e.ty.bits else redUnit e.ty o).map some := by
  have hunit : redIdentity e.ty o = some (redUnit e.ty o) := by
    simp only [redIdentity, isFloat_of_isInt hint, Bool.false_eq_true, if_false]
    rcases o with _ | _ | _ | _ | o
    all_goals rfl
  rw [redInputs, List.map_map, hunit]
  exact List.map_congr_left fun l _ => (apply_ite some ..).symm

theorem redOp_lt (x y : Nat) : (redOp e o x y).1 < 2 ^ e.ty.bits := by
  have hp : 0 < 2 ^ e.ty.bits := by positivity
  have hx : x % 2 ^ e.ty.bits < 2 ^ e.ty.bits := Nat.mod_lt _ hp
  have hy : y % 2 ^ e.ty.bits < 2 ^ e.ty.bits := Nat.mod_lt _ hp
  simp only [redOp, isFloat_of_isInt hint, Bool.false_eq_true, if_false]
  split
  · exact Nat.mod_lt _ hp
  · exact ite_lt hx hy
  · exact ite_lt hy hx
  · exact Nat.and_lt_two_pow _ hy
  · exact Nat.or_lt_two_pow hx hy
  · exact Nat.xor_lt_two_pow hx hy

/-- The reduction of integers comes to what the active lanes' values do. -/
theorem treeReduce_of_isInt {M : Type} {op : M → M → M} [Std.Associative op] [Std.Commutative op] {φ : Nat → M}
    (hop : ∀ x y, φ (redOp e o x y).1 = op (φ x) (φ y))
    (hb : op (φ (redUnit e.ty o)) (φ (redUnit e.ty o)) = φ (redUnit e.ty o))
    (hw : e.s.width = 2 ^ k) (hact : ∀ l ∈ e.act, l < 2 ^ k) (hn : e.act.Nodup) :
    (treeReduce e o k (redInputs e o)).1.getD 0 < 2 ^ e.ty.bits ∧
      op (φ ((treeReduce e o k (redInputs e o)).1.getD 0)) (φ (redUnit e.ty o)) =
        (e.act.map fun l => φ (e.a l % 2 ^ e.ty.bits)).foldl op (φ (redUnit e.ty o)) := by
  have hp : 0 < 2 ^ e.ty.bits := by positivity
  obtain ⟨v, hv, hlt, hfold⟩ := treeReduce_some (b := φ (redUnit e.ty o)) hop (redOp_lt hint) k
    ((List.range e.s.width).map fun l => if e.act.contains l then e.a l % 2 ^ e.ty.bits else redUnit e.ty o)
    (by simp [hw]) fun x hx => by
      obtain ⟨l, -, rfl⟩ := List.mem_map.mp hx
      split
      · exact Nat.mod_lt _ hp
      · exact redUnit_lt ..
  have hperm : ((List.range e.s.width).filter e.act.contains).Perm e.act :=
    (List.perm_ext_iff_of_nodup (List.nodup_range.filter _) hn).mpr fun l => by
      simpa [hw] using hact l
  rw [redInputs_of_isInt hint, hv, Option.getD_some]
  refine ⟨hlt, hfold.trans ?_⟩
  rw [List.foldl_eq_foldr, List.map_map]
  refine Eq.trans ?_ ((foldr_filter hb e.act.contains (fun l => φ (e.a l % 2 ^ e.ty.bits)) _).trans
    (hperm.map _).foldr_op_eq)
  congr 1
  refine List.map_congr_left fun l _ => ?_
  exact apply_ite φ ..

section
variable (hw : e.s.width = 2 ^ k) (hact : ∀ l ∈ e.act, l < 2 ^ k) (hn : e.act.Nodup)
include hw hact hn

/-- R82: the sum is taken modulo 2^N, where order and grouping do not matter. -/
theorem reduce_add (hsat : e.sat = false) : (treeReduce e 0 k (redInputs e 0)).1.getD 0 =
    wrapNat e.ty.bits (e.act.map fun l => readInt e.ty (e.a l)).sum := by
  have hcast {x y : ℤ} : (x : ZMod (2 ^ e.ty.bits)) = y ↔ x ≡ y [ZMOD 2 ^ e.ty.bits] := by
    rw [ZMod.intCast_eq_intCast_iff]
    push_cast
    rfl
  have hop (x y : Nat) :
      (((redOp e 0 x y).1 : ℤ) : ZMod (2 ^ e.ty.bits)) = ((x : ℤ) : ZMod (2 ^ e.ty.bits)) + (y : ℤ) := by
    simp only [redOp, isFloat_of_isInt hint, Bool.false_eq_true, if_false, hsat, intResult]
    rw [← Int.cast_add, hcast]
    push_cast
    exact (Int.mod_modEq ..).trans ((intImage_modEq hint _).trans ((readInt_modEq ..).add (readInt_modEq ..)))
  obtain ⟨hlt, h⟩ := treeReduce_of_isInt (φ := fun x => ((x : ℤ) : ZMod (2 ^ e.ty.bits))) hint hop (by simp [redUnit])
    hw hact hn
  generalize (treeReduce e 0 k (redInputs e 0)).1.getD 0 = r at hlt h ⊢
  have hsum : (e.act.map fun l => (((e.a l % 2 ^ e.ty.bits : ℕ) : ℤ) : ZMod (2 ^ e.ty.bits))).sum =
      ((e.act.map fun l => readInt e.ty (e.a l)).sum : ℤ) := by
    rw [Int.cast_list_sum, List.map_map]
    congr 1
    refine List.map_congr_left fun l _ => hcast.mpr ?_
    exact (readInt_mod e.ty (e.a l) ▸ readInt_modEq ..).symm
  have hr : ((r : ℤ) : ZMod (2 ^ e.ty.bits)) = ((e.act.map fun l => readInt e.ty (e.a l)).sum : ℤ) := by
    rw [← hsum, List.sum_eq_foldl]
    simpa [redUnit] using h
  refine Nat.ModEq.eq_of_lt_of_lt ?_ hlt (wrapNat_lt ..)
  have hmod := (hcast.mp hr).trans (wrapNat_modEq ..).symm
  exact_mod_cast hmod

theorem reduce_min : readInt e.ty ((treeReduce e 1 k (redInputs e 1)).1.getD 0) =
    (e.act.map fun l => readInt e.ty (e.a l)).foldl min e.ty.hi := by
  have hunit : readInt e.ty (redUnit e.ty 1) = e.ty.hi := readInt_wrapNat _ ⟨e.ty.lo_le_hi, le_rfl⟩
  have hop (x y : Nat) : readInt e.ty (redOp e 1 x y).1 = min (readInt e.ty x) (readInt e.ty y) := by
    simp only [redOp, isFloat_of_isInt hint, Bool.false_eq_true, if_false]
    rw [apply_ite (readInt e.ty), readInt_mod, readInt_mod, min_def]
  obtain ⟨-, h⟩ := treeReduce_of_isInt (φ := readInt e.ty) hint hop (min_self _) hw hact hn
  simp only [hunit, readInt_mod] at h
  rw [← h, min_eq_left (readInt_mem_range ..).2]

theorem reduce_max : readInt e.ty ((treeReduce e 2 k (redInputs e 2)).1.getD 0) =
    (e.act.map fun l => readInt e.ty (e.a l)).foldl max e.ty.lo := by
  have hunit : readInt e.ty (redUnit e.ty 2) = e.ty.lo := readInt_wrapNat _ ⟨le_rfl, e.ty.lo_le_hi⟩
  have hop (x y : Nat) : readInt e.ty (redOp e 2 x y).1 = max (readInt e.ty x) (readInt e.ty y) := by
    simp only [redOp, isFloat_of_isInt hint, Bool.false_eq_true, if_false]
    rw [apply_ite (readInt e.ty), readInt_mod, readInt_mod, max_def]
  obtain ⟨-, h⟩ := treeReduce_of_isInt (φ := readInt e.ty) hint hop (max_self _) hw hact hn
  simp only [hunit, readInt_mod] at h
  rw [← h, max_eq_left (readInt_mem_range ..).1]

/-- R82: a reduction that works on the bits. -/
theorem reduce_bits {op : Nat → Nat → Nat} [Std.Associative op] [Std.Commutative op]
    (hop : ∀ x y, (redOp e o x y).1 = op (x % 2 ^ e.ty.bits) (y % 2 ^ e.ty.bits))
    (hb : op (redUnit e.ty o) (redUnit e.ty o) = redUnit e.ty o)
    (hneutral : ∀ x, x < 2 ^ e.ty.bits → op x (redUnit e.ty o) = x) :
    (treeReduce e o k (redInputs e o)).1.getD 0 =
      (e.act.map fun l => e.a l % 2 ^ e.ty.bits).foldl op (redUnit e.ty o) := by
  have hunit : redUnit e.ty o % 2 ^ e.ty.bits = redUnit e.ty o := Nat.mod_eq_of_lt (redUnit_lt ..)
  obtain ⟨hlt, h⟩ := treeReduce_of_isInt (φ := (· % 2 ^ e.ty.bits)) hint
    (fun x y => (Nat.mod_eq_of_lt (redOp_lt hint x y)).trans (hop x y)) (by rw [hunit]; exact hb) hw hact hn
  simp only [hunit, Nat.mod_mod, Nat.mod_eq_of_lt hlt, hneutral _ hlt] at h
  exact h

end

end

end Sys2Proof.Machine
end

section
open Sys2Proof.Machine Sys2Proof.Claims

/-- Settles O20: a scan and a sort leave their results as every lane instruction does; a tree of an associative
operation comes to what the operation makes of all leaves, and the lanes that do not contribute add nothing to it. -/
theorem scansSortsReductions : Obligations.ScansSortsReductions := by
  refine ⟨⟨fun f s e hl he => ?scan, fun f s e hl he => ?sort⟩, fun e k hint hsat hw hact hn => ?tree⟩
  case scan =>
    intro r hq
    have h64 : ∀ l ∈ e.act, l < 64 := (envT_ok he).act ▸ fun l => lt_of_mem_activeLanes
    exact ⟨_, exec_vscan he rfl ((envT_ok he).width hl) hq, lanes_written hl h64 (envT_ok he) _ rfl⟩
  case sort =>
    have h64 : ∀ l ∈ e.act, l < 64 := (envT_ok he).act ▸ fun l => lt_of_mem_activeLanes
    obtain ⟨hframe, hregs, hflags⟩ := lanes_written hl h64 (envT_ok he) 0 (congrArg (fun u : State =>
      (writeVec u e.f (isWide e) (e.act.map fun l => (l, moveImage e.ty
        ((sortedValues e (f.opC.toNat % 2 == 1)).getD (e.act.idxOf l) 0)))).nextLane) (raiseFlags_zero e.s).symm)
    refine ⟨_, sortedValues e (f.opC.toNat % 2 == 1), exec_vsort he, sortedValues_perm _, fun h => ?_, fun h => ?_,
      hframe, hregs, hflags.trans (by simp)⟩
    · rw [h]; exact sortedValues_up
    · rw [h]; exact sortedValues_down
  case tree =>
    intro xs bs r
    refine ⟨reduce_add hint hw hact hn hsat, reduce_min hint hw hact hn, reduce_max hint hw hact hn,
      reduce_bits hint hw hact hn (fun x y => ?_) (Nat.and_self _) fun x hx => ?and,
      reduce_bits hint hw hact hn (fun x y => ?_) (Nat.or_self _) fun x _ => Nat.or_zero x,
      reduce_bits hint hw hact hn (fun x y => ?_) (Nat.xor_self _) fun x _ => Nat.xor_zero x⟩
    case and => exact (Nat.and_two_pow_sub_one_eq_mod ..).trans (Nat.mod_eq_of_lt hx)
    all_goals simp only [redOp, isFloat_of_isInt hint, Bool.false_eq_true, if_false]

end

