-- ==== Sys2Proof/Proofs/LaneBranches.lean ====
section
/-! Lane branches: where each slice goes, and what a divergence leaves on its stack (R125, R127, R129, R207). -/

namespace Sys2Proof.Machine
open Sys2Proof.Claims

/-! ### Lane masks of a slice -/

theorem bit_maskOf (is : List Nat) (i : Nat) : bit (maskOf is) i = decide (i ∈ is) := by
  have h := foldl_lanes_read (step := fun m i => maskSet m i true) (read := (bit · i)) (l := i) (x := true) is 0
    fun m k _ => bit_maskSet m k i true
  rw [maskOf, h]
  split
  next hi => exact (decide_eq_true hi).symm
  next hi => rw [decide_eq_false hi, bit_eq_testBit, Nat.zero_testBit]

theorem maskOf_ne_zero {is : List Nat} {i : Nat} (h : i ∈ is) : maskOf is ≠ 0 := by
  intro h0
  have hb := bit_maskOf is i
  rw [h0, bit_eq_testBit, Nat.zero_testBit, decide_eq_true h] at hb
  exact Bool.false_ne_true hb

section
variable (g : Group) (sl m : Nat) {i : Nat} (hi : i < 4)
include hi

theorem bit_actOf : bit (g.actOf sl) i = bit g.act (4 * sl + i) := by
  rw [bit_eq_testBit, bit_eq_testBit, Group.actOf, show 16 = 2 ^ 4 from rfl, Nat.testBit_mod_two_pow,
    Nat.testBit_div_two_pow, decide_eq_true hi, Bool.true_and, Nat.add_comm]

theorem bit_putAct : bit (g.putAct sl m).act (4 * sl + i) = bit m i := by
  rw [bit_eq_testBit, bit_eq_testBit, Group.putAct, testBit_putBits (by omega), if_pos (by omega),
    Nat.add_sub_cancel_left]

end

/-! ### Where a slice goes (R207) -/

/-- The lanes of a slice that take a branch, and its other active lanes. -/
def takers (s : State) (f : LaneWord) (sl : Nat) : List Nat :=
  (List.range 4).filter fun i => laneActive s f (4 * sl + i)
def stayers (s : State) (f : LaneWord) (sl : Nat) : List Nat :=
  (List.range 4).filter fun i => bit s.grp.act (4 * sl + i) && !laneActive s f (4 * sl + i)

/-- The group once a slice has diverged: RESUME below PATH, and the lanes that take the branch active. -/
def Group.diverged (g : Group) (sl : Nat) (f : Frag) (tk nt : Nat) (x j : BitVec 26) : Group :=
  ((g.pushEntry sl ⟨2, BitVec.ofNat 16 (g.actOf sl), 0, j, f.fmtc⟩).pushEntry sl
    ⟨1, BitVec.ofNat 16 nt, x, j, f.fmtc⟩).putAct sl tk

section
variable {s : State} {f : LaneWord} {sl i : Nat}

theorem mem_takers : i ∈ takers s f sl ↔ i < 4 ∧ laneActive s f (4 * sl + i) = true := by
  simp [takers]

theorem mem_stayers :
    i ∈ stayers s f sl ↔ i < 4 ∧ bit s.grp.act (4 * sl + i) = true ∧ laneActive s f (4 * sl + i) = false := by
  simp [stayers]

/-- Where a slice goes: to the target, on, or both ways. -/
theorem divergeSlice_eq (fr : Frag) (t : Nat) (x j : BitVec 26) :
    divergeSlice s.grp fr (fun l => s.grp.pred f.pred.toNat l != f.pneg) t x.toNat j sl =
      if takers s f sl = [] then (s.grp, x.toNat)
      else if stayers s f sl = [] then (s.grp, t)
      else (s.grp.diverged sl fr (maskOf (takers s f sl)) (maskOf (stayers s f sl)) x j, t) := by
  have htk : (List.range 4).filter (fun i =>
      bit (s.grp.actOf sl) i && (s.grp.pred f.pred.toNat (4 * sl + i) != f.pneg)) = takers s f sl :=
      List.filter_congr fun i hi => by
    rw [bit_actOf _ _ (List.mem_range.mp hi)]
    rfl
  have hnt : (List.range 4).filter (fun i =>
      bit (s.grp.actOf sl) i && !(s.grp.pred f.pred.toNat (4 * sl + i) != f.pneg)) = stayers s f sl :=
      List.filter_congr fun i hi => by
    rw [bit_actOf _ _ (List.mem_range.mp hi), laneActive]
    cases bit s.grp.act (4 * sl + i) <;> rfl
  have hzero {is : List Nat} : maskOf is = 0 ↔ is = [] := by
    refine ⟨fun h => ?_, fun h => by rw [h]; rfl⟩
    cases is with
    | nil => rfl
    | cons i is => exact absurd h (maskOf_ne_zero List.mem_cons_self)
  simp only [divergeSlice, htk, hnt, ne_eq, hzero, BitVec.ofNat_toNat, BitVec.setWidth_eq]
  by_cases ht : takers s f sl = []
  · simp [ht]
  · by_cases hs : stayers s f sl = []
    · simp [ht, hs]
    · simp only [ht, hs, not_false_eq_true, and_self, if_true, if_false]
      rfl

end

/-! ### A fragment whose slices agree -/

section
variable {g : Group} {fi v : Nat} {next : Nat → Nat} {j : BitVec 26}

theorem foldr_insertNat_same {sls : List Nat} (hn : sls ≠ []) (h : ∀ sl ∈ sls, next sl = v) :
    sls.foldr (fun sl vs => insertNat (next sl) vs) [] = [v] := by
  induction sls with
  | nil => exact absurd rfl hn
  | cons sl sls ih =>
    rw [List.foldr_cons, h sl List.mem_cons_self]
    obtain rfl | hne := eq_or_ne sls []
    · rfl
    · rw [ih hne fun x hx => h x (List.mem_cons_of_mem _ hx), insertNat]
      simp

/-- R127: a fragment whose slices go to one place stays whole. -/
theorem splitFrag_same {fr : Frag} (hfr : g.fragAt fi = fr) (hn : fr.slices ≠ []) (h : ∀ sl ∈ fr.slices, next sl = v) :
    splitFrag g fi next j = g.putFrag fi { fr with pc := BitVec.ofNat 26 v, wait := 0 } := by
  subst hfr
  simp only [splitFrag, foldr_insertNat_same hn h]

end

/-! ### Stacks that go to the hardware and the frame (R129) -/

theorem StrandsKept.performDwords {s0 s : State} {ds : List Dirty} {loc : Nat} {ws : List Dword}
    (h : StrandsKept s0 ds s) : StrandsKept s0 ds (performDwords s loc ws) := by
  induction ws generalizing s loc with
  | nil => exact h
  | cons w ws ih => exact ih h.performBy

theorem strandsKept_spillStacks (s : State) (old new : Group) : StrandsKept s s.dirty (spillStacks s old new) :=
  (StrandsKept.refl s).foldl fun ht => ht.foldl fun hu => .ite hu hu.performDwords

section
variable {s : State} {g : Group} (hl : s.cur.grp < s.groups.length)
include hl

theorem setStacks_grp : (s.setStacks g).grp = g := by
  have hk := strandsKept_spillStacks s s.grp g
  exact State.grp_setGrp _ _ (by rw [hk.cur, hk.length]; exact hl)

theorem setStacks_frag : (s.setStacks g).frag = g.fragAt s.cur.frag := by
  have hcur : (s.setStacks g).cur = s.cur := (strandsKept_spillStacks s s.grp g).cur
  rw [State.frag, setStacks_grp hl, hcur]
  rfl

end

section
variable {g : Group} {sl : Nat} {e : StackEntry}

@[simp] theorem Group.stackAt_pushEntry : (g.pushEntry sl e).stackAt sl = e :: g.stackAt sl :=
  Group.stackAt_putSpilled_same ..

/-- A push onto a stack that the hardware has room for leaves the spill area as it is. -/
theorem spilled_pushEntry (h : (g.stackAt sl).length ≠ mapGet 0 g.spilled sl + 8) :
    mapGet 0 (g.pushEntry sl e).spilled sl = mapGet 0 g.spilled sl := by
  simp [Group.pushEntry, Group.putSpilled, h]

theorem spillStack_pushEntry (hk : mapGet 0 g.spilled sl ≤ (g.stackAt sl).length)
    (h : (g.stackAt sl).length ≠ mapGet 0 g.spilled sl + 8) (j : Nat) :
    (g.pushEntry sl e).spillStack j = g.spillStack j := by
  by_cases hj : j = sl
  · subst hj
    rw [Group.spillStack, spilled_pushEntry h, show mapGet [] (g.pushEntry j e).recon j = e :: g.stackAt j from
      Group.stackAt_pushEntry, List.reverse_cons, List.take_append_of_le_length (by simpa using hk)]
    rfl
  · exact spillStack_putSpilled_other hj

end

section
variable (g : Group) (sl : Nat) (f : Frag) (tk nt : Nat) (x j : BitVec 26)

theorem fragAt_diverged (i : Nat) : (g.diverged sl f tk nt x j).fragAt i = g.fragAt i := rfl

theorem stackAt_diverged : (g.diverged sl f tk nt x j).stackAt sl =
    ⟨1, BitVec.ofNat 16 nt, x, j, f.fmtc⟩ :: ⟨2, BitVec.ofNat 16 (g.actOf sl), 0, j, f.fmtc⟩ :: g.stackAt sl := by
  have hact (g : Group) (m : Nat) : (g.putAct sl m).stackAt sl = g.stackAt sl := rfl
  rw [Group.diverged, hact, Group.stackAt_pushEntry, Group.stackAt_pushEntry]

/-- R129: where both entries fit into the hardware nothing goes to the frame. -/
theorem spillStack_diverged (hk : mapGet 0 g.spilled sl ≤ (g.stackAt sl).length)
    (hroom : (g.stackAt sl).length + 2 ≤ mapGet 0 g.spilled sl + 8) (i : Nat) :
    (g.diverged sl f tk nt x j).spillStack i = g.spillStack i := by
  have hact (g : Group) (m : Nat) : (g.putAct sl m).spillStack i = g.spillStack i := rfl
  have h1 : (g.stackAt sl).length ≠ mapGet 0 g.spilled sl + 8 := by omega
  rw [Group.diverged, hact, spillStack_pushEntry, spillStack_pushEntry hk h1]
  · rw [spilled_pushEntry h1, Group.stackAt_pushEntry, List.length_cons]
    omega
  · rw [spilled_pushEntry h1, Group.stackAt_pushEntry, List.length_cons]
    omega

end

/-! ### LBRA (R207) -/

/-- Where LBRA goes for several slices: the group, and the next PC of each. -/
def divergeSlices (s : State) (f : LaneWord) (t x : Nat) (j : BitVec 26) (sls : List Nat)
    (acc : Group × List (Nat × Nat)) : Group × List (Nat × Nat) :=
  sls.foldl (fun acc sl =>
    let r := divergeSlice acc.1 s.frag (fun l => s.grp.pred f.pred.toNat l != f.pneg) t x j sl
    (r.1, (sl, r.2) :: acc.2)) acc

theorem divergeSlices_same {s : State} {f : LaneWord} {t x v : Nat} {j : BitVec 26} {g : Group} {sls : List Nat}
    (h : ∀ sl ∈ sls, divergeSlice g s.frag (fun l => s.grp.pred f.pred.toNat l != f.pneg) t x j sl = (g, v))
    (ws : List (Nat × Nat)) :
    divergeSlices s f t x j sls (g, ws) = (g, (sls.map fun sl => (sl, v)).reverse ++ ws) := by
  induction sls generalizing ws with
  | nil => rfl
  | cons sl sls ih =>
    rw [divergeSlices, List.foldl_cons, h sl List.mem_cons_self]
    refine (ih (fun y hy => h y (List.mem_cons_of_mem _ hy)) _).trans ?_
    simp

theorem next_same {sls : List Nat} {sl v : Nat} (d : Nat) (h : sl ∈ sls) :
    ((((sls.map fun sl => (sl, v)).reverse ++ []).find? (fun p : Nat × Nat => p.1 == sl)).map Prod.snd).getD d = v := by
  rw [List.append_nil]
  cases hp : ((sls.map fun sl => (sl, v)).reverse).find? (fun p : Nat × Nat => p.1 == sl) with
  | none =>
    have hmem : (sl, v) ∈ (sls.map fun sl => (sl, v)).reverse := List.mem_reverse.mpr (List.mem_map_of_mem h)
    exact absurd (beq_self_eq_true sl) (List.find?_eq_none.mp hp _ hmem)
  | some p =>
    obtain ⟨_, -, rfl⟩ := List.mem_map.mp (List.mem_reverse.mp (List.mem_of_find?_eq_some hp))
    rfl

/-- A branch's join point: none where its offset is 0. -/
def branchJoin (s : State) (f : LaneWord) : BitVec 26 :=
  if lbraJoin f = 0 then noneJoin else laneTarget s.frag.pc (lbraJoin f)

theorem lbraJoin_eq (f : LaneWord) : lbraJoin f = (f.opA ++ f.opB ++ f.opC).extractLsb' 6 24 := by
  have ha := f.opA.isLt
  have hb := f.opB.isLt
  have hc := f.opC.isLt
  refine BitVec.eq_of_toNat_eq ?_
  simp only [lbraJoin, BitVec.toNat_ofNat, BitVec.extractLsb'_toNat, BitVec.toNat_append, Nat.shiftRight_eq_div_pow]
  rw [← Nat.shiftLeft_add_eq_or_of_lt hb, ← Nat.shiftLeft_add_eq_or_of_lt hc, Nat.shiftLeft_eq, Nat.shiftLeft_eq]
  omega

section
variable {s : State} {f : LaneWord}

theorem exec_lbra {g : Group} {ws : List (Nat × Nat)} (hr : divergeSlices s f (laneJump s f).toNat
    (s.frag.pc + 1).toNat (branchJoin s f) s.frag.slices (s.grp, []) = (g, ws)) :
    exec (.lbra f) s = .next (commitSplit s (splitFrag g s.cur.frag
      (fun sl => ((ws.find? (fun p => p.1 == sl)).map Prod.snd).getD (s.frag.pc + 1).toNat) (branchJoin s f))
      s.frag.slices) := by
  have h : exec (.lbra f) s = .next (commitSplit s (splitFrag (divergeSlices s f (laneJump s f).toNat
      (s.frag.pc + 1).toNat (branchJoin s f) s.frag.slices (s.grp, [])).1 s.cur.frag
      (fun sl => (((divergeSlices s f (laneJump s f).toNat (s.frag.pc + 1).toNat (branchJoin s f) s.frag.slices
        (s.grp, [])).2.find? (fun p => p.1 == sl)).map Prod.snd).getD (s.frag.pc + 1).toNat) (branchJoin s f))
      s.frag.slices) := rfl
  rw [h, hr]

theorem commitSplit_eq {g : Group} {sls : List Nat} (h : ∀ sl ∈ sls, (g.stackAt sl).length ≤ 64) :
    commitSplit s g sls = s.setStacks g := by
  rw [commitSplit, overflow_none h]

/-- R129: a group with the stacks as they were overflows nothing and spills nothing. -/
theorem commitSplit_sameStacks {g : Group} {sls : List Nat} (hr : g.recon = s.grp.recon)
    (hsp : g.spilled = s.grp.spilled) (h : ∀ sl ∈ sls, (s.grp.stackAt sl).length ≤ 64) :
    commitSplit s g sls = s.setGrp g := by
  have hstack (sl : Nat) : g.stackAt sl = s.grp.stackAt sl := by rw [Group.stackAt, hr, Group.stackAt]
  have hspill (sl : Nat) : g.spillStack sl = s.grp.spillStack sl := by
    rw [Group.spillStack, hr, hsp, Group.spillStack]
  rw [commitSplit_eq fun sl hsl => hstack sl ▸ h sl hsl]
  exact setStacks_of_prefix fun sl => by rw [hspill]

/-- Where all slices go to one place, nothing changes but the PC. -/
theorem exec_lbra_same {v : BitVec 26} (hf : s.frag.smask ≠ 0)
    (hlen : ∀ sl ∈ s.frag.slices, (s.grp.stackAt sl).length ≤ 62)
    (h : ∀ sl ∈ s.frag.slices, divergeSlice s.grp s.frag (fun l => s.grp.pred f.pred.toNat l != f.pneg)
      (laneJump s f).toNat (s.frag.pc + 1).toNat (branchJoin s f) sl = (s.grp, v.toNat)) :
    exec (.lbra f) s = .next (s.setGrp (s.grp.putFrag s.cur.frag { s.frag with pc := v, wait := 0 })) := by
  rw [exec_lbra (divergeSlices_same h []), splitFrag_same (fr := s.frag) rfl (slices_ne_nil hf)
    fun sl hsl => next_same (v := v.toNat) _ hsl,
    commitSplit_sameStacks (g := s.grp.putFrag ..) rfl rfl fun sl hsl => (hlen sl hsl).trans (by decide),
    BitVec.ofNat_toNat, BitVec.setWidth_eq]

/-- The group once the one slice of a fragment has diverged and gone to the target. -/
def branched (s : State) (f : LaneWord) (sl : Nat) : Group :=
  (s.grp.diverged sl s.frag (maskOf (takers s f sl)) (maskOf (stayers s f sl)) (s.frag.pc + 1) (branchJoin s f)).putFrag
    s.cur.frag { s.frag with pc := laneJump s f, wait := 0 }

theorem stackAt_branched (s : State) (f : LaneWord) (sl : Nat) : (branched s f sl).stackAt sl =
    ⟨1, BitVec.ofNat 16 (maskOf (stayers s f sl)), s.frag.pc + 1, branchJoin s f, s.frag.fmtc⟩ ::
      ⟨2, BitVec.ofNat 16 (s.grp.actOf sl), 0, branchJoin s f, s.frag.fmtc⟩ :: s.grp.stackAt sl := by
  rw [branched, Group.stackAt_putFrag, stackAt_diverged]

theorem fragAt_branched (s : State) (f : LaneWord) (sl : Nat) :
    (branched s f sl).fragAt s.cur.frag = { s.frag with pc := laneJump s f, wait := 0 } :=
  Group.fragAt_putFrag_same ..

theorem controlOnly_branched (s : State) (f : LaneWord) (sl : Nat) : ControlOnly s.grp (branched s f sl) :=
  (ControlOnly.refl _).putSpilled.putSpilled.putAct.putFrag

theorem spillStack_branched {sl : Nat} (hk : mapGet 0 s.grp.spilled sl ≤ (s.grp.stackAt sl).length)
    (hroom : (s.grp.stackAt sl).length + 2 ≤ mapGet 0 s.grp.spilled sl + 8) (i : Nat) :
    (branched s f sl).spillStack i = s.grp.spillStack i :=
  spillStack_diverged s.grp sl s.frag (maskOf (takers s f sl)) (maskOf (stayers s f sl)) (s.frag.pc + 1)
    (branchJoin s f) hk hroom i

theorem bit_act_branched {sl n : Nat} (hn : n < 4) :
    bit (branched s f sl).act (4 * sl + n) = laneActive s f (4 * sl + n) := by
  refine (bit_putAct _ _ _ hn).trans ?_
  rw [bit_maskOf]
  simp [mem_takers, hn]

theorem getLsbD_stayers {sl n : Nat} (hn : n < 4) : (BitVec.ofNat 16 (maskOf (stayers s f sl))).getLsbD n =
    (bit s.grp.act (4 * sl + n) && !laneActive s f (4 * sl + n)) := by
  rw [BitVec.getLsbD_ofNat, ← bit_eq_testBit, bit_maskOf, decide_eq_true (show n < 16 by omega), Bool.true_and]
  simp [mem_stayers, hn]

theorem exec_lbra_diverged {sl : Nat} (hs : s.frag.slices = [sl]) (htk : takers s f sl ≠ []) (hnt : stayers s f sl ≠ [])
    (hlen : (s.grp.stackAt sl).length ≤ 62) : exec (.lbra f) s = .next (s.setStacks (branched s f sl)) := by
  have hr : divergeSlices s f (laneJump s f).toNat (s.frag.pc + 1).toNat (branchJoin s f) s.frag.slices (s.grp, []) =
      (s.grp.diverged sl s.frag (maskOf (takers s f sl)) (maskOf (stayers s f sl)) (s.frag.pc + 1) (branchJoin s f),
        [(sl, (laneJump s f).toNat)]) := by
    rw [hs, divergeSlices, List.foldl_cons, List.foldl_nil, divergeSlice_eq, if_neg htk, if_neg hnt]
  have hnext : ∀ y ∈ s.frag.slices, (([(sl, (laneJump s f).toNat)].find? (fun p => p.1 == y)).map Prod.snd).getD
      (s.frag.pc + 1).toNat = (laneJump s f).toNat := fun y hy => by
    obtain rfl := List.mem_singleton.mp (hs ▸ hy)
    simp
  have hsplit := splitFrag_same (j := branchJoin s f) (fr := s.frag) (fragAt_diverged s.grp sl s.frag
    (maskOf (takers s f sl)) (maskOf (stayers s f sl)) (s.frag.pc + 1) (branchJoin s f) s.cur.frag)
    (by rw [hs]; exact List.cons_ne_nil _ _) hnext
  rw [BitVec.ofNat_toNat, BitVec.setWidth_eq] at hsplit
  rw [exec_lbra hr, hsplit, hs, ← branched, commitSplit_eq]
  rintro x hx
  obtain rfl := List.mem_singleton.mp hx
  rw [stackAt_branched]
  exact Nat.add_le_add_right hlen 2

variable (hl : s.cur.grp < s.groups.length)
include hl

theorem lbra_same {v : BitVec 26}
    (h : exec (.lbra f) s = .next (s.setGrp (s.grp.putFrag s.cur.frag { s.frag with pc := v, wait := 0 }))) :
    ∃ t, exec (.lbra f) s = .next t ∧ ControlFrame s t ∧ t.grp.recon = s.grp.recon ∧ t.grp.act = s.grp.act ∧
      t.frag = { s.frag with pc := v, wait := 0 } := by
  refine ⟨_, h, controlFrame_setGrp hl (ControlOnly.refl _).putFrag, ?_⟩
  rw [State.grp_setGrp _ _ hl, frag_setGrp hl, Group.fragAt_putFrag_same]
  exact ⟨rfl, rfl, rfl⟩

end

end Sys2Proof.Machine
end

section
open Sys2Proof.Machine Sys2Proof.Claims

/-- Settles O27: a slice goes to the target, on, or both ways; slices that agree keep the fragment whole, and one that
goes both ways pushes RESUME and PATH. -/
theorem laneBranch : Obligations.LaneBranch := by
  intro f s hl hf hlen off j
  have hj : branchJoin s f = j := by
    rw [branchJoin, lbraJoin_eq]
    rfl
  refine ⟨fun h => ?taken, fun h => ?notTaken, fun sl i k hs hi hk hti hnk hak => ?diverges⟩
  case taken =>
    refine lbra_same hl (exec_lbra_same hf hlen fun sl hsl => ?_)
    obtain ⟨⟨i, hi, hact⟩, hall⟩ := h sl hsl
    have htk : takers s f sl ≠ [] := List.ne_nil_of_mem (mem_takers.mpr ⟨hi, hact⟩)
    have hnt : stayers s f sl = [] := List.eq_nil_iff_forall_not_mem.mpr fun n hn => by
      obtain ⟨hn4, hb, hno⟩ := mem_stayers.mp hn
      exact Bool.false_ne_true (hno.symm.trans (hall n hn4 hb))
    rw [divergeSlice_eq, if_neg htk, if_pos hnt]
  case notTaken =>
    refine lbra_same hl (exec_lbra_same hf hlen fun sl hsl => ?_)
    have htk : takers s f sl = [] := List.eq_nil_iff_forall_not_mem.mpr fun n hn => by
      obtain ⟨hn4, hyes⟩ := mem_takers.mp hn
      have hmem : 4 * sl + n ∈ s.frag.lanes := Frag.mem_lanes.mpr (by rwa [show (4 * sl + n) / 4 = sl by omega])
      exact Bool.false_ne_true ((h _ hmem).symm.trans hyes)
    rw [divergeSlice_eq, if_pos htk]
  case diverges =>
    have htk : takers s f sl ≠ [] := List.ne_nil_of_mem (mem_takers.mpr ⟨hi, hti⟩)
    have hnt : stayers s f sl ≠ [] := List.ne_nil_of_mem (mem_stayers.mpr ⟨hk, hak, hnk⟩)
    have hlen' := hlen sl (hs ▸ List.mem_singleton_self sl)
    refine ⟨_, BitVec.ofNat 16 (maskOf (stayers s f sl)), exec_lbra_diverged hs htk hnt hlen', ?_⟩
    rw [setStacks_frag hl, setStacks_grp hl]
    refine ⟨fun hk hroom => ?_, ?_, ?_, ?_, ?_⟩
    · rw [setStacks_of_prefix fun i => by rw [spillStack_branched hk hroom]]
      exact controlFrame_setGrp hl (controlOnly_branched s f sl)
    · rw [fragAt_branched]
    · rw [stackAt_branched, hj]
    · exact fun n hn => bit_act_branched hn
    · exact fun n hn => getLsbD_stayers hn

end

