-- ==== Sys2Proof/Proofs/LaneJumps.lean ====
section
/-! Lane jumps, pads and tables, and PHINT (R208-R210, R212, R213). -/

namespace Sys2Proof.Machine
open Sys2Proof.Claims

/-! ### The words (R208, R210, R213) -/

/-- A lane instruction with nothing but its word2. -/
def bareWord (w2 : BitVec 32) : LaneWord := ⟨0, false, 0, 0, false, 0, 0, 0, 0, 0, false, false, w2⟩

theorem decodeLane_bare {i : Instr} {r : LaneSpec} {w2 : BitVec 32} (h : laneSpec i = some (r, bareWord w2))
    (hi : i.wellFormed = true) : decodeLane (r.op * 2 ^ 23 + w2.toNat * 2 ^ 64) = some i := by
  have hw : encodeLane r.op (bareWord w2) = r.op * 2 ^ 23 + w2.toNat * 2 ^ 64 := by simp [encodeLane, bareWord]
  rw [← hw]
  exact decodeLane_encodeLane h hi

theorem wellFormed_ljmp (o : BitVec 24) : (Instr.ljmp (bareWord (o.setWidth 32))).wellFormed = true := by
  have ho : o.toNat / 2 ^ 24 = 0 := Nat.div_eq_of_lt o.isLt
  have hw : W2Kind.target.ok (o.setWidth 32) = true := by
    rw [W2Kind.ok, BitVec.toNat_setWidth_of_le (by decide), ho]
    rfl
  simp [Instr.wellFormed, laneSpec, LaneSpec.ok, bareWord, hw, DstKind.ok, TyKind.ok, OpKind.ok, RndKind.ok]

theorem wellFormed_lpad (l : BitVec 12) : (Instr.lpad (bareWord (l.setWidth 32))).wellFormed = true := by
  have ho : l.toNat / 2 ^ 12 = 0 := Nat.div_eq_of_lt l.isLt
  have hw : W2Kind.label.ok (l.setWidth 32) = true := by
    rw [W2Kind.ok, BitVec.toNat_setWidth_of_le (by decide), ho]
    rfl
  simp [Instr.wellFormed, laneSpec, LaneSpec.ok, bareWord, hw, DstKind.ok, TyKind.ok, OpKind.ok, RndKind.ok]

theorem decodeLane_ljmp (o : BitVec 24) : ∃ f : LaneWord,
    decodeLane (0x121 * 2 ^ 23 + o.toNat * 2 ^ 64) = some (.ljmp f) ∧ f.w2 = o.setWidth 32 := by
  refine ⟨bareWord (o.setWidth 32), ?_, rfl⟩
  have h := decodeLane_bare (w2 := o.setWidth 32) rfl (wellFormed_ljmp o)
  rwa [BitVec.toNat_setWidth_of_le (by decide)] at h

theorem decodeLane_lpad (l : BitVec 12) : ∃ f : LaneWord,
    decodeLane (0x123 * 2 ^ 23 + l.toNat * 2 ^ 64) = some (.lpad f) ∧ f.w2 = l.setWidth 32 := by
  refine ⟨bareWord (l.setWidth 32), ?_, rfl⟩
  have h := decodeLane_bare (w2 := l.setWidth 32) rfl (wellFormed_lpad l)
  rwa [BitVec.toNat_setWidth_of_le (by decide)] at h

theorem decodeLane_lnop : decodeLane 0x94000000 = some (.lnop (bareWord 0)) := by
  have hw : (Instr.lnop (bareWord 0)).wellFormed = true := by decide
  exact decodeLane_bare (w2 := 0) rfl hw

/-! ### The PC alone -/

section
variable {s : State} (hl : s.cur.grp < s.groups.length)
include hl

theorem pcOnly_setFrag (pc : BitVec 26) : PcOnly s (s.setFrag { s.frag with pc := pc }) pc where
  rest := by rw [State.setFrag, State.grp_setGrp _ _ hl]
  pc := (frag_setGrp hl).trans (Group.fragAt_putFrag_same ..)
  others i hi := by
    rw [State.setFrag, State.grp_setGrp _ _ hl]
    exact mapGet_mapSet_other _ _ _ _ _ hi
  bytes _ := rfl

theorem ljmp_goes (f : LaneWord) : ∃ t, exec (.ljmp f) s = .next t ∧ PcOnly s t (laneJump s f) :=
  ⟨_, rfl, pcOnly_setFrag hl _⟩

theorem lpad_goes_on (f : LaneWord) : ∃ t, exec (.lpad f) s = .next t ∧ PcOnly s t (s.frag.pc + 1) :=
  ⟨_, rfl, pcOnly_setFrag hl _⟩

theorem lnop_goes_on (f : LaneWord) : ∃ t, exec (.lnop f) s = .next t ∧ PcOnly s t (s.frag.pc + 1) :=
  ⟨_, rfl, pcOnly_setFrag hl _⟩

end

/-! ### LJTAB (R209) -/

/-- The fragment stands at a pad, with its words for the queue registers taken. -/
def Group.jumped (g : Group) (fi : Nat) (q : SMap (List Dword)) (k : List (Nat × Nat × List Dword)) (pc : BitVec 26) :
    Group :=
  (g.popped q k).putFrag fi { g.fragAt fi with pc := pc, wait := 0 }

section
variable {s : State}

theorem tableWord_ok {tb : BitVec 26} {k w : Nat}
    (h : fetchLaneWord s (laneAddr s tb.toNat + BitVec.ofNat 64 (4 * k)) (20 + k) = .ok w) :
    tableWord s tb k = .ok w := by
  rw [tableWord, h]

theorem padTarget_of_pad {tb t : BitVec 26} {k w : Nat} (hw : tableWord s tb (k + 1) = .ok w)
    (ht : t = tb + (BitVec.ofNat 20 (w / 2 ^ 12)).signExtend 26) (hlt : t.toNat < (s.launchOf s.grp).lcount)
    (hpad : fetchLane s t.toNat = .ok (0x123 * 2 ^ 23 + w % 2 ^ 12 * 2 ^ 64)) :
    padTarget s tb k = .target t.toNat := by
  subst ht
  simp only [padTarget, hw, hpad, Nat.not_le.mpr hlt, if_false, if_true]

/-- What the answer of a lane says of the target of lane l. -/
def padOf (l : Nat) : Nat × PadAns → Option Nat
  | (j, .target t) => if j == l then some t else none
  | _ => none

theorem firstSome_padOf {ls : List Nat} {l t : Nat} (h : l ∈ ls) :
    firstSome (padOf l) (ls.map fun l => (l, .target t)) = some t := by
  induction ls with
  | nil => cases h
  | cons k ls ih =>
    by_cases hk : k = l
    · simp [firstSome, padOf, hk]
    · have hmem : l ∈ ls := (List.mem_cons.mp h).resolve_left (Ne.symm hk)
      simpa [firstSome, padOf, hk] using ih hmem

/-- Where every active lane found the same pad and every slice has an active lane, the fragment goes there whole. -/
theorem ljtabGo_one {e : Env} {t : BitVec 26} (hfr : e.s.grp.fragAt e.s0.cur.frag = e.s0.frag)
    (hn : e.s0.frag.smask ≠ 0) (hact : ∀ sl ∈ e.s0.frag.slices, ∃ l ∈ e.act, l / 4 = sl) :
    ljtabGo e (e.act.map fun l => (l, .target t.toNat)) =
      commitSplit e.s0 (e.s.grp.putFrag e.s0.cur.frag { e.s0.frag with pc := t, wait := 0 }) e.s0.frag.slices := by
  have hmem {sl l : Nat} (h : l ∈ e.act.filter (fun l => l / 4 == sl)) : l ∈ e.act := (List.mem_filter.mp h).1
  have htarget {x : Nat × PadAns} (hx : x ∈ e.act.map fun l => (l, PadAns.target t.toNat)) : x.2 = .target t.toNat := by
    obtain ⟨l, -, rfl⟩ := List.mem_map.mp hx
    rfl
  unfold ljtabGo
  extract_lets s target fr lanesOf next
  split
  case h_1 l m va hfind => cases htarget (List.mem_of_find?_eq_some hfind)
  case h_2 l x hx hfind =>
    have hp := List.find?_some hfind
    rw [htarget (List.mem_of_find?_eq_some hfind)] at hp
    exact absurd hp Bool.false_ne_true
  case h_3 =>
  split
  case h_1 sl hfind =>
    have hany := List.find?_some hfind
    obtain ⟨l, hl, hne⟩ := List.any_eq_true.mp hany
    have hhead : (lanesOf sl).headD 0 ∈ lanesOf sl := by
      rw [List.headD_eq_head?_getD, List.head?_eq_some_head (List.ne_nil_of_mem hl)]
      exact List.head_mem _
    exact absurd ((firstSome_padOf (hmem hl)).trans (firstSome_padOf (hmem hhead)).symm) (bne_iff_ne.mp hne)
  case h_2 =>
    have hnext : ∀ sl ∈ e.s0.frag.slices, next sl = t.toNat := fun sl hsl => by
      obtain ⟨l, hl, hsl⟩ := hact sl hsl
      have hl' : l ∈ lanesOf sl := List.mem_filter.mpr ⟨hl, beq_iff_eq.mpr hsl⟩
      simp only [next]
      split
      next k ks hk => exact congrArg (·.getD 0) (firstSome_padOf (hmem (hk ▸ List.mem_cons_self)))
      next hnil => exact absurd hnil (List.ne_nil_of_mem hl')
    have hsplit := splitFrag_same (j := fr.join) hfr (slices_ne_nil hn) hnext
    rw [BitVec.ofNat_toNat, BitVec.setWidth_eq] at hsplit
    exact congrArg (commitSplit s · fr.slices) hsplit

variable {f : LaneWord} {e : Env} {k bound : Nat} {t : BitVec 26} (hl : s.cur.grp < s.groups.length)

theorem exec_ljtab_go (hx : envT s (.ljtab f) f (fun _ => true) (rTy .n32) rNo rNo = .ok e) (hne : e.act ≠ [])
    (hk : ∀ l ∈ e.act, amount (e.a l) = k) (hlt : k < bound)
    (hbound : tableWord s (laneJump s f) 0 = .ok bound) (hpad : padTarget s (laneJump s f) k = .target t.toNat) :
    exec (.ljtab f) s = .next (ljtabGo e (e.act.map fun l => (l, .target t.toNat))) := by
  have hempty : e.act.isEmpty = false := List.isEmpty_eq_false_iff.mpr hne
  have htab : laneTarget s.frag.pc (f.w2.setWidth 24) = laneJump s f := rfl
  have hrange : e.act.find? (fun l => decide (bound ≤ e.a l % 2 ^ 32)) = none := by
    rw [List.find?_eq_none]
    intro l hl
    rw [show e.a l % 2 ^ 32 = k from hk l hl, decide_eq_true_iff]
    omega
  have hpads : (e.act.map fun l => (l, padTarget s (laneJump s f) (e.a l % 2 ^ 32))) =
      e.act.map fun l => (l, .target t.toNat) := List.map_congr_left fun l hl => by
    rw [show e.a l % 2 ^ 32 = k from hk l hl, hpad]
  show execLjtab f s = _
  simp only [execLjtab, hx, withEnv, hempty, Bool.false_eq_true, if_false, htab, hbound, hrange, hpads]

include hl

/-- The fragment goes whole to the pad that every active lane names. -/
theorem exec_ljtab (hx : envT s (.ljtab f) f (fun _ => true) (rTy .n32) rNo rNo = .ok e) (hn : s.frag.smask ≠ 0)
    (hslices : ∀ sl ∈ s.frag.slices, (s.grp.stackAt sl).length ≤ 64 ∧ ∃ l ∈ e.act, l / 4 = sl)
    (hk : ∀ l ∈ e.act, amount (e.a l) = k) (hlt : k < bound) (hbound : tableWord s (laneJump s f) 0 = .ok bound)
    (hpad : padTarget s (laneJump s f) k = .target t.toNat) :
    ∃ tk, exec (.ljtab f) s = .next (s.setGrp (s.grp.jumped s.cur.frag e.s.grp.popq tk t)) := by
  have he := envT_ok hx
  obtain ⟨tk, hs⟩ := he.state hl
  have hgrp : e.s.grp = s.grp.popped e.s.grp.popq tk := (congrArg State.grp hs).trans (State.grp_setGrp _ _ hl)
  have hfrag : e.s.grp.fragAt s.cur.frag = s.frag := by
    rw [hgrp]
    rfl
  have hact : ∀ sl ∈ s.frag.slices, ∃ l ∈ e.act, l / 4 = sl := fun sl hsl => (hslices sl hsl).2
  have hne : e.act ≠ [] := by
    obtain ⟨sl, hsl⟩ := List.exists_mem_of_ne_nil _ (slices_ne_nil hn)
    obtain ⟨l, hl, -⟩ := hact sl hsl
    exact List.ne_nil_of_mem hl
  have hjump : e.s.grp.putFrag s.cur.frag { s.frag with pc := t, wait := 0 } =
      s.grp.jumped s.cur.frag e.s.grp.popq tk t :=
    congrArg (·.putFrag s.cur.frag { s.frag with pc := t, wait := 0 }) hgrp
  have hgo := ljtabGo_one (e := e) (t := t)
  rw [he.s0, hjump, commitSplit_sameStacks (g := s.grp.jumped s.cur.frag e.s.grp.popq tk t) rfl rfl
    fun sl hsl => (hslices sl hsl).1] at hgo
  exact ⟨tk, (exec_ljtab_go hx hne hk hlt hbound hpad).trans (congrArg Host.Outcome.next (hgo hfrag hn hact))⟩

theorem jumped_only {q : SMap (List Dword)} {tk : List (Nat × Nat × List Dword)} {r : Result}
    (h : r = .next (s.setGrp (s.grp.jumped s.cur.frag q tk t))) :
    ∃ u, r = .next u ∧ u.frag = { s.frag with pc := t, wait := 0 } ∧ u.grp.recon = s.grp.recon ∧
      u.grp.act = s.grp.act ∧ u.grp.popq = q ∧ u.grp.vregs = s.grp.vregs ∧ GroupOnly s u := by
  refine ⟨_, h, (frag_setGrp hl).trans (Group.fragAt_putFrag_same ..), ?_⟩
  rw [State.grp_setGrp _ _ hl]
  exact ⟨rfl, rfl, rfl, rfl, groupOnly_setGrp hl _⟩

end

/-! ### PHINT (R113, R212) -/

theorem phintMap_eq (f : LaneWord) :
    phintMap f = f.opA ++ f.opB ++ f.opC ++ BitVec.ofBool f.sat ++ BitVec.ofBool f.negB ++ f.w2 := by
  have ha := f.opA.isLt
  have hb := f.opB.isLt
  have hc := f.opC.isLt
  have hw := f.w2.isLt
  have hsat := (BitVec.ofBool f.sat).isLt
  have hneg := (BitVec.ofBool f.negB).isLt
  refine BitVec.eq_of_toNat_eq ?_
  simp only [phintMap, BitVec.toNat_ofNat, BitVec.toNat_append]
  rw [← Nat.shiftLeft_add_eq_or_of_lt hb, ← Nat.shiftLeft_add_eq_or_of_lt hc, ← Nat.shiftLeft_add_eq_or_of_lt hsat,
    ← Nat.shiftLeft_add_eq_or_of_lt hneg, ← Nat.shiftLeft_add_eq_or_of_lt hw]
  simp only [Nat.shiftLeft_eq, BitVec.toNat_ofBool] at hsat hneg ⊢
  omega

section
variable {s : State} {f : LaneWord} (hl : s.cur.grp < s.groups.length)

theorem saveGroup_cur (s : State) (g : Nat) (job : SaveJob) : (saveGroup s g job).cur = s.cur := by
  have hroll : (rollbackGroup s g).cur = s.cur := by
    rw [rollbackGroup]
    split <;> rfl
  have hpub : (pub (rollbackGroup s g) g 5).cur = (rollbackGroup s g).cur :=
    ((StrandsKept.refl (rollbackGroup s g)).pub (g := g) (scope := 5) (by decide)).cur
  rw [← hroll, ← hpub, saveGroup_eq, saveReady]
  generalize pub (rollbackGroup s g) g 5 = u
  rfl

theorem exec_phint (hm : mapsOk (s.launchOf s.grp) (phintMap f) f.dst.toNat = true) : exec (.phint f) s =
    .next (if s.grp.saveReq.isSome && fullyGanged s then
      saveGroup s.nextLane s.cur.grp ⟨2, false, phintMap f, f.dst.toNat, true, none, []⟩ else s.nextLane) := by
  show execPhint f s = _
  simp only [execPhint, hm, Bool.not_true, Bool.false_eq_true, if_false]
  rfl

include hl

theorem nextLane_only : ControlFrame s s.nextLane ∧ s.nextLane.frag = { s.frag with pc := s.frag.pc + 1 } :=
  ⟨controlFrame_setGrp hl (ControlOnly.refl _).putFrag, (frag_setGrp hl).trans (Group.fragAt_putFrag_same ..)⟩

theorem saveGroup_nextLane (job : SaveJob) :
    (saveGroup s.nextLane s.cur.grp job).grp.run = .saving ∧ (saveGroup s.nextLane s.cur.grp job).grp.saveReq = none ∧
      (saveGroup s.nextLane s.cur.grp job).grp.save = some job := by
  have hlen : s.cur.grp < s.nextLane.groups.length := by
    rw [State.nextLane, State.setFrag, State.setGrp_length]
    exact hl
  have hcur : (saveGroup s.nextLane s.cur.grp job).cur = s.cur := saveGroup_cur ..
  rw [State.grp, hcur]
  exact saveGroup_group hlen

end

end Sys2Proof.Machine
end

section
open Sys2Proof.Machine Sys2Proof.Claims

/-- Settles O28: a lane jump, a pad and a no-op write the fragment's PC alone; a table's jump takes the fragment whole
to the one pad that its active lanes name; PHINT moves on, and begins the save that is requested of a ganged group. -/
theorem laneJumps : Obligations.LaneJumps := by
  refine ⟨fun o l => ⟨decodeLane_ljmp o, decodeLane_lpad l, _, decodeLane_lnop⟩,
    fun f s hl => ⟨ljmp_goes hl f, lpad_goes_on hl f, lnop_goes_on hl f⟩, ?table, ?hint⟩
  case table =>
    intro f s e k bound w hl hx tab target hn hslices hk hlt hbound hw hcount hpad
    have hbound' : tableWord s tab 0 = .ok bound := tableWord_ok (by simpa using hbound)
    have htarget : padTarget s tab k = .target target.toNat := padTarget_of_pad (tableWord_ok hw) rfl hcount hpad
    obtain ⟨tk, h⟩ := exec_ljtab hl hx hn hslices hk hlt hbound' htarget
    exact jumped_only hl h
  case hint =>
    intro f s hl m hm
    have hmap : phintMap f = m := phintMap_eq f
    have hrun := exec_phint (s := s) (f := f) (hmap ▸ hm)
    rw [hmap] at hrun
    refine ⟨fun hreq => ?_, fun u hreq hgang => ?_⟩
    · rw [hreq] at hrun
      exact ⟨_, hrun, nextLane_only hl⟩
    · rw [hreq, hgang] at hrun
      exact ⟨_, hrun, saveGroup_nextLane hl _⟩

end
